-- ==== Sys2Proof/Word.lean ====
section
/-! DEFINITION. The word types of the Strelit OZS-4576-L (spec/00_scope.md, R7) and the plain data shapes shared by all files. -/
namespace Sys2Proof

/-- One byte of memory. -/
abbrev Byte := BitVec 8
/-- A 32-bit lane slice of a vector register (R21). -/
abbrev W32 := BitVec 32
/-- A 64-bit scalar, an address or a control word. -/
abbrev W64 := BitVec 64
/-- A lane set or a lane mask: bit l is lane l (R21). -/
abbrev Lanes := BitVec 64
/-- A 128-byte line, byte i at bits [8i+7:8i] (R218). -/
abbrev LineData := BitVec 1024
/-- A byte mask of a line (R232). -/
abbrev LineMask := BitVec 128
/-- A sparse table: keys strictly rising, every other key at the default its reader names. -/
abbrev NMap (α : Type) := List (Nat × α)

end Sys2Proof
end

