-- ==== Sys2Proof/Syntax.lean ====
section
/-! DEFINITION. The instructions and the steps of the Strelit, one constructor for each row of spec/opcode_table.json.
The first part (rows 0 to 182) are the instruction words of spec/05, R107 to R111, with their operand fields as the words hold them;
the second part (rows 183 to 317) are the steps the device, its firmware F, its engines and its host take. -/
namespace Sys2Proof

/-- A scalar field: s0 to s127 (R106). -/
abbrev SReg := BitVec 7
/-- An 11-bit vector register field, direct or indexed (R103). -/
abbrev VField := BitVec 11
/-- A mask field: 0 all lanes of the split, else s1 to s63 (R102, R129). -/
abbrev MField := BitVec 6

/-- The format tags (R166). The reserved codes 0x16 to 0x1F are no tag. -/
inductive FTag where
  | raw | i32 | n32 | f32 | i64 | n64 | f64 | f16x2 | bf16x2 | i16x2 | n16x2 | i8x4 | n8x4
  | e4m3x4 | e5m2x4 | e3m2s | e2m3s | e2m1x8 | mxi8x4 | e8m0x4 | cap | route
  deriving DecidableEq, Repr

/-- The causes of spec/20, R385 (codes in Machine/Traps: `Cause.code`). -/
inductive Cause where
  | illegalOp | illegalClass | reservedField | clauseCount | landingPad | tableBound | privilege | bkpt | trapInsn | step | width
  | regAlign | regRange | regEmpty | indexWindow | format
  | fpInvalid | fpDivzero | fpOverflow | fpUnderflow | fpInexact | intDivzero
  | capTag | capBounds | capPerm | capSealed | capKind | capRepresent
  | translation | pagePerm | drainFault | window | align | uncorrectable | integrity | hostAbort
  | matrixOperand | matrixFormat | copyFault | cordOverrun | cordState | ringFormat | orphanEngine
  | routeCause | staleTarget | overwrite | firewall
  | watchdog | bankTimeout | saveTimeout | world | machineCheck | debugHalt
  deriving DecidableEq, Repr

/-- A group of a team: the core is 144 x die + core (R20, R44). -/
structure GroupId where
  core : Nat
  slot : Nat
  group : Nat
  deriving DecidableEq, Repr

/-- A split slot of a group (R124). -/
structure Site where
  g : GroupId
  split : Nat
  deriving DecidableEq, Repr

/-- One-source vector operands (format V: d, a, mask, w bit). -/
structure VU where
  d : VField
  a : VField
  m : MField
  wa : Bool
  deriving DecidableEq, Repr

/-- Two-source vector operands. -/
structure VB where
  d : VField
  a : VField
  b : VField
  m : MField
  wa : Bool
  wb : Bool
  deriving DecidableEq, Repr

/-- Three-source vector operands. -/
structure VT where
  d : VField
  a : VField
  b : VField
  c : VField
  m : MField
  wa : Bool
  wb : Bool
  wc : Bool
  deriving DecidableEq, Repr

/-- The fields of format M but the opcode (R101). -/
structure MOp where
  size : BitVec 3
  t : VField
  base : VField
  off : VField
  imm8 : BitVec 8
  bsel : Bool
  order : BitVec 3
  scope : BitVec 3
  m : MField
  deriving DecidableEq, Repr

/-- The fields of a capability word (R60): u the form, d, a, b the operand fields. -/
structure CapOp where
  u : Bool
  d : VField
  a : VField
  b : VField
  m : MField
  wa : Bool
  wb : Bool
  deriving DecidableEq, Repr

/-- A scalar word's fields (format S). -/
structure SOp where
  d : SReg
  a : SReg
  b : SReg
  imm : BitVec 32
  deriving DecidableEq, Repr

/-- A copy word's fields (R319): destination pair, source pair, block, spaces, KT. -/
structure CpyOp where
  d : SReg
  a : SReg
  b : SReg
  ssp : BitVec 2
  dsp : BitVec 2
  kt : Bool
  deriving DecidableEq, Repr

/-- The fields a write of GRTIGHT carries (R394, R395). -/
structure Tightening where
  grIssue : Nat
  grMatrix : Nat
  grCopy : Nat
  grHearth : Nat
  grace : Nat
  deriving DecidableEq, Repr

/-- Why a team is asked to bank (R399). -/
inductive BankReason where
  | request | distributor | checkpoint | watchdog
  deriving DecidableEq, Repr

/-- Where an uncorrectable SRAM or HBM error lies (R248). -/
inductive ErrorPlace where
  | l1Line (core line : Nat)
  | l2Copy (line site : Nat)
  | tlbEntry (core index : Nat)
  | directoryEntry (line : Nat)
  | teamStore (core slot : Nat)
  | hearthEntry (core index : Nat)
  | hbmLine (line : Nat)
  | macLine (line : Nat)
  deriving DecidableEq, Repr

/-- The instructions and steps, in the order of spec/opcode_table.json. -/
inductive Instr where
  -- CTRL (class 0x0): R134 to R146, R391, R392, R94
  | bra (off : BitVec 32)
  | brz (a : SReg) (off : BitVec 32)
  | brnz (a : SReg) (off : BitVec 32)
  | mskip (a : SReg) (off : BitVec 32)
  | brv (a : SReg) (off : BitVec 32)
  | jmpt (a b : SReg)
  | jmptC (a b : SReg)
  | jmptv (a : SReg) (idx : VField) (wi : Bool)
  | call (off : BitVec 32)
  | callt (a b : SReg)
  | calltC (a b : SReg)
  | calltv (a : SReg) (idx : VField) (wi : Bool) (link : VField)
  | ret (a : SReg)
  | retv (link : VField) (wl : Bool)
  | bar (n : BitVec 4) (count : BitVec 6)
  | pwait (n : BitVec 3) (k : BitVec 4)
  | splits (d : SReg) (var : BitVec 2)
  | trap (code : BitVec 16) (m : MField)
  | bkpt (m : MField)
  | sget (d : SReg) (r : BitVec 8)
  | sset (a : SReg) (r : BitVec 8)
  | tlbiDropVa (tenant : Nat) (va : W64)
  | tlbiDropTenant (tenant : Nat)
  | launch (q p d : SReg)
  -- SCALAR (class 0x1): R149 to R152
  | smov (o : SOp)
  | smovi (o : SOp)
  | smovhi (o : SOp)
  | sadd (o : SOp)
  | ssub (o : SOp)
  | smul (o : SOp)
  | smulhs (o : SOp)
  | smulhn (o : SOp)
  | sdivs (o : SOp)
  | sdivn (o : SOp)
  | srems (o : SOp)
  | sremn (o : SOp)
  | sand (o : SOp)
  | sor (o : SOp)
  | sxor (o : SOp)
  | sandn (o : SOp)
  | sshl (o : SOp)
  | sshrn (o : SOp)
  | sshrs (o : SOp)
  | smins (o : SOp)
  | smaxs (o : SOp)
  | sminn (o : SOp)
  | smaxn (o : SOp)
  | sclz (o : SOp)
  | sctz (o : SOp)
  | spopc (o : SOp)
  | sbext (o : SOp)
  | sbins (o : SOp)
  | ssel (o : SOp)
  | scmp (o : SOp)
  -- VALU (class 0x2): R192 to R202
  | vmov (o : VU)
  | vmovi (d : VField) (imm : BitVec 22) (sub : BitVec 2) (m : MField)
  | vmovs (d : VField) (a : SReg) (tag : BitVec 5) (m : MField)
  | vadd (o : VB) (sat : Bool)
  | vaddi (o : VU) (imm : BitVec 22) (sat : Bool)
  | vsub (o : VB) (sat : Bool)
  | vmul (o : VB) (sat : Bool)
  | vfma (o : VT)
  | vfms (o : VT)
  | vmin (o : VB)
  | vmax (o : VB)
  | vclamp (o : VT)
  | vabs (o : VU) (sat : Bool)
  | vneg (o : VU) (sat : Bool)
  | vaddmin (o : VT)
  | vmulh (o : VB)
  | vcmp (d : SReg) (a b : VField) (cond : BitVec 3) (m : MField) (wa wb : Bool)
  | vsel (o : VB) (c : SReg)
  -- VBIT (class 0x3): R203 to R216
  | vand (o : VB)
  | vor (o : VB)
  | vxor (o : VB)
  | vnot (o : VU)
  | vshl (o : VB)
  | vshr (o : VB)
  | vsra (o : VB)
  | vclz (o : VU)
  | vpopc (o : VU)
  | vbfe (o : VU) (pos : BitVec 6) (len : BitVec 7) (sx : Bool)
  | vbfi (o : VU) (pos : BitVec 6) (len : BitVec 7)
  | vdiv (o : VB)
  | vsqrt (o : VU)
  | vrcp (o : VU)
  | vrsq (o : VU)
  | vexp2 (o : VU)
  | vlog2 (o : VU)
  | vrint (o : VU) (seed : SReg) (mode : BitVec 3)
  | vscale (o : VB)
  | vclass (o : VU)
  | vcvt (o : VU) (seed : SReg) (p : BitVec 4) (tag : BitVec 5) (mode : BitVec 3)
  | vtag (o : VU) (tag : BitVec 5)
  -- LANE (class 0x4): R153 to R164
  | vshfl (o : VB)
  | vshflx (o : VU) (k : BitVec 6)
  | vshup (o : VU) (n : BitVec 6) (c : VField) (wc : Bool)
  | vshdn (o : VU) (n : BitVec 6) (c : VField) (wc : Bool)
  | vbcast (o : VU) (b : SReg)
  | vrdl (d : SReg) (a : VField) (b : SReg) (sz : Bool) (wa : Bool)
  | vwrl (d : VField) (a b : SReg) (sz : Bool)
  | vvote (d : SReg) (a : VField) (opr : BitVec 2) (m : MField) (wa : Bool)
  | vred (d : SReg) (a : VField) (opr : BitVec 2) (sz : Bool) (m : MField) (wa : Bool)
  | vscan (o : VU) (opr : BitVec 2) (x sz : Bool)
  | xset (x : BitVec 3) (a : VField) (add : Bool) (m : MField) (wa : Bool)
  | xwin (x : BitVec 3) (a : VField) (len : BitVec 6)
  | xget (d : VField) (x : BitVec 3) (m : MField)
  -- MEM (class 0x5): R251 to R270
  | ld (tag : BitVec 5) (o : MOp)
  | ldRec (tag : BitVec 5) (o : MOp)
  | st (o : MOp)
  | stRec (o : MOp)
  | ldu (o : MOp)
  | stu (o : MOp)
  | ldc (o : MOp)
  | stc (o : MOp)
  | atom (op : BitVec 4) (o : MOp)
  | atomu (op : BitVec 4) (o : MOp)
  | fence (order scope : BitVec 3)
  -- LOCAL (class 0x6): R271 to R274
  | lds (tag : BitVec 5) (o : MOp)
  | sts (o : MOp)
  | atoms (op : BitVec 4) (o : MOp)
  | ldx (tag : BitVec 5) (o : MOp)
  | stx (o : MOp)
  | atomx (op : BitVec 4) (o : MOp)
  -- CAP (class 0x7): R60 to R72
  | cgeta (o : CapOp)
  | cgetb (o : CapOp)
  | cgetl (o : CapOp)
  | cgetp (o : CapOp)
  | cgetk (o : CapOp)
  | cgett (o : CapOp)
  | cseta (o : CapOp)
  | cinc (o : CapOp)
  | cinci (u : Bool) (d a : VField) (imm : BitVec 22) (m : MField) (wa : Bool)
  | cbound (o : CapOp)
  | cboundx (o : CapOp)
  | candp (o : CapOp)
  | cseal (o : CapOp)
  | csealE (o : CapOp)
  | cunseal (o : CapOp)
  | csub (o : CapOp)
  | ceq (o : CapOp)
  | cclr (o : CapOp)
  | cmovc (o : CapOp)
  | cmovcX (o : CapOp)
  | creg (d : SReg) (a b : VField)
  | csweep (d a b : SReg)
  | cmint (d : SReg) (a : BitVec 4) (b : SReg)
  -- REMOTE (class 0x8): R378 to R382
  | send (d a b : VField) (ofs : BitVec 9) (m : MField) (wa wb : Bool)
  | sendm (d a b : VField) (ofs : BitVec 9) (nm1 : BitVec 2) (m : MField) (wa wb : Bool)
  | empty (d : VField) (nm1 : BitVec 6)
  | isfull (d : SReg) (a : VField) (nm1 : BitVec 6)
  | rtchk (d a b : VField) (capchk : Bool) (m : MField) (wa wb : Bool)
  -- COPY (class 0x9): R319 to R326
  | cpy (o : CpyOp)
  | cpyt (o : CpyOp)
  | cpyg (o : CpyOp) (esz : BitVec 3)
  | cpys (o : CpyOp) (esz : BitVec 3)
  | kinit (a : BitVec 5)
  | kinitR (a d : SReg)
  | kacq (d : SReg) (a : BitVec 5) (nb : Bool)
  | karr (a b : SReg)
  | karrC (d a b : SReg)
  | kwait (a : SReg)
  | krel (a : SReg)
  | ksend (d a : VField) (b : SReg)
  | kstat (d a : SReg) (var : BitVec 2)
  -- MATRIX (class 0xA): R348 to R355
  | mmap (a b : SReg) (om : BitVec 3)
  | mzero (tile : BitVec 3)
  | mload (a b : SReg) (tile : BitVec 3)
  | mloop (ma mb : BitVec 3) (b : SReg) (tile : BitVec 3)
  | mloopResume (ma mb : BitVec 3) (b : SReg) (tile : BitVec 3)
  | mdrain (d a b : SReg) (tile : BitVec 3) (sys : Bool)
  | mwait (d : SReg) (tile : BitVec 3)
  | mprog (d : SReg) (tile : BitVec 3) (var : BitVec 2)
  -- STEPS: issue and traps (spec/06, spec/20)
  | quadrantChoice (core q : Nat)
  | clauseBreak (at_ : Site)
  | overflowRotation (g : GroupId)
  | trapDelivery (g : GroupId)
  | lateFault (g : GroupId) (lanes : Lanes) (whole : Bool) (cause : Cause) (addr : W64)
  -- STEPS: hearth, directory, host edge (spec/10, spec/12, spec/14)
  | loadReturn (g : GroupId) (id : Nat)
  | storeAccept (core : Nat)
  | tlbWalk (core index : Nat)
  | walkFail (core index : Nat) (cause : Cause)
  | hearthAgeTrigger (core index : Nat)
  | entryLeave (core index : Nat)
  | homeAtomic (g : GroupId) (id : Nat)
  | scratchWriteDone (g : GroupId) (id : Nat)
  | clusterAccessDone (g : GroupId) (id : Nat)
  | read (line core : Nat)
  | readNew (line : Nat) (g : GroupId) (id : Nat)
  | grantReq (line core : Nat) (mark engine : Bool)
  | grant (line core : Nat) (engine : Bool)
  | recall (line core : Nat)
  | grantBack (line core : Nat)
  | promote (line core : Nat)
  | fwd (line core reader : Nat)
  | fwdData (line reader : Nat) (data : LineData) (tags : BitVec 8)
  | drainData (line core index : Nat) (more : Bool)
  | drainProv (line core index : Nat)
  | commit (line core index : Nat) (more : Bool)
  | ack (core index : Nat) (endMark : Bool)
  | inval (line site : Nat)
  | invalAck (line site : Nat)
  | hostWriteAccept (core index : Nat)
  | memoryServe (ctrl : Nat)
  -- STEPS: launch and placement (spec/04)
  | packetTake (die q : Nat)
  | dependenceReeval (die q : Nat)
  | teamPlace (grid : Nat)
  | rickPlace (grid : Nat)
  | rickReserve (grid cluster : Nat)
  | rickWithdraw (cluster : Nat)
  | reservationTimeout (cluster : Nat)
  | reservationPauseEnd (cluster : Nat)
  | nonrickReserve (grid cluster : Nat)
  | teamRetire (core slot : Nat)
  -- STEPS: banking, watchdog, debugging (spec/20, spec/21)
  | bankRequest (core slot : Nat) (why : BankReason)
  | bankTimeout (core slot : Nat)
  | bankCollect (core slot : Nat)
  | saveTimeout (core slot : Nat)
  | rekindle (image : Nat)
  | watchdogExpiry (die q : Nat)
  | forcedEntryLog (core index : Nat)
  -- STEPS: debarking sweeps (spec/03)
  | sweepCorePhase (tenant core : Nat)
  | sweepMemoryPhase (tenant : Nat)
  | sweepComplete (tenant : Nat)
  -- STEPS: engines (spec/15, spec/16)
  | ringNotify (g : GroupId) (core slot : Nat) (value : BitVec 32)
  | entryAccept (core slot : Nat)
  | copyChunk (core slot : Nat) (cmd : Nat)
  | ksendArrival (packet : Nat)
  | matrixAccept (core : Nat)
  | matrixStep (core : Nat)
  | matrixZeroPerform (core : Nat)
  | matrixLoadPerform (core : Nat)
  | matrixDrainPerform (core : Nat)
  | amaxAtomic (core : Nat)
  -- STEPS: fabric (spec/18, spec/23)
  | packetHop (packet : Nat)
  | sendDeliver (packet : Nat)
  | responseArrival (g : GroupId) (seq reason hop : Nat)
  | sendTimeout (g : GroupId) (seq : Nat)
  -- STEPS: firmware, security controller, host functions (spec/22, spec/23)
  | illegalOp (cls : BitVec 4) (word : W64)
  -- the words of CTRL, LANE and MEM without an operand
  | nop
  | retX
  | exit
  | yield
  | barr
  | eret
  | eretSkip
  | eretCont
  | gfence
  | drain
  -- STEPS that outside parties cause (F, S, the host, the debug controller, the links, errors): their operands stand in State.req
  | reset
  | coldReset
  | admitDevice
  | health
  | checkpoint
  | ptable
  | partition
  | worldCreate
  | worldDestroy
  | dbgUnlock
  | powercap
  | image
  | getVersion
  | getCapabilities
  | negotiateAlgorithms
  | getDigests
  | getCertificate
  | challenge
  | getMeasurements
  | keyExchange
  | finish
  | slhSig
  | lockInterface
  | getDeviceInterfaceReport
  | startInterface
  | stopInterface
  | ideStreamFail
  | tdiConfigWrite
  | functionLevelReset
  | ideKm
  | pselWrite
  | pcntRead
  | pstatWrite
  | thermalThrottle
  | junctionFatal
  | ashImage
  | singleBitError
  | bisnpdataResponse
  | hostRead
  | hostOwnershipRequest
  | hostWrite
  | birspi
  | backInvalidateTimeout
  | hostSnoop
  | doorbell
  | flitReplay
  | linkRetrain
  | linkDown
  | linkUp
  | qstateOff
  | qstateRun
  | qstateStop
  | registerWrite
  | hrearmRetry
  | hrearmDiscard
  | gresumeRetry
  | gresumeSkip
  | gresumeDeliver
  | gresumeKill
  | bankreq
  | grtight
  | dbgcmdHalt
  | dbgcmdResume
  | dbgcmdStep
  | sramUncorrectable
  | poolBankRetire
  | coppicing
  | silentDrop
  | memoryRequest
  deriving DecidableEq, Repr

end Sys2Proof
end

