-- ==== Sys2Proof/WellFormed.lean ====
section
/-! DEFINITION. Which instructions can stand in a word: the conditions that R112, step 4, puts on the fields an instruction uses.
A step of the device (rows 183 to 317, and the two TLBI drops) stands in no word and is well formed as it is. -/
namespace Sys2Proof

/-- A register field that names a register directly (R103). -/
def VField.direct (f : VField) : Bool := decide (f.toNat < 1536)

/-- The orders and scopes of a load (R255): rlx, acq, sc, racq; racq at clu or wider. -/
def loadOrderOk (order scope : BitVec 3) : Bool :=
  (order == 0 || order == 1 || order == 4 || (order == 5 && decide (2 ≤ scope.toNat))) && decide (scope.toNat ≤ 4)

/-- The orders and scopes of LD: the load's for a defined tag; for a reserved tag (R110) any defined code, as the worked example of
spec/05 with OP 0x16, ORDER rel and the fate FORMAT has it (DEDUCED, log entry 26). -/
def ldOrderOk (tag : BitVec 5) (order scope : BitVec 3) : Bool :=
  if tag.toNat < 22 then loadOrderOk order scope else decide (order.toNat ≤ 5) && decide (scope.toNat ≤ 4)

/-- The orders and scopes of a store (R255): rlx, rel, sc. -/
def storeOrderOk (order scope : BitVec 3) : Bool :=
  (order == 0 || order == 2 || order == 4) && decide (scope.toNat ≤ 4)

/-- The orders and scopes of an atomic (R255). -/
def atomOrderOk (order scope : BitVec 3) : Bool :=
  (decide (order.toNat ≤ 4) || (order == 5 && decide (2 ≤ scope.toNat))) && decide (scope.toNat ≤ 4)

/-- The BASE field (R101): a quad number 0 to 383, or a scalar pair in [6:0]. -/
def MOp.baseOk (o : MOp) : Bool := if o.bsel then decide (o.base.toNat < 128) else decide (o.base.toNat < 384)

/-- The shape of a uniform memory word (R262, R268). -/
def MOp.uniformOk (o : MOp) : Bool :=
  o.bsel && decide (o.base.toNat < 128) && o.m == 0 && decide (o.t.toNat < 128)

/-- The shape of a LOCAL word (R271). -/
def MOp.localOk (o : MOp) : Bool := o.bsel && decide (o.base.toNat < 128) && decide (o.size.toNat ≤ 4)

/-- The uniform form of a capability word (R60): scalar fields, no mask, no w bit. -/
def CapOp.formOk (o : CapOp) : Bool :=
  !o.u || (decide (o.d.toNat < 128) && decide (o.a.toNat < 128) && decide (o.b.toNat < 128) && o.m == 0 && !o.wa && !o.wb)

/-- A capability word without a second operand. -/
def CapOp.oneOk (o : CapOp) : Bool := o.formOk && o.b == 0 && !o.wb

/-- The pair fields of a copy word (R319): 0 where the side is not global. -/
def CpyOp.pairsOk (o : CpyOp) (block : Nat) : Bool :=
  (o.dsp == 0 || o.d == 0) && (o.ssp == 0 || o.a == 0) && o.b != 0 && decide (o.b.toNat + block ≤ 128)

/-- MODE and SEED (R176, R203): MODE 0 to 5, and a SEED only with SR. -/
def modeOk (seed : SReg) (mode : BitVec 3) : Bool := decide (mode.toNat ≤ 5) && (seed == 0 || mode == 5)

/-- The special registers some level may write (R392). -/
def ssetNames (r : Nat) : Bool := r == 0 || r == 5 || r == 6 || r == 7 || (decide (17 ≤ r) && decide (r ≤ 22))

/-- R112, step 4, for the fields an instruction uses. -/
def Instr.wf : Instr → Bool
  | .jmptv _ _ _ => true
  | .calltv _ _ _ link => link.direct
  | .retv link _ => link.direct
  | .pwait n k => decide (n.toNat ≤ 5) && k != 15
  | .sget _ r => decide (r.toNat ≤ 22)
  | .sset _ r => ssetNames r.toNat
  | .launch q p _ => q.toNat % 2 == 0 && p.toNat % 8 == 0 && decide (8 ≤ p.toNat) && decide (p.toNat ≤ 120)
  | .smov o => o.b == 0 && o.imm == 0
  | .smovi o => o.a == 0
  | .smovhi o => o.b == 0
  | .sclz o => o.b == 0 && o.imm == 0
  | .sctz o => o.b == 0 && o.imm == 0
  | .spopc o => o.b == 0 && o.imm == 0
  | .sbext o => o.b == 0 && decide (o.imm.toNat < 2 ^ 14) && decide (1 ≤ o.imm.toNat / 64 % 128) && decide (o.imm.toNat / 64 % 128 ≤ 64)
  | .sbins o => o.b == 0 && decide (o.imm.toNat < 2 ^ 13) && decide (1 ≤ o.imm.toNat / 64 % 128) && decide (o.imm.toNat / 64 % 128 ≤ 64)
  | .ssel o => decide (o.imm.toNat < 128)
  | .scmp o => decide (o.imm.toNat ≤ 9)
  | .vmovi _ imm sub _ => sub != 3 || (decide (imm.toNat % 2 ^ 17 < 2 ^ 16) && !(imm.toNat / 2 ^ 17 == 4 || imm.toNat / 2 ^ 17 == 5 || imm.toNat / 2 ^ 17 == 6))
  | .vrint _ seed mode => modeOk seed mode
  | .vcvt _ seed _ _ mode => modeOk seed mode
  | .vshfl o => o.a.direct
  | .vshflx o _ => o.a.direct
  | .vshup o _ _ _ => o.a.direct
  | .vshdn o _ _ _ => o.a.direct
  | .vbcast o _ => o.a.direct
  | .vrdl _ a _ _ _ => a.direct
  | .vwrl d _ _ _ => d.direct
  | .vvote _ _ opr _ _ => opr != 3
  | .vred _ _ opr _ _ _ => decide (opr.toNat ≤ 1)
  | .vscan _ opr _ _ => decide (opr.toNat ≤ 1)
  | .xwin _ a _ => a.direct
  | .ld tag o => o.baseOk && decide (o.size.toNat ≤ 4) && ldOrderOk tag o.order o.scope
  | .ldRec tag o => o.baseOk && o.size == 5 && ldOrderOk tag o.order o.scope
  | .st o => o.baseOk && decide (o.size.toNat ≤ 4) && storeOrderOk o.order o.scope
  | .stRec o => o.baseOk && o.size == 5 && storeOrderOk o.order o.scope
  | .ldu o => o.uniformOk && decide (o.off.toNat < 128) && decide (o.size.toNat ≤ 3) && loadOrderOk o.order o.scope
  | .stu o => o.uniformOk && decide (o.off.toNat < 128) && decide (o.size.toNat ≤ 3) && storeOrderOk o.order o.scope
  | .ldc o => o.baseOk && o.size == 4 && loadOrderOk o.order o.scope
  | .stc o => o.baseOk && o.size == 4 && storeOrderOk o.order o.scope
  | .atom op o => decide (op.toNat ≤ 9) && o.baseOk && (o.size == 2 || o.size == 3) && atomOrderOk o.order o.scope
  | .atomu op o => decide (op.toNat ≤ 9) && o.uniformOk && (o.size == 2 || o.size == 3) && atomOrderOk o.order o.scope
      && (if op == 1 || op == 2 then decide (o.off.toNat < 256) else decide (o.off.toNat < 128)) && (op != 7 || decide (o.t.toNat ≤ 126))
  | .fence order scope => decide (1 ≤ order.toNat) && decide (order.toNat ≤ 4) && decide (scope.toNat ≤ 4)
  | .lds _ o => o.localOk && (o.order == 0 || o.order == 1 || o.order == 4) && decide (o.scope.toNat ≤ 1)
  | .sts o => o.localOk && (o.order == 0 || o.order == 2 || o.order == 4) && decide (o.scope.toNat ≤ 1)
  | .atoms op o => decide (op.toNat ≤ 7) && o.localOk && (o.size == 2 || o.size == 3) && decide (o.order.toNat ≤ 4) && decide (o.scope.toNat ≤ 1)
  | .ldx _ o => o.localOk && (o.order == 0 || o.order == 1 || o.order == 4) && decide (o.scope.toNat ≤ 2)
  | .stx o => o.localOk && (o.order == 0 || o.order == 2 || o.order == 4) && decide (o.scope.toNat ≤ 2)
  | .atomx op o => decide (op.toNat ≤ 7) && o.localOk && (o.size == 2 || o.size == 3) && decide (o.order.toNat ≤ 4) && decide (o.scope.toNat ≤ 2)
  | .cgeta o => o.oneOk
  | .cgetb o => o.oneOk
  | .cgetl o => o.oneOk
  | .cgetp o => o.oneOk
  | .cgetk o => o.oneOk
  | .cgett o => o.oneOk
  | .cseta o => o.formOk
  | .cinc o => o.formOk
  | .cinci u d a _ m wa => !u || (decide (d.toNat < 128) && decide (a.toNat < 128) && m == 0 && !wa)
  | .cbound o => o.formOk
  | .cboundx o => o.formOk
  | .candp o => o.formOk
  | .cseal o => o.formOk
  | .csealE o => o.oneOk
  | .cunseal o => o.formOk
  | .csub o => o.formOk
  | .ceq o => o.formOk && decide (o.d.toNat < 128)
  | .cclr o => o.oneOk
  | .cmovc o => o.oneOk
  | .cmovcX o => o.formOk && !o.wb && !o.wa && (o.u || (decide (o.a.toNat < 128) && o.b == 0))
  | .creg _ a _ => a.direct
  | .cmint _ _ b => decide (b.toNat ≤ 125)
  | .send d a b _ _ _ _ => d.direct && a.direct && b.direct
  | .sendm d a b _ _ _ _ _ => d.direct && a.direct && b.direct
  | .empty d _ => d.direct
  | .isfull _ a _ => a.direct
  | .rtchk _ a b capchk _ _ wb => a.direct && b.direct && (capchk || (b == 0 && !wb))
  | .cpy o => o.pairsOk 4
  | .cpyt o => o.pairsOk 7
  | .cpyg o _ => o.pairsOk 5
  | .cpys o _ => o.pairsOk 5
  | .karr _ b => b != 0 && decide (b.toNat ≤ 126)
  | .karrC d _ b => b != 0 && decide (b.toNat ≤ 125) && d != 0 && d.toNat % 2 == 0
  | .ksend d a b => d.direct && a.direct && b != 0 && decide (b.toNat ≤ 126)
  | .kstat _ a var => var != 3 && (var != 1 || decide (a.toNat ≤ 31))
  | .mmap a b _ => decide (a.toNat ≤ 126) && b != 0 && decide (b.toNat ≤ 124)
  | .mload a b _ => decide (a.toNat ≤ 126) && b != 0 && decide (b.toNat ≤ 126)
  | .mdrain d a b _ _ => decide (d.toNat ≤ 126) && decide (a.toNat ≤ 126) && b != 0 && decide (b.toNat ≤ 124)
  | .mprog _ _ var => decide (var.toNat ≤ 1)
  | _ => true

end Sys2Proof
end

