-- ==== Sys2Proof/Decode.lean ====
section
/-! DEFINITION. The clause header and the instruction words (spec/05): the decoder, total on any word and any bytes, and after it the
encoder, written from the same tables. A word whose opcode its class does not define decodes to `illegalOp` (R112, step 1); a word that
fails step 4 is an error, which remembers whether its instruction belongs to level S (R112, step 2 comes before step 4). -/
namespace Sys2Proof

/-- Why a word is no instruction. `sLevel`: the opcode belongs to an instruction of level S (CSWEEP, CMINT, some SSETs). -/
inductive DecodeError where
  | reservedField (sLevel : Bool)
  | shortBytes
  | illegalClass
  deriving DecidableEq, Repr

/-- `len` bits of `w` from bit `lo`. -/
def field (w : W64) (lo len : Nat) : BitVec len := w.extractLsb' lo len

/-- Little-endian value of a list of bytes (R7). -/
def leNat : List Byte → Nat
  | [] => 0
  | b :: bs => b.toNat + 256 * leNat bs

/-- The `n` little-endian bytes of a number (R7). -/
def leBytes : Nat → Nat → List Byte
  | 0, _ => []
  | n + 1, v => BitVec.ofNat 8 v :: leBytes n (v / 256)

/-- The clause header (R96). -/
structure Header where
  cls : BitVec 4
  count : BitVec 4
  waits : BitVec 24
  lp : Bool
  rwp : Bool
  yld : Bool
  full : Bool
  rsv : BitVec 4
  label : BitVec 12
  recipe : BitVec 12
  deriving DecidableEq, Repr

/-- Reads a header word (R96). -/
def decodeHeader (w : W64) : Header where
  cls := field w 60 4
  count := field w 56 4
  waits := field w 32 24
  lp := w.getLsbD 31
  rwp := w.getLsbD 30
  yld := w.getLsbD 29
  full := w.getLsbD 28
  rsv := field w 24 4
  label := field w 12 12
  recipe := field w 0 12

/-- Writes a header word (R96). -/
def encodeHeader (h : Header) : W64 :=
  h.cls ++ h.count ++ h.waits ++ BitVec.ofBool h.lp ++ BitVec.ofBool h.rwp ++ BitVec.ofBool h.yld ++ BitVec.ofBool h.full ++ h.rsv
    ++ h.label ++ h.recipe

/-- WAITN of a header (R96): 0xF is no wait. -/
def Header.wait (h : Header) (n : Nat) : Nat := h.waits.toNat / 16 ^ n % 16

/-- Accepts a word whose unused bits are zero and whose fields are in their ranges (R112, step 4). -/
def accept (sLevel zeros : Bool) (i : Instr) : Except DecodeError Instr :=
  if zeros && i.wf then .ok i else .error (.reservedField sLevel)

/-! The fields of the five formats (R101). -/

def fOp (w : W64) : Nat := (field w 54 10).toNat
def fD (w : W64) : VField := field w 43 11
def fA (w : W64) : VField := field w 32 11
def fB (w : W64) : VField := field w 21 11
def fC (w : W64) : VField := field w 10 11
def fM (w : W64) : MField := field w 4 6
def fWa (w : W64) : Bool := w.getLsbD 3
def fWb (w : W64) : Bool := w.getLsbD 2
def fWc (w : W64) : Bool := w.getLsbD 1
def fRsv (w : W64) : Bool := w.getLsbD 0
def fImm22 (w : W64) : BitVec 22 := field w 10 22
def fSub (w : W64) : BitVec 2 := field w 1 2
def fSD (w : W64) : SReg := field w 47 7
def fSA (w : W64) : SReg := field w 40 7
def fSB (w : W64) : SReg := field w 33 7
def fSImm (w : W64) : BitVec 32 := field w 1 32
def fCSA (w : W64) : SReg := field w 47 7
def fCSB (w : W64) : SReg := field w 40 7
def fCImm (w : W64) : BitVec 32 := field w 8 32
def fCM (w : W64) : MField := field w 2 6
def fCRsv (w : W64) : BitVec 2 := field w 0 2

def fVU (w : W64) : VU := ⟨fD w, fA w, fM w, fWa w⟩
def fVB (w : W64) : VB := ⟨fD w, fA w, fB w, fM w, fWa w, fWb w⟩
def fVT (w : W64) : VT := ⟨fD w, fA w, fB w, fC w, fM w, fWa w, fWb w, fWc w⟩
def fS (w : W64) : SOp := ⟨fSD w, fSA w, fSB w, fSImm w⟩
def fMOp (w : W64) : MOp :=
  ⟨field w 54 3, fD w, fA w, fB w, field w 13 8, w.getLsbD 12, field w 9 3, field w 6 3, field w 0 6⟩
def fCap (w : W64) : CapOp := ⟨w.getLsbD 20, fD w, fA w, fB w, fM w, fWa w, fWb w⟩
def fCpy (w : W64) : CpyOp := ⟨field w 43 7, field w 32 7, field w 21 7, field w 10 2, field w 12 2, w.getLsbD 14⟩

/-- A register field that holds a scalar: its bits above 6 are zero (R106). -/
def hi4 (f : VField) : Bool := decide (f.toNat < 128)

/-- The mask field of a word by its class and opcode, 0 where its form has none: ACTIVE of a word that fails step 4 of R112 (R129, R387). -/
def wordMask (cls : BitVec 4) (w : W64) : MField :=
  let op := fOp w
  match cls.toNat with
  | 0 => if op = 18 || op = 20 then fCM w else 0
  | 2 => fM w
  | 3 => fM w
  | 4 => if op = 5 || op = 6 || op = 10 || op = 12 then 0 else fM w
  | 5 => if op / 8 < 0x21 || (decide (0x23 ≤ op / 8) && decide (op / 8 ≤ 0x2E)) then field w 0 6 else 0
  | 6 => field w 0 6
  | 7 =>
    if op = 18 || op = 19 || op = 20 then 0
    else if op = 8 then (if w.getLsbD 1 then 0 else fM w)
    else if w.getLsbD 20 then 0 else fM w
  | 8 => if op = 0 || op = 1 || op = 4 then fM w else 0
  | _ => 0

/-- Class CTRL (R108, R134, R391, R94). -/
def decodeCtrl (w : W64) : Except DecodeError Instr :=
  let sa := fCSA w
  let sb := fCSB w
  let imm := fCImm w
  let m0 := fCM w == 0
  let z := fCRsv w == 0
  match fOp w with
  | 0 => accept false (sa == 0 && sb == 0 && imm == 0 && m0 && z) .nop
  | 1 => accept false (sa == 0 && sb == 0 && m0 && z) (.bra imm)
  | 2 => accept false (sb == 0 && m0 && z) (.brz sa imm)
  | 3 => accept false (sb == 0 && m0 && z) (.brnz sa imm)
  | 4 => accept false (sb == 0 && m0 && z) (.mskip sa imm)
  | 5 => accept false (sb == 0 && m0 && z) (.brv sa imm)
  | 6 => if w.getLsbD 8 then accept false (field w 9 31 == 0 && m0 && z) (.jmptC sa sb)
         else accept false (field w 9 31 == 0 && m0 && z) (.jmpt sa sb)
  | 7 => accept false (sb == 0 && !w.getLsbD 8 && field w 21 19 == 0 && m0 && z) (.jmptv sa (field w 9 11) (w.getLsbD 20))
  | 8 => accept false (sa == 0 && sb == 0 && m0 && z) (.call imm)
  | 9 => if w.getLsbD 8 then accept false (field w 9 31 == 0 && m0 && z) (.calltC sa sb)
         else accept false (field w 9 31 == 0 && m0 && z) (.callt sa sb)
  | 10 => accept false (sb == 0 && !w.getLsbD 8 && field w 32 8 == 0 && m0 && z)
            (.calltv sa (field w 9 11) (w.getLsbD 20) (field w 21 11))
  | 11 => if w.getLsbD 8 then accept false (sa == 0 && sb == 0 && field w 9 31 == 0 && m0 && z) .retX
          else accept false (sb == 0 && field w 9 31 == 0 && m0 && z) (.ret sa)
  | 12 => accept false (sa == 0 && sb == 0 && !w.getLsbD 8 && field w 21 19 == 0 && m0 && z) (.retv (field w 9 11) (w.getLsbD 20))
  | 13 => accept false (sa == 0 && sb == 0 && imm == 0 && m0 && z) .exit
  | 14 => accept false (sa == 0 && sb == 0 && imm == 0 && m0 && z) .yield
  | 15 => accept false (sa == 0 && sb == 0 && field w 18 22 == 0 && m0 && z) (.bar (field w 8 4) (field w 12 6))
  | 16 => accept false (sa == 0 && sb == 0 && imm == 0 && m0 && z) .barr
  | 17 => accept false (sa == 0 && sb == 0 && field w 15 25 == 0 && m0 && z) (.pwait (field w 8 3) (field w 11 4))
  | 18 => accept false (sa == 0 && sb == 0 && field w 24 16 == 0 && z) (.trap (field w 8 16) (fCM w))
  | 19 => match (field w 8 2).toNat with
          | 0 => accept false (sa == 0 && sb == 0 && field w 10 30 == 0 && m0 && z) .eret
          | 1 => accept false (sa == 0 && sb == 0 && field w 10 30 == 0 && m0 && z) .eretSkip
          | 2 => accept false (sa == 0 && sb == 0 && field w 10 30 == 0 && m0 && z) .eretCont
          | _ => .error (.reservedField false)
  | 20 => accept false (sa == 0 && sb == 0 && imm == 0 && z) (.bkpt (fCM w))
  | 21 => accept false (fSA w == 0 && fSB w == 0 && field w 9 24 == 0 && !fRsv w) (.sget (fSD w) (field w 1 8))
  | 22 => accept (17 == (field w 1 8).toNat || (decide (19 ≤ (field w 1 8).toNat) && decide ((field w 1 8).toNat ≤ 22)))
            (fSD w == 0 && fSB w == 0 && field w 9 24 == 0 && !fRsv w) (.sset (fSA w) (field w 1 8))
  | 23 => accept false (field w 15 25 == 0 && m0 && z) (.launch sa sb (field w 8 7))
  | 24 => accept false (sb == 0 && field w 10 30 == 0 && m0 && z) (.splits sa (field w 8 2))
  | _ => .ok (.illegalOp 0 w)

/-- Class SCALAR (R150). -/
def decodeScalar (w : W64) : Except DecodeError Instr :=
  let z := !fRsv w
  let o := fS w
  match fOp w with
  | 0 => accept false z (.smov o)
  | 1 => accept false z (.smovi o)
  | 2 => accept false z (.smovhi o)
  | 3 => accept false z (.sadd o)
  | 4 => accept false z (.ssub o)
  | 5 => accept false z (.smul o)
  | 6 => accept false z (.smulhs o)
  | 7 => accept false z (.smulhn o)
  | 8 => accept false z (.sdivs o)
  | 9 => accept false z (.sdivn o)
  | 10 => accept false z (.srems o)
  | 11 => accept false z (.sremn o)
  | 12 => accept false z (.sand o)
  | 13 => accept false z (.sor o)
  | 14 => accept false z (.sxor o)
  | 15 => accept false z (.sandn o)
  | 16 => accept false z (.sshl o)
  | 17 => accept false z (.sshrn o)
  | 18 => accept false z (.sshrs o)
  | 19 => accept false z (.smins o)
  | 20 => accept false z (.smaxs o)
  | 21 => accept false z (.sminn o)
  | 22 => accept false z (.smaxn o)
  | 23 => accept false z (.sclz o)
  | 24 => accept false z (.sctz o)
  | 25 => accept false z (.spopc o)
  | 26 => accept false z (.sbext o)
  | 27 => accept false z (.sbins o)
  | 28 => accept false z (.ssel o)
  | 29 => accept false z (.scmp o)
  | _ => .ok (.illegalOp 1 w)

/-- Class VALU (R192). -/
def decodeValu (w : W64) : Except DecodeError Instr :=
  let r := !fRsv w
  let nb := fB w == 0 && !fWb w
  let nc := fC w == 0 && !fWc w
  let sat := field w 11 10 == 0 && !fWc w
  match fOp w with
  | 0 => accept false (r && nb && nc) (.vmov (fVU w))
  | 1 => accept false (r && fA w == 0 && !fWa w) (.vmovi (fD w) (fImm22 w) (fSub w) (fM w))
  | 2 => accept false (r && sat) (.vadd (fVB w) (w.getLsbD 10))
  | 3 => accept false (r && !w.getLsbD 2) (.vaddi (fVU w) (fImm22 w) (w.getLsbD 1))
  | 4 => accept false (r && sat) (.vsub (fVB w) (w.getLsbD 10))
  | 5 => accept false (r && sat) (.vmul (fVB w) (w.getLsbD 10))
  | 6 => accept false r (.vfma (fVT w))
  | 7 => accept false r (.vfms (fVT w))
  | 8 => accept false (r && nc) (.vmin (fVB w))
  | 9 => accept false (r && nc) (.vmax (fVB w))
  | 10 => accept false (r && nb && sat) (.vabs (fVU w) (w.getLsbD 10))
  | 11 => accept false (r && nb && sat) (.vneg (fVU w) (w.getLsbD 10))
  | 12 => accept false r (.vaddmin (fVT w))
  | 13 => accept false (r && nc) (.vmulh (fVB w))
  | 14 => accept false (r && hi4 (fD w) && field w 13 8 == 0 && !fWc w)
            (.vcmp (field w 43 7) (fA w) (fB w) (field w 10 3) (fM w) (fWa w) (fWb w))
  | 15 => accept false (r && hi4 (fC w) && !fWc w) (.vsel (fVB w) (field w 10 7))
  | 16 => accept false r (.vclamp (fVT w))
  | 17 => accept false (r && hi4 (fA w) && !fWa w && nb && field w 15 6 == 0 && !fWc w)
            (.vmovs (fD w) (field w 32 7) (field w 10 5) (fM w))
  | _ => .ok (.illegalOp 2 w)

/-- Class VBIT (R203). -/
def decodeVbit (w : W64) : Except DecodeError Instr :=
  let r := !fRsv w
  let nb := fB w == 0 && !fWb w
  let nc := fC w == 0 && !fWc w
  let two := r && nc
  let one := r && nb && nc
  match fOp w with
  | 0 => accept false two (.vand (fVB w))
  | 1 => accept false two (.vor (fVB w))
  | 2 => accept false two (.vxor (fVB w))
  | 3 => accept false one (.vnot (fVU w))
  | 4 => accept false two (.vshl (fVB w))
  | 5 => accept false two (.vshr (fVB w))
  | 6 => accept false two (.vsra (fVB w))
  | 7 => accept false one (.vclz (fVU w))
  | 8 => accept false one (.vpopc (fVU w))
  | 9 => accept false (r && field w 27 5 == 0 && !fWb w && field w 18 3 == 0 && !fWc w)
           (.vbfe (fVU w) (field w 21 6) (field w 10 7) (w.getLsbD 17))
  | 10 => accept false (r && field w 27 5 == 0 && !fWb w && field w 17 4 == 0 && !fWc w) (.vbfi (fVU w) (field w 21 6) (field w 10 7))
  | 11 => accept false two (.vdiv (fVB w))
  | 12 => accept false one (.vsqrt (fVU w))
  | 13 => accept false one (.vrcp (fVU w))
  | 14 => accept false one (.vrsq (fVU w))
  | 15 => accept false one (.vexp2 (fVU w))
  | 16 => accept false one (.vlog2 (fVU w))
  | 17 => accept false (r && field w 28 4 == 0 && !fWb w && field w 13 8 == 0 && !fWc w) (.vrint (fVU w) (field w 21 7) (field w 10 3))
  | 18 => accept false two (.vscale (fVB w))
  | 19 => accept false one (.vclass (fVU w))
  | 20 => accept false (r && !fWb w && field w 18 3 == 0 && !fWc w)
            (.vcvt (fVU w) (field w 21 7) (field w 28 4) (field w 10 5) (field w 15 3))
  | 21 => accept false (r && nb && field w 15 6 == 0 && !fWc w) (.vtag (fVU w) (field w 10 5))
  | _ => .ok (.illegalOp 3 w)

/-- Class LANE (R154). -/
def decodeLane (w : W64) : Except DecodeError Instr :=
  let r := !fRsv w
  let nb := fB w == 0 && !fWb w
  let nc := fC w == 0 && !fWc w
  let m0 := fM w == 0
  let szOnly := field w 10 3 == 0 && field w 14 7 == 0 && !fWc w
  match fOp w with
  | 0 => accept false (r && nc) (.vshfl (fVB w))
  | 1 => accept false (r && field w 27 5 == 0 && !fWb w && nc) (.vshflx (fVU w) (field w 21 6))
  | 2 => accept false (r && field w 27 5 == 0 && !fWb w) (.vshup (fVU w) (field w 21 6) (fC w) (fWc w))
  | 3 => accept false (r && field w 27 5 == 0 && !fWb w) (.vshdn (fVU w) (field w 21 6) (fC w) (fWc w))
  | 4 => accept false (r && hi4 (fB w) && !fWb w && nc) (.vbcast (fVU w) (field w 21 7))
  | 5 => accept false (r && hi4 (fD w) && hi4 (fB w) && !fWb w && szOnly && m0)
           (.vrdl (field w 43 7) (fA w) (field w 21 7) (w.getLsbD 13) (fWa w))
  | 6 => accept false (r && hi4 (fA w) && !fWa w && hi4 (fB w) && !fWb w && szOnly && m0)
           (.vwrl (fD w) (field w 32 7) (field w 21 7) (w.getLsbD 13))
  | 7 => accept false (r && hi4 (fD w) && nb && field w 12 9 == 0 && !fWc w) (.vvote (field w 43 7) (fA w) (field w 10 2) (fM w) (fWa w))
  | 8 => accept false (r && hi4 (fD w) && nb && !w.getLsbD 12 && field w 14 7 == 0 && !fWc w)
           (.vred (field w 43 7) (fA w) (field w 10 2) (w.getLsbD 13) (fM w) (fWa w))
  | 9 => accept false (r && nb && field w 14 7 == 0 && !fWc w) (.vscan (fVU w) (field w 10 2) (w.getLsbD 12) (w.getLsbD 13))
  | 10 => accept false (field w 0 54 == 0) .gfence
  | 11 => accept false (r && field w 46 8 == 0 && nb && field w 10 2 == 0 && field w 13 8 == 0 && !fWc w)
            (.xset (field w 43 3) (fA w) (w.getLsbD 12) (fM w) (fWa w))
  | 12 => accept false (r && field w 46 8 == 0 && field w 16 16 == 0 && fSub w == 0 && !fWa w && m0) (.xwin (field w 43 3) (fA w) (field w 10 6))
  | 13 => accept false (r && field w 35 8 == 0 && !fWa w && nb && nc) (.xget (fD w) (field w 32 3) (fM w))
  | _ => .ok (.illegalOp 4 w)

/-- Class MEM (R110). -/
def decodeMem (w : W64) : Except DecodeError Instr :=
  let o := fMOp w
  let op := (field w 57 7).toNat
  if op < 0x20 then (if o.size == 5 then accept false true (.ldRec (field w 57 5) o) else accept false true (.ld (field w 57 5) o))
  else if op = 0x20 then (if o.size == 5 then accept false true (.stRec o) else accept false true (.st o))
  else if op = 0x21 then accept false true (.ldu o)
  else if op = 0x22 then accept false true (.stu o)
  else if op = 0x23 then accept false true (.ldc o)
  else if op = 0x24 then accept false true (.stc o)
  else if op ≤ 0x2E then accept false true (.atom (BitVec.ofNat 4 (op - 0x25)) o)
  else if op = 0x2F then .ok (.illegalOp 5 w)
  else if op ≤ 0x39 then accept false true (.atomu (BitVec.ofNat 4 (op - 0x30)) o)
  else if op = 0x3A then accept false (field w 12 45 == 0 && o.m == 0) (.fence o.order o.scope)
  else if op = 0x3B then accept false (field w 0 57 == 0) .drain
  else .ok (.illegalOp 5 w)

/-- Class LOCAL (R111). -/
def decodeLocal (w : W64) : Except DecodeError Instr :=
  let o := fMOp w
  let op := (field w 57 7).toNat
  if op < 0x20 then accept false true (.lds (field w 57 5) o)
  else if op = 0x20 then accept false true (.sts o)
  else if op ≤ 0x28 then accept false true (.atoms (BitVec.ofNat 4 (op - 0x21)) o)
  else if op < 0x40 then .ok (.illegalOp 6 w)
  else if op < 0x60 then accept false true (.ldx (field w 57 5) o)
  else if op = 0x60 then accept false true (.stx o)
  else if op ≤ 0x68 then accept false true (.atomx (BitVec.ofNat 4 (op - 0x61)) o)
  else .ok (.illegalOp 6 w)

/-- Class CAP (R62). -/
def decodeCap (w : W64) : Except DecodeError Instr :=
  let o := fCap w
  let r := !fRsv w && !fWc w && field w 10 9 == 0
  let x := w.getLsbD 19
  let z := r && !x
  match fOp w with
  | 0 => accept false z (.cgeta o)
  | 1 => accept false z (.cgetb o)
  | 2 => accept false z (.cgetl o)
  | 3 => accept false z (.cgetp o)
  | 4 => accept false z (.cgetk o)
  | 5 => accept false z (.cgett o)
  | 6 => accept false z (.cseta o)
  | 7 => accept false z (.cinc o)
  | 8 => accept false (!fRsv w && !w.getLsbD 2) (.cinci (w.getLsbD 1) (fD w) (fA w) (fImm22 w) (fM w) (fWa w))
  | 9 => accept false z (.cbound o)
  | 10 => accept false z (.cboundx o)
  | 11 => accept false z (.candp o)
  | 12 => if x then accept false r (.csealE o) else accept false r (.cseal o)
  | 13 => accept false z (.cunseal o)
  | 14 => accept false z (.csub o)
  | 15 => accept false z (.ceq o)
  | 16 => accept false z (.cclr o)
  | 17 => if x then accept false r (.cmovcX o) else accept false r (.cmovc o)
  | 18 => accept false (z && o.u && hi4 (fD w) && fM w == 0 && !fWa w && !fWb w) (.creg (field w 43 7) (fA w) (fB w))
  | 19 => accept true (z && o.u && hi4 (fD w) && hi4 (fA w) && hi4 (fB w) && fM w == 0 && !fWa w && !fWb w)
            (.csweep (field w 43 7) (field w 32 7) (field w 21 7))
  | 20 => accept true (z && o.u && hi4 (fD w) && field w 36 7 == 0 && hi4 (fB w) && fM w == 0 && !fWa w && !fWb w)
            (.cmint (field w 43 7) (field w 32 4) (field w 21 7))
  | _ => .ok (.illegalOp 7 w)

/-- Class REMOTE (R378). -/
def decodeRemote (w : W64) : Except DecodeError Instr :=
  let r := !fRsv w && !fWc w
  match fOp w with
  | 0 => accept false (r && field w 10 2 == 0) (.send (fD w) (fA w) (fB w) (field w 12 9) (fM w) (fWa w) (fWb w))
  | 1 => accept false r (.sendm (fD w) (fA w) (fB w) (field w 12 9) (field w 10 2) (fM w) (fWa w) (fWb w))
  | 2 => accept false (r && fA w == 0 && fB w == 0 && field w 16 5 == 0 && fM w == 0 && !fWa w && !fWb w) (.empty (fD w) (field w 10 6))
  | 3 => accept false (r && hi4 (fD w) && fB w == 0 && field w 16 5 == 0 && fM w == 0 && !fWa w && !fWb w)
           (.isfull (field w 43 7) (fA w) (field w 10 6))
  | 4 => accept false (r && field w 11 10 == 0) (.rtchk (fD w) (fA w) (fB w) (w.getLsbD 10) (fM w) (fWa w) (fWb w))
  | _ => .ok (.illegalOp 8 w)

/-- Class COPY (R319). -/
def decodeCopy (w : W64) : Except DecodeError Instr :=
  let o := fCpy w
  let r := field w 0 10 == 0
  let dab := r && hi4 (fD w) && hi4 (fA w) && hi4 (fB w)
  match fOp w with
  | 0 => accept false (dab && field w 15 6 == 0) (.cpy o)
  | 1 => accept false (dab && field w 15 6 == 0) (.cpyt o)
  | 2 => accept false (dab && field w 18 3 == 0) (.cpyg o (field w 15 3))
  | 3 => accept false (dab && field w 18 3 == 0) (.cpys o (field w 15 3))
  | 4 => if w.getLsbD 10 then accept false (dab && fB w == 0 && field w 11 10 == 0) (.kinitR (field w 32 7) (field w 43 7))
         else accept false (r && fD w == 0 && field w 37 6 == 0 && fB w == 0 && fC w == 0) (.kinit (field w 32 5))
  | 5 => accept false (r && hi4 (fD w) && field w 37 6 == 0 && fB w == 0 && field w 11 10 == 0)
           (.kacq (field w 43 7) (field w 32 5) (w.getLsbD 10))
  | 6 => if w.getLsbD 10 then accept false (dab && field w 11 10 == 0) (.karrC (field w 43 7) (field w 32 7) (field w 21 7))
         else accept false (dab && fD w == 0 && field w 11 10 == 0) (.karr (field w 32 7) (field w 21 7))
  | 7 => accept false (dab && fD w == 0 && fB w == 0 && fC w == 0) (.kwait (field w 32 7))
  | 8 => accept false (dab && fD w == 0 && fB w == 0 && fC w == 0) (.krel (field w 32 7))
  | 9 => accept false (r && hi4 (fB w) && fC w == 0) (.ksend (fD w) (fA w) (field w 21 7))
  | 10 => accept false (dab && fB w == 0 && field w 12 9 == 0) (.kstat (field w 43 7) (field w 32 7) (field w 10 2))
  | _ => .ok (.illegalOp 9 w)

/-- Class MATRIX (R348). -/
def decodeMatrix (w : W64) : Except DecodeError Instr :=
  let r := field w 0 10 == 0
  let dab := r && hi4 (fD w) && hi4 (fA w) && hi4 (fB w)
  let t := field w 13 8 == 0
  match fOp w with
  | 0 => accept false (dab && fD w == 0 && t) (.mmap (field w 32 7) (field w 21 7) (field w 10 3))
  | 1 => accept false (dab && fD w == 0 && fA w == 0 && fB w == 0 && t) (.mzero (field w 10 3))
  | 2 => accept false (dab && fD w == 0 && t) (.mload (field w 32 7) (field w 21 7) (field w 10 3))
  | 3 => if w.getLsbD 13 then accept false (dab && fD w == 0 && field w 38 5 == 0 && field w 14 7 == 0)
                (.mloopResume (field w 32 3) (field w 35 3) (field w 21 7) (field w 10 3))
         else accept false (dab && fD w == 0 && field w 38 5 == 0 && field w 14 7 == 0)
                (.mloop (field w 32 3) (field w 35 3) (field w 21 7) (field w 10 3))
  | 4 => accept false (dab && field w 14 7 == 0) (.mdrain (field w 43 7) (field w 32 7) (field w 21 7) (field w 10 3) (w.getLsbD 13))
  | 5 => accept false (dab && fA w == 0 && fB w == 0 && t) (.mwait (field w 43 7) (field w 10 3))
  | 6 => accept false (dab && fA w == 0 && fB w == 0 && field w 15 6 == 0) (.mprog (field w 43 7) (field w 10 3) (field w 13 2))
  | _ => .ok (.illegalOp 10 w)

/-- Decodes a word in its clause's class (R107). Classes 0xB to 0xF have no table: their clauses never begin (R99). -/
def decodeWord (cls : BitVec 4) (w : W64) : Except DecodeError Instr :=
  match cls.toNat with
  | 0 => decodeCtrl w
  | 1 => decodeScalar w
  | 2 => decodeValu w
  | 3 => decodeVbit w
  | 4 => decodeLane w
  | 5 => decodeMem w
  | 6 => decodeLocal w
  | 7 => decodeCap w
  | 8 => decodeRemote w
  | 9 => decodeCopy w
  | 10 => decodeMatrix w
  | _ => .error .illegalClass

/-- Decodes the bytes of a word (R7, R95): eight little-endian bytes, and the bytes that follow them. -/
def decodeBytes (cls : BitVec 4) (bs : List Byte) : Except DecodeError (Instr × List Byte) :=
  if bs.length < 8 then .error .shortBytes
  else match decodeWord cls (BitVec.ofNat 64 (leNat (bs.take 8))) with
    | .ok i => .ok (i, bs.drop 8)
    | .error e => .error e

/-! The encoder (R101, R108 to R111). -/

/-- Format V (R101). -/
def encV (op : Nat) (d a b c : VField) (m : MField) (wa wb wc : Bool) : W64 :=
  BitVec.ofNat 10 op ++ d ++ a ++ b ++ c ++ m ++ BitVec.ofBool wa ++ BitVec.ofBool wb ++ BitVec.ofBool wc ++ (0 : BitVec 1)

/-- Format VI (R101). -/
def encVI (op : Nat) (d a : VField) (imm : BitVec 22) (m : MField) (wa : Bool) (sub : BitVec 2) : W64 :=
  BitVec.ofNat 10 op ++ d ++ a ++ imm ++ m ++ BitVec.ofBool wa ++ sub ++ (0 : BitVec 1)

/-- Format S (R101). -/
def encS (op : Nat) (o : SOp) : W64 := BitVec.ofNat 10 op ++ o.d ++ o.a ++ o.b ++ o.imm ++ (0 : BitVec 1)

/-- Format M (R101). -/
def encM (op : Nat) (o : MOp) : W64 :=
  BitVec.ofNat 7 op ++ o.size ++ o.t ++ o.base ++ o.off ++ o.imm8 ++ BitVec.ofBool o.bsel ++ o.order ++ o.scope ++ o.m

/-- Format C (R101). -/
def encC (op : Nat) (sa sb : SReg) (imm : BitVec 32) (m : MField) : W64 := BitVec.ofNat 10 op ++ sa ++ sb ++ imm ++ m ++ (0 : BitVec 2)

/-- A scalar or a small number in an 11-bit field. -/
def wide {n : Nat} (x : BitVec n) : VField := x.setWidth 11

def encVU (op : Nat) (o : VU) (b c : VField) : W64 := encV op o.d o.a b c o.m o.wa false false
def encVB (op : Nat) (o : VB) (c : VField) : W64 := encV op o.d o.a o.b c o.m o.wa o.wb false
def encVT (op : Nat) (o : VT) : W64 := encV op o.d o.a o.b o.c o.m o.wa o.wb o.wc
def encCap (op : Nat) (o : CapOp) (x : Bool) : W64 :=
  encV op o.d o.a o.b (BitVec.ofBool o.u ++ BitVec.ofBool x ++ (0 : BitVec 9)) o.m o.wa o.wb false
def encCpy (op : Nat) (o : CpyOp) (esz : BitVec 3) : W64 :=
  encV op (wide o.d) (wide o.a) (wide o.b) ((0 : BitVec 3) ++ esz ++ BitVec.ofBool o.kt ++ o.dsp ++ o.ssp) 0 false false false
/-- A word of the engine classes: three fields and C. -/
def encDABC (op : Nat) (d a b c : VField) : W64 := encV op d a b c 0 false false false

/-- The class and the word of an instruction; a step of the device has no word. -/
def encode : Instr → Option (BitVec 4 × W64)
  | .nop => some (0, encC 0 0 0 0 0)
  | .bra off => some (0, encC 1 0 0 off 0)
  | .brz a off => some (0, encC 2 a 0 off 0)
  | .brnz a off => some (0, encC 3 a 0 off 0)
  | .mskip a off => some (0, encC 4 a 0 off 0)
  | .brv a off => some (0, encC 5 a 0 off 0)
  | .jmpt a b => some (0, encC 6 a b 0 0)
  | .jmptC a b => some (0, encC 6 a b 1 0)
  | .jmptv a idx wi => some (0, encC 7 a 0 ((0 : BitVec 19) ++ BitVec.ofBool wi ++ idx ++ (0 : BitVec 1)) 0)
  | .call off => some (0, encC 8 0 0 off 0)
  | .callt a b => some (0, encC 9 a b 0 0)
  | .calltC a b => some (0, encC 9 a b 1 0)
  | .calltv a idx wi link => some (0, encC 10 a 0 ((0 : BitVec 8) ++ link ++ BitVec.ofBool wi ++ idx ++ (0 : BitVec 1)) 0)
  | .ret a => some (0, encC 11 a 0 0 0)
  | .retX => some (0, encC 11 0 0 1 0)
  | .retv link wl => some (0, encC 12 0 0 ((0 : BitVec 19) ++ BitVec.ofBool wl ++ link ++ (0 : BitVec 1)) 0)
  | .exit => some (0, encC 13 0 0 0 0)
  | .yield => some (0, encC 14 0 0 0 0)
  | .bar n count => some (0, encC 15 0 0 ((0 : BitVec 22) ++ count ++ n) 0)
  | .barr => some (0, encC 16 0 0 0 0)
  | .pwait n k => some (0, encC 17 0 0 ((0 : BitVec 25) ++ k ++ n) 0)
  | .splits d var => some (0, encC 24 d 0 (var.setWidth 32) 0)
  | .trap code m => some (0, encC 18 0 0 (code.setWidth 32) m)
  | .eret => some (0, encC 19 0 0 0 0)
  | .eretSkip => some (0, encC 19 0 0 1 0)
  | .eretCont => some (0, encC 19 0 0 2 0)
  | .bkpt m => some (0, encC 20 0 0 0 m)
  | .sget d r => some (0, encS 21 ⟨d, 0, 0, r.setWidth 32⟩)
  | .sset a r => some (0, encS 22 ⟨0, a, 0, r.setWidth 32⟩)
  | .launch q p d => some (0, encC 23 q p (d.setWidth 32) 0)
  | .smov o => some (1, encS 0 o)
  | .smovi o => some (1, encS 1 o)
  | .smovhi o => some (1, encS 2 o)
  | .sadd o => some (1, encS 3 o)
  | .ssub o => some (1, encS 4 o)
  | .smul o => some (1, encS 5 o)
  | .smulhs o => some (1, encS 6 o)
  | .smulhn o => some (1, encS 7 o)
  | .sdivs o => some (1, encS 8 o)
  | .sdivn o => some (1, encS 9 o)
  | .srems o => some (1, encS 10 o)
  | .sremn o => some (1, encS 11 o)
  | .sand o => some (1, encS 12 o)
  | .sor o => some (1, encS 13 o)
  | .sxor o => some (1, encS 14 o)
  | .sandn o => some (1, encS 15 o)
  | .sshl o => some (1, encS 16 o)
  | .sshrn o => some (1, encS 17 o)
  | .sshrs o => some (1, encS 18 o)
  | .smins o => some (1, encS 19 o)
  | .smaxs o => some (1, encS 20 o)
  | .sminn o => some (1, encS 21 o)
  | .smaxn o => some (1, encS 22 o)
  | .sclz o => some (1, encS 23 o)
  | .sctz o => some (1, encS 24 o)
  | .spopc o => some (1, encS 25 o)
  | .sbext o => some (1, encS 26 o)
  | .sbins o => some (1, encS 27 o)
  | .ssel o => some (1, encS 28 o)
  | .scmp o => some (1, encS 29 o)
  | .vmov o => some (2, encVU 0 o 0 0)
  | .vmovi d imm sub m => some (2, encVI 1 d 0 imm m false sub)
  | .vmovs d a tag m => some (2, encV 17 d (wide a) 0 (wide tag) m false false false)
  | .vadd o sat => some (2, encVB 2 o (wide (BitVec.ofBool sat)))
  | .vaddi o imm sat => some (2, encVI 3 o.d o.a imm o.m o.wa ((0 : BitVec 1) ++ BitVec.ofBool sat))
  | .vsub o sat => some (2, encVB 4 o (wide (BitVec.ofBool sat)))
  | .vmul o sat => some (2, encVB 5 o (wide (BitVec.ofBool sat)))
  | .vfma o => some (2, encVT 6 o)
  | .vfms o => some (2, encVT 7 o)
  | .vmin o => some (2, encVB 8 o 0)
  | .vmax o => some (2, encVB 9 o 0)
  | .vclamp o => some (2, encVT 16 o)
  | .vabs o sat => some (2, encVU 10 o 0 (wide (BitVec.ofBool sat)))
  | .vneg o sat => some (2, encVU 11 o 0 (wide (BitVec.ofBool sat)))
  | .vaddmin o => some (2, encVT 12 o)
  | .vmulh o => some (2, encVB 13 o 0)
  | .vcmp d a b cond m wa wb => some (2, encV 14 (wide d) a b (wide cond) m wa wb false)
  | .vsel o c => some (2, encVB 15 o (wide c))
  | .vand o => some (3, encVB 0 o 0)
  | .vor o => some (3, encVB 1 o 0)
  | .vxor o => some (3, encVB 2 o 0)
  | .vnot o => some (3, encVU 3 o 0 0)
  | .vshl o => some (3, encVB 4 o 0)
  | .vshr o => some (3, encVB 5 o 0)
  | .vsra o => some (3, encVB 6 o 0)
  | .vclz o => some (3, encVU 7 o 0 0)
  | .vpopc o => some (3, encVU 8 o 0 0)
  | .vbfe o pos len sx => some (3, encVU 9 o (wide pos) ((0 : BitVec 3) ++ BitVec.ofBool sx ++ len))
  | .vbfi o pos len => some (3, encVU 10 o (wide pos) (wide len))
  | .vdiv o => some (3, encVB 11 o 0)
  | .vsqrt o => some (3, encVU 12 o 0 0)
  | .vrcp o => some (3, encVU 13 o 0 0)
  | .vrsq o => some (3, encVU 14 o 0 0)
  | .vexp2 o => some (3, encVU 15 o 0 0)
  | .vlog2 o => some (3, encVU 16 o 0 0)
  | .vrint o seed mode => some (3, encVU 17 o (wide seed) (wide mode))
  | .vscale o => some (3, encVB 18 o 0)
  | .vclass o => some (3, encVU 19 o 0 0)
  | .vcvt o seed p tag mode => some (3, encVU 20 o (p ++ seed) ((0 : BitVec 3) ++ mode ++ tag))
  | .vtag o tag => some (3, encVU 21 o 0 (wide tag))
  | .vshfl o => some (4, encVB 0 o 0)
  | .vshflx o k => some (4, encVU 1 o (wide k) 0)
  | .vshup o n c wc => some (4, encV 2 o.d o.a (wide n) c o.m o.wa false wc)
  | .vshdn o n c wc => some (4, encV 3 o.d o.a (wide n) c o.m o.wa false wc)
  | .vbcast o b => some (4, encVU 4 o (wide b) 0)
  | .vrdl d a b sz wa => some (4, encV 5 (wide d) a (wide b) ((0 : BitVec 7) ++ BitVec.ofBool sz ++ (0 : BitVec 3)) 0 wa false false)
  | .vwrl d a b sz => some (4, encV 6 d (wide a) (wide b) ((0 : BitVec 7) ++ BitVec.ofBool sz ++ (0 : BitVec 3)) 0 false false false)
  | .vvote d a opr m wa => some (4, encV 7 (wide d) a 0 (wide opr) m wa false false)
  | .vred d a opr sz m wa =>
      some (4, encV 8 (wide d) a 0 ((0 : BitVec 7) ++ BitVec.ofBool sz ++ (0 : BitVec 1) ++ opr) m wa false false)
  | .vscan o opr x sz => some (4, encVU 9 o 0 ((0 : BitVec 7) ++ BitVec.ofBool sz ++ BitVec.ofBool x ++ opr))
  | .gfence => some (4, encV 10 0 0 0 0 0 false false false)
  | .xset x a add m wa => some (4, encV 11 (wide x) a 0 ((0 : BitVec 8) ++ BitVec.ofBool add ++ (0 : BitVec 2)) m wa false false)
  | .xwin x a len => some (4, encVI 12 (wide x) a (len.setWidth 22) 0 false 0)
  | .xget d x m => some (4, encV 13 d (wide x) 0 0 m false false false)
  | .ld tag o => some (5, encM tag.toNat o)
  | .ldRec tag o => some (5, encM tag.toNat o)
  | .st o => some (5, encM 0x20 o)
  | .stRec o => some (5, encM 0x20 o)
  | .ldu o => some (5, encM 0x21 o)
  | .stu o => some (5, encM 0x22 o)
  | .ldc o => some (5, encM 0x23 o)
  | .stc o => some (5, encM 0x24 o)
  | .atom op o => some (5, encM (0x25 + op.toNat) o)
  | .atomu op o => some (5, encM (0x30 + op.toNat) o)
  | .fence order scope => some (5, encM 0x3A ⟨0, 0, 0, 0, 0, false, order, scope, 0⟩)
  | .drain => some (5, encM 0x3B ⟨0, 0, 0, 0, 0, false, 0, 0, 0⟩)
  | .lds tag o => some (6, encM tag.toNat o)
  | .sts o => some (6, encM 0x20 o)
  | .atoms op o => some (6, encM (0x21 + op.toNat) o)
  | .ldx tag o => some (6, encM (0x40 + tag.toNat) o)
  | .stx o => some (6, encM 0x60 o)
  | .atomx op o => some (6, encM (0x61 + op.toNat) o)
  | .cgeta o => some (7, encCap 0 o false)
  | .cgetb o => some (7, encCap 1 o false)
  | .cgetl o => some (7, encCap 2 o false)
  | .cgetp o => some (7, encCap 3 o false)
  | .cgetk o => some (7, encCap 4 o false)
  | .cgett o => some (7, encCap 5 o false)
  | .cseta o => some (7, encCap 6 o false)
  | .cinc o => some (7, encCap 7 o false)
  | .cinci u d a imm m wa => some (7, encVI 8 d a imm m wa ((0 : BitVec 1) ++ BitVec.ofBool u))
  | .cbound o => some (7, encCap 9 o false)
  | .cboundx o => some (7, encCap 10 o false)
  | .candp o => some (7, encCap 11 o false)
  | .cseal o => some (7, encCap 12 o false)
  | .csealE o => some (7, encCap 12 o true)
  | .cunseal o => some (7, encCap 13 o false)
  | .csub o => some (7, encCap 14 o false)
  | .ceq o => some (7, encCap 15 o false)
  | .cclr o => some (7, encCap 16 o false)
  | .cmovc o => some (7, encCap 17 o false)
  | .cmovcX o => some (7, encCap 17 o true)
  | .creg d a b => some (7, encCap 18 ⟨true, wide d, a, b, 0, false, false⟩ false)
  | .csweep d a b => some (7, encCap 19 ⟨true, wide d, wide a, wide b, 0, false, false⟩ false)
  | .cmint d a b => some (7, encCap 20 ⟨true, wide d, wide a, wide b, 0, false, false⟩ false)
  | .send d a b ofs m wa wb => some (8, encV 0 d a b (ofs ++ (0 : BitVec 2)) m wa wb false)
  | .sendm d a b ofs nm1 m wa wb => some (8, encV 1 d a b (ofs ++ nm1) m wa wb false)
  | .empty d nm1 => some (8, encDABC 2 d 0 0 (wide nm1))
  | .isfull d a nm1 => some (8, encDABC 3 (wide d) a 0 (wide nm1))
  | .rtchk d a b capchk m wa wb => some (8, encV 4 d a b (wide (BitVec.ofBool capchk)) m wa wb false)
  | .cpy o => some (9, encCpy 0 o 0)
  | .cpyt o => some (9, encCpy 1 o 0)
  | .cpyg o esz => some (9, encCpy 2 o esz)
  | .cpys o esz => some (9, encCpy 3 o esz)
  | .kinit a => some (9, encDABC 4 0 (wide a) 0 0)
  | .kinitR a d => some (9, encDABC 4 (wide d) (wide a) 0 1)
  | .kacq d a nb => some (9, encDABC 5 (wide d) (wide a) 0 (wide (BitVec.ofBool nb)))
  | .karr a b => some (9, encDABC 6 0 (wide a) (wide b) 0)
  | .karrC d a b => some (9, encDABC 6 (wide d) (wide a) (wide b) 1)
  | .kwait a => some (9, encDABC 7 0 (wide a) 0 0)
  | .krel a => some (9, encDABC 8 0 (wide a) 0 0)
  | .ksend d a b => some (9, encDABC 9 d a (wide b) 0)
  | .kstat d a var => some (9, encDABC 10 (wide d) (wide a) 0 (wide var))
  | .mmap a b om => some (10, encDABC 0 0 (wide a) (wide b) (wide om))
  | .mzero tile => some (10, encDABC 1 0 0 0 (wide tile))
  | .mload a b tile => some (10, encDABC 2 0 (wide a) (wide b) (wide tile))
  | .mloop ma mb b tile => some (10, encDABC 3 0 (wide (mb ++ ma)) (wide b) (wide tile))
  | .mloopResume ma mb b tile => some (10, encDABC 3 0 (wide (mb ++ ma)) (wide b) (wide ((1 : BitVec 1) ++ tile)))
  | .mdrain d a b tile sys => some (10, encDABC 4 (wide d) (wide a) (wide b) (wide (BitVec.ofBool sys ++ tile)))
  | .mwait d tile => some (10, encDABC 5 (wide d) 0 0 (wide tile))
  | .mprog d tile var => some (10, encDABC 6 (wide d) 0 0 (wide (var ++ tile)))
  | _ => none

/-- The instruction the decoder reads from an opcode-table word: the header in the first eight bytes, the instruction in the next eight,
little-endian as memory holds them (R7, R95, R96). A header of 0 is a CTRL clause, so the word 0 is NOP. -/
def decodeTableWord (_nbits w : Nat) : Option Instr :=
  let bs := leBytes 16 w
  let h := decodeHeader (BitVec.ofNat 64 (leNat (bs.take 8)))
  match decodeBytes h.cls (bs.drop 8) with
  | .ok (i, _) => some i
  | .error _ => none

end Sys2Proof
end

