-- ==== Sys2Proof/Config.lean ====
section
/-! DEFINITION. What an implementation fixes and what the manual leaves open.
The opaque constants have no body: nothing can be proved of their values (log entries 3 and 4). -/
namespace Sys2Proof.Config

/-- Compute dies of the package (R1). -/
def dies : Nat := 4
/-- Cores of a die (R1). -/
def coresPerDie : Nat := 144
/-- Cores of a cluster (R1). -/
def coresPerCluster : Nat := 48
/-- L2 slices of a die (R221). -/
def slicesPerDie : Nat := 576
/-- Bytes of HBM of a die (R218). -/
def dieSpan : Nat := 0x3000000000
/-- First byte of a die's tag region, from the die's base (R218). -/
def tagBase : Nat := 0x2FA0000000
/-- First byte of a die's ash region, from the die's base (R218, R404). -/
def ashBase : Nat := 0x2F80000000
/-- Bytes of a die that windows may cover: 190 GiB (R218, R414). -/
def windowSpan : Nat := 190 * 2 ^ 30
/-- First physical address of host memory (R218). -/
def hostBase : Nat := 2 ^ 50
/-- First intermediate address of the core control regions (R225). -/
def coreRegionBase : Nat := 0x3F00000000000
/-- First intermediate address of the queue control regions (R225). -/
def queueRegionBase : Nat := 0x3F80000000000
/-- What a byte of memory that nothing has written reads as (log entry 2: DESIGN CHOICE, unsafe). -/
def unwrittenByte : Byte := 0

/-- FREE VALUE. The bits a VRCP, VRSQ, VEXP2 or VLOG2 of a 32- or 64-bit format would give, chosen by the implementation within
the bound of R209; the first argument is 0 VRCP, 1 VRSQ, 2 VEXP2, 3 VLOG2, the second the format, the third the operand's bits. -/
opaque estimate : Nat → Nat → Nat → Nat
/-- FREE VALUE. An element of a shift with a RAW operand for which R205 states no value: 0 VSHL, 1 VSHR, 2 VSRA; the element's number; the operands
(log entry 35). -/
opaque openShift : Nat → Nat → Nat → Nat → Nat
/-- FREE VALUE. The device incarnation drawn at a reset (R376); the argument is the state's counter of free values.
The machine turns a 0 into 1, since R376 says it is never zero. -/
opaque deviceIncarnation : Nat → BitVec 32
/-- FREE VALUE. A number the security controller draws or computes (the device key, nonces, digests: R424, R429, R430). -/
opaque securityValue : Nat → BitVec 256
/-- FREE VALUE. The key of a world, from the device key and the nonce drawn at its creation (R424). -/
opaque derivedKey : BitVec 256 → BitVec 256 → BitVec 256
/-- FREE VALUE. The sealed form of a line as AES-256-XTS gives it: key, PA, plaintext (R424). -/
opaque sealedLine : BitVec 256 → Nat → BitVec 1024 → BitVec 1024
/-- FREE VALUE. The MAC of a sealed line: key, PA, ciphertext, tag bits (R424). -/
opaque macOf : BitVec 256 → Nat → BitVec 1024 → BitVec 8 → BitVec 64
/-- FREE VALUE. What derives from the device key for a verifier (R2, R427): 0 the digests, 1 the certificate chain, 2 the interface report. -/
opaque identity : Nat → BitVec 256 → Nat
/-- FREE VALUE. A signature under the device's identity over a transcript hash (R430): 0 RSA-3072, 1 SLH-DSA; device key; hash. -/
opaque signatureOf : Nat → BitVec 256 → Nat → Nat
/-- FREE VALUE. The bytes of MBRSP, whose layout the manual does not give (R436, log entry 4). -/
opaque mailboxResponse : Nat → BitVec 512
/-- FREE VALUE. A word of the parts of an ash image or of a health summary whose byte layout the manual does not give (R404, R443). -/
opaque reportWord : Nat → W64

/-- FREE VALUE. The REASON that rfail holds after a KSEND refused with CORD_STATE, a cause that the table of R367 gives no code
(R317, R369; log entry 4). -/
opaque cordRefusal : Nat → BitVec 4

end Sys2Proof.Config
end

