-- ==== Sys2Proof/Machine/State.lean ====
section
/-! DEFINITION. The state of the whole device (plain data), the reasons a step can stop, and the state after reset.
Tables keyed by a number are sorted lists (NMap); a key that is absent stands for the default that the reader of the table names. -/
namespace Sys2Proof.Machine

/-- Why the machine stops. -/
inductive Fault where
  /-- An instruction word was executed while no split is issuing one. Raised by `runWord` (Machine/Issue) for every word;
  safe: `step` executes a word only for the split that issues it, so no run from reset reaches it. -/
  | noIssuer
  deriving DecidableEq, Repr

/-- Why an instruction has no meaning. -/
inductive Refusal where
  /-- The arm of `exec` is not written yet. Raised by exec's refused arms only; safe. -/
  | notModelled (mnemonic : String)
  deriving DecidableEq, Repr

/-- A capability with its tag (R37). -/
structure Cap where
  bits : BitVec 128
  tag : Bool
  deriving DecidableEq, Repr

/-- A vector register: format tag, full/empty bit, lane words (R21, R121). -/
structure VReg where
  tag : FTag
  full : Bool
  lanes : List W32
  deriving DecidableEq, Repr

/-- An atomic condition that can hold a split (R123). -/
inductive Cond where
  | vfull (r : Nat)                 -- a vector register is full (R122)
  | sfull (r : Nat)                 -- a scalar is full
  | lateDone (id : Nat)             -- a late result has returned
  | regIdle (r : Nat)               -- no late result is outstanding to the register (R380)
  | pLe (n k : Nat)                 -- pN is at most k (R145)
  | entryGone (stamp : Nat)         -- the hearth entry of that stamp is FREE (R258)
  | olderGone (stamp : Nat)         -- every entry of the core older than the stamp is FREE (R260)
  | othersGone (line : Nat)         -- no entry of another group holds the VA line (R283)
  | barrier (n gen count : Nat)     -- the barrier has passed that generation; COUNT of the word (R143)
  | rickBarrier (gen : Nat)
  | slotSettled (cord slot : Nat)   -- the slot has left ACQ and ARMED (R313)
  | slotIdle (cord slot : Nat)      -- INFL is 0 (R313)
  | ringRoom (n : Nat)              -- the ring has room for n entries (R304)
  | tileIdle (t : Nat)              -- PEND is 0 (R354)
  | matrixRoom                      -- the matrix queue has room (R329)
  | handlerMerged                   -- every handler lane is in one split held at this ERET (R391)
  | walksDone                       -- TLBs and walkers have dropped the entries (R230)
  | accepted (id : Nat)             -- the store of that number has entered the hearth (R236)
  | ctrRoom (n : Nat)               -- pN is below 255 (R245)
  | lineHome (ln : Nat)             -- the host has given the line back (R297)
  deriving DecidableEq, Repr

/-- What holds a split: the conditions, whether its word executes again when they clear, and an acquire then made. -/
structure Held where
  conds : List Cond
  again : Bool
  dropL1 : Bool
  deriving DecidableEq, Repr

/-- The snapshot of a clause in progress (R100): header address, header, words, index of the next word. -/
structure Clause where
  addr : W64
  header : W64
  words : List W64
  next : Nat
  deriving DecidableEq, Repr

/-- The states of a split slot in use (R124). -/
inductive SplitState where
  | bound | issue | held | halt
  deriving DecidableEq, Repr

/-- The landing check a split carries to its next header (R132). -/
inductive Landing where
  | none_ | entry | label (l : BitVec 12)
  deriving DecidableEq, Repr

/-- A split slot in use (R124); `reached` is the cycle in which it last came to BOUND (R126). -/
structure Split where
  pc : W64
  clause : Option Clause
  lanes : Lanes
  code : Cap
  age : Nat
  ready : Nat
  eligible : Bool
  st : SplitState
  held : Option Held
  landing : Landing
  rotated : Bool
  prior : SplitState
  stall : Nat
  dbgStep : Bool
  reached : Nat
  deriving DecidableEq, Repr

/-- An entry of the overflow set (R126). -/
structure Overflow where
  lanes : Lanes
  pc : W64
  code : Cap
  landing : Landing
  since : Nat
  clause : Option Clause
  deriving DecidableEq, Repr

/-- A stopped, pending or nested record (R387). -/
structure Record where
  word : W64
  hdr : W64
  lanes : Lanes
  cause : Cause
  flm : Lanes
  kind : Nat
  code : Cap
  info : W64
  late : Bool
  atHeader : Bool
  clause : Option Clause
  deriving DecidableEq, Repr

/-- A clause-boundary event of a group (R387), kept in arrival order. -/
structure BEvent where
  cause : Cause
  info : W64
  reason : Nat
  hop : Nat
  word : W64
  split : Nat
  tile : Option Nat
  deriving DecidableEq, Repr

/-- One byte of an access: its physical address, its virtual address, and its value once known. -/
structure ByteReq where
  pa : Nat
  va : W64
  val : Option Byte
  deriving DecidableEq, Repr

/-- One lane's part of a late access. -/
structure LaneReq where
  lane : Nat
  regs : List Nat
  bytes : List ByteReq
  gtag : Option Bool
  v : W64
  w : W64
  deriving DecidableEq, Repr

/-- What a late result is (R121). -/
inductive LateKind where
  | load (size : Nat) (tag : FTag)
  | loadCap (lc : Bool)
  | loadU (size : Nat)
  | filled
  | atomHome (op : Nat) (size : Nat) (signed : Bool) (uniform : Bool)
  | atomHearth (op : Nat) (size : Nat) (signed : Bool) (uniform : Bool) (rel : Option Nat)
  | launch (queue : Nat) (words : List W64) (slotWritten : Bool)
  | rtchk (items : List (Nat × Nat × BitVec 128 × Option (BitVec 128)))
  deriving DecidableEq, Repr

/-- A late result outstanding to a group (R121, R148). -/
structure Late where
  id : Nat
  kind : LateKind
  split : Nat
  lanes : Lanes
  reqs : List LaneReq
  vdests : List Nat
  sdests : List Nat
  vwrites : List (Nat × Nat × W32)
  swrites : List (Nat × W64)
  newTag : Option FTag
  acquire : Bool
  dropL1 : Bool
  racq : Bool
  trig : Bool
  rel : Option Nat
  stamp : Option Nat
  item : Option Nat
  word : W64
  faults : List (Nat × Cause)
  deriving DecidableEq, Repr

/-- A lane's late mark (R445). -/
structure LateMark where
  lanes : Lanes
  cause : Cause
  addr : W64
  deriving DecidableEq, Repr

/-- The special registers of a group that hold a value of their own (R392), and the recipe index of the last pass (R397). -/
structure Special where
  tpc : W64
  tcause : W64
  flm : W64
  tsplit : W64
  tinfo : W64
  fpst : W64
  fpctl : W64
  rwpc : W64
  rfail : W64
  tvec : W64
  mprogTile : Option Nat
  recipe : Nat
  deriving DecidableEq, Repr

/-- A send of the group that has had no response (R245, R368). -/
structure SendItem where
  seq : Nat
  word : W64
  since : Nat
  deriving DecidableEq, Repr

/-- The mode of a group's lanes (R389, R399). -/
inductive Mode where
  | normal | handler | recipe
  deriving DecidableEq, Repr

/-- What the device holds of a resident group (R20, R124, R147); `code` is memory as its instruction fetch sees it, since its last acquire at cluster
scope or wider (R100). -/
structure Group where
  vregs : NMap VReg
  qtags : NMap Lanes
  sregs : NMap W64
  sEmpty : List Nat
  sTags : List Nat
  xregs : NMap (List (BitVec 16))
  windows : NMap (Nat × Nat)
  ctrs : NMap (List (Nat × Bool))
  splits : NMap Split
  overflow : List Overflow
  stopped : Option Record
  pending : Option Record
  shadow : NMap Split
  shadowOverflow : List Overflow
  shadowPending : Option Record
  shadowMode : Mode
  nested : Option Record
  nestedPending : Option Record
  mode : Mode
  handlerLanes : Lanes
  awaiting : Bool
  recordHeld : Bool
  exited : Lanes
  bevents : List BEvent
  lost : Bool
  lateMarks : List LateMark
  lates : List Late
  sends : List SendItem
  seq : Nat
  halted : Bool
  sp : Special
  lastReturn : Nat
  code : List Host.Cell
  deriving DecidableEq, Repr

/-- The states of a cord slot (R313). -/
inductive SlotState where
  | empty | acq | armed | filled | overrun | fault
  deriving DecidableEq, Repr

/-- The record of a cord slot (R311). -/
structure CordSlot where
  st : SlotState
  fcause : Nat
  gen : BitVec 16
  infl : Nat
  pa : Int
  cur : Nat
  pb : Int
  deriving DecidableEq, Repr

/-- A cord (R311): slots, pointers, and the KACQs that wait, by group and late result (R322). -/
structure Cord where
  n : Nat
  ch : Bool
  wp : Nat
  rp : Nat
  slots : NMap CordSlot
  waiters : List (Nat × Nat)
  deriving DecidableEq, Repr

/-- The command ring of a team (R304, R305, R308): the engine's own counts beside the header; by ring position the group that
published the entry, the shadow a copy instruction wrote, and that instruction's item of p4. -/
structure Ring where
  hdr : Nat
  logSize : Nat
  table : Cap
  tn : Nat
  consumed : BitVec 32
  published : BitVec 32
  publisher : NMap GroupId
  shadows : NMap (Cap × Cap)
  items : NMap (GroupId × Nat)
  deriving DecidableEq, Repr

/-- A command the copy engine has accepted (R309, R310): entry, extension, capabilities, the next destination byte, the publishing group, the lines for
which the chunk in flight has asked for write grant, and its ring index. -/
structure CopyCmd where
  id : Nat
  entry : BitVec 256
  ext : BitVec 256
  src : Cap
  dst : Cap
  done : Nat
  group : Nat
  lines : List Nat
  idx : Nat
  deriving DecidableEq, Repr

/-- An engine's write of one line (R285). -/
structure EngineJob where
  line : Nat
  data : LineData
  mask : LineMask
  tags : BitVec 8
  deriving DecidableEq, Repr

/-- An operand map of the matrix unit (R330). -/
structure OpMap where
  fmt : Nat
  layout : Nat
  off : W64
  rs : Nat
  srs : Nat
  soff : W64
  glob : Option Cap
  deriving DecidableEq, Repr

/-- The operations of the matrix unit (R329). -/
inductive MatKind where
  | zero
  | load (glob : Option Cap) (off : W64) (rs : Nat)
  | loop (a b : OpMap) (count : Nat) (resume : Bool)
  | drain (dst : OpMap) (mode seed : Nat) (seedVal : W64) (amax : Option Cap) (sys : Bool)
  deriving DecidableEq, Repr

/-- An accepted or waiting operation (R329): its failure and the amax word's address once they are known; for an MDRAIN to global memory the rows
it has written and the lines whose write grant it needs (R285). -/
structure MatOp where
  g : GroupId
  incn : Nat
  split : Nat
  word : W64
  tile : Nat
  kind : MatKind
  begun : Bool
  fail : Option (Cause × W64)
  amaxPa : Option Nat
  row : Nat
  lines : List Nat
  deriving DecidableEq, Repr

/-- A tile and its progress record (R327, R328). -/
structure Tile where
  elems : NMap Nat
  total : Nat
  step : Nat
  fcause : Nat
  pend : Nat
  fault : Bool
  faddr : W64
  deriving DecidableEq, Repr

/-- A barrier of a team (R143): its generation, the expected number and the groups that have arrived; `passed`: for each group the generation up to
which it has been released. -/
structure Barrier where
  gen : Nat
  expected : Nat
  arrived : List Nat
  passed : NMap Nat
  deriving DecidableEq, Repr

/-- How far a bank of a team has come (R399): the number and physical address of the image of a team that could not leave (R93), the granularity it began with (R395), a failure that waits for the lease reset (R402), and the cycle in which a save began whose writes wait (R400). -/
structure Banking where
  why : BankReason
  since : Nat
  collected : Option (Nat × Nat)
  grIssue : Nat
  grMatrix : Nat
  grCopy : Nat
  grHearth : Nat
  grace : Nat
  failed : Bool
  saving : Option Nat
  deriving DecidableEq, Repr

/-- A placed team (R20, R35, R36). -/
structure Team where
  tenant : Nat
  grid : Nat
  index : Nat
  desc : BitVec 2048
  descTags : BitVec 4
  incn : Nat
  sLevel : Bool
  groups : NMap Group
  scratch : NMap Byte
  cords : NMap Cord
  barriers : NMap Barrier
  barr : Barrier
  tiles : NMap Tile
  maps : NMap OpMap
  ring : Option Ring
  cmds : List CopyCmd
  residues : List CopyCmd
  reclim : Nat
  banking : Option Banking
  killed : Bool
  deriving DecidableEq, Repr

/-- The states of a hearth entry (R233); FREE entries are absent from the table. -/
inductive EntryState where
  | open_ | draining | provisional | faulted
  deriving DecidableEq, Repr

/-- A hearth entry (R232, R233); `stamp` is the unbounded order mark whose residue modulo 8192 is SEQ; `near`: it holds bytes of an in-hearth atomic,
so that its line's grant is kept (R267). -/
structure Entry where
  st : EntryState
  rel : Bool
  rscope : Nat
  tv : Bool
  tags : BitVec 8
  world : Nat
  tenant : Nat
  slot : Nat
  group : Nat
  fcause : Nat
  host : Bool
  stamp : Nat
  born : Nat
  pa : Nat
  va : Nat
  mask : LineMask
  data : LineData
  heldFail : Option Cause
  sent : Bool
  acked : Bool
  committing : Bool
  registered : Bool
  near : Bool
  deriving DecidableEq, Repr

/-- The bytes one store, or with `near` one in-hearth atomic, puts into one line (R235, R267). -/
structure Piece where
  va : Nat
  pa : Option Nat
  mask : LineMask
  data : LineData
  tags : BitVec 8
  touched : BitVec 8
  near : Bool
  deriving DecidableEq, Repr

/-- A store that is not accepted yet (R235, R237). -/
structure WaitingStore where
  id : Nat
  g : GroupId
  lanes : Lanes
  pieces : List Piece
  rel : Option Nat
  triggered : Bool
  deriving DecidableEq, Repr

/-- An L1 line: bytes and tags as read, and the cycle of its fill (R219, R220). -/
structure L1Line where
  data : LineData
  tags : BitVec 8
  filled : Nat
  deriving DecidableEq, Repr

/-- A TLB entry (R228). -/
structure TlbEntry where
  tenant : Nat
  va : Nat
  bytes : Nat
  ia : Nat
  r : Bool
  w : Bool
  x : Bool
  d : Bool
  deriving DecidableEq, Repr

/-- A forwarding entry (R91). -/
structure Forward where
  image : Bool
  oslot : Nat
  oincn : Nat
  ncore : Nat
  nslot : Nat
  nincn : Nat
  pend : Nat
  imageId : Nat
  deriving DecidableEq, Repr

/-- A quadrant: the split whose clause it issues, and one that the next choice passes over (R115, R97). -/
structure Quadrant where
  current : Option Site
  prefer : Option Site
  deriving DecidableEq, Repr

/-- A tenant's counters on a core (R418). -/
structure Perf where
  psel : NMap Nat
  pcnt : NMap W64
  denied : Bool
  deriving DecidableEq, Repr

/-- A core (R1, R219, R228, R232, R91, R403, R418). `recalls`: lines whose grant goes back once nothing of them is pending, each with the number that
the core's next atomic had when that began. `leaving`: it leaves its lease once a forwarding entry is freed (R93). -/
structure Core where
  world : Nat
  poolTop : Nat
  pool : Option (Nat × Nat × Nat)
  teams : NMap Team
  incns : NMap Nat
  hearth : NMap Entry
  seqNext : Nat
  rseq : Nat
  waiting : List WaitingStore
  grants : List Nat
  grantAsked : List Nat
  recalls : NMap Nat
  l1 : NMap L1Line
  tlb : List TlbEntry
  readsOut : List Nat
  forwards : NMap Forward
  quads : NMap Quadrant
  mqueue : List MatOp
  mwaiting : List MatOp
  egrants : List Nat
  perf : NMap Perf
  breakpoints : NMap W64
  dbgSlot : Nat
  reserved : Option Nat
  rotor : Nat
  noNewTeam : Bool
  leaving : Bool
  deriving DecidableEq, Repr

/-- The operands of a step that an outside party causes: the host, F, S, the debug controller, a link, an error (log entry 6).
Each meaning's text names the fields it reads; the others are ignored. -/
structure Request where
  tenant : Nat
  die : Nat
  core : Nat
  slot : Nat
  group : Nat
  split : Nat
  incn : Nat
  index : Nat
  line : Nat
  off : Nat
  ia : Nat
  value : W64
  data : LineData
  mask : LineMask
  flag : Bool
  flag2 : Bool
  dinc : BitVec 32
  entry : BitVec 4096
  place : ErrorPlace
  tight : Tightening
  lease : List Nat
  roots : List (BitVec 128)
  port : Nat
  func : Nat
  size : Nat
  deriving DecidableEq, Repr

/-- The request with every field zero, but for the function and the size of a host's access: tenant 0's interface on port 0, 8 bytes (R432, R433). -/
def Request.zero : Request where
  tenant := 0
  die := 0
  core := 0
  slot := 0
  group := 0
  split := 0
  incn := 0
  index := 0
  line := 0
  off := 0
  ia := 0
  value := 0
  data := 0
  mask := 0
  flag := false
  flag2 := false
  dinc := 0
  entry := 0
  place := .hbmLine 0
  tight := ⟨0, 0, 0, 0, 0⟩
  lease := []
  roots := []
  port := 0
  func := 1
  size := 8

/-- A happening that is due: the step and, where the step is caused from outside, its operands. -/
structure Happening where
  step : Instr
  req : Request
  deriving DecidableEq, Repr

/-- The directory states (R292). -/
inductive DirState where
  | inv | shared | excl | modified | owned
  deriving DecidableEq, Repr

/-- A step of a sequence of writes that one of the device's own agents makes at home, each after the one before it: a write of `n` bytes within a
line (`op` 0 puts `v`, 1 ORs it, 2 signals with ERR for `v` 1, R83), or a step of the machine that follows. -/
inductive DevStep where
  | write (pa n v op : Nat)
  | post (i : Instr)
  deriving DecidableEq, Repr

/-- Who makes such a sequence: a LAUNCH (R94), a grid (R82, R83), a memory-backed ring of a tenant (R393), or another agent. -/
inductive DevOwner where
  | plain
  | launch (g : GroupId) (id : Nat)
  | grid (n : Nat)
  | ring (tenant : Nat)
  deriving DecidableEq, Repr

/-- A request waiting at a line's home (R295). `device` is a sequence of the device's own writes, the first of them at this line; `resume` is
a step that reads the line once it is open at home (R297, R222); `snoop` is a host snoop of a host line (R298). `mark` is a write of another line
whose page has its dirty bit here: its turn lasts while that write is tried once more (R231). -/
inductive HomeReq where
  | read (core : Nat)
  | pin (core : Nat)
  | amax (core : Nat)
  | readNew (g : GroupId) (id : Nat)
  | grant (core : Nat) (mark engine : Bool)
  | atomic (g : GroupId) (id : Nat)
  | device (owner : DevOwner) (steps : List DevStep)
  | resume (i : Instr) (r : Request)
  | mark (i : Instr) (tried : Bool)
  | snoop
  | hostRead (tenant ia : Nat)
  | hostOwn (tenant : Nat)
  | hostWrite (tenant : Nat) (data : LineData) (mask : LineMask) (keeps : Bool)
  deriving DecidableEq, Repr

/-- A directory entry with its drain mark and the requests that wait (R291, R447, R295); `hostWaits` are host reads, by tenant and IA, whose bytes
the holder forwards (R293). `asked`: a RECALL is out; `promoted`: a PROMOTE for the registered release is out. For a line of host memory only `st`, `holder` and the queue are used: who holds it exclusive (R298). -/
structure DirEntry where
  st : DirState
  sites : BitVec 7
  hg : Bool
  eg : Bool
  holder : Nat
  rp : Bool
  rseq : Nat
  dr : Bool
  fwdData : Option (LineData × BitVec 8)
  queue : List HomeReq
  invSent : BitVec 7
  bisnp : Bool
  bisnpData : Bool
  bisnpSince : Nat
  asked : Bool
  promoted : Bool
  parked : List Instr
  hostWaits : List (Nat × Nat)
  deriving DecidableEq, Repr

/-- A bucket table entry (R222). -/
structure Bucket where
  frz : Bool
  slice : Nat
  deriving DecidableEq, Repr

/-- A tenant's line request at a memory controller (R416): its start tag, the core that made it, its arrival. -/
structure MemRequest where
  tenant : Nat
  line : Nat
  tag : Nat × Nat
  core : Nat
  arrived : Nat
  deriving DecidableEq, Repr

/-- A memory controller (R416): tags in units of 1/LCM are kept as exact rationals (numerator, denominator). -/
structure MemCtrl where
  v : Nat × Nat
  f : NMap (Nat × Nat)
  queue : List MemRequest
  untagged : List Nat
  sinceUntagged : Nat
  deriving DecidableEq, Repr

/-- What the host receives for a read of device memory (R434): the 64 bytes of its line, all ones with an error status where the read fails. -/
structure HostReply where
  tenant : Nat
  ia : Nat
  data : BitVec 512
  error : Bool
  deriving DecidableEq, Repr

/-- The states of a queue (R74). -/
inductive QState where
  | off | run | stop | error
  deriving DecidableEq, Repr

/-- A hardware queue (R73, R74, R402): `escalation` is the watchdog's phase, `outcome` the code it ends with. -/
structure Queue where
  qcb : BitVec 36
  kind : Nat
  code : Nat
  st : QState
  limit : Nat
  elapsed : Nat
  since : Nat
  bell : Bool
  sLevel : Bool
  head : Option Nat
  escalation : Nat
  outcome : Nat
  resetSince : Nat
  deriving DecidableEq, Repr

/-- A write that a grid makes at home (R82, R83): its exit-fault record, the record's NFAULT, its signal with ERR. -/
inductive GridWrite where
  | record (v : BitVec 256)
  | nfault (n : Nat)
  | signal (err : Bool)
  deriving DecidableEq, Repr

/-- A taken packet and its grid (R78, R79, R83); `depsMet` are the dependence words whose waits have been met and tested (R81); `writes` those of its
writes whose address is still to be translated. -/
structure Grid where
  die : Nat
  queue : Nat
  tenant : Nat
  packet : BitVec 512
  name : W64
  desc : BitVec 2048
  descTags : BitVec 4
  param : Cap
  deps : List (W64 × W64)
  depsMet : List Nat
  sig : Option W64
  xrec : Option W64
  teams : Nat
  placed : Nat
  retired : Nat
  nfault : Nat
  readySince : Option Nat
  checked : Bool
  complete : Bool
  sLevel : Bool
  stack : Cap
  prio : Nat
  writes : List GridWrite
  deriving DecidableEq, Repr

/-- A cluster's reservation (R89, R90). -/
structure Reservation where
  grid : Nat
  cores : List Nat
  since : Nat
  deriving DecidableEq, Repr

/-- A cluster's placement state (R90): reservation, end of the pause, the grids whose reservation here was released unfilled; `restart`: a withdrawn
reservation starts again here, in the window that began in that cycle (R89). -/
structure ClusterState where
  reservation : Option Reservation
  pauseUntil : Nat
  released : List Nat
  restart : Option Nat
  deriving DecidableEq, Repr

/-- A banked team (R400): its saved hearth entries and matrix operations, those that were accepted and those that waited (R341), the physical
address of its image and its pieces in memory, and the register writes that wait for its rekindle (R394). -/
structure Image where
  team : Team
  entries : List Entry
  state : Nat
  area : Nat
  mats : List MatOp
  mwaits : List MatOp
  pieces : List (Nat × Nat)
  oldCore : Nat
  oldSlot : Nat
  writes : List Happening
  deriving DecidableEq, Repr

/-- The states of a tenant's device interface (R428). -/
inductive TdiState where
  | unlocked | locked | run | error
  deriving DecidableEq, Repr

/-- A running debarking sweep (R55 to R59). `looked`: its bitmap has been reached by walks, and no host owns a line of it. -/
structure Sweep where
  bitmap : Cap
  looked : Bool
  base : Nat
  coresLeft : List Nat
  memoryDone : Bool
  core : Nat
  stamp : Nat
  deriving DecidableEq, Repr

/-- The answer to the last request of an SPDM session (R427, R430): the request's code, 0x7F for an error, the versions that it offers, what it tells of
the device's identity, its signature: 0 RSA-3072, 1 SLH-DSA, and the value. -/
structure SpdmAnswer where
  request : Nat
  versions : List Nat
  payload : Nat
  signature : Option (Nat × Nat)
  deriving DecidableEq, Repr

/-- A tenant: its partition table entry and what the device keeps of it (R413, R386, R52, R428). `copied`: a checkpoint in
progress has copied the windows (R406); `dirtyReport`: the final dirty-page report of a stop, by die and page of the window (R290); `hdm`: the host bases of
the HDM decoders that the host has committed, by die (R434). -/
structure Tenant where
  entry : BitVec 4096
  troute0 : W64
  troute1 : W64
  troute2 : W64
  roots : NMap (BitVec 128)
  lease : List Nat
  tdi : TdiState
  boundStream : Option Nat
  sweep : Option Sweep
  spdm : Nat
  transcript : Nat
  interrupts : List W64
  stoppedStatus : Bool
  checkpointing : Bool
  copied : Bool
  dirtyReport : Option (List (Nat × Nat))
  msix : NMap W64
  measured : NMap W64
  version : Nat
  answer : Option SpdmAnswer
  hdm : NMap Nat
  heldRecords : List (BitVec 2048 × Bool)
  deriving DecidableEq, Repr

/-- A protected world (R426). -/
inductive WorldState where
  | free | live | dying
  deriving DecidableEq, Repr

/-- A world's key state and its exclusion from debug (R424, R431): the key is derived from the device key and the nonce that the argument of the free
value (Config.securityValue) stands for; none: it is erased. -/
structure World where
  st : WorldState
  key : Option Nat
  excluded : Bool
  deriving DecidableEq, Repr

/-- A packet in the fabric (R438): the header's fields, the values and the place it has reached. `typ`: 0 SEND, 1 KSEND, 2 acknowledgement, 3 refusal,
with `reason` and `rhop`; `back`: the ports that a request has entered by, or that a response has still to leave by, the last first. -/
structure Packet where
  typ : Nat
  route : BitVec 128
  name : BitVec 128
  dinc : BitVec 32
  fdom : Nat
  tenant : Nat
  ftag : FTag
  n : Nat
  ofs : Nat
  lanes : Lanes
  ctags : Lanes
  hasTags : Bool
  values : List (Nat × Nat × W32)
  bytes : List Byte
  srcDevice : Nat
  src : GroupId
  world : Nat
  seq : Nat
  hop : Nat
  node : Nat
  cls : Nat
  back : List (Nat × Nat)
  reason : Nat
  rhop : Nat
  deriving DecidableEq, Repr

/-- A fabric member (R371, R376, R377): state, incarnation and measurement that were admitted, and those its last report carries. -/
structure Peer where
  state : Nat
  dinc : BitVec 32
  measured : W64
  newDinc : BitVec 32
  newMeasured : W64
  verifies : Bool
  deriving DecidableEq, Repr

/-- A mailbox (R436). -/
structure Mailbox where
  cmd : BitVec 512
  rsp : BitVec 512
  status : Nat
  done : Bool
  busy : Bool
  deriving DecidableEq, Repr

/-- A flash image slot (R441): its security version, the configuration that it gives the device: its number in the fabric (R2, R371), and the argument
of the free value (Config.securityValue) that its measurement is (R430). -/
structure FlashSlot where
  version : Nat
  valid : Bool
  device : Nat
  measure : Nat
  deriving DecidableEq, Repr

/-- The snoop filter of a die: for each set, the lines it names, oldest allocation first (R296, R301). -/
abbrev SnoopFilter := NMap (List Nat)

/-- A die (R1, R222, R291, R296, R301, R403, R416, R441). `arrived`: lines with requests that came while their buckets were frozen, in order of
arrival (R250). -/
structure Die where
  buckets : NMap Bucket
  arrived : List Nat
  retired : List Nat
  corrected : NMap Nat
  protectedWays : Nat
  filter : SnoopFilter
  gridCount : Nat
  part : Nat
  clockMHz : Nat
  celsius : Nat
  fatal : Bool
  tlb : List TlbEntry
  deriving DecidableEq, Repr

/-- What the firmware, the security controller and the package keep (R376, R410, R431, R436, R441, R442, R444). `deviceKey` is the argument of the free
value (Config.securityValue) that the device key is, once the security controller has derived it (R441); `cxlIde`: the host ports whose CXL.cache
and CXL.mem are protected (R427); `mapOwed`: a change of the topology maps is to be made (R373); `healthBase`: the host memory that holds the health ring, once it is given, `healthCount` its records so far. -/
structure Package where
  deviceKey : Option Nat
  selfDevice : Nat
  dinc : BitVec 32
  debugUnlocked : Bool
  flash : NMap FlashSlot
  bootSlot : Nat
  floor : Nat
  bootstat : W64
  powercap : Nat
  healthSize : Nat
  healthRing : List (BitVec 256)
  healthBase : Option Nat
  healthCount : Nat
  ideStreams : List Nat
  cxlIde : List Nat
  topoGen : Nat
  mapOwed : Bool
  aer : Nat
  nextId : Nat
  freeCount : Nat
  deriving DecidableEq, Repr

/-- The whole device. `portTurns`: the lane class that a port has served last (R374); `fine`: device time in parts of a nanosecond (R444); `replays`:
replays that a port's link has failed in a row (R439); `fabric`: fabric-attached memory. -/
structure State where
  cycle : Nat
  time : Nat
  fine : Nat
  agenda : List Happening
  req : Request
  focus : Option (Nat × Nat)
  pkg : Package
  mem : List Host.Cell
  memTags : List Nat
  badLines : List Nat
  macBad : List Nat
  dir : NMap DirEntry
  copies : NMap (BitVec 7)
  ctrls : NMap MemCtrl
  cores : NMap Core
  dies : NMap Die
  queues : NMap Queue
  grids : NMap Grid
  clusters : NMap ClusterState
  images : NMap Image
  tenants : NMap Tenant
  worlds : NMap World
  packets : NMap Packet
  peers : NMap Peer
  ports : NMap W64
  portTurns : NMap Nat
  replays : NMap Nat
  fabric : List Host.Cell
  mailboxes : NMap Mailbox
  sEvents : List (Nat × W64)
  hostReplies : List HostReply
  deriving DecidableEq, Repr

/-- The package after reset: the values the spec gives; where it gives none (device number, drawn incarnation, power setting),
the value of log entry 5. -/
def Package.reset : Package where
  deviceKey := some 0
  selfDevice := 0
  dinc := 1
  debugUnlocked := false
  flash := [(0, ⟨0, true, 0, 1⟩)]
  bootSlot := 0
  floor := 0
  bootstat := 5
  powercap := 3600
  healthSize := 1024
  healthRing := []
  healthBase := none
  healthCount := 0
  ideStreams := []
  cxlIde := []
  topoGen := 0
  mapOwed := false
  aer := 0
  nextId := 0
  freeCount := 2

/-- The device right after reset (R440, R441): no tenant, no team, no queue in use, memory with nothing listed. -/
def State.reset : State where
  cycle := 0
  time := 0
  fine := 0
  agenda := []
  req := Request.zero
  focus := none
  pkg := Package.reset
  mem := []
  memTags := []
  badLines := []
  macBad := []
  dir := []
  copies := []
  ctrls := []
  cores := []
  dies := []
  queues := []
  grids := []
  clusters := []
  images := []
  tenants := []
  worlds := []
  packets := []
  peers := []
  ports := []
  portTurns := []
  replays := []
  fabric := []
  mailboxes := []
  sEvents := []
  hostReplies := []

end Sys2Proof.Machine
end

