-- ==== Sys2Proof/Machine/Assoc.lean ====
section
/-! DEFINITION. Sparse tables (lists of key and value, keys rising) and small list operations that the machine uses everywhere. -/
namespace Sys2Proof.Machine

/-- The value at a key. -/
def NMap.find {α : Type} : NMap α → Nat → Option α
  | [], _ => none
  | (j, v) :: r, k => if j = k then some v else NMap.find r k

/-- The value at a key, or the table's default. -/
def NMap.getD {α : Type} (m : NMap α) (k : Nat) (d : α) : α := (NMap.find m k).getD d

/-- Puts a value at a key. -/
def NMap.set {α : Type} : NMap α → Nat → α → NMap α
  | [], k, v => [(k, v)]
  | (j, w) :: r, k, v => if k < j then (k, v) :: (j, w) :: r else if j = k then (k, v) :: r else (j, w) :: NMap.set r k v

/-- Removes a key. -/
def NMap.del {α : Type} : NMap α → Nat → NMap α
  | [], _ => []
  | (j, w) :: r, k => if j = k then NMap.del r k else (j, w) :: NMap.del r k

/-- The keys of a table. -/
def NMap.keys {α : Type} (m : NMap α) : List Nat := m.map Prod.fst

/-- Changes the value at a key that is there. -/
def NMap.adjust {α : Type} (m : NMap α) (k : Nat) (f : α → α) : NMap α :=
  match NMap.find m k with
  | some v => NMap.set m k (f v)
  | none => m

/-- The value at a key is the one last put there. -/
@[simp] theorem NMap.find_set_same {α : Type} (m : NMap α) (k : Nat) (v : α) : NMap.find (NMap.set m k v) k = some v := by
  induction m with
  | nil => simp [NMap.set, NMap.find]
  | cons p r ih =>
    obtain ⟨j, w⟩ := p
    simp only [NMap.set]
    split_ifs with h1 h2
    · simp [NMap.find]
    · simp [NMap.find]
    · simp [NMap.find, h2, ih]

/-- Putting a value at one key leaves the others. -/
theorem NMap.find_set_other {α : Type} (m : NMap α) (k j : Nat) (v : α) (h : k ≠ j) :
    NMap.find (NMap.set m k v) j = NMap.find m j := by
  induction m with
  | nil => simp [NMap.set, NMap.find, h]
  | cons p r ih =>
    obtain ⟨i, w⟩ := p
    simp only [NMap.set]
    split_ifs with h1 h2
    · simp [NMap.find, h]
    · subst h2; simp [NMap.find, h]
    · simp [NMap.find, ih]

/-- Sets position `i` of a list, padding with `d`. -/
def setAt {α : Type} (d : α) : List α → Nat → α → List α
  | [], 0, v => [v]
  | [], n + 1, v => d :: setAt d [] n v
  | _ :: r, 0, v => v :: r
  | x :: r, n + 1, v => x :: setAt d r n v

/-- The lanes below `w` that a set holds, in rising number. -/
def lanesOf (w : Nat) (m : Lanes) : List Nat := (List.range w).filter fun l => m.getLsbD l

/-- The lane set of a list of lane numbers. -/
def lanesMask (ls : List Nat) : Lanes := ls.foldl (fun m l => m ||| (1#64 <<< l)) 0

/-- The lane mask of a width (R21). -/
def widthMask (w : Nat) : Lanes := if 64 ≤ w then BitVec.allOnes 64 else BitVec.ofNat 64 (2 ^ w - 1)

/-- The lowest lane of a set, or 64 when it is empty. -/
def lowestLane (m : Lanes) : Nat := ((List.range 64).find? fun l => m.getLsbD l).getD 64

/-- Sign extension of a number's low `n` bits to 64 bits. -/
def sext (n : Nat) (v : Nat) : W64 :=
  let r := v % 2 ^ n
  if r < 2 ^ (n - 1) then BitVec.ofNat 64 r else BitVec.ofNat 64 (2 ^ 64 + r - 2 ^ n)

/-- The number of ones of a set. -/
def popcount (n : Nat) (v : Nat) : Nat := ((List.range n).filter fun i => v.testBit i).length

/-- Removes the first element equal to `x`. -/
def removeFirst {α : Type} [BEq α] : List α → α → List α
  | [], _ => []
  | y :: r, x => if y == x then r else y :: removeFirst r x

/-- Puts an element behind those that are at most it, by a measure. -/
def insertBy {α : Type} (f : α → Nat) (x : α) : List α → List α
  | [] => [x]
  | y :: r => if f y ≤ f x then y :: insertBy f x r else x :: y :: r

/-- Sorts by a measure; equal elements keep their order. -/
def sortBy {α : Type} (f : α → Nat) (l : List α) : List α := l.foldl (fun acc x => insertBy f x acc) []

/-- Bits [lo+len-1:lo] of a number. -/
def bitsOf (v lo len : Nat) : Nat := v / 2 ^ lo % 2 ^ len

end Sys2Proof.Machine
end

