-- ==== Sys2Proof/Machine/Caps.lean ====
section
/-! DEFINITION. Capabilities (spec/03): fields, bounds, the checks of R50, and the derivations of the capability instructions. -/
namespace Sys2Proof.Machine

/-- The untagged zero capability, which the pair sc0 reads as (R105). -/
def Cap.null : Cap := ⟨0, false⟩

/-- Bits [lo+len-1:lo] of a capability. -/
def Cap.bitsAt (c : Cap) (lo len : Nat) : Nat := bitsOf c.bits.toNat lo len

/-! Fields (R37). -/
def Cap.kind (c : Cap) : Nat := c.bitsAt 126 2
def Cap.perms (c : Cap) : Nat := c.bitsAt 114 12
def Cap.otype (c : Cap) : Nat := c.bitsAt 100 14
def Cap.addr (c : Cap) : W64 := BitVec.ofNat 64 (c.bitsAt 0 64)

/-! Grants, as PERMS bit numbers less 114 (R38). -/
def permLD : Nat := 2 ^ 11
def permST : Nat := 2 ^ 10
def permEX : Nat := 2 ^ 9
def permLC : Nat := 2 ^ 8
def permSC : Nat := 2 ^ 7
def permAT : Nat := 2 ^ 6
def permGL : Nat := 2 ^ 5
def permSEAL : Nat := 2 ^ 4
def permUNSEAL : Nat := 2 ^ 3
def permRS : Nat := 2 ^ 2
def permSYS : Nat := 2 ^ 1

/-- The capability grants every permission of the set. -/
def Cap.grants (c : Cap) (p : Nat) : Bool := c.perms &&& p == p

/-- Replaces the bits of a field. -/
def Cap.setBits (c : Cap) (lo len v : Nat) : Cap :=
  { c with bits := BitVec.ofNat 128 (c.bits.toNat - c.bitsAt lo len * 2 ^ lo + v % 2 ^ len * 2 ^ lo) }

def Cap.setAddr (c : Cap) (a : W64) : Cap := c.setBits 0 64 a.toNat

/-- CapDecode (R40): base and top, top below 2^65. -/
def capDecode (c : Cap) : Nat × Nat :=
  let e := c.bitsAt 94 6
  let b := c.bitsAt 80 14
  let t := c.bitsAt 66 14
  let a := c.bitsAt 0 64
  if c.kind = 1 || e > 51 then (0, 0)
  else if e = 51 then (0, 2 ^ 64)
  else
    let m := e + 14
    let r := (b + 2 ^ 14 - 2 ^ 12) % 2 ^ 14
    let hi := if m < 64 then a / 2 ^ m else 0
    let up : Int := (hi : Int) + (if b < r then 1 else 0) - (if a / 2 ^ e % 2 ^ 14 < r then 1 else 0)
    let base := ((up * 2 ^ m + b * 2 ^ e) % 2 ^ 64).toNat
    (base, base + (t + 2 ^ 14 - b) % 2 ^ 14 * 2 ^ e)

/-- Representable (R41). -/
def representable (c : Cap) (a : W64) : Bool := capDecode (c.setAddr a) == capDecode c

/-- What CapEncode gives (R42): exponent, mantissas, the rounded bounds, exactness. -/
structure Encoded where
  e : Nat
  b : Nat
  t : Nat
  rb : Nat
  rt : Nat
  exact_ : Bool
  deriving DecidableEq, Repr

/-- The smallest exponent from `e` on, with `fuel` candidates left, whose rounded bounds fit (R42). -/
def capEncodeFrom (base top : Nat) : Nat → Nat → Encoded
  | 0, _ => ⟨51, 0, 0, 0, 2 ^ 64, base == 0 && top == 2 ^ 64⟩
  | fuel + 1, e =>
    let rb := base / 2 ^ e * 2 ^ e
    let rt := (top + 2 ^ e - 1) / 2 ^ e * 2 ^ e
    if rt - rb < 2 ^ (e + 14) && top ≤ 2 ^ 64 then
      ⟨e, rb / 2 ^ e % 2 ^ 14, rt / 2 ^ e % 2 ^ 14, rb, rt, rb == base && rt == top⟩
    else capEncodeFrom base top fuel (e + 1)

/-- CapEncode (R42). A top above 2^64 takes the whole-space encoding. -/
def capEncode (base top : Nat) : Encoded := capEncodeFrom base top 51 0

/-- Writes EXP, BASE_M and TOP_M. -/
def Cap.setBounds (c : Cap) (n : Encoded) : Cap := c.setBits 66 34 (n.e * 2 ^ 28 + n.b * 2 ^ 14 + n.t)

/-- CapCheck (R50): the first failing test. -/
def capCheck (c : Cap) (a : W64) (size perm : Nat) : Option Cause :=
  if !c.tag then some .capTag
  else if c.kind ≠ 0 then some .capKind
  else if c.otype ≠ 0 then some .capSealed
  else if !c.grants perm then some .capPerm
  else if a.toNat < (capDecode c).1 || (capDecode c).2 < a.toNat + size then some .capBounds
  else none

/-- The tests of CapCheck but the bounds (R309, R320). -/
def capCheckUse (c : Cap) (perm : Nat) : Option Cause :=
  if !c.tag then some .capTag
  else if c.kind ≠ 0 then some .capKind
  else if c.otype ≠ 0 then some .capSealed
  else if !c.grants perm then some .capPerm
  else none

/-- The result of a capability derivation: a capability, or the fault. -/
abbrev CapResult := Except Cause Cap

/-- Moving the address (R64). -/
def capMove (c : Cap) (n : W64) : CapResult :=
  if c.tag && c.kind ≠ 0 then .error .capKind
  else if c.tag && c.otype ≠ 0 then .error .capSealed
  else if c.tag && !representable c n then .error .capRepresent
  else .ok (c.setAddr n)

/-- CBOUND and CBOUNDX (R65). -/
def capBound (c : Cap) (len : W64) (exactly : Bool) : CapResult :=
  let lo := c.addr.toNat
  let hi := lo + len.toNat
  let p := capDecode c
  let n := capEncode lo hi
  if c.tag && c.kind ≠ 0 then .error .capKind
  else if c.tag && c.otype ≠ 0 then .error .capSealed
  else if c.tag && (lo < p.1 || p.2 < hi) then .error .capBounds
  else if c.tag && exactly && !n.exact_ then .error .capRepresent
  else if c.tag && (n.rb < p.1 || p.2 < n.rt) then .error .capBounds
  else .ok (c.setBounds n)

/-- CANDP (R66). -/
def capAndPerms (c : Cap) (mask : W64) : CapResult :=
  if c.tag && 2 ≤ c.kind then .error .capKind
  else if c.tag && c.otype ≠ 0 then .error .capSealed
  else .ok (c.setBits 114 12 (c.perms &&& (mask.toNat % 4096) &&& 0xFFE))

/-- The tests of a key that CSEAL and CUNSEAL share (R67). -/
def keyCheck (k : Cap) : Option Cause :=
  if !k.tag then some .capTag else if k.kind ≠ 0 then some .capKind else if k.otype ≠ 0 then some .capSealed else none

/-- CSEAL (R67). -/
def capSeal (c k : Cap) : CapResult :=
  let kb := (capDecode k).1
  let kt := (capDecode k).2
  match keyCheck k with
  | some f => .error f
  | none =>
    if !k.grants permSEAL || kb < 1 || 16383 < kb || kt ≤ kb then .error .capPerm
    else if c.tag && 1 < c.kind then .error .capKind
    else if c.tag && c.otype ≠ 0 then .error .capSealed
    else .ok (c.setBits 100 14 kb)

/-- CSEAL.e (R67). -/
def capSealEntry (c : Cap) : CapResult :=
  let p := capDecode c
  let a := c.addr.toNat
  if c.tag && c.kind ≠ 0 then .error .capKind
  else if c.tag && c.otype ≠ 0 then .error .capSealed
  else if c.tag && !c.grants permEX then .error .capPerm
  else if c.tag && (a % 8 ≠ 0 || a < p.1 || p.2 < a + 8) then .error .capBounds
  else .ok ((c.setBits 126 2 2).setBits 100 14 0)

/-- CUNSEAL (R67). -/
def capUnseal (c k : Cap) : CapResult :=
  match keyCheck k with
  | some f => .error f
  | none =>
    if !k.grants permUNSEAL then .error .capPerm
    else if c.tag && 1 < c.kind then .error .capKind
    else if c.tag && c.otype = 0 then .error .capSealed
    else if c.otype < (capDecode k).1 || (capDecode k).2 ≤ c.otype then .error .capPerm
    else .ok (c.setBits 100 14 0)

/-- A register-name capability (R44, R70): RS and GL over `count` + 1 registers, or a channel credit (R316). -/
def capName (device die core slot group regbase count incn : Nat) : Cap :=
  ⟨BitVec.ofNat 128 (2 ^ 126 + (permRS + permGL) * 2 ^ 114
    + (device % 1024 * 2 ^ 54 + die % 4 * 2 ^ 52 + core % 256 * 2 ^ 44 + slot % 32 * 2 ^ 39 + group % 32 * 2 ^ 34
      + regbase % 2048 * 2 ^ 23 + count % 2048 * 2 ^ 12 + incn % 4096)), true⟩

/-- Narrows a capability to [base, base + len) with the permissions of a mask (R35, R51): R42's exponent, or the next one where the address
would not decode to those bounds under it (R40's window). -/
def capNarrow (c : Cap) (base len perms : Nat) (addr : W64) : Cap :=
  let n := capEncode base (base + len)
  let f := fun (x : Encoded) => ((c.setAddr addr).setBounds x).setBits 114 12 (c.perms &&& perms)
  if capDecode (f n) == (n.rb, n.rt) then f n else f (capEncodeFrom base (base + len) (50 - n.e) (n.e + 1))

end Sys2Proof.Machine
end

