-- ==== Sys2Proof/Machine/Numbers.lean ====
section
/-! DEFINITION. Number formats and format tags (spec/08): exact values, decoding of elements, RoundTo, stochastic bits.
An exact value is kept as a sign, a numerator, a denominator and a power of two. -/
namespace Sys2Proof.Machine

/-- An element format. -/
inductive Fmt where
  | f64 | f32 | f16 | bf16 | e4m3 | e5m2 | e3m2 | e2m3 | e2m1 | mxint8 | e8m0
  | int (bits : Nat) (signed : Bool)
  deriving DecidableEq, Repr

/-- An exact value, an infinity or a NaN. `fin n a d e` is (-1)^n * a / d * 2^e. -/
inductive Num where
  | nan
  | inf (neg : Bool)
  | fin (neg : Bool) (num den : Nat) (exp : Int)
  deriving DecidableEq, Repr

/-- Exponent bits, fraction bits and bias of a floating format (R169, R171). -/
structure FloatParams where
  ebits : Nat
  fbits : Nat
  bias : Nat
  deriving DecidableEq, Repr

/-- The parameters of a format, `none` for integers, MXINT8 and E8M0. -/
def Fmt.params : Fmt → Option FloatParams
  | .f64 => some ⟨11, 52, 1023⟩
  | .f32 => some ⟨8, 23, 127⟩
  | .f16 => some ⟨5, 10, 15⟩
  | .bf16 => some ⟨8, 7, 127⟩
  | .e4m3 => some ⟨4, 3, 7⟩
  | .e5m2 => some ⟨5, 2, 15⟩
  | .e3m2 => some ⟨3, 2, 3⟩
  | .e2m3 => some ⟨2, 3, 1⟩
  | .e2m1 => some ⟨2, 1, 1⟩
  | _ => none

/-- Bits of an element. -/
def Fmt.width : Fmt → Nat
  | .f64 => 64
  | .f32 => 32
  | .f16 => 16
  | .bf16 => 16
  | .e3m2 => 6
  | .e2m3 => 6
  | .e2m1 => 4
  | .int b _ => b
  | _ => 8

/-- The formats of R169. -/
def Fmt.isIeee : Fmt → Bool
  | .f64 => true
  | .f32 => true
  | .f16 => true
  | .bf16 => true
  | _ => false

/-- The floating formats whose infinities and NaNs an all-ones exponent encodes (R169, R171). -/
def Fmt.hasInf : Fmt → Bool
  | .e5m2 => true
  | f => f.isIeee

/-- Encoding of the largest finite magnitude (R169, R171). -/
def Fmt.maxBits (f : Fmt) : Nat :=
  match f with
  | .e4m3 => 0x7E
  | .mxint8 => 0x7F
  | .e8m0 => 0xFE
  | .int b s => if s then 2 ^ (b - 1) - 1 else 2 ^ b - 1
  | _ => match f.params with
    | some p => if f.hasInf then (2 ^ p.ebits - 1) * 2 ^ p.fbits - 1 else 2 ^ (p.ebits + p.fbits) - 1
    | none => 0

/-! The flags of fpst (R184). -/
def flIV : Nat := 1
def flDZ : Nat := 2
def flOF : Nat := 4
def flUF : Nat := 8
def flNX : Nat := 16

/-- A rounded result: the element's bits and the flags raised. -/
structure Rounded where
  bits : Nat
  flags : Nat
  deriving DecidableEq, Repr

/-- Puts a sign on a magnitude of a format (R169, R171; two's complement for MXINT8 and signed integers). -/
def withSign (f : Fmt) (neg : Bool) (mag : Nat) : Nat :=
  if !neg then mag
  else match f with
    | .mxint8 => (256 - mag) % 256
    | .int b _ => (2 ^ b - mag) % 2 ^ b
    | .e8m0 => mag
    | _ => mag + 2 ^ (f.width - 1)

/-- The default NaN (R170, R171). -/
def defaultNaN : Fmt → Nat
  | .f64 => 0x7FF8000000000000
  | .f32 => 0x7FC00000
  | .f16 => 0x7E00
  | .bf16 => 0x7FC0
  | .e4m3 => 0x7F
  | .e5m2 => 0x7E
  | .e8m0 => 0xFF
  | _ => 0

/-- The encoding of an infinity (R169, R171). -/
def infBits (f : Fmt) (neg : Bool) : Nat :=
  match f.params with
  | some p => withSign f neg ((2 ^ p.ebits - 1) * 2 ^ p.fbits)
  | none => 0

/-- Special (R179) for NaN. -/
def specialNaN (f : Fmt) : Rounded :=
  match f with
  | .e3m2 => ⟨0, flIV⟩
  | .e2m3 => ⟨0, flIV⟩
  | .e2m1 => ⟨0, flIV⟩
  | .mxint8 => ⟨0, flIV⟩
  | .e8m0 => ⟨0xFF, flIV⟩
  | .int _ _ => ⟨0, flIV⟩
  | _ => ⟨defaultNaN f, 0⟩

/-- Special (R179) for an infinity. -/
def specialInf (f : Fmt) (neg : Bool) : Rounded :=
  match f with
  | .e8m0 => if neg then ⟨0xFF, flIV⟩ else ⟨0xFE, flIV⟩
  | .int b s => if neg then ⟨if s then 2 ^ (b - 1) else 0, flIV⟩ else ⟨f.maxBits, flIV⟩
  | _ => if f.hasInf then ⟨infBits f neg, 0⟩ else ⟨withSign f neg f.maxBits, flIV⟩

/-- Overflow (R178). -/
def overflowTo (f : Fmt) (mode : Nat) (neg : Bool) : Rounded :=
  match f with
  | .int b s => ⟨if neg then (if s then 2 ^ (b - 1) else 0) else f.maxBits, flIV⟩
  | .e8m0 => ⟨0xFE, flOF + flNX⟩
  | _ =>
    if f.isIeee then
      let toMax := mode == 1 || (mode == 2 && neg) || (mode == 3 && !neg)
      ⟨if toMax then withSign f neg f.maxBits else infBits f neg, flOF + flNX⟩
    else ⟨withSign f neg f.maxBits, flOF + flNX⟩

/-- Whether a value at fraction `n / d` of a grid step rounds away from zero (R177). -/
def roundsUp (mode : Nat) (neg odd : Bool) (n d r : Nat) : Bool :=
  match mode with
  | 0 => decide (d < 2 * n) || (decide (d = 2 * n) && odd)
  | 1 => false
  | 2 => !neg
  | 3 => neg
  | 4 => decide (d ≤ 2 * n)
  | _ => decide (2 ^ 24 ≤ n * 2 ^ 24 / d + r)

/-- Floor of log2 of a / d, both positive. -/
def floorLog2 (a d : Nat) : Int :=
  let k : Int := (Nat.log2 a : Int) - Nat.log2 d
  let fits : Bool := if 0 ≤ k then decide (d * 2 ^ k.toNat ≤ a) else decide (d ≤ a * 2 ^ (-k).toNat)
  if fits then k else k - 1

/-- A value times 2^-q as a fraction of naturals. -/
def scaled (a d : Nat) (e q : Int) : Nat × Nat :=
  if q ≤ e then (a * 2 ^ (e - q).toNat, d) else (a, d * 2 ^ (q - e).toNat)

/-- RoundTo (R177): the format, the mode of R176, the exact value, the 24 random bits, and fpctl.FTZ. The exact value -2^(w-1) of a signed integer tag is
encoded and raises nothing (log entry 138: read so from R178 and R215). -/
def roundTo (f : Fmt) (mode : Nat) (x : Num) (r : Nat) (ftz : Bool) : Rounded :=
  match x with
  | .nan => specialNaN f
  | .inf neg => specialInf f neg
  | .fin neg a d e =>
    match f with
    | .e8m0 =>
      if a = 0 then ⟨0, flUF + flNX⟩
      else if neg then ⟨0xFF, flIV⟩
      else
        let ex := floorLog2 a d + e
        if ex < -127 then ⟨0, flUF + flNX⟩
        else
          let (n, dd) := scaled a d e ex
          let rest := n - dd
          let field := (ex + 127).toNat
          let up := rest ≠ 0 && roundsUp mode neg (field % 2 == 1) rest dd r
          let y := if up then field + 1 else field
          if 254 < y then overflowTo f mode neg else ⟨y, if rest = 0 then 0 else flNX⟩
    | .int b s =>
      if a = 0 then ⟨0, 0⟩
      else
        let (n, dd) := scaled a d e 0
        let m := n / dd
        let rest := n % dd
        let y := if rest ≠ 0 && roundsUp mode neg (m % 2 == 1) rest dd r then m + 1 else m
        let nx := if rest = 0 then 0 else flNX
        if neg && !s then (if y = 0 then ⟨0, nx⟩ else ⟨0, flIV⟩)
        else if (if neg then 2 ^ (b - 1) < y else f.maxBits < y) then overflowTo f mode neg
        else ⟨withSign f neg y, nx⟩
    | .mxint8 =>
      if a = 0 then ⟨0, 0⟩
      else
        let (n, dd) := scaled a d e (-6)
        let m := n / dd
        let rest := n % dd
        let y := if rest ≠ 0 && roundsUp mode neg (m % 2 == 1) rest dd r then m + 1 else m
        if 127 < y then overflowTo f mode neg else ⟨withSign f neg y, if rest = 0 then 0 else flNX⟩
    | _ =>
      match f.params with
      | none => ⟨0, 0⟩
      | some p =>
        if a = 0 then ⟨withSign f neg 0, 0⟩
        else
          let emin : Int := 1 - (p.bias : Int)
          let ex := floorLog2 a d + e
          let q := (if ex < emin then emin else ex) - p.fbits
          let (n, dd) := scaled a d e q
          let m := n / dd
          let rest := n % dd
          let y := if rest ≠ 0 && roundsUp mode neg (m % 2 == 1) rest dd r then m + 1 else m
          let inexact := rest ≠ 0
          let mag := if y < 2 ^ p.fbits then y else (q + p.fbits + p.bias).toNat * 2 ^ p.fbits + (y - 2 ^ p.fbits)
          if f.maxBits < mag then overflowTo f mode neg
          else if ftz && (f == .f32 || f == .f64) && y ≠ 0 && mag < 2 ^ p.fbits then ⟨withSign f neg 0, flUF + flNX⟩
          else
            let uf := if inexact && mag < 2 ^ p.fbits then flUF else 0
            ⟨withSign f neg mag, (if inexact then flNX else 0) + uf⟩

/-- A float element's bits are a NaN. -/
def isNaNBits (f : Fmt) (v : Nat) : Bool :=
  match f with
  | .e4m3 => v % 128 == 0x7F
  | .e8m0 => v == 0xFF
  | _ => match f.params with
    | some p => f.hasInf && v / 2 ^ p.fbits % 2 ^ p.ebits == 2 ^ p.ebits - 1 && v % 2 ^ p.fbits != 0
    | none => false

/-- A signalling NaN: an IEEE NaN whose top fraction bit is 0 (R169); the narrow formats' NaNs are quiet (R171). -/
def isSignalling (f : Fmt) (v : Nat) : Bool :=
  f.isIeee && isNaNBits f v && (match f.params with | some p => v / 2 ^ (p.fbits - 1) % 2 == 0 | none => false)

/-- A subnormal of an IEEE format. -/
def isSubnormal (f : Fmt) (v : Nat) : Bool :=
  match f.params with
  | some p => v / 2 ^ p.fbits % 2 ^ p.ebits == 0 && v % 2 ^ p.fbits != 0
  | none => false

/-- The value of an element (R169, R171, R172). -/
def decodeNum (f : Fmt) (v : Nat) : Num :=
  match f with
  | .int b s => if s && 2 ^ (b - 1) ≤ v then .fin true (2 ^ b - v) 1 0 else .fin false v 1 0
  | .mxint8 => if 128 ≤ v then .fin true (256 - v) 1 (-6) else .fin false v 1 (-6)
  | .e8m0 => if v == 0xFF then .nan else .fin false 1 1 ((v : Int) - 127)
  | _ => match f.params with
    | none => .nan
    | some p =>
      let neg := v / 2 ^ (f.width - 1) % 2 == 1
      let ef := v / 2 ^ p.fbits % 2 ^ p.ebits
      let fr := v % 2 ^ p.fbits
      if isNaNBits f v then .nan
      else if f.hasInf && ef == 2 ^ p.ebits - 1 then .inf neg
      else if ef = 0 then .fin neg fr 1 (1 - (p.bias : Int) - p.fbits)
      else .fin neg (2 ^ p.fbits + fr) 1 ((ef : Int) - p.bias - p.fbits)

/-- An element read by arithmetic: F32 and F64 subnormals are zero under FTZ (R181). -/
def readNum (f : Fmt) (v : Nat) (ftz : Bool) : Num :=
  if ftz && (f == .f32 || f == .f64) && isSubnormal f v then .fin (v / 2 ^ (f.width - 1) % 2 == 1) 0 1 0 else decodeNum f v

/-! Exact arithmetic. -/

def Num.neg : Num → Num
  | .nan => .nan
  | .inf n => .inf (!n)
  | .fin n a d e => .fin (!n) a d e

def Num.isZero : Num → Bool
  | .fin _ a _ _ => a == 0
  | _ => false

def Num.isNaN : Num → Bool
  | .nan => true
  | _ => false

def Num.isInf : Num → Bool
  | .inf _ => true
  | _ => false

def Num.sign : Num → Bool
  | .nan => false
  | .inf n => n
  | .fin n _ _ _ => n

/-- Signed numerator over a common denominator and exponent. -/
def Num.toInts (n : Bool) (a d : Nat) (e : Int) (d2 : Nat) (emin : Int) : Int :=
  let m : Nat := a * d2 * 2 ^ (e - emin).toNat
  let _ := d
  if n then -(m : Int) else m

/-- The exact sum of two finite values; a zero sum of opposite signs has sign `zneg`. -/
def addFin (n1 : Bool) (a1 d1 : Nat) (e1 : Int) (n2 : Bool) (a2 d2 : Nat) (e2 : Int) (zneg : Bool) : Num :=
  let emin := if e1 ≤ e2 then e1 else e2
  let s := Num.toInts n1 a1 d1 e1 d2 emin + Num.toInts n2 a2 d2 e2 d1 emin
  if s = 0 then .fin (if n1 == n2 then n1 else zneg) 0 1 0
  else .fin (decide (s < 0)) s.natAbs (d1 * d2) emin

/-- Exact sum; opposite infinities give NaN. A zero sum is -0 only when both are -0 (R190). -/
def Num.add : Num → Num → Num
  | .nan, _ => .nan
  | _, .nan => .nan
  | .inf a, .inf b => if a == b then .inf a else .nan
  | .inf a, _ => .inf a
  | _, .inf b => .inf b
  | .fin n1 a1 d1 e1, .fin n2 a2 d2 e2 => addFin n1 a1 d1 e1 n2 a2 d2 e2 false

/-- Exact product; infinity times zero gives NaN. -/
def Num.mul : Num → Num → Num
  | .nan, _ => .nan
  | _, .nan => .nan
  | .inf a, .inf b => .inf (a != b)
  | .inf a, .fin n m _ _ => if m = 0 then .nan else .inf (a != n)
  | .fin n m _ _, .inf b => if m = 0 then .nan else .inf (n != b)
  | .fin n1 a1 d1 e1, .fin n2 a2 d2 e2 => .fin (n1 != n2) (a1 * a2) (d1 * d2) (e1 + e2)

/-- Compares the magnitudes of two finite values. -/
def magLt (a1 d1 : Nat) (e1 : Int) (a2 d2 : Nat) (e2 : Int) : Bool :=
  let emin := if e1 ≤ e2 then e1 else e2
  decide (a1 * d2 * 2 ^ (e1 - emin).toNat < a2 * d1 * 2 ^ (e2 - emin).toNat)

/-- The order of values that are no NaN: -0 = +0. -/
def Num.lt : Num → Num → Bool
  | .nan, _ => false
  | _, .nan => false
  | .inf a, .inf b => a && !b
  | .inf a, _ => a
  | _, .inf b => !b
  | .fin n1 a1 d1 e1, .fin n2 a2 d2 e2 =>
    if a1 = 0 && a2 = 0 then false
    else if a1 = 0 then !n2
    else if a2 = 0 then n1
    else if n1 && !n2 then true
    else if !n1 && n2 then false
    else if n1 then magLt a2 d2 e2 a1 d1 e1
    else magLt a1 d1 e1 a2 d2 e2

/-- Equality of values that are no NaN. -/
def Num.eqv (x y : Num) : Bool := !x.isNaN && !y.isNaN && !x.lt y && !y.lt x

/-- Multiplies by a power of two. -/
def Num.scale (x : Num) (k : Int) : Num :=
  match x with
  | .fin n a d e => .fin n a d (e + k)
  | y => y

/-- SRBits (R180). -/
def srBits (seed : W64) (l j : Nat) : Nat :=
  let z0 : W64 := seed + BitVec.ofNat 64 ((64 * j + l + 1) * 0xA3B19C5D2E47F861)
  let z1 := (z0 ^^^ (z0 >>> 31)) * 0xE7F35A21C84B0D9D#64
  let z2 := (z1 ^^^ (z1 >>> 29)) * 0x7B1DC39A46E5F02B#64
  let z3 := z2 ^^^ (z2 >>> 32)
  bitsOf z3.toNat 40 24

/-! Format tags (R166, R167). -/

/-- The tag of a code; codes 0x16 to 0x1F are reserved. -/
def tagOf (c : Nat) : Option FTag :=
  [FTag.raw, .i32, .n32, .f32, .i64, .n64, .f64, .f16x2, .bf16x2, .i16x2, .n16x2, .i8x4, .n8x4, .e4m3x4, .e5m2x4, .e3m2s, .e2m3s,
    .e2m1x8, .mxi8x4, .e8m0x4, .cap, .route][c]?

end Sys2Proof.Machine

namespace Sys2Proof

/-- The code of a tag. -/
def FTag.code : FTag → Nat
  | .raw => 0 | .i32 => 1 | .n32 => 2 | .f32 => 3 | .i64 => 4 | .n64 => 5 | .f64 => 6 | .f16x2 => 7 | .bf16x2 => 8 | .i16x2 => 9
  | .n16x2 => 10 | .i8x4 => 11 | .n8x4 => 12 | .e4m3x4 => 13 | .e5m2x4 => 14 | .e3m2s => 15 | .e2m3s => 16 | .e2m1x8 => 17
  | .mxi8x4 => 18 | .e8m0x4 => 19 | .cap => 20 | .route => 21

/-- Registers of an operand of the tag. -/
def FTag.regs : FTag → Nat
  | .i64 => 2 | .n64 => 2 | .f64 => 2 | .e3m2s => 3 | .e2m3s => 3 | .cap => 4 | .route => 4 | _ => 1

/-- Element format and elements per lane; `none` for RAW, CAP and ROUTE. -/
def FTag.elem : FTag → Option (Machine.Fmt × Nat)
  | .i32 => some (.int 32 true, 1) | .n32 => some (.int 32 false, 1) | .f32 => some (.f32, 1)
  | .i64 => some (.int 64 true, 1) | .n64 => some (.int 64 false, 1) | .f64 => some (.f64, 1)
  | .f16x2 => some (.f16, 2) | .bf16x2 => some (.bf16, 2) | .i16x2 => some (.int 16 true, 2) | .n16x2 => some (.int 16 false, 2)
  | .i8x4 => some (.int 8 true, 4) | .n8x4 => some (.int 8 false, 4)
  | .e4m3x4 => some (.e4m3, 4) | .e5m2x4 => some (.e5m2, 4) | .e3m2s => some (.e3m2, 16) | .e2m3s => some (.e2m3, 16)
  | .e2m1x8 => some (.e2m1, 8) | .mxi8x4 => some (.mxint8, 4) | .e8m0x4 => some (.e8m0, 4)
  | _ => none

def FTag.isInt : FTag → Bool
  | .i32 => true | .n32 => true | .i64 => true | .n64 => true | .i16x2 => true | .n16x2 => true | .i8x4 => true | .n8x4 => true
  | _ => false

def FTag.isFloat : FTag → Bool
  | .f32 => true | .f64 => true | .f16x2 => true | .bf16x2 => true | _ => false

/-- The seven MX tags (R167). -/
def FTag.isMx : FTag → Bool
  | .e4m3x4 => true | .e5m2x4 => true | .e3m2s => true | .e2m3s => true | .e2m1x8 => true | .mxi8x4 => true | .e8m0x4 => true
  | _ => false

/-- Signed integer tags. -/
def FTag.isSigned : FTag → Bool
  | .i32 => true | .i64 => true | .i16x2 => true | .i8x4 => true | _ => false

end Sys2Proof

namespace Sys2Proof.Machine

/-- The bits of a lane's operand: its words, lowest register first. -/
def joinWords : List W32 → Nat
  | [] => 0
  | w :: r => w.toNat + 2 ^ 32 * joinWords r

/-- The `n` words of a lane's operand. -/
def splitWords : Nat → Nat → List W32
  | 0, _ => []
  | n + 1, v => BitVec.ofNat 32 v :: splitWords n (v / 2 ^ 32)

/-- Element `j` of a lane's operand bits. -/
def elemAt (w v j : Nat) : Nat := v / 2 ^ (w * j) % 2 ^ w

/-- Puts together elements of width `w`, element 0 lowest. -/
def joinElems (w : Nat) : List Nat → Nat
  | [] => 0
  | e :: r => e % 2 ^ w + 2 ^ w * joinElems w r

end Sys2Proof.Machine
end

