-- ==== Sys2Proof/Machine/Access.lean ====
section
/-! DEFINITION. Accessors of the state: cores, teams, groups, splits, registers, path counters, the agenda. -/
namespace Sys2Proof.Machine

/-! Cores, dies, tenants, queues, grids. -/

/-- A core that holds nothing (R219, R421): world 0, a whole pool. -/
def Core.fresh : Core where
  world := 0
  poolTop := 1536
  pool := none
  teams := []
  incns := []
  hearth := []
  seqNext := 0
  rseq := 0
  waiting := []
  grants := []
  grantAsked := []
  recalls := []
  l1 := []
  tlb := []
  readsOut := []
  forwards := []
  quads := []
  mqueue := []
  mwaiting := []
  egrants := []
  perf := []
  breakpoints := []
  dbgSlot := 0
  reserved := none
  rotor := 0
  noNewTeam := false
  leaving := false

/-- A die as it leaves reset (R222, R440). -/
def Die.fresh : Die where
  buckets := []
  arrived := []
  retired := []
  corrected := []
  protectedWays := 0
  filter := []
  gridCount := 0
  part := 0
  clockMHz := 2250
  celsius := 40
  fatal := false
  tlb := []

/-- A tenant number without a valid partition table entry (R413). -/
def Tenant.fresh : Tenant where
  entry := 0
  troute0 := 0
  troute1 := 0
  troute2 := 0
  roots := []
  lease := []
  tdi := .unlocked
  boundStream := none
  sweep := none
  spdm := 0
  transcript := 0
  interrupts := []
  stoppedStatus := false
  checkpointing := false
  copied := false
  dirtyReport := none
  msix := []
  measured := []
  version := 0
  answer := none
  hdm := []
  heldRecords := []

/-- A queue in state OFF (R74). -/
def Queue.fresh : Queue where
  qcb := 0
  kind := 0
  code := 0
  st := .off
  limit := 0
  elapsed := 0
  since := 0
  bell := false
  sLevel := false
  head := none
  escalation := 0
  outcome := 0
  resetSince := 0

def State.core (s : State) (c : Nat) : Core := NMap.getD s.cores c Core.fresh
def State.setCore (s : State) (c : Nat) (k : Core) : State := { s with cores := NMap.set s.cores c k }
def State.modCore (s : State) (c : Nat) (f : Core → Core) : State := s.setCore c (f (s.core c))
def State.die (s : State) (d : Nat) : Die := NMap.getD s.dies d Die.fresh
def State.setDie (s : State) (d : Nat) (k : Die) : State := { s with dies := NMap.set s.dies d k }
def State.tenant (s : State) (t : Nat) : Tenant := NMap.getD s.tenants t Tenant.fresh
def World.fresh : World := ⟨.free, none, false⟩
def State.world (s : State) (w : Nat) : World := NMap.getD s.worlds w World.fresh
def State.setWorld (s : State) (w : Nat) (x : World) : State := { s with worlds := NMap.set s.worlds w x }
def State.setTenant (s : State) (t : Nat) (k : Tenant) : State := { s with tenants := NMap.set s.tenants t k }
/-- Queue `q` of die `d` (R73) is kept under 256 * d + q. -/
def queueKey (d q : Nat) : Nat := 256 * d + q
def State.queue (s : State) (k : Nat) : Queue := NMap.getD s.queues k Queue.fresh
def State.setQueue (s : State) (k : Nat) (v : Queue) : State := { s with queues := NMap.set s.queues k v }
def State.grid (s : State) (n : Nat) : Option Grid := NMap.find s.grids n
def State.setGrid (s : State) (n : Nat) (g : Grid) : State := { s with grids := NMap.set s.grids n g }
def State.team (s : State) (c sl : Nat) : Option Team := NMap.find (s.core c).teams sl
def State.setTeam (s : State) (c sl : Nat) (t : Team) : State :=
  s.modCore c fun k => { k with teams := NMap.set k.teams sl t }
def State.modTeam (s : State) (c sl : Nat) (f : Team → Team) : State :=
  match s.team c sl with
  | some t => s.setTeam c sl (f t)
  | none => s
def State.group (s : State) (g : GroupId) : Option Group :=
  match s.team g.core g.slot with
  | some t => NMap.find t.groups g.group
  | none => none
def State.setGroup (s : State) (g : GroupId) (x : Group) : State :=
  s.modTeam g.core g.slot fun t => { t with groups := NMap.set t.groups g.group x }
def State.modGroup (s : State) (g : GroupId) (f : Group → Group) : State :=
  match s.group g with
  | some x => s.setGroup g (f x)
  | none => s
def State.split (s : State) (i : Site) : Option Split :=
  match s.group i.g with
  | some x => NMap.find x.splits i.split
  | none => none
def State.modSplit (s : State) (i : Site) (f : Split → Split) : State :=
  s.modGroup i.g fun x => { x with splits := NMap.adjust x.splits i.split f }
def State.setSplit (s : State) (i : Site) (p : Split) : State :=
  s.modGroup i.g fun x => { x with splits := NMap.set x.splits i.split p }
def State.freeSplit (s : State) (i : Site) : State :=
  s.modGroup i.g fun x => { x with splits := NMap.del x.splits i.split }

/-! Counters (R418, R419). -/

/-- Counts an event for a tenant on a core. -/
def State.count (s : State) (core tenant ev n : Nat) : State :=
  match NMap.find (s.core core).perf tenant with
  | none => s
  | some p =>
    let hit := p.psel.filter fun x => x.2 == ev
    if hit.isEmpty then s
    else s.modCore core fun k => { k with
      perf := NMap.set k.perf tenant { p with pcnt := hit.foldl (fun m x => NMap.set m x.1 (NMap.getD m x.1 0 + BitVec.ofNat 64 n)) p.pcnt } }

/-- Adds a step to the happenings that are due. -/
def State.post (s : State) (i : Instr) : State := { s with agenda := s.agenda ++ [⟨i, Request.zero⟩] }
/-- Adds a step with operands. -/
def State.postReq (s : State) (i : Instr) (r : Request) : State := { s with agenda := s.agenda ++ [⟨i, r⟩] }
/-- A number never used before, for packets, stores, late results and images. -/
def State.freshId (s : State) : Nat := s.pkg.nextId
def State.useId (s : State) : State := { s with pkg := { s.pkg with nextId := s.pkg.nextId + 1 } }
/-- The device is up: BOOTSTAT.STAGE is 5 (R441). -/
def Package.ready (p : Package) : Bool := p.bootstat.toNat % 16 == 5

/-- Advances the counter that free values are applied to. -/
def State.useFree (s : State) : State := { s with pkg := { s.pkg with freeCount := s.pkg.freeCount + 1 } }

/-! Core numbers (R1, R32). -/
def dieOf (core : Nat) : Nat := core / 144
def coreInDie (core : Nat) : Nat := core % 144
/-- Cluster of a core, 3 per die; cluster c of die d is 3d + c. -/
def clusterOf (core : Nat) : Nat := core / 48
/-- The quadrant of a group (R32). -/
def quadOf (slot group : Nat) : Nat := (slot % 4 + group) % 4
/-- The incarnation of a team slot (R36, R376): the count since reset on top of DINC[11:0]. -/
def State.incn (s : State) (c sl : Nat) : Nat := (s.pkg.dinc.toNat + NMap.getD (s.core c).incns sl 0) % 4096
def State.bumpIncn (s : State) (c sl : Nat) : State :=
  s.modCore c fun k => { k with incns := NMap.set k.incns sl (NMap.getD k.incns sl 0 + 1) }

/-! Descriptor fields (R24). -/
def descField (d : BitVec 2048) (lo len : Nat) : Nat := (d.extractLsb' lo len).toNat
def Team.regs (t : Team) : Nat := descField t.desc 629 11
def Team.width (t : Team) : Nat := 16 * 2 ^ descField t.desc 627 2
def Team.ngroups (t : Team) : Nat := descField t.desc 789 6
def Team.shareBytes (t : Team) : Nat := descField t.desc 795 11 * 1024
def Team.accN (t : Team) : Nat := descField t.desc 606 4
def Team.accF (t : Team) : Bool := descField t.desc 605 1 == 1
def Team.rick (t : Team) : Nat := descField t.desc 614 4
def Team.codeCap (t : Team) : Cap := ⟨t.desc.extractLsb' 0 128, t.descTags.getLsbD 0⟩

/-! Scalars (R106, R148, R149). -/
def Group.s (g : Group) (r : Nat) : W64 := if r = 0 then 0 else NMap.getD g.sregs r 0
def Group.sFull (g : Group) (r : Nat) : Bool := r == 0 || !g.sEmpty.contains r
/-- Writes a scalar as an integer: full, and the pair's capability tag cleared (R49). A write of s0 is discarded. -/
def Group.setS (g : Group) (r : Nat) (v : W64) : Group :=
  if r = 0 then g
  else { g with sregs := NMap.set g.sregs r v, sEmpty := g.sEmpty.filter (fun k => k != r), sTags := g.sTags.filter (fun k => k != r / 2) }
def Group.emptyS (g : Group) (r : Nat) : Group :=
  if r = 0 then g else { g with sEmpty := r :: g.sEmpty.filter (fun k => k != r) }
/-- The capability pair sc(r), r even; sc0 reads as an untagged zero (R105). -/
def Group.sc (g : Group) (r : Nat) : Cap :=
  if r = 0 then Cap.null else ⟨(g.s (r + 1) ++ g.s r : BitVec 128), g.sTags.contains (r / 2)⟩
/-- Writes a capability pair with its tag; sc0 discards. -/
def Group.setSc (g : Group) (r : Nat) (c : Cap) : Group :=
  if r = 0 then g
  else
    let g1 := (g.setS r (c.bits.extractLsb' 0 64)).setS (r + 1) (c.bits.extractLsb' 64 64)
    if c.tag then { g1 with sTags := r / 2 :: g1.sTags } else g1

/-! Vector registers (R21, R35, R45, R121). -/
def VReg.fresh : VReg := ⟨.raw, true, []⟩
def Group.v (g : Group) (r : Nat) : VReg := NMap.getD g.vregs r VReg.fresh
def Group.lane (g : Group) (r l : Nat) : W32 := (g.v r).lanes.getD l 0
def Group.setV (g : Group) (r : Nat) (x : VReg) : Group := { g with vregs := NMap.set g.vregs r x }
/-- Writes one lane's word; the quad loses its capability tag in the lane (R47). -/
def Group.setLane (g : Group) (r l : Nat) (w : W32) : Group :=
  let x := g.v r
  { g with vregs := NMap.set g.vregs r { x with lanes := setAt 0 x.lanes l w }
           qtags := NMap.adjust g.qtags (r / 4) fun m => m &&& ~~~(1#64 <<< l) }
/-- Makes a register full with a format tag. -/
def Group.fillV (g : Group) (r : Nat) (t : FTag) : Group := g.setV r { g.v r with tag := t, full := true }
/-- Marks a register empty (R121). -/
def Group.emptyV (g : Group) (r : Nat) : Group := g.setV r { g.v r with full := false }
/-- One lane's capability of quad c(r). -/
def Group.quad (g : Group) (r l : Nat) : Cap :=
  ⟨BitVec.ofNat 128 (joinWords ((List.range 4).map fun j => g.lane (r + j) l)), (NMap.getD g.qtags (r / 4) 0).getLsbD l⟩
/-- Sets or clears one lane's tag of quad c(r). -/
def Group.setQTag (g : Group) (r l : Nat) (t : Bool) : Group :=
  let m := NMap.getD g.qtags (r / 4) 0
  { g with qtags := NMap.set g.qtags (r / 4) (if t then m ||| (1#64 <<< l) else m &&& ~~~(1#64 <<< l)) }
/-- Writes a list of (register, lane, word). -/
def Group.writeLanes (g : Group) (ws : List (Nat × Nat × W32)) : Group := ws.foldl (fun x w => x.setLane w.1 w.2.1 w.2.2) g
/-- Makes a list of registers full under a tag. -/
def Group.fillAll (g : Group) (rs : List Nat) (t : FTag) : Group := rs.foldl (fun x r => x.fillV r t) g
def Group.vFull (g : Group) (r : Nat) : Bool := (g.v r).full

/-! Index registers (R104, R159). -/
def Group.x (g : Group) (i l : Nat) : BitVec 16 := (NMap.getD g.xregs i []).getD l 0
def Group.setX (g : Group) (i l : Nat) (v : BitVec 16) : Group :=
  { g with xregs := NMap.set g.xregs i (setAt 0 (NMap.getD g.xregs i []) l v) }
/-- Base and length of a window: before any XWIN, v0 and Min(64, REGS) (R35). -/
def Group.window (g : Group) (regs i : Nat) : Nat × Nat := NMap.getD g.windows i (0, min 64 regs)

/-! Path counters (R245): each keeps its outstanding items, oldest first, with their completions. -/

/-- Drops completed items from the old end. -/
def trimItems : List (Nat × Bool) → List (Nat × Bool)
  | (_, true) :: r => trimItems r
  | l => l
def Group.ctrItems (g : Group) (n : Nat) : List (Nat × Bool) := NMap.getD g.ctrs n []
/-- The value of pN. -/
def Group.p (g : Group) (n : Nat) : Nat := (g.ctrItems n).length
/-- Raises pN by one item. -/
def Group.ctrUp (g : Group) (n id : Nat) : Group := { g with ctrs := NMap.set g.ctrs n (g.ctrItems n ++ [(id, false)]) }
/-- Completes an item: pN falls by the completed items at the old end. -/
def Group.ctrDone (g : Group) (n id : Nat) : Group :=
  { g with ctrs := NMap.set g.ctrs n (trimItems ((g.ctrItems n).map fun i => if i.1 = id then (i.1, true) else i)) }

/-! Lanes. -/
/-- The lanes that still belong to the group: splits, overflow set, records, shadow. -/
def Group.splitLanes (g : Group) : Lanes := g.splits.foldl (fun m p => m ||| p.2.lanes) 0
/-- The number of split slots in use. -/
def Group.nsplits (g : Group) : Nat := g.splits.length
/-- The lowest FREE split slot (R124). -/
def Group.freeSlot (g : Group) : Option Nat := [0, 1, 2, 3].find? fun i => (NMap.find g.splits i).isNone
/-- A group has exited (R141): no lane of it is left in a split, a record, the overflow set or a handler. -/
def Group.hasExited (g : Group) : Bool :=
  g.splits.isEmpty && g.overflow.isEmpty && g.stopped.isNone && g.pending.isNone && g.shadow.isEmpty && g.shadowOverflow.isEmpty
    && g.nested.isNone && g.nestedPending.isNone && g.mode != .handler && g.lateMarks.isEmpty

/-- A barrier that nobody has reached yet. -/
def Barrier.fresh : Barrier := ⟨0, 0, [], []⟩

/-- The state a group begins in (R35), before the placements. -/
def Group.fresh : Group where
  vregs := []
  qtags := []
  sregs := []
  sEmpty := []
  sTags := []
  xregs := []
  windows := []
  ctrs := []
  splits := []
  overflow := []
  stopped := none
  pending := none
  shadow := []
  shadowOverflow := []
  shadowPending := none
  shadowMode := .normal
  nested := none
  nestedPending := none
  mode := .normal
  handlerLanes := 0
  awaiting := false
  recordHeld := false
  exited := 0
  bevents := []
  lost := false
  lateMarks := []
  lates := []
  sends := []
  seq := 0
  halted := false
  sp := ⟨0, 0, 0, 0, 0, 0, 0, 0, 0, 0, none, 0⟩
  lastReturn := 0
  code := []

/-- A split BOUND at a header. -/
def Split.boundAt (pc : W64) (lanes : Lanes) (code : Cap) (landing : Landing) (cycle : Nat) : Split where
  pc := pc
  clause := none
  lanes := lanes
  code := code
  age := 0
  ready := cycle
  eligible := false
  st := .bound
  held := none
  landing := landing
  rotated := false
  prior := .bound
  stall := 0
  dbgStep := false
  reached := cycle

/-- The words a clause holds (R95). -/
def Clause.count (c : Clause) : Nat := (decodeHeader c.header).count.toNat + 1
/-- The header that follows a clause: h + 8 (n + 1) (R95). -/
def Clause.nextHeader (c : Clause) : W64 := c.addr + BitVec.ofNat 64 (8 * (c.count + 1))
/-- The address of word `i` of a clause. -/
def Clause.wordAddr (c : Clause) (i : Nat) : W64 := c.addr + BitVec.ofNat 64 (8 * (i + 1))
/-- The place a split stands at: its next word, or its header. -/
def Split.place (p : Split) : W64 :=
  match p.clause with
  | some c => c.wordAddr c.next
  | none => p.pc

end Sys2Proof.Machine
end

