-- ==== Sys2Proof/Machine/Memory.lean ====
section
/-! DEFINITION. Physical memory and its tags, the partition table's fields, windows, page tables, TLBs (spec/10, R217 to R231). -/
namespace Sys2Proof.Machine

/-! Bytes. -/

/-- The byte at an address; an address that nothing has written reads as `Config.unwrittenByte` (log entry 2). -/
def memByte : List Host.Cell → Nat → Byte
  | [], _ => Config.unwrittenByte
  | (b, v) :: r, a => if b = a then v else memByte r a

/-- Puts a cell at the head of a list unless its value is what an unlisted address reads as. -/
def memCons (a : Nat) (v : Byte) (r : List Host.Cell) : List Host.Cell := if v = Config.unwrittenByte then r else (a, v) :: r

/-- Writes a byte and keeps the canonical form. -/
def memSet : List Host.Cell → Nat → Byte → List Host.Cell
  | [], a, v => memCons a v []
  | (b, w) :: r, a, v => if a < b then memCons a v ((b, w) :: r) else if b = a then memCons a v r else (b, w) :: memSet r a v

/-- The canonical form of memory: addresses strictly rising, no entry equal to what an unlisted address reads as. -/
def memWf : List Host.Cell → Bool
  | [] => true
  | (a, v) :: r => v != Config.unwrittenByte && (match r with | [] => true | (b, _) :: _ => decide (a < b)) && memWf r

/-- Adds to or removes from a sorted list of numbers. -/
def setIn : List Nat → Nat → Bool → List Nat
  | [], k, b => if b then [k] else []
  | j :: r, k, b => if k < j then (if b then k :: j :: r else j :: r) else if j = k then (if b then j :: r else r) else j :: setIn r k b

def State.byteAt (s : State) (a : Nat) : Byte := memByte s.mem a
def State.putByte (s : State) (a : Nat) (v : Byte) : State := { s with mem := memSet s.mem a v }
/-- The little-endian number in `n` bytes from an address (R7). -/
def State.natAt (s : State) (a : Nat) : Nat → Nat
  | 0 => 0
  | n + 1 => (s.byteAt a).toNat + 256 * State.natAt s (a + 1) n
/-- Writes `n` little-endian bytes. -/
def State.putNat (s : State) (a : Nat) : Nat → Nat → State
  | 0, _ => s
  | n + 1, v => State.putNat (s.putByte a (BitVec.ofNat 8 v)) (a + 1) n (v / 256)
/-- The tag of a granule (R46); host memory has none. -/
def State.granuleTag (s : State) (gr : Nat) : Bool := decide (gr * 16 < Config.hostBase) && s.memTags.contains gr
def State.setGranuleTag (s : State) (gr : Nat) (t : Bool) : State :=
  { s with memTags := setIn s.memTags gr (t && decide (gr * 16 < Config.hostBase)) }

/-! Lines (R218). A line is named by its number, its address divided by 128. -/

def lineOf (a : Nat) : Nat := a / 128
def isHostLine (ln : Nat) : Bool := decide (Config.hostBase ≤ ln * 128)
def homeDie (ln : Nat) : Nat := ln * 128 / Config.dieSpan
def State.lineData (s : State) (ln : Nat) : LineData := BitVec.ofNat 1024 (s.natAt (ln * 128) 128)
def State.lineTags (s : State) (ln : Nat) : BitVec 8 :=
  (List.range 8).foldl (fun m i => if s.granuleTag (ln * 8 + i) then m ||| (1#8 <<< i) else m) 0
/-- Byte `i` of a line's data. -/
def lineByte (d : LineData) (i : Nat) : Byte := d.extractLsb' (8 * i) 8
/-- Sets byte `i`. -/
def setLineByte (d : LineData) (i : Nat) (b : Byte) : LineData :=
  (d &&& ~~~(0xFF#1024 <<< (8 * i))) ||| (b.setWidth 1024 <<< (8 * i))
/-- The bits of a line that a byte mask covers. -/
def maskBits (m : LineMask) : LineData :=
  (List.range 128).foldl (fun x i => if m.getLsbD i then x ||| (0xFF#1024 <<< (8 * i)) else x) 0
/-- Lays masked bytes over a line. -/
def overlay (base ov : LineData) (m : LineMask) : LineData := (base &&& ~~~(maskBits m)) ||| (ov &&& maskBits m)
/-- The mask bits of granule `i`. -/
def granuleMask (m : LineMask) (i : Nat) : BitVec 16 := m.extractLsb' (16 * i) 16
/-- Granules that a mask touches. -/
def touched (m : LineMask) : BitVec 8 := (List.range 8).foldl (fun x i => if granuleMask m i != 0 then x ||| (1#8 <<< i) else x) 0

/-- Writes a line's masked bytes; every touched granule takes its bit of `tags` (R47, R239). -/
def State.writeLine (s : State) (ln : Nat) (m : LineMask) (d : LineData) (tags : BitVec 8) : State :=
  let s1 := (List.range 128).foldl (fun x i => if m.getLsbD i then x.putByte (ln * 128 + i) (lineByte d i) else x) s
  (List.range 8).foldl (fun x i => if granuleMask m i != 0 then x.setGranuleTag (ln * 8 + i) (tags.getLsbD i) else x) s1

/-! Partition table entries (R413). -/

/-- `len` bytes of an entry from byte `off`. -/
def entryField (e : BitVec 4096) (off len : Nat) : Nat := (e.extractLsb' (8 * off) (8 * len)).toNat
def entrySet (e : BitVec 4096) (off len v : Nat) : BitVec 4096 :=
  (e &&& ~~~(BitVec.ofNat 4096 ((2 ^ (8 * len) - 1) * 2 ^ (8 * off)))) ||| BitVec.ofNat 4096 (v % 2 ^ (8 * len) * 2 ^ (8 * off))
def Tenant.valid (t : Tenant) : Bool := t.entry.getLsbD 63
def Tenant.part (t : Tenant) : Nat := bitsOf (entryField t.entry 0 8) 60 2
def Tenant.fdom (t : Tenant) : Nat := bitsOf (entryField t.entry 0 8) 48 12
def Tenant.worlds (t : Tenant) : Nat := bitsOf (entryField t.entry 0 8) 32 16
def Tenant.weight (t : Tenant) : Nat := bitsOf (entryField t.entry 0 8) 24 8
def Tenant.toff (t : Tenant) : Nat := entryField t.entry 8 8
def Tenant.ptroot (t : Tenant) : Nat := entryField t.entry 16 8 % 2 ^ 52
def Tenant.allow (t : Tenant) : Nat := entryField t.entry 24 8
def Tenant.qfirst (t : Tenant) (d : Nat) : Nat := bitsOf (entryField t.entry (32 + 8 * d) 8) 0 8
def Tenant.qcount (t : Tenant) (d : Nat) : Nat := bitsOf (entryField t.entry (32 + 8 * d) 8) 8 9
def Tenant.winBase (t : Tenant) (d : Nat) : Nat := entryField t.entry (64 + 16 * d) 8
def Tenant.winLimit (t : Tenant) (d : Nat) : Nat := entryField t.entry (72 + 16 * d) 8
def Tenant.hostWinBase (t : Tenant) : Nat := entryField t.entry 128 8
def Tenant.hostWinLimit (t : Tenant) : Nat := entryField t.entry 136 8
def Tenant.rfw (t : Tenant) : Nat := entryField t.entry 144 8
def Tenant.intv (t : Tenant) : Nat := entryField t.entry 152 8
def Tenant.dpb (t : Tenant) (d : Nat) : Nat := entryField t.entry (160 + 8 * d) 8
def Tenant.topo (t : Tenant) : Nat := entryField t.entry 192 8
def Tenant.tring (t : Tenant) : Nat := entryField t.entry 200 8
def Tenant.iring (t : Tenant) : Nat := entryField t.entry 208 8
def Tenant.winWorld (t : Tenant) (d : Nat) : Nat := bitsOf (entryField t.entry 216 4) (4 * d) 4

/-! The window stage (R225). -/

/-- What an intermediate address is. -/
inductive Target where
  | mem (pa : Nat)
  | coreRegion (core off : Nat)
  | queueRegion (die off : Nat)
  deriving DecidableEq, Repr

/-- The window stage: a physical address, a control region, or nothing (WINDOW). -/
def windowOf (t : Tenant) (ia : Nat) : Option Target :=
  let d := ia / 2 ^ 40
  let o := ia % 2 ^ 40
  if d < 4 then (if o < t.winLimit d then some (.mem (d * Config.dieSpan + t.winBase d + o)) else none)
  else if 2 ^ 50 ≤ ia then
    (if ia - 2 ^ 50 < t.hostWinLimit then some (.mem (Config.hostBase + (t.hostWinBase + (ia - 2 ^ 50)))) else none)
  else if Config.coreRegionBase ≤ ia && ia < Config.coreRegionBase + 65536 * 576 then
    some (.coreRegion ((ia - Config.coreRegionBase) / 65536) ((ia - Config.coreRegionBase) % 65536))
  else if Config.queueRegionBase ≤ ia && ia < Config.queueRegionBase + 65536 * 4 then
    some (.queueRegion ((ia - Config.queueRegionBase) / 65536) ((ia - Config.queueRegionBase) % 65536))
  else none

/-- The physical address of an intermediate address that must be memory. -/
def Tenant.paOf (t : Tenant) (ia : Nat) : Option Nat :=
  match windowOf t ia with
  | some (.mem pa) => some pa
  | _ => none

/-- The world of a window (R413); host memory and regions have none. -/
def targetWorld (t : Tenant) : Target → Option Nat
  | .mem pa => if pa < Config.hostBase then some (t.winWorld (pa / Config.dieSpan)) else none
  | _ => none

/-- The tenant whose window on die `d` holds a physical address. -/
def State.ownerOf (s : State) (pa : Nat) : Option Nat :=
  let d := pa / Config.dieSpan
  let o := pa % Config.dieSpan
  if Config.hostBase ≤ pa then none
  else ((NMap.keys s.tenants).find? fun n =>
    let t := s.tenant n
    t.valid && decide (t.winBase d ≤ o) && decide (o < t.winBase d + t.winLimit d))

/-! The directory's copies (R223, R291). -/

/-- Site number of a core for a line: sector of the home die, other die, or the die itself for a host line. -/
def siteOf (core ln : Nat) : Nat :=
  let d := dieOf core
  if isHostLine ln then d
  else
    let h := homeDie ln
    if d = h then coreInDie core / 48 else if d < h then 3 + d else 2 + d

def DirEntry.fresh : DirEntry where
  st := .inv
  sites := 0
  hg := false
  eg := false
  holder := 0
  rp := false
  rseq := 0
  dr := false
  fwdData := none
  queue := []
  invSent := 0
  bisnp := false
  bisnpData := false
  bisnpSince := 0
  asked := false
  promoted := false
  parked := []
  hostWaits := []

def State.dirAt (s : State) (ln : Nat) : DirEntry := NMap.getD s.dir ln DirEntry.fresh
/-- Keeps a directory entry; an entry in state I with nothing kept is absent. -/
def State.setDir (s : State) (ln : Nat) (e : DirEntry) : State :=
  { s with dir := if e = DirEntry.fresh then NMap.del s.dir ln else NMap.set s.dir ln e }
/-- The state of an entry whose sites have changed: S with no site is I (R292). -/
def DirEntry.settle (e : DirEntry) : DirEntry :=
  if e.st == .shared && e.sites == 0 then { e with st := .inv } else if e.st == .inv && e.sites != 0 then { e with st := .shared } else e
def State.copiesAt (s : State) (ln : Nat) : BitVec 7 := NMap.getD s.copies ln 0
def State.setCopies (s : State) (ln : Nat) (m : BitVec 7) : State :=
  { s with copies := if m = 0 then NMap.del s.copies ln else NMap.set s.copies ln m }
/-- A back-invalidate to a host that may hold the line dirty (R297): BISnpData for a device read, else BISnpInv. -/
def State.askHost (s : State) (ln : Nat) (data : Bool) : State :=
  let e := s.dirAt ln
  if e.bisnp then s else s.setDir ln { e with bisnp := true, bisnpData := data, bisnpSince := s.cycle }

/-- The host owns the line (R294). -/
def State.hostOwns (s : State) (ln : Nat) : Bool := (s.dirAt ln).st == .excl && (s.dirAt ln).hg

/-- Drops the device's copies of a line in one step, for a sweep (R57); a copy of the host is called back. -/
def State.dropCopies (s : State) (ln : Nat) : State :=
  let e := s.dirAt ln
  let s1 := (s.setCopies ln (s.copiesAt ln &&& 64)).setDir ln ({ e with sites := e.sites &&& 64, invSent := e.invSent &&& 64 } : DirEntry).settle
  if e.sites.getLsbD 6 then s1.askHost ln false else s1

/-! Messages of the home (R293). -/

/-- INVAL to every copy site that has none outstanding (R293). -/
def State.invalSites (s : State) (ln : Nat) : State :=
  let e := s.dirAt ln
  let todo := (List.range 7).filter fun i => e.sites.getLsbD i && !e.invSent.getLsbD i
  todo.foldl (fun x i => x.post (.inval ln i)) (s.setDir ln { e with invSent := e.invSent ||| e.sites })

/-- RECALL to the holder, once (R293, R447). -/
def State.recallHolder (s : State) (ln : Nat) : State :=
  let e := s.dirAt ln
  if e.asked then s else (s.setDir ln { e with asked := true, dr := e.st == .modified || e.dr }).post (.recall ln e.holder)

/-- The bucket of a line (R221). -/
def bucketOf (ln : Nat) : Nat := bitsOf ln 0 14 ^^^ bitsOf ln 14 14 ^^^ bitsOf ln 28 14 ^^^ bitsOf ln 42 3
/-- A bucket's table entry (R222). -/
def Die.bucket (d : Die) (b : Nat) : Bucket := NMap.getD d.buckets b ⟨false, b % 576⟩
/-- The home slice of a line (R221). -/
def State.homeSlice (s : State) (ln : Nat) : Nat := ((s.die (homeDie ln)).bucket (bucketOf ln)).slice
/-- The slice in which a site keeps its copy of a line (R223): a sector of the home die its own slice for the bucket, the home sector the home slice;
another die the slice that its own bucket table gives. -/
def State.copySlice (s : State) (ln site : Nat) : Nat :=
  let h := homeDie ln
  if site < 3 then (if s.homeSlice ln / 192 = site then s.homeSlice ln else 192 * site + bucketOf ln % 192)
  else ((s.die (if site - 3 < h then site - 3 else site - 2)).bucket (bucketOf ln)).slice
/-- The bucket of a line is frozen: new requests wait (R222, R250). -/
def State.frozen (s : State) (ln : Nat) : Bool := !isHostLine ln && ((s.die (homeDie ln)).bucket (bucketOf ln)).frz

/-- No grant and no copy of a line is left: the home may write it (R267, R294). -/
def State.lineFree (s : State) (ln : Nat) : Bool :=
  let e := s.dirAt ln
  (e.st == .inv || e.st == .shared) && e.sites == 0 && !s.frozen ln

/-- What the home sends for that: a back-invalidate, a RECALL, INVALs (R294). -/
def State.freeLine (s : State) (ln : Nat) : State :=
  let e := s.dirAt ln
  match e.st with
  | .owned => s
  | .excl => if e.hg then s.askHost ln false else s.recallHolder ln
  | .modified => s.recallHolder ln
  | _ => s.invalSites ln

/-! Writes of the device's own agents (R231, R267, R446). -/

/-- The value of a signal word after a signal (R83). -/
def signalled (old : Nat) (e : Bool) : Nat := (old % 2 ^ 63 + 1) % 2 ^ 63 + (if e || 2 ^ 63 ≤ old then 2 ^ 63 else 0)

/-- A write at home within a line that is free: the bytes, the tags of their granules cleared (R266). -/
def State.deviceWrite (s : State) (pa n v op : Nat) : State :=
  let v1 := match op with | 0 => v | 1 => s.natAt pa n ||| v | _ => signalled (s.natAt pa n) (v == 1)
  let grs := (List.range ((pa % 16 + n + 15) / 16)).map fun i => pa / 16 + i
  (grs.foldl (fun x g => x.setGranuleTag g false) (s.putNat pa n v1)).setCopies (lineOf pa) 0

/-- A request joins those that wait at the home of a line (R295); at a frozen bucket its arrival is noted too (R250). -/
def State.joinQueue (s : State) (ln : Nat) (r : HomeReq) : State :=
  let e := s.dirAt ln
  let s1 := if s.frozen ln then
      (let d := s.die (homeDie ln)
       s.setDie (homeDie ln) { d with arrived := d.arrived ++ [ln] })
    else s
  s1.setDir ln { e with queue := e.queue ++ [r] }

/-- A sequence of writes, each at once if its line is free and nothing waits there, else with the rest in the queue of its home, which gets
every copy and grant back first (R267, R295); `turn` is a line whose home serves the sequence now. -/
def deviceSteps (owner : DevOwner) (turn : Option Nat) : List DevStep → State → State
  | [], s => s
  | .post i :: r, s => deviceSteps owner turn r (s.post i)
  | .write pa n v op :: r, s =>
    let ln := lineOf pa
    let e := s.dirAt ln
    if (e.queue.isEmpty || turn == some ln) && s.lineFree ln then deviceSteps owner turn r (s.deviceWrite pa n v op)
    else
      let s1 := s.joinQueue ln (.device owner (.write pa n v op :: r))
      if e.queue.isEmpty then s1.freeLine ln else s1

/-- A request is a sequence of an owner. -/
def HomeReq.ownedBy (o : DevOwner) : HomeReq → Bool
  | .device x _ => x == o
  | _ => false

/-- Adds steps to the sequence of an owner that waits. -/
def HomeReq.follow (o : DevOwner) (steps : List DevStep) : HomeReq → HomeReq
  | .device x l => if x == o then .device x (l ++ steps) else .device x l
  | r => r

/-- The writes of one owner follow each other: new ones wait behind those that wait. -/
def State.deviceSend (s : State) (owner : DevOwner) (steps : List DevStep) : State :=
  if owner != .plain && s.dir.any (fun x => x.2.queue.any (HomeReq.ownedBy owner)) then
    { s with dir := s.dir.map fun x => (x.1, { x.2 with queue := x.2.queue.map (HomeReq.follow owner steps) }) }
  else deviceSteps owner none steps s

/-- The writes of `n` bytes at an address, line by line. -/
def writesOf (pa n v : Nat) : List DevStep :=
  (List.range ((pa % 128 + n + 127) / 128)).map fun i =>
    let lo := max pa ((pa / 128 + i) * 128)
    let hi := min (pa + n) ((pa / 128 + i + 1) * 128)
    .write lo (hi - lo) (v / 256 ^ (lo - pa) % 256 ^ (hi - lo)) 0

/-- A write the device makes at home, line by line. -/
def State.homeWrite (s : State) (pa n v : Nat) : State := s.deviceSend .plain (writesOf pa n v)

/-- A write of the device's agents waits at a line. -/
def DirEntry.devicePending (e : DirEntry) : Bool := e.queue.any fun r => match r with | .device .. => true | _ => false

/-- A read of a line at home waits: the host owns it (R297), or its bucket is frozen (R222). -/
def State.homeShut (s : State) (ln : Nat) : Bool := s.hostOwns ln || s.frozen ln

/-- Such a read calls the line back from a host that owns it (R297). -/
def State.callBack (s : State) (ln : Nat) : State := if s.hostOwns ln then s.askHost ln true else s

/-- An agent of the device may read a line at home: it is not shut, and no write of such an agent waits ahead (R295). -/
def State.homeReadable (s : State) (ln : Nat) : Bool := !s.homeShut ln && !(s.dirAt ln).devicePending

/-- A step that reads a line which is shut is made again once it is not (R297, R250). -/
def State.homeResume (s : State) (ln : Nat) (i : Instr) (r : Request := Request.zero) : State :=
  let s1 := s.joinQueue ln (.resume i r)
  if (s.dirAt ln).queue.isEmpty then s1.callBack ln else s1

/-- A step waits there already. -/
def State.homeAsked (s : State) (ln : Nat) (i : Instr) : Bool := (s.dirAt ln).queue.any fun r => match r with | .resume j _ => j == i | _ => false

/-- Makes a step wait there, once. -/
def State.awaitHome (s : State) (ln : Nat) (i : Instr) : State := if s.homeAsked ln i then s else s.homeResume ln i

/-- The bytes of memory as every reader at a slice sees them: those forwarded in state O, else the home's (R279). -/
def State.visByte (s : State) (a : Nat) : Byte :=
  match (s.dirAt (lineOf a)).fwdData with
  | some x => lineByte x.1 (a % 128)
  | none => s.byteAt a
/-- The little-endian number in `n` such bytes. -/
def State.visNat (s : State) (a : Nat) : Nat → Nat
  | 0 => 0
  | n + 1 => (s.visByte a).toNat + 256 * State.visNat s (a + 1) n
/-- The tag of a granule as such a reader sees it. -/
def State.visTag (s : State) (gr : Nat) : Bool :=
  match (s.dirAt (gr / 8)).fwdData with
  | some x => x.2.getLsbD (gr % 8)
  | none => s.granuleTag gr

/-! Memory controllers (R416; log entry 54): one to a die. What serves their requests stands in Health.lean. -/

/-- A controller that has served nothing. -/
def MemCtrl.fresh : MemCtrl := ⟨(0, 1), [], [], [], 15⟩

def State.ctrl (s : State) (n : Nat) : MemCtrl := NMap.getD s.ctrls n MemCtrl.fresh
def State.setCtrl (s : State) (n : Nat) (c : MemCtrl) : State := { s with ctrls := NMap.set s.ctrls n c }

/-- Order and maximum of exact tags. -/
def tagLt (a b : Nat × Nat) : Bool := decide (a.1 * b.2 < b.1 * a.2)
def tagMax (a b : Nat × Nat) : Nat × Nat := if tagLt a b then b else a

/-- Arrival of a tenant's request: q.S = Max(V, F[t]), F[t] = q.S + 1 / WEIGHT[t]. -/
def MemCtrl.arrive (c : MemCtrl) (tenant weight line core cycle : Nat) : MemCtrl :=
  let tag := tagMax c.v (NMap.getD c.f tenant (0, 1))
  { c with
    f := NMap.set c.f tenant (tag.1 * weight + tag.2, tag.2 * weight)
    queue := c.queue ++ [⟨tenant, line, tag, core, cycle⟩] }

/-- A request of an agent for a line of HBM arrives at the line's controller, charged to the agent's tenant. -/
def State.charge (s : State) (tenant core ln : Nat) : State :=
  if isHostLine ln then s
  else s.setCtrl (homeDie ln) ((s.ctrl (homeDie ln)).arrive tenant (max 1 (s.tenant tenant).weight) ln core s.cycle)

/-- Several such requests. -/
def State.chargeAll (s : State) (tenant core : Nat) (lns : List Nat) : State := lns.foldl (fun x ln => x.charge tenant core ln) s

/-- Requests of F for lines of HBM: they carry no tenant (R416; log entry 54). -/
def State.chargeF (s : State) (lns : List Nat) : State :=
  (List.range Config.dies).foldl (fun x d =>
    let mine := lns.filter fun ln => !isHostLine ln && homeDie ln == d
    if mine.isEmpty then x else (let c := x.ctrl d
                                 x.setCtrl d { c with untagged := c.untagged ++ mine })) s

/-- The line that a step of a sequence writes. -/
def DevStep.line : DevStep → Option Nat
  | .write pa _ _ _ => some (lineOf pa)
  | .post _ => none

/-- F writes: a sequence of writes, with a request to the memory controller for each. -/
def State.firmwareSend (s : State) (steps : List DevStep) : State := (s.chargeF (steps.filterMap DevStep.line)).deviceSend .plain steps

/-- The tenant of a core: the one whose teams it holds, or whose lease it belongs to (R410). -/
def State.coreTenant (s : State) (core : Nat) : Nat :=
  match (s.core core).teams with
  | st :: _ => st.2.tenant
  | [] => ((s.tenants.find? fun kt => kt.2.lease.contains core).map Prod.fst).getD 0

/-- An atomic OR at home of one byte (R228, R231). -/
def State.homeOr (s : State) (pa : Nat) (m : Byte) : State := s.deviceSend .plain [.write pa 1 m.toNat 1]

/-- The byte and the bit of a physical address in its window's dirty-page bitmap (R231). -/
def State.dirtyAt (s : State) (pa : Nat) : Option (Nat × Byte) :=
  match s.ownerOf pa with
  | none => none
  | some n =>
    let t := s.tenant n
    let d := pa / Config.dieSpan
    let page := (pa % Config.dieSpan - t.winBase d) / 4096
    (t.paOf (t.dpb d + page / 8)).map fun q => (q, 1#8 <<< (page % 8))

/-- The atomic OR that sets the dirty-page bit of a physical address, its bitmap line free (R231). -/
def State.markDirty (s : State) (pa : Nat) : State :=
  match s.dirtyAt pa with
  | some (q, m) => s.deviceWrite q 1 m.toNat 1
  | none => s

/-- The same as steps of a sequence, for the pages of pieces (R231). -/
def State.marksOf (s : State) (ps : List (Nat × Nat)) : List DevStep :=
  (ps.filterMap fun p => s.dirtyAt p.1).dedup.map fun (qm : Nat × Byte) => .write qm.1 1 qm.2.toNat 1

/-- The bitmap line of a line's page, where it is not free for step `i`: the OR takes its turn there (R231, R295). A line that holds its own page's
bit is free once it can be written itself. -/
def State.markBusy (s : State) (ln : Nat) (i : Instr) : Option Nat :=
  match s.dirtyAt (ln * 128) with
  | none => none
  | some (q, _) =>
    let b := lineOf q
    let turn := match (s.dirAt b).queue with
      | [] => true
      | .mark j tried :: _ => tried && j == i
      | _ => false
    if b = ln || (turn && s.lineFree b) then none else some b

/-- Step `i` waits for its turn at the bitmap line. -/
def State.askMark (s : State) (b : Nat) (i : Instr) : State :=
  let e := s.dirAt b
  if e.queue.any fun r => match r with | .mark j _ => j == i | _ => false then s
  else
    let s1 := s.joinQueue b (.mark i false)
    if e.queue.isEmpty then s1.freeLine b else s1

/-- The bitmap lines that a step which writes several lines waits for, and whether it has anything to do about them. -/
def State.marksBusy (s : State) (lns : List Nat) (i : Instr) : List Nat := lns.filterMap fun ln => s.markBusy ln i
def State.marksDue (s : State) (lns : List Nat) (i : Instr) : Bool :=
  let bs := s.marksBusy lns i
  bs.isEmpty || bs.any fun b => !(s.dirAt b).queue.any fun r => match r with | .mark j _ => j == i | _ => false

/-- The message that makes the home of a line look at its parked messages and its requests again: the answer of no site (R295). -/
def lookAgain (ln : Nat) : Instr := .invalAck ln 7

/-- First byte past a window and its MAC reserve: 1/16 of the window's size, which WL does not count (R424). -/
def winTop (base limit world : Nat) : Nat := base + limit + (if world = 0 then 0 else (limit + 14) / 15)

/-- A physical address lies in a window, or in the MAC reserve of one, of a world. -/
def State.inWorld (s : State) (w pa : Nat) : Bool :=
  let d := pa / Config.dieSpan
  let o := pa % Config.dieSpan
  decide (pa < Config.hostBase) && s.tenants.any fun kt =>
    kt.2.valid && kt.2.winWorld d == w && decide (kt.2.winBase d ≤ o) && decide (o < winTop (kt.2.winBase d) (kt.2.winLimit d) w)

/-- The line is of a world whose key is erased: its MAC fails (R426). -/
def State.keyless (s : State) (ln : Nat) : Bool := s.worlds.any fun kw => kw.2.st == .dying && kw.2.key.isNone && s.inWorld kw.1 (128 * ln)

/-- Why a read of a line from HBM fails: uncorrectable error (R248), MAC failure (R425, R426). -/
def State.lineFault (s : State) (ln : Nat) : Option Cause :=
  if s.badLines.contains ln then some .uncorrectable else if s.macBad.contains ln || s.keyless ln then some .integrity else none

/-- Why a write of some bytes of a line fails: a part is merged with a line that cannot be read; a whole line is written without reading (R248). -/
def State.partialFault (s : State) (ln : Nat) (m : LineMask) : Option Cause := if m == BitVec.allOnes 128 then none else s.lineFault ln

/-- Writes a line at home; a whole line ends its error (R248). -/
def State.writeOver (s : State) (ln : Nat) (m : LineMask) (d : LineData) (tags : BitVec 8) : State :=
  let s1 := s.writeLine ln m d tags
  if m == BitVec.allOnes 128 then { s1 with badLines := setIn s1.badLines ln false, macBad := setIn s1.macBad ln false } else s1

/-! Page tables (R226, R227). -/

/-- The kinds of access; `write` is an engine's write (R285). -/
inductive AccessKind where
  | load | store | atomic | fetch | write
  deriving DecidableEq, Repr

/-- The access writes: it needs D (R228). -/
def AccessKind.writes (k : AccessKind) : Bool := k == .store || k == .atomic || k == .write

/-- A leaf as a walk finds it. -/
structure Leaf where
  ia : Nat
  bytes : Nat
  r : Bool
  w : Bool
  x : Bool
  d : Bool
  pa : Nat
  deriving DecidableEq, Repr

/-- Level and bytes of a leaf size (R227). -/
def leafSize (size : Nat) : Option (Nat × Nat) :=
  if size ≤ 4 then some (0, 2 ^ (12 + 2 * size))
  else if size ≤ 9 then some (1, 2 ^ (21 + 2 * (size - 5)))
  else if size = 10 then some (2, 2 ^ 30)
  else if size = 11 then some (2, 2 ^ 34)
  else none

/-- The interface of a tenant is in ERROR and the line is the host's: a read ends with HOST_ABORT, a write is dropped at the port (R428). -/
def Tenant.blocked (t : Tenant) (ln : Nat) : Bool := isHostLine ln && t.tdi == .error

/-- The same by tenant number. -/
def State.hostBlocked (s : State) (tenant ln : Nat) : Bool := (s.tenant tenant).blocked ln

/-- One level of a walk (R226): the entry of the table at `ia`, then its leaf or the next level. -/
def walkFrom (s : State) (t : Tenant) (va : Nat) : Nat → Nat → Except Cause Leaf
  | level, ia =>
    match t.paOf (ia + 8 * (va / 2 ^ (12 + 9 * level) % 512)) with
    | none => .error .window
    | some pa =>
      match if t.blocked (lineOf pa) then some Cause.hostAbort else s.lineFault (lineOf pa) with
      | some c => .error c
      | none =>
        let e := s.visNat pa 8
        let bit := fun k => e.testBit k
        if !bit 0 || bitsOf e 52 12 ≠ 0 || bit 7 then .error .translation
        else
          let addr := bitsOf e 12 40 * 4096
          if bit 1 then
            match leafSize (bitsOf e 8 4) with
            | none => .error .translation
            | some (lv, n) =>
              if lv ≠ level || addr % n ≠ 0 then .error .translation
              else .ok ⟨addr, n, bit 2, bit 3, bit 4, bit 6, pa⟩
          else
            match level with
            | 0 => .error .translation
            | l + 1 => if bitsOf e 8 4 ≠ 0 then .error .translation else walkFrom s t va l addr

/-- A walk from the tenant's root. -/
def walk (s : State) (tenant : Nat) (va : Nat) : Except Cause Leaf :=
  if 2 ^ 48 ≤ va then .error .translation else walkFrom s (s.tenant tenant) va 3 (s.tenant tenant).ptroot

/-- The lines of the table entries that a walk reads, level by level (R226). -/
def walkLinesFrom (s : State) (t : Tenant) (va : Nat) : Nat → Nat → List Nat
  | level, ia =>
    match t.paOf (ia + 8 * (va / 2 ^ (12 + 9 * level) % 512)) with
    | none => []
    | some pa =>
      let e := s.visNat pa 8
      lineOf pa :: (if !e.testBit 0 || e.testBit 1 || bitsOf e 52 12 ≠ 0 then []
        else match level with
          | 0 => []
          | l + 1 => walkLinesFrom s t va l (bitsOf e 12 40 * 4096))

/-- The same from the tenant's root. -/
def walkLines (s : State) (tenant : Nat) (va : Nat) : List Nat :=
  if 2 ^ 48 ≤ va then [] else walkLinesFrom s (s.tenant tenant) va 3 (s.tenant tenant).ptroot

/-- The first line of a walk that is shut: the walk reads page tables coherently at home, so it waits until the line is open (R228, R297, R222). -/
def walkHostFrom (s : State) (t : Tenant) (va : Nat) : Nat → Nat → Option Nat
  | level, ia =>
    match t.paOf (ia + 8 * (va / 2 ^ (12 + 9 * level) % 512)) with
    | none => none
    | some pa =>
      if s.homeShut (lineOf pa) then some (lineOf pa)
      else
        let e := s.visNat pa 8
        if !e.testBit 0 || e.testBit 1 || bitsOf e 52 12 ≠ 0 then none
        else match level with
          | 0 => none
          | l + 1 => walkHostFrom s t va l (bitsOf e 12 40 * 4096)

/-- The same from the tenant's root. -/
def walkHost (s : State) (tenant : Nat) (va : Nat) : Option Nat :=
  if 2 ^ 48 ≤ va then none else walkHostFrom s (s.tenant tenant) va 3 (s.tenant tenant).ptroot

/-- The checks of R229 after the walk: window of the page, world (R422), permission. -/
def checkAccess (s : State) (core tenant ia : Nat) (r w x : Bool) (kind : AccessKind) : Except Cause Target :=
  let t := s.tenant tenant
  match windowOf t ia with
  | none => .error .window
  | some tg =>
    let latch := (s.core core).world
    let worldOk := match tg with
      | .mem pa => if pa < Config.hostBase then targetWorld t tg == some latch else latch == 0 || t.tdi == .run
      | _ => true
    let permOk := match kind with
      | .load => r
      | .store | .write => w
      | .atomic => r && w
      | .fetch => x && (match tg with | .mem _ => true | _ => false)
    if !worldOk then .error (if kind == .store then .window else .world)
    else if !permOk then .error .pagePerm
    else .ok tg

/-- The TLB entry that covers an address (R228). -/
def tlbFind (k : Core) (tenant va : Nat) : Option TlbEntry :=
  k.tlb.find? fun e => e.tenant == tenant && decide (e.va ≤ va) && decide (va < e.va + e.bytes)

/-- Keeps at most 1024 entries, the newest first (R228; which entry leaves is the model's choice). -/
def tlbAdd (k : Core) (e : TlbEntry) : Core :=
  { k with tlb := (e :: k.tlb.filter (fun x => !(x.tenant == e.tenant && x.va == e.va && x.bytes == e.bytes))).take 1024 }

/-- The walk of an access, its checks, and the A and D bits it sets (R228). -/
def walkAccess (s : State) (core tenant va : Nat) (kind : AccessKind) : State × Except Cause Target :=
  let s0 := s.chargeAll tenant core (walkLines s tenant va)
  match walk s tenant va with
  | .error c => (s0, .error c)
  | .ok lf =>
    match checkAccess s core tenant (lf.ia + va % lf.bytes) lf.r lf.w lf.x kind with
    | .error c => (s0, .error c)
    | .ok tg =>
      let dirty := kind.writes
      let s1 := s0.homeOr lf.pa (if dirty then 0x60 else 0x20)
      (s1.modCore core fun k =>
        tlbAdd k ⟨tenant, va / lf.bytes * lf.bytes, lf.bytes, lf.ia, lf.r, lf.w, lf.x, lf.d || dirty⟩, .ok tg)

/-- The translation of an access by TLB or by walk (R225 to R229). -/
def translate (s : State) (core tenant : Nat) (va : W64) (kind : AccessKind) : State × Except Cause Target :=
  if 2 ^ 48 ≤ va.toNat then (s, .error .translation)
  else match tlbFind (s.core core) tenant va.toNat with
    | some e =>
      if kind.writes && !e.d then walkAccess s core tenant va.toNat kind
      else (s, checkAccess s core tenant (e.ia + (va.toNat - e.va)) e.r e.w e.x kind)
    | none => walkAccess (s.count core tenant 9 1) core tenant va.toNat kind

/-- The distributor's own translation (R446): a walk or its TLB, window and permission; the control regions are no memory. -/
def distTranslate (s : State) (die tenant : Nat) (va : Nat) (write : Bool) : State × Except Cause Nat :=
  let t := s.tenant tenant
  let look := fun (ia : Nat) (r w : Bool) => match t.paOf ia with
    | none => Except.error Cause.window
    | some pa =>
      if !(if write then w else r) then .error .pagePerm
      else if !write && s.hostBlocked tenant (lineOf pa) then .error .hostAbort
      else .ok pa
  match (s.die die).tlb.find? fun e => e.tenant == tenant && decide (e.va ≤ va) && decide (va < e.va + e.bytes) && (e.d || !write) with
  | some e => (s, look (e.ia + (va - e.va)) e.r e.w)
  | none =>
    match walk s tenant va with
    | .error c => (s, .error c)
    | .ok lf =>
      match look (lf.ia + va % lf.bytes) lf.r lf.w with
      | .error c => (s, .error c)
      | .ok pa =>
        let s1 := s.homeOr lf.pa (if write then 0x60 else 0x20)
        let d := s1.die die
        let e : TlbEntry := ⟨tenant, va / lf.bytes * lf.bytes, lf.bytes, lf.ia, lf.r, lf.w, lf.x, lf.d || write⟩
        (s1.setDie die { d with tlb := e :: d.tlb.filter (fun x => !(x.tenant == tenant && x.va == e.va && x.bytes == e.bytes)) }, .ok pa)

/-- The page of an address is in the TLB, with D for a store (R235: translated at issue). -/
def tlbHits (s : State) (core tenant : Nat) (va : W64) : Bool :=
  match tlbFind (s.core core) tenant va.toNat with
  | some e => e.d
  | none => false

/-- The line that the translation of an access waits for, if it needs a walk (R228, R297, R222). -/
def State.pageHost (s : State) (core tenant : Nat) (va : W64) (kind : AccessKind) : Option Nat :=
  match tlbFind (s.core core) tenant va.toNat with
  | some e => if kind.writes && !e.d then walkHost s tenant va.toNat else none
  | none => walkHost s tenant va.toNat

/-- The same for the distributor's own translation (R446). -/
def State.distHost (s : State) (die tenant va : Nat) (write : Bool) : Option Nat :=
  if (s.die die).tlb.any fun e => e.tenant == tenant && decide (e.va ≤ va) && decide (va < e.va + e.bytes) && (e.d || !write) then none
  else walkHost s tenant va

/-- Reads `n` words of code at a virtual address for a fetch (R99, R100): the bytes that the group's fetch sees in `code`, page by page. -/
def fetchBytes (s : State) (core tenant : Nat) (code : List Host.Cell) (va : W64) : Nat → State × Except Cause Nat
  | 0 => (s, .ok 0)
  | n + 1 =>
    match translate s core tenant va .fetch with
    | (s1, .error c) => (s1, .error c)
    | (s1, .ok (.mem pa)) =>
      match if s1.hostBlocked tenant (lineOf pa) then some Cause.hostAbort else s1.lineFault (lineOf pa) with
      | some c => (s1, .error c)
      | none =>
        match fetchBytes s1 core tenant code (va + 8) n with
        | (s2, .error c) => (s2, .error c)
        | (s2, .ok v) => (s2, .ok (leNat ((List.range 8).map fun i => memByte code (pa + i)) + 2 ^ 64 * v))
    | (s1, .ok _) => (s1, .error .pagePerm)

/-- The line that a fetch waits for: one of a walk, or one of the words (R228, R297, R222). -/
def State.fetchHost (s : State) (core tenant : Nat) (va : W64) (n : Nat) : Option Nat :=
  (List.range n).findSome? fun i =>
    let a := va + BitVec.ofNat 64 (8 * i)
    match s.pageHost core tenant a .fetch with
    | some ln => some ln
    | none => match (translate s core tenant a .fetch).2 with
      | .ok (.mem pa) => if s.homeShut (lineOf pa) then some (lineOf pa) else none
      | _ => none

end Sys2Proof.Machine
end

