-- ==== Sys2Proof/Machine/Ops.lean ====
section
/-! DEFINITION. Taking an exception and returning from one (spec/20, R385 to R394, R445), merging and releasing splits (spec/06, R126, R127),
the grid's exit-fault record (spec/04, R82), and ending a team. -/
namespace Sys2Proof

/-! Causes (R385). -/

/-- The code of a cause. -/
def Cause.code : Cause → Nat
  | .illegalOp => 0x01 | .illegalClass => 0x02 | .reservedField => 0x03 | .clauseCount => 0x04 | .landingPad => 0x05 | .tableBound => 0x06
  | .privilege => 0x07 | .bkpt => 0x08 | .trapInsn => 0x09 | .step => 0x0A | .width => 0x0B
  | .regAlign => 0x10 | .regRange => 0x11 | .regEmpty => 0x12 | .indexWindow => 0x13 | .format => 0x14
  | .fpInvalid => 0x16 | .fpDivzero => 0x17 | .fpOverflow => 0x18 | .fpUnderflow => 0x19 | .fpInexact => 0x1A | .intDivzero => 0x1B
  | .capTag => 0x20 | .capBounds => 0x21 | .capPerm => 0x22 | .capSealed => 0x23 | .capKind => 0x24 | .capRepresent => 0x25
  | .translation => 0x30 | .pagePerm => 0x31 | .drainFault => 0x32 | .window => 0x33 | .align => 0x34 | .uncorrectable => 0x35
  | .integrity => 0x36 | .hostAbort => 0x37
  | .matrixOperand => 0x40 | .matrixFormat => 0x41 | .copyFault => 0x42 | .cordOverrun => 0x43 | .cordState => 0x44 | .ringFormat => 0x45
  | .orphanEngine => 0x46
  | .routeCause => 0x50 | .staleTarget => 0x51 | .overwrite => 0x52 | .firewall => 0x53
  | .watchdog => 0x58 | .bankTimeout => 0x59 | .saveTimeout => 0x5A | .world => 0x5B | .machineCheck => 0x5C | .debugHalt => 0x5D

/-- The causes whose route is fixed to S (R385). -/
def Cause.fixedS : Cause → Bool
  | .drainFault => true | .world => true | .machineCheck => true | _ => false

end Sys2Proof

namespace Sys2Proof.Machine

/-- Codes that no cause has, and code 0 (R385, R386). -/
def reservedCode (c : Nat) : Bool :=
  c == 0 || (decide (0x0C ≤ c) && decide (c ≤ 0x0F)) || c == 0x15 || (decide (0x1C ≤ c) && decide (c ≤ 0x1F))
    || (decide (0x26 ≤ c) && decide (c ≤ 0x2F)) || (decide (0x38 ≤ c) && decide (c ≤ 0x3F)) || (decide (0x47 ≤ c) && decide (c ≤ 0x4F))
    || (decide (0x54 ≤ c) && decide (c ≤ 0x57)) || decide (0x5E ≤ c)

/-- The codes whose route is fixed (R385). -/
def fixedCode (c : Nat) : Bool := c == 0x0A || c == 0x32 || c == 0x46 || (decide (0x58 ≤ c) && decide (c ≤ 0x5D))

/-- The field a fixed route reads as: 1 for S, 3 for the debug controller, the grid and the queue (R386). -/
def fixedField (c : Nat) : Nat := if c == 0x32 || c == 0x5B || c == 0x5C then 1 else 3

/-- The default route of a cause that is not fixed: S from 0x30 on for memory faults but WINDOW and ALIGN, and MATRIX_OPERAND; else K (R385). -/
def defaultField (c : Nat) : Nat :=
  if reservedCode c then 0
  else if fixedCode c then fixedField c
  else if c == 0x30 || c == 0x31 || c == 0x35 || c == 0x36 || c == 0x37 || c == 0x40 then 1
  else 0

/-- The route table word k at tenant creation (R386). -/
def trouteDefault (k : Nat) : W64 := BitVec.ofNat 64 ((List.range 32).foldl (fun x c => x + defaultField (32 * k + c) * 4 ^ c) 0)

/-- A tenant's route table word. -/
def Tenant.troute (t : Tenant) (k : Nat) : W64 := if k = 0 then t.troute0 else if k = 1 then t.troute1 else t.troute2

/-- The routes of a trap. -/
inductive Route where
  | k | s | host
  deriving DecidableEq, Repr

/-- Where a cause goes (R386): K falls to S while tvec.EN is 0. -/
def routeOf (t : Tenant) (tvec : W64) (c : Cause) : Route :=
  if c.fixedS then .s
  else
    let f := bitsOf (t.troute (c.code / 32)).toNat (2 * (c.code % 32)) 2
    if f = 2 then .host else if f = 1 then .s else if tvec.getLsbD 63 then .k else .s

/-! The records of the current mode (R387, R389). -/

/-- The record that a trap of the current mode is delivered from. -/
def Group.cur (g : Group) : Option Record := if g.mode == .handler then g.nested else g.stopped
def Group.curPending (g : Group) : Option Record := if g.mode == .handler then g.nestedPending else g.pending
def Group.setCur (g : Group) (r : Option Record) : Group := if g.mode == .handler then { g with nested := r } else { g with stopped := r }
def Group.setCurPending (g : Group) (r : Option Record) : Group :=
  if g.mode == .handler then { g with nestedPending := r } else { g with pending := r }
def Group.bothFull (g : Group) : Bool := g.cur.isSome && g.curPending.isSome

/-- The word a split is held at: the place it stands at, or the waiting word before it (R123). -/
def Split.heldWord (p : Split) : W64 :=
  match p.held, p.clause with
  | some h, some c => if h.again then c.wordAddr c.next else c.wordAddr (c.next - 1)
  | _, _ => p.place

/-- A split that may not issue: both records are occupied, or its next word is the stopped word (R387, R128). -/
def Group.mustHalt (g : Group) (p : Split) : Bool :=
  g.bothFull || (match g.cur with | some r => r.word == p.place | none => false)

/-- Lanes that join a record: the lowest cause is reported, by the lanes that raised it and with the kind it came with (R387); LATE says that a
late fault is among them (R388). -/
def Record.join (r n : Record) : Record :=
  let l := r.lanes ||| n.lanes
  let late := r.late || n.late
  if n.cause.code < r.cause.code then { r with lanes := l, cause := n.cause, flm := n.flm, kind := n.kind, info := n.info, late := late }
  else if n.cause.code = r.cause.code then
    { r with lanes := l, flm := r.flm ||| n.flm, late := late, info := if lowestLane n.flm < lowestLane r.flm then n.info else r.info }
  else { r with lanes := l, late := late }

/-- A fault or event enters the records (R387): a fault at the stopped word joins the stopped record; with both occupied the record is not
taken. Faults under different code capabilities do not join, since a record has one (log entry 73). -/
def Group.enterRecord (g : Group) (n : Record) : Group × Bool :=
  match g.cur with
  | none => (g.setCur (some n), true)
  | some r =>
    if r.word == n.word && r.code == n.code && n.kind != 2 then (g.setCur (some (r.join n)), true)
    else match g.curPending with
      | none => (g.setCurPending (some n), true)
      | some _ => (g, false)

/-! Merging, overflow release, halting (R126 to R128). -/

/-- Two splits that merge (R127). Two HELD splits stand at one word only if they run one clause and wait in one way: a split that has executed its
waiting instruction and one that is to execute the word do not (log entry 27: the model's choice). -/
def mergeable (p q : Split) : Bool :=
  p.code == q.code && !p.dbgStep && !q.dbgStep &&
    ((p.st == .bound && q.st == .bound && p.place == q.place)
      || (p.st == .held && q.st == .held && p.clause.isSome && q.clause.isSome && p.heldWord == q.heldWord
          && (p.clause.map Clause.addr) == (q.clause.map Clause.addr)
          && (p.held.map Held.again) == (q.held.map Held.again)))

/-- The union of two splits, in the lower slot (R127), with the earlier ready stamp (log entry 27: the model's choice). -/
def mergeSplits (p q : Split) : Split :=
  { p with
    lanes := p.lanes ||| q.lanes
    age := min p.age q.age
    ready := min p.ready q.ready
    eligible := p.eligible && q.eligible
    rotated := p.rotated && q.rotated
    held := match p.held, q.held with
      | some a, some b => some { a with conds := a.conds ++ b.conds.filter (fun c => !a.conds.contains c), dropL1 := a.dropL1 || b.dropL1 }
      | some a, none => some a
      | none, x => x }

/-- The first pair of slots that merge. -/
def mergePair (m : NMap Split) : Option (Nat × Nat) :=
  ([(0, 1), (0, 2), (0, 3), (1, 2), (1, 3), (2, 3)]).find? fun ij =>
    match NMap.find m ij.1, NMap.find m ij.2 with
    | some p, some q => mergeable p q
    | _, _ => false

/-- Merges once. -/
def Group.mergeOnce (g : Group) : Option Group :=
  match mergePair g.splits with
  | none => none
  | some (i, j) =>
    match NMap.find g.splits i, NMap.find g.splits j with
    | some p, some q =>
      some { g with
        splits := NMap.del (NMap.set g.splits i (mergeSplits p q)) j
        lates := g.lates.map fun l => if l.split = j then { l with split := i } else l }
    | _, _ => none

/-- An overflow entry as a split (R126). -/
def Overflow.toSplit (o : Overflow) (cycle : Nat) : Split :=
  match o.clause with
  | none => Split.boundAt o.pc o.lanes o.code o.landing cycle
  | some c => { Split.boundAt o.pc o.lanes o.code .none_ cycle with clause := some c, st := .held, held := some ⟨[], true, false⟩, prior := .held }

/-- Releases the oldest overflow entry into the lowest FREE slot (R126). -/
def Group.releaseOnce (g : Group) (cycle : Nat) : Option Group :=
  match g.overflow, g.freeSlot with
  | o :: r, some i => some { g with overflow := r, splits := NMap.set g.splits i (o.toSplit cycle) }
  | _, _ => none

/-- Merges and releases until nothing more happens; `fuel` bounds the rounds. A merge frees a slot and a release fills one, so the splits and twice
the overflow entries bound them. -/
def Group.settleSplits (g : Group) (cycle : Nat) : Nat → Group
  | 0 => g
  | n + 1 =>
    match g.mergeOnce with
    | some g1 => Group.settleSplits g1 cycle n
    | none => match g.releaseOnce cycle with
      | some g1 => Group.settleSplits g1 cycle n
      | none => g

/-- Splits that must halt go to HALT, one in ISSUE before its next word, which it executes again; halted splits that need not any more return
(R125, R128, R387). -/
def Group.haltScan (g : Group) : Group :=
  { g with splits := g.splits.map fun kp =>
      if kp.2.st == .halt then (if g.mustHalt kp.2 || g.halted then kp else (kp.1, { kp.2 with st := kp.2.prior, eligible := false }))
      else if kp.2.st == .issue && g.mustHalt kp.2 then
        (kp.1, { kp.2 with st := .halt, prior := .held, held := some ⟨[], true, false⟩, stall := 0, dbgStep := false })
      else if kp.2.st == .bound && (g.mustHalt kp.2 || (g.halted && !kp.2.dbgStep)) then (kp.1, { kp.2 with st := .halt, prior := .bound })
      else if kp.2.st == .held && g.halted && !kp.2.dbgStep then (kp.1, { kp.2 with st := .halt, prior := .held })
      else kp }

/-- The clause of a split, standing at the word the split is held at: lanes that leave there execute that word again (R445). -/
def Split.heldClause (p : Split) : Option Clause :=
  match p.held, p.clause with
  | some h, some c => if h.again then some c else some { c with next := c.next - 1 }
  | _, c => c

/-- Lanes that a late mark names leave their split or overflow entry (R445). -/
def Group.leaveMarked (g : Group) (lm : LateMark) : Option Group :=
  let rest := g.lateMarks.filter fun m => m != lm
  let back := fun (ls : Lanes) => if lm.lanes &&& ~~~ls == 0 then rest else { lm with lanes := lm.lanes &&& ~~~ls } :: rest
  match g.splits.find? fun kp => kp.2.lanes &&& lm.lanes != 0, g.overflow.find? fun o => o.lanes &&& lm.lanes != 0 with
  | some (k, p), _ =>
    let ls := p.lanes &&& lm.lanes
    let c := p.heldClause
    let r : Record := ⟨p.heldWord, (c.map Clause.addr).getD p.pc, ls, lm.cause, ls, 0, p.code, lm.addr, true, c.isNone, c⟩
    some ({ g with
      splits := if p.lanes &&& ~~~ls == 0 then NMap.del g.splits k else NMap.set g.splits k { p with lanes := p.lanes &&& ~~~ls }
      lateMarks := back ls }.enterRecord r).1
  | none, some o =>
    let ls := o.lanes &&& lm.lanes
    let w := match o.clause with | some c => c.wordAddr c.next | none => o.pc
    let r : Record := ⟨w, (o.clause.map Clause.addr).getD o.pc, ls, lm.cause, ls, 0, o.code, lm.addr, true, o.clause.isNone, o.clause⟩
    some ({ g with
      overflow := (g.overflow.map fun x => if x == o then { x with lanes := x.lanes &&& ~~~ls } else x).filter fun x => x.lanes != 0
      lateMarks := back ls }.enterRecord r).1
  | none, none => none

/-- Marked lanes enter the records while one is empty (R445); marks of lanes that stand in a record or in the shadow wait. A mark whose lanes lie
in several splits leaves them one by one, so four splits, the overflow set and the marks bound the rounds. -/
def Group.enterLateMarks (g : Group) : Nat → Group
  | 0 => g
  | n + 1 => if g.bothFull then g else match g.lateMarks.findSome? fun lm => g.leaveMarked lm with
    | some g1 => Group.enterLateMarks g1 n
    | none => g

/-- Everything that follows a change of a group's splits and records in the same cycle. -/
def Group.normalise (g : Group) (cycle : Nat) : Group :=
  let g1 := g.enterLateMarks (g.lateMarks.length + g.overflow.length + 4)
  (g1.settleSplits cycle (g1.splits.length + 2 * g1.overflow.length + 1)).haltScan

/-- After a record has been dealt with: the pending record becomes the stopped one (R391). -/
def Group.promote (g : Group) (cycle : Nat) : Group :=
  ((g.setCur g.curPending).setCurPending none).normalise cycle

/-! The grid's exit-fault record (R82). -/

/-- Sends S an event word (R82). -/
def State.eventWord (s : State) (tenant queue kind code : Nat) : State :=
  { s with sEvents := s.sEvents ++ [(tenant, BitVec.ofNat 64 (queue * 2 ^ 16 + kind * 2 ^ 12 + code))] }

/-- The interrupt of a tenant for a queue (R433). -/
def State.interruptFor (s : State) (tenant queue : Nat) : State :=
  let t := s.tenant tenant
  let cnt := bitsOf t.intv 16 8
  let v := bitsOf t.intv 0 16 + (if cnt = 0 then 0 else queue % cnt)
  s.setTenant tenant { t with interrupts := t.interrupts ++ [BitVec.ofNat 64 v] }

/-- The interrupt of a trap record routed to the host: the last vector of the range (R433). -/
def State.interruptHost (s : State) (tenant : Nat) : State :=
  let t := s.tenant tenant
  s.setTenant tenant { t with interrupts := t.interrupts ++ [BitVec.ofNat 64 (bitsOf t.intv 0 16 + (bitsOf t.intv 16 8 - 1))] }

/-- Puts a queue in ERROR with a kind and a code (R74, R82). -/
def State.queueError (s : State) (key kind code : Nat) : State :=
  s.setQueue key { s.queue key with st := .error, kind := kind, code := code }

/-- The bytes of an exit-fault record (R82). -/
def exitRecord (flm tpc : W64) (gridid team nfault kind code : Nat) : Nat :=
  code % 256 + kind % 16 * 2 ^ 8 + 2 ^ 31 + nfault % 2 ^ 32 * 2 ^ 32 + team % 2 ^ 32 * 2 ^ 64 + gridid % 2 ^ 32 * 2 ^ 96
    + tpc.toNat * 2 ^ 128 + flm.toNat * 2 ^ 192

/-- An exit-fault record or a signal word could not be written (R446): a grid whose record failed performs no signal (log entry 121). -/
def State.gridWriteFailed (s : State) (gn : Nat) (g : Grid) : State :=
  (((s.setGrid gn { g with complete := true, writes := [] }).queueError (queueKey g.die g.queue) 1 0x18).eventWord g.tenant g.queue 1 0x18).interruptFor
    g.tenant g.queue

/-- The address of a grid's write: its record's, or its signal word's. -/
def GridWrite.addr (w : GridWrite) (g : Grid) : Option W64 := match w with | .signal _ => g.sig | _ => g.xrec

/-- The steps of a write at home. -/
def GridWrite.steps (w : GridWrite) (pa : Nat) : List DevStep :=
  match w with
  | .record v => writesOf pa 32 v.toNat
  | .nfault n => writesOf (pa + 4) 4 n
  | .signal err => [.write pa 8 (if err then 1 else 0) 2]

/-- Writes of a grid are translated and made in their order, so that its record is there before its signal (R82, R446): the first whose walk needs a
line that is shut keeps the rest waiting until the line is open (R228, R297). The distributor's next turn for the grid goes on. -/
def State.gridFlush (s : State) (gn : Nat) : List GridWrite → State
  | [] => s
  | w :: r =>
    match s.grid gn with
    | none => s
    | some g =>
      match w.addr g with
      | none => State.gridFlush (s.setGrid gn { g with writes := r }) gn r
      | some va =>
        match s.distHost g.die g.tenant va.toNat true with
        | some ln => s.awaitHome ln (.teamPlace gn)
        | none =>
          match distTranslate (s.setGrid gn { g with writes := r }) g.die g.tenant va.toNat true with
          | (s1, .error _) => s1.gridWriteFailed gn g
          | (s1, .ok pa) =>
            if (s1.lineFault (lineOf pa)).isSome then s1.gridWriteFailed gn g
            else if s1.hostBlocked g.tenant (lineOf pa) then State.gridFlush s1 gn r
            else State.gridFlush (s1.deviceSend (.grid gn) (w.steps pa ++ s1.marksOf [(pa, 8)])) gn r

/-- A grid makes a write. -/
def State.gridWrite (s : State) (gn : Nat) (w : GridWrite) : State :=
  match s.grid gn with
  | none => s
  | some g => (s.setGrid gn { g with writes := g.writes ++ [w] }).gridFlush gn (g.writes ++ [w])

/-- Writes an event into a grid's exit-fault record (R82): the first fills it, later ones count. -/
def State.gridRecord (s : State) (gn : Nat) (team kind code : Nat) (flm tpc : W64) : State :=
  match s.grid gn with
  | none => s
  | some g =>
    let n := min (g.nfault + 1) (2 ^ 32 - 1)
    (s.setGrid gn { g with nfault := n }).gridWrite gn
      (if g.nfault = 0 then .record (BitVec.ofNat 256 (exitRecord flm tpc g.name.toNat team 1 kind code)) else .nfault n)

/-- An event of a grid (R82): the first writes the record and tells S, later ones count. -/
def State.gridEvent (s : State) (gn : Nat) (team kind code : Nat) (flm tpc : W64) : State :=
  match s.grid gn with
  | none => s
  | some g =>
    (if g.nfault = 0 then (s.eventWord g.tenant g.queue kind code).interruptFor g.tenant g.queue else s).gridRecord gn team kind code flm tpc

/-! The health ring (R442). -/

/-- Appends a record to the health ring (R442): a full ring loses its oldest record, and the new one has bit 63 of its count field set;
events 4, 6 and 10 are signalled through AER. The record goes to its place in the host memory that function 0 has given (log entry 112). -/
def State.health (s : State) (die event unit count : Nat) : State :=
  let ring := s.pkg.healthRing
  let full := decide (s.pkg.healthSize ≤ ring.length)
  let v := s.time % 2 ^ 64 + die % 256 * 2 ^ 64 + event % 256 * 2 ^ 72 + unit % 65536 * 2 ^ 80 + count % 2 ^ 63 * 2 ^ 128 + (if full then 2 ^ 191 else 0)
  let aer := event == 4 || event == 6 || event == 10
  let s1 : State := { s with pkg := { s.pkg with
      healthRing := (if full then ring.drop 1 else ring) ++ [BitVec.ofNat 256 v]
      healthCount := s.pkg.healthCount + 1
      aer := if aer then s.pkg.aer + 1 else s.pkg.aer } }
  match s.pkg.healthBase with
  | some b => s1.homeWrite (b + 32 * (s.pkg.healthCount % s.pkg.healthSize)) 32 v
  | none => s1

/-- A cause that a line's reader meets: INTEGRITY is counted as event 15 and reported to F (R425, R419, R442). -/
def State.noteCause (s : State) (core tenant : Nat) (c : Cause) : State :=
  if c == .integrity then (s.count core tenant 15 1).health (dieOf core) 8 0 0 else s

/-! Trap records (R393). -/

/-- The ring cannot take a record now: its records are all in use, its header is with the host, or an earlier record is still on its way home. -/
def State.ringFull (s : State) (tenant : Nat) : Bool :=
  let t := s.tenant tenant
  match t.paOf t.tring with
  | none => false
  | some pa => !s.homeReadable (lineOf pa) || s.dir.any (fun x => x.2.queue.any (HomeReq.ownedBy (.ring tenant)))
      || (s.lineFault (lineOf pa)).isSome || (s.lineFault (lineOf (pa + 16))).isSome
      || s.visNat pa 8 - s.visNat (pa + 8) 8 == 2 ^ (s.visByte (pa + 16)).toNat

/-- Writes one record to a tenant's trap ring and then its COUNT, at home; or keeps it while the ring cannot take it. -/
def State.ringWrite (s : State) (tenant : Nat) (r : BitVec 2048) (host : Bool) : State :=
  let t := s.tenant tenant
  match t.paOf t.tring with
  | none => s
  | some pa =>
    if s.ringFull tenant then
      let s1 := s.setTenant tenant { t with heldRecords := t.heldRecords ++ [(r, host)] }
      if s.hostOwns (lineOf pa) then s1.askHost (lineOf pa) false else s1
    else
      let count := s.visNat pa 8
      let v := (r &&& ~~~(0xFFFFFFFF#2048 <<< 32)) ||| (BitVec.ofNat 2048 (count % 2 ^ 32) <<< 32)
      let s1 := s.deviceSend (.ring tenant)
        (writesOf (pa + 256 + 256 * (count % 2 ^ (s.visByte (pa + 16)).toNat)) 256 v.toNat ++ writesOf pa 8 ((count + 1) % 2 ^ 64))
      if host then s1.interruptHost tenant else s1

/-- The header line of a ring that holds records back is with the host, and has not been called back. -/
def State.ringAsks (s : State) (tenant : Nat) : Option Nat :=
  let t := s.tenant tenant
  match t.paOf t.tring with
  | none => none
  | some pa => if !t.heldRecords.isEmpty && s.hostOwns (lineOf pa) && !(s.dirAt (lineOf pa)).bisnp then some (lineOf pa) else none

/-- The head and body of a trap record (R393). -/
def trapRecord (s : State) (g : GroupId) (tenant grid team incn : Nat) (cause : Cause) (rec nest host bodyOk : Bool)
    (tinfo tsplit flm tpc : W64) (body : BitVec 1536) : BitVec 2048 :=
  let gr := s.grid grid
  let time := (s.time + (s.tenant tenant).toff) % 2 ^ 64
  BitVec.ofNat 2048 (cause.code + (if rec then 2 ^ 12 else 0) + (if bodyOk then 2 ^ 13 else 0) + (if nest then 2 ^ 14 else 0)
    + (if host then 2 ^ 15 else 0)
    + ((gr.map Grid.queue).getD 0) % 256 * 2 ^ 72 + coreInDie g.core % 256 * 2 ^ 80 + dieOf g.core % 4 * 2 ^ 88
    + g.group % 32 * 2 ^ 90 + g.slot % 32 * 2 ^ 95 + incn % 4096 * 2 ^ 100 + team % 2 ^ 40 * 2 ^ 112
    + ((gr.map fun x => x.name.toNat).getD 0) % 2 ^ 32 * 2 ^ 160
    + time * 2 ^ 192 + tpc.toNat * 2 ^ 256 + flm.toNat * 2 ^ 320 + tsplit.toNat * 2 ^ 384 + tinfo.toNat * 2 ^ 448
    + body.toNat * 2 ^ 512)

/-- Sends a trap record for a team's group (R393). -/
def State.sendTrapRecord (s : State) (g : GroupId) (cause : Cause) (rec nest host : Bool) (tinfo tsplit flm tpc : W64)
    (body : Option (BitVec 1536)) : State :=
  match s.team g.core g.slot with
  | none => s
  | some t =>
    s.ringWrite t.tenant
      (trapRecord s g t.tenant t.grid t.index t.incn cause rec nest host body.isSome tinfo tsplit flm tpc (body.getD 0)) host

/-! Delivery (R388 to R390). -/

/-- The value of tsplit (R388). -/
def Group.tsplitValue (g : Group) (r : Record) : W64 :=
  BitVec.ofNat 64 (g.nsplits * 2 ^ 16 + (if g.overflow.isEmpty then 0 else 2 ^ 21) + r.kind * 2 ^ 22
    + (if g.mode == .handler then 2 ^ 24 + 2 ^ 25 else 0) + (if g.mode == .recipe || g.shadowMode == .recipe then 2 ^ 26 else 0)
    + (if g.lost then 2 ^ 27 else 0) + (if r.late then 2 ^ 28 else 0)
    + ((g.curPending.map fun p => p.cause.code).getD 0) * 2 ^ 32)

/-- A group takes no part in the trap condition while it is halted (R403). -/
def Group.trapCondition (g : Group) : Bool :=
  g.cur.isSome && !g.awaiting && !g.halted && g.splits.all fun kp => kp.2.st == .held || kp.2.st == .halt

/-- A record that holds a refusal returned to the sender (R368): its tinfo is the value rfail takes (R369, R390). -/
def Record.isRefusal (r : Record) : Bool :=
  r.kind == 2 && (match r.cause with | .matrixOperand => false | .ringFormat => false | .drainFault => false | _ => true)

/-- The special registers that a delivery sets (R388, R369). -/
def Group.setTrapRegs (g : Group) (r : Record) : Group :=
  { g with
    sp := { g.sp with
      tpc := r.word, tcause := BitVec.ofNat 64 r.cause.code, flm := r.flm, tinfo := r.info, tsplit := g.tsplitValue r
      rfail := if r.isRefusal then r.info else g.sp.rfail }
    lost := false }

/-- The address of the K handler (R389): CODECAP + 8 x tvec.OFF. -/
def handlerPc (code : Cap) (tvec : W64) : W64 := code.addr + 8 * sext 32 tvec.toNat

/-- TAKING AN EXCEPTION at K (R389): the shadow is set aside, the stopped lanes become one BOUND split at the handler, and
a no-rewind stretch begins (R397). -/
def Group.enterHandler (g : Group) (r : Record) (code : Cap) (cycle : Nat) : Group :=
  let g1 := { g with
    shadow := g.splits
    shadowOverflow := g.overflow
    shadowPending := g.pending
    shadowMode := g.mode
    pending := none
    overflow := []
    mode := .handler
    handlerLanes := r.lanes
    splits := [(0, Split.boundAt (handlerPc code g.sp.tvec) r.lanes code (.label (g.sp.tvec.extractLsb' 32 12)) cycle)]
    sp := { g.sp with rwpc := g.sp.rwpc ||| 4 } }
  g1

/-- TAKING AN EXCEPTION at S or the host (R389): the group freezes and its record is sent. -/
def State.freezeGroup (s : State) (i : GroupId) (g : Group) (r : Record) (host nest : Bool) : State :=
  match s.team i.core i.slot with
  | none => s
  | some t =>
    let full := s.ringFull t.tenant
    let s1 := s.setGroup i { g with awaiting := true, recordHeld := full }
    s1.sendTrapRecord i r.cause false nest host r.info (g.tsplitValue r) r.flm r.word none

/-- TAKING AN EXCEPTION: the trap of a group whose condition holds (R388, R389). -/
def State.takeTrap (s : State) (i : GroupId) : State :=
  match s.team i.core i.slot, s.group i with
  | some t, some g =>
    match g.cur with
    | none => s
    | some r =>
      if g.mode == .handler then (s.freezeGroup i g r false true).modGroup i fun x => { x with lost := false }
      else
        let g1 := g.setTrapRegs r
        match routeOf (s.tenant t.tenant) g.sp.tvec r.cause with
        | .k => s.setGroup i ((g1.enterHandler r t.codeCap s.cycle).normalise s.cycle)
        | .s => s.freezeGroup i { g1 with lost := g.lost } r false false |>.modGroup i fun x => { x with lost := false }
        | .host => s.freezeGroup i { g1 with lost := g.lost } r true false |>.modGroup i fun x => { x with lost := false }
  | _, _ => s

/-! Return from an exception (R391, R394). -/

/-- How lanes come back. -/
inductive Resume where
  | retry | skip
  deriving DecidableEq, Repr

/-- The split or overflow entry of lanes that return from a record, before it finds a slot. -/
def resumeAs (r : Record) (how : Resume) (skipHeader : W64) : Overflow :=
  match how, r.clause, r.atHeader with
  | .retry, some c, false => ⟨r.lanes, r.hdr, r.code, .none_, 0, some c⟩
  | .skip, some c, false =>
    if c.next + 1 < c.count then ⟨r.lanes, r.hdr, r.code, .none_, 0, some { c with next := c.next + 1 }⟩
    else ⟨r.lanes, c.nextHeader, r.code, .none_, 0, none⟩
  | .retry, _, _ => ⟨r.lanes, r.word, r.code, .none_, 0, none⟩
  | .skip, _, _ => ⟨r.lanes, skipHeader, r.code, .none_, 0, none⟩

/-- Puts returning lanes into a FREE slot, or at the back of the overflow set (R391). -/
def Group.comeBack (g : Group) (o : Overflow) (cycle : Nat) : Group :=
  if o.lanes = 0 then g
  else match g.freeSlot with
    | some i => { g with splits := NMap.set g.splits i (o.toSplit cycle) }
    | none => { g with overflow := g.overflow ++ [{ o with since := cycle }] }

/-- The header after a record's header, for a SKIP from a header: it is read from the header's COUNT; a header that cannot be
read counts as holding one word (log entry 20). -/
def State.headerAfter (s : State) (i : GroupId) (r : Record) : State × W64 :=
  match r.clause with
  | some c => (s, c.nextHeader)
  | none =>
    match s.team i.core i.slot with
    | none => (s, r.word + 16)
    | some t =>
      match fetchBytes s i.core t.tenant (((s.group i).map Group.code).getD []) r.word 1 with
      | (s1, .ok v) => (s1, r.word + BitVec.ofNat 64 (8 * ((decodeHeader (BitVec.ofNat 64 v)).count.toNat + 2)))
      | (s1, .error _) => (s1, r.word + 16)

/-- Leaving handler mode: the shadow is restored (R391). -/
def Group.restoreShadow (g : Group) : Group :=
  { g with
    splits := g.shadow
    overflow := g.shadowOverflow
    pending := g.shadowPending
    mode := g.shadowMode
    shadow := []
    shadowOverflow := []
    shadowPending := none
    shadowMode := .normal
    handlerLanes := 0 }

/-- ERET with VAR 0 or 1 in handler mode: `lanes` are the handler lanes that have not exited (R391). -/
def State.returnFromHandler (s : State) (i : GroupId) (lanes : Lanes) (how : Resume) : State :=
  match s.group i with
  | none => s
  | some g =>
    match g.stopped with
    | none => s.setGroup i (g.restoreShadow.normalise s.cycle)
    | some r =>
      let (s1, h) := s.headerAfter i r
      let g1 := { g.restoreShadow with stopped := none }
      let g2 := { g1 with stopped := g1.pending, pending := none }
      s1.setGroup i ((g2.comeBack (resumeAs { r with lanes := lanes } how h) s1.cycle).normalise s1.cycle)

/-- ERET.CONT: the handler lanes go on after the ERET clause as an ordinary split (R391). -/
def State.continueFromHandler (s : State) (i : GroupId) (lanes : Lanes) (pc : W64) (code : Cap) : State :=
  match s.group i with
  | none => s
  | some g =>
    let g1 := g.restoreShadow
    let g2 := { g1 with stopped := g1.pending, pending := none }
    s.setGroup i ((g2.comeBack ⟨lanes, pc, code, .none_, s.cycle, none⟩ s.cycle).normalise s.cycle)

/-- GRESUME RETRY or SKIP: the lanes return from the record of the current mode, and the mode stays (R394). -/
def State.resumeGroup (s : State) (i : GroupId) (how : Resume) : State :=
  match s.group i with
  | none => s
  | some g =>
    match g.cur with
    | none => s
    | some r =>
      let (s1, h) := s.headerAfter i r
      let g1 := { g with awaiting := false, recordHeld := false }
      let g2 := (g1.setCur g1.curPending).setCurPending none
      s1.setGroup i ((g2.comeBack (resumeAs r how h) s1.cycle).normalise s1.cycle)

/-- GRESUME DELIVER: the K handler is entered after all (R394). -/
def State.deliverGroup (s : State) (i : GroupId) : State :=
  match s.team i.core i.slot, s.group i with
  | some t, some g =>
    match g.stopped with
    | some r => s.setGroup i (({ g with awaiting := false, recordHeld := false }.enterHandler r t.codeCap s.cycle).normalise s.cycle)
    | none => s
  | _, _ => s

/-! Ending a team (R389, R394). -/

/-- Every lane of a group ends. -/
def Group.endLanes (g : Group) : Group :=
  { g with
    splits := []
    overflow := []
    stopped := none
    pending := none
    shadow := []
    shadowOverflow := []
    shadowPending := none
    shadowMode := .normal
    nested := none
    nestedPending := none
    mode := .normal
    handlerLanes := 0
    awaiting := false
    recordHeld := false
    bevents := []
    lateMarks := []
    exited := BitVec.allOnes 64
    halted := false }

/-- Every lane of every group of a team ends; the team retires when its engines have finished (R394, R405). -/
def State.endTeam (s : State) (core slot : Nat) : State :=
  s.modTeam core slot fun t => { t with groups := t.groups.map fun kg => (kg.1, kg.2.endLanes), killed := true, banking := none }

/-- A cause of class X ends the team, with a record that awaits no GRESUME and an event of KIND 3 (R389). -/
def State.endTeamBy (s : State) (core slot : Nat) (c : Cause) : State :=
  match s.team core slot with
  | none => s
  | some t =>
    let s1 := s.sendTrapRecord ⟨core, slot, 0⟩ c true false false 0 0 0 0 none
    (s1.gridEvent t.grid t.index 3 c.code 0 0).endTeam core slot

/-! Boundary events (R387). -/

/-- A B event joins the list; a ninth is dropped and LOST is set at the next delivery. -/
def Group.addEvent (g : Group) (e : BEvent) : Group :=
  if 8 ≤ g.bevents.length then { g with lost := true } else { g with bevents := g.bevents ++ [e] }

/-- A precise fault at the word where a split is held for a late result (R94): the split leaves into a record and the word executes again;
with both records occupied its lanes are marked. -/
def Group.trapHeld (g : Group) (id : Nat) (c : Cause) (info : W64) (cycle : Nat) : Group :=
  match g.splits.find? fun kp => match kp.2.held with | some h => !h.again && h.conds.contains (.lateDone id) | none => false with
  | none => g
  | some (k, p) =>
    let r : Record := ⟨p.heldWord, (p.clause.map Clause.addr).getD p.pc, p.lanes, c, p.lanes, 1, p.code, info, false, p.clause.isNone, p.heldClause⟩
    if g.bothFull then ({ g with lateMarks := g.lateMarks ++ [⟨p.lanes, c, info⟩] } : Group)
    else ((({ g with splits := NMap.del g.splits k } : Group).enterRecord r).1).normalise cycle

/-- A late fault of lanes that have gone on (R445): exited lanes go to the grid, the others are marked and enter a record. -/
def State.lateFaultAt (s : State) (i : GroupId) (lanes : Lanes) (c : Cause) (addr : W64) : State :=
  match s.team i.core i.slot, s.group i with
  | some t, some g =>
    let gone := lanes &&& g.exited
    let here := lanes &&& ~~~g.exited
    let s1 := if gone != 0 then s.gridEvent t.grid t.index 3 c.code gone 0 else s
    if here == 0 then s1
    else
      let old := g.lateMarks.filter fun m => m.lanes &&& here != 0
      let keepOld := old.foldl (fun (x : Lanes) m => if m.cause.code ≤ c.code then x ||| m.lanes else x) (0 : Lanes)
      let mine := here &&& ~~~keepOld
      let kept := (g.lateMarks.map fun m => if m.cause.code ≤ c.code then m else { m with lanes := m.lanes &&& ~~~mine }).filter
        fun m => m.lanes != 0
      s1.setGroup i ({ g with lateMarks := if mine == 0 then kept else kept ++ [(⟨mine, c, addr⟩ : LateMark)] }.normalise s1.cycle)
  | _, _ => s

end Sys2Proof.Machine
end

