-- ==== Sys2Proof/Machine/Revoke.lean ====
section
/-! DEFINITION. The revocation bitmap (spec/03, R55, R56): the check that every path of a capability tag makes during a sweep. -/
namespace Sys2Proof.Machine

/-- Physical address of a tenant's VA, by a walk that sets no bit. -/
def State.peekVa (s : State) (tenant : Nat) (va : Nat) : Option Nat :=
  match walk s tenant va with
  | .ok lf => (s.tenant tenant).paOf (lf.ia + va % lf.bytes)
  | .error _ => none

/-- The bitmap bit of the granule that a base lies in, as a reader at home sees it; a byte that no mapping reaches revokes nothing (log entry 16).
The manual gives the bitmap no length: it ends at the top of its capability, and a granule beyond that is not revoked (log entry 16). -/
def State.revokedBase (s : State) (tenant : Nat) (w : Sweep) (base : Nat) : Bool :=
  let len := (capDecode w.bitmap).2 - w.bitmap.addr.toNat
  if base < w.base || 512 * (len - 64) ≤ base - w.base then false
  else
    let o := (base - w.base) / 64
    match s.peekVa tenant (w.bitmap.addr.toNat + 64 + o / 8) with
    | some pa => (s.visByte pa).getLsbD (o % 8)
    | none => false

/-- A test clears the tags of a line's capabilities that it refuses. -/
def sweptTags (bad : Cap → Bool) (d : LineData) (tags : BitVec 8) : BitVec 8 :=
  (List.range 8).foldl (fun m i => if m.getLsbD i && bad ⟨d.extractLsb' (128 * i) 128, true⟩ then m &&& ~~~(1#8 <<< i) else m) tags

/-- A capability that arrives in the banked image of a running sweep's tenant: one that the bitmap revokes loses its tag (R56). -/
def State.imageFilter (s : State) (tenant : Nat) (c : Cap) : Cap :=
  match (s.tenant tenant).sweep with
  | some w => if c.tag && s.revokedBase tenant w (capDecode c).1 then { c with tag := false } else c
  | none => c

/-- A tagged capability of a tenant that a sweep past its start marker on the core revokes loses its tag (R56). -/
def State.sweepFilter (s : State) (tenant core : Nat) (c : Cap) : Cap :=
  match (s.tenant tenant).sweep with
  | none => c
  | some w =>
    if !w.coresLeft.contains core && c.tag && s.revokedBase tenant w (capDecode c).1 then { c with tag := false } else c

end Sys2Proof.Machine
end

