-- ==== Sys2Proof/Machine/Hearth.lean ====
section
/-! DEFINITION. The hearth of a core: search, acceptance, triggers, freeing (spec/10, R232 to R247); late results (spec/06, R121). -/
namespace Sys2Proof.Machine

/-! Reading the hearth. -/

/-- The youngest entry of the core that holds byte `i` of a VA line (R236). -/
def Core.youngest (k : Core) (vline i : Nat) : Option Entry :=
  k.hearth.foldl (fun (best : Option Entry) ie =>
    if ie.2.va = vline && ie.2.mask.getLsbD i then
      match best with
      | some b => if b.stamp < ie.2.stamp then some ie.2 else some b
      | none => some ie.2
    else best) none

/-- A byte of a virtual address from the hearth. -/
def Core.hearthByte (k : Core) (va : W64) : Option Byte :=
  (k.youngest (va.toNat / 128) (va.toNat % 128)).map fun e => lineByte e.data (va.toNat % 128)

/-- The tag of the granule at a 16-byte aligned VA, as the hearth gives it: `none` when no byte comes from the hearth (R236). -/
def Core.hearthTag (k : Core) (va : W64) : Option Bool :=
  let vl := va.toNat / 128
  let i0 := va.toNat % 128
  let es := (List.range 16).map fun j => k.youngest vl (i0 + j)
  if es.all Option.isNone then none
  else match es with
    | some e :: _ => some (es.all (fun x => x == some e) && e.tags.getLsbD (i0 / 16))
    | _ => some false

/-- Entries of a team (R237). -/
def Core.teamEntries (k : Core) (slot : Nat) : List (Nat × Entry) := k.hearth.filter fun ie => ie.2.slot == slot
/-- A FREE entry: the lowest index (log entry 12). -/
def Core.freeEntry (k : Core) : Option Nat := (List.range 256).find? fun i => (NMap.find k.hearth i).isNone
/-- The oldest OPEN entry of a list. -/
def oldestOpen (l : List (Nat × Entry)) : Option Nat :=
  (l.foldl (fun (best : Option (Nat × Entry)) ie =>
    if ie.2.st == .open_ then
      match best with
      | some b => if ie.2.stamp < b.2.stamp then some ie else some b
      | none => some ie
    else best) none).map Prod.fst
/-- The team's limit (R237). -/
def State.limitOf (s : State) (core slot : Nat) : Nat := ((s.team core slot).map Team.reclim).getD 0

/-- The 192-byte form of an entry (R232, R233). -/
def Entry.form (e : Entry) (cycle : Nat) : BitVec 1536 :=
  let st := match e.st with | .open_ => 1 | .draining => 2 | .provisional => 3 | .faulted => 4
  let ctl := min 4095 (cycle - e.born) + e.stamp % 8192 * 2 ^ 12 + (if e.host then 2 ^ 25 else 0) + e.fcause % 256 * 2 ^ 26
    + e.group % 32 * 2 ^ 34 + e.slot % 32 * 2 ^ 39 + e.world % 16 * 2 ^ 44 + e.tags.toNat * 2 ^ 48 + (if e.tv then 2 ^ 56 else 0)
    + (if e.rel then e.rscope % 8 * 2 ^ 57 + 2 ^ 60 else 0) + st * 2 ^ 61
  BitVec.ofNat 1536 ((e.data &&& maskBits e.mask).toNat + e.mask.toNat * 2 ^ 1024 + e.va * 128 % 2 ^ 64 * 2 ^ 1152
    + (if e.tv then e.pa * 128 % 2 ^ 64 else 0) * 2 ^ 1216 + ctl * 2 ^ 1280)

/-! Triggers (R238). -/

def State.setEntry (s : State) (core idx : Nat) (e : Entry) : State := s.modCore core fun k => { k with hearth := NMap.set k.hearth idx e }
def State.entry (s : State) (core idx : Nat) : Option Entry := NMap.find (s.core core).hearth idx

/-- An entry becomes FAULTED and is reported to S (R242). -/
def State.faultEntry (s : State) (core idx : Nat) (c : Cause) : State :=
  match s.entry core idx with
  | none => s
  | some e =>
    let e1 := { e with st := .faulted, fcause := c.code, heldFail := none, sent := false, acked := false, committing := false }
    ((s.noteCause core e.tenant c).setEntry core idx e1).sendTrapRecord ⟨core, e.slot, e.group⟩ .drainFault true false false (BitVec.ofNat 64 idx) 0 0 0
      (some (e1.form s.cycle))

/-- The home knows the core as the holder of a line's grant, with nothing pending: state E (R292). -/
def State.idleHolder (s : State) (core ln : Nat) : Bool :=
  let d := s.dirAt ln
  d.st == .excl && !d.hg && !d.eg && d.holder == core

/-- Asks the home for write grant of a line, once; a holder in E asks too, and makes the line M (R293, R294). -/
def State.wantGrant (s : State) (core ln : Nat) (mark : Bool) : State :=
  let k := s.core core
  if k.grantAsked.contains ln || (k.grants.contains ln && !s.idleHolder core ln) then s
  else (s.setCore core { k with grantAsked := ln :: k.grantAsked }).post (.grantReq ln core mark false)

/-- Triggers one entry (R241): FAULTED if a failed walk is held, else DRAINING or PROVISIONAL. -/
def State.triggerOne (s : State) (core idx : Nat) : State :=
  match s.entry core idx with
  | none => s
  | some e =>
    if e.st == .open_ then
      match e.heldFail with
      | some c => s.faultEntry core idx c
      | none =>
        let s1 := s.setEntry core idx { e with st := if e.rel then .provisional else .draining }
        if e.tv && !e.host then s1.wantGrant core e.pa (!e.rel) else s1
    else s

/-- Triggers every OPEN entry of a core that a test picks, oldest first. -/
def State.triggerWhere (s : State) (core : Nat) (f : Entry → Bool) : State :=
  let es := sortBy (fun ie => ie.2.stamp) ((s.core core).hearth.filter fun ie => ie.2.st == .open_ && f ie.2)
  es.foldl (fun x ie => x.triggerOne core ie.1) s

/-- Triggers an entry; a REL entry takes every older entry of the core with it (R238). -/
def State.trigger (s : State) (core idx : Nat) : State :=
  match s.entry core idx with
  | none => s
  | some e => if e.rel then s.triggerWhere core fun x => decide (x.stamp ≤ e.stamp) else s.triggerOne core idx

/-! Late results (R121, R254). -/

def Late.pendingBytes (l : Late) : Bool := l.reqs.any fun r => r.bytes.any fun b => b.val.isNone
def Group.late (g : Group) (id : Nat) : Option Late := g.lates.find? fun l => l.id == id
def Group.setLate (g : Group) (l : Late) : Group := { g with lates := g.lates.map fun x => if x.id = l.id then l else x }
/-- The lanes of a late that have not faulted. -/
def Late.ok (l : Late) (lane : Nat) : Bool := !l.faults.any fun f => f.1 == lane

/-- Posts the return of a load once all of its bytes are there. -/
def State.postReturns (s : State) (g : GroupId) (ids : List Nat) : State :=
  ids.foldl (fun x id => x.post (.loadReturn g id)) s

/-- Gives a line's bytes, or the cause its read met, to every load of one group that waits for the line. -/
def fillLate (ln : Nat) (res : Except Cause (LineData × BitVec 8)) (l : Late) : Late :=
  match l.kind with
  | .load _ _ | .loadCap _ | .loadU _ =>
    let hit := fun (b : ByteReq) => b.val.isNone && b.pa / 128 == ln
    match res with
    | .ok (d, tags) =>
      { l with reqs := l.reqs.map fun r =>
          { r with
            bytes := r.bytes.map fun b => if hit b then { b with val := some (lineByte d (b.pa % 128)) } else b
            gtag := match r.gtag, r.bytes with
              | none, b :: _ => if hit b then some (tags.getLsbD (b.pa % 128 / 16)) else none
              | t, _ => t } }
    | .error c =>
      { l with
        faults := l.faults ++ (l.reqs.filter fun r => r.bytes.any hit && l.ok r.lane).map fun r => (r.lane, c)
        reqs := l.reqs.map fun r => { r with bytes := r.bytes.map fun b => if hit b then { b with val := some 0 } else b } }
  | _ => l

/-- A line arrives at a core for its ordinary loads (R224, R295): the waiting loads of the core take their bytes from it. -/
def State.deliverLine (s : State) (core ln : Nat) (res : Except Cause (LineData × BitVec 8)) : State :=
  let k := s.core core
  k.teams.foldl (fun s1 st =>
    st.2.groups.foldl (fun s2 kg =>
      let gi : GroupId := ⟨core, st.1, kg.1⟩
      match s2.group gi with
      | none => s2
      | some g =>
        let before := g.lates.filter fun l => l.pendingBytes && !l.racq
        let g1 := { g with lates := g.lates.map fun l => if l.racq then l else fillLate ln res l }
        let done := before.filter fun l => match g1.late l.id with | some x => !x.pendingBytes | none => false
        (s2.setGroup gi g1).postReturns gi (done.map Late.id)) s1) s

/-- A racq read returns to the late that asked for it (R259). -/
def State.deliverNew (s : State) (gi : GroupId) (id ln : Nat) (res : Except Cause (LineData × BitVec 8)) : State :=
  match s.group gi with
  | none => s
  | some g =>
    match g.late id with
    | none => s
    | some l =>
      let l1 := fillLate ln res l
      let s1 := s.setGroup gi (g.setLate l1)
      if l.pendingBytes && !l1.pendingBytes then s1.post (.loadReturn gi id) else s1

/-! Freeing. -/

/-- Sends the commit token of every acknowledged PROVISIONAL entry that has become the oldest (R240). -/
def State.sendCommits (s : State) (core : Nat) : State :=
  let k := s.core core
  k.hearth.foldl (fun s1 ie =>
    let e := ie.2
    if e.st == .provisional && e.acked && !e.committing && k.hearth.all (fun x => x.1 == ie.1 || decide (e.stamp < x.2.stamp)) then
      let more := k.hearth.any fun x => x.1 != ie.1 && x.2.pa == e.pa && x.2.tv
      (s1.setEntry core ie.1 { e with committing := true }).post (.commit e.pa core ie.1 more)
    else s1) s

/-- An in-hearth atomic of the core with a number below `n` waits for a line. -/
def Core.atomsWait (k : Core) (ln n : Nat) : Bool :=
  k.teams.any fun st => st.2.groups.any fun kg => kg.2.lates.any fun l =>
    (match l.kind with | .atomHearth .. => true | _ => false) && decide (l.id < n)
      && l.reqs.any fun r => r.bytes.any fun b => b.pa / 128 == ln && b.val.isNone

/-- Something of a line is pending, so its grant stays (R292, R293): a triggered entry, a registered release, an atomic's entry, an atomic that came
before the recall. While the core asks to make an idle line M, only bytes that are on their way count. -/
def Core.linePending (k : Core) (ln n : Nat) : Bool :=
  if k.grantAsked.contains ln then k.hearth.any fun x => x.2.tv && x.2.pa == ln && x.2.sent
  else k.hearth.any (fun x => x.2.tv && x.2.pa == ln && (x.2.st == .draining || x.2.st == .provisional || x.2.registered || x.2.near))
    || k.atomsWait ln n

/-- The line's grant is to go back (R293). -/
def Core.recallLine (k : Core) (ln n : Nat) : Core := if (NMap.find k.recalls ln).isSome then k else { k with recalls := NMap.set k.recalls ln n }

/-- After a grant has gone back or an entry is FREE: entries and atomics of the line that still need grant ask for it (R293). -/
def State.askAgain (s : State) (core ln : Nat) : State :=
  let k := s.core core
  let es := k.hearth.filter fun x => x.2.tv && x.2.pa == ln && !x.2.host && !x.2.sent && (x.2.st == .draining || x.2.st == .provisional)
  if es.isEmpty then (if k.atomsWait ln s.freshId then s.wantGrant core ln false else s)
  else s.wantGrant core ln (es.any fun x => x.2.st == .draining)

/-- Returns the grant of a recalled line once nothing of it is pending (R293). -/
def State.returnGrants (s : State) (core : Nat) : State :=
  let k := s.core core
  let back := (k.recalls.filter fun x => k.grants.contains x.1 && !k.linePending x.1 x.2).map Prod.fst
  let s1 := s.setCore core { k with
    recalls := k.recalls.filter fun x => !back.contains x.1 && k.grants.contains x.1
    grants := k.grants.filter fun ln => !back.contains ln }
  back.foldl (fun x ln => (x.post (.grantBack ln core)).askAgain core ln) s1

/-- The registration of an entry that leaves without a commit ends (R284): the home forgets it and looks again at what waits for it. -/
def State.unregister (s : State) (core : Nat) (e : Entry) : State :=
  let d := s.dirAt e.pa
  if e.registered && e.tv && d.rp && d.holder == core && d.rseq == e.stamp % 8192 then
    (s.setDir e.pa { d with rp := false, rseq := 0, promoted := false }).post (lookAgain e.pa)
  else s

/-- An entry leaves the hearth without an acknowledgement of the home (R246, R248): its registration ends, and the grant that it was to drain under
goes back. -/
def State.forsake (s : State) (core : Nat) (e : Entry) : State :=
  (s.unregister core e).modCore core fun k => if e.tv && k.grants.contains e.pa then k.recallLine e.pa s.freshId else k

/-- An entry becomes FREE: the L1 drops the line first, p3 falls, a younger commit token may follow (R220, R241, R245). -/
def State.freeEntryAt (s : State) (core idx : Nat) : State :=
  match s.entry core idx with
  | none => s
  | some e =>
    let s1 := s.modCore core fun k => { k with
      hearth := NMap.del k.hearth idx
      l1 := if e.tv then NMap.del k.l1 e.pa else k.l1 }
    let s2 := s1.modGroup ⟨core, e.slot, e.group⟩ fun g => g.ctrDone 3 e.stamp
    (s2.sendCommits core).returnGrants core

/-- An entry becomes FREE without reaching memory (R241, R244, R248). -/
def State.loseEntryAt (s : State) (core idx : Nat) : State :=
  match s.entry core idx with
  | none => s
  | some e => (s.forsake core e).freeEntryAt core idx

/-! Acceptance (R235, R237). -/

/-- A fresh entry. -/
def Entry.make (e : Piece) (g : GroupId) (world tenant stamp cycle : Nat) (rel : Option Nat) : Entry where
  st := .open_
  rel := rel.isSome
  rscope := rel.getD 0
  tv := e.pa.isSome
  tags := e.tags
  world := world
  tenant := tenant
  slot := g.slot
  group := g.group
  fcause := 0
  host := (e.pa.map isHostLine).getD false
  stamp := stamp
  born := cycle
  pa := e.pa.getD 0
  va := e.va
  mask := e.mask
  data := e.data
  heldFail := none
  sent := false
  acked := false
  committing := false
  registered := false
  near := e.near

/-- The bytes of a piece over an entry's; tags of the granules they touch are replaced (R47). -/
def Entry.merge (e : Entry) (p : Piece) : Entry :=
  { e with
    mask := e.mask ||| p.mask
    data := overlay e.data p.data p.mask
    tags := (e.tags &&& ~~~p.touched) ||| (p.tags &&& p.touched)
    near := e.near || p.near }

/-- The entry a piece merges into (R235). -/
def Core.mergeTarget (k : Core) (g : GroupId) (p : Piece) : Option Nat :=
  (k.hearth.find? fun ie => ie.2.st == .open_ && ie.2.va == p.va && ie.2.slot == g.slot && ie.2.group == g.group
    && decide (k.rseq ≤ ie.2.stamp)).map Prod.fst

/-- The home knows the core as the holder of a line's grant (R291). -/
def State.holderOf (s : State) (core ln : Nat) : Bool :=
  let d := s.dirAt ln
  (d.st == .excl || d.st == .modified || d.st == .owned) && !d.hg && !d.eg && d.holder == core

/-- A release at grp or core scope that has its registration still to come: none of its line that is younger stands registered (R284). -/
def Core.mayRegister (k : Core) (e : Entry) : Bool :=
  e.rel && decide (e.rscope ≤ 1) && e.tv && !e.host && (e.st == .open_ || (e.st == .provisional && !e.committing)) && !e.registered
    && !k.hearth.any fun x => x.2.registered && x.2.tv && x.2.pa == e.pa && decide (e.stamp < x.2.stamp)

/-- A release entry at grp or core scope registers its line with the home (R284): the directory records it once grant is held, in place of an older
release of the line, and what waits there looks again. -/
def State.register (s : State) (core idx : Nat) : State :=
  match s.entry core idx with
  | none => s
  | some e =>
    let k := s.core core
    if !k.mayRegister e then s
    else if !k.grants.contains e.pa then s.wantGrant core e.pa false
    else if !s.holderOf core e.pa then s
    else
      let d := s.dirAt e.pa
      let s1 := s.modCore core fun k => { k with hearth := k.hearth.map fun x =>
        if x.2.tv && x.2.pa == e.pa then (x.1, { x.2 with registered := false }) else x }
      let s2 := (s1.setEntry core idx { e with registered := true }).setDir e.pa
        { d with st := if d.st == .owned then .owned else .modified, rp := true, rseq := e.stamp % 8192, promoted := false }
      if d.queue.isEmpty then s2 else s2.post (lookAgain e.pa)

/-- The releases of a core that wait to register a line, oldest first (R284). -/
def State.registerLine (s : State) (core ln : Nat) : State :=
  (sortBy (fun ie => ie.2.stamp) ((s.core core).hearth.filter fun x => x.2.tv && x.2.pa == ln)).foldl (fun x ie => x.register core ie.1) s

/-- Allocates an entry for a piece (R234, R235, R238): SEQ, RSEQ, p3, the background walk, a release's triggers. -/
def State.allocEntry (s : State) (g : GroupId) (p : Piece) (rel : Option Nat) (idx : Nat) : State :=
  let k := s.core g.core
  let e := Entry.make p g k.world (((s.team g.core g.slot).map Team.tenant).getD 0) k.seqNext s.cycle rel
  let s1 := s.setCore g.core { k with
    hearth := NMap.set k.hearth idx e
    seqNext := k.seqNext + 1
    rseq := if rel.isSome then k.seqNext else k.rseq }
  let s2 := (s1.modGroup g fun x => x.ctrUp 3 e.stamp).count g.core e.tenant 5 1
  let s3 := if e.tv then s2 else s2.post (.tlbWalk g.core idx)
  match rel with
  | none => s3
  | some sc => if 2 ≤ sc then s3.trigger g.core idx else s3.register g.core idx

/-- What happens to one piece of a store (R235, R237). -/
inductive PieceOut where
  | entered (s : State)
  | full (s : State)

/-- An overflow drain (R237), counted for the store's tenant. -/
def State.overflow (s : State) (g : GroupId) (idx : Nat) : State :=
  (s.count g.core (((s.team g.core g.slot).map Team.tenant).getD 0) 6 1).trigger g.core idx

/-- Enters one piece, or triggers the entry that overflow picks unless this store has done so already. -/
def State.enterPiece (s : State) (g : GroupId) (p : Piece) (rel : Option Nat) (triggered : Bool) : PieceOut :=
  let k := s.core g.core
  let target := if rel.isSome then none else k.mergeTarget g p
  match target with
  | some idx =>
    match NMap.find k.hearth idx with
    | some e => .entered (s.setEntry g.core idx (e.merge p))
    | none => .entered s
  | none =>
    let mine := k.teamEntries g.slot
    if s.limitOf g.core g.slot ≤ mine.length then
      .full (if triggered then s else match oldestOpen mine with | some i => s.overflow g i | none => s)
    else match k.freeEntry with
      | none => .full (if triggered then s else match oldestOpen k.hearth with | some i => s.overflow g i | none => s)
      | some idx => .entered (s.allocEntry g p rel idx)

/-- Enters the pieces of a store in order; answers the pieces that are left. -/
def State.enterPieces (s : State) (g : GroupId) (rel : Option Nat) (triggered : Bool) : List Piece → State × List Piece × Bool
  | [] => (s, [], false)
  | p :: r =>
    match s.enterPiece g p rel triggered with
    | .entered s1 => State.enterPieces s1 g rel false r
    | .full s1 => (s1, p :: r, true)

/-- Earlier loads and value-returning atomics of a split's lanes (R257): those with a smaller number. -/
def Group.earlierLates (g : Group) (lanes : Lanes) (id : Nat) : List Nat :=
  (g.lates.filter fun l => decide (l.id < id) && l.lanes &&& lanes != 0 && (match l.kind with | .filled => false | .launch .. => false | .rtchk _ => false | _ => true)).map
    Late.id

/-- What a release waits for before its bytes enter (R257): its item `id` of p2 is the oldest one outstanding. Its own late results have larger
numbers. -/
def Group.releaseReady (g : Group) (lanes : Lanes) (id scope : Nat) : Bool :=
  (g.earlierLates lanes id).isEmpty && (g.p 0 == 0) && (decide (scope < 2) || g.p 1 == 0)
    && (match g.ctrItems 2 with | (i, _) :: _ => i == id | [] => true)

/-- An atomic of the group, issued before item `id`, has not been performed and addresses one of some VA lines (R278): its number. -/
def Group.ownAtom (g : Group) (id : Nat) (vlines : List Nat) : Option Nat :=
  (g.lates.find? fun l => (match l.kind with | .atomHome .. => true | .atomHearth .. => true | _ => false) && decide (l.item.getD l.id < id)
    && l.reqs.any fun r => r.bytes.any fun b => b.val.isNone && vlines.contains (b.va.toNat / 128)).map Late.id

/-- A load of the group, issued before number `id`, has not returned and addresses one of some VA or PA lines (R277, R278): its number. -/
def Group.ownLoad (g : Group) (id : Nat) (vlines plines : List Nat) : Option Nat :=
  (g.lates.find? fun l => (match l.kind with | .load _ _ => true | .loadCap _ => true | .loadU _ => true | _ => false) && decide (l.id < id)
    && l.reqs.any fun r => r.bytes.any fun b => b.val.isNone && (vlines.contains (b.va.toNat / 128) || plines.contains (b.pa / 128))).map Late.id

/-- The physical lines of a store's pieces, those of pieces that are not translated yet by a look at the page tables. -/
def State.storeLines (s : State) (w : WaitingStore) : List Nat :=
  let tn := ((s.team w.g.core w.g.slot).map Team.tenant).getD 0
  w.pieces.filterMap fun p => match p.pa with
    | some ln => some ln
    | none => (s.peekVa tn (p.va * 128)).map lineOf

/-- The store that may try to enter now: the first of its group, behind the group's earlier atomics and loads of its lines, and a release whose waits
are over (R235, R257, R277, R278). -/
def State.storeReady (s : State) (core : Nat) : Option WaitingStore :=
  let k := s.core core
  k.waiting.find? fun w =>
    (match k.waiting.find? fun x => x.g == w.g with | some x => x.id == w.id | none => false)
      && (match w.rel, s.group w.g with
          | some sc, some g => g.releaseReady w.lanes w.id sc
          | _, _ => true)
      && (match s.group w.g with
          | some g => (g.ownAtom w.id (w.pieces.map Piece.va)).isNone && (g.ownLoad w.id (w.pieces.map Piece.va) (s.storeLines w)).isNone
          | none => true)
      && (!w.triggered || (match w.pieces with
          | p :: _ => (w.rel.isNone && (k.mergeTarget w.g p).isSome)
              || (decide ((k.teamEntries w.g.slot).length < s.limitOf core w.g.slot) && k.freeEntry.isSome)
          | [] => true))

/-- An sc store holds its split until its own entries are FREE (R258): they are those allocated from `a` on, below `b`. -/
def Group.holdForEntries (g : Group) (id a b : Nat) : Group :=
  { g with splits := g.splits.map fun kp => (kp.1, { kp.2 with held := kp.2.held.map fun h =>
      if (!h.again) && (h.conds.any fun c => c == Cond.accepted id) then
        { h with conds := h.conds ++ (List.range (b - a)).map fun i => Cond.entryGone (a + i) }
      else h }) }

/-- The tagged granules of a piece that a sweep revokes lose their tags as they enter the hearth (R56). -/
def State.filterPiece (s : State) (tenant core : Nat) (p : Piece) : Piece :=
  { p with tags := sweptTags (fun c => !(s.sweepFilter tenant core c).tag) p.data p.tags }

/-- STORE_ACCEPT: the ready store's bytes enter entries; p2 falls when all have (R235). -/
def State.acceptStore (s : State) (core : Nat) : State :=
  match s.storeReady core with
  | none => s
  | some w =>
    let tn := ((s.team core w.g.slot).map Team.tenant).getD 0
    let (s0, left, trig) := s.enterPieces w.g w.rel w.triggered (w.pieces.map (s.filterPiece tn core))
    let s1 := s0.modGroup w.g fun g => g.holdForEntries w.id (s.core core).seqNext (s0.core core).seqNext
    if left.isEmpty then
      let s2 := s1.modCore core fun k => { k with waiting := k.waiting.filter fun x => x.id != w.id }
      s2.modGroup w.g fun g => g.ctrDone 2 w.id
    else s1.modCore core fun k => { k with
      waiting := k.waiting.map fun x => if x.id = w.id then { x with pieces := left, triggered := trig } else x }

/-! A release fence's effect on the hearth (R260). -/

/-- RSEQ := the next SEQ; at cluster scope and wider every older entry is triggered. -/
def State.releaseFenceAt (s : State) (core scope : Nat) : State :=
  let s1 := s.modCore core fun k => { k with rseq := k.seqNext }
  if 2 ≤ scope then s1.triggerWhere core fun _ => true else s1

/-- The L1 drops every line (R220). -/
def State.dropL1 (s : State) (core : Nat) : State := s.modCore core fun k => { k with l1 := [] }

/-- An acquire of a group at cluster scope or wider (R256): its core's L1 is dropped (R220), and its instruction fetch sees memory as the home
has it now (R100). -/
def State.acquireWide (s : State) (g : GroupId) : State := (s.dropL1 g.core).modGroup g fun x => { x with code := s.mem }

end Sys2Proof.Machine
end

