-- ==== Sys2Proof/Machine/Home.lean ====
section
/-! DEFINITION. The home of a line: directory, copy sites, requests in arrival order, atomics (spec/11, R265 to R267; spec/12, R291 to R298, R447). -/
namespace Sys2Proof.Machine

/-! The atomic operations (R109, R266). -/

/-- A value of `n` bits read as signed. -/
def signedOf (bits v : Nat) : Int := if v < 2 ^ (bits - 1) then (v : Int) else (v : Int) - 2 ^ bits

/-- The float format of an atomic of `n` bytes. -/
def atomFmt (n : Nat) : Fmt := if n = 4 then .f32 else .f64

/-- FMax of two magnitudes with the sign 0; a NaN operand gives the default NaN only when both are NaN (R197). -/
def amaxOf (f : Fmt) (x y : Nat) : Nat :=
  let m := 2 ^ (f.width - 1)
  let a := x % m
  let b := y % m
  if isNaNBits f a && isNaNBits f b then defaultNaN f
  else if isNaNBits f a then b
  else if isNaNBits f b then a
  else if a < b then b else a

/-- The new value of a location (R266): operation, bytes, signedness, old value, v, w. -/
def atomApply (op n : Nat) (signed : Bool) (old v w : Nat) : Nat :=
  let bits := 8 * n
  let lt := if signed then decide (signedOf bits v < signedOf bits old) else decide (v < old)
  match op with
  | 0 => (old + v) % 2 ^ bits
  | 1 => if lt then v else old
  | 2 => if lt then old else v
  | 3 => old &&& v
  | 4 => old ||| v
  | 5 => old ^^^ v
  | 6 => v
  | 7 => if old = v then w else old
  | 8 => (roundTo (atomFmt n) 0 ((decodeNum (atomFmt n) old).add (decodeNum (atomFmt n) v)) 0 false).bits
  | _ => amaxOf (atomFmt n) old v

/-! Copies. -/

/-- A line of a protected window (R423). -/
def State.protectedLine (s : State) (ln : Nat) : Bool :=
  match s.ownerOf (ln * 128) with
  | none => false
  | some t => (s.tenant t).winWorld (homeDie ln) != 0

/-- A protected line that the slices of a core's die may not hold: they have no protected way, or those of the line's home have none (R423). -/
def State.noCache (s : State) (core ln : Nat) : Bool :=
  s.protectedLine ln && ((s.die (homeDie ln)).protectedWays == 0 || (s.die (dieOf core)).protectedWays == 0)

/-- The line as every reader outside the writing core sees it: the bytes forwarded in state O, else the home's (R279). -/
def State.visibleLine (s : State) (ln : Nat) : LineData × BitVec 8 :=
  match (s.dirAt ln).fwdData with
  | some x => x
  | none => (s.lineData ln, s.lineTags ln)

/-- Bytes the L1 of a core may hold (R219): 0 before a first team. -/
def Core.l1Sets (k : Core) : Nat := match k.pool with | some (_, se, le) => le - se | none => 0

/-- Puts a line into the L1 (R219): 8 ways to a set, the oldest filled leaves. -/
def Core.l1Fill (k : Core) (ln : Nat) (x : L1Line) : Core :=
  let n := k.l1Sets
  if n = 0 then k
  else
    let same := k.l1.filter fun p => p.1 % n == ln % n && p.1 != ln
    let l := if same.length < 8 then k.l1
      else match same.foldl (fun (b : Option (Nat × Nat)) p => match b with
          | some y => if p.2.filled < y.2 then some (p.1, p.2.filled) else some y
          | none => some (p.1, p.2.filled)) none with
        | some y => NMap.del k.l1 y.1
        | none => k.l1
    { k with l1 := NMap.set l ln x }

/-- A core receives a line for its ordinary loads; its sector or die keeps a copy, its L1 too (R223, R224). -/
def State.reply (s : State) (core ln : Nat) (bytes : LineData × BitVec 8) : State :=
  if s.noCache core ln then s.deliverLine core ln (.ok bytes)
  else
    let b : BitVec 7 := 1#7 <<< siteOf core ln
    let e := s.dirAt ln
    let s1 := if isHostLine ln then s else s.setDir ln ({ e with sites := e.sites ||| b } : DirEntry).settle
    let s2 := s1.setCopies ln (s1.copiesAt ln ||| b)
    let s3 := s2.modCore core fun k => k.l1Fill ln ⟨bytes.1, bytes.2, s.cycle⟩
    s3.deliverLine core ln (.ok bytes)

/-- The home's bytes for a reader, or the cause its read of HBM meets. -/
def State.replyHome (s : State) (core ln : Nat) : State :=
  match s.lineFault ln with
  | some c => s.deliverLine core ln (.error c)
  | none =>
    let t := s.coreTenant core
    (((s.charge t core ln).count core t 8 1)).reply core ln (s.lineData ln, s.lineTags ln)

/-! The snoop filter. -/

/-- Allocates a snoop filter entry (R301): the victim that must be evicted first, or the filter with the line. -/
def State.filterAlloc (s : State) (ln : Nat) : Except Nat State :=
  let d := homeDie ln
  let die := s.die d
  let set := ln % 65536
  let l := NMap.getD die.filter set []
  if l.contains ln then .ok s
  else if l.length < 16 then .ok (s.setDie d { die with filter := NMap.set die.filter set (l ++ [ln]) })
  else match l with
    | v :: _ => .error v
    | [] => .ok s

/-- Frees the snoop filter entry of a line (R301). -/
def State.filterFree (s : State) (ln : Nat) : State :=
  let d := homeDie ln
  let die := s.die d
  s.setDie d { die with filter := NMap.set die.filter (ln % 65536) ((NMap.getD die.filter (ln % 65536) []).filter fun x => x != ln) }

/-- What a request's turn brings: it is served, or it waits. -/
inductive Served where
  | done (s : State)
  | wait (s : State)

/-- The state a turn leaves. -/
def Served.state : Served → State
  | .done s => s
  | .wait s => s

/-! Atomics at home and in the hearth (R266, R267). -/

/-- The bytes of a number as the returned bytes of a request. -/
def LaneReq.answer (r : LaneReq) (old : Nat) : LaneReq :=
  { r with bytes := r.bytes.zipIdx.map fun bi => { bi.1 with val := some (BitVec.ofNat 8 (old / 256 ^ bi.2)) } }

/-- The operation, signedness and size of an atomic late result. -/
def LateKind.atom : LateKind → Option (Nat × Nat × Bool)
  | .atomHome op size sg _ => some (op, 2 ^ size, sg)
  | .atomHearth op size sg _ _ => some (op, 2 ^ size, sg)
  | _ => none

/-- The line a request addresses. -/
def LaneReq.line (r : LaneReq) : Nat := match r.bytes with | b :: _ => b.pa / 128 | [] => 0
def LaneReq.waiting (r : LaneReq) : Bool := r.bytes.any fun b => b.val.isNone

/-- After lanes of an atomic have been performed: once all are, p2 falls and the old values return (R267). -/
def State.atomDone (s : State) (gi : GroupId) (id : Nat) : State :=
  match s.group gi with
  | none => s
  | some g =>
    match g.late id with
    | none => s
    | some l =>
      if l.pendingBytes then s
      else
        let shared := g.lates.any fun x => x.id != id && x.item == l.item && x.pendingBytes
        let s1 := match l.item with | some n => if shared then s else s.modGroup gi fun x => x.ctrDone 2 n | none => s
        s1.post (.loadReturn gi id)

/-- LAUNCH meets a fault at home (R94): S[D] is full with its old value, and the word raises the cause precisely. -/
def State.launchFault (s : State) (gi : GroupId) (id : Nat) (l : Late) (c : Cause) (addr : W64) : State :=
  s.modGroup gi fun g =>
    ({ g with lates := g.lates.filter fun x => x.id != id, sEmpty := g.sEmpty.filter fun r => !l.sdests.contains r } : Group).trapHeld id c addr s.cycle

/-- A translated address of LAUNCH: memory with R and W that can be read (R94). -/
def State.launchAddr (s : State) (core tenant : Nat) (va : W64) : State × Except Cause Nat :=
  match translate s core tenant va .atomic with
  | (s1, .error c) => (s1, .error c)
  | (s1, .ok (.mem pa)) =>
    if s1.hostBlocked tenant (pa / 128) then (s1, .error .hostAbort)
    else (match s1.lineFault (pa / 128) with | some c => (s1, .error c) | none => (s1, .ok pa))
  | (s1, .ok _) => (s1, .error .window)

/-- The atomic of LAUNCH at the home of QCB.WIDX (R94); what its addresses' walks read is called back from the host first. -/
def State.launchAtHome (s : State) (gi : GroupId) (id : Nat) : Served :=
  match s.team gi.core gi.slot, (s.group gi).bind fun g => g.late id with
  | some t, some l =>
    match l.kind with
    | .launch key words slotWritten =>
      let q := s.queue key
      let va : W64 := BitVec.ofNat 64 (q.qcb.toNat * 64)
      let done := fun (x : State) (st : Nat) =>
        .done ((x.modGroup gi fun g => g.setLate { l with swrites := l.sdests.map fun d => (d, BitVec.ofNat 64 st) }).post (.loadReturn gi id))
      match s.pageHost gi.core t.tenant va .atomic with
      | some ln => .wait (s.homeResume ln (.homeAtomic gi id))
      | none =>
      match s.launchAddr gi.core t.tenant va with
      | (s1, .error c) => .done (s1.launchFault gi id l c va)
      | (s1, .ok pa) =>
        match s1.markBusy (lineOf pa) (lookAgain (lineOf pa)) with
        | some bl => .wait (s1.askMark bl (lookAgain (lineOf pa)))
        | none =>
        let b := s1.natAt pa 64
        let widx := bitsOf b 128 64
        let size := bitsOf b 36 4
        let raise := fun (x : State) =>
          let x1 := (x.deviceWrite (pa + 16) 8 ((widx + 1) % 2 ^ 64) 0).markDirty pa
          done (x1.setQueue key { x1.queue key with bell := true }) 0
        if slotWritten then raise s1
        else if q.st != .run then done s1 2
        else if !b.testBit 55 then done s1 3
        else if (widx + 2 ^ 64 - bitsOf b 192 64) % 2 ^ 64 = 2 ^ size then done s1 1
        else
          let slot : W64 := BitVec.ofNat 64 (bitsOf b 0 36 * 64 + 64 * (widx % 2 ^ size))
          match s1.pageHost gi.core t.tenant slot .atomic with
          | some ln => .wait (s1.homeResume ln (.homeAtomic gi id))
          | none =>
          match s1.launchAddr gi.core t.tenant slot with
          | (s2, .error c) => .done (s2.launchFault gi id l c slot)
          | (s2, .ok sp) =>
            let v := words.zipIdx.foldl (fun x wi => x + wi.1.toNat * 2 ^ (64 * wi.2)) 0
            if lineOf sp = lineOf pa then raise ((s2.deviceWrite sp 64 v 0).markDirty sp)
            else
            -- WIDX becomes visible after the slot's bytes: the atomic keeps its turn until they are written
            let s3 := s2.modGroup gi fun g => g.setLate { l with kind := .launch key words true }
            .wait (s3.deviceSend (.launch gi id) (writesOf sp 64 v ++ s3.marksOf [(sp, 64)] ++ [.post (.homeAtomic gi id)]))
    | _ => .done s
  | _, _ => .done s

/-- Performs one line's lanes of a home atomic in rising lane order (R266, R267), or LAUNCH's atomic. -/
def State.homeAtomicLine (s : State) (gi : GroupId) (id ln : Nat) : Served :=
  match s.group gi with
  | none => .done s
  | some g =>
    match g.late id with
    | none => .done s
    | some l =>
      match l.kind.atom with
      | none => (match l.kind with | .launch .. => s.launchAtHome gi id | _ => .done s)
      | some (op, n, sg) =>
        match s.lineFault ln with
        | some c =>
          let l1 := { l with
            faults := l.faults ++ (l.reqs.filter fun r => r.line == ln && r.waiting).map fun r => (r.lane, c)
            reqs := l.reqs.map fun r => if r.line == ln && r.waiting then r.answer 0 else r }
          .done ((s.setGroup gi (g.setLate l1)).atomDone gi id)
        | none =>
          -- the page's bit is set with the operations (R231, R267)
          match s.markBusy ln (lookAgain ln) with
          | some b => .wait (s.askMark b (lookAgain ln))
          | none =>
          let (s1, rs) := l.reqs.foldl (fun (acc : State × List LaneReq) r =>
            if r.line == ln && r.waiting then
              match r.bytes with
              | b :: _ =>
                let old := acc.1.natAt b.pa n
                let nw := atomApply op n sg old (r.v.toNat % 2 ^ (8 * n)) (r.w.toNat % 2 ^ (8 * n))
                (acc.1.deviceWrite b.pa n nw 0, acc.2 ++ [r.answer old])
              | [] => (acc.1, acc.2 ++ [r])
            else (acc.1, acc.2 ++ [r])) (s, [])
          let s2 := ((s1.charge (s.coreTenant gi.core) gi.core ln).markDirty (ln * 128)).modGroup gi fun x => x.setLate { l with reqs := rs }
          .done (s2.atomDone gi id)

/-- The line as the core's atomics see it: the home's bytes under the hearth's (R267). -/
def State.lineSeen (s : State) (core ln vline : Nat) : LineData :=
  (List.range 128).foldl (fun d i => match (s.core core).youngest vline i with
    | some e => setLineByte d i (lineByte e.data i)
    | none => d) (s.lineData ln)

/-- Bytes [o, o+n) of a line as a number. -/
def lineNat (d : LineData) (o n : Nat) : Nat := (d.toNat / 2 ^ (8 * o)) % 2 ^ (8 * n)

/-- Performs one VA line's lanes of an in-hearth atomic, and enters the new bytes as a store (R267). -/
def State.hearthAtomicLine (s : State) (gi : GroupId) (id ln vline : Nat) : State :=
  match s.group gi with
  | none => s
  | some g =>
    match g.late id with
    | none => s
    | some l =>
      match l.kind with
      | .atomHearth op size sg _ rel =>
        let n := 2 ^ size
        let mine := fun (r : LaneReq) => r.waiting && (match r.bytes with | b :: _ => b.va.toNat / 128 == vline && b.pa / 128 == ln | [] => false)
        match s.lineFault ln with
        | some c =>
          let l1 := { l with
            faults := l.faults ++ (l.reqs.filter mine).map fun r => (r.lane, c)
            reqs := l.reqs.map fun r => if mine r then r.answer 0 else r }
          (s.setGroup gi (g.setLate l1)).atomDone gi id
        | none =>
          let (d, m, rs) := l.reqs.foldl (fun (acc : LineData × LineMask × List LaneReq) r =>
            if mine r then
              match r.bytes with
              | b :: _ =>
                let o := b.va.toNat % 128
                let old := lineNat acc.1 o n
                let nw := atomApply op n sg old (r.v.toNat % 2 ^ (8 * n)) (r.w.toNat % 2 ^ (8 * n))
                let d1 := (List.range n).foldl (fun x j => setLineByte x (o + j) (BitVec.ofNat 8 (nw / 256 ^ j))) acc.1
                (d1, acc.2.1 ||| (BitVec.ofNat 128 (2 ^ n - 1) <<< o), acc.2.2 ++ [r.answer old])
              | [] => (acc.1, acc.2.1, acc.2.2 ++ [r])
            else (acc.1, acc.2.1, acc.2.2 ++ [r])) (s.lineSeen gi.core ln vline, 0, [])
          match s.enterPiece gi ⟨vline, some ln, m, d &&& maskBits m, 0, touched m, true⟩ rel l.trig with
          | .full s1 => s1.modGroup gi fun x => x.setLate { l with trig := true }
          | .entered s1 =>
            (s1.modGroup gi fun x => (x.setLate { l with reqs := rs, trig := false }).holdForEntries (l.item.getD id)
              (s.core gi.core).seqNext (s1.core gi.core).seqNext).atomDone gi id
      | _ => s

/-- An in-hearth atomic may be performed on a line (R267): its grant is held and not being asked for again, nor being given back but for older
atomics, no bytes of it are on their way home, and no earlier load of the group waits for it (R278). -/
def Core.atomLine (k : Core) (g : Group) (l : Late) (ln : Nat) : Bool :=
  k.grants.contains ln && !k.grantAsked.contains ln && decide (l.id < (NMap.find k.recalls ln).getD (l.id + 1))
    && !(k.hearth.any fun x => x.2.tv && x.2.pa == ln && ((x.2.st == .draining && x.2.sent) || x.2.committing))
    && (g.ownLoad (l.item.getD l.id) [] [ln]).isNone

/-- The first VA line of an in-hearth atomic of a group whose lanes wait and that may be performed. -/
def Late.hearthLine (l : Late) (k : Core) (g : Group) : Option (Nat × Nat) :=
  match l.reqs.find? fun r => r.waiting && k.atomLine g l r.line with
  | some r => match r.bytes with | b :: _ => some (b.pa / 128, b.va.toNat / 128) | [] => none
  | none => none

/-- Performs the in-hearth atomics of a core that can go on, `fuel` lines at most. -/
def State.runAtomics (s : State) (core : Nat) : Nat → State
  | 0 => s
  | n + 1 =>
    let k := s.core core
    let cand := k.teams.findSome? fun st => st.2.groups.findSome? fun kg =>
      (kg.2.lates.findSome? fun l => match l.kind with
        | .atomHearth _ _ _ _ rel =>
          if (match rel with | some sc => kg.2.releaseReady l.lanes (l.item.getD l.id) sc | none => true) && (!l.trig ||
              (decide ((k.teamEntries st.1).length < s.limitOf core st.1) && k.freeEntry.isSome)) then
            (l.hearthLine k kg.2).map fun x => ((⟨core, st.1, kg.1⟩ : GroupId), l.id, x)
          else none
        | _ => none)
    match cand with
    | none => s
    | some (gi, id, ln, vl) => State.runAtomics (s.hearthAtomicLine gi id ln vl) core n

/-- BISnpInv to the host site alone: a snoop filter eviction (R301). -/
def State.invalSitesHost (s : State) (ln : Nat) : State :=
  let e := s.dirAt ln
  if e.invSent.getLsbD 6 then s else (s.setDir ln { e with invSent := e.invSent ||| 64 }).post (.inval ln 6)

/-- INVAL to the device sites (R296). -/
def State.invalSitesDevice (s : State) (ln : Nat) : State :=
  let e := s.dirAt ln
  let todo := (List.range 6).filter fun i => e.sites.getLsbD i && !e.invSent.getLsbD i
  todo.foldl (fun x i => x.post (.inval ln i)) (s.setDir ln { e with invSent := e.invSent ||| (e.sites &&& 63) })

/-! Requests (R294, R295). -/

/-- Gives write grant (R294): M with its holder; DR as the request carried it; an engine's grant only when no copy is left. -/
def State.giveGrant (s : State) (ln core : Nat) (mark engine : Bool) : Served :=
  let e := s.dirAt ln
  if engine && e.sites != 0 then .wait (s.invalSites ln)
  else
    .done ((s.setDir ln { e with st := .modified, holder := core, hg := false, eg := engine, dr := mark, rp := false, asked := false, promoted := false }).post
      (.grant ln core engine))

/-- A request that needs every grant back first (R294): the grant is gone, or it is asked for. -/
def State.freeOfGrant (s : State) (ln : Nat) : Served :=
  let e := s.dirAt ln
  match e.st with
  | .owned => .wait s
  | .excl => if e.hg then .wait (s.askHost ln false) else .wait (s.recallHolder ln)
  | .modified => .wait (s.recallHolder ln)
  | _ => .done s

/-- The reader number of the host in FWD and FWD_DATA: beyond every core (R293). -/
def hostReader : Nat := 576

/-- That of the engines of a core: they read at the slice, without a copy of their own (R286). -/
def engineReader (core : Nat) : Nat := 577 + core

/-- The host receives its 64 bytes of a line; all ones with an error status where the line cannot be read (R434, R425, R4). -/
def State.hostReply (s : State) (tenant ia : Nat) (res : Except Cause LineData) : State :=
  let r : HostReply := match res with
    | .ok d => ⟨tenant, ia, d.extractLsb' (ia % 128 / 64 * 512) 512, false⟩
    | .error _ => ⟨tenant, ia, BitVec.allOnes 512, true⟩
  { s with hostReplies := s.hostReplies ++ [r] }

/-- The host's write of a part of a line that cannot be read ends with an error (R248, R425, R434). -/
def State.hostWriteFails (s : State) (tenant ln : Nat) (c : Cause) : State :=
  ((s.health (homeDie ln) (if c == .integrity then 8 else 4) 0 (ln * 128)).health (homeDie ln) 5 0 (ln * 128)).hostReply tenant (ln * 128) (.error c)

/-- The home's bytes for a host read (R296). -/
def State.hostReadHome (s : State) (tenant ia ln : Nat) : State :=
  match s.lineFault ln with
  | some c => ((s.health (homeDie ln) (if c == .integrity then 8 else 4) 0 (ln * 128)).health (homeDie ln) 5 0 ia).hostReply tenant ia (.error c)
  | none => (s.charge tenant hostReader ln).hostReply tenant ia (.ok (s.lineData ln))

/-- Serves one request (R294). -/
def State.serve (s : State) (ln : Nat) (r : HomeReq) : Served :=
  let e := s.dirAt ln
  let engineBusy := e.eg && e.st == .modified
  match r with
  | .read core =>
    if engineBusy then .wait (s.recallHolder ln)
    else match e.st with
      | .excl => if e.hg then .wait (s.askHost ln true) else .done (s.replyHome core ln)
      | .modified =>
        if e.dr then
          if e.sites != 0 then .wait (s.invalSites ln)
          else .done ((s.setDir ln { e with st := .owned }).post (.fwd ln e.holder core))
        else .done (s.replyHome core ln)
      | .owned => .done (s.post (.fwd ln e.holder core))
      | _ => .done (s.replyHome core ln)
  | .pin core =>
    -- an engine reads as a site does (R286, R447); what it reads then is the home's line, or the one forwarded in O
    if engineBusy then .wait (s.recallHolder ln)
    else match e.st with
      | .excl => if e.hg then .wait (s.askHost ln true) else .done s
      | .modified =>
        if e.dr then
          if e.sites != 0 then .wait (s.invalSites ln)
          else .done ((s.setDir ln { e with st := .owned }).post (.fwd ln e.holder (engineReader core)))
        else .done s
      | .owned => if e.fwdData.isSome then .done s else .done (s.post (.fwd ln e.holder (engineReader core)))
      | _ => .done s
  | .readNew g id =>
    let home := fun (x : State) => ((x.charge (x.coreTenant g.core) g.core ln).count g.core (x.coreTenant g.core) 8 1).deliverNew g id ln (match x.lineFault ln with | some c => .error c | none => .ok (x.lineData ln, x.lineTags ln))
    if engineBusy then .wait (s.recallHolder ln)
    else match e.st with
      | .excl => if e.hg then .wait (s.askHost ln true) else .done (home s)
      | .modified =>
        if e.rp && e.holder != g.core then
          if e.promoted then .wait s else .wait ((s.setDir ln { e with promoted := true, dr := true }).post (.promote ln e.holder))
        else if e.dr then
          if e.sites != 0 then .wait (s.invalSites ln)
          else .done ((s.setDir ln { e with st := .owned }).post (.fwd ln e.holder g.core))
        else .done (home s)
      | .owned => .done (s.post (.fwd ln e.holder g.core))
      | _ => .done (home s)
  | .grant core mark engine =>
    match e.st with
    | .owned => .wait s
    | .excl =>
      if e.hg then .wait (s.askHost ln false)
      else if e.holder = core && e.eg == engine then s.giveGrant ln core mark engine
      else .wait (s.recallHolder ln)
    | .modified =>
      if e.holder = core && e.eg == engine then .done (s.post (.grant ln core engine)) else .wait (s.recallHolder ln)
    | _ => s.giveGrant ln core mark engine
  | .atomic g id =>
    match s.freeOfGrant ln with
    | .wait s1 => .wait s1
    | .done s1 => if (s1.dirAt ln).sites != 0 then .wait (s1.invalSites ln) else s1.homeAtomicLine g id ln
  | .amax _ =>
    -- the matrix unit's atomic keeps its turn until it performs (R344)
    match s.freeOfGrant ln with
    | .wait s1 => .wait s1
    | .done s1 => if (s1.dirAt ln).sites != 0 then .wait (s1.invalSites ln) else .wait s1
  | .device owner steps =>
    -- the agent's write is performed as a home atomic is (R231, R267)
    if !s.lineFree ln then .wait (s.freeLine ln)
    else match steps with
      | .write pa n v op :: r => .done (deviceSteps owner (some ln) r (s.deviceWrite pa n v op))
      | _ => .done (deviceSteps owner (some ln) steps s)
  | .resume i r => if s.hostOwns ln then .wait (s.askHost ln true) else .done (s.postReq i r)
  | .mark i tried =>
    -- the bitmap line keeps its turn while the write whose page it marks is tried (R231)
    if !s.lineFree ln then .wait (s.freeLine ln)
    else if tried then .done s
    else .wait (((s.setDir ln { e with queue := .mark i true :: e.queue.drop 1 }).post i).post (lookAgain ln))
  | .snoop =>
    -- a line held exclusive, or written through at this moment, answers later (R298)
    if e.st == .excl || e.st == .modified then .wait (s.recallHolder ln)
    else if s.cores.any fun kc => kc.2.hearth.any fun x => x.2.host && x.2.sent && x.2.pa == ln then .wait s
    else .done (s.setCopies ln 0)
  | .hostRead tenant ia =>
    if engineBusy then .wait (s.recallHolder ln)
    -- a line that cannot be read gives the host no copy (R425)
    else if (s.lineFault ln).isSome then .done (s.hostReadHome tenant ia ln)
    else match s.filterAlloc ln with
      | .error v => .wait (s.invalSitesHost v)
      | .ok s1 =>
        let add := fun (x : State) =>
          let d := x.dirAt ln
          (x.setDir ln ({ d with sites := d.sites ||| 64 } : DirEntry).settle).setCopies ln (x.copiesAt ln ||| 64)
        let fwd := fun (x : State) =>
          let d := x.dirAt ln
          .done ((add (x.setDir ln { d with st := .owned, hostWaits := d.hostWaits ++ [(tenant, ia)] })).post (.fwd ln d.holder hostReader))
        match e.st with
        | .modified =>
          if e.dr then (if e.sites != 0 then .wait (s1.invalSites ln) else fwd s1) else .done ((add s1).hostReadHome tenant ia ln)
        | .owned => fwd s1
        | _ => .done ((add s1).hostReadHome tenant ia ln)
  | .hostOwn _ =>
    match s.filterAlloc ln with
    | .error v => .wait (s.invalSitesHost v)
    | .ok s1 =>
      if e.st == .excl && e.hg then .done s1
      else match s1.freeOfGrant ln with
        | .wait s2 => .wait s2
        | .done s2 =>
          let d := s2.dirAt ln
          if d.sites &&& 63 != 0 then .wait (s2.invalSitesDevice ln)
          else .done (s2.setDir ln { s2.dirAt ln with st := .excl, hg := true, eg := false, sites := 64, invSent := 0, asked := false })
  | .hostWrite tenant data mask keeps =>
    let mine := e.st == .excl && e.hg
    match if mine then Served.done s else s.freeOfGrant ln with
    | .wait s1 => .wait s1
    | .done s1 =>
      if (s1.dirAt ln).sites &&& 63 != 0 then .wait (s1.invalSitesDevice ln)
      else match s1.partialFault ln mask with
      | some c => .done (s1.hostWriteFails tenant ln c)
      | none =>
      match s1.markBusy ln (lookAgain ln) with
      | some b => .wait (s1.askMark b (lookAgain ln))
      | none =>
        let s2 := ((s1.charge tenant hostReader ln).writeOver ln mask data 0).markDirty (ln * 128)
        if keeps then .done s2
        else
          let d := s2.dirAt ln
          .done (((s2.setDir ln ({ d with sites := d.sites &&& 63, hg := false, st := if mine then .inv else d.st } : DirEntry).settle).setCopies ln
            (s2.copiesAt ln &&& 63)).filterFree ln)

/-- Serves the requests that wait at a line, in arrival order, `fuel` at most (R295). -/
def State.homeServe (s : State) (ln : Nat) : Nat → State
  | 0 => s
  | n + 1 =>
    match (s.dirAt ln).queue with
    | [] => s
    | r :: _ =>
      if s.frozen ln then s else
      match s.serve ln r with
      | .wait s1 => s1
      | .done s1 =>
        let e := s1.dirAt ln
        State.homeServe (s1.setDir ln { e with queue := e.queue.drop 1 }) ln n

/-- A request arrives at home: behind those that wait, else it is served at once (R295). -/
def State.homeArrive (s : State) (ln : Nat) (r : HomeReq) : State :=
  let s1 := s.joinQueue ln r
  if (s.dirAt ln).queue.isEmpty then s1.homeServe ln 2 else s1

/-- A message that can unblock a line: its parked drains and commits come again, then its requests are served. -/
def State.homeRetry (s : State) (ln : Nat) : State :=
  let e := s.dirAt ln
  let s1 := e.parked.foldl (fun x i => x.post i) (s.setDir ln { e with parked := [] })
  s1.homeServe ln (e.queue.length + 1)

/-- Makes an entry's bytes visible: no copy is left but the home's (R279); the bytes and tags are written and the page is marked (R239, R231).
`none`: INVALs are outstanding, and the message is parked until their answers; or the bitmap line is not free, and the message comes again. -/
def State.visible (s : State) (ln core idx : Nat) (again : Instr) : Option State × State :=
  match s.entry core idx with
  | none => (some s, s)
  | some e =>
    let d := s.dirAt ln
    if d.st != .owned && d.sites != 0 then
      (none, let s1 := s.invalSites ln
             let d1 := s1.dirAt ln
             s1.setDir ln { d1 with parked := d1.parked.filter (fun i => i != again) ++ [again] })
    else match s.markBusy ln again with
      | some b => (none, s.askMark b again)
      | none =>
        let s1 := ((s.charge e.tenant core ln).writeOver ln e.mask e.data e.tags).markDirty (ln * 128)
        (some s1, s1)

/-- The cause a drained entry meets at home: a partial line is merged with a line that cannot be read (R248, R425). -/
def State.drainFault (s : State) (ln core idx : Nat) : Option Cause :=
  match s.entry core idx with
  | none => none
  | some e => s.partialFault ln e.mask

end Sys2Proof.Machine
end

