-- ==== Sys2Proof/Machine/Operands.lean ====
section
/-! DEFINITION. The operand forms of the instruction words (spec/05, R102 to R106; spec/08, R165 to R168; spec/09, R187): resolving direct and
indexed registers, empty sources, format tags, alignment and range; reading and writing lanes. -/
namespace Sys2Proof.Machine

/-- What an instruction word runs in: the issuing split, its group, its team and its clause. -/
structure Ctx where
  site : Site
  team : Team
  g : Group
  p : Split
  cl : Clause
  deriving DecidableEq, Repr

/-- The group that issues. -/
def Ctx.gid (c : Ctx) : GroupId := c.site.g
def Ctx.core (c : Ctx) : Nat := c.site.g.core
def Ctx.width (c : Ctx) : Nat := c.team.width
def Ctx.regs (c : Ctx) : Nat := c.team.regs
/-- The address of the word in issue. -/
def Ctx.wordAddr (c : Ctx) : W64 := c.cl.wordAddr c.cl.next
/-- ACTIVE (R129). -/
def Ctx.active (c : Ctx) (m : MField) : Lanes := if m = 0 then c.p.lanes else c.p.lanes &&& c.g.s m.toNat
def Ctx.lanes (c : Ctx) (m : MField) : List Nat := lanesOf c.width (c.active m)
def Ctx.ftz (c : Ctx) : Bool := c.g.sp.fpctl.getLsbD 8

/-- Why a word does not run now: it waits for registers, or it raises a cause precisely. -/
inductive Fail where
  | stall (conds : List Cond)
  | trap (cause : Cause)
  deriving DecidableEq, Repr

/-- A vector source: field, w bit, and its registers where the instruction fixes them (`none`: the tag's). -/
structure Src where
  f : VField
  w : Bool
  n : Option Nat
  deriving DecidableEq, Repr

/-- IndexReg (R104): the first register of an operand in a lane, `none` for INDEX_WINDOW; a direct field names it itself. -/
def Ctx.regAt (c : Ctx) (f : VField) (n l : Nat) : Option Nat :=
  if f.toNat < 1536 then some f.toNat
  else
    let k := f.toNat - 1536
    let (wb, wl) := c.g.window c.regs (k / 64)
    let i := (c.g.x (k / 64) l).toNat + k % 64
    if wl < i + n then none
    else if (n == 2 || n == 4) && (wb + i) % n != 0 then none
    else some (wb + i)

/-- The registers of an operand that lanes touch; a direct field touches its registers whatever the lanes (R104, R121). -/
def Ctx.touched (c : Ctx) (f : VField) (n : Nat) (ls : List Nat) : List Nat :=
  let bases := if f.toNat < 1536 then [f.toNat] else ls.filterMap fun l => c.regAt f n l
  (bases.flatMap fun r => (List.range n).map fun j => r + j).dedup

/-- The tag of an operand: that of its first register; an indexed operand's lanes must agree (R165, R168). -/
def Ctx.tagOf (c : Ctx) (f : VField) (ls : List Nat) : Except Fail FTag :=
  match (c.touched f 1 ls).map fun r => (c.g.v r).tag with
  | [] => .ok .raw
  | t :: r => if r.all (fun x => x == t) then .ok t else .error (.trap .format)

/-- Direct alignment (R105). -/
def misaligned (f : VField) (n : Nat) : Bool := decide (f.toNat < 1536) && (n == 2 || n == 4) && f.toNat % n != 0
/-- Direct range (R105). -/
def Ctx.outOfRange (c : Ctx) (f : VField) (n : Nat) : Bool := decide (f.toNat < 1536) && decide (c.regs < f.toNat + n)

/-- Direct operands are aligned, and then lie below REGS: steps 5 and 6 of R112, before any fault of the word's own. -/
def Ctx.placed (c : Ctx) (ops : List (VField × Nat)) : Except Fail Unit :=
  if ops.any fun x => misaligned x.1 x.2 then .error (.trap .regAlign)
  else if ops.any fun x => c.outOfRange x.1 x.2 then .error (.trap .regRange)
  else .ok ()

/-- Every register of a multi-register operand in some lane carries the tag (R165). -/
def Ctx.sameTags (c : Ctx) (f : VField) (n : Nat) (ls : List Nat) (t : FTag) : Bool := (c.touched f n ls).all fun r => (c.g.v r).tag == t

/-- Every register of a multi-register operand carries the tag of its first (R165); one register has one tag. -/
def Ctx.oneTagged (c : Ctx) (x : Src) (ls : List Nat) : Bool :=
  decide (x.n.getD 1 = 1) || (match c.tagOf x.f ls with | .ok t => c.sameTags x.f (x.n.getD 1) ls t | .error _ => false)

/-- Empty registers of a list as conditions. -/
def Ctx.empties (c : Ctx) (rs : List Nat) : List Cond := (rs.filter fun r => !c.g.vFull r).map Cond.vfull
/-- Empty scalars of a list as conditions (R148). -/
def Ctx.sEmpties (c : Ctx) (rs : List Nat) : List Cond := (rs.filter fun r => !c.g.sFull r).map Cond.sfull

/-- An empty source: REG_EMPTY with w = 1, a stall with w = 0 (R122). -/
def Ctx.fullCheck (c : Ctx) (xs : List (Src × List Nat)) : Except Fail Unit :=
  if xs.any fun x => x.1.w && !(c.empties x.2).isEmpty then .error (.trap .regEmpty)
  else
    let e := xs.flatMap fun x => c.empties x.2
    if e.isEmpty then .ok () else .error (.stall e)

/-- Tags of several operands, in order. -/
def Ctx.tagsOf (c : Ctx) (ls : List Nat) : List Src → Except Fail (List FTag)
  | [] => .ok []
  | x :: r =>
    match c.tagOf x.f ls, Ctx.tagsOf c ls r with
    | .ok t, .ok ts => .ok (t :: ts)
    | .error e, _ => .error e
    | _, .error e => .error e

/-- The checks of the vector sources: range of the first register, empty bits, tags, alignment, range, one tag per operand
(R105, R112, R122, R165). It answers each source's tag and size. -/
def Ctx.checkSrcs (c : Ctx) (ls : List Nat) (srcs : List Src) : Except Fail (List (FTag × Nat)) :=
  if srcs.any fun x => misaligned x.f (x.n.getD 1) then .error (.trap .regAlign)
  else if srcs.any fun x => c.outOfRange x.f (x.n.getD 1) then .error (.trap .regRange)
  else match c.fullCheck (srcs.map fun x => (x, c.touched x.f (x.n.getD 1) ls)) with
    | .error e => .error e
    | .ok _ =>
      match c.tagsOf ls srcs with
      | .error e => .error e
      | .ok ts =>
        let xs := (srcs.zip ts).map fun x => (x.1, x.2, x.1.n.getD x.2.regs)
        if xs.any fun x => misaligned x.1.f x.2.2 then .error (.trap .regAlign)
        else if xs.any fun x => c.outOfRange x.1.f x.2.2 then .error (.trap .regRange)
        else match c.fullCheck (xs.map fun x => (x.1, c.touched x.1.f x.2.2 ls)) with
          | .error e => .error e
          | .ok _ =>
            if xs.all fun x => (c.touched x.1.f x.2.2 ls).all fun r => (c.g.v r).tag == x.2.1 then .ok (xs.map fun x => (x.2.1, x.2.2))
            else .error (.trap .format)

/-- The tag of an operand where it is known: its first register is full in every lane and has one tag (R187). -/
def Ctx.known (c : Ctx) (ls : List Nat) (f : VField) : Option FTag :=
  if (c.empties (c.touched f 1 ls)).isEmpty then (match c.tagOf f ls with | .ok t => some t | .error _ => none) else none

/-- The tags of operands, where all of them are known. -/
def Ctx.allKnown (c : Ctx) (ls : List Nat) : List VField → Option (List FTag)
  | [] => some []
  | f :: r =>
    match c.known ls f, Ctx.allKnown c ls r with
    | some t, some ts => some (t :: ts)
    | _, _ => none

/-- Steps 5 and 6 for sources whose tags give their size: each at the size of its tag, where that is known, else at one register; the destination `d`
at the size that the sources' tags give it, where all of them are known (R112, R187). -/
def Ctx.placedBy (c : Ctx) (ls : List Nat) (srcs : List Src) (d : Option VField) (size : List FTag → Nat) : Except Fail Unit :=
  let n := ((c.allKnown ls (srcs.map Src.f)).map size).getD 1
  c.placed ((srcs.map fun x => (x.f, x.n.getD (((c.known ls x.f).map FTag.regs).getD 1))) ++ d.toList.map fun f => (f, n))

/-- The checks of sources whose bits are taken as they stand, whatever their tags (R134, R155, R157, R160); the registers of a pair still carry one
tag (R165). -/
def Ctx.checkBits (c : Ctx) (ls : List Nat) (srcs : List Src) : Except Fail Unit :=
  if srcs.any fun x => misaligned x.f (x.n.getD 1) then .error (.trap .regAlign)
  else if srcs.any fun x => c.outOfRange x.f (x.n.getD 1) then .error (.trap .regRange)
  else match c.fullCheck (srcs.map fun x => (x, c.touched x.f (x.n.getD 1) ls)) with
    | .error e => .error e
    | .ok _ => if srcs.all fun x => c.oneTagged x ls then .ok () else .error (.trap .format)

/-- Sources of bitwise logic of which one is RAW: beside a pair tag, where the tags are accepted and agree, it is a pair of RAW registers
(R168, R204). -/
def pairWide (ts : List FTag) : Bool :=
  let rest := ts.filter fun t => t != .raw
  ts.all (fun t => t == .raw || t.isInt || t.isFloat) && rest.all (fun t => t.regs == 2 && t == rest.headD .raw) && !rest.isEmpty

/-- VBFI's sources a and d: a RAW destination of a pair is a pair of RAW registers (R207; log entry 35). -/
def fieldWide (ts : List FTag) : Bool := (ts.getD 0 .raw).isInt && (ts.getD 0 .raw).regs == 2 && ts.getD 1 .i32 == .raw

/-- The sources, with two registers for a RAW one where `wide` says so of the tags that are known. -/
def Ctx.widened (c : Ctx) (ls : List Nat) (wide : List FTag → Bool) (srcs : List Src) : List Src :=
  match c.allKnown ls (srcs.map Src.f) with
  | some ts => if wide ts then (srcs.zip ts).map fun x => if x.2 == .raw then { x.1 with n := some 2 } else x.1 else srcs
  | none => srcs

/-- The checks of a vector destination of `n` registers: alignment, range; an empty one is a source with w = 0 (R105, R121). -/
def Ctx.checkDst (c : Ctx) (ls : List Nat) (f : VField) (n : Nat) : Except Fail Unit :=
  if misaligned f n then .error (.trap .regAlign)
  else if c.outOfRange f n then .error (.trap .regRange)
  else
    let e := c.empties (c.touched f n ls)
    if e.isEmpty then .ok () else .error (.stall e)

/-- The scalars of a pair; sc0 has none: it reads as an untagged zero, and a write of it is discarded (R49). -/
def pairRegs (a : Nat) : List Nat := if a = 0 then [] else [a, a + 1]

/-- The scalars that a word reads or writes must be full (R148); s0 always is. -/
def Ctx.checkScalars (c : Ctx) (rs : List Nat) : Except Fail Unit :=
  let e := c.sEmpties rs
  if e.isEmpty then .ok () else .error (.stall e)

/-- The bits of an operand in a lane. -/
def Ctx.read (c : Ctx) (r n l : Nat) : Nat := joinWords ((List.range n).map fun j => c.g.lane (r + j) l)

/-- The first registers of several operands in a lane, `none` when one is outside its window. -/
def Ctx.resolve (c : Ctx) (l : Nat) : List (VField × Nat) → Option (List Nat)
  | [] => some []
  | (f, n) :: r =>
    match c.regAt f n l, Ctx.resolve c l r with
    | some b, some bs => some (b :: bs)
    | _, _ => none

/-- The (register, lane, word) writes of a result. -/
def laneWrites (r n l v : Nat) : List (Nat × Nat × W32) := (splitWords n v).zipIdx.map fun wi => (r + wi.2, l, wi.1)

/-- Writes lanes, then makes the destination registers full under their tag (R121, R187). -/
def Group.writeResult (g : Group) (ws : List (Nat × Nat × W32)) (rs : List Nat) (t : FTag) : Group := (g.writeLanes ws).fillAll rs t

/-! The registers a word reads, for a header's FULL (R97). -/

/-- A vector field that is read; 0 registers means those of its tag, `recordCount` those of a block record of its tag. -/
abbrev ReadField := VField × Nat
def recordCount : Nat := 255

/-- Element register count of a record's tag (R264): bytes of the record, element registers. -/
def recordShape (t : FTag) : Option (Nat × Nat) :=
  match t with
  | .e4m3x4 => some (33, 8) | .e5m2x4 => some (33, 8) | .mxi8x4 => some (33, 8)
  | .e3m2s => some (25, 6) | .e2m3s => some (25, 6)
  | .e2m1x8 => some (17, 4)
  | _ => none

def readU (o : VU) : List ReadField := [(o.a, 0)]
def readB (o : VB) : List ReadField := [(o.a, 0), (o.b, 0)]
def readT (o : VT) : List ReadField := [(o.a, 0), (o.b, 0), (o.c, 0)]

/-- The data registers of a memory word with a SIZE (R253). -/
def sizeRegs (size : Nat) : Nat := if size = 4 then 4 else if size = 3 then 2 else 1

/-- The base and the offset of a vector memory word. -/
def readMem (o : MOp) : List ReadField :=
  (if o.bsel then [] else [(BitVec.ofNat 11 (4 * o.base.toNat), 4)]) ++ [(o.off, 1)]
def readBase (o : MOp) : List Nat := if o.bsel then pairRegs o.base.toNat else []

/-- Vector fields, scalars and mask that a word reads. -/
def readSet : Instr → List ReadField × List Nat
  | .brz a _ => ([], [a.toNat]) | .brnz a _ => ([], [a.toNat]) | .mskip a _ => ([], [a.toNat]) | .brv a _ => ([], [a.toNat])
  | .jmpt a b => ([], b.toNat :: pairRegs a.toNat) | .jmptC a b => ([], b.toNat :: pairRegs a.toNat)
  | .callt a b => ([], b.toNat :: pairRegs a.toNat) | .calltC a b => ([], b.toNat :: pairRegs a.toNat)
  | .jmptv a i _ => ([(i, 1)], pairRegs a.toNat) | .calltv a i _ _ => ([(i, 1)], pairRegs a.toNat)
  | .ret a => ([], [a.toNat]) | .retX => ([], [124, 125]) | .retv l _ => ([(l, 2)], [])
  | .trap _ m => ([], [m.toNat]) | .bkpt m => ([], [m.toNat]) | .sset a _ => ([], [a.toNat])
  | .launch q p _ => ([], pairRegs q.toNat ++ (List.range 8).map fun j => p.toNat + j)
  | .smov o => ([], [o.a.toNat]) | .smovi o => ([], [o.b.toNat]) | .smovhi o => ([], [o.a.toNat])
  | .sadd o => ([], [o.a.toNat, o.b.toNat]) | .ssub o => ([], [o.a.toNat, o.b.toNat]) | .smul o => ([], [o.a.toNat, o.b.toNat])
  | .smulhs o => ([], [o.a.toNat, o.b.toNat]) | .smulhn o => ([], [o.a.toNat, o.b.toNat])
  | .sdivs o => ([], [o.a.toNat, o.b.toNat]) | .sdivn o => ([], [o.a.toNat, o.b.toNat])
  | .srems o => ([], [o.a.toNat, o.b.toNat]) | .sremn o => ([], [o.a.toNat, o.b.toNat])
  | .sand o => ([], [o.a.toNat, o.b.toNat]) | .sor o => ([], [o.a.toNat, o.b.toNat]) | .sxor o => ([], [o.a.toNat, o.b.toNat])
  | .sandn o => ([], [o.a.toNat, o.b.toNat]) | .sshl o => ([], [o.a.toNat, o.b.toNat]) | .sshrn o => ([], [o.a.toNat, o.b.toNat])
  | .sshrs o => ([], [o.a.toNat, o.b.toNat]) | .smins o => ([], [o.a.toNat, o.b.toNat]) | .smaxs o => ([], [o.a.toNat, o.b.toNat])
  | .sminn o => ([], [o.a.toNat, o.b.toNat]) | .smaxn o => ([], [o.a.toNat, o.b.toNat])
  | .sclz o => ([], [o.a.toNat]) | .sctz o => ([], [o.a.toNat]) | .spopc o => ([], [o.a.toNat]) | .sbext o => ([], [o.a.toNat])
  | .sbins o => ([], [o.a.toNat, o.d.toNat]) | .ssel o => ([], [o.a.toNat, o.b.toNat, o.imm.toNat % 128])
  | .scmp o => ([], [o.a.toNat, o.b.toNat])
  | .vmov o => (readU o, [o.m.toNat]) | .vmovi _ _ _ m => ([], [m.toNat]) | .vmovs _ a _ m => ([], [a.toNat, m.toNat])
  | .vadd o _ => (readB o, [o.m.toNat]) | .vaddi o _ _ => (readU o, [o.m.toNat]) | .vsub o _ => (readB o, [o.m.toNat])
  | .vmul o _ => (readB o, [o.m.toNat]) | .vfma o => (readT o, [o.m.toNat]) | .vfms o => (readT o, [o.m.toNat])
  | .vmin o => (readB o, [o.m.toNat]) | .vmax o => (readB o, [o.m.toNat]) | .vclamp o => (readT o, [o.m.toNat])
  | .vabs o _ => (readU o, [o.m.toNat]) | .vneg o _ => (readU o, [o.m.toNat]) | .vaddmin o => (readT o, [o.m.toNat])
  | .vmulh o => (readB o, [o.m.toNat]) | .vcmp _ a b _ m _ _ => ([(a, 0), (b, 0)], [m.toNat]) | .vsel o c => (readB o, [o.m.toNat, c.toNat])
  | .vand o => (readB o, [o.m.toNat]) | .vor o => (readB o, [o.m.toNat]) | .vxor o => (readB o, [o.m.toNat]) | .vnot o => (readU o, [o.m.toNat])
  | .vshl o => (readB o, [o.m.toNat]) | .vshr o => (readB o, [o.m.toNat]) | .vsra o => (readB o, [o.m.toNat])
  | .vclz o => (readU o, [o.m.toNat]) | .vpopc o => (readU o, [o.m.toNat]) | .vbfe o _ _ _ => (readU o, [o.m.toNat])
  | .vbfi o _ _ => ((o.d, 0) :: readU o, [o.m.toNat]) | .vdiv o => (readB o, [o.m.toNat]) | .vsqrt o => (readU o, [o.m.toNat])
  | .vrcp o => (readU o, [o.m.toNat]) | .vrsq o => (readU o, [o.m.toNat]) | .vexp2 o => (readU o, [o.m.toNat]) | .vlog2 o => (readU o, [o.m.toNat])
  | .vrint o s _ => (readU o, [o.m.toNat, s.toNat]) | .vscale o => (readB o, [o.m.toNat]) | .vclass o => (readU o, [o.m.toNat])
  | .vcvt o s _ _ _ => (readU o, [o.m.toNat, s.toNat]) | .vtag o t => ([(o.a, ((tagOf t.toNat).map FTag.regs).getD 1)], [o.m.toNat])
  | .vshfl o => ([(o.a, 1), (o.b, 1)], [o.m.toNat]) | .vshflx o _ => ([(o.a, 1)], [o.m.toNat])
  | .vshup o _ c _ => ([(o.a, 1), (c, 1)], [o.m.toNat]) | .vshdn o _ c _ => ([(o.a, 1), (c, 1)], [o.m.toNat])
  | .vbcast o b => ([(o.a, 1)], [o.m.toNat, b.toNat]) | .vrdl _ a b sz _ => ([(a, if sz then 2 else 1)], [b.toNat])
  | .vwrl _ a b _ => ([], [a.toNat, b.toNat]) | .vvote _ a _ m _ => ([(a, 1)], [m.toNat])
  | .vred _ a _ sz m _ => ([(a, if sz then 2 else 1)], [m.toNat]) | .vscan o _ _ sz => ([(o.a, if sz then 2 else 1)], [o.m.toNat])
  | .xset _ a _ m _ => ([(a, 1)], [m.toNat]) | .xget _ _ m => ([], [m.toNat])
  | .ld _ o => (readMem o, o.m.toNat :: readBase o) | .ldRec _ o => (readMem o, o.m.toNat :: readBase o)
  | .st o => ((o.t, sizeRegs o.size.toNat) :: readMem o, o.m.toNat :: readBase o)
  | .stRec o => ((o.t, recordCount) :: readMem o, o.m.toNat :: readBase o)
  | .ldu o => ([], o.off.toNat % 128 :: pairRegs o.base.toNat)
  | .stu o => ([], [o.t.toNat, o.off.toNat % 128] ++ pairRegs o.base.toNat)
  | .ldc o => (readMem o, o.m.toNat :: readBase o) | .stc o => ((o.t, 4) :: readMem o, o.m.toNat :: readBase o)
  | .atom op o => ((o.t, if op == 7 then 2 * sizeRegs o.size.toNat else sizeRegs o.size.toNat) :: readMem o, o.m.toNat :: readBase o)
  | .atomu op o => ([], [o.t.toNat, o.off.toNat % 128] ++ pairRegs o.base.toNat ++ (if op == 7 then [o.t.toNat + 1] else []))
  | .lds _ o => ([(o.off, 1)], [o.m.toNat, o.base.toNat]) | .sts o => ([(o.t, sizeRegs o.size.toNat), (o.off, 1)], [o.m.toNat, o.base.toNat])
  | .atoms op o => ([(o.t, if op == 7 then 2 * sizeRegs o.size.toNat else sizeRegs o.size.toNat), (o.off, 1)], [o.m.toNat, o.base.toNat])
  | .ldx _ o => ([(o.off, 1)], [o.m.toNat, o.base.toNat]) | .stx o => ([(o.t, sizeRegs o.size.toNat), (o.off, 1)], [o.m.toNat, o.base.toNat])
  | .atomx op o => ([(o.t, if op == 7 then 2 * sizeRegs o.size.toNat else sizeRegs o.size.toNat), (o.off, 1)], [o.m.toNat, o.base.toNat])
  | .cgeta o => capRead o 0 | .cgetb o => capRead o 0 | .cgetl o => capRead o 0 | .cgetp o => capRead o 0 | .cgetk o => capRead o 0
  | .cgett o => capRead o 0 | .cseta o => capRead o 2 | .cinc o => capRead o 2
  | .cinci u _ a _ m _ => if u then ([], pairRegs a.toNat) else ([(a, 4)], [m.toNat])
  | .cbound o => capRead o 2 | .cboundx o => capRead o 2 | .candp o => capRead o 2 | .cseal o => capRead o 4 | .csealE o => capRead o 0
  | .cunseal o => capRead o 4 | .csub o => capRead o 4 | .ceq o => capRead o 4 | .cclr o => capRead o 0 | .cmovc o => capRead o 0
  | .cmovcX o => if o.u then ([(o.a, 4)], [o.b.toNat % 128]) else ([], o.m.toNat :: pairRegs (o.a.toNat % 128))
  | .csweep _ a b => ([], b.toNat :: pairRegs a.toNat) | .cmint _ _ b => ([], (List.range 3).map fun j => b.toNat + j)
  | .send d a b _ m _ _ => ([(d, 4), (a, 4), (b, 1)], [m.toNat])
  | .sendm d a b _ n m _ _ => ([(d, 4), (a, 4), (b, n.toNat + 1)], [m.toNat])
  | .rtchk _ a b ck m _ _ => ((a, 4) :: (if ck then [(b, 4)] else []), [m.toNat])
  | .cpy o => cpyRead o 4 | .cpyt o => cpyRead o 7 | .cpyg o _ => cpyRead o 5 | .cpys o _ => cpyRead o 5
  | .kinitR a d => ([], a.toNat :: pairRegs d.toNat) | .karr a b => ([], [a.toNat, b.toNat, b.toNat + 1])
  | .karrC _ a b => ([], [a.toNat, b.toNat, b.toNat + 1, b.toNat + 2])
  | .kwait a => ([], [a.toNat]) | .krel a => ([], [a.toNat])
  | .ksend d a b => ([(d, 4), (a, 4)], [b.toNat, b.toNat + 1]) | .kstat _ a var => ([], if var == 1 then [] else [a.toNat])
  | .mmap a b _ => ([], pairRegs a.toNat ++ (List.range 4).map fun j => b.toNat + j)
  | .mload a b _ => ([], pairRegs a.toNat ++ [b.toNat, b.toNat + 1])
  | .mloop _ _ b _ => ([], [b.toNat]) | .mloopResume _ _ b _ => ([], [b.toNat])
  | .mdrain d a b _ _ => ([], pairRegs d.toNat ++ pairRegs a.toNat ++ (List.range 4).map fun j => b.toNat + j)
  | _ => ([], [])
where
  /-- Reads of a capability word (R60). -/
  capRead (o : CapOp) (nb : Nat) : List ReadField × List Nat :=
    if o.u then ([], pairRegs (o.a.toNat % 128) ++ (if nb = 0 then [] else if nb = 2 then [o.b.toNat % 128] else pairRegs (o.b.toNat % 128)))
    else ((o.a, 4) :: (if nb = 0 then [] else [(o.b, nb)]), [o.m.toNat])
  /-- Reads of a copy word (R319). -/
  cpyRead (o : CpyOp) (n : Nat) : List ReadField × List Nat :=
    ([], pairRegs o.d.toNat ++ pairRegs o.a.toNat ++ (List.range n).map fun j => o.b.toNat + j)

/-- The fields of a word that may be RAW beside a pair, with the rule of their size. -/
def wideRule : Instr → List FTag → Bool
  | .vand _ => pairWide | .vor _ => pairWide | .vxor _ => pairWide
  | .vbfi _ _ _ => fun ts => fieldWide [ts.getD 1 .raw, ts.getD 0 .raw]
  | _ => fun _ => false

/-- What a word reads in a group's state: VCVT reads its destination too where it keeps part of it, which the tags decide (R97, R214), and a RAW
operand of bitwise logic or of VBFI is a pair beside a pair (R204). -/
def Ctx.reads (c : Ctx) (ls : List Nat) (i : Instr) : List ReadField × List Nat :=
  let r := readSet i
  let elems := fun (t : FTag) => (t.elem.map Prod.snd).getD 1
  match i with
  | .vcvt o _ _ tag _ => (match c.tagOf o.a ls, Machine.tagOf tag.toNat with
    | .ok st, some dt => if elems st < elems dt then ((o.d, dt.regs) :: r.1, r.2) else r
    | _, _ => r)
  | _ => (match c.allKnown ls (r.1.map Prod.fst) with
    | some ts => if wideRule i ts then ((r.1.zip ts).map (fun x => if x.2 == .raw then (x.1.1, 2) else x.1), r.2) else r
    | none => r)

/-- The registers of a field that is read. -/
def Ctx.readCount (c : Ctx) (fn : ReadField) (ls : List Nat) : Nat :=
  let tag := match c.tagOf fn.1 ls with | .ok t => t | .error _ => .raw
  if fn.2 = 0 then tag.regs
  else if fn.2 = recordCount then ((recordShape tag).map fun x => x.2 + 1).getD 1
  else fn.2

/-- Every register that a word reads in a split's lanes is full (R97). -/
def readsFull (team : Team) (g : Group) (p : Split) (i : Instr) : Bool :=
  let c : Ctx := ⟨⟨⟨0, 0, 0⟩, 0⟩, team, g, p, ⟨0, 0, [], 0⟩⟩
  let ls := lanesOf team.width p.lanes
  let (vs, ss) := c.reads ls i
  ss.all (fun r => decide (127 < r) || g.sFull r) && vs.all fun fn =>
    (c.touched fn.1 (c.readCount fn ls) ls).all fun r => g.vFull r

/-- The registers that a result has beside sources of those tags: those of the first that is not RAW. -/
def resultRegs (ts : List FTag) : Nat := ((ts.filter fun t => t != .raw).headD .raw).regs

/-- Vector fields and scalars that a word writes; 0 registers means those of its sources' tags, 1 or more that number (R121). -/
def writeSet : Instr → List ReadField × List Nat
  | .callt _ _ => ([], [126]) | .calltC _ _ => ([], [126, 124, 125]) | .calltv _ _ _ l => ([(l, 2)], []) | .call _ => ([], [126])
  | .splits d _ => ([], [d.toNat]) | .sget d _ => ([], [d.toNat]) | .launch _ _ d => ([], [d.toNat])
  | .smov o => sc o | .smovi o => sc o | .smovhi o => sc o | .sadd o => sc o | .ssub o => sc o | .smul o => sc o | .smulhs o => sc o
  | .smulhn o => sc o | .sdivs o => sc o | .sdivn o => sc o | .srems o => sc o | .sremn o => sc o | .sand o => sc o | .sor o => sc o
  | .sxor o => sc o | .sandn o => sc o | .sshl o => sc o | .sshrn o => sc o | .sshrs o => sc o | .smins o => sc o | .smaxs o => sc o
  | .sminn o => sc o | .smaxn o => sc o | .sclz o => sc o | .sctz o => sc o | .spopc o => sc o | .sbext o => sc o | .sbins o => sc o
  | .ssel o => sc o | .scmp o => sc o
  | .vmov o => v o.d 0 | .vmovi d imm _ _ => v d (named (imm.toNat / 2 ^ 17)) | .vmovs d _ tag _ => v d (named tag.toNat)
  | .vadd o _ => v o.d 0 | .vaddi o _ _ => v o.d 0 | .vsub o _ => v o.d 0 | .vmul o _ => v o.d 0 | .vfma o => v o.d 0 | .vfms o => v o.d 0
  | .vmin o => v o.d 0 | .vmax o => v o.d 0 | .vclamp o => v o.d 0 | .vabs o _ => v o.d 0 | .vneg o _ => v o.d 0 | .vaddmin o => v o.d 0
  | .vmulh o => v o.d 0 | .vcmp d _ _ _ _ _ _ => ([], [d.toNat]) | .vsel o _ => v o.d 0
  | .vand o => v o.d 0 | .vor o => v o.d 0 | .vxor o => v o.d 0 | .vnot o => v o.d 0 | .vshl o => v o.d 0 | .vshr o => v o.d 0
  | .vsra o => v o.d 0 | .vclz o => v o.d 0 | .vpopc o => v o.d 0 | .vbfe o _ _ _ => v o.d 0 | .vbfi o _ _ => v o.d 0 | .vdiv o => v o.d 0
  | .vsqrt o => v o.d 0 | .vrcp o => v o.d 0 | .vrsq o => v o.d 0 | .vexp2 o => v o.d 0 | .vlog2 o => v o.d 0 | .vrint o _ _ => v o.d 0
  | .vscale o => v o.d 0 | .vclass o => v o.d 1 | .vcvt o _ _ tag _ => v o.d (named tag.toNat) | .vtag o tag => v o.d (named tag.toNat)
  | .vshfl o => v o.d 1 | .vshflx o _ => v o.d 1 | .vshup o _ _ _ => v o.d 1 | .vshdn o _ _ _ => v o.d 1 | .vbcast o _ => v o.d 1
  | .vrdl d _ _ _ _ => ([], [d.toNat]) | .vwrl d _ _ sz => v d (if sz then 2 else 1) | .vvote d _ _ _ _ => ([], [d.toNat])
  | .vred d _ _ _ _ _ => ([], [d.toNat]) | .vscan o _ _ sz => v o.d (if sz then 2 else 1) | .xget d _ _ => v d 1
  | .ld _ o => v o.t (sizeRegs o.size.toNat) | .ldRec tag o => v o.t ((((tagOf tag.toNat).bind recordShape).map fun x => x.2 + 1).getD 1)
  | .ldu o => ([], [o.t.toNat]) | .ldc o => v o.t 4
  | .atom _ o => v o.t (sizeRegs o.size.toNat) | .atomu _ o => ([], [o.t.toNat])
  | .lds _ o => v o.t (sizeRegs o.size.toNat) | .ldx _ o => v o.t (sizeRegs o.size.toNat)
  | .cgeta o => cap o 2 false | .cgetb o => cap o 2 false | .cgetl o => cap o 2 false | .cgetp o => cap o 1 false | .cgetk o => cap o 1 false
  | .cgett o => cap o 1 false | .csub o => cap o 2 false | .ceq o => cap o 1 false
  | .cseta o => cap o 4 true | .cinc o => cap o 4 true | .cbound o => cap o 4 true | .cboundx o => cap o 4 true | .candp o => cap o 4 true
  | .cseal o => cap o 4 true | .csealE o => cap o 4 true | .cunseal o => cap o 4 true | .cclr o => cap o 4 true | .cmovc o => cap o 4 true
  | .cinci u d _ _ _ _ => if u then ([], pairRegs (d.toNat % 128)) else v d 4
  | .cmovcX o => if o.u then ([], pairRegs (o.d.toNat % 128)) else v o.d 4
  | .creg d _ _ => ([], pairRegs d.toNat) | .csweep d _ _ => ([], [d.toNat]) | .cmint d _ _ => ([], pairRegs d.toNat)
  | .isfull d _ _ => ([], [d.toNat]) | .rtchk d _ _ _ _ _ _ => v d 1
  | .kacq d _ _ => ([], [d.toNat]) | .karrC d _ _ => ([], [d.toNat]) | .kstat d _ _ => ([], [d.toNat])
  | .mwait d _ => ([], [d.toNat]) | .mprog d _ _ => ([], [d.toNat])
  | _ => ([], [])
where
  /-- One scalar destination. -/
  sc (o : SOp) : List ReadField × List Nat := ([], [o.d.toNat])
  /-- One vector destination. -/
  v (f : VField) (n : Nat) : List ReadField × List Nat := ([(f, n)], [])
  /-- The registers of the tag that the word names. -/
  named (code : Nat) : Nat := ((tagOf code).map FTag.regs).getD 1
  /-- The destination of a capability word (R60): a capability, or a value of `n` registers. -/
  cap (o : CapOp) (n : Nat) (isCap : Bool) : List ReadField × List Nat :=
    if o.u then ([], if isCap then pairRegs (o.d.toNat % 128) else [o.d.toNat % 128]) else v o.d n

/-- The registers that a word reads in its active lanes and that are empty, as conditions (R122, R104); an empty destination is one (R121). -/
def readsEmpty (team : Team) (g : Group) (p : Split) (m : MField) (i : Instr) : List Cond :=
  let c : Ctx := ⟨⟨⟨0, 0, 0⟩, 0⟩, team, g, p, ⟨0, 0, [], 0⟩⟩
  let ls := c.lanes m
  let (vs, ss) := c.reads ls i
  let (ds, ts) := writeSet i
  let n := resultRegs (vs.map fun fn => ((c.known ls fn.1).getD .raw))
  (c.sEmpties ((ss ++ ts).filter fun r => decide (r ≤ 127)) ++ (vs.flatMap fun fn => c.empties (c.touched fn.1 (c.readCount fn ls) ls))
    ++ ds.flatMap fun fn => c.empties (c.touched fn.1 (if fn.2 = 0 then n else fn.2) ls)).dedup

end Sys2Proof.Machine
end

