-- ==== Sys2Proof/Machine/Flags.lean ====
section
/-! DEFINITION. Floating-point flags and their traps (spec/08, R182 to R185). The machine has no integer flags (R149, R189). -/
namespace Sys2Proof.Machine

/-- The cause of a flag of fpst, by its bit (R185). -/
def flagCause (bit : Nat) : Cause :=
  match bit with
  | 0 => .fpInvalid
  | 1 => .fpDivzero
  | 2 => .fpOverflow
  | 3 => .fpUnderflow
  | _ => .fpInexact

/-- The flags that any lane raised. -/
def allFlags (fl : List (Nat × Nat)) : Nat := fl.foldl (fun m x => m ||| x.2) 0

/-- The lowest enabled flag that a lane raised, and the lanes that raised it (R185); the enables are fpctl[4:0] (R183). -/
def fpTrap (fpctl : W64) (fl : List (Nat × Nat)) : Option (Cause × Lanes) :=
  match [0, 1, 2, 3, 4].find? fun b => fpctl.getLsbD b && (allFlags fl).testBit b with
  | some b => some (flagCause b, lanesMask ((fl.filter fun x => x.2.testBit b).map Prod.fst))
  | none => none

/-- ORs the flags of an instruction into fpst (R184). -/
def Group.raise (g : Group) (fl : Nat) : Group := { g with sp := { g.sp with fpst := g.sp.fpst ||| BitVec.ofNat 64 (fl % 32) } }

/-- ORs two results' flags. -/
def Rounded.also (r : Rounded) (fl : Nat) : Rounded := ⟨r.bits, r.flags ||| fl⟩

/-- FP_INVALID of a signalling NaN among the operands (R170). -/
def snan (f : Fmt) (vs : List Nat) : Nat := if vs.any fun v => isSignalling f v then flIV else 0

end Sys2Proof.Machine
end

