-- ==== Sys2Proof/Machine/Issue.lean ====
section
/-! DEFINITION. Issue (spec/06): what a word's outcome does to its split (R113, R120 to R128), transfers (R126), waiting conditions (R123),
beginning a clause (R97, R99, R132, R397) and the choice of a quadrant (R115 to R117). -/
namespace Sys2Proof.Machine

/-- A deferred fault of a lane: lane, cause, tinfo (R19, R128). -/
abbrev LaneFault := Nat × Cause × W64

/-- What a word did. -/
inductive WordOut where
  | done (s : State) (faults : List LaneFault)
  | hold (s : State) (h : Held) (faults : List LaneFault)
  | taken (s : State) (faults : List LaneFault)
  | trap (s : State) (cause : Cause) (info : W64) (flm : Lanes)
  | stall (s : State) (conds : List Cond)
  | debug (s : State) (cause : Cause)

/-- The outcome of a failed check. -/
def Fail.out (f : Fail) (s : State) (flm : Lanes) : WordOut :=
  match f with
  | .stall cs => .stall s cs
  | .trap c => .trap s c 0 flm

/-! Waiting conditions (R123). -/

/-- A 32-bit word of a team's share. -/
def Team.scratchWord (t : Team) (a : Nat) : Nat := (List.range 4).foldl (fun v j => v + (NMap.getD t.scratch (a + j) 0).toNat * 256 ^ j) 0

/-- Entries of a ring that are published or written and not consumed: NOTIFY - CONSUMED (R304). -/
def Team.ringUsed (t : Team) (r : Ring) : Nat := (t.scratchWord r.hdr + 2 ^ 32 - r.consumed.toNat) % 2 ^ 32

/-- A condition that holds a split has cleared. -/
def State.condHolds (s : State) (i : GroupId) (c : Cond) : Bool :=
  match s.team i.core i.slot, s.group i with
  | some t, some g =>
    let k := s.core i.core
    match c with
    | .vfull r => g.vFull r
    | .sfull r => g.sFull r
    | .lateDone id => (g.late id).isNone
    | .regIdle r => g.lates.all fun l => !l.vdests.contains r
    | .pLe n v => decide (g.p n ≤ v)
    | .entryGone st => k.hearth.all fun ie => ie.2.stamp != st
    | .olderGone st => k.hearth.all fun ie => decide (st ≤ ie.2.stamp)
    | .othersGone ln => k.hearth.all fun ie => ie.2.va != ln || (ie.2.slot == i.slot && ie.2.group == i.group)
    | .barrier n gen _ => decide (gen < NMap.getD (NMap.getD t.barriers n .fresh).passed i.group 0)
    | .rickBarrier gen => decide (gen < t.barr.gen)
    | .slotSettled n sl =>
      match NMap.find t.cords n with
      | none => true
      | some cd => match NMap.find cd.slots sl with | some x => x.st != .acq && x.st != .armed | none => true
    | .slotIdle n sl =>
      match NMap.find t.cords n with
      | none => true
      | some cd => match NMap.find cd.slots sl with | some x => x.infl == 0 | none => true
    | .ringRoom n => (match t.ring with | none => true | some r => decide (t.ringUsed r + n ≤ 2 ^ r.logSize))
    | .tileIdle n => ((NMap.find t.tiles n).map fun x => x.pend == 0).getD true
    | .matrixRoom => decide (k.mqueue.length + k.mwaiting.length < 16)
    | .handlerMerged => g.overflow.isEmpty && decide (g.splits.length ≤ 1) && (g.mode != .handler || (g.nested.isNone && g.nestedPending.isNone))
    | .walksDone => s.agenda.all fun h => (match h.step with | .tlbiDropVa n _ => n != t.tenant | .tlbiDropTenant n => n != t.tenant | _ => true)
    | .accepted id => k.waiting.all fun w => w.id != id
    | .ctrRoom n => decide (g.p n < (if n = 3 then 256 else 255))
    | .lineHome ln => !s.homeShut ln
  | _, _ => true

/-! Clause ends. -/

/-- A split at the end of a clause or at a transfer's target: BOUND at a header (R125). -/
def Split.toHeader (p : Split) (pc : W64) (landing : Landing) (cycle : Nat) : Split :=
  { p with pc := pc, clause := none, st := .bound, prior := .bound, held := none, landing := landing, stall := 0, ready := cycle, eligible := false, reached := cycle }

/-- A group of records as a D or P fault leaves it: the lanes leave their split and enter a record. -/
def Group.faultLanes (g : Group) (c : Ctx) (lanes : Lanes) (cause : Cause) (flm : Lanes) (kind : Nat) (info : W64) : Group :=
  (g.enterRecord ⟨c.wordAddr, c.cl.addr, lanes, cause, flm, kind, c.p.code, info, false, false, some c.cl⟩).1

/-- The lowest cause among deferred faults, the lanes that raised it and the address of the lowest (R387, R390). -/
def lowestFault : List LaneFault → Option (Cause × Lanes × W64)
  | [] => none
  | f :: r =>
    let c := (f :: r).foldl (fun (best : Cause) x => if x.2.1.code < best.code then x.2.1 else best) f.2.1
    let mine := (f :: r).filter fun x => x.2.1 == c
    let low := mine.foldl (fun (b : LaneFault) x => if x.1 < b.1 then x else b) (mine.headD f)
    some (c, lanesMask (mine.map Prod.fst), low.2.2)

/-- Deferred faults of a word: the lanes leave the split into a record (R128). -/
def Group.deferFaults (g : Group) (c : Ctx) (fs : List LaneFault) : Group :=
  match lowestFault fs with
  | none => g
  | some (cause, flm, info) =>
    let ls := lanesMask (fs.map Prod.fst)
    let g1 := { g with splits := match NMap.find g.splits c.site.split with
      | some p => if p.lanes &&& ~~~ls == 0 then NMap.del g.splits c.site.split
          else NMap.set g.splits c.site.split { p with lanes := p.lanes &&& ~~~ls }
      | none => g.splits }
    g1.faultLanes c ls cause flm 0 info

/-- The quadrant has no clause in progress any more; after a clause with YLD it prefers another split (R97). -/
def State.endClause (s : State) (c : Ctx) : State :=
  let q := quadOf c.gid.slot c.gid.group
  let prefer := if (decodeHeader c.cl.header).yld then some c.site else none
  s.modCore c.core fun k => { k with quads := NMap.set k.quads q { NMap.getD k.quads q ⟨none, none⟩ with current := none, prefer := prefer } }

/-- After a word of the split has run: the next word, the next header, or a halt before the stopped word (R120, R125). -/
def Group.advance (g : Group) (c : Ctx) (cycle : Nat) : Group × Bool :=
  match NMap.find g.splits c.site.split with
  | none => (g.normalise cycle, true)
  | some p =>
    let cl := { c.cl with next := c.cl.next + 1 }
    if cl.count ≤ cl.next then
      ({ g with splits := NMap.set g.splits c.site.split { (p.toHeader cl.nextHeader .none_ cycle) with dbgStep := false } }.normalise cycle, true)
    else
      let p1 := { p with clause := some cl, st := .issue, held := none, stall := 0, dbgStep := false }
      if g.mustHalt p1 || g.halted then
        ({ g with splits := NMap.set g.splits c.site.split { p1 with st := .halt, prior := .held, held := some ⟨[], true, false⟩ } }.normalise cycle, true)
      else ({ g with splits := NMap.set g.splits c.site.split p1 }.normalise cycle, false)

/-- A halt of the debug controller: its cause and tinfo (R403, R386). -/
def Group.debugEvent (g : Group) (c : Cause) (info : W64) : Group := { g with sp := { g.sp with tcause := BitVec.ofNat 64 c.code, tinfo := info } }

/-- A single step of the debug controller ends with STEP (R403). -/
def State.endDebugStep (s : State) (c : Ctx) : State := if !c.p.dbgStep then s else s.modGroup c.gid fun g => g.debugEvent .step 0

/-- A word has been issued (R419, event 2); INTEGRITY among its causes is counted and reported (R425). -/
def State.wordIssued (s : State) (c : Ctx) (causes : List Cause) : State :=
  let s1 := s.count c.core c.team.tenant 2 1
  if causes.contains .integrity then s1.noteCause c.core c.team.tenant .integrity else s1

/-- The causes of deferred faults. -/
def faultCauses (fs : List LaneFault) : List Cause := fs.map fun f => f.2.1

/-- What a word's outcome does to the split, the records and the quadrant. -/
def settleWord (c : Ctx) (o : WordOut) : State :=
  match o with
  | .done s fs =>
    match s.group c.gid with
    | none => s.endClause c
    | some g =>
      let (g1, ended) := (g.deferFaults c fs).advance c s.cycle
      let s1 := (s.setGroup c.gid g1).wordIssued c (faultCauses fs)
      if ended then s1.endClause c else s1
  | .taken s fs =>
    match s.group c.gid with
    | none => s.endClause c
    | some g => (((s.setGroup c.gid ((g.deferFaults c fs).normalise s.cycle)).wordIssued c (faultCauses fs)).endClause c)
  | .hold s h fs =>
    match s.group c.gid with
    | none => s.endClause c
    | some g =>
      let g1 := g.deferFaults c fs
      let g2 := { g1 with splits := NMap.adjust g1.splits c.site.split fun p =>
        { p with
          clause := some (if h.again then c.cl else { c.cl with next := c.cl.next + 1 })
          st := .held, held := some h, prior := .held, stall := 0, eligible := false, dbgStep := false } }
      (((s.setGroup c.gid (g2.normalise s.cycle)).wordIssued c (faultCauses fs)).endClause c)
  | .trap s cause info flm =>
    match s.group c.gid with
    | none => s.endClause c
    | some g =>
      let g1 := { g with splits := NMap.del g.splits c.site.split }
      (((s.setGroup c.gid ((g1.faultLanes c c.p.lanes cause flm 1 info).normalise s.cycle)).wordIssued c [cause]).endClause c)
  | .stall s cs =>
    s.modSplit c.site fun p => { p with stall := p.stall + 1, held := some ⟨cs, true, false⟩ }
  | .debug s cause =>
    -- the group halts at this word, which executes again (R386, R403)
    ((s.modGroup c.gid fun g =>
      ({ g.debugEvent cause 0 with
        halted := true
        splits := NMap.adjust g.splits c.site.split fun p =>
          { p with clause := some c.cl, st := .held, prior := .held, held := some ⟨[], true, false⟩, stall := 0, eligible := false, dbgStep := false }
        } : Group).normalise s.cycle).wordIssued c []).endClause c

/-- Settles a word; one that stalls has not issued yet, and one that the debug controller takes keeps its cause. -/
def settle (c : Ctx) (o : WordOut) : State :=
  match o with
  | .stall _ _ => settleWord c o
  | .debug _ _ => settleWord c o
  | _ => (settleWord c o).endDebugStep c

/-- The clause in progress of a quadrant (R115): its current split, while that is in ISSUE within a clause. A split that KILL or a late fault
has taken away leaves its quadrant free. -/
def State.issuing (s : State) (core q : Nat) : Option Ctx :=
  match (NMap.find (s.core core).quads q).bind Quadrant.current with
  | none => none
  | some i =>
    match s.team i.g.core i.g.slot, s.group i.g, s.split i with
    | some t, some g, some p =>
      match p.clause with
      | some cl => if p.st == .issue && decide (cl.next < cl.count) then some ⟨i, t, g, p, cl⟩ else none
      | none => none
    | _, _, _ => none

/-- The split that issues: the one whose clause the quadrant in focus has in progress. -/
def State.issuer (s : State) : Option Ctx := s.focus.bind fun f => s.issuing f.1 f.2

/-- RUNNING A WORD: the level check comes first (R112, step 2), then the word's own text. A word begins to have effect only for the split that
issues it; without one it stops. -/
def runWord (sOnly : Bool) (m : MField) (body : Ctx → State → WordOut) (s : State) : Host.Outcome State Fault Refusal :=
  match s.issuer with
  | none => .fault .noIssuer
  | some c =>
    if sOnly && !c.team.sLevel then .next (settle c (.trap s .privilege 0 (c.active m)))
    else .next (settle c (body c s))

/-- Checks of a word, one after the other: the first that fails decides. -/
def guardW (r : Except Fail Unit) (c : Ctx) (m : MField) (s : State) (k : WordOut) : WordOut :=
  match r with
  | .error e => e.out s (c.active m)
  | .ok _ => k

/-- The group runs a rewind recipe (R401). -/
def Ctx.inRecipe (c : Ctx) : Bool := c.g.mode == .recipe

/-- RUNNING A WORD that begins a no-rewind stretch: PRIVILEGE in a recipe (R401). -/
def runStretch (m : MField) (body : Ctx → State → WordOut) (s : State) : Host.Outcome State Fault Refusal :=
  runWord false m (fun c s => if c.inRecipe then .trap s .privilege 0 (c.active m) else body c s) s

/-- Begins a no-rewind stretch (R397). -/
def Group.stretch (g : Group) : Group := { g with sp := { g.sp with rwpc := g.sp.rwpc ||| 4 } }

/-! Transfers (R98, R126). -/

/-- A uniform transfer: the whole split goes to a header. -/
def Ctx.transfer (c : Ctx) (s : State) (pc : W64) (code : Cap) (landing : Landing) : State :=
  s.modGroup c.gid fun g => { g with splits := NMap.adjust g.splits c.site.split fun p =>
    { (p.toHeader pc landing s.cycle) with code := code, dbgStep := false } }

/-- A target of a per-lane transfer: its lanes, pc, code capability and expected label. -/
structure Dest where
  lanes : Lanes
  pc : W64
  code : Cap
  landing : Landing
  deriving DecidableEq, Repr

/-- Adds a lane to the targets, which keep the order of their lowest lane (R126). Targets with one PC and code capability but different expected
labels are kept apart, so that each label is checked (log entry 118: the model's choice). -/
def addDest : List Dest → Nat → W64 → Cap → Landing → List Dest
  | [], l, pc, code, ld => [⟨1#64 <<< l, pc, code, ld⟩]
  | d :: r, l, pc, code, ld =>
    if d.pc == pc && d.code == code && d.landing == ld then { d with lanes := d.lanes ||| (1#64 <<< l) } :: r else d :: addDest r l pc code ld

/-- New splits for targets in target order; those without a FREE slot enter the overflow set (R126). -/
def Group.placeDests (g : Group) (cycle : Nat) (halted : Bool) : List Dest → Group
  | [] => g
  | d :: r =>
    let g1 := match g.freeSlot with
      | some i => { g with splits := NMap.set g.splits i (Split.boundAt d.pc d.lanes d.code d.landing cycle) }
      | none => { g with overflow := g.overflow ++ [⟨d.lanes, d.pc, d.code, d.landing, cycle, none⟩] }
    Group.placeDests g1 cycle halted r

/-- JMPTV, CALLTV, RETV (R126): the issuing split keeps the first target. -/
def Ctx.divide (c : Ctx) (s : State) (ds : List Dest) : State :=
  match ds with
  | [] => s
  | d :: r =>
    let s1 := s.modGroup c.gid fun g =>
      let g1 := { g with splits := NMap.adjust g.splits c.site.split fun p =>
        { (p.toHeader d.pc d.landing s.cycle) with code := d.code, lanes := d.lanes, dbgStep := false } }
      g1.placeDests s.cycle g.halted r
    s1.count c.core c.team.tenant 4 r.length

/-! Beginning a clause (R97, R99, R132). -/

def Team.nrecipe (t : Team) : Nat := descField t.desc 819 13

/-- What the header checks give: the clause, or the cause; `code` is memory as the group's fetch sees it (R100). -/
def headerCheck (s : State) (core : Nat) (t : Team) (code : List Host.Cell) (p : Split) : State × Except (Cause × Option Clause) Clause :=
  let h := p.pc
  let (base, top) := capDecode p.code
  if h.toNat < base || top < h.toNat + 8 then (s, .error (.capBounds, none))
  else match fetchBytes s core t.tenant code h 1 with
    | (s1, .error c) => (s1, .error (c, none))
    | (s1, .ok v) =>
      let w := BitVec.ofNat 64 v
      let hd := decodeHeader w
      let cl : Clause := ⟨h, w, [], 0⟩
      if 10 < hd.cls.toNat then (s1, .error (.illegalClass, some cl))
      else if hd.rsv != 0 || (!hd.lp && hd.label != 0) || (!hd.rwp && hd.recipe != 0) || (hd.rwp && decide (t.nrecipe ≤ hd.recipe.toNat)) then
        (s1, .error (.reservedField, some cl))
      else if (match p.landing with | .none_ => false | .entry => !hd.lp | .label l => !hd.lp || hd.label != l) then
        (s1, .error (.landingPad, some cl))
      else if top < h.toNat + 8 * (hd.count.toNat + 2) then (s1, .error (.clauseCount, some cl))
      else match fetchBytes s1 core t.tenant code (h + 8) (hd.count.toNat + 1) with
        | (s2, .error c) => (s2, .error (c, some cl))
        | (s2, .ok ws) =>
          (s2, .ok { cl with words := (List.range (hd.count.toNat + 1)).map fun i => BitVec.ofNat 64 (ws / 2 ^ (64 * i)) })

/-- The host's line that the fetch of a clause waits for (R228, R297). -/
def State.headerHost (s : State) (core : Nat) (t : Team) (code : List Host.Cell) (p : Split) : Option Nat :=
  let h := p.pc
  let (base, top) := capDecode p.code
  if h.toNat < base || top < h.toNat + 8 then none
  else match s.fetchHost core t.tenant h 1 with
    | some ln => some ln
    | none => match (fetchBytes s core t.tenant code h 1).2 with
      | .error _ => none
      | .ok v => s.fetchHost core t.tenant (h + 8) ((decodeHeader (BitVec.ofNat 64 v)).count.toNat + 1)

/-- The decoded words of a clause. -/
def Clause.decoded (c : Clause) : List (Except DecodeError Instr) := c.words.map fun w => decodeWord (decodeHeader c.header).cls w

/-- The waits and FULL of a header hold (R97). -/
def mayBegin (t : Team) (g : Group) (p : Split) (cl : Clause) : Bool :=
  let hd := decodeHeader cl.header
  ((List.range 6).all fun n => hd.wait n == 15 || decide (g.p n ≤ hd.wait n))
    && (!hd.full || cl.decoded.all fun d => match d with | .ok i => readsFull t g p i | .error _ => true)

/-- A group whose team is being banked runs on: it is in a no-rewind stretch, and nothing makes the bank save it whole (R399, R396). -/
def Group.runsOn (g : Group) (grIssue : Nat) : Bool :=
  grIssue == 0 && g.sp.rwpc.getLsbD 0 && g.sp.rwpc.getLsbD 2 && g.mode != .handler && !g.awaiting && g.stopped.isNone && g.pending.isNone

/-- A bank stops the group's issue at its next clause boundaries (R399); the grace period ends every run-on (R407). -/
def State.bankStops (s : State) (t : Team) (g : Group) : Bool :=
  match t.banking with
  | none => false
  | some b => !(g.runsOn b.grIssue && decide (s.cycle < b.since + 1024 * b.grace))

/-- A split may be chosen (R116). -/
def State.eligible (s : State) (i : Site) (t : Team) (g : Group) (p : Split) : Bool :=
  if (g.halted && !p.dbgStep) || g.awaiting || g.trapCondition || g.mustHalt p then false
  else match p.st with
    | .bound =>
      if s.bankStops t g then false
      else match s.headerHost i.g.core t g.code p with
        -- the host is asked for the line once
        | some ln => !(s.dirAt ln).bisnp
        | none => match (headerCheck s i.g.core t g.code p).2 with
          | .error _ => true
          | .ok cl => mayBegin t g p cl
    | .held => ((p.held.map Held.conds).getD []).all fun c => s.condHolds i.g c
    | _ => false

/-- The lanes of a group that have not exited. -/
def Group.liveLanes (g : Group) : Lanes := g.splitLanes ||| g.overflow.foldl (fun m o => m ||| o.lanes) 0

/-- A header of a rewind point begins (R397). -/
def Group.passRewind (g : Group) (p : Split) (h : W64) (rec_ : Nat) : Group :=
  let whole := g.liveLanes == p.lanes && g.overflow.isEmpty && g.stopped.isNone && g.pending.isNone && g.mode != .handler
  { g with sp := { g.sp with rwpc := (h &&& ~~~7#64) ||| (if whole then 1 else 0), recipe := rec_ } }

/-- Takes a split of a quadrant in progress. -/
def State.setCurrent (s : State) (i : Site) : State :=
  let q := quadOf i.g.slot i.g.group
  s.modCore i.g.core fun k => { k with quads := NMap.set k.quads q { NMap.getD k.quads q ⟨none, none⟩ with current := some i, prefer := none } }

/-- A split that does not issue leaves it with a precise fault at a word or a header. While both records are occupied the split stays: one that was
HELD there executes its word again, and meets the fault again, once the trap has been dealt with (R387). -/
def State.headerFaultAt (s : State) (i : Site) (word hdr : W64) (atHeader : Bool) (c : Cause) (cl : Option Clause) : State :=
  match s.group i.g, s.split i with
  | some g, some p =>
    let g1 := { g with splits := NMap.del g.splits i.split }
    match g1.enterRecord ⟨word, hdr, p.lanes, c, p.lanes, 1, p.code, 0, false, atHeader, cl⟩ with
    | (g2, true) => (s.noteCause i.g.core (((s.team i.g.core i.g.slot).map Team.tenant).getD 0) c).setGroup i.g (g2.normalise s.cycle)
    | (_, false) => s.modSplit i fun x => { x with held := x.held.map fun h => { h with conds := [] } }
  | _, _ => s

/-- A precise fault at a header (R99). -/
def State.headerFault (s : State) (i : Site) (p : Split) (c : Cause) (cl : Option Clause) : State := s.headerFaultAt i p.pc p.pc true c cl

/-- The event that a split at a header takes (R387): the oldest; a matrix fault only at its issuing split, or at any once that split
is gone (R338). -/
def Group.eventFor (g : Group) (split : Nat) : Option BEvent :=
  g.bevents.find? fun e => e.tile.isNone || e.split == split || (NMap.find g.splits e.split).isNone

/-- The matrix fault that a split held on a tile takes at its word (R338). -/
def Group.heldEvent (g : Group) (p : Split) : Option BEvent :=
  g.bevents.find? fun e => match e.tile, p.held with
    | some t, some h => h.conds.contains (.tileIdle t)
    | _, _ => false

/-- A matrix fault enters the records with the split that is held on the tile; the word executes again (R338). -/
def State.deliverHeld (s : State) (i : Site) (g : Group) (p : Split) (cl : Clause) (e : BEvent) : State :=
  let g1 := { g with splits := NMap.del g.splits i.split, bevents := removeFirst g.bevents e }
  let r : Record := ⟨p.heldWord, cl.addr, p.lanes, e.cause, 0, 2, p.code, e.info, false, false, p.heldClause⟩
  s.setGroup i.g ((g1.enterRecord r).1.normalise s.cycle)

/-- A B event enters the records with the split that begins a clause (R387). -/
def State.deliverEvent (s : State) (i : Site) (g : Group) (p : Split) (e : BEvent) : State :=
  let g1 := { g with splits := NMap.del g.splits i.split, bevents := removeFirst g.bevents e }
  let g2 := (g1.enterRecord ⟨p.pc, p.pc, p.lanes, e.cause, 0, 2, p.code, e.info, false, true, none⟩).1
  s.setGroup i.g (g2.normalise s.cycle)

/-- Debug reaches a core: a debug unlock holds and the core's world is not excluded (R403, R431). -/
def State.debugReach (s : State) (core : Nat) : Bool :=
  s.pkg.debugUnlocked && !(s.world (s.core core).world).excluded

/-- The breakpoint of a core that a header matches (R403). -/
def Core.breakpointAt (k : Core) (pc : W64) : Option Nat :=
  (k.breakpoints.find? fun b => b.2.getLsbD 0 && b.2 &&& ~~~7#64 == pc &&& ~~~7#64).map Prod.fst

/-- The chosen split begins its clause, or resumes it (R115, R125). One that was HELD at the last word of its clause comes to BOUND at the next header,
and is chosen again for that clause (log entry 136: the model's choice). -/
def State.begin_ (s : State) (i : Site) : State :=
  match s.team i.g.core i.g.slot, s.group i.g, s.split i with
  | some t, some g, some p =>
    match p.st, p.clause with
    | .held, some cl =>
      match g.heldEvent p, g.cur, g.mode == .handler with
      | some e, none, false => s.deliverHeld i g p cl e
      | _, _, _ =>
      let s0 := if (p.held.map Held.dropL1).getD false then s.acquireWide i.g else s
      if cl.count ≤ cl.next then s0.modGroup i.g fun g0 =>
        ({ g0 with splits := NMap.adjust g0.splits i.split fun x => { (x.toHeader cl.nextHeader .none_ s.cycle) with age := 0 } } : Group).normalise s.cycle
      else (s0.modSplit i fun x => { x with st := .issue, held := none, stall := 0, age := 0, eligible := false }).setCurrent i
    | .bound, _ =>
      match (if s.debugReach i.g.core && !p.dbgStep then (s.core i.g.core).breakpointAt p.pc else none) with
      | some b =>
        s.setGroup i.g ({ g.debugEvent .debugHalt (BitVec.ofNat 64 b) with halted := true }.normalise s.cycle)
      | none =>
        match g.eventFor i.split, g.cur, g.mode == .handler with
        | some e, none, false => s.deliverEvent i g p e
        | _, _, _ =>
          match s.headerHost i.g.core t g.code p with
          | some ln => s.callBack ln
          | none =>
          match headerCheck s i.g.core t g.code p with
          | (s1, .error (c, cl)) => s1.headerFault i p c cl
          | (s1, .ok cl) =>
            let s2 := s1.modGroup i.g fun g1 =>
              let g2 := if (decodeHeader cl.header).rwp then g1.passRewind p cl.addr (decodeHeader cl.header).recipe.toNat else g1
              let p2 := { p with clause := some cl, st := .issue, held := none, landing := .none_, age := 0, eligible := false, rotated := false, stall := 0 }
              { g2 with splits := NMap.set g2.splits i.split p2 }
            let s3 := (s2.setCurrent i).count i.g.core t.tenant 1 1
            match s3.group i.g with
            | some g3 =>
              -- a clause whose first word is the stopped word halts before it (R128)
              (match NMap.find g3.splits i.split with
                | some p3 =>
                  if g3.mustHalt p3 then
                    -- a step of the debug controller ends here (R403)
                    let s4 := s3.modGroup i.g fun g4 => if p.dbgStep then g4.haltScan.debugEvent .step 0 else g4.haltScan
                    s4.modCore i.g.core fun k => { k with quads := NMap.adjust k.quads (quadOf i.g.slot i.g.group) fun q => { q with current := none } }
                  else s3
                | none => s3)
            | none => s3
    | _, _ => s
  | _, _, _ => s

/-! The choice (R117). -/

/-- Every split of a quadrant: its site, team, group and split. -/
def State.quadSplits (s : State) (core q : Nat) : List (Site × Team × Group × Split) :=
  (s.core core).teams.flatMap fun st =>
    (st.2.groups.filter fun kg => quadOf st.1 kg.1 == q).flatMap fun kg =>
      kg.2.splits.map fun kp => (⟨⟨core, st.1, kg.1⟩, kp.1⟩, st.2, kg.2, kp.2)

/-- The group slot number that ties are decided by: team slot, then group (log entry 13). -/
def groupSlot (g : GroupId) : Nat := g.slot * 32 + g.group

/-- The first of a list by a measure that a strict order compares. -/
def firstBy {α : Type} (lt : α → α → Bool) : List α → Option α
  | [] => none
  | x :: r => match firstBy lt r with
    | none => some x
    | some y => if lt y x then some y else some x

/-- The split a quadrant chooses among the eligible ones (R117). -/
def chooseSplit (l : List (Site × Split)) : Option Site :=
  let aged := l.filter fun x => decide (4096 ≤ x.2.age)
  let agedLt := fun (a b : Site × Split) => decide (b.2.age < a.2.age) || (a.2.age == b.2.age &&
    (decide (groupSlot a.1.g < groupSlot b.1.g) || (groupSlot a.1.g == groupSlot b.1.g && decide (a.1.split < b.1.split))))
  match firstBy agedLt aged with
  | some x => some x.1
  | none =>
    let readyLt := fun (a b : Site × Split) => decide (a.2.ready < b.2.ready) || (a.2.ready == b.2.ready && decide (groupSlot a.1.g < groupSlot b.1.g))
    match firstBy readyLt l with
    | none => none
    | some x =>
      let mine := l.filter fun y => y.1.g == x.1.g
      let pcLt := fun (a b : Site × Split) => decide (a.2.place.toNat < b.2.place.toNat) || (a.2.place == b.2.place && decide (a.1.split < b.1.split))
      (firstBy pcLt mine).map Prod.fst

/-- A split after `n` cycles in which its eligibility has been `e` (R117): it takes the ready stamp in the cycle in which it becomes eligible, and
ages in those in which it stays so and is not chosen. -/
def Split.aged (p : Split) (e : Bool) (cycle n : Nat) : Split :=
  if !e then { p with eligible := false }
  else if p.eligible then { p with age := p.age + n }
  else { p with eligible := true, ready := cycle }

/-- The splits of a quadrant after `n` cycles. -/
def State.ageSplits (s : State) (core q n : Nat) : State :=
  (s.quadSplits core q).foldl (fun x a => x.modSplit a.1 fun p => p.aged (s.eligible a.1 a.2.1 a.2.2.1 a.2.2.2) s.cycle n) s

/-- Every split of the device after a cycle (R117). -/
def State.tickSplits (s : State) : State :=
  (NMap.keys s.cores).foldl (fun x c => (List.range 4).foldl (fun y q => y.ageSplits c q 1) x) s

/-- The eligible splits of a quadrant; a preference after YLD passes over the split that yielded while another is ready (R97). -/
def State.candidates (s : State) (core q : Nat) : List (Site × Split) :=
  let l := ((s.quadSplits core q).filter fun a => s.eligible a.1 a.2.1 a.2.2.1 a.2.2.2).map fun a => (a.1, a.2.2.2)
  match (NMap.getD (s.core core).quads q ⟨none, none⟩).prefer with
  | some i =>
    let o := l.filter fun x => x.1 != i
    if o.isEmpty then l else o
  | none => l

/-- QUADRANT_CHOICE (R115 to R117). -/
def State.quadrantChoice (s : State) (core q : Nat) : State :=
  if (s.issuing core q).isSome then s
  else
    let s1 := s.ageSplits core q 0
    match chooseSplit (s1.candidates core q) with
    | none => s1
    | some i => s1.begin_ i

/-- A quadrant of a core has a split to choose. -/
def State.quadReady (s : State) (core q : Nat) : Bool := !(s.candidates core q).isEmpty

end Sys2Proof.Machine
end

