-- ==== Sys2Proof/Machine/Loads.lean ====
section
/-! DEFINITION. The path of a load (spec/10, R220, R224, R236; spec/11, R252, R259): L1, the sector's copy, the home; reading at once where
nothing is in the way. -/
namespace Sys2Proof.Machine

/-- What a line read gives now. -/
inductive Got where
  | line (d : LineData) (tags : BitVec 8)
  | fault (c : Cause)
  | wait
  deriving DecidableEq, Repr

/-- The request of a core for a line waits at home, once. -/
def State.enqueue (s : State) (ln : Nat) (r : HomeReq) : State :=
  let e := s.dirAt ln
  if e.queue.contains r then s else s.joinQueue ln r

/-- The home answers a read now: nothing waits ahead of it, no engine, host or draining holder is in the way (R294, R285). -/
def DirEntry.answersNow (e : DirEntry) : Bool :=
  e.queue.isEmpty && (match e.st with
    | .excl => !e.hg
    | .modified => !e.eg && !e.dr
    | .owned => false
    | _ => true)

/-- A core reads a line at its copy or its home (R223, R224); `wait`: the request stands in the home's queue. -/
def State.readSlice (s : State) (core tenant ln : Nat) : State × Got :=
  if s.hostBlocked tenant ln then (s, .fault .hostAbort)
  else
    let fill := fun (x : State) (b : LineData × BitVec 8) => x.modCore core fun k => k.l1Fill ln ⟨b.1, b.2, s.cycle⟩
    if (s.copiesAt ln).getLsbD (siteOf core ln) && !s.noCache core ln then
      let b := s.visibleLine ln
      (fill s b, .line b.1 b.2)
    else if isHostLine ln then
      let b := (s.lineData ln, s.lineTags ln)
      match s.lineFault ln with
      | some c => (s, .fault c)
      | none => (s.reply core ln b, .line b.1 b.2)
    else if (s.dirAt ln).answersNow && !s.frozen ln then
      match s.lineFault ln with
      | some c => (s, .fault c)
      | none =>
        let b := (s.lineData ln, s.lineTags ln)
        (((s.charge tenant core ln).reply core ln b).count core tenant 8 1, .line b.1 b.2)
    else
      let e := s.dirAt ln
      let s1 := s.enqueue ln (.read core)
      (if e.queue.isEmpty then s1.homeServe ln 2 else s1, .wait)

/-- A load of a group reads a line: its core's L1 if the line was filled after every load that the group has seen return
(R282; log entry 10), else the slice. With `fresh`, an sc load at cluster scope or wider, an L1 line that may be older than the total order allows is
passed by (R258; log entry 130). -/
def State.readLine (s : State) (g : GroupId) (tenant ln : Nat) (fresh : Bool := false) : State × Got :=
  let last := ((s.group g).map Group.lastReturn).getD 0
  match NMap.find (s.core g.core).l1 ln with
  | some x => if last ≤ x.filled && !fresh then (s, .line x.data x.tags) else s.readSlice g.core tenant ln
  | none => (s.count g.core tenant 7 1).readSlice g.core tenant ln

/-- A racq reads a line at its home (R259). -/
def State.readNewLine (s : State) (g : GroupId) (tenant id ln : Nat) : State × Got :=
  if s.hostBlocked tenant ln then (s, .fault .hostAbort)
  else
    let e := s.dirAt ln
    let remote := e.rp && e.holder != g.core
    if isHostLine ln || (e.answersNow && !remote && !s.frozen ln) then
      match s.lineFault ln with
      | some c => (s, .fault c)
      | none =>
        let s1 := s.charge tenant g.core ln
        (if isHostLine ln then s1 else s1.count g.core tenant 8 1, .line (s.lineData ln) (s.lineTags ln))
    else
      let s1 := s.enqueue ln (.readNew g id)
      (if e.queue.isEmpty then s1.homeServe ln 2 else s1, .wait)

/-- A store of the group that is not accepted yet covers the VA line (R236): its number. -/
def State.ownStore (s : State) (g : GroupId) (vline : Nat) : Option Nat :=
  ((s.core g.core).waiting.find? fun w => w.g == g && w.pieces.any fun p => p.va == vline).map WaitingStore.id

/-- What an access of the group to a VA line waits for: its own stores that are not accepted yet (R236), and its own atomics of the line that
have not been performed (R278). -/
def State.ownWaits (s : State) (g : GroupId) (vline : Nat) : List Cond :=
  ((s.ownStore g vline).map Cond.accepted).toList
    ++ (((s.group g).bind fun x => x.ownAtom s.freshId [vline]).map Cond.lateDone).toList

/-- What a load waits for besides: an earlier load of the group from the line that has not returned, `id` being the load's own number (R278). -/
def State.loadWaits (s : State) (g : GroupId) (id vline pline : Nat) : List Cond :=
  (((s.group g).bind fun x => x.ownLoad id [vline] [pline]).map Cond.lateDone).toList

/-- What a small load gives at once: its number and granule tag. -/
inductive Small where
  | ok (v : Nat) (tag : Bool)
  | fault (c : Cause)
  | wait
  deriving DecidableEq, Repr

/-- The load that a word performs within itself: an aligned access of at most 16 bytes, LD rlx grp (R131). -/
def State.loadNow (s : State) (g : GroupId) (tenant : Nat) (va : W64) (n : Nat) : State × Small :=
  match s.pageHost g.core tenant va .load with
  | some ln => (s.callBack ln, .wait)
  | none =>
  match translate s g.core tenant va .load with
  | (s1, .error c) => (s1, .fault c)
  | (s1, .ok (.mem pa)) =>
    let k := s1.core g.core
    if !(s1.ownWaits g (va.toNat / 128)).isEmpty || !(s1.loadWaits g s1.freshId (va.toNat / 128) (pa / 128)).isEmpty then (s1, .wait)
    else
      let hs := (List.range n).map fun j => k.hearthByte (va + BitVec.ofNat 64 j)
      let ht := k.hearthTag (va &&& ~~~15#64)
      let out := fun (d : LineData) (tags : BitVec 8) =>
        Small.ok (leNat (hs.zipIdx.map fun hi => hi.1.getD (lineByte d (pa % 128 + hi.2)))) (!isHostLine (pa / 128) && ht.getD (tags.getLsbD (pa % 128 / 16)))
      if hs.all Option.isSome then (s1, out 0 0)
      else match s1.readLine g tenant (pa / 128) with
        | (s2, .line d tags) => (s2, out d tags)
        | (s2, .fault c) => (s2, .fault c)
        | (s2, .wait) => (s2, .wait)
  | (s1, .ok _) => (s1, .fault .align)

/-! The words a load puts into its registers (R253, R264). -/

/-- The words of a loaded value: sizes 0 and 1 are extended, by sign under I32; a record is its elements, then its scale. -/
def loadWords (size : Nat) (t : FTag) (v : Nat) : List W32 :=
  match size with
  | 0 => [if t == .i32 then (sext 8 v).setWidth 32 else BitVec.ofNat 32 (v % 2 ^ 8)]
  | 1 => [if t == .i32 then (sext 16 v).setWidth 32 else BitVec.ofNat 32 (v % 2 ^ 16)]
  | 2 => [BitVec.ofNat 32 v]
  | 3 => splitWords 2 v
  | 4 => splitWords 4 v
  | _ => match recordShape t with
    | some (_, k) => splitWords k (v / 256) ++ [BitVec.ofNat 32 (v % 256)]
    | none => []

end Sys2Proof.Machine
end

