-- ==== Sys2Proof/Machine/Control.lean ====
section
/-! DEFINITION. The control instructions (spec/06, R130 to R146; spec/20, R391): branches, indexed transfers, calls, returns, EXIT, YIELD,
barriers, PWAIT, SPLITS, TRAP, BKPT and ERET. -/
namespace Sys2Proof.Machine

/-- A branch target (R17, R134): h + 8 x SignExtend(OFF, 32). -/
def Ctx.target (c : Ctx) (off : BitVec 32) : W64 := c.cl.addr + 8 * sext 32 off.toNat

/-- A direct transfer of the whole split: the code capability stays, and nothing is checked at the target (R98, R132). -/
def Ctx.goTo (c : Ctx) (s : State) (pc : W64) : WordOut := .taken (c.transfer s pc c.p.code .none_) []

/-- The clause runs on. -/
def goOn (s : State) : WordOut := .done s []

/-- NOP (R135). -/
def execNop (s : State) : Host.Outcome State Fault Refusal := runWord false 0 (fun _ s => goOn s) s

/-- BRA (R136). -/
def execBra (off : BitVec 32) (s : State) : Host.Outcome State Fault Refusal := runWord false 0 (fun c s => c.goTo s (c.target off)) s

/-- A branch that is taken when a test of a scalar holds (R136). -/
def branchIf (a : SReg) (off : BitVec 32) (test : Ctx → W64 → Bool) (c : Ctx) (s : State) : WordOut :=
  guardW (c.checkScalars [a.toNat]) c 0 s (if test c (c.g.s a.toNat) then c.goTo s (c.target off) else goOn s)

/-- BRZ (R136). -/
def execBrz (a : SReg) (off : BitVec 32) (s : State) : Host.Outcome State Fault Refusal :=
  runWord false 0 (branchIf a off fun _ v => v == 0) s

/-- BRNZ (R136). -/
def execBrnz (a : SReg) (off : BitVec 32) (s : State) : Host.Outcome State Fault Refusal :=
  runWord false 0 (branchIf a off fun _ v => v != 0) s

/-- MSKIP (R136): taken when no lane of the split is in the mask. -/
def execMskip (a : SReg) (off : BitVec 32) (s : State) : Host.Outcome State Fault Refusal :=
  runWord false 0 (branchIf a off fun c v => v &&& c.p.lanes == 0) s

/-- BRV (R137, R126): the lanes of T branch; the others stay in the clause. -/
def brvWord (a : SReg) (off : BitVec 32) (c : Ctx) (s : State) : WordOut :=
  guardW (c.checkScalars [a.toNat]) c 0 s <|
    let t := c.g.s a.toNat &&& c.p.lanes
    if t == 0 then goOn s
    else if t == c.p.lanes then c.goTo s (c.target off)
    else
      let s1 := s.modGroup c.gid fun g =>
        let g1 := { g with splits := NMap.adjust g.splits c.site.split fun p => { p with lanes := p.lanes &&& ~~~t } }
        g1.placeDests s.cycle g.halted [⟨t, c.target off, c.p.code, .none_⟩]
      .done (s1.count c.core c.team.tenant 4 1) []

def execBrv (a : SReg) (off : BitVec 32) (s : State) : Host.Outcome State Fault Refusal := runWord false 0 (brvWord a off) s

/-! Indexed transfers (R131, R138). -/

/-- A table entry's outcome: a target, a fault with its tinfo, or a wait for the table's line. -/
inductive TableOut where
  | target (pc : W64) (landing : Landing) (code : Cap)
  | fault (c : Cause) (info : W64)
  | wait
  deriving DecidableEq, Repr

/-- TableTarget (R131). -/
def tableTarget (s : State) (c : Ctx) (tab : Cap) (i : W64) (form1 : Bool) : State × TableOut :=
  let z := if form1 then 16 else 8
  let need := if form1 then permLD + permLC else permLD
  let a := tab.addr + BitVec.ofNat 64 z * i
  if tab.tag && tab.kind == 0 && decide ((capDecode tab).2 < tab.addr.toNat + z * (i.toNat + 1)) then (s, .fault .tableBound a)
  else match capCheck tab a z need with
    | some f => (s, .fault (if f == .capBounds then .tableBound else f) a)
    | none =>
      if a.toNat % z ≠ 0 then (s, .fault .align a)
      else match s.loadNow c.gid c.team.tenant a z with
        | (s1, .fault f) => (s1, .fault f a)
        | (s1, .wait) => (s1, .wait)
        | (s1, .ok v tag) =>
          if form1 then
            let e : Cap := ⟨BitVec.ofNat 128 v, tag⟩
            if !e.tag then (s1, .fault .capTag a)
            else if e.kind ≠ 2 then (s1, .fault .capKind a)
            else if e.addr.toNat % 8 ≠ 0 then (s1, .fault .align a)
            else (s1, .target e.addr .entry (e.setBits 126 2 0))
          else if bitsOf v 44 20 ≠ 0 then (s1, .fault .landingPad a)
          else (s1, .target (c.p.code.addr + 8 * sext 32 v) (.label (BitVec.ofNat 12 (bitsOf v 32 12))) c.p.code)

/-- The hold of a word that executes again when it is next chosen. -/
def holdAgain (cs : List Cond) : Held := ⟨cs, true, false⟩

/-- The uniform indexed transfers: `f` is what a CALLT writes before the transfer (R138). A word whose table's line is away is HELD with no recorded
condition and executes again when its split is next chosen (log entry 135: the model's choice). -/
def tableWord (a b : SReg) (form1 : Bool) (dsts : List Nat) (f : Ctx → Group → Group) (c : Ctx) (s : State) : WordOut :=
  if a.toNat % 2 ≠ 0 then .trap s .regAlign 0 c.p.lanes
  else guardW (c.checkScalars (pairRegs a.toNat ++ b.toNat :: dsts)) c 0 s <|
    match tableTarget s c (c.g.sc a.toNat) (c.g.s b.toNat) form1 with
    | (s1, .fault f info) => .trap s1 f info c.p.lanes
    | (s1, .wait) => .hold s1 (holdAgain []) []
    | (s1, .target pc ld code) => .taken (c.transfer (s1.modGroup c.gid (f c)) pc code ld) []

/-- The link address (R133): the header that follows the calling clause. -/
def Ctx.link (c : Ctx) : W64 := c.cl.nextHeader

/-- JMPT, form 0 (R138). -/
def execJmpt (a b : SReg) (s : State) : Host.Outcome State Fault Refusal := runWord false 0 (tableWord a b false [] fun _ g => g) s

/-- JMPT.c, form 1 (R138). -/
def execJmptC (a b : SReg) (s : State) : Host.Outcome State Fault Refusal := runWord false 0 (tableWord a b true [] fun _ g => g) s

/-- CALLT, form 0 (R138): S[126] := link. -/
def execCallt (a b : SReg) (s : State) : Host.Outcome State Fault Refusal :=
  runWord false 0 (tableWord a b false [126] fun c g => g.setS 126 c.link) s

/-- CALLT.c, form 1 (R138, R133): S[126] := link, SC[124] := the caller's code capability sealed at the link. -/
def execCalltC (a b : SReg) (s : State) : Host.Outcome State Fault Refusal :=
  runWord false 0 (tableWord a b true [126, 124, 125] fun c g =>
    (g.setS 126 c.link).setSc 124 { ((c.p.code.setAddr c.link).setBits 126 2 2) with tag := true }) s

/-- The per-lane targets of a vector transfer: the state, the targets in lane order, the faults, and whether a lane must wait. -/
structure LaneTargets where
  s : State
  dests : List Dest
  faults : List LaneFault
  wait : Bool

/-- Folds the lanes of a split over a lane's target. -/
def laneTargets (s : State) (ls : List Nat) (f : State → Nat → State × TableOut) : LaneTargets :=
  ls.foldl (fun acc l =>
    match f acc.s l with
    | (s1, .target pc ld code) => { acc with s := s1, dests := addDest acc.dests l pc code ld }
    | (s1, .fault c info) => { acc with s := s1, faults := acc.faults ++ [(l, c, info)] }
    | (s1, .wait) => { acc with s := s1, wait := true }) ⟨s, [], [], false⟩

/-- One lane's entry of JMPTV and CALLTV: the index register may lie outside its window (R104, R138). -/
def laneTable (c : Ctx) (tab : Cap) (idx : VField) (s : State) (l : Nat) : State × TableOut :=
  match c.regAt idx 1 l with
  | none => (s, .fault .indexWindow 0)
  | some r => tableTarget s c tab ((c.g.lane r l).setWidth 64) false

/-- JMPTV (R138, R126). -/
def jmptvWord (a : SReg) (idx : VField) (wi : Bool) (c : Ctx) (s : State) : WordOut :=
  let ls := lanesOf c.width c.p.lanes
  if a.toNat % 2 ≠ 0 then .trap s .regAlign 0 c.p.lanes
  else guardW (c.placed [(idx, 1)]) c 0 s <| guardW (c.checkScalars (pairRegs a.toNat)) c 0 s <|
    match c.checkBits ls [⟨idx, wi, some 1⟩] with
    | .error e => e.out s c.p.lanes
    | .ok _ =>
      let r := laneTargets s ls (laneTable c (c.g.sc a.toNat) idx)
      if r.wait then .hold r.s (holdAgain []) []
      else .taken (c.divide r.s r.dests) r.faults

def execJmptv (a : SReg) (idx : VField) (wi : Bool) (s : State) : Host.Outcome State Fault Refusal := runWord false 0 (jmptvWord a idx wi) s

/-- CALLTV (R138): the link goes into every lane of the split that did not fault. -/
def calltvWord (a : SReg) (idx : VField) (wi : Bool) (link : VField) (c : Ctx) (s : State) : WordOut :=
  let ls := lanesOf c.width c.p.lanes
  if a.toNat % 2 ≠ 0 then .trap s .regAlign 0 c.p.lanes
  else guardW (c.placed [(link, 2), (idx, 1)]) c 0 s <| guardW (c.checkDst ls link 2) c 0 s <| guardW (c.checkScalars (pairRegs a.toNat)) c 0 s <|
    match c.checkBits ls [⟨idx, wi, some 1⟩] with
    | .error e => e.out s c.p.lanes
    | .ok _ =>
      let r := laneTargets s ls (laneTable c (c.g.sc a.toNat) idx)
      if r.wait then .hold r.s (holdAgain []) []
      else
        let good := ls.filter fun l => !r.faults.any fun f => f.1 == l
        let ws := good.flatMap fun l => laneWrites link.toNat 2 l c.link.toNat
        let s1 := r.s.modGroup c.gid fun g => if good.isEmpty then g else g.writeResult ws [link.toNat, link.toNat + 1] .n64
        .taken (c.divide s1 r.dests) r.faults

def execCalltv (a : SReg) (idx : VField) (wi : Bool) (link : VField) (s : State) : Host.Outcome State Fault Refusal :=
  runWord false 0 (calltvWord a idx wi link) s

/-- CALL (R139). -/
def execCall (off : BitVec 32) (s : State) : Host.Outcome State Fault Refusal :=
  runWord false 0 (fun c s => guardW (c.checkScalars [126]) c 0 s
    (c.goTo (s.modGroup c.gid fun g => g.setS 126 c.link) (c.target off))) s

/-- RET with X = 0 (R140). -/
def retWord (a : SReg) (c : Ctx) (s : State) : WordOut :=
  guardW (c.checkScalars [a.toNat]) c 0 s <|
    let v := c.g.s a.toNat
    if v.toNat % 8 ≠ 0 then .trap s .align v c.p.lanes else c.goTo s v

def execRet (a : SReg) (s : State) : Host.Outcome State Fault Refusal := runWord false 0 (retWord a) s

/-- RET with X = 1 (R140): sc124 gives the code capability and the PC. -/
def retXWord (c : Ctx) (s : State) : WordOut :=
  guardW (c.checkScalars [124, 125]) c 0 s <|
    let k := c.g.sc 124
    if !k.tag then .trap s .capTag k.addr c.p.lanes
    else if k.kind ≠ 2 then .trap s .capKind k.addr c.p.lanes
    else .taken (c.transfer s k.addr (k.setBits 126 2 0) .none_) []

def execRetX (s : State) : Host.Outcome State Fault Refusal := runWord false 0 retXWord s

/-- RETV (R140): each lane's link decides its target; a misaligned link faults its lane. -/
def retvWord (link : VField) (wl : Bool) (c : Ctx) (s : State) : WordOut :=
  let ls := lanesOf c.width c.p.lanes
  match c.checkSrcs ls [⟨link, wl, some 2⟩] with
  | .error e => e.out s c.p.lanes
  | .ok _ =>
    let r := laneTargets s ls fun s l =>
      let v : W64 := BitVec.ofNat 64 (c.read link.toNat 2 l)
      if v.toNat % 8 ≠ 0 then (s, .fault .align v) else (s, .target v .none_ c.p.code)
    .taken (c.divide r.s r.dests) r.faults

def execRetv (link : VField) (wl : Bool) (s : State) : Host.Outcome State Fault Refusal := runWord false 0 (retvWord link wl) s

/-! Barriers (R143, R144). -/

/-- The COUNT of a whole group at a barrier: every lane of its splits and its overflow set is HELD at a BAR of one number (R143); a split of a
generation before `passed`, to which the group has been released, is not at the barrier any more. Where splits of the group stand at words with different
COUNT, the lowest split slot's is taken (log entry 124). A group in handler mode or with a stopped record has not arrived (log entry 137: the model's
choice). -/
def Group.atBarrier (g : Group) (n passed : Nat) : Option Nat :=
  if g.overflow.isEmpty && !g.splits.isEmpty && g.stopped.isNone && g.mode != .handler then
    let cs := g.splits.map fun kp => if kp.2.st == .held then ((kp.2.held.map Held.conds).getD []).findSome? fun c => match c with
        | .barrier m gen count => if m = n ∧ passed ≤ gen then some count else none
        | _ => none
      else none
    if cs.all Option.isSome then cs.headD none else none
  else none

/-- Loads and value-returning atomics of a group that have not returned. -/
def Group.openLates (g : Group) : Bool := g.lates.any fun l => match l.kind with | .filled => false | .launch .. => false | .rtchk _ => false | _ => true

/-- The groups of a team that have not exited. -/
def Team.live (t : Team) : List Nat := (t.groups.filter fun kg => !kg.2.hasExited).map Prod.fst

/-- The waits before an arrival counts: p0 = 0 and a release at core scope (R143). -/
def Group.barReady (g : Group) : Bool := g.p 0 == 0 && g.p 2 == 0 && !g.openLates

/-- One group's arrival at a barrier, and the release when the number is reached. -/
def Team.arriveBar (t : Team) (n gi : Nat) : Team :=
  match NMap.find t.groups gi with
  | none => t
  | some g =>
    let b := NMap.getD t.barriers n .fresh
    match g.atBarrier n (NMap.getD b.passed gi 0) with
    | none => t
    | some count =>
      if b.arrived.contains gi || !g.barReady then t
      else { t with barriers := NMap.set t.barriers n { b with arrived := b.arrived ++ [gi], expected := if b.arrived.isEmpty then count else b.expected } }

/-- The arrivals have reached the expected number: every arrived group is released, and a new generation begins (R143). -/
def Team.releaseBar (t : Team) (n : Nat) : Team :=
  let b := NMap.getD t.barriers n .fresh
  let want := if b.expected = 0 then t.live.length else b.expected
  if b.arrived.isEmpty || b.arrived.length < want then t else { t with
    barriers := NMap.set t.barriers n ⟨b.gen + 1, 0, [], b.arrived.foldl (fun m g => NMap.set m g (b.gen + 1)) b.passed⟩ }

/-- Every arrival and release of a team's barriers that can happen now. -/
def Team.settleBars (t : Team) : Team :=
  (List.range 16).foldl (fun t1 n => ((t1.groups.foldl (fun t2 kg => t2.arriveBar n kg.1) t1)).releaseBar n) t

/-- The team's barriers, with the release at core scope that an arrival makes: later stores merge into no earlier entry (R260). -/
def State.settleBarriers (s : State) (core slot : Nat) : State :=
  match s.team core slot with
  | none => s
  | some t =>
    let t1 := t.settleBars
    if t1.barriers == t.barriers then s
    else (s.setTeam core slot t1).modCore core fun k => { k with rseq := k.seqNext }

/-- BAR (R143). -/
def barWord (n : BitVec 4) (count : BitVec 6) (c : Ctx) (s : State) : WordOut :=
  let gen := (NMap.getD c.team.barriers n.toNat .fresh).gen
  .hold s ⟨[.barrier n.toNat gen count.toNat], false, false⟩ []

def execBar (n : BitVec 4) (count : BitVec 6) (s : State) : Host.Outcome State Fault Refusal :=
  match runWord false 0 (barWord n count) s with
  | .next s1 => .next (match s.issuer with | some c => s1.settleBarriers c.core c.gid.slot | none => s1)
  | x => x

/-- A group HELD as a whole at BARR for the generation `cur`: the stamp its release at cluster scope waits for, `none` before that release is
made. -/
def Group.atRickBarrier (g : Group) (cur : Nat) : Option (Option Nat) :=
  if g.overflow.isEmpty && !g.splits.isEmpty && g.stopped.isNone && g.mode != .handler
      && g.splits.all fun kp => kp.2.st == .held && ((kp.2.held.map Held.conds).getD []).any fun c => match c with | .rickBarrier gen => gen == cur | _ => false then
    some ((g.splits.findSome? fun kp => ((kp.2.held.map Held.conds).getD []).findSome? fun c => match c with | .olderGone st => some st | _ => none))
  else none

/-- The teams of a team's rick: core and slot (R79, R144). -/
def State.rickTeams (s : State) (t : Team) : List (Nat × Nat) :=
  s.cores.flatMap fun kc => (kc.2.teams.filter fun st =>
    !st.2.killed && st.2.grid == t.grid && st.2.index / (max 1 t.rick) == t.index / (max 1 t.rick) && st.2.tenant == t.tenant).map fun st => (kc.1, st.1)

/-- The team has arrived: every group of it that has not exited has (R144). -/
def Team.rickArrived (t : Team) : Bool := t.live.all fun g => t.barr.arrived.contains g

/-- One group's part of BARR: the release at cluster scope once p0, p1 and p2 are 0 and its loads are back, then the arrival once the
older entries are FREE (R144, R260). -/
def State.arriveRick (s : State) (gi : GroupId) : State :=
  match s.team gi.core gi.slot, s.group gi with
  | some t, some g =>
    if t.barr.arrived.contains gi.group then s
    else match g.atRickBarrier t.barr.gen with
      | none => s
      | some none =>
        if g.barReady && g.p 1 == 0 then
          let st := (s.core gi.core).seqNext
          let s1 := s.releaseFenceAt gi.core 2
          s1.modGroup gi fun g => { g with splits := g.splits.map fun kp => (kp.1, { kp.2 with held := kp.2.held.map fun h => { h with conds := h.conds ++ [.olderGone st] } }) }
        else s
      | some (some st) =>
        if (s.core gi.core).hearth.all fun ie => decide (st ≤ ie.2.stamp) then
          s.modTeam gi.core gi.slot fun t => { t with barr := { t.barr with arrived := t.barr.arrived ++ [gi.group] } }
        else s
  | _, _ => s

/-- Every group of a team makes an acquire at cluster scope (R144). -/
def State.acquireTeam (s : State) (core slot : Nat) : State :=
  match s.team core slot with
  | none => s
  | some t => t.groups.foldl (fun x kg => x.acquireWide ⟨core, slot, kg.1⟩) s

/-- The rick is released when every team of it has arrived: each with an acquire at cluster scope (R144). -/
def State.releaseRick (s : State) (core slot : Nat) : State :=
  match s.team core slot with
  | none => s
  | some t =>
    let ts := s.rickTeams t
    let all := ts.all fun cs => match s.team cs.1 cs.2 with | some x => x.rickArrived | none => true
    let some_ := ts.any fun cs => match s.team cs.1 cs.2 with | some x => !x.barr.arrived.isEmpty | none => false
    let banked := s.images.any fun x => x.2.team.grid == t.grid && x.2.team.tenant == t.tenant && x.2.team.index / (max 1 t.rick) == t.index / (max 1 t.rick)
    if all && some_ && !banked then
      ts.foldl (fun x cs => (x.modTeam cs.1 cs.2 fun t => { t with barr := ⟨t.barr.gen + 1, 0, [], []⟩ }).acquireTeam cs.1 cs.2) s
    else s

/-- Every arrival at the rick barrier of a team that can happen now, and the release. -/
def State.settleRick (s : State) (core slot : Nat) : State :=
  match s.team core slot with
  | none => s
  | some t =>
    let s1 := t.groups.foldl (fun x kg => x.arriveRick ⟨core, slot, kg.1⟩) s
    let s2 := t.groups.foldl (fun x kg => x.arriveRick ⟨core, slot, kg.1⟩) s1
    s2.releaseRick core slot

/-- BARR (R144). -/
def barrWord (c : Ctx) (s : State) : WordOut := .hold s ⟨[.rickBarrier c.team.barr.gen], false, false⟩ []

def execBarr (s : State) : Host.Outcome State Fault Refusal :=
  match runWord false 0 barrWord s with
  | .next s1 => .next (match s.issuer with | some c => s1.settleRick c.core c.gid.slot | none => s1)
  | x => x

/-- A group's exit counts at the barriers of its team and of its rick (R141, R143). -/
def State.afterExit (s : State) (core slot : Nat) : State := (s.settleBarriers core slot).settleRick core slot

/-! EXIT, YIELD, PWAIT, SPLITS. -/

/-- EXIT (R141): the lanes of the split end; when the last handler lane has exited the stopped record is discarded (R391). -/
def exitWord (c : Ctx) (s : State) : WordOut :=
  let s1 := s.modGroup c.gid fun g => { g with splits := NMap.del g.splits c.site.split, exited := g.exited ||| c.p.lanes }
  match s1.group c.gid with
  | some g =>
    if g.mode == .handler && g.splits.isEmpty && g.overflow.isEmpty && g.nested.isNone && g.nestedPending.isNone then
      .taken (s1.returnFromHandler c.gid 0 .retry) []
    else .taken s1 []
  | none => .taken s1 []

/-- The boundary events that a group has not taken when it exits: a refusal is an event of KIND 3 of the grid (R368), a matrix fault an orphan's
(R345); others have been reported where they arose and end here (log entry 143). -/
def State.exitEvents (s : State) (i : GroupId) : State :=
  match s.team i.core i.slot, s.group i with
  | some t, some g =>
    if !g.hasExited then s
    else g.bevents.foldl (fun x e =>
      if e.tile.isSome then x.gridEvent t.grid t.index 4 Cause.orphanEngine.code 0 e.word
      else if e.cause == .ringFormat || e.cause == .drainFault then x
      else x.gridEvent t.grid t.index 3 e.cause.code 0 0) (s.setGroup i { g with bevents := [] })
  | _, _ => s

def execExit (s : State) : Host.Outcome State Fault Refusal :=
  match runWord false 0 exitWord s with
  | .next s1 => .next (match s.issuer with | some c => (s1.exitEvents c.gid).afterExit c.core c.gid.slot | none => s1)
  | x => x

/-- YIELD (R142): the split goes to the next header with a new ready stamp and its ageing counter. -/
def execYield (s : State) : Host.Outcome State Fault Refusal :=
  runWord false 0 (fun c s => .taken ((c.transfer s c.cl.nextHeader c.p.code .none_).modSplit c.site fun p => { p with eligible := true }) []) s

/-- PWAIT (R145). -/
def execPwait (n : BitVec 3) (k : BitVec 4) (s : State) : Host.Outcome State Fault Refusal :=
  runWord false 0 (fun _ s => .hold s ⟨[.pLe n.toNat k.toNat], false, false⟩ []) s

/-- The values of SPLITS (R146). -/
def splitsValue (c : Ctx) (var : Nat) : W64 :=
  match var with
  | 0 => c.p.lanes
  | 1 => BitVec.ofNat 64 (c.g.nsplits + c.site.split * 8 + (if c.g.overflow.isEmpty then 0 else 32) + (if c.g.stopped.isSome then 64 else 0)
      + (if c.g.pending.isSome then 128 else 0))
  | 2 => c.g.overflow.foldl (fun m o => m ||| o.lanes) 0
  | _ => (c.g.stopped.map Record.lanes).getD 0

/-- SPLITS (R146). -/
def execSplits (d : SReg) (var : BitVec 2) (s : State) : Host.Outcome State Fault Refusal :=
  runWord false 0 (fun c s => guardW (c.checkScalars [d.toNat]) c 0 s
    (goOn (s.modGroup c.gid fun g => g.setS d.toNat (splitsValue c var.toNat)))) s

/-! TRAP, BKPT, ERET (R391). -/

/-- TRAP (R391): TRAP_INSN for ACTIVE, with the code in tinfo; an empty ACTIVE is a no-op. -/
def execTrap (code : BitVec 16) (m : MField) (s : State) : Host.Outcome State Fault Refusal :=
  runWord false m (fun c s => guardW (c.checkScalars [m.toNat]) c m s
    (if c.active m == 0 then goOn s else .trap s .trapInsn (code.setWidth 64) (c.active m))) s

/-- BKPT (R391, R386): to the debug controller while a debug session holds the group. -/
def bkptWord (m : MField) (c : Ctx) (s : State) : WordOut :=
  guardW (c.checkScalars [m.toNat]) c m s <|
    if c.active m == 0 then goOn s
    else if c.g.halted || s.debugReach c.core then .debug s .bkpt
    else .trap s .bkpt 0 (c.active m)

def execBkpt (m : MField) (s : State) : Host.Outcome State Fault Refusal := runWord false m (bkptWord m) s

/-- The issuing split holds every handler lane that has not exited (R391). -/
def Ctx.handlerWhole (c : Ctx) : Bool :=
  c.g.overflow.isEmpty && decide (c.g.splits.length ≤ 1) && c.g.nested.isNone && c.g.nestedPending.isNone

/-- ERET (R391): PRIVILEGE outside handler mode and recipes; a recipe ends with VAR 0 alone, and goes to rwpc (R401). -/
def eretWord (var : Nat) (c : Ctx) (s : State) : WordOut :=
  match c.g.mode with
  | .normal => .trap s .privilege 0 c.p.lanes
  | .recipe =>
    if var ≠ 0 then .trap s .reservedField 0 c.p.lanes
    else
      let s1 := s.modGroup c.gid fun g => { g with mode := .normal }
      .taken (c.transfer s1 (c.g.sp.rwpc &&& ~~~7#64) c.team.codeCap .none_) []
  | .handler =>
    if !c.handlerWhole then .hold s (holdAgain [.handlerMerged]) []
    else match var with
      | 0 => .taken (s.returnFromHandler c.gid c.p.lanes .retry) []
      | 1 => .taken (s.returnFromHandler c.gid c.p.lanes .skip) []
      | _ => .taken (s.continueFromHandler c.gid c.p.lanes c.cl.nextHeader c.p.code) []

/-- ERET, VAR 0 RETRY. -/
def execEret (s : State) : Host.Outcome State Fault Refusal := runWord false 0 (eretWord 0) s
/-- ERET, VAR 1 SKIP. -/
def execEretSkip (s : State) : Host.Outcome State Fault Refusal := runWord false 0 (eretWord 1) s
/-- ERET, VAR 2 CONT. -/
def execEretCont (s : State) : Host.Outcome State Fault Refusal := runWord false 0 (eretWord 2) s

/-- A word whose opcode its class does not define (R108, R112 step 1). -/
def execIllegalOp (cls : BitVec 4) (word : W64) (s : State) : Host.Outcome State Fault Refusal :=
  let _ := (cls, word)
  runWord false 0 (fun c s => .trap s .illegalOp 0 c.p.lanes) s

end Sys2Proof.Machine
end

