-- ==== Sys2Proof/Machine/Vector.lean ====
section
/-! DEFINITION. What the VALU and VBIT words share (spec/09, R187 to R190): sources, result tag, elements, flags and their traps. -/
namespace Sys2Proof.Machine

/-- One lane's result: lane, first destination register, bits, flags. -/
structure LaneOut where
  lane : Nat
  base : Nat
  bits : Nat
  flags : Nat
  deriving DecidableEq, Repr

/-- What a word does once its tags are known: the result tag, and a lane's result from its number, its sources and the destination's old bits. -/
structure VPlan where
  rtag : FTag
  f : Nat → List Nat → Nat → Rounded

/-- No lane can resolve an indexed source: every active lane faults, or none is active (R104). -/
def Ctx.unresolved (c : Ctx) (ls : List Nat) (srcs : List Src) : Bool := srcs.any fun x => (c.touched x.f 1 ls).isEmpty

/-- The lanes' results and the lanes that fault with INDEX_WINDOW (R104). -/
def Ctx.compute (c : Ctx) (ls : List Nat) (ops : List (VField × Nat)) (d : VField) (p : VPlan) : List LaneOut × List LaneFault :=
  let n := p.rtag.regs
  ls.foldl (fun acc l =>
    match c.resolve l ops, c.regAt d n l with
    | some bs, some b =>
      let r := p.f l ((bs.zip ops).map fun x => c.read x.1 x.2.2 l) (c.read b n l)
      (acc.1 ++ [⟨l, b, r.bits, r.flags⟩], acc.2)
    | _, _ => (acc.1, acc.2 ++ [(l, .indexWindow, 0)])) ([], [])

/-- The registers a result makes full: a direct destination's, or those that some lane writes (R104). -/
def destRegs (d : VField) (n : Nat) (rs : List LaneOut) : List Nat :=
  ((if d.toNat < 1536 then [d.toNat] else rs.map LaneOut.base).flatMap fun r => (List.range n).map fun j => r + j).dedup

/-- Writes a vector result and its flags: an enabled exception traps first, before anything is written (R184, R185, R187). -/
def vectorResult (c : Ctx) (s : State) (m : MField) (d : VField) (n : Nat) (t : FTag) (rs : List LaneOut) (fs : List LaneFault) : WordOut :=
  match fpTrap c.g.sp.fpctl (rs.map fun r => (r.lane, r.flags)) with
  | some (cause, flm) => .trap s cause 0 flm
  | none =>
    let _ := m
    let ws := rs.flatMap fun r => laneWrites r.base n r.lane r.bits
    .done (s.modGroup c.gid fun g => (g.writeResult ws (destRegs d n rs) t).raise (allFlags (rs.map fun r => (r.lane, r.flags)))) fs

/-- The registers of the destination that a plan gives its tags; one where it refuses them. -/
def planRegs (plan : Ctx → List FTag → Except Cause VPlan) (c : Ctx) (ts : List FTag) : Nat :=
  match plan c ts with
  | .ok p => p.rtag.regs
  | .error _ => 1

/-- A vector word: the checks of R112, R122 and R165 to R168, the plan of its tags, then its lanes. -/
def vectorWord (m : MField) (scalars : List SReg) (d : VField) (srcs : List Src) (plan : Ctx → List FTag → Except Cause VPlan)
    (c : Ctx) (s : State) : WordOut :=
  let act := c.active m
  let ls := c.lanes m
  guardW (c.placedBy ls srcs (some d) (planRegs plan c)) c m s <| guardW (c.checkScalars (m.toNat :: scalars.map BitVec.toNat)) c m s <|
    match c.checkSrcs ls srcs with
    | .error e => e.out s act
    | .ok ts =>
      if c.unresolved ls srcs then .done s (ls.map fun l => (l, .indexWindow, 0))
      else match plan c (ts.map Prod.fst) with
        | .error cause => .trap s cause 0 act
        | .ok p =>
          match c.checkDst ls d p.rtag.regs with
          | .error e => e.out s act
          | .ok _ =>
            let r := c.compute ls ((srcs.zip ts).map fun x => (x.1.f, x.2.2)) d p
            vectorResult c s m d p.rtag.regs p.rtag r.1 r.2

/-- A vector word of which a RAW source may be a pair of RAW registers, as `wide` says of the tags (R204). -/
def wideVectorWord (wide : List FTag → Bool) (m : MField) (scalars : List SReg) (d : VField) (srcs : List Src)
    (plan : Ctx → List FTag → Except Cause VPlan) (c : Ctx) (s : State) : WordOut :=
  vectorWord m scalars d (c.widened (c.lanes m) wide srcs) plan c s

/-- The single tag of several sources; FORMAT when they differ (R168). -/
def oneTag : List FTag → Except Cause FTag
  | [] => .ok .raw
  | t :: r => if r.all fun x => x == t then .ok t else .error .format

/-- The common tag of sources where RAW matches any tag (R168). -/
def rawTag (ts : List FTag) : Except Cause FTag :=
  match ts.filter fun t => t != .raw with
  | [] => .ok .raw
  | t :: r => if r.all fun x => x == t then .ok t else .error .format

/-- The elements of a tag: format, width, number; RAW is one 32-bit element (R205). -/
def tagElems (t : FTag) : Fmt × Nat × Nat :=
  match t.elem with
  | some (f, k) => (f, f.width, k)
  | none => (.int 32 false, 32, 1)

/-- Works element by element: element j of the result from element j of each source (R187). -/
def elementwise (w k : Nat) (f : Nat → List Nat → Rounded) (xs : List Nat) : Rounded :=
  let es := (List.range k).map fun j => f j (xs.map fun x => elemAt w x j)
  ⟨joinElems w (es.map Rounded.bits), es.foldl (fun m r => m ||| r.flags) 0⟩

/-! Integer elements (R189). -/

/-- The value of an integer element. -/
def intVal (w : Nat) (signed : Bool) (v : Nat) : Int := if signed then signedOf w v else v

/-- Reduces an exact integer to an element. -/
def intReduce (w : Nat) (signed sat : Bool) (x : Int) : Rounded :=
  if sat then
    let lo : Int := if signed then -(2 ^ (w - 1)) else 0
    let hi : Int := if signed then 2 ^ (w - 1) - 1 else 2 ^ w - 1
    ⟨((if x < lo then lo else if hi < x then hi else x) % 2 ^ w).toNat, 0⟩
  else ⟨(x % 2 ^ w).toNat, 0⟩

/-! Float elements (R190). -/

/-- A rounded float result: a NaN operand, signalling or not, gives the default NaN; an operation that makes a NaN is invalid (R170, R190). -/
def fpResult (f : Fmt) (ftz : Bool) (ops : List Nat) (x : Num) : Rounded :=
  if ops.any fun v => isNaNBits f v then ⟨defaultNaN f, snan f ops⟩
  else if x.isNaN then ⟨defaultNaN f, flIV⟩
  else roundTo f 0 x 0 ftz

/-- An element as arithmetic that compares reads it (R181): a flushed subnormal is a zero of its sign. -/
def flushed (f : Fmt) (ftz : Bool) (v : Nat) : Nat :=
  if ftz && (f == .f32 || f == .f64) && isSubnormal f v then v / 2 ^ (f.width - 1) * 2 ^ (f.width - 1) else v

/-- FMin, and FMax with `big` (R197). -/
def fmin (f : Fmt) (ftz big : Bool) (a b : Nat) : Rounded :=
  let x := flushed f ftz a
  let y := flushed f ftz b
  let fl := snan f [a, b]
  if isNaNBits f a && isNaNBits f b then ⟨defaultNaN f, fl⟩
  else if isNaNBits f a then ⟨y, fl⟩
  else if isNaNBits f b then ⟨x, fl⟩
  else
    let u := decodeNum f x
    let v := decodeNum f y
    if u.isZero && v.isZero then ⟨if u.sign == v.sign then x else withSign f (!big) 0, fl⟩
    else if u.lt v then ⟨if big then y else x, fl⟩
    else ⟨if big then x else y, fl⟩

/-- The smaller of two elements of a tag, or the larger with `big` (R197). -/
def elemMin (f : Fmt) (ftz big : Bool) (a b : Nat) : Rounded :=
  match f with
  | .int w sg => ⟨if intVal w sg a ≤ intVal w sg b then (if big then b else a) else (if big then a else b), 0⟩
  | _ => fmin f ftz big a b

end Sys2Proof.Machine
end

