-- ==== Sys2Proof/Machine/Lane.lean ====
section
/-! DEFINITION. The LANE instructions (spec/07, R153 to R164): moves between lanes, votes, reductions, scans, index registers, GFENCE. -/
namespace Sys2Proof.Machine

/-- A move between lanes (R153, R155): `a` is read in any lane; `others` are read in the lane itself. The result takes a's tag. -/
def moveWord (m : MField) (scalars : List SReg) (d a : VField) (wa : Bool) (others : List (VField × Bool))
    (f : Ctx → Nat → List Nat → Nat) (c : Ctx) (s : State) : WordOut :=
  let ls := c.lanes m
  let os : List Src := others.map fun x => ⟨x.1, x.2, some 1⟩
  guardW (c.placed ((a, 1) :: (others.map fun x => (x.1, 1)) ++ [(d, 1)])) c m s <|
    guardW (c.checkScalars (m.toNat :: scalars.map BitVec.toNat)) c m s <| guardW (c.checkBits ls (⟨a, wa, some 1⟩ :: os)) c m s <|
    guardW (c.checkDst ls d 1) c m s <|
      let t := (c.g.v a.toNat).tag
      let r := c.compute ls (os.map fun x => (x.f, 1)) d ⟨.raw, fun l xs _ => ⟨f c l xs, 0⟩⟩
      vectorResult c s m d 1 t r.1 r.2

/-- VSHFL (R155): the lane that b names, modulo the width. -/
def execVshfl (o : VB) (s : State) : Host.Outcome State Fault Refusal :=
  runWord false o.m (moveWord o.m [] o.d o.a o.wa [(o.b, o.wb)] fun c _ xs => (c.g.lane o.a.toNat (xs.getD 0 0 % c.width)).toNat) s

/-- VSHFLX (R155): the lane l XOR K; a bit of K at or above log2 W raises RESERVED_FIELD (R154). -/
def execVshflx (o : VU) (k : BitVec 6) (s : State) : Host.Outcome State Fault Refusal :=
  runWord false o.m (fun c s =>
    if c.width ≤ k.toNat then .trap s .reservedField 0 (c.active o.m)
    else moveWord o.m [] o.d o.a o.wa [] (fun c l _ => (c.g.lane o.a.toNat (l ^^^ k.toNat)).toNat) c s) s

/-- VSHUP (R155): N = 0 or N at least W raises RESERVED_FIELD (R154). -/
def execVshup (o : VU) (n : BitVec 6) (fill : VField) (wc : Bool) (s : State) : Host.Outcome State Fault Refusal :=
  runWord false o.m (fun c s =>
    if n = 0 || decide (c.width ≤ n.toNat) then .trap s .reservedField 0 (c.active o.m)
    else moveWord o.m [] o.d o.a o.wa [(fill, wc)] (fun c l xs =>
      if n.toNat ≤ l then (c.g.lane o.a.toNat (l - n.toNat)).toNat else xs.getD 0 0) c s) s

/-- VSHDN (R155). -/
def execVshdn (o : VU) (n : BitVec 6) (fill : VField) (wc : Bool) (s : State) : Host.Outcome State Fault Refusal :=
  runWord false o.m (fun c s =>
    if n = 0 || decide (c.width ≤ n.toNat) then .trap s .reservedField 0 (c.active o.m)
    else moveWord o.m [] o.d o.a o.wa [(fill, wc)] (fun c l xs =>
      if l + n.toNat < c.width then (c.g.lane o.a.toNat (l + n.toNat)).toNat else xs.getD 0 0) c s) s

/-- VBCAST (R155). -/
def execVbcast (o : VU) (b : SReg) (s : State) : Host.Outcome State Fault Refusal :=
  runWord false o.m (moveWord o.m [b] o.d o.a o.wa [] fun c _ _ => (c.g.lane o.a.toNat ((c.g.s b.toNat).toNat % c.width)).toNat) s

/-- VRDL (R156). -/
def execVrdl (d : SReg) (a : VField) (b : SReg) (sz wa : Bool) (s : State) : Host.Outcome State Fault Refusal :=
  runWord false 0 (fun c s =>
    let n := if sz then 2 else 1
    guardW (c.placed [(a, n)]) c 0 s <| guardW (c.checkScalars [b.toNat, d.toNat]) c 0 s <| guardW (c.checkBits (c.lanes 0) [⟨a, wa, some n⟩]) c 0 s <|
      .done (s.modGroup c.gid fun g =>
        g.setS d.toNat (BitVec.ofNat 64 (c.read a.toNat n ((c.g.s b.toNat).toNat % c.width)))) []) s

/-- VWRL (R156): the tag stays, the destination becomes full; any lane may be written. -/
def execVwrl (d : VField) (a b : SReg) (sz : Bool) (s : State) : Host.Outcome State Fault Refusal :=
  runWord false 0 (fun c s =>
    let n := if sz then 2 else 1
    let k := (c.g.s b.toNat).toNat % c.width
    guardW (c.placed [(d, n)]) c 0 s <| guardW (c.checkScalars [a.toNat, b.toNat]) c 0 s <| guardW (c.checkDst (c.lanes 0) d n) c 0 s <|
      .done (s.modGroup c.gid fun g => g.writeLanes (laneWrites d.toNat n k (c.g.s a.toNat).toNat)) []) s

/-- The active lanes that resolve one operand, with its bits, and those that fault (R104). -/
def Ctx.laneValues (c : Ctx) (ls : List Nat) (a : VField) (n : Nat) : List (Nat × Nat) × List LaneFault :=
  ls.foldl (fun acc l => match c.regAt a n l with
    | some r => (acc.1 ++ [(l, c.read r n l)], acc.2)
    | none => (acc.1, acc.2 ++ [(l, .indexWindow, 0)])) ([], [])

/-- VVOTE (R157). -/
def execVvote (d : SReg) (a : VField) (opr : BitVec 2) (m : MField) (wa : Bool) (s : State) : Host.Outcome State Fault Refusal :=
  runWord false m (fun c s =>
    guardW (c.placed [(a, 1)]) c m s <| guardW (c.checkScalars [m.toNat, d.toNat]) c m s <| guardW (c.checkBits (c.lanes m) [⟨a, wa, some 1⟩]) c m s <|
      let (vs, fs) := c.laneValues (c.lanes m) a 1
      let v : W64 := match opr.toNat with
        | 0 => if vs.any fun x => x.2 != 0 then 1 else 0
        | 1 => if vs.all fun x => x.2 != 0 then 1 else 0
        | _ => lanesMask ((vs.filter fun x => x.2 != 0).map Prod.fst)
      .done (s.modGroup c.gid fun g => g.setS d.toNat v) fs) s

/-! Reductions and scans (R158). -/

/-- The tags that VRED and VSCAN accept. -/
def redTagOk (sz : Bool) (t : FTag) : Bool := if sz then t == .i64 || t == .n64 || t == .f64 else t == .i32 || t == .n32 || t == .f32

/-- The identity of an operation: 0 add, 1 min, 2 max. -/
def redIdentity (f : Fmt) (opr : Nat) : Nat :=
  match f with
  | .int w sg =>
    match opr with
    | 0 => 0
    | 1 => if sg then 2 ^ (w - 1) - 1 else 2 ^ w - 1
    | _ => if sg then 2 ^ (w - 1) else 0
  | _ => if opr = 0 then withSign f true 0 else infBits f (opr != 1)

/-- One step of a reduction. -/
def redStep (f : Fmt) (ftz : Bool) (opr acc x : Nat) : Rounded :=
  match f, opr with
  | .int w _, 0 => ⟨(acc + x) % 2 ^ w, 0⟩
  | _, 0 => fpResult f ftz [acc, x] ((readNum f acc ftz).add (readNum f x ftz))
  | _, _ => elemMin f ftz (opr != 1) acc x

/-- The running values of a scan: for each lane the value before it, the value after it, and the flags of its step. -/
def redRun (f : Fmt) (ftz : Bool) (opr : Nat) : Nat → List (Nat × Nat) → List (Nat × Nat × Nat × Nat)
  | _, [] => []
  | acc, (l, x) :: r =>
    let y := redStep f ftz opr acc x
    (l, acc, y.bits, y.flags) :: redRun f ftz opr y.bits r

/-- The checks and the running values that VRED and VSCAN share; `keep` says which lanes take part. -/
def redWord (a : VField) (wa sz : Bool) (opr : Nat) (m : MField) (keep : Ctx → Nat → Bool)
    (k : FTag → List (Nat × Nat × Nat × Nat) → List LaneFault → WordOut) (none_ : List LaneFault → WordOut) (c : Ctx) (s : State) : WordOut :=
  let ls := c.lanes m
  let n := if sz then 2 else 1
  let srcs : List Src := [⟨a, wa, some n⟩]
  match c.checkSrcs ls srcs with
  | .error e => e.out s (c.active m)
  | .ok ts =>
    if c.unresolved ls srcs then none_ (ls.map fun l => (l, .indexWindow, 0))
    else
      let t := (ts.map Prod.fst).headD .raw
      if !redTagOk sz t then .trap s .format 0 (c.active m)
      else
        let f := (tagElems t).1
        let (vs, fs) := c.laneValues ls a n
        let out := (vs.filter fun x => !keep c x.1).map fun x => ((x.1, .indexWindow, 0) : LaneFault)
        let run := redRun f c.ftz opr (redIdentity f opr) (vs.filter fun x => keep c x.1)
        match fpTrap c.g.sp.fpctl (run.map fun x => (x.1, x.2.2.2)) with
        | some (cause, flm) => .trap s cause 0 flm
        | none => k t run (fs ++ out)

/-- The bits a reduction leaves in its scalar: sign-extended for I32, zero-extended for N32 and F32 (R158). -/
def redExtend (t : FTag) (v : Nat) : W64 := if t == .i32 then sext 32 v else BitVec.ofNat 64 v

/-- VRED (R158). Where no lane resolves an indexed source, or ACTIVE is empty and the source is indexed, no tag and so no identity is known: S[d]
stays as it was (log entry 31). -/
def execVred (d : SReg) (a : VField) (opr : BitVec 2) (sz : Bool) (m : MField) (wa : Bool) (s : State) : Host.Outcome State Fault Refusal :=
  runWord false m (fun c s =>
    guardW (c.placed [(a, if sz then 2 else 1)]) c m s <| guardW (c.checkScalars [m.toNat, d.toNat]) c m s <|
      redWord a wa sz opr.toNat m (fun _ _ => true)
        (fun t run fs =>
          let id_ := redIdentity (tagElems t).1 opr.toNat
          let v := (run.getLast?.map fun x => x.2.2.1).getD id_
          .done (s.modGroup c.gid fun g => (g.setS d.toNat (redExtend t v)).raise (allFlags (run.map fun x => (x.1, x.2.2.2)))) fs)
        (fun fs => .done s fs) c s) s

/-- VSCAN (R158): inclusive, or exclusive with X. -/
def execVscan (o : VU) (opr : BitVec 2) (x sz : Bool) (s : State) : Host.Outcome State Fault Refusal :=
  runWord false o.m (fun c s =>
    let n := if sz then 2 else 1
    guardW (c.placed [(o.a, n), (o.d, n)]) c o.m s <|
      guardW (c.checkScalars [o.m.toNat]) c o.m s <| guardW (c.checkDst (c.lanes o.m) o.d n) c o.m s <|
      redWord o.a o.wa sz opr.toNat o.m (fun c l => (c.regAt o.d n l).isSome)
        (fun t run fs =>
          let rs := run.filterMap fun y => (c.regAt o.d n y.1).map fun b => (⟨y.1, b, if x then y.2.1 else y.2.2.1, y.2.2.2⟩ : LaneOut)
          vectorResult c s o.m o.d n t rs fs)
        (fun fs => .done s fs) c s) s

/-! Index registers and windows (R159 to R162). -/

/-- XSET (R160). -/
def execXset (x : BitVec 3) (a : VField) (add : Bool) (m : MField) (wa : Bool) (s : State) : Host.Outcome State Fault Refusal :=
  runWord false m (fun c s =>
    guardW (c.placed [(a, 1)]) c m s <| guardW (c.checkScalars [m.toNat]) c m s <| guardW (c.checkBits (c.lanes m) [⟨a, wa, some 1⟩]) c m s <|
      let (vs, fs) := c.laneValues (c.lanes m) a 1
      .done (s.modGroup c.gid fun g => vs.foldl (fun g v =>
        let w : BitVec 16 := BitVec.ofNat 16 v.2
        g.setX x.toNat v.1 (if add then c.g.x x.toNat v.1 + w else w)) g) fs) s

/-- XWIN (R162): the window of one x register, for the whole group. -/
def execXwin (x : BitVec 3) (a : VField) (len : BitVec 6) (s : State) : Host.Outcome State Fault Refusal :=
  runWord false 0 (fun c s =>
    if c.regs < a.toNat + (len.toNat + 1) then .trap s .regRange 0 c.p.lanes
    else .done (s.modGroup c.gid fun g => { g with windows := NMap.set g.windows x.toNat (a.toNat, len.toNat + 1) }) []) s

/-- XGET (R161): zero-extended, tag N32. -/
def execXget (d : VField) (x : BitVec 3) (m : MField) (s : State) : Host.Outcome State Fault Refusal :=
  runWord false m (vectorWord m [] d [] fun c _ => .ok ⟨.n32, fun l _ _ => ⟨(c.g.x x.toNat l).toNat, 0⟩⟩) s

/-- GFENCE (R164): waits for every load and value-returning atomic of the split's lanes. -/
def execGfence (s : State) : Host.Outcome State Fault Refusal :=
  runWord false 0 (fun c s =>
    let open_ := c.g.lates.filter fun l => l.lanes &&& c.p.lanes != 0 && (match l.kind with | .launch .. => false | _ => true)
    .hold s ⟨open_.map fun l => .lateDone l.id, false, false⟩ []) s

end Sys2Proof.Machine
end

