-- ==== Sys2Proof/Machine/CapWords.lean ====
section
/-! DEFINITION. The capability instructions (spec/03, R60 to R72): vector form in each active lane, uniform form once. -/
namespace Sys2Proof.Machine

/-- The second operand of a capability word. -/
inductive CapB where
  | none_ | num | cap
  deriving DecidableEq, Repr

/-- A result: a capability, or a number. -/
inductive CapOut where
  | cap (c : Cap)
  | num (v : W64)
  deriving DecidableEq, Repr

/-- What a capability instruction computes: its second operand, its destination's tag (R61), its result. -/
structure CapSpec where
  b : CapB
  tag : FTag
  f : Cap → W64 → Cap → Except Cause CapOut

/-- A scalar pair must be even (R105). -/
def oddPair (f : VField) : Bool := f.toNat % 2 != 0

/-- A capability word in its vector form: capability faults are per lane and deferred; tinfo holds the capability's address (R61, R390). -/
def capVector (sp : CapSpec) (o : CapOp) (c : Ctx) (s : State) : WordOut :=
  let ls := c.lanes o.m
  let act := c.active o.m
  let n := sp.tag.regs
  let bs : List Src := match sp.b with | .cap => [⟨o.b, o.wb, some 4⟩] | _ => []
  let ys : List Src := match sp.b with | .num => [⟨o.b, o.wb, some 2⟩] | _ => []
  guardW (c.placed ((o.d, n) :: (o.a, 4) :: (bs ++ ys).map fun x => (x.f, x.n.getD 1))) c o.m s <|
    guardW (c.checkScalars [o.m.toNat]) c o.m s <| guardW (c.checkBits ls ys) c o.m s <|
    match c.checkSrcs ls (⟨o.a, o.wa, some 4⟩ :: bs) with
    | .error e => e.out s act
    | .ok ts =>
      if !c.unresolved ls (⟨o.a, o.wa, some 4⟩ :: bs) && ts.any fun t => t.1 != .cap then .trap s .format 0 act
      else guardW (c.checkDst ls o.d n) c o.m s <|
        let r := ls.foldl (fun (acc : List (Nat × Nat × CapOut) × List LaneFault) l =>
          let b2 := match sp.b with | .none_ => some 0 | .num => c.regAt o.b 2 l | .cap => c.regAt o.b 4 l
          match c.regAt o.a 4 l, b2, c.regAt o.d n l with
          | some ra, some rb, some rd =>
            let ca := c.g.quad ra l
            let y : W64 := if sp.b == .num then BitVec.ofNat 64 (c.read rb 2 l) else 0
            (match sp.f ca y (if sp.b == .cap then c.g.quad rb l else Cap.null) with
              | .ok v => (acc.1 ++ [(l, rd, v)], acc.2)
              | .error e => (acc.1, acc.2 ++ [(l, e, ca.addr)]))
          | _, _, _ => (acc.1, acc.2 ++ [(l, .indexWindow, 0)])) ([], [])
        let regs := destRegs o.d n (r.1.map fun x => ⟨x.1, x.2.1, 0, 0⟩)
        .done (s.modGroup c.gid fun g =>
          let g1 := r.1.foldl (fun g x => match x.2.2 with
            | .num v => g.writeLanes (laneWrites x.2.1 n x.1 v.toNat)
            | .cap k => (g.writeLanes (laneWrites x.2.1 4 x.1 k.bits.toNat)).setQTag x.2.1 x.1 k.tag) g
          g1.fillAll regs sp.tag) r.2

/-- A capability word in its uniform form: once, its faults precise (R60, R61). -/
def capUniform (sp : CapSpec) (o : CapOp) (c : Ctx) (s : State) : WordOut :=
  let d := o.d.toNat
  let a := o.a.toNat
  let b := o.b.toNat
  let bs := match sp.b with | .none_ => [] | .num => [b] | .cap => pairRegs b
  if oddPair o.a || (sp.b == .cap && oddPair o.b) || (sp.tag == .cap && oddPair o.d) then .trap s .regAlign 0 c.p.lanes
  else guardW (c.checkScalars (pairRegs a ++ bs ++ (if sp.tag == .cap then pairRegs d else [d]))) c 0 s <|
    let ca := c.g.sc a
    match sp.f ca (if sp.b == .num then c.g.s b else 0) (if sp.b == .cap then c.g.sc b else Cap.null) with
    | .error e => .trap s e ca.addr c.p.lanes
    | .ok (.cap k) => .done (s.modGroup c.gid fun g => g.setSc d k) []
    | .ok (.num v) => .done (s.modGroup c.gid fun g => g.setS d v) []

/-- A capability word. -/
def capWord (sp : CapSpec) (o : CapOp) (c : Ctx) (s : State) : WordOut := if o.u then capUniform sp o c s else capVector sp o c s

/-- A derivation as a specification. -/
def capDerive (b : CapB) (f : Cap → W64 → Cap → CapResult) : CapSpec where
  b := b
  tag := .cap
  f := fun c y k => (f c y k).map CapOut.cap

/-- A getter as a specification (R63). -/
def capGet (t : FTag) (f : Cap → Nat) : CapSpec where
  b := .none_
  tag := t
  f := fun c _ _ => .ok (.num (BitVec.ofNat 64 (f c)))

/-- The signed displacement of CINC. -/
def capInc (c : Cap) (n : W64) : CapResult := capMove c (c.addr + n)

/-- CGETA (R63). -/
def execCgeta (o : CapOp) (s : State) : Host.Outcome State Fault Refusal := runWord false o.m (capWord (capGet .n64 fun c => c.addr.toNat) o) s

/-- CGETB (R63). -/
def execCgetb (o : CapOp) (s : State) : Host.Outcome State Fault Refusal := runWord false o.m (capWord (capGet .n64 fun c => (capDecode c).1) o) s

/-- CGETL (R63). -/
def execCgetl (o : CapOp) (s : State) : Host.Outcome State Fault Refusal := runWord false o.m (capWord (capGet .n64 fun c => min ((capDecode c).2 - (capDecode c).1) (2 ^ 64 - 1)) o) s

/-- CGETP (R63). -/
def execCgetp (o : CapOp) (s : State) : Host.Outcome State Fault Refusal := runWord false o.m (capWord (capGet .n32 Cap.perms) o) s

/-- CGETK (R63). -/
def execCgetk (o : CapOp) (s : State) : Host.Outcome State Fault Refusal := runWord false o.m (capWord (capGet .n32 fun c => c.otype * 4 + c.kind) o) s

/-- CGETT (R63). -/
def execCgett (o : CapOp) (s : State) : Host.Outcome State Fault Refusal := runWord false o.m (capWord (capGet .n32 fun c => if c.tag then 1 else 0) o) s

/-- CSETA (R64). -/
def execCseta (o : CapOp) (s : State) : Host.Outcome State Fault Refusal := runWord false o.m (capWord (capDerive .num fun c y _ => capMove c y) o) s

/-- CINC (R64). -/
def execCinc (o : CapOp) (s : State) : Host.Outcome State Fault Refusal := runWord false o.m (capWord (capDerive .num fun c y _ => capInc c y) o) s

/-- CINCI (R64): sub selects the form. -/
def execCinci (u : Bool) (d a : VField) (imm : BitVec 22) (m : MField) (wa : Bool) (s : State) : Host.Outcome State Fault Refusal :=
  runWord false m (capWord (capDerive .none_ fun c _ _ => capInc c (sext 22 imm.toNat)) ⟨u, d, a, 0, m, wa, false⟩) s

/-- CBOUND (R65). -/
def execCbound (o : CapOp) (s : State) : Host.Outcome State Fault Refusal := runWord false o.m (capWord (capDerive .num fun c y _ => capBound c y false) o) s

/-- CBOUNDX (R65). -/
def execCboundx (o : CapOp) (s : State) : Host.Outcome State Fault Refusal := runWord false o.m (capWord (capDerive .num fun c y _ => capBound c y true) o) s

/-- CANDP (R66). -/
def execCandp (o : CapOp) (s : State) : Host.Outcome State Fault Refusal := runWord false o.m (capWord (capDerive .num fun c y _ => capAndPerms c y) o) s

/-- CSEAL (R67). -/
def execCseal (o : CapOp) (s : State) : Host.Outcome State Fault Refusal := runWord false o.m (capWord (capDerive .cap fun c _ k => capSeal c k) o) s

/-- CSEAL.e (R67). -/
def execCsealE (o : CapOp) (s : State) : Host.Outcome State Fault Refusal := runWord false o.m (capWord (capDerive .none_ fun c _ _ => capSealEntry c) o) s

/-- CUNSEAL (R67). -/
def execCunseal (o : CapOp) (s : State) : Host.Outcome State Fault Refusal := runWord false o.m (capWord (capDerive .cap fun c _ k => capUnseal c k) o) s

/-- CSUB (R68). -/
def execCsub (o : CapOp) (s : State) : Host.Outcome State Fault Refusal := runWord false o.m (capWord (⟨.cap, .i64, fun c _ k => .ok (.num (c.addr - k.addr))⟩) o) s

/-- CEQ in its vector form (R68): a mask of the active lanes. -/
def ceqVector (o : CapOp) (c : Ctx) (s : State) : WordOut :=
  let ls := c.lanes o.m
  let act := c.active o.m
  let srcs : List Src := [⟨o.a, o.wa, some 4⟩, ⟨o.b, o.wb, some 4⟩]
  guardW (c.placed [(o.a, 4), (o.b, 4)]) c o.m s <| guardW (c.checkScalars [o.m.toNat, o.d.toNat]) c o.m s <|
    match c.checkSrcs ls srcs with
    | .error e => e.out s act
    | .ok ts =>
      if !c.unresolved ls srcs && ts.any fun t => t.1 != .cap then .trap s .format 0 act
      else
        let r := ls.foldl (fun (acc : List Nat × List LaneFault) l =>
          match c.regAt o.a 4 l, c.regAt o.b 4 l with
          | some ra, some rb => (if c.g.quad ra l == c.g.quad rb l then acc.1 ++ [l] else acc.1, acc.2)
          | _, _ => (acc.1, acc.2 ++ [(l, .indexWindow, 0)])) ([], [])
        .done (s.modGroup c.gid fun g => g.setS o.d.toNat (lanesMask r.1)) r.2

/-- CEQ (R68). -/
def execCeq (o : CapOp) (s : State) : Host.Outcome State Fault Refusal :=
  runWord false o.m (fun c s =>
    if o.u then capUniform ⟨.cap, .n64, fun x _ y => .ok (.num (if x == y then 1 else 0))⟩ o c s else ceqVector o c s) s

/-- CCLR (R69). -/
def execCclr (o : CapOp) (s : State) : Host.Outcome State Fault Refusal :=
  runWord false o.m (capWord (capDerive .none_ fun c _ _ => .ok { c with tag := false }) o) s

/-- CMOVC (R69). -/
def execCmovc (o : CapOp) (s : State) : Host.Outcome State Fault Refusal :=
  runWord false o.m (capWord (capDerive .none_ fun c _ _ => .ok c) o) s

/-- CMOVC.x in its vector form (R69): a scalar pair's value into every active lane. -/
def cmovcSpread (o : CapOp) (c : Ctx) (s : State) : WordOut :=
  let ls := c.lanes o.m
  let a := o.a.toNat
  if misaligned o.d 4 || oddPair o.a then .trap s .regAlign 0 (c.active o.m)
  else guardW (c.placed [(o.d, 4)]) c o.m s <| guardW (c.checkScalars (o.m.toNat :: pairRegs a)) c o.m s <| guardW (c.checkDst ls o.d 4) c o.m s <|
    let k := c.g.sc a
    let r := ls.foldl (fun (acc : List LaneOut × List LaneFault) l => match c.regAt o.d 4 l with
      | some rd => (acc.1 ++ [⟨l, rd, k.bits.toNat, 0⟩], acc.2)
      | none => (acc.1, acc.2 ++ [(l, .indexWindow, 0)])) ([], [])
    .done (s.modGroup c.gid fun g =>
      (r.1.foldl (fun g x => (g.writeLanes (laneWrites x.base 4 x.lane x.bits)).setQTag x.base x.lane k.tag) g).fillAll
        (destRegs o.d 4 r.1) .cap) r.2

/-- CMOVC.x in its uniform form (R69): one lane of a quad into a pair. -/
def cmovcPick (o : CapOp) (c : Ctx) (s : State) : WordOut :=
  let d := o.d.toNat
  if oddPair o.d || misaligned o.a 4 then .trap s .regAlign 0 c.p.lanes
  else guardW (c.placed [(o.a, 4)]) c 0 s <| guardW (c.checkScalars (o.b.toNat :: pairRegs d)) c 0 s <|
    match c.checkSrcs [] [⟨o.a, false, some 4⟩] with
    | .error e => e.out s c.p.lanes
    | .ok ts =>
      if ts.any fun t => t.1 != .cap then .trap s .format 0 c.p.lanes
      else .done (s.modGroup c.gid fun g => g.setSc d (c.g.quad o.a.toNat ((c.g.s o.b.toNat).toNat % c.width))) []

/-- CMOVC.x (R69). -/
def execCmovcX (o : CapOp) (s : State) : Host.Outcome State Fault Refusal :=
  runWord false o.m (fun c s => if o.u then cmovcPick o c s else cmovcSpread o c s) s

/-- CREG (R70). -/
def execCreg (d : SReg) (a b : VField) (s : State) : Host.Outcome State Fault Refusal :=
  runWord false 0 (fun c s =>
    if d.toNat % 2 ≠ 0 then .trap s .regAlign 0 c.p.lanes
    else if c.regs < a.toNat + (b.toNat + 1) then .trap s .regRange 0 c.p.lanes
    else guardW (c.checkScalars (pairRegs d.toNat)) c 0 s
      (.done (s.modGroup c.gid fun g => g.setSc d.toNat
        (capName s.pkg.selfDevice (dieOf c.core) (coreInDie c.core) c.gid.slot c.gid.group a.toNat b.toNat c.team.incn)) [])) s

/-- CMINT (R72). -/
def cmintWord (d : SReg) (a : BitVec 4) (b : SReg) (c : Ctx) (s : State) : WordOut :=
  let b0 := b.toNat
  if d.toNat % 2 ≠ 0 then .trap s .regAlign 0 c.p.lanes
  else guardW (c.checkScalars ([b0, b0 + 1, b0 + 2] ++ pairRegs d.toNat)) c 0 s <|
    match NMap.find (s.tenant c.team.tenant).roots a.toNat with
    | none => .trap s .capTag 0 c.p.lanes
    | some bits =>
      let r : Cap := ⟨bits, true⟩
      let (pb, pt) := capDecode r
      let lo := (c.g.s b0).toNat
      let n := capEncode lo (lo + (c.g.s (b0 + 1)).toNat)
      if n.rb < pb || pt < n.rt then .trap s .capBounds (c.g.s b0) c.p.lanes
      else
        let k := (((r.setAddr (c.g.s b0)).setBounds n).setBits 114 12 (r.perms &&& ((c.g.s (b0 + 2)).toNat % 4096) &&& 0xFFE)).setBits 64 2 0
        .done (s.modGroup c.gid fun g => g.setSc d.toNat k) []

def execCmint (d : SReg) (a : BitVec 4) (b : SReg) (s : State) : Host.Outcome State Fault Refusal := runWord true 0 (cmintWord d a b) s

/-- What a release fence waits for first (R257, R260): loads and value-returning atomics back, p0, p1 and p2 at 0. -/
def Ctx.fenceWaits (c : Ctx) (scope : Nat) : List Cond :=
  ((c.g.lates.filter fun l => l.lanes &&& c.p.lanes != 0 && (match l.kind with | .launch .. => false | _ => true)).map fun l => Cond.lateDone l.id)
    ++ ([0, 2] ++ (if 2 ≤ scope then [1] else [])).filterMap fun n => if c.g.p n = 0 then none else some (.pLe n 0)

/-- The cores that a sweep of a tenant visits: its lease, and every core on which a team of it still stands (R57). -/
def State.sweepCores (s : State) (tenant : Nat) : List Nat :=
  ((s.tenant tenant).lease ++ (s.cores.filter fun kc => kc.2.teams.any fun st => st.2.tenant == tenant).map Prod.fst).dedup

/-- CSWEEP (R71, R57): first as a release fence at system scope; the start marker stands behind every older entry. -/
def csweepWord (d a b : SReg) (c : Ctx) (s : State) : WordOut :=
  let bm := c.g.sc a.toNat
  if a.toNat % 2 ≠ 0 then .trap s .regAlign 0 c.p.lanes
  else guardW (c.checkScalars ([b.toNat, d.toNat] ++ pairRegs a.toNat)) c 0 s <|
    match capCheck bm bm.addr 72 (permLD + permST + permSYS) with
    | some f => .trap s f bm.addr c.p.lanes
    | none =>
      if (c.g.s b.toNat).toNat % 512 ≠ 0 then .trap s .align 0 c.p.lanes
      else
        let tn := c.team.tenant
        let t := s.tenant tn
        if t.sweep.isSome then .done (s.modGroup c.gid fun g => g.setS d.toNat 1) []
        else
          let waits := c.fenceWaits 4
          if !waits.isEmpty then .hold s ⟨waits, true, false⟩ []
          else
            let st := (s.core c.core).seqNext
            let s1 := (s.releaseFenceAt c.core 4).modGroup c.gid fun g => g.setS d.toNat 0
            let w : Sweep := ⟨bm, false, (c.g.s b.toNat).toNat, s.sweepCores tn, false, c.core, st⟩
            .hold (s1.setTenant tn { s1.tenant tn with sweep := some w }) ⟨[.olderGone st], false, true⟩ []

def execCsweep (d a b : SReg) (s : State) : Host.Outcome State Fault Refusal := runWord true 0 (csweepWord d a b) s

end Sys2Proof.Machine
end

