-- ==== Sys2Proof/Machine/Regions.lean ====
section
/-! DEFINITION. The core and queue control regions (spec/10, R244; spec/20, R394; spec/22, R418; spec/04, R74): what a load of a register
gives, and the step that a store to one causes. -/
namespace Sys2Proof.Machine

/-- Counters of a tenant on a core; before a first PSEL write all are zero. -/
def Core.perfOf (k : Core) (tenant : Nat) : Perf := NMap.getD k.perf tenant ⟨[], [], false⟩

/-- The value of PCNTi, and whether the read is denied (R418). -/
def pcntValue (t : Tenant) (p : Perf) (i : Nat) : W64 × Bool :=
  let e := NMap.getD p.psel i 0
  if 16 ≤ e then (0, false) else if !t.allow.testBit e then (0, true) else (NMap.getD p.pcnt i 0, false)

/-- A read that ALLOW refuses sets DENIED (R418). -/
def State.pcntRead (s : State) (tenant core i : Nat) : State :=
  let p := (s.core core).perfOf tenant
  if (pcntValue (s.tenant tenant) p i).2 then s.modCore core fun k => { k with perf := NMap.set k.perf tenant { p with denied := true } } else s

/-! Mailboxes (R436). -/

/-- The mailboxes: those of physical function 0 are kept under the die's number, a tenant's under 4 + 4 tenant + die. -/
def tenantMailbox (tenant die : Nat) : Nat := 4 + 4 * tenant + die
def Mailbox.fresh : Mailbox := ⟨0, 0, 0, false, false⟩
def State.mailbox (s : State) (k : Nat) : Mailbox := NMap.getD s.mailboxes k Mailbox.fresh
def State.setMailbox (s : State) (k : Nat) (m : Mailbox) : State := { s with mailboxes := NMap.set s.mailboxes k m }

/-- MBSTAT. -/
def Mailbox.stat (m : Mailbox) : W64 := BitVec.ofNat 64 (m.status % 256 * 256 + (if m.done then 2 else 0) + (if m.busy then 1 else 0))

/-- An 8-byte read at an offset of a mailbox: MBCMD, MBRSP, MBDOOR (write only), MBSTAT. -/
def Mailbox.read (m : Mailbox) (off : Nat) : W64 :=
  if off < 0x40 then m.cmd.extractLsb' (8 * off) 64
  else if off < 0x80 then m.rsp.extractLsb' (8 * (off - 0x40)) 64
  else if off = 0x88 then m.stat else 0

/-- Reads an 8-byte register of a core's region. -/
def State.coreRegRead (s : State) (tenant core off : Nat) : State × W64 :=
  let k := s.core core
  let mine := fun (e : Entry) => e.tenant == tenant
  if off = 8 then (s, BitVec.ofNat 64 ((k.hearth.filter fun ie => ie.2.st == .faulted && mine ie.2).length))
  else if 0x1000 ≤ off && off < 0x1040 then (s, BitVec.ofNat 64 (NMap.getD (k.perfOf tenant).psel ((off - 0x1000) / 8) 0))
  else if 0x1040 ≤ off && off < 0x1080 then
    let i := (off - 0x1040) / 8
    (s.pcntRead tenant core i, (pcntValue (s.tenant tenant) (k.perfOf tenant) i).1)
  else if off = 0x1080 then (s, if (k.perfOf tenant).denied then 1 else 0)
  else if 0x4000 ≤ off && off < 0x4000 + 192 * 256 then
    match NMap.find k.hearth ((off - 0x4000) / 192) with
    | some e => (s, if mine e then (e.form s.cycle).extractLsb' (8 * ((off - 0x4000) % 192)) 64 else 0)
    | none => (s, 0)
  else if 0x2000 ≤ off && off < 0x2090 && (s.tenant tenant).lease.contains core then
    (s, (s.mailbox (tenantMailbox tenant (dieOf core))).read (off - 0x2000))
  else (s, 0)

/-- A queue is in the tenant's range (R74, R413). -/
def Tenant.ownsQueue (t : Tenant) (die q : Nat) : Bool := decide (t.qfirst die ≤ q) && decide (q < t.qfirst die + t.qcount die)

/-- The code of a queue state (R74). -/
def QState.code : QState → Nat
  | .off => 0 | .run => 1 | .stop => 2 | .error => 3

/-- Reads an 8-byte register of a die's queue region (R74, R402). -/
def State.queueRegRead (s : State) (tenant die off : Nat) (sLevel : Bool) : W64 :=
  let q := off / 32
  let x := s.queue (queueKey die q)
  if !sLevel || 256 ≤ q || !(s.tenant tenant).ownsQueue die q then 0
  else match off % 32 with
    | 0 => BitVec.ofNat 64 (x.code % 256 + x.kind % 16 * 2 ^ 8 + x.qcb.toNat * 2 ^ 12)
    | 8 => BitVec.ofNat 64 x.st.code
    | 16 => BitVec.ofNat 64 (x.limit % 65536 + x.elapsed / 65536 % 2 ^ 32 * 2 ^ 16)
    | _ => 0

/-- The request of a register write. -/
def regRequest (tenant off : Nat) (v : W64) : Request := { Request.zero with tenant := tenant, off := off, value := v }

/-- A store of 8 bytes to a core's region: the step it causes; a write that its register ignores causes none. -/
def State.coreRegWrite (s : State) (tenant core off : Nat) (v : W64) : State :=
  let r := { regRequest tenant off v with core := core }
  let n := v.toNat
  let name := { r with slot := bitsOf n 0 5, group := bitsOf n 5 5, incn := bitsOf n 10 12 }
  if off = 0 then
    if n / 2 ^ 9 ≠ 0 then s
    else s.postReq (if n.testBit 8 then .hrearmDiscard else .hrearmRetry) { r with index := n % 256 }
  else if off = 0x10 then
    if n / 2 ^ 24 ≠ 0 then s
    else match bitsOf n 22 2 with
      | 0 => s.postReq .gresumeRetry name
      | 1 => s.postReq .gresumeSkip name
      | 2 => s.postReq .gresumeDeliver name
      | _ => s.postReq .gresumeKill name
  else if off = 0x18 then (if n / 2 ^ 23 ≠ 0 then s else s.postReq .bankreq { name with flag := n.testBit 22 })
  else if off = 0x20 then
    if n / 2 ^ 46 ≠ 0 || bitsOf n 5 5 ≠ 0 then s
    else s.postReq .grtight { name with tight := ⟨bitsOf n 22 4, bitsOf n 26 4, bitsOf n 30 4, bitsOf n 34 4, bitsOf n 38 8⟩ }
  else if 0x1000 ≤ off && off < 0x1040 then s.postReq .pselWrite { r with index := (off - 0x1000) / 8 }
  else if off = 0x1080 then s.postReq .pstatWrite r
  else s.postReq .registerWrite r

/-- A store of 8 bytes to a die's queue region (R74); one at level K, or to a queue outside QRANGE, is ignored. -/
def State.queueRegWrite (s : State) (tenant die off : Nat) (v : W64) (sLevel : Bool) : State :=
  let q := off / 32
  if !sLevel || 256 ≤ q || !(s.tenant tenant).ownsQueue die q then s
  else
    let r := { regRequest tenant off v with die := die, index := q, line := 1 }
    if off % 32 = 8 then
      match v.toNat % 4 with
      | 0 => s.postReq .qstateOff r
      | 1 => s.postReq .qstateRun r
      | 2 => s.postReq .qstateStop r
      | _ => s
    else s.postReq .registerWrite r

end Sys2Proof.Machine
end

