-- ==== Sys2Proof/Machine/MemWords.lean ====
section
/-! DEFINITION. The MEM instructions (spec/11, R251 to R270): loads, stores, capability moves, block records, atomics, FENCE and DRAIN. -/
namespace Sys2Proof.Machine

/-! Orders (R256 to R259): codes 0 rlx, 1 acq, 2 rel, 3 ar, 4 sc, 5 racq. -/
def isAcquire (order : Nat) : Bool := order == 1 || order == 3 || order == 4 || order == 5
def isRelease (order : Nat) : Bool := order == 2 || order == 3 || order == 4
def isSc (order : Nat) : Bool := order == 4

/-! The operand (R251). -/

/-- The capability of a lane's access. -/
def Ctx.memCap (c : Ctx) (o : MOp) (l : Nat) : Cap := if o.bsel then c.g.sc o.base.toNat else c.g.quad (4 * o.base.toNat) l

/-- The offset in register r of a lane: signed under tag I32. -/
def Ctx.memOff (c : Ctx) (r l : Nat) : W64 :=
  let w := c.g.lane r l
  if (c.g.v r).tag == .i32 then w.signExtend 64 else w.setWidth 64

/-- EffAddr (R251): u is the access unit. -/
def effAddr (k : Cap) (off : W64) (imm8 : BitVec 8) (u : Nat) : W64 := k.addr + off + sext 8 imm8.toNat * BitVec.ofNat 64 u

/-- Steps 5 and 6 of R112 for a memory word whose data operand has `n` registers, `m` with those that a CAS adds: BASE and the direct fields are
aligned and lie below REGS. -/
def Ctx.memPlaces (c : Ctx) (o : MOp) (n : Nat) (m : Nat := n) : Except Fail Unit :=
  let q := 4 * o.base.toNat
  if (o.bsel && o.base.toNat % 2 != 0) || misaligned o.t n then .error (.trap .regAlign)
  else if (!o.bsel && decide (c.regs < q + 4)) || c.outOfRange o.t m || c.outOfRange o.off 1 then .error (.trap .regRange)
  else .ok ()

/-- The checks of a vector memory word's registers (R105, R112, R254): base, offset, and the data operand of n registers; a BASE quad has one tag
(R165). -/
def Ctx.memReady (c : Ctx) (o : MOp) (ls : List Nat) (n : Nat) : Except Fail Unit :=
  match c.memPlaces o n with
  | .error e => .error e
  | .ok _ =>
    let q := 4 * o.base.toNat
    let e := c.sEmpties (o.m.toNat :: (if o.bsel then pairRegs o.base.toNat else []))
      ++ c.empties (if o.bsel then [] else [q, q + 1, q + 2, q + 3]) ++ c.empties (c.touched o.off 1 ls) ++ c.empties (c.touched o.t n ls)
    if !e.isEmpty then .error (.stall e)
    else if !o.bsel && ([q + 1, q + 2, q + 3].any fun r => (c.g.v r).tag != (c.g.v q).tag) then .error (.trap .format)
    else .ok ()

/-- The pieces of an access by line: first address and bytes. -/
def linePieces (va : W64) (n : Nat) : List (W64 × Nat) :=
  let o := va.toNat % 128
  if o + n ≤ 128 then [(va, n)] else [(va, 128 - o), (va + BitVec.ofNat 64 (128 - o), n - (128 - o))]

/-- The tag of an access of a SIZE is one of its row (R253). -/
def sizeTagOk (size : Nat) (t : FTag) : Bool :=
  match size with
  | 0 => t == .raw || t == .i32 || t == .n32
  | 1 => t == .raw || t == .i32 || t == .n32
  | 2 => t.regs == 1
  | 3 => t == .raw || t == .i64 || t == .n64 || t == .f64
  | 4 => t == .raw || t == .cap || t == .route
  | _ => (recordShape t).isSome

/-! Loads. -/

/-- What a load word wants: bytes, access unit, registers, tag, kind, and whether it is a record. -/
structure LoadSpec where
  n : Nat
  regs : Nat
  tag : FTag
  kind : LateKind
  block : Bool
  plain8 : Bool

/-- A load in progress at issue. -/
structure LoadAcc where
  s : State
  reqs : List LaneReq
  faults : List LaneFault
  waits : List Cond

/-- Entries of other groups that hold a byte of an access (R283). -/
def Core.othersHolding (k : Core) (g : GroupId) (va : W64) (n : Nat) : List (Nat × Nat) :=
  (k.hearth.filter fun ie => !(ie.2.slot == g.slot && ie.2.group == g.group) && (List.range n).any fun j =>
    let a := (va + BitVec.ofNat 64 j).toNat
    ie.2.va == a / 128 && ie.2.mask.getLsbD (a % 128)).map fun ie => (ie.1, ie.2.stamp)

/-- One line's part of an access: bytes from the hearth, else from the line (R236, R224). -/
def pieceBytes (s : State) (g : GroupId) (tenant id : Nat) (racq fresh : Bool) (va : W64) (pa n : Nat) : State × Except Cause (List ByteReq × Option Bool) :=
  let k := s.core g.core
  let hs := (List.range n).map fun j => k.hearthByte (va + BitVec.ofNat 64 j)
  let ht := k.hearthTag (va &&& ~~~15#64)
  let mk := fun (f : Nat → Option Byte) => hs.zipIdx.map fun hi =>
    (⟨pa + hi.2, va + BitVec.ofNat 64 hi.2, match hi.1 with | some b => some b | none => f hi.2⟩ : ByteReq)
  if hs.all Option.isSome then (s, .ok (mk fun _ => none, ht))
  else match (if racq then s.readNewLine g tenant id (pa / 128) else s.readLine g tenant (pa / 128) fresh) with
    | (s1, .fault c) => (s1, .error c)
    | (s1, .wait) => (s1, .ok (mk fun _ => none, ht))
    | (s1, .line d tags) =>
      (s1, .ok (mk fun j => some (lineByte d (pa % 128 + j)), match ht with | some t => some t | none => some (tags.getLsbD (pa % 128 / 16))))

/-- What one access gives: its bytes, a fault, or conditions to wait for before anything is read. -/
inductive AccessOut where
  | bytes (bs : List ByteReq) (gtag : Option Bool)
  | fault (c : Cause)
  | wait (cs : List Cond)
  deriving DecidableEq, Repr

/-- The pieces of an access in turn. -/
def accessPieces (s : State) (g : GroupId) (tenant id : Nat) (racq scWide : Bool) : List (W64 × Nat) → State × AccessOut
  | [] => (s, .bytes [] none)
  | (va, n) :: r =>
    match s.pageHost g.core tenant va .load with
    | some ln => (s.callBack ln, .wait [.lineHome ln])
    | none =>
    match translate s g.core tenant va .load with
    | (s1, .error c) => (s1, .fault c)
    | (s1, .ok (.mem pa)) =>
      let own := s1.ownWaits g (va.toNat / 128) ++ s1.loadWaits g id (va.toNat / 128) (pa / 128)
      let others := if scWide then (s1.core g.core).othersHolding g va n else []
      if !own.isEmpty || !others.isEmpty then
        let s2 := others.foldl (fun x e => x.trigger g.core e.1) s1
        (s2, .wait (own ++ others.map fun e => Cond.entryGone e.2))
      else match pieceBytes s1 g tenant id racq scWide va pa n with
        | (s2, .error c) => (s2, .fault c)
        | (s2, .ok (bs, t)) =>
          (match accessPieces s2 g tenant id racq scWide r with
            | (s3, .bytes more _) => (s3, .bytes (bs ++ more) t)
            | x => x)
    | (s1, .ok _) => (s1, .fault .align)

/-- A load of a control region's register (R244). -/
def regionLoad (s : State) (c : Ctx) (tenant : Nat) (k : Cap) (tg : Target) (va : W64) : State × AccessOut :=
  if !k.grants permSYS then (s, .fault .capPerm)
  else
    let out := fun (v : W64) => AccessOut.bytes ((List.range 8).map fun j =>
      (⟨0, va + BitVec.ofNat 64 j, some (v.extractLsb' (8 * j) 8)⟩ : ByteReq)) (some false)
    match tg with
    | .coreRegion core off => let (s1, v) := s.coreRegRead tenant core off; (s1, out v)
    | .queueRegion die off => (s, out (s.queueRegRead tenant die off c.team.sLevel))
    | .mem _ => (s, .fault .align)

/-- Load (R252): CapCheck, alignment, translation, then the bytes. -/
def loadAccess (s : State) (c : Ctx) (id : Nat) (sp : LoadSpec) (order scope : Nat) (k : Cap) (a : W64) : State × AccessOut :=
  let tn := c.team.tenant
  match capCheck k a sp.n permLD with
  | some f => (s, .fault f)
  | none =>
    if !sp.block && a.toNat % min sp.n 16 ≠ 0 then (s, .fault .align)
    else
      let go := accessPieces s c.gid tn id (order == 5) (isSc order && decide (2 ≤ scope)) (linePieces a sp.n)
      if sp.plain8 && (s.pageHost c.core tn a .load).isNone then
        match translate s c.core tn a .load with
        | (s1, .ok (.coreRegion x y)) => regionLoad s1 c tn k (.coreRegion x y) a
        | (s1, .ok (.queueRegion x y)) => regionLoad s1 c tn k (.queueRegion x y) a
        | _ => go
      else go

/-- Conditions that an sc load waits for first (R258). -/
def Ctx.scLoadWaits (c : Ctx) (order scope : Nat) : List Cond :=
  if isSc order then (if c.g.p 2 = 0 then [] else [.pLe 2 0]) ++ (if decide (2 ≤ scope) && c.g.p 3 != 0 then [.pLe 3 0] else []) else []

/-- A late result as a word leaves it at issue. -/
def Ctx.mkLate (c : Ctx) (id : Nat) (kind : LateKind) (reqs : List LaneReq) : Late where
  id := id
  kind := kind
  split := c.site.split
  lanes := c.p.lanes
  reqs := reqs
  vdests := []
  sdests := []
  vwrites := []
  swrites := []
  newTag := none
  acquire := false
  dropL1 := false
  racq := false
  trig := false
  rel := none
  stamp := none
  item := none
  word := c.wordAddr
  faults := []

/-- Posts the return of a late result whose bytes are all there. -/
def State.addLate (s : State) (g : GroupId) (l : Late) : State :=
  let s1 := s.modGroup g fun x => { x with lates := x.lates ++ [l] }
  if l.pendingBytes then s1 else s1.post (.loadReturn g l.id)

/-- Ends a load word: acquires hold the split until the return (R256). -/
def loadEnd (s : State) (id : Nat) (order scope : Nat) (some_ : Bool) (fs : List LaneFault) : WordOut :=
  let _ := scope
  if isAcquire order && some_ then .hold s ⟨[.lateDone id], false, false⟩ fs else .done s fs

/-- A vector load (R261, R263, R264). -/
def vectorLoad (o : MOp) (sp : LoadSpec) (c : Ctx) (s : State) : WordOut :=
  let ls := c.lanes o.m
  let order := o.order.toNat
  let scope := o.scope.toNat
  guardW (c.memReady o ls sp.regs) c o.m s <|
    let pre := c.scLoadWaits order scope
    if !pre.isEmpty then .hold s ⟨pre, true, false⟩ []
    else
      let id := s.freshId
      let r := ls.foldl (fun (acc : LoadAcc) l =>
        match c.regAt o.off 1 l, c.regAt o.t sp.regs l with
        | some ro, some rt =>
          let k := c.memCap o l
          let a := effAddr k (c.memOff ro l) o.imm8 sp.n
          (match loadAccess acc.s c id sp order scope k a with
            | (s1, .fault f) => { acc with s := s1, faults := acc.faults ++ [(l, f, a)] }
            | (s1, .wait cs) => { acc with s := s1, waits := acc.waits ++ cs }
            | (s1, .bytes bs t) =>
              { acc with s := s1, reqs := acc.reqs ++ [⟨l, (List.range sp.regs).map fun j => rt + j, bs, t, a, if k.grants permLC then 1 else 0⟩] })
        | _, _ => { acc with faults := acc.faults ++ [(l, .indexWindow, 0)] }) ⟨s.useId, [], [], []⟩
      if !r.waits.isEmpty then .hold r.s ⟨r.waits, true, false⟩ []
      else
        let dests := ((if o.t.toNat < 1536 then (List.range sp.regs).map fun j => o.t.toNat + j else []) ++ r.reqs.flatMap LaneReq.regs).dedup
        -- with no lane left the destination is still marked empty and then filled (R129, R254)
        let l := { c.mkLate id sp.kind r.reqs with
          vdests := dests, newTag := some sp.tag, acquire := isAcquire order
          dropL1 := isAcquire order && decide (2 ≤ scope), racq := order == 5 }
        let s1 := r.s.modGroup c.gid fun g => dests.foldl (fun x d => x.emptyV d) g
        loadEnd (s1.addLate c.gid l) id order scope true r.faults

/-- LD of SIZE 0 to 4 (R261, R253); FORMAT comes after the checks of the registers' places (R112). -/
def execLd (tag : BitVec 5) (o : MOp) (s : State) : Host.Outcome State Fault Refusal :=
  runWord false o.m (fun c s =>
    let size := o.size.toNat
    match tagOf tag.toNat with
    | none => guardW (c.memPlaces o (sizeRegs size)) c o.m s (.trap s .format 0 (c.active o.m))
    | some t =>
      if !sizeTagOk size t then guardW (c.memPlaces o (sizeRegs size)) c o.m s (.trap s .format 0 (c.active o.m))
      else vectorLoad o ⟨2 ^ size, sizeRegs size, t, .load size t, false, size == 3⟩ c s) s

/-- LD of SIZE 5, a block record (R264); a tag without a record shape has one register to place. -/
def execLdRec (tag : BitVec 5) (o : MOp) (s : State) : Host.Outcome State Fault Refusal :=
  runWord false o.m (fun c s =>
    match (tagOf tag.toNat).bind fun t => (recordShape t).map fun x => (t, x) with
    | none => guardW (c.memPlaces o 1) c o.m s (.trap s .format 0 (c.active o.m))
    | some (t, n, k) => vectorLoad o ⟨n, k + 1, t, .load 5 t, true, false⟩ c s) s

/-- LDC (R263). -/
def execLdc (o : MOp) (s : State) : Host.Outcome State Fault Refusal :=
  runWord false o.m (vectorLoad o ⟨16, 4, .cap, .loadCap true, false, false⟩) s

/-- The address of a uniform access (R262). -/
def Ctx.uniAddr (c : Ctx) (o : MOp) : W64 := effAddr (c.g.sc o.base.toNat) (c.g.s (o.off.toNat % 128)) o.imm8 (2 ^ o.size.toNat)

/-- LDU (R262): once, its faults precise; S[T] is empty until the bytes return. -/
def lduWord (o : MOp) (c : Ctx) (s : State) : WordOut :=
  let b := o.base.toNat
  let t := o.t.toNat
  let size := o.size.toNat
  let order := o.order.toNat
  let scope := o.scope.toNat
  if b % 2 ≠ 0 then .trap s .regAlign 0 c.p.lanes
  else guardW (c.checkScalars (pairRegs b ++ [o.off.toNat % 128, t])) c 0 s <|
    let pre := c.scLoadWaits order scope
    if !pre.isEmpty then .hold s ⟨pre, true, false⟩ []
    else
      let id := s.freshId
      let k := c.g.sc b
      let a := c.uniAddr o
      match loadAccess s.useId c id ⟨2 ^ size, 1, .raw, .loadU size, false, size == 3⟩ order scope k a with
      | (s1, .fault f) => .trap s1 f a c.p.lanes
      | (s1, .wait cs) => .hold s1 ⟨cs, true, false⟩ []
      | (s1, .bytes bs tg) =>
        let l := { c.mkLate id (.loadU size) [⟨0, [], bs, tg, a, 0⟩] with
          sdests := if t = 0 then [] else [t], acquire := isAcquire order
          dropL1 := isAcquire order && decide (2 ≤ scope), racq := order == 5 }
        loadEnd ((s1.modGroup c.gid fun g => g.emptyS t).addLate c.gid l) id order scope true []

def execLdu (o : MOp) (s : State) : Host.Outcome State Fault Refusal := runWord false 0 (lduWord o) s

/-! Stores. -/

/-- One lane's bytes to store. -/
structure LaneStore where
  lane : Nat
  va : W64
  n : Nat
  v : Nat
  tag : Bool
  deriving DecidableEq, Repr

/-- Lays a lane's bytes over the pieces of a store: bytes of a higher lane replace a lower lane's (R254). -/
def addPiece (va : W64) (n v : Nat) (tag : Bool) : List Piece → List Piece
  | [] =>
    let o := va.toNat % 128
    let m : LineMask := BitVec.ofNat 128 ((2 ^ n - 1) * 2 ^ o)
    let g := touched m
    [⟨va.toNat / 128, none, m, BitVec.ofNat 1024 (v % 2 ^ (8 * n) * 2 ^ (8 * o)), if tag then g else 0, g, false⟩]
  | p :: r =>
    if p.va = va.toNat / 128 then
      let o := va.toNat % 128
      let m : LineMask := BitVec.ofNat 128 ((2 ^ n - 1) * 2 ^ o)
      let g := touched m
      { p with
        mask := p.mask ||| m
        data := overlay p.data (BitVec.ofNat 1024 (v % 2 ^ (8 * n) * 2 ^ (8 * o))) m
        tags := (p.tags &&& ~~~g) ||| (if tag then g else 0)
        touched := p.touched ||| g } :: r
    else p :: addPiece va n v tag r

/-- The pieces of a store word, in the order in which its lanes name the lines. -/
def storePieces (xs : List LaneStore) : List Piece :=
  xs.foldl (fun ps x =>
    ((linePieces x.va x.n).foldl (fun (acc : List Piece × Nat) q => (addPiece q.1 q.2 (acc.2 % 2 ^ (8 * q.2)) x.tag acc.1, acc.2 / 2 ^ (8 * q.2)))
      (ps, x.v)).1) []

/-- The physical line of a piece, where the TLB knows it and the access passes (R235). -/
def pieceLine (s : State) (core tenant : Nat) (p : Piece) : State × Piece :=
  let va : W64 := BitVec.ofNat 64 (p.va * 128)
  if tlbHits s core tenant va then
    match translate s core tenant va .store with
    | (s1, .ok (.mem pa)) => (s1, { p with pa := some (pa / 128) })
    | _ => (s, p)
  else (s, p)

/-- A store that has been issued: it waits to enter the hearth, and p2 rises (R245). -/
def State.issueStore (s : State) (c : Ctx) (ps : List Piece) (rel : Option Nat) : State :=
  let (s1, qs) := ps.foldl (fun (acc : State × List Piece) p => let x := pieceLine acc.1 c.core c.team.tenant p; (x.1, acc.2 ++ [x.2])) (s, [])
  let id := s1.freshId
  let s2 := s1.useId.modGroup c.gid fun g => g.ctrUp 2 id
  s2.modCore c.core fun k => { k with waiting := k.waiting ++ [⟨id, c.gid, c.p.lanes, qs, rel, false⟩] }

/-- A region that a store's translation is known to reach at issue (R244). -/
def storeRegion (s : State) (c : Ctx) (a : W64) : Option Target :=
  if tlbHits s c.core c.team.tenant a then
    match (translate s c.core c.team.tenant a .store).2 with
    | .ok (.coreRegion x y) => some (.coreRegion x y)
    | .ok (.queueRegion x y) => some (.queueRegion x y)
    | _ => none
  else none

/-- A store to a region's register. -/
def regionStore (s : State) (c : Ctx) (tg : Target) (v : W64) : State :=
  match tg with
  | .coreRegion core off => s.coreRegWrite c.team.tenant core off v
  | .queueRegion die off => s.queueRegWrite c.team.tenant die off v c.team.sLevel
  | .mem _ => s

/-- The checks of a store to a region (R244). -/
def regionCheck (k : Cap) (plain8 : Bool) : Option Cause := if !plain8 then some .align else if !k.grants permSYS then some .capPerm else none

/-- What the lanes of a store word do. -/
structure StoreAcc where
  s : State
  stores : List LaneStore
  faults : List LaneFault
  waits : List Cond

/-- Ends a store word. An sc store holds its split until its entries are FREE (R258). -/
def storeEnd (s : State) (c : Ctx) (xs : List LaneStore) (order scope : Nat) (fs : List LaneFault) : WordOut :=
  if xs.isEmpty then .done s fs
  else
    let s1 := s.issueStore c (storePieces xs) (if isRelease order then some scope else none)
    if isSc order then .hold s1 ⟨[.accepted (s1.freshId - 1)], false, false⟩ fs else .done s1 fs

/-- One lane's store (R261, R263): bytes, permissions, value. -/
structure StoreVal where
  n : Nat
  need : Nat
  v : Nat
  tag : Bool
  local_ : Bool
  block : Bool
  plain8 : Bool

/-- One lane's checks and its place among the stores. -/
def storeLane (c : Ctx) (l : Nat) (k : Cap) (a : W64) (x : StoreVal) (acc : StoreAcc) : StoreAcc :=
  let bad := fun (f : Cause) => { acc with faults := acc.faults ++ [(l, f, a)] }
  match capCheck k a x.n x.need with
  | some f => bad f
  | none =>
    if !x.block && a.toNat % min x.n 16 ≠ 0 then bad .align
    else if x.local_ && k.grants permGL then bad .capPerm
    else match storeRegion acc.s c a with
      | some tg => (match regionCheck k x.plain8 with
        | some f => bad f
        | none => { acc with s := regionStore acc.s c tg (BitVec.ofNat 64 x.v) })
      | none => { acc with stores := acc.stores ++ [⟨l, a, x.n, x.v, x.tag⟩] }

/-- A vector store: `val` gives a lane's value from the first register of its data operand (R261, R263, R264). -/
def vectorStore (o : MOp) (regs unit : Nat) (ok : FTag → Bool) (val : Ctx → State → Nat → Nat → StoreVal) (c : Ctx) (s : State) : WordOut :=
  let ls := c.lanes o.m
  let act := c.active o.m
  guardW (c.memReady o ls regs) c o.m s <|
    match c.tagOf o.t ls with
    | .error e => e.out s act
    | .ok t =>
      if !(c.touched o.t 1 ls).isEmpty && !ok t then .trap s .format 0 act
      else if 255 ≤ c.g.p 2 then .hold s ⟨[.ctrRoom 2], true, false⟩ []
      else
        let r := ls.foldl (fun (acc : StoreAcc) l =>
          match c.regAt o.off 1 l, c.regAt o.t regs l with
          | some ro, some rt =>
            let k := c.memCap o l
            storeLane c l k (effAddr k (c.memOff ro l) o.imm8 unit) (val c s rt l) acc
          | _, _ => { acc with faults := acc.faults ++ [(l, .indexWindow, 0)] }) ⟨s, [], [], []⟩
        storeEnd r.s c r.stores o.order.toNat o.scope.toNat r.faults

/-- ST of SIZE 0 to 4 (R261). -/
def execSt (o : MOp) (s : State) : Host.Outcome State Fault Refusal :=
  runWord false o.m (fun c s =>
    let size := o.size.toNat
    let regs := sizeRegs size
    vectorStore o regs (2 ^ size) (fun t => sizeTagOk size t && c.sameTags o.t regs (c.lanes o.m) t)
      (fun c _ rt l => ⟨2 ^ size, permST, c.read rt regs l % 2 ^ (8 * 2 ^ size), false, false, false, size == 3⟩) c s) s

/-- ST of SIZE 5 (R264): the element registers carry the tag, the scale register E8M0X4. -/
def execStRec (o : MOp) (s : State) : Host.Outcome State Fault Refusal :=
  runWord false o.m (fun c s =>
    let ls := c.lanes o.m
    guardW (c.memPlaces o 1) c o.m s <|
    match c.tagOf o.t ls with
    | .error e => e.out s (c.active o.m)
    | .ok t =>
      match recordShape t with
      | none =>
        -- a data register that is still empty has no tag to refuse
        guardW (c.memReady o ls 1) c o.m s <|
          if (c.touched o.t 1 ls).isEmpty then .done s (ls.map fun l => (l, .indexWindow, 0)) else .trap s .format 0 (c.active o.m)
      | some (n, k) =>
        vectorStore o (k + 1) n (fun _ => ls.all fun l => match c.regAt o.t (k + 1) l with
            | some r => ((List.range k).all fun j => (c.g.v (r + j)).tag == t) && (c.g.v (r + k)).tag == .e8m0x4
            | none => true)
          (fun c _ rt l => ⟨n, permST, c.read (rt + k) 1 l % 256 + 256 * c.read rt k l, false, false, true, false⟩) c s) s

/-- STC (R263, R53, R56). -/
def execStc (o : MOp) (s : State) : Host.Outcome State Fault Refusal :=
  runWord false o.m (fun c s =>
    vectorStore o 4 16 (fun t => sizeTagOk 4 t && c.sameTags o.t 4 (c.lanes o.m) t)
      (fun c s rt l =>
        let v := c.g.quad rt l
        let k := s.sweepFilter c.team.tenant c.core v
        ⟨16, if v.tag then permST + permSC else permST, v.bits.toNat, k.tag, v.tag && !v.grants permGL, false, false⟩) c s) s

/-- STU (R262). -/
def stuWord (o : MOp) (c : Ctx) (s : State) : WordOut :=
  let b := o.base.toNat
  let size := o.size.toNat
  if b % 2 ≠ 0 then .trap s .regAlign 0 c.p.lanes
  else guardW (c.checkScalars (pairRegs b ++ [o.off.toNat % 128, o.t.toNat])) c 0 s <|
    if 255 ≤ c.g.p 2 then .hold s ⟨[.ctrRoom 2], true, false⟩ []
    else
      let a := c.uniAddr o
      let v := (c.g.s o.t.toNat).toNat % 2 ^ (8 * 2 ^ size)
      let r := storeLane c 0 (c.g.sc b) a ⟨2 ^ size, permST, v, false, false, false, size == 3⟩ ⟨s, [], [], []⟩
      match r.faults with
      | f :: _ => .trap s f.2.1 a c.p.lanes
      | [] => storeEnd r.s c r.stores o.order.toNat o.scope.toNat []

def execStu (o : MOp) (s : State) : Host.Outcome State Fault Refusal := runWord false 0 (stuWord o) s

/-! Atomics (R265 to R268). -/

/-- The tags of an operation (R265). -/
def atomTagOk (op size : Nat) (t : FTag) : Bool :=
  if op ≤ 2 then (if size = 2 then t == .i32 || t == .n32 else t == .i64 || t == .n64)
  else if op ≤ 7 then
    (if size = 2 then t == .raw || t == .i32 || t == .n32 || t == .f32 else t == .raw || t == .i64 || t == .n64 || t == .f64)
  else if size = 2 then t == .f32 else t == .f64

/-- The first register of the operands of an atomic in a lane: a CAS reads twice its registers (R265). -/
def Ctx.atomReg (c : Ctx) (t : VField) (n : Nat) (cas : Bool) (l : Nat) : Option Nat :=
  match c.regAt t n l with
  | none => none
  | some r =>
    if !cas || t.toNat < 1536 then some r
    else
      let k := t.toNat - 1536
      let i := (c.g.x (k / 64) l).toNat + k % 64
      if (c.g.window c.regs (k / 64)).2 < i + 2 * n then none else some r

/-- The registers of an atomic's operands that lanes touch. -/
def Ctx.atomRegs (c : Ctx) (t : VField) (n : Nat) (cas : Bool) (ls : List Nat) : List Nat :=
  let w := if cas then 2 * n else n
  let bases := if t.toNat < 1536 then [t.toNat] else ls.filterMap fun l => c.atomReg t n cas l
  (bases.flatMap fun r => (List.range w).map fun j => r + j).dedup

/-- The checks of an atomic's data operand: alignment, range, full registers, one tag (R265). -/
def Ctx.atomCheck (c : Ctx) (t : VField) (op size : Nat) (ls : List Nat) : Except Fail FTag :=
  let n := sizeRegs size
  let cas := op == 7
  if misaligned t n then .error (.trap .regAlign)
  else if decide (t.toNat < 1536) && decide (c.regs < t.toNat + (if cas then 2 * n else n)) then .error (.trap .regRange)
  else
    let rs := c.atomRegs t n cas ls
    let e := c.empties rs
    if !e.isEmpty then .error (.stall e)
    else match rs.map fun r => (c.g.v r).tag with
      | [] => .ok .raw
      | x :: r => if (r.all fun y => y == x) && atomTagOk op size x then .ok x else .error (.trap .format)

/-- The permissions of an atomic (R266). -/
def permAtom : Nat := permLD + permST + permAT

/-- One lane's atomic: checks and translation (R266, R267). -/
def atomAccess (s : State) (c : Ctx) (n : Nat) (k : Cap) (a : W64) : State × Except Cause Nat :=
  match capCheck k a n permAtom with
  | some f => (s, .error f)
  | none =>
    if a.toNat % n ≠ 0 then (s, .error .align)
    else match translate s c.core c.team.tenant a .atomic with
      | (s1, .error f) => (s1, .error f)
      | (s1, .ok (.mem pa)) => if s1.hostBlocked c.team.tenant (pa / 128) then (s1, .error .hostAbort) else (s1, .ok pa)
      | (s1, .ok _) => (s1, .error .align)

/-- The host's line that the walk of a lane's atomic waits for (R228, R297). -/
def atomHost (s : State) (c : Ctx) (n : Nat) (k : Cap) (a : W64) : Option Nat :=
  if (capCheck k a n permAtom).isNone && a.toNat % n = 0 then s.pageHost c.core c.team.tenant a .atomic else none

/-- An atomic runs at the home of a device line at dev and sys scope, and for racq; else in the hearth (R267). -/
def atHome (order scope pa : Nat) : Bool := !isHostLine (pa / 128) && (decide (3 ≤ scope) || order == 5)

/-- Entries of a core that an atomic at home must see FREE first: those that hold the PA line, or the VA line while unwalked (R267). -/
def Core.holdsLine (k : Core) (pline vline : Nat) : List Nat :=
  (k.hearth.filter fun ie => if ie.2.tv then ie.2.pa == pline else ie.2.va == vline).map Prod.fst

/-- Starts an atomic's late results: at home, in the hearth, or both; p2 rises by one, and a no-rewind stretch begins (R245, R397). -/
def State.startAtomic (s : State) (c : Ctx) (op size : Nat) (signed uniform : Bool) (order scope : Nat) (reqs : List LaneReq)
    (f : Late → Late) : State × List Nat :=
  let item := s.freshId
  let rel := if isRelease order then some scope else none
  let acq := isAcquire order
  let home := reqs.filter fun r => match r.bytes with | b :: _ => atHome order scope b.pa | [] => false
  let near := reqs.filter fun r => match r.bytes with | b :: _ => !atHome order scope b.pa | [] => false
  let late := fun (id : Nat) (k : LateKind) (rs : List LaneReq) => f { c.mkLate id k rs with
    acquire := acq, dropL1 := acq && decide (2 ≤ scope), rel := rel, item := some item }
  let lates := (if home.isEmpty then [] else [late (item + 1) (.atomHome op size signed uniform) home])
    ++ (if near.isEmpty then [] else [late (item + 2) (.atomHearth op size signed uniform rel) near])
  let s1 := s.useId.useId.useId.modGroup c.gid fun g => { (g.ctrUp 2 item).stretch with lates := g.lates ++ lates }
  let lines := near.filterMap fun r => match r.bytes with | b :: _ => some (b.pa / 128) | [] => none
  let s2 := lines.dedup.foldl (fun x ln => x.wantGrant c.core ln false) s1
  let s3 := home.foldl (fun x r => match r.bytes with
    | b :: _ => ((x.core c.core).holdsLine (b.pa / 128) (b.va.toNat / 128)).foldl (fun y i => y.trigger c.core i) x
    | [] => x) s2
  (s3, lates.map Late.id)

/-- Conditions before an atomic issues: room in p2, an sc load's waits, and the group's own stores and atomics of its lines (R245, R258, R236, R278). -/
def Ctx.atomWaits (c : Ctx) (s : State) (order scope : Nat) (vas : List W64) : List Cond :=
  (if 255 ≤ c.g.p 2 then [.ctrRoom 2] else []) ++ c.scLoadWaits order scope
    ++ vas.flatMap fun a => s.ownWaits c.gid (a.toNat / 128)

/-- Ends an atomic word with the item `item` of p2: an acquire holds the split until the old values return, an sc atomic until its own entries are
FREE, which join the conditions as they are made (R256, R258). -/
def atomEnd (s : State) (item : Nat) (ids : List Nat) (order : Nat) (fs : List LaneFault) : WordOut :=
  if isAcquire order && !ids.isEmpty then .hold s ⟨(ids.map Cond.lateDone) ++ (if isSc order then [.accepted item] else []), false, false⟩ fs else .done s fs

/-- ATOM (R265). -/
def atomWord (op : Nat) (o : MOp) (c : Ctx) (s : State) : WordOut :=
  let ls := c.lanes o.m
  let size := o.size.toNat
  let n := 2 ^ size
  let regs := sizeRegs size
  let order := o.order.toNat
  let scope := o.scope.toNat
  guardW (c.memPlaces o regs (if op = 7 then 2 * regs else regs)) c o.m s <| guardW (c.memReady { o with t := o.off } ls 1) c o.m s <|
    match c.atomCheck o.t op size ls with
    | .error e => e.out s (c.active o.m)
    | .ok t =>
      let r := ls.foldl (fun (acc : LoadAcc) l =>
        match c.regAt o.off 1 l, c.atomReg o.t regs (op == 7) l with
        | some ro, some rt =>
          let k := c.memCap o l
          let a := effAddr k (c.memOff ro l) o.imm8 n
          (match atomHost acc.s c n k a with
          | some ln => { acc with s := acc.s.callBack ln, waits := acc.waits ++ [.lineHome ln] }
          | none => match atomAccess acc.s c n k a with
            | (s1, .error f) => { acc with s := s1, faults := acc.faults ++ [(l, f, a)] }
            | (s1, .ok pa) =>
              let bs := (List.range n).map fun j => (⟨pa + j, a + BitVec.ofNat 64 j, none⟩ : ByteReq)
              { acc with
                s := s1
                reqs := acc.reqs ++ [⟨l, (List.range regs).map fun j => rt + j, bs, none, BitVec.ofNat 64 (c.read rt regs l),
                  if op = 7 then BitVec.ofNat 64 (c.read (rt + regs) regs l) else 0⟩] })
        | _, _ => { acc with faults := acc.faults ++ [(l, .indexWindow, 0)] }) ⟨s, [], [], []⟩
      let waits := r.waits ++ c.atomWaits r.s order scope (r.reqs.filterMap fun q => q.bytes.head?.map ByteReq.va)
      if !waits.isEmpty then .hold r.s ⟨waits, true, false⟩ []
      else
        let dests := ((if o.t.toNat < 1536 then (List.range regs).map fun j => o.t.toNat + j else []) ++ r.reqs.flatMap LaneReq.regs).dedup
        let s1 := r.s.modGroup c.gid fun g => dests.foldl (fun x d => x.emptyV d) g
        let id := s1.freshId
        if r.reqs.isEmpty then
          -- no lane is left: the destination is marked empty and then filled (R129, R254)
          let l := { c.mkLate id .filled [] with vdests := dests, acquire := isAcquire order, dropL1 := isAcquire order && decide (2 ≤ scope) }
          atomEnd (s1.useId.addLate c.gid l) id [id] (if isSc order then 3 else order) r.faults
        else
          let (s2, ids) := s1.startAtomic c op size t.isSigned false order scope r.reqs fun l => { l with vdests := dests }
          atomEnd s2 id ids order r.faults

def execAtom (op : BitVec 4) (o : MOp) (s : State) : Host.Outcome State Fault Refusal := runStretch o.m (atomWord op.toNat o) s

/-- ATOMU (R268). -/
def atomuWord (op : Nat) (o : MOp) (c : Ctx) (s : State) : WordOut :=
  let b := o.base.toNat
  let t := o.t.toNat
  let size := o.size.toNat
  let n := 2 ^ size
  let order := o.order.toNat
  let scope := o.scope.toNat
  if b % 2 ≠ 0 then .trap s .regAlign 0 c.p.lanes
  else guardW (c.checkScalars (pairRegs b ++ [o.off.toNat % 128, t] ++ (if op = 7 then [t + 1] else []))) c 0 s <|
    let a := c.uniAddr o
    match atomHost s c n (c.g.sc b) a with
    | some ln => .hold (s.callBack ln) ⟨[.lineHome ln], true, false⟩ []
    | none =>
    match atomAccess s c n (c.g.sc b) a with
    | (s1, .error f) => .trap s1 f a c.p.lanes
    | (s1, .ok pa) =>
      let waits := c.atomWaits s1 order scope [a]
      if !waits.isEmpty then .hold s1 ⟨waits, true, false⟩ []
      else
        let bs := (List.range n).map fun j => (⟨pa + j, a + BitVec.ofNat 64 j, none⟩ : ByteReq)
        let s2 := s1.modGroup c.gid fun g => g.emptyS t
        let (s3, ids) := s2.startAtomic c op size (o.off.getLsbD 7) true order scope
          [⟨0, [], bs, none, c.g.s t, if op = 7 then c.g.s (t + 1) else 0⟩] fun l => { l with sdests := if t = 0 then [] else [t] }
        atomEnd s3 s2.freshId ids order []

def execAtomu (op : BitVec 4) (o : MOp) (s : State) : Host.Outcome State Fault Refusal := runStretch 0 (atomuWord op.toNat o) s

/-! FENCE and DRAIN (R269, R270). -/

/-- FENCE: a release part waits, raises RSEQ and, at clu and wider, waits for every older entry; an acquire part waits for the split's
loads and drops the L1 (R260). -/
def fenceWord (order scope : Nat) (c : Ctx) (s : State) : WordOut :=
  let lates := (c.g.lates.filter fun l => l.lanes &&& c.p.lanes != 0 && (match l.kind with | .launch .. => false | _ => true)).map
    fun l => Cond.lateDone l.id
  let drop := isAcquire order && decide (2 ≤ scope)
  if isRelease order then
    let waits := c.fenceWaits scope
    if !waits.isEmpty then .hold s ⟨waits, true, false⟩ []
    else .hold (s.releaseFenceAt c.core scope) ⟨if 2 ≤ scope then [.olderGone (s.core c.core).seqNext] else [], false, drop⟩ []
  else .hold s ⟨lates, false, drop⟩ []

def execFence (order scope : BitVec 3) (s : State) : Host.Outcome State Fault Refusal := runWord false 0 (fenceWord order.toNat scope.toNat) s

/-- DRAIN (R270): every OPEN entry of the issuing group is triggered; nothing waits. -/
def execDrain (s : State) : Host.Outcome State Fault Refusal :=
  runWord false 0 (fun c s =>
    let mine := sortBy (fun ie => ie.2.stamp) ((s.core c.core).hearth.filter fun ie =>
      ie.2.slot == c.gid.slot && ie.2.group == c.gid.group && ie.2.st == .open_)
    .done (mine.foldl (fun x ie => x.trigger c.core ie.1) s) []) s

end Sys2Proof.Machine
end

