-- ==== Sys2Proof/Machine/Local.lean ====
section
/-! DEFINITION. The LOCAL instructions (spec/11, R271 to R274): the team's scratchpad and the scratchpads of its cluster. -/
namespace Sys2Proof.Machine

/-- `n` bytes of a share, little-endian. -/
def scratchNat (m : NMap Byte) (a : Nat) : Nat → Nat
  | 0 => 0
  | n + 1 => (NMap.getD m a 0).toNat + 256 * scratchNat m (a + 1) n

/-- Writes a byte; zero, which a share begins with, is not kept (R35). -/
def scratchPut (m : NMap Byte) (a : Nat) (b : Byte) : NMap Byte := if b = 0 then NMap.del m a else NMap.set m a b

def scratchPutNat (m : NMap Byte) (a : Nat) : Nat → Nat → NMap Byte
  | 0, _ => m
  | n + 1, v => scratchPutNat (scratchPut m a (BitVec.ofNat 8 v)) (a + 1) n (v / 256)

/-- The team a LOCAL word reaches: the issuing team, or the member of its rick on core k of its cluster (R273). -/
def localTarget (s : State) (c : Ctx) (cluster : Bool) (base : W64) : Option (Nat × Nat) :=
  if !cluster then some (c.core, c.gid.slot)
  else
    let k := bitsOf base.toNat 32 6
    if 48 ≤ k then none else (s.rickTeams c.team).find? fun x => x.1 == clusterOf c.core * 48 + k

/-- One lane's address in the share of a target (R271); a cause goes with the address, for tinfo (R390). -/
def localAddr (c : Ctx) (o : MOp) (share : Nat) (r l : Nat) : Except (Cause × W64) Nat :=
  let n := 2 ^ o.size.toNat
  let b := (bitsOf (c.g.s o.base.toNat).toNat 0 32 : Nat)
  let w := c.g.lane r l
  let off : Int := if (c.g.v r).tag == .i32 then w.toInt else w.toNat
  let a : Int := (b : Int) + off + signedOf 8 o.imm8.toNat * (n : Int)
  if a < 0 || (share : Int) < a + (n : Int) then .error (.window, BitVec.ofInt 64 a)
  else if a.toNat % n ≠ 0 then (.error (.align, BitVec.ofInt 64 a) : Except (Cause × W64) Nat)
  else .ok a.toNat

/-- The faults of the lanes of a word that reaches no share (R273). -/
def localNowhere (c : Ctx) (o : MOp) (ls : List Nat) : List LaneFault :=
  ls.map fun l => match c.regAt o.off 1 l with
    | some ro => (match localAddr c o 0 ro l with | .error f => (l, .window, f.2) | .ok a => (l, .window, BitVec.ofNat 64 a))
    | none => (l, .window, 0)

/-- Steps 5 and 6 of R112 for a LOCAL word whose data operand has `n` registers, `m` with those that a CAS adds. -/
def Ctx.localPlaces (c : Ctx) (o : MOp) (n : Nat) (m : Nat := n) : Except Fail Unit :=
  if misaligned o.t n then .error (.trap .regAlign)
  else if c.outOfRange o.t m || c.outOfRange o.off 1 then .error (.trap .regRange)
  else .ok ()

/-- The checks of a LOCAL word's registers. -/
def Ctx.localReady (c : Ctx) (o : MOp) (ls : List Nat) (n : Nat) : Except Fail Unit :=
  match c.localPlaces o n with
  | .error e => .error e
  | .ok _ =>
    let e := c.sEmpties [o.m.toNat, o.base.toNat] ++ c.empties (c.touched o.off 1 ls) ++ c.empties (c.touched o.t n ls)
    if e.isEmpty then .ok () else .error (.stall e)

/-- What a LOCAL word waits for before it acts (R274, R257, R258): a release's loads and counters, an sc access's stores, room in p0 or p1. An sc
load is no release. -/
def Ctx.localWaits (c : Ctx) (load : Bool) (order scope : Nat) (counter : Option Nat) : List Cond :=
  let rel := isRelease order && !load
  (match counter with | some n => if 255 ≤ c.g.p n then [.ctrRoom n] else [] | none => [])
    ++ (if rel then c.fenceWaits scope else []) ++ (if rel then [] else c.scLoadWaits order scope)

/-- A release at cluster scope stands behind every entry of the core (R274, R260; log entry 17). -/
def localRelease (s : State) (c : Ctx) (load : Bool) (order scope : Nat) : Option State :=
  if isRelease order && !load && decide (2 ≤ scope) && !(s.core c.core).hearth.isEmpty then some (s.triggerWhere c.core fun _ => true) else none

/-- Counts a LOCAL word and posts the step that completes it (R245). -/
def State.countLocal (s : State) (c : Ctx) (counter : Option Nat) (id : Nat) : State :=
  match counter with
  | some n => (s.modGroup c.gid fun g => g.ctrUp n id).post (if n = 0 then .scratchWriteDone c.gid id else .clusterAccessDone c.gid id)
  | none => s

/-- The frame that the LOCAL words share: checks, waits, the target share; every active lane takes WINDOW without a target. -/
def localWord (cluster load : Bool) (counter : Option Nat) (o : MOp) (regs : Nat) (chk : Ctx → List Nat → Except Fail Unit)
    (k : Ctx → State → List Nat → Nat × Nat → Team → WordOut) (c : Ctx) (s : State) : WordOut :=
  let ls := c.lanes o.m
  let order := o.order.toNat
  let scope := o.scope.toNat
  guardW (c.localReady o ls regs) c o.m s <| guardW (chk c ls) c o.m s <|
    let waits := c.localWaits load order scope counter
    if !waits.isEmpty then .hold s ⟨waits, true, false⟩ []
    else match localRelease s c load order scope with
      | some s1 => .hold s1 ⟨[.olderGone (s.core c.core).seqNext], true, false⟩ []
      | none =>
        match localTarget s c cluster (c.g.s o.base.toNat) with
        | none => .done s (localNowhere c o ls)
        | some t => match s.team t.1 t.2 with
          | none => .done s (localNowhere c o ls)
          | some x => k c s ls t x

/-- The destination registers and the late result of a LOCAL load or atomic: its values are already there (R121). -/
def localLate (s : State) (c : Ctx) (o : MOp) (regs id : Nat) (ws : List (Nat × Nat × W32)) (rs : List Nat) (tag : Option FTag)
    (fs : List LaneFault) : WordOut :=
  let order := o.order.toNat
  let acq := isAcquire order
  let drop := acq && decide (2 ≤ o.scope.toNat)
  let dests := ((if o.t.toNat < 1536 then (List.range regs).map fun j => o.t.toNat + j else []) ++ rs).dedup
  let l := { c.mkLate id .filled [] with vdests := dests, vwrites := ws, newTag := tag, acquire := acq, dropL1 := drop }
  let s1 := s.modGroup c.gid fun g => dests.foldl (fun x d => x.emptyV d) g
  loadEnd (s1.addLate c.gid l) id order o.scope.toNat true fs

/-- LDS and LDX (R272, R273). -/
def localLoad (cluster : Bool) (tag : Nat) (o : MOp) (c : Ctx) (s : State) : WordOut :=
  let size := o.size.toNat
  let n := 2 ^ size
  let regs := sizeRegs size
  match tagOf tag with
  | none => guardW (c.localPlaces o regs) c o.m s (.trap s .format 0 (c.active o.m))
  | some t =>
    if !sizeTagOk size t then guardW (c.localPlaces o regs) c o.m s (.trap s .format 0 (c.active o.m))
    else localWord cluster true (if cluster then some 1 else none) o regs (fun _ _ => .ok ()) (fun c s ls tg team =>
      let id := s.freshId
      let r := ls.foldl (fun (acc : List (Nat × Nat × W32) × List Nat × List LaneFault) l =>
        match c.regAt o.off 1 l, c.regAt o.t regs l with
        | some ro, some rt =>
          (match localAddr c o team.shareBytes ro l with
            | .error f => (acc.1, acc.2.1, acc.2.2 ++ [(l, f.1, f.2)])
            | .ok a =>
              let ws := (loadWords size t (scratchNat team.scratch a n)).zipIdx.map fun wi => (rt + wi.2, l, wi.1)
              (acc.1 ++ ws, acc.2.1 ++ (List.range regs).map fun j => rt + j, acc.2.2))
        | _, _ => (acc.1, acc.2.1, acc.2.2 ++ [(l, .indexWindow, 0)])) ([], [], [])
      let _ := tg
      localLate (s.useId.countLocal c (if cluster then some 1 else none) id) c o regs id r.1 r.2.1 (some t) r.2.2) c s

/-- The value of NOTIFY after a write of n bytes at `a` into a team's share, when the write touches it (R305). -/
def notifyAfter (team : Team) (m : NMap Byte) (a n : Nat) : List (BitVec 32) :=
  match team.ring with
  | none => []
  | some r => if a < r.hdr + 4 && r.hdr < a + n then [BitVec.ofNat 32 (scratchNat m r.hdr 4)] else []

/-- The engine acts on each write to NOTIFY (R305). -/
def State.notifyRing (s : State) (g : GroupId) (tg : Nat × Nat) (vs : List (BitVec 32)) : State :=
  vs.foldl (fun x v => x.post (.ringNotify g tg.1 tg.2 v)) s

/-- STS and STX (R272, R273): higher lanes write over lower ones. -/
def localStore (cluster : Bool) (o : MOp) (c : Ctx) (s : State) : WordOut :=
  let size := o.size.toNat
  let n := 2 ^ size
  let regs := sizeRegs size
  let counter := if cluster then some 1 else some 0
  let chk := fun (c : Ctx) (ls : List Nat) => match c.tagOf o.t ls with
    | .error e => .error e
    | .ok t => if (c.touched o.t 1 ls).isEmpty || (sizeTagOk size t && c.sameTags o.t regs ls t) then .ok () else .error (.trap .format)
  localWord cluster false counter o regs chk (fun c s ls tg team =>
    let id := s.freshId
    let r := ls.foldl (fun (acc : NMap Byte × List (BitVec 32) × List LaneFault) l =>
      match c.regAt o.off 1 l, c.regAt o.t regs l with
      | some ro, some rt =>
        (match localAddr c o team.shareBytes ro l with
          | .error f => (acc.1, acc.2.1, acc.2.2 ++ [(l, f.1, f.2)])
          | .ok a =>
            let m := scratchPutNat acc.1 a n (c.read rt regs l)
            (m, acc.2.1 ++ notifyAfter team m a n, acc.2.2))
      | _, _ => (acc.1, acc.2.1, acc.2.2 ++ [(l, .indexWindow, 0)])) (team.scratch, [], [])
    .done (((s.useId.modTeam tg.1 tg.2 fun x => { x with scratch := r.1 }).countLocal c counter id).notifyRing c.gid tg r.2.1) r.2.2) c s

/-- ATOMS and ATOMX (R272, R273): operations 0 to 7 in lane order. -/
def localAtom (cluster : Bool) (op : Nat) (o : MOp) (c : Ctx) (s : State) : WordOut :=
  let size := o.size.toNat
  let n := 2 ^ size
  let regs := sizeRegs size
  let counter := if cluster then some 1 else some 0
  guardW (c.localPlaces o regs (if op = 7 then 2 * regs else regs)) c o.m s <|
  localWord cluster false counter { o with t := o.off } 1 (fun c ls => (c.atomCheck o.t op size ls).map fun _ => ()) (fun c s ls tg team =>
    let id := s.freshId
    let sg := match c.atomCheck o.t op size ls with | .ok t => t.isSigned | .error _ => false
    let r := ls.foldl (fun (acc : (NMap Byte × List (BitVec 32)) × List (Nat × Nat × W32) × List Nat × List LaneFault) l =>
      match c.regAt o.off 1 l, c.atomReg o.t regs (op == 7) l with
      | some ro, some rt =>
        (match localAddr c o team.shareBytes ro l with
          | .error f => (acc.1, acc.2.1, acc.2.2.1, acc.2.2.2 ++ [(l, f.1, f.2)])
          | .ok a =>
            let old := scratchNat acc.1.1 a n
            let nw := atomApply op n sg old (c.read rt regs l) (if op = 7 then c.read (rt + regs) regs l else 0)
            let m := scratchPutNat acc.1.1 a n nw
            ((m, acc.1.2 ++ notifyAfter team m a n), acc.2.1 ++ laneWrites rt regs l old, acc.2.2.1 ++ (List.range regs).map (fun j => rt + j), acc.2.2.2))
      | _, _ => (acc.1, acc.2.1, acc.2.2.1, acc.2.2.2 ++ [(l, .indexWindow, 0)])) ((team.scratch, []), [], [], [])
    let s1 := ((s.useId.modTeam tg.1 tg.2 fun x => { x with scratch := r.1.1 }).countLocal c counter id).notifyRing c.gid tg r.1.2
    localLate (s1.modGroup c.gid fun g => g.stretch) c o regs id r.2.1 r.2.2.1 none r.2.2.2) c s

/-- LDS (R272). -/
def execLds (tag : BitVec 5) (o : MOp) (s : State) : Host.Outcome State Fault Refusal := runWord false o.m (localLoad false tag.toNat o) s
/-- STS (R272). -/
def execSts (o : MOp) (s : State) : Host.Outcome State Fault Refusal := runWord false o.m (localStore false o) s
/-- ATOMS (R272). -/
def execAtoms (op : BitVec 4) (o : MOp) (s : State) : Host.Outcome State Fault Refusal := runStretch o.m (localAtom false op.toNat o) s
/-- LDX (R273). -/
def execLdx (tag : BitVec 5) (o : MOp) (s : State) : Host.Outcome State Fault Refusal := runWord false o.m (localLoad true tag.toNat o) s
/-- STX (R273). -/
def execStx (o : MOp) (s : State) : Host.Outcome State Fault Refusal := runWord false o.m (localStore true o) s
/-- ATOMX (R273). -/
def execAtomx (op : BitVec 4) (o : MOp) (s : State) : Host.Outcome State Fault Refusal := runStretch o.m (localAtom true op.toNat o) s

end Sys2Proof.Machine
end

