-- ==== Sys2Proof/Machine/Route.lean ====
section
/-! DEFINITION. Routes and ports (spec/18, R363 to R371): the route word, the port property words, one hop's tests, the topology map. -/
namespace Sys2Proof.Machine

/-! The route word (R363). -/
def routeHops (w : BitVec 128) : Nat := bitsOf w.toNat 124 4
def routeClass (w : BitVec 128) : Nat := bitsOf w.toNat 120 4
def routeDevice (w : BitVec 128) : Nat := bitsOf w.toNat 110 10
def routeDie (w : BitVec 128) : Nat := bitsOf w.toNat 108 2
def routeEndpoint (w : BitVec 128) : Nat := bitsOf w.toNat 96 12
/-- Byte i of the hop list. -/
def routeHop (w : BitVec 128) (i : Nat) : Nat := bitsOf w.toNat (8 * i) 8

/-- RouteForm (R366). -/
def routeForm (w : BitVec 128) : Bool :=
  decide (routeHops w ≤ 12) && decide (routeClass w ≤ 3) && bitsOf w.toNat 0 96 / 2 ^ (8 * routeHops w) == 0
    && (List.range 12).all fun i => routeHop w i % 2 == 0

/-! Register names (R44). -/
def nameDevice (c : BitVec 128) : Nat := bitsOf c.toNat 54 10
def nameDie (c : BitVec 128) : Nat := bitsOf c.toNat 52 2
def nameCore (c : BitVec 128) : Nat := bitsOf c.toNat 44 8
def nameSlot (c : BitVec 128) : Nat := bitsOf c.toNat 39 5
def nameGroup (c : BitVec 128) : Nat := bitsOf c.toNat 34 5
def nameRegbase (c : BitVec 128) : Nat := bitsOf c.toNat 23 11
def nameCount (c : BitVec 128) : Nat := bitsOf c.toNat 12 11
def nameIncn (c : BitVec 128) : Nat := bitsOf c.toNat 0 12

/-- The route ends at the core that the name names (R366). -/
def routeMeets (w name : BitVec 128) : Bool :=
  routeDevice w == nameDevice name && routeDie w == nameDie name && routeEndpoint w == nameCore name

/-! Ports (R364, R365). -/
def portPresent (o : W64) : Bool := o.getLsbD 0
def portUp (o : W64) : Bool := o.getLsbD 1
def portDateline (o : W64) : Bool := o.getLsbD 2
def portFwc (o : W64) : Bool := o.getLsbD 3
def portDom (o : W64) : Nat := bitsOf o.toNat 33 12
def portPeerPort (o : W64) : Nat := bitsOf o.toNat 45 6
def portPeerNode (o : W64) : Nat := bitsOf o.toNat 51 13

/-- The key of a port: 64 x node + port. -/
def portKey (node port : Nat) : Nat := 64 * node + port

/-- A port of a node of this device exists (R364). -/
def diePort (die port : Nat) : Bool := decide (die < 4) && ((decide (port < 4) && port != die) || (decide (8 ≤ port) && decide (port ≤ 13)))

/-- A die link is closed: its ends lie in different hard partitions (R365, R411). -/
def State.linkClosed (s : State) (self node port : Nat) : Bool :=
  node / 4 == self && decide (port < 4) && (s.die (node % 4)).part != (s.die port).part

/-- A trained port's word (R365): PRESENT, UP, the peer; a port to a lower node is a dateline, so that every cycle of links has one (R374); the die
links between partitions are closed. `v` gives the other fields: DATELINE, FWC, DOM. -/
def State.trainedWord (s : State) (node port peer peerPort : Nat) (v : W64) : W64 :=
  let closed := s.linkClosed s.pkg.selfDevice node port
  BitVec.ofNat 64 (3 + (if portDateline v || decide (peer < node) then 4 else 0) + (if closed || portFwc v then 8 else 0)
    + (if closed then 0 else portDom v) * 2 ^ 33 + peerPort % 64 * 2 ^ 45 + peer % 8192 * 2 ^ 51)

/-- A port of a die of this device whose word nothing has written (log entry 18): the links between the dies are trained; Spindle ports are present
and down. -/
def State.portDefault (s : State) (node port : Nat) : W64 :=
  let self := s.pkg.selfDevice
  if node / 4 ≠ self || node / 4 ≥ 1024 || !diePort (node % 4) port then 0
  else if port < 4 then s.trainedWord node port (4 * self + port) (node % 4) 0
  else 1

/-- The property word of a port. -/
def State.portWord (s : State) (node port : Nat) : W64 := (NMap.find s.ports (portKey node port)).getD (s.portDefault node port)

/-- A die belongs to a partition (R410). -/
def State.inPart (s : State) (p d : Nat) : Bool := (s.die d).part == p

/-- The route firewall bits of a tenant on the dies of its partition: the Spindle ports of others carry none of its traffic (R411, R413). -/
def State.openPorts (s : State) (tenant : Nat) : Nat :=
  let t := s.tenant tenant
  ((List.range Config.dies).map fun d => if s.inPart t.part d then bitsOf t.rfw (16 * d) 16 * 65536 ^ d else 0).sum

/-- Shut (R366). -/
def shut (self rfw fdom : Nat) (o : W64) (node port : Nat) : Bool :=
  (portFwc o && portDom o != fdom) || (node / 4 == self && decide (node < 4096) && !rfw.testBit (16 * (node % 4) + port))

/-- One hop of HopCheck (R366): the reason of a refusal (14 where a port's word cannot be read), or the next node and lane class. -/
def hopTest (ports : Nat → Nat → Option W64) (self rfw fdom node cls b : Nat) : Except Nat (Nat × Nat) :=
  let port := b / 4
  let c := cls + b / 2 % 2
  match ports node port with
  | none => .error 14
  | some o =>
    if !portPresent o then .error 2
    else if !portUp o then .error 3
    else if shut self rfw fdom o node port then .error 4
    else if 3 < c then .error 5
    else if portDateline o && b / 2 % 2 == 0 then .error 6
    else match ports (portPeerNode o) (portPeerPort o) with
      | none => .error 14
      | some q =>
        if !portUp q then .error 3
        else if shut self rfw fdom q (portPeerNode o) (portPeerPort o) then .error 4
        else .ok (portPeerNode o, c)

/-- The end tests of HopCheck (R366): the reason of a refusal at hop 15. -/
def endTest (w : BitVec 128) (name : Option (BitVec 128)) (node : Nat) : Option Nat :=
  if node ≠ 4 * routeDevice w + routeDie w then some 7
  else if 144 ≤ routeEndpoint w then some 8
  else match name with
    | some n => if routeMeets w n then none else some 8
    | none => none

/-- HopCheck from hop i on, `fuel` hops at most: reason and hop. -/
def hopCheckFrom (ports : Nat → Nat → Option W64) (self rfw fdom : Nat) (w : BitVec 128) (name : Option (BitVec 128)) : Nat → Nat → Nat → Nat → Nat × Nat
  | 0, _, node, _ => (match endTest w name node with | some r => (r, 15) | none => (0, 0))
  | fuel + 1, i, node, cls =>
    match hopTest ports self rfw fdom node cls (routeHop w i) with
    | .error r => (r, i)
    | .ok (n, c) => hopCheckFrom ports self rfw fdom w name fuel (i + 1) n c

/-! The topology map (R370, R371), read at home through the window stage (R382). -/

/-- Reads `n` bytes of the map; none where the window stage fails or a line cannot be read. -/
def State.mapRead (s : State) (t : Tenant) (off n : Nat) : Option Nat :=
  match t.paOf (t.topo + off), t.paOf (t.topo + off + n - 1) with
  | some pa, some pb =>
    if (s.lineFault (lineOf pa)).isSome || (s.lineFault (lineOf pb)).isSome then none else some (s.visNat pa n)
  | _, _ => none

/-- The entry of a node (R371). -/
def State.mapNode (s : State) (t : Tenant) (node : Nat) : Option Nat :=
  match s.mapRead t 24 8 with
  | some off => s.mapRead t (off + 16 * node) 16
  | none => none

/-- A port's word by the map; a port at or above NPORT does not exist. -/
def State.mapPort (s : State) (t : Tenant) (node port : Nat) : Option W64 :=
  match s.mapNode t node, s.mapRead t 32 8 with
  | some e, some off =>
    if bitsOf e 64 8 ≤ port then some 0 else (s.mapRead t (off + 8 * (bitsOf e 32 32 + port)) 8).map (BitVec.ofNat 64)
  | _, _ => none

/-- The map's generation. -/
def State.mapGen (s : State) (t : Tenant) : Option Nat := s.mapRead t 0 8

/-- The map has MAGIC and VERSION (R370). -/
def State.mapGood (s : State) (t : Tenant) : Bool :=
  match s.mapRead t 8 8 with
  | some v => bitsOf v 8 8 == 1 && bitsOf v 16 16 == 0x5A4D
  | none => false

/-- The line that a read of the map waits for: one that the host owns, or whose bucket is frozen (R228, R297, R222). -/
def State.mapReadShut (s : State) (t : Tenant) (off n : Nat) : Option Nat :=
  match t.paOf (t.topo + off), t.paOf (t.topo + off + n - 1) with
  | some pa, some pb => [lineOf pa, lineOf pb].find? s.homeShut
  | _, _ => none

/-- The same for the entry of a node. -/
def State.mapNodeShut (s : State) (t : Tenant) (node : Nat) : Option Nat :=
  (s.mapReadShut t 24 8).orElse fun _ => (s.mapRead t 24 8).bind fun off => s.mapReadShut t (off + 16 * node) 16

/-- The same for a port's word. -/
def State.mapPortShut (s : State) (t : Tenant) (node port : Nat) : Option Nat :=
  (s.mapNodeShut t node).orElse fun _ => (s.mapReadShut t 32 8).orElse fun _ =>
    match s.mapNode t node, s.mapRead t 32 8 with
    | some e, some off => if bitsOf e 64 8 ≤ port then none else s.mapReadShut t (off + 8 * (bitsOf e 32 32 + port)) 8
    | _, _ => none

/-- The same for the hops of a route from hop `i` on. -/
def State.mapHopsShut (s : State) (t : Tenant) (w : BitVec 128) : Nat → Nat → Nat → Option Nat
  | 0, _, _ => none
  | fuel + 1, i, node =>
    let port := routeHop w i / 4
    (s.mapPortShut t node port).orElse fun _ => (s.mapPort t node port).bind fun o =>
      (s.mapPortShut t (portPeerNode o) (portPeerPort o)).orElse fun _ => s.mapHopsShut t w fuel (i + 1) (portPeerNode o)

/-- The line of the map that a check of a route waits for. -/
def State.mapRouteShut (s : State) (tenant die : Nat) (w : BitVec 128) : Option Nat :=
  let t := s.tenant tenant
  let self := s.pkg.selfDevice
  (if routeDevice w = self then none else s.mapNodeShut t (4 * routeDevice w + routeDie w)).orElse fun _ =>
    s.mapHopsShut t w (min 12 (routeHops w)) 0 (4 * self + die)

/-- RTCHK's result where the map cannot be read. -/
def routeUnread : W32 := BitVec.ofNat 32 (14 + 14 * 256)

/-- RTCHK of one route (R382): reason, hop and GEN[16:1], as the result word. -/
def State.routeCheck (s : State) (tenant die : Nat) (w : BitVec 128) (name : Option (BitVec 128)) : W32 :=
  let t := s.tenant tenant
  let self := s.pkg.selfDevice
  let bad := routeUnread
  match s.mapGen t with
  | none => bad
  | some gen =>
    let out := fun (r : Nat × Nat) => BitVec.ofNat 32 (r.1 + r.2 * 256 + gen / 2 % 65536 * 65536)
    let dest := 4 * routeDevice w + routeDie w
    if !s.mapGood t then bad
    else if !routeForm w then out (1, 14)
    else
      let st := if routeDevice w = self then some 1 else (s.mapNode t dest).map fun e => bitsOf e 94 2
      match st with
      | none => bad
      | some ps =>
        if ps ≠ 1 then out (9, 14)
        else
          let r := hopCheckFrom (s.mapPort t) self (s.openPorts tenant) t.fdom w name (routeHops w) 0 (4 * self + die) (routeClass w)
          if r.1 = 14 then bad else out r

end Sys2Proof.Machine
end

