-- ==== Sys2Proof/Machine/Remote.lean ====
section
/-! DEFINITION. The REMOTE instructions (spec/18, R378 to R382): sends to the registers of another group, EMPTY, ISFULL, RTCHK. -/
namespace Sys2Proof.Machine

/-- The value of rfail (R369): reason, hop, address of the sending word. -/
def rfailValue (reason hop : Nat) (word : W64) : W64 :=
  BitVec.ofNat 64 (reason % 16 * 2 ^ 52 + hop % 16 * 2 ^ 48) ||| (word &&& 0x0000FFFFFFFFFFF8#64)

/-- A send refused at the source: precise, with rfail (R379, R369). -/
def Ctx.refuseHere (c : Ctx) (s : State) (reason : Nat) (cause : Cause) (lanes : Lanes) : WordOut :=
  .trap (s.modGroup c.gid fun g => { g with sp := { g.sp with rfail := rfailValue reason 14 c.wordAddr } }) cause 0 lanes

/-- The peer state of a device is ADMITTED (R376); this device always is (R371). -/
def State.admitted (s : State) (device : Nat) : Bool :=
  device == s.pkg.selfDevice || (NMap.find s.peers device).any fun p => p.state == 1

/-- The incarnation a packet to a device carries (R376). -/
def State.incnFor (s : State) (device : Nat) : BitVec 32 :=
  if device = s.pkg.selfDevice then s.pkg.dinc else ((NMap.find s.peers device).map Peer.dinc).getD 0

/-- What a send packet has before its payload: the sender and its place at the sender's die. -/
def State.packetFor (s : State) (c : Ctx) (ksend : Bool) (route name : BitVec 128) (seq : Nat) : Packet where
  typ := if ksend then 1 else 0
  route := route
  name := name
  dinc := s.incnFor (nameDevice name)
  fdom := (s.tenant c.team.tenant).fdom
  tenant := c.team.tenant
  ftag := .raw
  n := 0
  ofs := 0
  lanes := 0
  ctags := 0
  hasTags := false
  values := []
  bytes := []
  srcDevice := s.pkg.selfDevice
  src := c.gid
  world := (s.core c.core).world
  seq := seq
  hop := 0
  node := 4 * s.pkg.selfDevice + dieOf c.core
  cls := routeClass route
  back := []
  reason := 0
  rhop := 0

/-- A packet leaves: p5 rises by one, the send waits for its response (R245, R368), a no-rewind stretch begins (R397). -/
def State.sendPacket (s : State) (c : Ctx) (p : Packet) : State :=
  let id := s.freshId
  let s1 := (s.useId.count c.core c.team.tenant 12 1).modGroup c.gid fun g =>
    { (g.ctrUp 5 p.seq).stretch with seq := (g.seq + 1) % 2 ^ 32, sends := g.sends ++ [⟨p.seq, c.wordAddr, s.cycle⟩] }
  { s1 with packets := NMap.set s1.packets id p }.post (.packetHop id)

/-- The tests of a SEND's register name (R379): the cause of the first that fails. -/
def sendNameCheck (k : Cap) (ofs n z : Nat) : Option Cause :=
  if !k.tag then some .capTag
  else if k.kind ≠ 1 || 1536 ≤ nameRegbase k.bits then some .capKind
  else if k.otype ≠ 0 then some .capSealed
  else if !k.grants permRS then some .capPerm
  else if nameCount k.bits + 1 < ofs + n then some .capBounds
  else if (z == 2 || z == 4) && (nameRegbase k.bits + ofs) % z != 0 then some .regAlign
  else none

/-- SEND and SENDM (R379): D the name, A the route, B the first of n source registers. A no-rewind stretch begins even where no packet leaves (R378). -/
def sendWord (d a b : VField) (ofs n : Nat) (m : MField) (wa wb : Bool) (c : Ctx) (s : State) : WordOut :=
  let ls := c.lanes m
  let act := c.active m
  let rs := (List.range n).map fun j => b.toNat + j
  if d.toNat % 4 ≠ 0 || a.toNat % 4 ≠ 0 then .trap s .regAlign 0 act
  else if c.outOfRange d 4 || c.outOfRange a 4 || c.outOfRange b n then .trap s .regRange 0 act
  else guardW (c.checkScalars [m.toNat]) c m s <|
    guardW (c.fullCheck [(⟨d, false, none⟩, c.touched d 4 ls), (⟨a, wa, none⟩, c.touched a 4 ls), (⟨b, wb, none⟩, rs)]) c m s <|
    if !(c.sameTags d 4 ls .cap && c.sameTags a 4 ls .route) then .trap s .format 0 act
    else
      let tag := (c.g.v b.toNat).tag
      let z := tag.regs
      if (rs.any fun r => (c.g.v r).tag != tag) || n % z ≠ 0 then .trap s .format 0 act
      else if (z == 2 || z == 4) && b.toNat % z != 0 then .trap s .regAlign 0 act
      else match ls with
        | [] => .done (s.modGroup c.gid Group.stretch) []
        | l0 :: _ =>
          let k := c.g.quad d.toNat l0
          let w := (c.g.quad a.toNat l0).bits
          match sendNameCheck k ofs n z with
          | some f => .trap s f k.addr act
          | none =>
            if !routeForm w then c.refuseHere s 1 .routeCause act
            else if !s.admitted (nameDevice k.bits) then c.refuseHere s 9 .staleTarget act
            else if 255 ≤ c.g.p 5 then .hold s ⟨[.ctrRoom 5], true, false⟩ []
            else
              -- R362: tags travel with four CAP registers between aligned quads
              let travel := tag == .cap && n == 4 && b.toNat % 4 == 0 && (nameRegbase k.bits + ofs) % 4 == 0
              let bad := ls.filter fun l => travel && (c.g.quad b.toNat l).tag && !(c.g.quad b.toNat l).grants permGL
              let good := ls.filter fun l => !bad.contains l
              let fs := bad.map fun l => ((l, Cause.capPerm, (c.g.quad b.toNat l).addr) : LaneFault)
              if good.isEmpty then .done (s.modGroup c.gid Group.stretch) fs
              else
                let p := { s.packetFor c false w k.bits c.g.seq with
                  ftag := tag, n := n, ofs := ofs, lanes := lanesMask good, hasTags := travel
                  ctags := lanesMask (good.filter fun l => travel && (c.g.quad b.toNat l).tag)
                  values := (List.range n).flatMap fun j => good.map fun l => (j, l, c.g.lane (b.toNat + j) l) }
                .done (s.sendPacket c p) fs

/-- SEND. -/
def execSend (d a b : VField) (ofs : BitVec 9) (m : MField) (wa wb : Bool) (s : State) : Host.Outcome State Fault Refusal :=
  runStretch m (sendWord d a b ofs.toNat 1 m wa wb) s

/-- SENDM: one to four registers. -/
def execSendm (d a b : VField) (ofs : BitVec 9) (nm1 : BitVec 2) (m : MField) (wa wb : Bool) (s : State) : Host.Outcome State Fault Refusal :=
  runStretch m (sendWord d a b ofs.toNat (nm1.toNat + 1) m wa wb) s

/-- EMPTY (R380): waits for the late results that the group has outstanding to the registers, then clears their full bits. -/
def emptyWord (d : VField) (n : Nat) (c : Ctx) (s : State) : WordOut :=
  let rs := (List.range n).map fun j => d.toNat + j
  if c.outOfRange d n then .trap s .regRange 0 c.p.lanes
  else
    let busy := rs.filter fun r => c.g.lates.any fun l => l.vdests.contains r
    if !busy.isEmpty then .hold s ⟨busy.map Cond.regIdle, true, false⟩ []
    else .done (s.modGroup c.gid fun g => rs.foldl (fun x r => x.emptyV r) g) []

def execEmpty (d : VField) (nm1 : BitVec 6) (s : State) : Host.Outcome State Fault Refusal := runWord false 0 (emptyWord d (nm1.toNat + 1)) s

/-- Full by R358: the bit is set, or a late result of the group is outstanding to the register. -/
def Group.fullForSend (g : Group) (r : Nat) : Bool := g.vFull r || g.lates.any fun l => l.vdests.contains r

/-- ISFULL (R381). -/
def isfullWord (d : SReg) (a : VField) (n : Nat) (c : Ctx) (s : State) : WordOut :=
  if c.outOfRange a n then .trap s .regRange 0 c.p.lanes
  else guardW (c.checkScalars [d.toNat]) c 0 s <|
    .done (s.modGroup c.gid fun g => g.setS d.toNat (lanesMask ((List.range n).filter fun i => c.g.fullForSend (a.toNat + i)))) []

def execIsfull (d : SReg) (a : VField) (nm1 : BitVec 6) (s : State) : Host.Outcome State Fault Refusal :=
  runWord false 0 (isfullWord d a (nm1.toNat + 1)) s

/-- RTCHK (R382): the destination is late; the map is read when GEN is even. -/
def rtchkWord (d a b : VField) (capchk : Bool) (m : MField) (wa wb : Bool) (c : Ctx) (s : State) : WordOut :=
  let ls := c.lanes m
  let act := c.active m
  let srcs := (⟨a, wa, none⟩, c.touched a 4 ls) :: (if capchk then [((⟨b, wb, none⟩ : Src), c.touched b 4 ls)] else [])
  if a.toNat % 4 ≠ 0 || (capchk && b.toNat % 4 != 0) then .trap s .regAlign 0 act
  else if c.outOfRange a 4 || (capchk && c.outOfRange b 4) || c.outOfRange d 1 then .trap s .regRange 0 act
  else guardW (c.checkScalars [m.toNat]) c m s <| guardW (c.checkDst ls d 1) c m s <| guardW (c.fullCheck srcs) c m s <|
    if !(c.sameTags a 4 ls .route && (!capchk || c.sameTags b 4 ls .cap)) then .trap s .format 0 act
    else
      let good := ls.filterMap fun l => (c.regAt d 1 l).map fun r => (l, r)
      let fs := (ls.filter fun l => (c.regAt d 1 l).isNone).map fun l => ((l, Cause.indexWindow, 0) : LaneFault)
      let dests := ((if d.toNat < 1536 then [d.toNat] else []) ++ good.map Prod.snd).dedup
      let items := good.map fun x => (x.1, x.2, (c.g.quad a.toNat x.1).bits, if capchk then some (c.g.quad b.toNat x.1).bits else none)
      let id := s.freshId
      let l := { c.mkLate id (.rtchk items) [] with vdests := dests, newTag := some .n32 }
      .done (s.useId.modGroup c.gid fun g => { dests.foldl (fun x r => x.emptyV r) g with lates := g.lates ++ [l] }) fs

def execRtchk (d a b : VField) (capchk : Bool) (m : MField) (wa wb : Bool) (s : State) : Host.Outcome State Fault Refusal :=
  runWord false m (rtchkWord d a b capchk m wa wb) s

end Sys2Proof.Machine
end

