-- ==== Sys2Proof/Machine/Cords.lean ====
section
/-! DEFINITION. Cords, slots and the COPY instructions (spec/15, R304, R306, R311 to R313, R319 to R326). -/
namespace Sys2Proof.Machine

/-! Slots (R311, R312). -/

/-- A slot as placement leaves it (R36). -/
def CordSlot.fresh : CordSlot := ⟨.empty, 0, 0, 0, 0, 0, 0⟩

def Cord.slot (k : Cord) (i : Nat) : CordSlot := NMap.getD k.slots i CordSlot.fresh
def Cord.setSlot (k : Cord) (i : Nat) (x : CordSlot) : Cord := { k with slots := NMap.set k.slots i x }
def Team.setCord (t : Team) (n : Nat) (k : Cord) : Team := { t with cords := NMap.set t.cords n k }
def Team.modSlot (t : Team) (n i : Nat) (f : CordSlot → CordSlot) : Team :=
  match NMap.find t.cords n with
  | some k => t.setCord n (k.setSlot i (f (k.slot i)))
  | none => t

/-- The state code of a slot (R311). -/
def SlotState.code : SlotState → Nat
  | .empty => 0 | .acq => 1 | .armed => 2 | .filled => 3 | .overrun => 4 | .fault => 5

/-- A number in two's complement of `n` bits. -/
def wrapInt (n : Nat) (x : Int) : Nat := (x % 2 ^ n).toNat

/-- The record of a slot (R311). -/
def CordSlot.word (x : CordSlot) (ch : Bool) : BitVec 128 :=
  BitVec.ofNat 128 (wrapInt 42 x.pb + x.cur % 2 ^ 21 * 2 ^ 43 + wrapInt 17 x.pa * 2 ^ 64 + x.infl % 1024 * 2 ^ 90 + x.gen.toNat * 2 ^ 100
    + x.fcause % 256 * 2 ^ 116 + (if ch then 2 ^ 124 else 0) + x.st.code * 2 ^ 125)

/-- A handle (R312). -/
def handleOf (cord slot : Nat) (gen : BitVec 16) : W64 := BitVec.ofNat 64 (slot + cord * 2 ^ 6 + gen.toNat * 2 ^ 16)

/-- SlotOf (R312): cord and slot of a handle. -/
def Team.slotOf (t : Team) (h : W64) : Option (Nat × Nat) :=
  let n := bitsOf h.toNat 6 5
  let i := bitsOf h.toNat 0 6
  if h.toNat / 2 ^ 32 ≠ 0 || bitsOf h.toNat 11 5 ≠ 0 then none
  else match NMap.find t.cords n with
    | none => none
    | some k => if i < k.n && (k.slot i).gen.toNat == bitsOf h.toNat 16 16 then some (n, i) else none

/-- The state that the counts decide (R313). -/
def CordSlot.decide (x : CordSlot) : SlotState := if x.pb < 0 || x.pa < 0 then .overrun else if x.pb = 0 && x.pa = 0 then .filled else .armed

/-- Bytes credited, or arrivals (R313). -/
def CordSlot.credit (x : CordSlot) (bytes arrivals : Int) : CordSlot :=
  let y := { x with pb := x.pb - bytes, pa := x.pa - arrivals }
  match x.st with
  | .acq => y
  | .armed => { y with st := y.decide }
  | .filled => { y with st := .overrun }
  | _ => x

/-- A command that names the slot faults (R313). -/
def CordSlot.faulted (x : CordSlot) (code : Nat) : CordSlot :=
  match x.st with
  | .empty => x
  | .fault => x
  | _ => { x with st := .fault, fcause := code }

/-- The KACQ row (R313). -/
def Cord.acquire (k : Cord) : Cord :=
  let x := k.slot k.wp
  { k.setSlot k.wp { x with st := .acq, gen := x.gen + 1, pb := 0, pa := 0, infl := 0, fcause := 0 } with wp := (k.wp + 1) % k.n }

/-- Slots not EMPTY. -/
def Cord.occ (k : Cord) : Nat := ((List.range k.n).filter fun i => (k.slot i).st != .empty).length

/-- RP, the oldest slot that is not EMPTY; WP when all are (R311, R324). -/
def Cord.advance (k : Cord) : Cord :=
  { k with rp := match (List.range k.n).find? fun i => (k.slot ((k.rp + i) % k.n)).st != .empty with
      | some i => (k.rp + i) % k.n
      | none => k.wp }

/-- KACQs that wait take the slots that have become EMPTY, in issue order (R322); `fuel` bounds the slots. -/
def State.serveCord (s : State) (core slot n : Nat) : Nat → State
  | 0 => s
  | fuel + 1 =>
    match (s.team core slot).bind fun t => NMap.find t.cords n with
    | none => s
    | some k =>
      match k.waiters with
      | [] => s
      | (g, id) :: r =>
        if (k.slot k.wp).st != .empty then s
        else
          let k1 := { k.acquire with waiters := r }
          let h := handleOf n k.wp (k1.slot k.wp).gen
          let gi : GroupId := ⟨core, slot, g⟩
          let s1 := s.modTeam core slot fun t => t.setCord n k1
          let s2 := s1.modGroup gi fun x => match x.late id with
            | some l => x.setLate { l with swrites := l.sdests.map fun d => (d, h) }
            | none => x
          State.serveCord (s2.post (.loadReturn gi id)) core slot n fuel

/-! The instructions (R319). -/

/-- A COPY word that has passed its tests: it begins a no-rewind stretch (R319) and changes the team. -/
def Ctx.copyDone (c : Ctx) (s : State) (f : Team → Team) : WordOut :=
  .done ((s.modTeam c.core c.gid.slot f).modGroup c.gid fun g => g.stretch) []

/-- KINIT, VAR 0 (R321, R313). -/
def kinitWord (n : Nat) (c : Ctx) (s : State) : WordOut :=
  match NMap.find c.team.cords n with
  | none => .trap s .cordState 0 c.p.lanes
  | some k =>
    if (List.range k.n).any fun i => (k.slot i).infl ≠ 0 then .trap s .cordState 0 c.p.lanes
    else
      let slots := (List.range k.n).map fun i => (i, { k.slot i with st := .empty })
      let s1 := s.modTeam c.core c.gid.slot fun t => t.setCord n { k with wp := 0, rp := 0, slots := slots }
      .done ((s1.modGroup c.gid fun g => g.stretch).serveCord c.core c.gid.slot n k.n) []

def execKinit (a : BitVec 5) (s : State) : Host.Outcome State Fault Refusal := runStretch 0 (kinitWord a.toNat) s

/-- KINIT, VAR 1 (R321): the ring. -/
def kinitRWord (a d : Nat) (c : Ctx) (s : State) : WordOut :=
  if d % 2 ≠ 0 then .trap s .regAlign 0 c.p.lanes
  else guardW (c.checkScalars (a :: pairRegs d)) c 0 s <|
    let v := (c.g.s a).toNat
    let off := bitsOf v 0 32
    let lg := bitsOf v 32 4
    let tn := bitsOf v 40 7
    let table := c.g.sc d
    if off % 32 ≠ 0 || lg < 1 || 10 < lg || 64 < tn || bitsOf v 36 4 ≠ 0 || v / 2 ^ 47 ≠ 0 then .trap s .reservedField 0 c.p.lanes
    else if c.team.shareBytes < off + 32 + 32 * 2 ^ lg then .trap s .window 0 c.p.lanes
    else match if tn = 0 then none else capCheck table table.addr (16 * tn) (permLD + permLC) with
      | some f => .trap s f table.addr c.p.lanes
      | none =>
        if tn = 0 && d ≠ 0 then .trap s .reservedField 0 c.p.lanes
        else if (match c.team.ring with | some r => c.team.ringUsed r ≠ 0 | none => false) || !c.team.cmds.isEmpty || !c.team.residues.isEmpty then
          .trap s .cordState 0 c.p.lanes
        else c.copyDone s fun t => { t with
          ring := some ⟨off, lg, table, tn, 0, 0, [], [], []⟩
          scratch := scratchPutNat t.scratch off 32 0 }

def execKinitR (a d : SReg) (s : State) : Host.Outcome State Fault Refusal := runStretch 0 (kinitRWord a.toNat d.toNat) s

/-- KACQ (R322): a waiting KACQ is a late result that takes its slot in issue order. -/
def kacqWord (d n : Nat) (nb : Bool) (c : Ctx) (s : State) : WordOut :=
  guardW (c.checkScalars [d]) c 0 s <|
    match NMap.find c.team.cords n with
    | none => .trap s .cordState 0 c.p.lanes
    | some k =>
      if (k.slot k.wp).st == .empty then
        let k1 := k.acquire
        let h := handleOf n k.wp (k1.slot k.wp).gen
        .done ((s.modTeam c.core c.gid.slot fun t => t.setCord n k1).modGroup c.gid fun g => (g.setS d h).stretch) []
      else if nb then .done (s.modGroup c.gid fun g => (g.setS d (BitVec.allOnes 64)).stretch) []
      else
        let id := s.freshId
        let l := { c.mkLate id .filled [] with sdests := if d = 0 then [] else [d] }
        let s1 := s.useId.modTeam c.core c.gid.slot fun t => t.setCord n { k with waiters := k.waiters ++ [(c.gid.group, id)] }
        .hold (s1.modGroup c.gid fun g => { g.stretch with lates := g.lates ++ [l] }) ⟨[.lateDone id], false, false⟩ []

def execKacq (d : SReg) (a : BitVec 5) (nb : Bool) (s : State) : Host.Outcome State Fault Refusal := runStretch 0 (kacqWord d.toNat a.toNat nb) s

/-- The KARR row (R313). -/
def CordSlot.arm (x : CordSlot) (bytes arrivals : Nat) : CordSlot :=
  let y := { x with pb := x.pb + bytes, pa := x.pa + arrivals }
  { y with st := y.decide }

/-- KARR and KARR.c (R323): `credit` is the destination pair of a channel's credit. -/
def karrWord (credit : Option Nat) (a b : Nat) (c : Ctx) (s : State) : WordOut :=
  let d := credit.getD 0
  let trap := fun (f : Cause) => WordOut.trap s f 0 c.p.lanes
  guardW (c.checkScalars ([a, b, b + 1] ++ (match credit with | some d => (b + 2) :: pairRegs d | none => []))) c 0 s <|
    let bytes := (c.g.s b).toNat
    let arr := (c.g.s (b + 1)).toNat
    let off := (c.g.s (b + 2)).toNat
    if 2 ^ 41 ≤ bytes || 65536 ≤ arr then trap .reservedField
    else match c.team.slotOf (c.g.s a) with
      | none => trap .cordState
      | some (n, i) =>
        match NMap.find c.team.cords n with
        | none => trap .cordState
        | some k =>
          let x := k.slot i
          if k.ch != credit.isSome then trap .cordState
          else if credit.isSome && decide (c.team.shareBytes < off + bytes) then trap .window
          else if x.st != .acq then trap .cordState
          else
            let y := { x.arm bytes arr with cur := if credit.isSome then off else x.cur }
            let cap := capName s.pkg.selfDevice (dieOf c.core) (coreInDie c.core) c.gid.slot c.gid.group (1536 + n)
              (x.gen.toNat % 32 * 64 + i) c.team.incn
            .done ((s.modTeam c.core c.gid.slot fun t => t.setCord n (k.setSlot i y)).modGroup c.gid fun g =>
              (if credit.isSome then g.setSc d cap else g).stretch) []

def execKarr (a b : SReg) (s : State) : Host.Outcome State Fault Refusal := runStretch 0 (karrWord none a.toNat b.toNat) s
def execKarrC (d a b : SReg) (s : State) : Host.Outcome State Fault Refusal := runStretch 0 (karrWord (some d.toNat) a.toNat b.toNat) s

/-- KWAIT (R313, R314, R324): an acquire at core scope, which drops nothing. -/
def kwaitWord (a : Nat) (c : Ctx) (s : State) : WordOut :=
  guardW (c.checkScalars [a]) c 0 s <|
    match c.team.slotOf (c.g.s a) with
    | none => .trap s .cordState 0 c.p.lanes
    | some (n, i) =>
      let x := (((NMap.find c.team.cords n).map fun k => k.slot i).getD CordSlot.fresh)
      match x.st with
      | .empty => .trap s .cordState 0 c.p.lanes
      | .filled => .done s []
      | .overrun => .trap s .cordOverrun 0 c.p.lanes
      | .fault => .trap s .copyFault (BitVec.ofNat 64 x.fcause) c.p.lanes
      | _ => .hold s ⟨[.slotSettled n i], true, false⟩ []

def execKwait (a : SReg) (s : State) : Host.Outcome State Fault Refusal := runWord false 0 (kwaitWord a.toNat) s

/-- KREL (R313, R324). -/
def krelWord (a : Nat) (c : Ctx) (s : State) : WordOut :=
  guardW (c.checkScalars [a]) c 0 s <|
    match c.team.slotOf (c.g.s a) with
    | none => .trap s .cordState 0 c.p.lanes
    | some (n, i) =>
      match NMap.find c.team.cords n with
      | none => .trap s .cordState 0 c.p.lanes
      | some k =>
        let x := k.slot i
        let free := (((s.modTeam c.core c.gid.slot fun t => t.setCord n (k.setSlot i { x with st := .empty }).advance).modGroup c.gid fun g =>
          g.stretch).serveCord c.core c.gid.slot n k.n)
        match x.st with
        | .empty => .trap s .cordState 0 c.p.lanes
        | .armed => .trap s .cordState 0 c.p.lanes
        | .acq => if x.infl ≠ 0 || x.pb ≠ 0 || x.pa ≠ 0 then .trap s .cordState 0 c.p.lanes else .done free []
        | _ => if x.infl ≠ 0 then .hold s ⟨[.slotIdle n i], true, false⟩ [] else .done free []

def execKrel (a : SReg) (s : State) : Host.Outcome State Fault Refusal := runStretch 0 (krelWord a.toNat) s

/-- KSTAT (R326). -/
def kstatWord (d a var : Nat) (c : Ctx) (s : State) : WordOut :=
  let put := fun (v : W64) => WordOut.done (s.modGroup c.gid fun g => g.setS d v) []
  guardW (c.checkScalars (if var = 1 then [d] else [a, d])) c 0 s <|
    if var = 1 then
      match NMap.find c.team.cords a with
      | none => put 0
      | some k => put (BitVec.ofNat 64 (k.n % 128 + k.wp % 64 * 2 ^ 7 + k.rp % 64 * 2 ^ 13 + k.occ % 128 * 2 ^ 19 + (if k.ch then 2 ^ 26 else 0)))
    else match c.team.slotOf (c.g.s a) with
      | none => .trap s .cordState 0 c.p.lanes
      | some (n, i) =>
        match NMap.find c.team.cords n with
        | none => .trap s .cordState 0 c.p.lanes
        | some k => put (((k.slot i).word k.ch).extractLsb' (if var = 0 then 64 else 0) 64)

def execKstat (d a : SReg) (var : BitVec 2) (s : State) : Host.Outcome State Fault Refusal :=
  runWord false 0 (kstatWord d.toNat a.toNat var.toNat) s

/-- KSEND (R325): a length outside 1 to 65,536 raises RESERVED_FIELD (log entry 19). -/
def ksendWord (d a : VField) (b : Nat) (c : Ctx) (s : State) : WordOut :=
  let ls := lanesOf c.width c.p.lanes
  let trap := fun (f : Cause) (info : W64) => WordOut.trap s f info c.p.lanes
  if d.toNat % 4 ≠ 0 || a.toNat % 4 ≠ 0 then trap .regAlign 0
  else if c.outOfRange d 4 || c.outOfRange a 4 then trap .regRange 0
  else guardW (c.checkScalars [b, b + 1]) c 0 s <|
    guardW (c.fullCheck [(⟨d, false, none⟩, c.touched d 4 ls), (⟨a, false, none⟩, c.touched a 4 ls)]) c 0 s <|
    if !(c.sameTags d 4 ls .cap && c.sameTags a 4 ls .route) then trap .format 0
    else
      let l0 := lowestLane c.p.lanes
      let k := c.g.quad d.toNat l0
      let w := (c.g.quad a.toNat l0).bits
      let off := (c.g.s b).toNat
      let len := (c.g.s (b + 1)).toNat
      if !k.tag then trap .capTag k.addr
      else if k.kind ≠ 1 || nameRegbase k.bits < 1536 || 1567 < nameRegbase k.bits then trap .capKind k.addr
      else if !k.grants (permRS + permGL) then trap .capPerm k.addr
      else if len = 0 || 65536 < len then trap .reservedField 0
      else if c.team.shareBytes < off + len then trap .window 0
      else if !routeForm w then c.refuseHere s 1 .routeCause c.p.lanes
      else if !s.admitted (nameDevice k.bits) then c.refuseHere s 9 .staleTarget c.p.lanes
      else if 255 ≤ c.g.p 5 then .hold s ⟨[.ctrRoom 5], true, false⟩ []
      else
        let p := { s.packetFor c true w k.bits c.g.seq with bytes := (List.range len).map fun j => NMap.getD c.team.scratch (off + j) 0 }
        .done (s.sendPacket c p) []

def execKsend (d a : VField) (b : SReg) (s : State) : Host.Outcome State Fault Refusal := runStretch 0 (ksendWord d a b.toNat) s

/-! Command entries (R306). -/

def eType (e : BitVec 256) : Nat := bitsOf e.toNat 253 3
def eSsp (e : BitVec 256) : Nat := bitsOf e.toNat 251 2
def eDsp (e : BitVec 256) : Nat := bitsOf e.toNat 249 2
def eCsel (e : BitVec 256) : Bool := e.getLsbD 248
def eScap (e : BitVec 256) : Nat := bitsOf e.toNat 242 6
def eDcap (e : BitVec 256) : Nat := bitsOf e.toNat 236 6
def eKt (e : BitVec 256) : Bool := e.getLsbD 235
def eEsz (e : BitVec 256) : Nat := bitsOf e.toNat 232 3
def eHandle (e : BitVec 256) : W64 := BitVec.ofNat 64 (bitsOf e.toNat 192 32)
def eAux (e : BitVec 256) : Nat := bitsOf e.toNat 160 32
def eYn (e : BitVec 256) : Nat := bitsOf e.toNat 160 16
def eZn (e : BitVec 256) : Nat := bitsOf e.toNat 176 16
def eLen (e : BitVec 256) : Nat := bitsOf e.toNat 128 32
def eDst (e : BitVec 256) : W64 := BitVec.ofNat 64 (bitsOf e.toNat 64 64)
def eSrc (e : BitVec 256) : W64 := BitVec.ofNat 64 (bitsOf e.toNat 0 64)

/-- Destination bytes of a command (R307). -/
def eTotal (e : BitVec 256) : Nat := if eType e = 1 then eLen e * eYn e * eZn e else if eType e = 0 then eLen e else eLen e * 2 ^ eEsz e

/-- The format tests of R309 on an entry and, for a box, its extension; `share` is the share's size. -/
def entryFormatOk (e ext : BitVec 256) (share : Nat) : Bool :=
  let ty := eType e
  let idx := ty == 3 || ty == 4
  (ty == 0 || ty == 1 || idx) && eSsp e != 3 && eDsp e != 3 && bitsOf e.toNat 224 8 == 0
    && (eCsel e || (eScap e == 0 && eDcap e == 0))
    && (if idx then decide (eEsz e ≤ 4) else eEsz e == 0) && (ty != 0 || eAux e == 0) && eLen e != 0
    && (ty != 1 || (eYn e != 0 && eZn e != 0 && decide (eTotal e < 2 ^ 41) && eType ext == 2 && bitsOf ext.toNat 128 125 == 0))
    && (!idx || (eAux e % 4 == 0 && decide (eAux e + 4 * eLen e ≤ share)))

/-- KT keeps tags between two global spaces alone (R309). -/
def entryTagsOk (e : BitVec 256) : Bool := !eKt e || (eSsp e == 0 && eDsp e == 0)

/-- CapCheck's tests but the bounds for a global side, and GL (R320, R53). -/
def sideCheck (k : Cap) (perm : Nat) : Option Cause :=
  match capCheckUse k perm with
  | some f => some f
  | none => if k.grants permGL then none else some .capPerm

/-- CPY, CPYT, CPYG, CPYS (R320): `ty` the entry's TYPE, `esz` its element size. -/
def cpyWord (ty esz : Nat) (o : CpyOp) (c : Ctx) (s : State) : WordOut :=
  let b := o.b.toNat
  let d := o.d.toNat
  let a := o.a.toNat
  let n := if ty = 1 then 2 else 1
  let regs := if ty = 1 then 7 else if ty = 0 then 4 else 5
  let trap := fun (f : Cause) (info : W64) => WordOut.trap s f info c.p.lanes
  let v := fun (j : Nat) => (c.g.s (b + j)).toNat
  if d % 2 ≠ 0 || a % 2 ≠ 0 then trap .regAlign 0
  else guardW (c.checkScalars (pairRegs d ++ pairRegs a ++ (List.range regs).map fun j => b + j)) c 0 s <|
    match c.team.slotOf (c.g.s (b + 3)), c.team.ring with
    | some (cn, i), some r =>
      match NMap.find c.team.cords cn with
      | none => trap .cordState 0
      | some k =>
        let st := (k.slot i).st
        let kt := if o.kt then 1 else 0
        let e : BitVec 256 := BitVec.ofNat 256 (v 0 + v 1 * 2 ^ 64 + v 2 % 2 ^ 32 * 2 ^ 128 + (if ty = 0 then 0 else v 4 % 2 ^ 32 * 2 ^ 160)
          + v 3 % 2 ^ 32 * 2 ^ 192 + esz * 2 ^ 232 + kt * 2 ^ 235 + o.dsp.toNat * 2 ^ 249 + o.ssp.toNat * 2 ^ 251 + ty * 2 ^ 253)
        let ext : BitVec 256 := if ty = 1 then BitVec.ofNat 256 (v 5 + v 6 * 2 ^ 64 + 2 * 2 ^ 253) else 0
        if k.ch || !(st == .acq || st == .armed) then trap .cordState 0
        else if 2 ^ 32 ≤ v 2 || !entryFormatOk e ext c.team.shareBytes || !entryTagsOk e then trap .ringFormat 0
        else
          let dst := if o.dsp == 0 then c.g.sc d else Cap.null
          let src := if o.ssp == 0 then c.g.sc a else Cap.null
          match if o.dsp == 0 then sideCheck dst (permST + kt * permSC) else none with
          | some f => trap f dst.addr
          | none => match if o.ssp == 0 then sideCheck src (permLD + kt * permLC) else none with
            | some f => trap f src.addr
            | none =>
              let room := decide (c.team.ringUsed r + n ≤ 2 ^ r.logSize)
              if c.g.p 0 ≠ 0 || !room || 255 ≤ c.g.p 4 then
                .hold s ⟨[.pLe 0 0, .ringRoom n] ++ (if 255 ≤ c.g.p 4 then [.ctrRoom 4] else []), true, false⟩ []
              else
                let id := s.freshId
                let nt := c.team.scratchWord r.hdr
                let pos := nt % 2 ^ r.logSize
                let pos2 := (nt + 1) % 2 ^ r.logSize
                let s1 := s.useId.modTeam c.core c.gid.slot fun t =>
                  let m1 := scratchPutNat t.scratch (r.hdr + 32 + 32 * pos) 32 e.toNat
                  let m2 := if n = 2 then scratchPutNat m1 (r.hdr + 32 + 32 * pos2) 32 ext.toNat else m1
                  { t.setCord cn (k.setSlot i { k.slot i with infl := (k.slot i).infl + 1 }) with
                    scratch := scratchPutNat m2 r.hdr 4 ((nt + n) % 2 ^ 32)
                    ring := some { r with shadows := NMap.set r.shadows pos (src, dst), items := NMap.set r.items pos (c.gid, id) } }
                .done ((s1.modGroup c.gid fun g => (g.ctrUp 4 id).stretch).post
                  (.ringNotify c.gid c.core c.gid.slot (BitVec.ofNat 32 (nt + n)))) []
    | _, _ => trap .cordState 0

/-- CPY. -/
def execCpy (o : CpyOp) (s : State) : Host.Outcome State Fault Refusal := runStretch 0 (cpyWord 0 0 o) s
/-- CPYT, a box. -/
def execCpyt (o : CpyOp) (s : State) : Host.Outcome State Fault Refusal := runStretch 0 (cpyWord 1 0 o) s
/-- CPYG, a gather. -/
def execCpyg (o : CpyOp) (esz : BitVec 3) (s : State) : Host.Outcome State Fault Refusal := runStretch 0 (cpyWord 3 esz.toNat o) s
/-- CPYS, a scatter. -/
def execCpys (o : CpyOp) (esz : BitVec 3) (s : State) : Host.Outcome State Fault Refusal := runStretch 0 (cpyWord 4 esz.toNat o) s

end Sys2Proof.Machine
end

