-- ==== Sys2Proof/Machine/Engine.lean ====
section
/-! DEFINITION. What the copy engine and the matrix unit share: reading global memory at a slice, writing it at home under an engine's grant
(spec/12, R285, R286), and the places of a team's scratchpads (spec/15, R307). -/
namespace Sys2Proof.Machine

/-! Reading at a slice (R286). -/

/-- A slice of the core's sector or die holds a clean copy of the line (R223). -/
def State.sliceCopy (s : State) (core ln : Nat) : Bool := (s.copiesAt ln).getLsbD (siteOf core ln) && !s.noCache core ln

/-- A line in state O whose bytes have been forwarded: every reader sees those (R279, R286). -/
def DirEntry.forwarded (e : DirEntry) : Bool := e.st == .owned && e.fwdData.isSome

/-- The line can be read now: a copy in the core's sector or die, a host line, a home that answers, or forwarded bytes. -/
def State.readable (s : State) (core ln : Nat) : Bool :=
  isHostLine ln || s.sliceCopy core ln || (((s.dirAt ln).answersNow || (s.dirAt ln).forwarded) && !s.frozen ln)

/-- An engine of the core waits at the line's home. -/
def State.pinned (s : State) (core ln : Nat) : Bool := (s.dirAt ln).queue.contains (.pin core)

/-- Lines that an engine has not asked for yet, though it cannot read them now. -/
def State.mustPin (s : State) (core : Nat) (lns : List Nat) : Bool := lns.any fun ln => !s.readable core ln && !s.pinned core ln

/-- Every line can be read. -/
def State.allReadable (s : State) (core : Nat) (lns : List Nat) : Bool := lns.all fun ln => s.readable core ln

/-- Asks for the lines that cannot be read now. -/
def State.pinLines (s : State) (core : Nat) (lns : List Nat) : State :=
  lns.foldl (fun x ln => if x.readable core ln || x.pinned core ln then x else x.homeArrive ln (.pin core)) s

/-- An engine can go on, or has a request to make. -/
def State.engineReady (s : State) (core : Nat) (lns : List Nat) : Bool := s.allReadable core lns || s.mustPin core lns

/-- The pieces of a range by line. -/
def splitLines : Nat → W64 → Nat → List (W64 × Nat)
  | 0, _, _ => []
  | fuel + 1, va, n =>
    if n = 0 then []
    else
      let k := min n (128 - va.toNat % 128)
      (va, k) :: splitLines fuel (va + BitVec.ofNat 64 k) (n - k)

/-- The pieces of a range of `n` bytes. -/
def rangeLines (va : W64) (n : Nat) : List (W64 × Nat) := splitLines (n / 128 + 2) va n

/-- Translates an engine's range: physical pieces, or the first cause. A control region gives WINDOW (R244); the port of an interface in ERROR blocks
what would be read (R428). -/
def State.engineRange (s : State) (core tenant : Nat) (kind : AccessKind) : List (W64 × Nat) → State × Except Cause (List (Nat × Nat))
  | [] => (s, .ok [])
  | (va, n) :: r =>
    match translate s core tenant va kind with
    | (s1, .error c) => (s1, .error c)
    | (s1, .ok (.mem pa)) =>
      if !kind.writes && s1.hostBlocked tenant (pa / 128) then (s1, .error .hostAbort)
      else (match State.engineRange s1 core tenant kind r with
        | (s2, .ok ps) => (s2, .ok ((pa, n) :: ps))
        | x => x)
    | (s1, .ok _) => (s1, .error .window)

/-- Why a line cannot be read: never while a clean copy serves it (R4, R248, R425). -/
def State.copyFault (s : State) (core ln : Nat) : Option Cause := if s.sliceCopy core ln then none else s.lineFault ln

/-- The cause that a core's read of pieces meets. -/
def State.readFault (s : State) (core : Nat) (ps : List (Nat × Nat)) : Option Cause := ps.findSome? fun p => s.copyFault core (p.1 / 128)

/-- The host's line that the walks of an engine's ranges wait for (R228, R297). -/
def State.walksHost (s : State) (core tenant : Nat) (kind : AccessKind) (l : List (W64 × Nat)) : Option Nat :=
  l.findSome? fun p => s.pageHost core tenant p.1 kind


/-- A step that may wait for such a line is due: it can go on, or has not asked yet. -/
def State.homeDue (s : State) (h : Option Nat) (i : Instr) (ready : Bool) : Bool :=
  match h with
  | some ln => !s.homeAsked ln i
  | none => ready

/-- The lines of pieces. -/
def pieceLines (ps : List (Nat × Nat)) : List Nat := (ps.map fun p => p.1 / 128).dedup

/-- An engine reads lines: those that no slice copy serves are read from HBM (R416). -/
def State.chargeReads (s : State) (tenant core : Nat) (lns : List Nat) : State :=
  s.chargeAll tenant core (lns.filter fun ln => !s.sliceCopy core ln)

/-- A byte as every reader outside the writing core sees it. -/
def State.visibleByte (s : State) (pa : Nat) : Byte := lineByte (s.visibleLine (pa / 128)).1 (pa % 128)
def State.visibleTag (s : State) (pa : Nat) : Bool := (s.visibleLine (pa / 128)).2.getLsbD (pa % 128 / 16)

/-- The bytes of pieces as one number. -/
def State.visibleNat (s : State) (ps : List (Nat × Nat)) : Nat :=
  leNat (ps.flatMap fun p => (List.range p.2).map fun j => s.visibleByte (p.1 + j))

/-! Writing at home (R285). -/

/-- The bytes of one line that an engine writes: later bytes replace earlier ones. -/
def addJobByte (pa : Nat) (v : Byte) : List EngineJob → List EngineJob
  | [] => [⟨pa / 128, setLineByte 0 (pa % 128) v, 1#128 <<< (pa % 128), 0⟩]
  | j :: r =>
    if j.line = pa / 128 then { j with data := setLineByte j.data (pa % 128) v, mask := j.mask ||| (1#128 <<< (pa % 128)) } :: r
    else j :: addJobByte pa v r

/-- The tag of a granule that an engine writes. -/
def tagJob (pa : Nat) (t : Bool) (js : List EngineJob) : List EngineJob :=
  js.map fun j => if j.line = pa / 128 && t then { j with tags := j.tags ||| (1#8 <<< (pa % 128 / 16)) } else j

/-- A part of a line is written over a line that cannot be read (R248). -/
def State.jobFault (s : State) (j : EngineJob) : Option Cause := s.partialFault j.line j.mask

/-- The home writes the bytes; the page is marked (R231). -/
def State.performJob (s : State) (j : EngineJob) : State :=
  let s1 := (s.writeOver j.line j.mask j.data j.tags).markDirty (j.line * 128)
  if isHostLine j.line then s1.setCopies j.line 0 else s1

/-- An engine's write for a tenant: a request at the line's controller (R416), dropped at the port where the tenant's interface is in ERROR (R428). -/
def State.engineWrite (s : State) (tenant core : Nat) (j : EngineJob) : State :=
  if s.hostBlocked tenant j.line then s else (s.charge tenant core j.line).performJob j

/-- Asks for write grant of lines for an engine of the core (R285). -/
def State.askEngine (s : State) (core : Nat) (lns : List Nat) : State := lns.foldl (fun x ln => x.post (.grantReq ln core false true)) s

/-- An accepted MDRAIN or a chunk in flight needs write grant of a line. -/
def Core.wantsLine (k : Core) (ln : Nat) : Bool :=
  k.mqueue.any (fun op => op.lines.contains ln) || k.teams.any fun st => st.2.cmds.any fun x => x.lines.contains ln

/-- The engines give back the write grants that nothing of theirs needs (R285). -/
def State.releaseEngine (s : State) (core : Nat) : State :=
  let k := s.core core
  let back := k.egrants.filter fun ln => !k.wantsLine ln
  back.foldl (fun x ln => x.post (.grantBack ln core)) (s.setCore core { k with egrants := k.egrants.filter fun ln => !back.contains ln })

/-- The lines that an engine must read at a slice: one whose write grant it holds it reads at once. -/
def State.unheldLines (s : State) (core : Nat) (lns : List Nat) : List Nat := lns.filter fun ln => !(s.core core).egrants.contains ln

end Sys2Proof.Machine
end

