-- ==== Sys2Proof/Machine/CopyEngine.lean ====
section
/-! DEFINITION. The copy engine's steps (spec/15, R305, R308 to R310, R317): publication, acceptance, chunks, arrivals of KSEND packets. -/
namespace Sys2Proof.Machine

/-! Publication (R305). -/

/-- Writes SIDX and SCAUSE of a ring's header (R304). -/
def Team.ringStatus (t : Team) (r : Ring) (sidx scause : Nat) : Team :=
  { t with scratch := scratchPutNat (scratchPutNat t.scratch (r.hdr + 8) 4 sidx) (r.hdr + 12) 1 scause }

/-- A RING_FORMAT event of a group (R305, R309). -/
def ringEvent : BEvent := ⟨.ringFormat, 0, 0, 0, 0, 0, none⟩

/-- NOTIFY of a ring's header, in the share. -/
def Team.putNotify (t : Team) (r : Ring) (v : BitVec 32) : Team := { t with scratch := scratchPutNat t.scratch r.hdr 4 v.toNat }

/-- RING_NOTIFY: the engine acts on a write to NOTIFY; a refused write leaves the published count there. -/
def State.ringNotify (s : State) (g : GroupId) (core slot : Nat) (v : BitVec 32) : State :=
  match s.team core slot with
  | none => s
  | some t =>
    match t.ring with
    | none => s
    | some r =>
      if (v - r.consumed).toNat ≤ 2 ^ r.logSize then
        let new := (List.range (v - r.published).toNat).take (2 ^ r.logSize)
        let pub := new.foldl (fun m j => NMap.set m ((r.published.toNat + j) % 2 ^ r.logSize) g) r.publisher
        s.setTeam core slot { t.putNotify r v with ring := some { r with published := v, publisher := pub } }
      else (s.setTeam core slot ((t.ringStatus r v.toNat Cause.ringFormat.code).putNotify r r.published)).modGroup g fun x => x.addEvent ringEvent

def execRingNotify (g : GroupId) (core slot : Nat) (v : BitVec 32) (s : State) : Host.Outcome State Fault Refusal := .next (s.ringNotify g core slot v)

/-! Acceptance (R309). -/

/-- Entry at a ring position. -/
def Team.ringEntry (t : Team) (r : Ring) (i : Nat) : BitVec 256 :=
  BitVec.ofNat 256 (scratchNat t.scratch (r.hdr + 32 + 32 * (i % 2 ^ r.logSize)) 32)

/-- A copy table read (R308): the capability, read at acceptance with LD and LC. One that lies at no multiple of 16 carries no tag (R46; log entry 131).
INTEGRITY is counted and reported (R425). -/
def State.tableCap (s : State) (core tenant : Nat) (table : Cap) (tn i : Nat) : State × Except Cause Cap :=
  let a := table.addr + BitVec.ofNat 64 (16 * i)
  if tn ≤ i then (s, .error (if tn = 0 then .capTag else .capBounds))
  else match capCheck table a 16 (permLD + permLC) with
    | some f => (s, .error f)
    | none =>
      match s.engineRange core tenant .load (rangeLines a 16) with
      | (s1, .error f) => (s1, .error f)
      | (s1, .ok ps) => (match s1.readFault core ps with
        | some f => (s1.noteCause core tenant f, .error f)
        | none => (s1, .ok (s1.sweepFilter tenant core
            ⟨BitVec.ofNat 128 (s1.visibleNat ps), match ps with | p :: _ => p.1 % 16 == 0 && s1.visibleTag p.1 | [] => false⟩)))

/-- The ranges that acceptance of an entry reads from the copy table: both of its entries, whatever the spaces of its sides (R308). -/
def tableRanges (r : Ring) (e : BitVec 256) : List (W64 × Nat) :=
  if !eCsel e then []
  else
    let one := fun (i : Nat) => rangeLines (r.table.addr + BitVec.ofNat 64 (16 * i)) 16
    (if eScap e < r.tn then one (eScap e) else []) ++ (if eDcap e < r.tn then one (eDcap e) else [])

/-- Their lines. -/
def State.tableLines (s : State) (core tenant : Nat) (r : Ring) (e : BitVec 256) : List Nat :=
  match (s.engineRange core tenant .load (tableRanges r e)).2 with
  | .ok ps => pieceLines ps
  | .error _ => []

/-- A side's capability from the table, checked; the entry of a side that is no global one too (R309, second row). -/
def State.tableSide (s : State) (core tenant : Nat) (r : Ring) (i perm : Nat) : State × Except Cause Cap :=
  match s.tableCap core tenant r.table r.tn i with
    | (s1, .error f) => (s1, .error f)
    | (s1, .ok k) => (match sideCheck k perm with | some f => (s1, .error f) | none => (s1, .ok k))

/-- What acceptance decides: the two capabilities, or the code on the slot and the code in SCAUSE. -/
abbrev Accept := Except (Nat × Nat) (Cap × Cap)

/-- The refusals of R309. -/
def refuseFormat : Nat × Nat := (Cause.ringFormat.code, Cause.ringFormat.code)
def refuseCap (c : Cause) : Nat × Nat := (c.code, Cause.copyFault.code)

/-- The checks of R309 in their order; `shadow` is what the position's shadow holds. -/
def State.acceptCheck (s : State) (core tenant : Nat) (t : Team) (r : Ring) (e ext : BitVec 256) (extThere : Bool) (shadow : Option (Cap × Cap)) :
    State × Accept :=
  let rest := fun (x : State) (src dst : Cap) =>
    if !entryTagsOk e || (eKt e && !(src.grants permLC && dst.grants permSC)) then (x, (.error refuseFormat : Accept))
    else match t.slotOf (eHandle e) with
      | none => (x, .error refuseFormat)
      | some (n, i) => match NMap.find t.cords n with
        | none => (x, .error refuseFormat)
        | some k => if k.ch || !((k.slot i).st == .acq || (k.slot i).st == .armed) then (x, .error refuseFormat) else (x, .ok (src, dst))
  if !entryFormatOk e ext t.shareBytes || (eType e == 1 && !extThere) || (!eCsel e && shadow.isNone) then (s, .error refuseFormat)
  else if eCsel e then
    match s.tableSide core tenant r (eScap e) permLD with
    | (s1, .error f) => (s1, .error (refuseCap f))
    | (s1, .ok src) => (match s1.tableSide core tenant r (eDcap e) permST with
      | (s2, .error f) => (s2, .error (refuseCap f))
      | (s2, .ok dst) => rest s2 src dst)
  else match shadow with
    | some (src, dst) => rest s (s.sweepFilter tenant core src) (s.sweepFilter tenant core dst)
    | none => (s, .error refuseFormat)

/-- Takes the first residue of a rekindled team, revalidated (R318). -/
def State.acceptResidue (s : State) (core slot : Nat) (t : Team) (x : CopyCmd) (rest : List CopyCmd) : State :=
  let dummy : Ring := ⟨0, 0, Cap.null, 0, 0, 0, [], [], []⟩
  let e := x.entry &&& ~~~(1#256 <<< 248) &&& ~~~(BitVec.ofNat 256 (4095 * 2 ^ 236))
  match s.acceptCheck core t.tenant t dummy e x.ext true (some (x.src, x.dst)) with
  | (s1, .ok (src, dst)) =>
    s1.modTeam core slot fun t => { t with residues := rest, cmds := t.cmds ++ [{ x with src := src, dst := dst, lines := [] }] }
  | (s1, .error r) =>
    let s2 := s1.modTeam core slot fun t =>
      let t0 := { t with residues := rest }
      let t1 := match t.ring with | some ring => t0.ringStatus ring x.idx r.2 | none => t0
      match t.slotOf (eHandle x.entry) with
      | some (n, i) => t1.modSlot n i fun y => { y.faulted r.1 with infl := y.infl - 1 }
      | none => t1
    s2.modGroup ⟨core, slot, x.group⟩ fun g => g.addEvent ringEvent

/-- Accepts or refuses the next published entry of a ring (R309); `lost` is a cause that its table read has met already (R297). A published entry after a
box head that is no extension makes the head fail alone: it stays published and is judged as a command of its own (R306; log entry 141). -/
def State.acceptRing (s : State) (core slot : Nat) (t : Team) (r : Ring) (lost : Option Cause) : State :=
  let i := r.consumed.toNat
  let pos := i % 2 ^ r.logSize
  let e := t.ringEntry r i
  let two := decide (2 ≤ (r.published - r.consumed).toNat)
  let ext := t.ringEntry r (i + 1)
  -- a box head takes its extension with it
  let n := if eType e = 1 && two && eType ext = 2 then 2 else 1
  let shadow := NMap.find r.shadows pos
  let item := NMap.find r.items pos
  let pub := NMap.find r.publisher pos
  let group := match pub with | some g => if g.core = core && g.slot = slot then g.group else 0 | none => 0
  let (s1, res) := match lost with
    | some f => (s, (.error (refuseCap f) : Accept))
    | none => s.acceptCheck core t.tenant t r e ext two shadow
  let r1 := { r with
    consumed := r.consumed + BitVec.ofNat 32 n
    shadows := NMap.del r.shadows pos
    items := NMap.del r.items pos }
  let s2 := s1.modTeam core slot fun t => { t with
    ring := some r1
    scratch := scratchPutNat t.scratch (r.hdr + 4) 4 r1.consumed.toNat }
  let s3 := match item with | some (g, id) => s2.modGroup g fun x => x.ctrDone 4 id | none => s2
  match res with
  | .ok (src, dst) =>
    let id := s3.freshId
    s3.useId.modTeam core slot fun t =>
      let t1 := { t with cmds := t.cmds ++ [⟨id, e, if n = 2 then ext else 0, src, dst, 0, group, [], i⟩] }
      if item.isSome then t1
      else match t.slotOf (eHandle e) with | some (c, j) => t1.modSlot c j fun y => { y with infl := y.infl + 1 } | none => t1
  | .error (code, sc) =>
    let s4 := s3.modTeam core slot fun t =>
      let t1 := t.ringStatus r1 i sc
      match t.slotOf (eHandle e) with
      | some (c, j) => t1.modSlot c j fun y => let z := y.faulted code
                                               if item.isSome then { z with infl := z.infl - 1 } else z
      | none => t1
    match pub with
    | some g => s4.modGroup g fun x => x.addEvent ringEvent
    | none => s4

/-- The team has an entry that the engine may look at: fewer than 8 commands between acceptance and completion (R309). -/
def Team.mayAccept (t : Team) : Bool :=
  decide (t.cmds.length < 8) && t.banking.isNone && (!t.residues.isEmpty || (match t.ring with | some r => r.consumed != r.published | none => false))

/-- ENTRY_ACCEPT: one command of one team; the engine goes on with the next team (R309). -/
def State.entryAccept (s : State) (core slot : Nat) : State :=
  match s.team core slot with
  | none => s
  | some t =>
    if !t.mayAccept then s
    else
      let s1 := s.modCore core fun k => { k with rotor := (slot + 1) % 32 }
      match t.residues, t.ring with
      | x :: rest, _ => s1.acceptResidue core slot t x rest
      | [], some r =>
        let e := t.ringEntry r r.consumed.toNat
        (match s1.walksHost core t.tenant .load (tableRanges r e) with
        | some ln => s1.awaitHome ln (.entryAccept core slot)
        | none =>
          let lns := s1.tableLines core t.tenant r e
          if s1.allReadable core lns then (s1.chargeReads t.tenant core lns).acceptRing core slot t r none else s1.pinLines core lns)
      | [], none => s1

def execEntryAccept (core slot : Nat) (s : State) : Host.Outcome State Fault Refusal := .next (s.entryAccept core slot)

/-- The slot of a core whose ring the engine serves next (R309). -/
def State.acceptSlot (s : State) (core : Nat) : Option Nat :=
  let k := s.core core
  ((List.range 32).map fun j => (k.rotor + j) % 32).find? fun sl =>
    match NMap.find k.teams sl with
    | none => false
    | some t => t.mayAccept && (!t.residues.isEmpty || (match t.ring with
        | some r =>
          let e := t.ringEntry r r.consumed.toNat
          s.homeDue (s.walksHost core t.tenant .load (tableRanges r e)) (.entryAccept core sl) (s.engineReady core (s.tableLines core t.tenant r e))
        | none => false))

/-! Chunks (R307, R310). -/

/-- A run of a chunk: source and destination byte offsets from the command's positions, and bytes. -/
abbrev Run := Int × Int × Nat

/-- A 32-bit stride. -/
def stride (ext : BitVec 256) (lo : Nat) : Int := signedOf 32 (bitsOf ext.toNat lo 32)

/-- The runs of destination bytes k to k + n - 1 (R307); `idx` gives the index list. -/
def copyRuns (e ext : BitVec 256) (idx : Nat → Nat) : Nat → Nat → Nat → List Run
  | 0, _, _ => []
  | fuel + 1, k, n =>
    if n = 0 then []
    else match eType e with
      | 0 => [((k : Int), (k : Int), n)]
      | 1 =>
        let x := k % eLen e
        let row := k / eLen e
        let y := row % eYn e
        let z := row / eYn e
        let m := min n (eLen e - x)
        ((x : Int) + y * stride ext 0 + z * stride ext 32, (x : Int) + y * stride ext 64 + z * stride ext 96, m)
          :: copyRuns e ext idx fuel (k + m) (n - m)
      | ty =>
        let u := 2 ^ eEsz e
        let i := k / u
        let near : Int := (i * u : Nat)
        let far : Int := (idx i * u : Nat)
        (if ty = 3 then (far, near, u) else (near, far, u)) :: copyRuns e ext idx fuel (k + u) (n - u)

/-- Where bytes of a side lie: pieces of memory, or a stretch of a team's share. -/
inductive Place where
  | mem (ps : List (Nat × Nat))
  | share (core slot off n : Nat)
  deriving DecidableEq, Repr

/-- A side of a run (R310, step 1): its checks and its place. Nonzero high bits of a scratchpad position, which R307 calls zero and gives no cause, are
outside every share: WINDOW (log entry 142). -/
def State.sidePlace (s : State) (core slot : Nat) (t : Team) (x : CopyCmd) (src : Bool) (off : Int) (n : Nat) : State × Except Cause Place :=
  let e := x.entry
  let sp := if src then eSsp e else eDsp e
  let pos := if src then eSrc e else eDst e
  let kt := if eKt e then 1 else 0
  if sp = 0 then
    let k := if src then x.src else x.dst
    let a := k.addr + pos + BitVec.ofInt 64 off
    match capCheck k a n (if src then permLD + kt * permLC else permST + kt * permSC) with
    | some f => (s, .error f)
    | none => match s.engineRange core t.tenant (if src then .load else .write) (rangeLines a n) with
      | (s1, .error f) => (s1, .error f)
      | (s1, .ok ps) => (match (if src then s1.readFault core ps else none) with
        | some f => (s1, .error f)
        | none => (s1, .ok (.mem ps)))
  else
    let o : Int := (bitsOf pos.toNat 0 32 : Nat) + off
    let hi := pos.toNat / 2 ^ 32
    let target : Option (Nat × Nat) :=
      if sp = 1 then (if hi = 0 then some (core, slot) else none)
      else if 48 ≤ hi then none
      else (s.rickTeams t).find? fun y => y.1 == clusterOf core * 48 + hi
    match target with
    | none => (s, .error .window)
    | some (c, sl) =>
      let share := ((s.team c sl).map Team.shareBytes).getD 0
      if o < 0 || (share : Int) < o + n then (s, .error .window) else (s, .ok (.share c sl o.toNat n))

/-- The places of a chunk's runs, or its first failing check. -/
def State.runPlaces (s : State) (core slot : Nat) (t : Team) (x : CopyCmd) : List Run → State × Except Cause (List (Place × Place))
  | [] => (s, .ok [])
  | (so, d, n) :: r =>
    match s.sidePlace core slot t x true so n with
    | (s1, .error f) => (s1, .error f)
    | (s1, .ok a) => (match s1.sidePlace core slot t x false d n with
      | (s2, .error f) => (s2, .error f)
      | (s2, .ok b) => (match State.runPlaces s2 core slot t x r with
        | (s3, .ok ps) => (s3, .ok ((a, b) :: ps))
        | y => y))

/-- The host's line that the walks of a chunk wait for (R228). -/
def State.runWalks (s : State) (core : Nat) (t : Team) (x : CopyCmd) (rs : List Run) : Option Nat :=
  let side := fun (src : Bool) (off : Int) (n : Nat) =>
    if (if src then eSsp x.entry else eDsp x.entry) ≠ 0 then none
    else
      let k := if src then x.src else x.dst
      s.walksHost core t.tenant (if src then .load else .write) (rangeLines (k.addr + (if src then eSrc x.entry else eDst x.entry) + BitVec.ofInt 64 off) n)
  rs.findSome? fun r => (side true r.1 r.2.2).orElse fun _ => side false r.2.1 r.2.2

/-- The byte addresses of a place: memory bytes are tagged `true`. -/
def Place.bytes : Place → List (Bool × Nat × Nat × Nat)
  | .mem ps => ps.flatMap fun p => (List.range p.2).map fun j => (true, 0, 0, p.1 + j)
  | .share c sl o n => (List.range n).map fun j => (false, c, sl, o + j)

/-- The memory lines of places. -/
def Place.lines : Place → List Nat
  | .mem ps => pieceLines ps
  | .share .. => []

/-- A byte of a place. -/
def State.placeByte (s : State) (a : Bool × Nat × Nat × Nat) : Byte :=
  if a.1 then s.visibleByte a.2.2.2 else ((s.team a.2.1 a.2.2.1).map fun t => NMap.getD t.scratch a.2.2.2 0).getD 0

/-- The tag a destination granule takes with KT (R310, R56): the sixteen bytes of one tagged source granule; `bs` are the bytes with the last
written first. -/
def State.keptTag (s : State) (tenant core : Nat) (bs : List ((Bool × Nat × Nat × Nat) × (Bool × Nat × Nat × Nat))) (pa : Nat) : Bool :=
  let src := (List.range 16).map fun j => (bs.find? fun b => b.2.1 && b.2.2.2.2 == pa + j).map fun b => b.1
  match src with
  | some a :: _ =>
    a.1 && a.2.2.2 % 16 == 0 && ((List.range 16).all fun j => src[j]? == some (some (true, 0, 0, a.2.2.2 + j)))
      && s.visibleTag a.2.2.2
      && (s.sweepFilter tenant core ⟨BitVec.ofNat 128 (s.visibleNat [(a.2.2.2, 16)]), true⟩).tag
  | _ => false

/-- The slot of a command takes a change. -/
def Team.cmdSlot (t : Team) (x : CopyCmd) (f : CordSlot → CordSlot) : Team :=
  match t.slotOf (eHandle x.entry) with
  | some (n, i) => t.modSlot n i f
  | none => t

def Team.setCmd (t : Team) (x : CopyCmd) : Team := { t with cmds := t.cmds.map fun y => if y.id = x.id then x else y }

/-- A command that is not among a team's any more. -/
def Team.dropCmd (t : Team) (x : CopyCmd) : Team := { t with cmds := t.cmds.filter fun y => y.id != x.id }

/-- A failing check abandons the rest of a command: its slot becomes FAULT, INFL falls (R310). -/
def Team.failCmd (t : Team) (x : CopyCmd) (c : Cause) : Team :=
  (t.dropCmd x).cmdSlot x fun y => let z := y.faulted c.code
                                   { z with infl := z.infl - 1 }

/-- A chunk's bytes are written: they are credited (R310, step 5); after the last one the command counts as an arrival, and INFL falls. -/
def Team.landChunk (t : Team) (x : CopyCmd) (n : Nat) : Team :=
  let t1 := t.cmdSlot x fun y => y.credit n 0
  if x.done < eTotal x.entry then t1.setCmd x
  else (t1.dropCmd x).cmdSlot x fun y => let z := y.credit 0 1
                                         { z with infl := z.infl - 1 }

/-- Bytes of the next chunk (R310). -/
def CopyCmd.chunkBytes (x : CopyCmd) : Nat := min 4096 (eTotal x.entry - x.done)

/-- The runs of a command's next chunk; the index list is read when the chunk starts. -/
def Team.chunkRuns (t : Team) (x : CopyCmd) : List Run :=
  let aux := eAux x.entry
  copyRuns x.entry x.ext (fun i => scratchNat t.scratch (aux + 4 * i) 4) (x.chunkBytes + 1) x.done x.chunkBytes

/-- The global source and destination lines of a chunk whose write grants the engine does not hold: those it must read at a slice, those it must ask for. -/
def State.placesLines (s : State) (core : Nat) (ps : List (Place × Place)) : List Nat × List Nat :=
  (s.unheldLines core (ps.flatMap fun p => p.1.lines).dedup, s.unheldLines core (ps.flatMap fun p => p.2.lines).dedup)

/-- The global source lines of a command's next chunk. -/
def State.chunkLines (s : State) (core slot : Nat) (t : Team) (x : CopyCmd) : List Nat :=
  match s.runPlaces core slot t x (t.chunkRuns x) with
  | (s1, .ok ps) => (s1.placesLines core ps).1
  | _ => []

/-- A command may go on with its next chunk; the team's banking lets none start when GR_COPY is 0 (R318). -/
def Team.mayChunk (t : Team) (x : CopyCmd) : Bool :=
  decide (x.done < eTotal x.entry) && (match t.banking with | some b => b.grCopy == 1 || !x.lines.isEmpty | none => true)

/-- The engine writes of a chunk, one a line, with the tags that KT keeps (R310, step 4). -/
def State.chunkJobs (s : State) (core : Nat) (t : Team) (x : CopyCmd) (ps : List (Place × Place)) : List EngineJob :=
  let bs := ps.flatMap fun p => p.1.bytes.zip p.2.bytes
  let js := bs.foldl (fun js b => if b.2.1 then addJobByte b.2.2.2.2 (s.placeByte b.1) js else js) []
  if eKt x.entry then
    ((bs.filter fun b => b.2.1 && b.2.2.2.2 % 16 == 0).map fun b => b.2.2.2.2).foldl (fun js pa => tagJob pa (s.keptTag t.tenant core bs.reverse pa) js) js
  else js

/-- A chunk's bytes in scratchpads. -/
def State.chunkShare (s : State) (ps : List (Place × Place)) : State :=
  let vs := (ps.flatMap fun p => p.1.bytes.zip p.2.bytes).map fun b => (b.2, s.placeByte b.1)
  vs.foldl (fun y b => if b.1.1 then y else y.modTeam b.1.2.1 b.1.2.2.1 fun t => { t with scratch := scratchPut t.scratch b.1.2.2.2 b.2 }) s

/-- The write grant that a chunk asks for next: its lines are asked for one by one, the lowest first, so that no two chunks hold each other up. -/
def CopyCmd.nextLine (x : CopyCmd) (lns : List Nat) : Option Nat :=
  if lns.any fun ln => x.lines.contains ln then none else firstBy (fun a b => decide (a < b)) lns

/-- A command fails at its next chunk. -/
def State.chunkFails (s : State) (core slot : Nat) (t : Team) (x : CopyCmd) (f : Cause) : State :=
  ((s.noteCause core t.tenant f).modTeam core slot fun t => t.failCmd x f).releaseEngine core

/-- COPY_CHUNK (R310): the ranges are checked, the write grants taken, the sources read; then the whole chunk is written, its pages are marked (R231), and
it is credited, or it fails and writes nothing. -/
def State.copyChunk (s : State) (core slot cmd : Nat) : State :=
  match s.team core slot with
  | none => s
  | some t =>
    match t.cmds.find? fun y => y.id == cmd with
    | none => s
    | some x =>
      if !t.mayChunk x then s
      else match s.runWalks core t x (t.chunkRuns x) with
      | some ln => s.awaitHome ln (.copyChunk core slot cmd)
      | none =>
        match s.runPlaces core slot t x (t.chunkRuns x) with
        | (s1, .error f) => s1.chunkFails core slot t x f
        | (s1, .ok ps) =>
          let (src, dst) := s1.placesLines core ps
          let marks := s1.marksBusy (ps.flatMap fun p => p.2.lines).dedup (.copyChunk core slot cmd)
          let js := s1.chunkJobs core t x ps
          if !dst.isEmpty then
            match x.nextLine dst with
            | some ln => (s1.modTeam core slot fun t => t.setCmd { x with lines := x.lines ++ [ln] }).askEngine core [ln]
            | none => s1
          else if !s1.allReadable core src then s1.pinLines core src
          else match js.findSome? fun j => s1.jobFault j with
          | some f => s1.chunkFails core slot t x f
          | none =>
            if !marks.isEmpty then marks.foldl (fun y b => y.askMark b (.copyChunk core slot cmd)) s1
            else
              let n := x.chunkBytes
              let s2 := js.foldl (fun y j => y.engineWrite t.tenant core j) ((s1.chunkShare ps).chargeReads t.tenant core src)
              ((s2.count core t.tenant 11 ((x.done + n) / 128 - x.done / 128)).modTeam core slot fun t =>
                t.landChunk { x with done := x.done + n, lines := [] } n).releaseEngine core

def execCopyChunk (core slot cmd : Nat) (s : State) : Host.Outcome State Fault Refusal := .next (s.copyChunk core slot cmd)

/-- The next step of a command's chunk has something to do. -/
def State.chunkReady (s : State) (core slot : Nat) (t : Team) (x : CopyCmd) : Bool :=
  match s.runPlaces core slot t x (t.chunkRuns x) with
  | (_, .error _) => true
  | (s1, .ok ps) =>
    let (src, dst) := s1.placesLines core ps
    if !dst.isEmpty then (x.nextLine dst).isSome
    else if !s1.allReadable core src then s1.mustPin core src
    else s1.marksDue (ps.flatMap fun p => p.2.lines).dedup (.copyChunk core slot x.id)

/-- The next chunk that can go on, of any team of a core. -/
def State.chunkDue (s : State) (core : Nat) : Option (Nat × Nat) :=
  (s.core core).teams.findSome? fun st => st.2.cmds.findSome? fun x =>
    if st.2.mayChunk x && s.homeDue (s.runWalks core st.2 x (st.2.chunkRuns x)) (.copyChunk core st.1 x.id) (s.chunkReady core st.1 st.2 x) then
      some (st.1, x.id) else none

end Sys2Proof.Machine
end

