-- ==== Sys2Proof/Machine/System.lean ====
section
/-! DEFINITION. The special registers: SGET, SSET and the TLB invalidations of tlbi (spec/20, R392; spec/10, R230, R237). -/
namespace Sys2Proof.Machine

/-- The progress word of a tile (R328). -/
def Tile.progress (x : Tile) (n : Nat) : W64 :=
  BitVec.ofNat 64 (n % 8 + (if x.fault then 2 else if x.pend = 0 then 0 else 1) * 2 ^ 6 + x.pend % 256 * 2 ^ 8
    + (if x.fault then x.fcause % 256 else 0) * 2 ^ 16 + x.step % 65536 * 2 ^ 32 + x.total % 65536 * 2 ^ 48)

/-- A tile that no operation has touched (R327, R35). -/
def Tile.fresh : Tile where
  elems := []
  total := 0
  step := 0
  fcause := 0
  pend := 0
  fault := false
  faddr := 0

def Team.tile (t : Team) (n : Nat) : Tile := NMap.getD t.tiles n Tile.fresh

/-- The tenant's time in nanoseconds (R392, R420). -/
def State.tenantTime (s : State) (tenant : Nat) : W64 := BitVec.ofNat 64 (s.time + (s.tenant tenant).toff)

/-- The special register of a group (R392). -/
def State.specialOf (s : State) (i : GroupId) (t : Team) (g : Group) (r : Nat) : W64 :=
  let k := s.core i.core
  match r with
  | 0 => g.sp.tpc
  | 1 => g.sp.tcause
  | 2 => g.sp.flm
  | 3 => g.sp.tsplit
  | 4 => g.sp.tinfo
  | 5 => g.sp.fpst
  | 6 => g.sp.fpctl
  | 7 => BitVec.ofNat 64 (t.reclim % 512)
  | 8 => BitVec.ofNat 64 ((k.teamEntries i.slot).length + k.hearth.length * 2 ^ 16)
  | 9 => g.sp.rwpc
  | 10 => BitVec.ofNat 64 (t.incn % 4096)
  | 11 => BitVec.ofNat 64 k.world
  | 12 => s.tenantTime t.tenant
  | 13 => (g.sp.mprogTile.map fun n => (t.tile n).progress n).getD 0
  | 14 => BitVec.ofNat 64 t.index
  | 15 => ((s.grid t.grid).map Grid.name).getD 0
  | 16 => BitVec.ofNat 64 (i.group % 32 + descField t.desc 627 2 * 2 ^ 5)
  | 17 => g.sp.rfail
  | 18 => g.sp.tvec
  | 19 => 0
  | 20 => (s.tenant t.tenant).troute0
  | 21 => (s.tenant t.tenant).troute1
  | _ => (s.tenant t.tenant).troute2

/-- The value SGET reads. -/
def specialValue (s : State) (c : Ctx) (r : Nat) : W64 := s.specialOf c.gid c.team c.g r

/-- SGET (R392): the destination is written full in the issue cycle. -/
def execSget (d : SReg) (r : BitVec 8) (s : State) : Host.Outcome State Fault Refusal :=
  runWord false 0 (fun c s => guardW (c.checkScalars [d.toNat]) c 0 s
    (.done (s.modGroup c.gid fun g => g.setS d.toNat (specialValue s c r.toNat)) [])) s

/-- The registers that only level S writes (R392). -/
def ssetSOnly (r : Nat) : Bool := r == 17 || r == 19 || r == 20 || r == 21 || r == 22

/-- A route table word after an SSET (R386): fixed and reserved fields keep their values; `none`: a field takes the reserved value 3. -/
def routeWrite (k : Nat) (old v : W64) : Option W64 :=
  let free := (List.range 32).filter fun j => !reservedCode (32 * k + j) && !fixedCode (32 * k + j)
  if free.any fun j => bitsOf v.toNat (2 * j) 2 == 3 then none
  else some (BitVec.ofNat 64 ((List.range 32).foldl (fun x j =>
    x + bitsOf (if free.contains j then v.toNat else old.toNat) (2 * j) 2 * 4 ^ j) 0))

/-- SSET of tpc in handler mode: the lanes that return go to a header, under the record's code capability (R391, R392). -/
def Group.setReturn (g : Group) (v : W64) : Group :=
  { g with
    sp := { g.sp with tpc := v }
    stopped := g.stopped.map fun r => { r with word := v, hdr := v, atHeader := true, clause := none } }

/-- The effect of an SSET, after the checks of R112 and of the register's own rule. -/
def ssetWord (r : Nat) (v : W64) (c : Ctx) (s : State) : WordOut :=
  let put := fun (f : Special → Special) => WordOut.done (s.modGroup c.gid fun g => { g with sp := f g.sp }) []
  let rsv := WordOut.trap s .reservedField 0 c.p.lanes
  let tn := c.team.tenant
  let t := s.tenant tn
  match r with
  | 0 =>
    if c.g.mode != .handler then .trap s .privilege 0 c.p.lanes
    else if v.toNat % 8 ≠ 0 then .trap s .align 0 c.p.lanes
    else .done (s.modGroup c.gid fun g => g.setReturn v) []
  | 5 => if 32 ≤ v.toNat then rsv else put fun x => { x with fpst := v }
  | 6 => if v &&& ~~~0x11F#64 != 0 then rsv else put fun x => { x with fpctl := v }
  | 7 =>
    if v == 0 || decide (descField c.team.desc 618 9 < v.toNat) then rsv
    else .done (s.modTeam c.core c.gid.slot fun x => { x with reclim := v.toNat }) []
  | 17 => if v &&& 0xFF00000000000007#64 != 0 then rsv else put fun x => { x with rfail := v }
  | 18 => if bitsOf v.toNat 44 19 ≠ 0 then rsv else put fun x => { x with tvec := v }
  | 19 =>
    if bitsOf v.toNat 2 10 ≠ 0 || 2 ≤ bitsOf v.toNat 0 2 then rsv
    else .hold (s.post (if v.getLsbD 0 then .tlbiDropTenant tn else .tlbiDropVa tn (v &&& ~~~0xFFF#64))) ⟨[.walksDone], false, false⟩ []
  | _ =>
    let k := r - 20
    match routeWrite k (t.troute k) v with
    | none => rsv
    | some w =>
      .done (s.setTenant tn (if k = 0 then { t with troute0 := w } else if k = 1 then { t with troute1 := w } else { t with troute2 := w })) []

/-- SSET (R392): PRIVILEGE at level K for a register that only level S writes, then the source must be full. -/
def execSset (a : SReg) (r : BitVec 8) (s : State) : Host.Outcome State Fault Refusal :=
  runWord (ssetSOnly r.toNat) 0 (fun c s => guardW (c.checkScalars [a.toNat]) c 0 s (ssetWord r.toNat (c.g.s a.toNat) c s)) s

/-! tlbi (R230): every TLB of the device and every walker drops the entries; walks complete within a step of this model. -/

/-- Drops TLB entries of a tenant everywhere. -/
def State.dropTlb (s : State) (tenant : Nat) (f : TlbEntry → Bool) : State :=
  let keep := fun (l : List TlbEntry) => l.filter fun e => !(e.tenant == tenant && f e)
  { s with
    cores := s.cores.map fun kc => (kc.1, { kc.2 with tlb := keep kc.2.tlb })
    dies := s.dies.map fun kd => (kd.1, { kd.2 with tlb := keep kd.2.tlb }) }

/-- TLBI_DROP_VA: OP 0, the entries that cover the address. -/
def execTlbiDropVa (tenant : Nat) (va : W64) (s : State) : Host.Outcome State Fault Refusal :=
  .next (s.dropTlb tenant fun e => decide (e.va ≤ va.toNat) && decide (va.toNat < e.va + e.bytes))

/-- TLBI_DROP_TENANT: OP 1, every entry of the tenant. -/
def execTlbiDropTenant (tenant : Nat) (s : State) : Host.Outcome State Fault Refusal := .next (s.dropTlb tenant fun _ => true)

end Sys2Proof.Machine
end

