-- ==== Sys2Proof/Machine/Matrix.lean ====
section
/-! DEFINITION. The matrix unit (spec/16, R327 to R355): the words, the queue, operand fetches, exact steps, MDRAIN, faults and orphans. -/
namespace Sys2Proof.Machine

/-! Formats (R332). -/

/-- The format of a FMT or DF code. -/
def matFmt (code : Nat) : Fmt := ([Fmt.e4m3, .e5m2, .e3m2, .e2m3, .e2m1, .mxint8, .bf16, .f16, .f32, .f64]).getD code .f64
def matMx (code : Nat) : Bool := decide (code ≤ 5)

/-- K positions of a step and of a unit for two formats on a tile shape (R332); `none` raises MATRIX_FORMAT. -/
def matPair (fa fb : Nat) (accF : Bool) : Option (Nat × Nat) :=
  if accF then (if fa = 9 && fb = 9 then some (8, 1) else none)
  else if matMx fa && matMx fb then (if fa = 4 && fb = 4 then some (64, 32) else some (32, 32))
  else if fa = fb && (fa = 6 || fa = 7) then some (16, 8)
  else if fa = 8 && fb = 8 then some (4, 4)
  else none

/-- Rows and columns of a tile, and the format and bytes of its elements (R327). -/
def Team.tileDim (t : Team) : Nat := if t.accF then 64 else 128
def Team.tileFmt (t : Team) : Fmt := if t.accF then .f64 else .f32
def Team.tileBytes (t : Team) : Nat := if t.accF then 8 else 4

/-- Bytes of a block record (R174). -/
def recordBytes (fmt : Nat) : Nat := 1 + 4 * (matFmt fmt).width

/-! Ranges (R331, R333, R342). -/

/-- A range of operand or result bytes: the capability of a global one, its first address or share offset, its bytes. -/
structure MRange where
  glob : Option Cap
  addr : W64
  n : Nat
  deriving DecidableEq, Repr

/-- Element bytes of row r at positions k to k + n - 1; whole records in LAYOUT 1. -/
def OpMap.elemRange (m : OpMap) (r k n : Nat) : MRange :=
  let w := (matFmt m.fmt).width
  let org : W64 := match m.glob with | some c => c.addr | none => 0
  let at_ := org + m.off + BitVec.ofNat 64 (r * m.rs)
  if m.layout = 1 then ⟨m.glob, at_ + BitVec.ofNat 64 (k / 32 * recordBytes m.fmt), n / 32 * recordBytes m.fmt⟩
  else ⟨m.glob, at_ + BitVec.ofNat 64 (k * w / 8), n * w / 8⟩

/-- Scale bytes of row r; they lie in the records in LAYOUT 1. -/
def OpMap.scaleRange (m : OpMap) (r k n : Nat) : List MRange :=
  let org : W64 := match m.glob with | some c => c.addr | none => 0
  if matMx m.fmt && m.layout == 0 then [⟨m.glob, org + m.soff + BitVec.ofNat 64 (r * m.srs + k / 32), n / 32⟩] else []

/-- Each row's elements before its scales. -/
def OpMap.rowRanges (m : OpMap) (r k n : Nat) : List MRange := m.elemRange r k n :: m.scaleRange r k n

/-- The first byte of a range that fails for its bounds (R328). -/
def boundsByte (c : Cap) (a : W64) : W64 :=
  let (base, top) := capDecode c
  if a.toNat < base || top ≤ a.toNat then a else BitVec.ofNat 64 top

/-- Pieces of a range by line, translated, or the cause and the lowest byte of the failing page. -/
def State.matPieces (s : State) (core tenant : Nat) (kind : AccessKind) : List (W64 × Nat) → State × Except (Cause × W64) (List (Nat × Nat))
  | [] => (s, .ok [])
  | p :: r =>
    match s.engineRange core tenant kind [p] with
    | (s1, .error f) => (s1, .error (f, p.1))
    | (s1, .ok ps) => (match State.matPieces s1 core tenant kind r with
      | (s2, .ok qs) => (s2, .ok (ps ++ qs))
      | x => x)

/-- A range's checks: the share for a scratchpad one, CapCheck and translation for a global one (R333, R353). -/
def State.matRange (s : State) (core tenant share : Nat) (kind : AccessKind) (x : MRange) : State × Except (Cause × W64) (List (Nat × Nat)) :=
  match x.glob with
  | none =>
    if share < x.addr.toNat + x.n then (s, .error (.window, if x.addr.toNat < share then BitVec.ofNat 64 share else x.addr))
    else (s, .ok [])
  | some c =>
    match capCheck c x.addr x.n (if kind == .write then permST else permLD) with
    | some f => (s, .error (f, if f == .capBounds then boundsByte c x.addr else x.addr))
    | none => s.matPieces core tenant kind (rangeLines x.addr x.n)

/-- The ranges of a fetch in order up to the first that fails its checks, of which the bytes before the failing one count too: each with its pieces, and
the failure. -/
def State.matRanges (s : State) (core tenant share : Nat) (kind : AccessKind) :
    List MRange → State × List (MRange × List (Nat × Nat)) × Option (Cause × W64)
  | [] => (s, [], none)
  | x :: r =>
    match s.matRange core tenant share kind x with
    | (s1, .error f) =>
      let y := { x with n := min x.n (f.2 - x.addr).toNat }
      (match s1.matRange core tenant share kind y with
      | (s2, .ok ps) => (s2, [(y, ps)], some f)
      | (s2, .error _) => (s2, [], some f))
    | (s1, .ok ps) =>
      let (s2, l, f) := State.matRanges s1 core tenant share kind r
      (s2, (x, ps) :: l, f)

/-- The lines of ranges. -/
def rangesLines (l : List (MRange × List (Nat × Nat))) : List Nat := (l.flatMap fun x => pieceLines x.2).dedup

/-- Those that the unit must read at a slice: it reads a line whose write grant it holds for an accepted MDRAIN of its own at once. -/
def State.unheld (s : State) (core : Nat) (l : List (MRange × List (Nat × Nat))) : List Nat :=
  s.unheldLines core (rangesLines l)

/-- The host's line that the walks of ranges wait for (R228, R297). -/
def State.matWalks (s : State) (core tenant : Nat) (kind : AccessKind) (l : List MRange) : Option Nat :=
  s.walksHost core tenant kind (l.flatMap fun x => if x.glob.isNone then [] else rangeLines x.addr x.n)

/-- Why a range cannot be read, and the lowest byte of the failing line. -/
def State.matReadFault (s : State) (core : Nat) (x : MRange × List (Nat × Nat)) : Option (Cause × W64) :=
  ((rangeLines x.1.addr x.1.n).zip x.2).findSome? fun p => (s.copyFault core (p.2.1 / 128)).map fun f => (f, p.1.1)

/-- The bytes of a range as one number. -/
def State.matNat (s : State) (t : Team) (x : MRange × List (Nat × Nat)) : Nat :=
  match x.1.glob with
  | none => scratchNat t.scratch x.1.addr.toNat x.1.n
  | some _ => s.visibleNat x.2

/-! Exact sums (R334, R335). -/

/-- A row of an operand for one step: per unit its element values and its scale. -/
abbrev RowUnits := List (List Num × Nat)

/-- Cuts a row's bytes into units: `v` are the element bytes, or whole records, `sc` the scale bytes of a stream layout. -/
def OpMap.units (m : OpMap) (ks unit v sc : Nat) : RowUnits :=
  let f := matFmt m.fmt
  let w := f.width
  (List.range (ks / unit)).map fun u =>
    if m.layout = 1 then
      let b := v / 256 ^ (u * recordBytes m.fmt)
      ((List.range unit).map fun j => decodeNum f (elemAt w (b / 256) j), b % 256)
    else ((List.range unit).map fun j => decodeNum f (elemAt w v (u * unit + j)), sc / 256 ^ u % 256)

/-- P of a unit (R334, R335). -/
def unitSum (mx : Bool) (a b : List Num × Nat) : Num :=
  let ps := (a.1.zip b.1).map fun x => x.1.mul x.2
  let p := match ps with
    | [] => Num.nan
    | x :: r => r.foldl Num.add x
  if !mx then p
  else if a.2 = 255 || b.2 = 255 then .nan
  else p.scale ((a.2 : Int) + b.2 - 254)

/-- Accumulate (R334). -/
def accumulate (f : Fmt) (acc : Nat) (p : Num) : Nat := (roundTo f 0 ((decodeNum f acc).add p) 0 false).bits

/-- One element over the units of a step. -/
def elemStep (f : Fmt) (mx : Bool) (acc : Nat) (a b : RowUnits) : Nat := (a.zip b).foldl (fun x u => accumulate f x (unitSum mx u.1 u.2)) acc

/-- The elements of a tile from a function of row and column; +0 is not kept. -/
def tileOf (n : Nat) (f : Nat → Nat → Nat) : NMap Nat :=
  ((List.range (n * n)).map fun k => (k, f (k / n) (k % n))).filter fun kv => kv.2 != 0

/-- MStep (R334). -/
def Tile.step_ (x : Tile) (f : Fmt) (n : Nat) (mx : Bool) (rows cols : List RowUnits) : Tile :=
  { x with
    elems := tileOf n fun i j => elemStep f mx (NMap.getD x.elems (i * n + j) 0) (rows.getD i []) (cols.getD j [])
    step := x.step + 1 }

/-! The state of an operation. -/

def Team.setTile (t : Team) (n : Nat) (x : Tile) : Team := { t with tiles := NMap.set t.tiles n x }
def Team.modTile (t : Team) (n : Nat) (f : Tile → Tile) : Team := t.setTile n (f (t.tile n))

/-- Changes the operation in progress. -/
def State.setMatHead (s : State) (core : Nat) (op : MatOp) : State :=
  s.modCore core fun k => { k with mqueue := match k.mqueue with | _ :: r => op :: r | [] => [] }

/-- The operation in progress ends: PEND falls (R329). -/
def State.finishMat (s : State) (core : Nat) (op : MatOp) (f : Tile → Tile) : State :=
  ((s.modTeam core op.g.slot fun t => t.modTile op.tile fun x => let y := f x
                                                                { y with pend := y.pend - 1 }).modCore core
    fun k => { k with mqueue := k.mqueue.drop 1 }).releaseEngine core

/-- A failing operation (R337 to R339, R345): the tile enters FAULT, its accepted operations are cancelled, the group gets its event or
the grid an orphan's. -/
def State.stopMat (s : State) (core : Nat) (op : MatOp) (c : Cause) (addr : W64) : State :=
  let tn := ((s.team core op.g.slot).map Team.tenant).getD 0
  let s1 := (((s.noteCause core tn c).modTeam core op.g.slot fun t => t.modTile op.tile fun x =>
    { x with fault := true, fcause := c.code, faddr := addr, pend := 0 }).modCore core
      fun k => { k with mqueue := k.mqueue.filter fun y => y.g.slot != op.g.slot || y.tile != op.tile }).releaseEngine core
  match s1.team core op.g.slot, s1.group op.g with
  | some t, some g =>
    if g.hasExited then s1.gridEvent t.grid t.index 4 Cause.orphanEngine.code 0 op.word
    else s1.modGroup op.g fun g => g.addEvent ⟨.matrixOperand, BitVec.ofNat 64 op.tile, 0, 0, op.word, op.split, some op.tile⟩
  | _, _ => s1

/-! The instructions (R348 to R355). -/

/-- The class rule: ACCN 0, or a tile that the team has not (R348). -/
def Ctx.noTile (c : Ctx) (t : Nat) : Bool := decide (c.team.accN ≤ t)

/-- Queues an operation of a word; the unit accepts it before the group goes on (R329). -/
def Ctx.queueMat (c : Ctx) (s : State) (tile : Nat) (kind : MatKind) (stretch : Bool) : WordOut :=
  let k := s.core c.core
  if 16 ≤ k.mqueue.length + k.mwaiting.length then .hold s ⟨[.matrixRoom], true, false⟩ []
  else
    let op : MatOp := ⟨c.gid, c.team.incn, c.site.split, c.wordAddr, tile, kind, false, none, none, 0, []⟩
    let s1 := (s.modCore c.core fun k => { k with mwaiting := k.mwaiting ++ [op] }).post (.matrixAccept c.core)
    .done (if stretch then s1.modGroup c.gid Group.stretch else s1) []

/-- The scalars of a block (R148). -/
def blockRegs (b n : Nat) : List Nat := (List.range n).map fun j => b + j

/-- MMAP (R349, R330). -/
def mmapWord (a b om : Nat) (c : Ctx) (s : State) : WordOut :=
  let v := fun (j : Nat) => c.g.s (b + j)
  let trap := fun (f : Cause) => WordOut.trap s f 0 c.p.lanes
  if c.team.accN = 0 then trap .reservedField
  else if a % 2 ≠ 0 then trap .regAlign
  else guardW (c.checkScalars (pairRegs a ++ blockRegs b 4)) c 0 s <|
    let fmt := bitsOf (v 0).toNat 0 4
    let layout := bitsOf (v 0).toNat 4 1
    if (v 0).toNat / 32 ≠ 0 || (a = 0 && 2 ^ 32 ≤ (v 1).toNat) || (v 3 ≠ 0 && !(matMx fmt && layout = 0)) then trap .reservedField
    else if 9 < fmt || (layout = 1 && !matMx fmt) then trap .matrixFormat
    else match if a = 0 then none else capCheckUse (c.g.sc a) permLD with
      | some f => .trap s f (c.g.sc a).addr c.p.lanes
      | none =>
        let m : OpMap := ⟨fmt, layout, v 1, bitsOf (v 2).toNat 0 32, bitsOf (v 2).toNat 32 32, v 3, if a = 0 then none else some (c.g.sc a)⟩
        .done (s.modTeam c.core c.gid.slot fun t => { t with maps := NMap.set t.maps om m }) []

def execMmap (a b : SReg) (om : BitVec 3) (s : State) : Host.Outcome State Fault Refusal := runWord false 0 (mmapWord a.toNat b.toNat om.toNat) s

/-- MZERO (R350). -/
def mzeroWord (tile : Nat) (c : Ctx) (s : State) : WordOut :=
  if c.noTile tile then .trap s .reservedField 0 c.p.lanes else c.queueMat s tile .zero false

def execMzero (tile : BitVec 3) (s : State) : Host.Outcome State Fault Refusal := runWord false 0 (mzeroWord tile.toNat) s

/-- MLOAD (R351): the issue checks take the range from the first byte to the last. -/
def mloadWord (a b tile : Nat) (c : Ctx) (s : State) : WordOut :=
  let trap := fun (f : Cause) (i : W64) => WordOut.trap s f i c.p.lanes
  if c.noTile tile then trap .reservedField 0
  else if a % 2 ≠ 0 then trap .regAlign 0
  else guardW (c.checkScalars (pairRegs a ++ blockRegs b 2)) c 0 s <|
    let off := c.g.s b
    let rs := (c.g.s (b + 1)).toNat
    let d := c.team.tileDim
    let n := (d - 1) * rs + d * c.team.tileBytes
    let k := c.g.sc a
    if 2 ^ 32 ≤ rs then trap .reservedField 0
    else match if a = 0 then (if c.team.shareBytes < off.toNat + n then some Cause.window else none) else capCheck k (k.addr + off) n permLD with
      | some f => trap f (if a = 0 then 0 else k.addr + off)
      | none =>
        if 0 < c.g.p 0 then .hold s ⟨[.pLe 0 0], true, false⟩ []
        else c.queueMat s tile (.load (if a = 0 then none else some k) off rs) true

def execMload (a b : SReg) (tile : BitVec 3) (s : State) : Host.Outcome State Fault Refusal := runStretch 0 (mloadWord a.toNat b.toNat tile.toNat) s

/-- MLOOP (R352). -/
def mloopWord (resume : Bool) (ma mb b tile : Nat) (c : Ctx) (s : State) : WordOut :=
  let trap := fun (f : Cause) => WordOut.trap s f 0 c.p.lanes
  if c.noTile tile then trap .reservedField
  else guardW (c.checkScalars [b]) c 0 s <|
    let n := (c.g.s b).toNat
    if n < 1 || 65535 < n then trap .reservedField
    else match NMap.find c.team.maps ma, NMap.find c.team.maps mb with
      | some x, some y =>
        if (matPair x.fmt y.fmt c.team.accF).isNone then trap .matrixFormat
        else if 0 < c.g.p 0 then .hold s ⟨[.pLe 0 0], true, false⟩ []
        else c.queueMat s tile (.loop x y n resume) true
      | _, _ => trap .matrixFormat

def execMloop (ma mb : BitVec 3) (b : SReg) (tile : BitVec 3) (s : State) : Host.Outcome State Fault Refusal :=
  runStretch 0 (mloopWord false ma.toNat mb.toNat b.toNat tile.toNat) s

def execMloopResume (ma mb : BitVec 3) (b : SReg) (tile : BitVec 3) (s : State) : Host.Outcome State Fault Refusal :=
  runStretch 0 (mloopWord true ma.toNat mb.toNat b.toNat tile.toNat) s

/-- The conversions of R342. -/
def drainFormatOk (df layout : Nat) (accF : Bool) : Bool :=
  if accF then (df == 8 || df == 9) && layout == 0 else decide (df ≤ 8) && (layout == 0 || matMx df)

/-- The ranges that row i of an MDRAIN writes. -/
def OpMap.drainRow (m : OpMap) (dim i : Nat) : List MRange := m.rowRanges i 0 dim

/-- The first failing issue check of an MDRAIN's destination (R353). -/
def drainCheck (m : OpMap) (dim share : Nat) : Option (Cause × W64) :=
  ((List.range dim).flatMap fun i => m.drainRow dim i).findSome? fun x =>
    match x.glob with
    | none => if share < x.addr.toNat + x.n then some (.window, 0) else none
    | some k => (capCheck k x.addr x.n permST).map fun f => (f, x.addr)

/-- MDRAIN (R353). -/
def mdrainWord (d a b tile : Nat) (sys : Bool) (c : Ctx) (s : State) : WordOut :=
  let v := fun (j : Nat) => c.g.s (b + j)
  let trap := fun (f : Cause) (i : W64) => WordOut.trap s f i c.p.lanes
  let df := bitsOf (v 3).toNat 0 4
  let mode := bitsOf (v 3).toNat 4 3
  let layout := bitsOf (v 3).toNat 7 1
  let seed := bitsOf (v 3).toNat 16 7
  if c.noTile tile then trap .reservedField 0
  else if a % 2 ≠ 0 || d % 2 ≠ 0 then trap .regAlign 0
  else guardW (c.checkScalars (pairRegs d ++ pairRegs a ++ blockRegs b 4)) c 0 s <|
    guardW (if mode == 5 then c.checkScalars [seed] else .ok ()) c 0 s <|
      let m : OpMap := ⟨df, layout, v 0, bitsOf (v 1).toNat 0 32, bitsOf (v 1).toNat 32 32, v 2, if a = 0 then none else some (c.g.sc a)⟩
      let ax := c.g.sc d
      if bitsOf (v 3).toNat 8 8 ≠ 0 || (v 3).toNat / 2 ^ 23 ≠ 0 || 6 ≤ mode || (mode ≠ 5 && seed ≠ 0) then trap .reservedField 0
      else if !drainFormatOk df layout c.team.accF then trap .matrixFormat 0
      else match drainCheck m c.team.tileDim c.team.shareBytes with
        | some (f, i) => trap f i
        | none =>
          match if d = 0 then none else capCheck ax ax.addr c.team.tileBytes (permLD + permST + permAT) with
          | some f => trap f ax.addr
          | none =>
            if d ≠ 0 && ax.addr.toNat % c.team.tileBytes ≠ 0 then trap .align ax.addr
            else c.queueMat s tile (.drain m mode seed (c.g.s seed) (if d = 0 then none else some ax) sys) true

def execMdrain (d a b : SReg) (tile : BitVec 3) (sys : Bool) (s : State) : Host.Outcome State Fault Refusal :=
  runStretch 0 (mdrainWord d.toNat a.toNat b.toNat tile.toNat sys) s

/-- MWAIT (R354, R347). -/
def mwaitWord (d tile : Nat) (c : Ctx) (s : State) : WordOut :=
  if c.noTile tile then .trap s .reservedField 0 c.p.lanes
  else guardW (c.checkScalars [d]) c 0 s <|
    if (c.team.tile tile).pend ≠ 0 then .hold s ⟨[.tileIdle tile], true, false⟩ []
    else .done (s.modGroup c.gid fun g => g.setS d ((c.team.tile tile).progress tile)) []

def execMwait (d : SReg) (tile : BitVec 3) (s : State) : Host.Outcome State Fault Refusal := runWord false 0 (mwaitWord d.toNat tile.toNat) s

/-- MPROG (R355). -/
def mprogWord (d tile var : Nat) (c : Ctx) (s : State) : WordOut :=
  if c.noTile tile || 2 ≤ var then .trap s .reservedField 0 c.p.lanes
  else guardW (c.checkScalars [d]) c 0 s <|
    let x := c.team.tile tile
    .done (s.modGroup c.gid fun g => g.setS d (if var = 0 then x.progress tile else if x.fault then x.faddr else 0)) []

def execMprog (d : SReg) (tile : BitVec 3) (var : BitVec 2) (s : State) : Host.Outcome State Fault Refusal :=
  runWord false 0 (mprogWord d.toNat tile.toNat var.toNat) s

/-! The unit's steps. -/

/-- The destination lines of an MDRAIN to global memory, as far as its pages can be translated at acceptance (R285). -/
def State.drainLines (s : State) (core : Nat) (op : MatOp) : List Nat :=
  match op.kind, s.team core op.g.slot with
  | .drain m _ _ _ _ _, some t =>
    if m.glob.isNone then []
    else (((List.range t.tileDim).flatMap fun i => m.drainRow t.tileDim i).flatMap fun x => (rangeLines x.addr x.n).flatMap fun p =>
      match (s.engineRange core t.tenant .write [p]).2 with
      | .ok ps => pieceLines ps
      | .error _ => []).dedup
  | _, _ => []

/-- MATRIX_ACCEPT (R329, R339): PEND rises, a FAULT clears; mprog names the tile of an MLOOP (R328); an MDRAIN asks for write grant of its
destination lines (R285). -/
def State.matrixAccept (s : State) (core : Nat) : State :=
  let k := s.core core
  match k.mwaiting with
  | [] => s
  | op :: r =>
    if 16 ≤ k.mqueue.length then s
    else
      let lns := s.drainLines core op
      let s1 := (s.setCore core { k with mwaiting := r, mqueue := k.mqueue ++ [{ op with lines := lns }] }).askEngine core lns
      let s2 := s1.modTeam core op.g.slot fun t => t.modTile op.tile fun x => { x with pend := x.pend + 1, fault := false, fcause := 0, faddr := 0 }
      match op.kind with
      | .loop .. => s2.modGroup op.g fun g => { g with sp := { g.sp with mprogTile := some op.tile } }
      | _ => s2

def execMatrixAccept (core : Nat) (s : State) : Host.Outcome State Fault Refusal := .next (s.matrixAccept core)

/-- The operation in progress and its team. -/
def State.matHead (s : State) (core : Nat) : Option (MatOp × Team) :=
  match (s.core core).mqueue with
  | [] => none
  | op :: _ => (s.team core op.g.slot).map fun t => (op, t)

/-- MATRIX_ZERO_PERFORM (R350). -/
def State.matrixZero (s : State) (core : Nat) : State :=
  match s.matHead core with
  | some (op, _) => (match op.kind with
    | .zero => s.finishMat core op fun x => { x with elems := [], total := 0, step := 0 }
    | _ => s)
  | none => s

def execMatrixZeroPerform (core : Nat) (s : State) : Host.Outcome State Fault Refusal := .next (s.matrixZero core)

/-- The ranges of an MLOAD, row by row (R351). -/
def loadRanges (t : Team) (glob : Option Cap) (off : W64) (rs : Nat) : List MRange :=
  let org : W64 := match glob with | some c => c.addr | none => 0
  (List.range t.tileDim).map fun i => ⟨glob, org + off + BitVec.ofNat 64 (i * rs), t.tileDim * t.tileBytes⟩

/-- The ranges of step `st` of an MLOOP in fetch order: A rows, then B rows (R333). -/
def stepRanges (t : Team) (a b : OpMap) (ks st : Nat) : List MRange :=
  (List.range t.tileDim).flatMap (fun r => a.rowRanges r (st * ks) ks) ++ (List.range t.tileDim).flatMap fun r => b.rowRanges r (st * ks) ks

/-- MATRIX_LOAD_PERFORM (R351, R337): the rows before a failing one are written. -/
def State.matrixLoad (s : State) (core : Nat) : State :=
  match s.matHead core with
  | none => s
  | some (op, t) =>
    match op.kind with
    | .load glob off rs =>
      match s.matWalks core t.tenant .load (loadRanges t glob off rs) with
      | some ln => s.awaitHome ln (.matrixLoadPerform core)
      | none =>
      let (s1, xs, f) := s.matRanges core t.tenant t.shareBytes .load (loadRanges t glob off rs)
      if !s1.allReadable core (s1.unheld core xs) then s1.pinLines core (s1.unheld core xs)
      else
        let s1 := s1.chargeReads t.tenant core (s1.unheld core xs)
        let n := t.tileDim
        let w := 8 * t.tileBytes
        let good := xs.takeWhile fun x => (s1.matReadFault core x).isNone
        let fail := match xs.findSome? (s1.matReadFault core) with | some e => some e | none => f
        let rows := good.map fun x => s1.matNat t x
        let put := fun (x : Tile) => { x with
          elems := tileOf n fun i j => match rows[i]? with | some v => elemAt w v j | none => NMap.getD x.elems (i * n + j) 0 }
        (match fail with
        | some (c, addr) => (s1.modTeam core op.g.slot fun t => t.modTile op.tile put).stopMat core op c addr
        | none => s1.finishMat core op fun x => { put x with total := 0, step := 0 })
    | _ => s

def execMatrixLoadPerform (core : Nat) (s : State) : Host.Outcome State Fault Refusal := .next (s.matrixLoad core)

/-- Pairs each row's element range with its scale range, from ranges in fetch order. -/
def rowValues (m : OpMap) (s : State) (t : Team) (ks unit : Nat) : List (MRange × List (Nat × Nat)) → List RowUnits
  | [] => []
  | x :: r =>
    if matMx m.fmt && m.layout == 0 then
      match r with
      | y :: r1 => m.units ks unit (s.matNat t x) (s.matNat t y) :: rowValues m s t ks unit r1
      | [] => []
    else m.units ks unit (s.matNat t x) 0 :: rowValues m s t ks unit r

/-- MATRIX_STEP (R334, R337, R340): the MLOOP begins, does one step, or ends. -/
def State.matrixStep (s : State) (core : Nat) : State :=
  match s.matHead core with
  | none => s
  | some (op, t) =>
    match op.kind with
    | .loop a b count resume =>
      let t0 := t.tile op.tile
      if !op.begun then
        (s.setMatHead core { op with begun := true }).modTeam core op.g.slot fun t =>
          t.setTile op.tile { t0 with total := count, step := if resume then t0.step else 0 }
      else if count ≤ t0.step then s.finishMat core op id
      else match matPair a.fmt b.fmt t.accF with
        | none => s.finishMat core op id
        | some (ks, unit) =>
          match s.matWalks core t.tenant .load (stepRanges t a b ks t0.step) with
          | some ln => s.awaitHome ln (.matrixStep core)
          | none =>
          let (s1, xs, f) := s.matRanges core t.tenant t.shareBytes .load (stepRanges t a b ks t0.step)
          if !s1.allReadable core (s1.unheld core xs) then s1.pinLines core (s1.unheld core xs)
          else (match (match xs.findSome? (s1.matReadFault core) with | some e => some e | none => f) with
            | some (c, addr) => s1.stopMat core op c addr
            | none =>
              let na := t.tileDim * (a.rowRanges 0 0 ks).length
              let rows := rowValues a s1 t ks unit (xs.take na)
              let cols := rowValues b s1 t ks unit (xs.drop na)
              let s2 := s1.modTeam core op.g.slot fun t => t.modTile op.tile fun x => x.step_ t.tileFmt t.tileDim (matMx a.fmt) rows cols
              let s3 := (s2.chargeReads t.tenant core (s1.unheld core xs)).count core t.tenant 10 1
              if count ≤ t0.step + 1 then s3.finishMat core op id else s3)
    | _ => s

def execMatrixStep (core : Nat) (s : State) : Host.Outcome State Fault Refusal := .next (s.matrixStep core)

/-! MDRAIN (R342 to R344). -/

/-- A block's scale and elements (R343). -/
def drainBlock (tf df : Fmt) (mode : Nat) (vs : List (Num × Nat)) : Nat × List Nat :=
  let _ := tf
  if vs.any fun x => x.1.isNaN || x.1.isInf then (0xFF, vs.map fun _ => 0)
  else
    let m := vs.foldl (fun (best : Nat × Nat × Int) x => match x.1 with
      | .fin _ a d e => if magLt best.1 best.2.1 best.2.2 a d e then (a, d, e) else best
      | _ => best) ((0, 1, 0) : Nat × Nat × Int)
    let emax : Int := match df with | .e4m3 => 8 | .e5m2 => 15 | .e3m2 => 4 | .e2m3 => 2 | .e2m1 => 2 | _ => 0
    let x : Nat := if m.1 = 0 then 0x7F
      else (max 0 (min 254 (floorLog2 m.1 m.2.1 + m.2.2 - emax + 127))).toNat
    (x, vs.map fun v => (roundTo df mode (v.1.scale (127 - (x : Int))) v.2 false).bits)

/-- The bytes of row i as numbers, in the order of its ranges: elements or records, then stream scales. -/
def drainRowNats (m : OpMap) (tf : Fmt) (dim mode : Nat) (seed : W64) (i : Nat) (els : List Nat) : List Nat :=
  let df := matFmt m.fmt
  let vs := els.zipIdx.map fun ej => (decodeNum tf ej.1, if mode = 5 then srBits (seed ^^^ BitVec.ofNat 64 (i * 2 ^ 32)) 0 ej.2 else 0)
  if matMx m.fmt then
    let bs := (List.range (dim / 32)).map fun b => drainBlock tf df mode ((vs.drop (32 * b)).take 32)
    if m.layout = 1 then [joinElems (8 * recordBytes m.fmt) (bs.map fun x => x.1 + 256 * joinElems df.width x.2)]
    else [joinElems df.width (bs.flatMap Prod.snd), joinElems 8 (bs.map Prod.fst)]
  else if df == tf then [joinElems df.width els]
  else [joinElems df.width (vs.map fun v => (roundTo df mode v.1 v.2 false).bits)]

/-- Writes a row into the share. -/
def drainScratch (m : NMap Byte) (l : List (MRange × Nat)) : NMap Byte := l.foldl (fun m x => scratchPutNat m x.1.addr.toNat x.1.n x.2) m

/-- The engine writes of a row over given pieces. -/
def drainJobs (js : List EngineJob) (l : List (MRange × List (Nat × Nat) × Nat)) : List EngineJob :=
  l.foldl (fun js x =>
    let pas := x.2.1.flatMap fun p => (List.range p.2).map fun j => p.1 + j
    pas.zipIdx.foldl (fun js b => addJobByte b.1 (BitVec.ofNat 8 (x.2.2 / 256 ^ b.2)) js) js) js

/-- The values of a row's ranges. -/
def Team.drainVals (t : Team) (op : MatOp) (m : OpMap) (mode : Nat) (seed : W64) (i : Nat) : List Nat :=
  let dim := t.tileDim
  drainRowNats m t.tileFmt dim mode seed i ((List.range dim).map fun j => NMap.getD (t.tile op.tile).elems (i * dim + j) 0)

/-- The rows of an MDRAIN into the share, from row i on: its bytes, and the failure that ends them (R337, R342). -/
def State.drainShare (s : State) (core : Nat) (t : Team) (op : MatOp) (m : OpMap) (mode : Nat) (seed : W64) :
    Nat → Nat → NMap Byte → NMap Byte × Option (Cause × W64)
  | 0, _, sc => (sc, none)
  | fuel + 1, i, sc =>
    match s.matRanges core t.tenant t.shareBytes .write (m.drainRow t.tileDim i) with
    | (_, _, some e) => (sc, some e)
    | (_, xs, none) => State.drainShare s core t op m mode seed fuel (i + 1) (drainScratch sc ((xs.map Prod.fst).zip (t.drainVals op m mode seed i)))

/-- The engine writes of a row over its translated ranges. -/
def Team.rowJobs (t : Team) (op : MatOp) (m : OpMap) (mode : Nat) (seed : W64) (xs : List (MRange × List (Nat × Nat))) : List EngineJob :=
  drainJobs [] ((xs.zip (t.drainVals op m mode seed op.row)).map fun x => (x.1.1, x.1.2, x.2))

/-- The first byte of a row's ranges, in the order of writing, whose line cannot take it (R248, R342). -/
def State.rowFault (s : State) (js : List EngineJob) (xs : List (MRange × List (Nat × Nat))) : Option (Cause × W64) :=
  xs.findSome? fun x => ((rangeLines x.1.addr x.1.n).zip x.2).findSome? fun p =>
    (js.find? fun j => j.line == p.2.1 / 128).bind fun j => (s.jobFault j).map fun c => (c, p.1.1)

/-- The next row of an MDRAIN to global memory (R337, R342): it waits for write grant of the row's lines and for their bitmap lines (R231), and is written
whole or not at all. Its first failing byte in the order of writing ends the operation. -/
def State.drainRow (s : State) (core : Nat) (t : Team) (op : MatOp) (m : OpMap) (mode : Nat) (seed : W64) : State :=
  let rs := m.drainRow t.tileDim op.row
  let i : Instr := .matrixDrainPerform core
  match s.matWalks core t.tenant .write rs with
  | some ln => s.awaitHome ln i
  | none =>
    let (s1, xs, f) := s.matRanges core t.tenant t.shareBytes .write rs
    let js := t.rowJobs op m mode seed xs
    match (s1.rowFault js xs).orElse fun _ => f with
    | some (c, addr) => s1.stopMat core op c addr
    | none =>
      let lns := s1.unheld core xs
      let marks := s1.marksBusy (js.map EngineJob.line) i
      if !lns.isEmpty then
        let new := lns.filter fun ln => !op.lines.contains ln
        (s1.setMatHead core { op with lines := op.lines ++ new }).askEngine core new
      else if !marks.isEmpty then marks.foldl (fun x b => x.askMark b i) s1
      else
          let done := decide (t.tileDim ≤ op.row + 1)
          ((js.foldl (fun y j => y.engineWrite t.tenant core j) s1).setMatHead core { op with row := op.row + 1, lines := if done then [] else op.lines }).releaseEngine core

/-- The row of an MDRAIN to global memory that is next can be written, fails, or has lines to ask for. -/
def State.rowReady (s : State) (core : Nat) (t : Team) (op : MatOp) (m : OpMap) : Bool :=
  match s.matRanges core t.tenant t.shareBytes .write (m.drainRow t.tileDim op.row) with
  | (_, _, some _) => true
  | (s1, xs, none) =>
    let lns := s1.unheld core xs
    if lns.isEmpty then s1.marksDue (xs.flatMap fun x => pieceLines x.2) (.matrixDrainPerform core) else lns.any fun ln => !op.lines.contains ln

/-- Rows of an MDRAIN to global memory are left. -/
def MatOp.rowsLeft (op : MatOp) (t : Team) (m : OpMap) : Bool := m.glob.isSome && decide (op.row < t.tileDim)

/-- MATRIX_DRAIN_PERFORM (R342, R337): the rows are written; the operation ends once every row is written and no amax is left to merge. -/
def State.matrixDrain (s : State) (core : Nat) : State :=
  match s.matHead core with
  | none => s
  | some (op, t) =>
    match op.kind with
    | .drain m mode _ seed amax _ =>
      if !op.begun then
        if m.glob.isSome then s.setMatHead core { op with begun := true }
        else
          let (sc, f) := s.drainShare core t op m mode seed t.tileDim 0 t.scratch
          (s.modTeam core op.g.slot fun t => { t with scratch := sc }).setMatHead core { op with begun := true, fail := f }
      else match op.fail with
        | some (c, addr) => s.stopMat core op c addr
        | none =>
          if op.rowsLeft t m then s.drainRow core t op m mode seed
          else if amax.isNone then s.finishMat core op id else s
    | _ => s

def execMatrixDrainPerform (core : Nat) (s : State) : Host.Outcome State Fault Refusal := .next (s.matrixDrain core)

/-- The tile's largest magnitude (R344). -/
def tileAmax (f : Fmt) (dim : Nat) (x : Tile) : Nat :=
  let els := (List.range (dim * dim)).map fun k => NMap.getD x.elems k 0
  match els with
  | [] => 0
  | e :: r => r.foldl (fun a v => amaxOf f a v) (amaxOf f e e)

/-- The home of the amax word is free for the atomic: the unit's request has its turn, and no grant or copy is out (R266, R295). -/
def State.amaxTurn (s : State) (core ln : Nat) : Bool := (s.dirAt ln).queue.head? == some (.amax core) && s.lineFree ln

/-- AMAX_ATOMIC (R344): the word is translated, the home asked for its turn, the largest magnitude merged. -/
def State.amaxAtomic (s : State) (core : Nat) : State :=
  match s.matHead core with
  | none => s
  | some (op, t) =>
    match op.kind with
    | .drain m _ _ _ (some k) _ =>
      if !op.begun || op.fail.isSome || op.rowsLeft t m then s
      else match op.amaxPa with
        | none =>
          -- a sweep may have taken the tag (R341, R56)
          if !k.tag then s.stopMat core op .capTag k.addr
          else match s.walksHost core t.tenant .atomic [(k.addr, t.tileBytes)] with
          | some ln => s.awaitHome ln (.amaxAtomic core)
          | none =>
          (match s.engineRange core t.tenant .atomic [(k.addr, t.tileBytes)] with
          | (s1, .error f) => s1.stopMat core op f k.addr
          | (s1, .ok ps) =>
            let pa := match ps with | p :: _ => p.1 | [] => 0
            (s1.setMatHead core { op with amaxPa := some pa }).homeArrive (pa / 128) (.amax core))
        | some pa =>
          if !s.amaxTurn core (pa / 128) then s
          else
            let leave := fun (x : State) => (x.setDir (pa / 128) { x.dirAt (pa / 128) with queue := (x.dirAt (pa / 128)).queue.drop 1 }).homeRetry (pa / 128)
            match s.lineFault (pa / 128) with
            | some f => leave (s.stopMat core op f k.addr)
            | none =>
              match s.markBusy (pa / 128) (.amaxAtomic core) with
              | some b => s.askMark b (.amaxAtomic core)
              | none =>
              let n := t.tileBytes
              let v := tileAmax t.tileFmt t.tileDim (t.tile op.tile)
              leave (((s.deviceWrite pa n (atomApply 9 n false (s.natAt pa n) v 0) 0).markDirty pa).finishMat core op id)
    | _ => s

def execAmaxAtomic (core : Nat) (s : State) : Host.Outcome State Fault Refusal := .next (s.amaxAtomic core)

/-- What the matrix unit of a core does next, if it can go on. -/
def State.matrixDue (s : State) (core : Nat) : Option Instr :=
  match s.matHead core with
  | none => none
  | some (op, t) =>
    let go := fun (rs : List MRange) (i : Instr) =>
      let (s1, xs, _) := s.matRanges core t.tenant t.shareBytes .load rs
      if s.homeDue (s.matWalks core t.tenant .load rs) i (s1.engineReady core (s1.unheld core xs)) then some i else none
    -- a bank with GR_MATRIX 0 begins no operation (R341)
    if !op.begun && (match t.banking with | some bk => bk.grMatrix == 0 | none => false) then none
    else match op.kind with
    | .zero => some (.matrixZeroPerform core)
    | .load glob off rs => go (loadRanges t glob off rs) (.matrixLoadPerform core)
    | .loop a b count _ =>
      let x := t.tile op.tile
      if !op.begun || count ≤ x.step then some (.matrixStep core)
      else match t.banking, matPair a.fmt b.fmt t.accF with
        -- a bank with GR_MATRIX 0 stops the loop between steps (R341)
        | some bk, some (ks, _) => if bk.grMatrix = 0 then none else go (stepRanges t a b ks x.step) (.matrixStep core)
        | none, some (ks, _) => go (stepRanges t a b ks x.step) (.matrixStep core)
        | _, none => some (.matrixStep core)
    | .drain m _ _ _ amax _ =>
      let i : Instr := .matrixDrainPerform core
      if !op.begun || op.fail.isSome then some i
      else if op.rowsLeft t m then
        if s.homeDue (s.matWalks core t.tenant .write (m.drainRow t.tileDim op.row)) i (s.rowReady core t op m) then some i else none
      else match amax, op.amaxPa with
        | none, _ => some i
        | some k, none => if s.homeDue (s.walksHost core t.tenant .atomic [(k.addr, t.tileBytes)]) (.amaxAtomic core) true then some (.amaxAtomic core) else none
        | _, some pa => if s.amaxTurn core (pa / 128) && s.marksDue [pa / 128] (.amaxAtomic core) then some (.amaxAtomic core) else none

end Sys2Proof.Machine
end

