-- ==== Sys2Proof/Machine/ImageLayout.lean ====
section
/-! DEFINITION. The bytes of a context image (spec/20, R400; log entry 21 for what the manual leaves open in them), and the writes that follow a
redirected item into it (spec/15, R318; spec/04, R92). -/
namespace Sys2Proof.Machine

/-- `n` bytes of an image from its byte `off`, whose meaning the manual does not give (log entry 4). -/
def openBytes (free off n : Nat) : List Byte :=
  (List.range n).map fun i => BitVec.ofNat 8 ((Config.reportWord (free * 2 ^ 32 + (off + i) / 8)).toNat / 256 ^ ((off + i) % 8))

/-- The `n` bytes of a number, lowest first. -/
def numBytes (v n : Nat) : List Byte := (List.range n).map fun i => BitVec.ofNat 8 (v / 256 ^ i)

/-- A part of an image: bytes that the manual gives, or a number of bytes that it leaves open. -/
inductive ImagePart where
  | given (bs : List Byte)
  | open_ (n : Nat)

/-- Parts one after the other, from the byte that the first begins at. -/
def layOut (free : Nat) : Nat → List ImagePart → List Byte
  | _, [] => []
  | off, .given b :: r => b ++ layOut free (off + b.length) r
  | off, .open_ n :: r => openBytes free off n ++ layOut free (off + n) r

/-- The given bytes of parts, each with its place. -/
def givenBytes : Nat → List ImagePart → List (Nat × Byte)
  | _, [] => []
  | off, .given b :: r => b.zipIdx.map (fun x => (off + x.2, x.1)) ++ givenBytes (off + b.length) r
  | off, .open_ n :: r => givenBytes (off + n) r

/-- A cord's record: WP and RP, then its slots (R311). -/
def Cord.image (k : Cord) : List Byte := numBytes k.wp 8 ++ numBytes k.rp 8 ++ (List.range k.n).flatMap fun i => numBytes ((k.slot i).word k.ch).toNat 16

/-- A map's block (R330) and its capability; its tag's byte has no place in the manual. -/
def OpMap.image (m : OpMap) : List Byte :=
  numBytes (m.fmt + (if m.layout = 0 then 0 else 16)) 8 ++ numBytes m.off.toNat 8 ++ numBytes (m.rs + m.srs * 2 ^ 32) 8 ++ numBytes m.soff.toNat 8
    ++ numBytes ((m.glob.map fun c => c.bits.toNat).getD 0) 16

/-- The tiles of a team, row by row (R327). -/
def Team.tileImage (t : Team) : List Byte :=
  (List.range t.accN).flatMap fun n => (List.range (t.tileDim * t.tileDim)).flatMap fun k => numBytes (NMap.getD (t.tile n).elems k 0) t.tileBytes

/-- A copy command's residue (R318): its entry and its extension, the shadow of its two capabilities, the bytes already moved, its group and the tags
of the shadow, its place in the ring. -/
def CopyCmd.image (x : CopyCmd) : List Byte :=
  numBytes x.entry.toNat 32 ++ numBytes x.ext.toNat 32 ++ numBytes x.src.bits.toNat 16 ++ numBytes x.dst.bits.toNat 16 ++ numBytes x.done 8
    ++ numBytes (x.group + (if x.src.tag then 256 else 0) + (if x.dst.tag then 512 else 0)) 8 ++ numBytes x.idx 8 ++ numBytes 0 8

/-- A group's section: 1 KiB of scalars, 1 KiB of state, the saved vector registers with their tags and full bits. -/
def Group.image (w : Nat) (g : Group) : List ImagePart :=
  [.given ((List.range 128).flatMap fun r => numBytes (g.s r).toNat 8), .open_ 1024]
    ++ g.vregs.flatMap fun x => [.given ((List.range w).flatMap fun l => numBytes (x.2.lanes.getD l 0).toNat 4), .open_ 16]

/-- The barrier counts of a team: of each barrier, then of its rick's (R143, R144). -/
def Barrier.image (b : Barrier) : List Byte := numBytes b.arrived.length 8 ++ numBytes b.expected 8

/-- The parts behind the descriptor, the team's share and cords first. -/
def imageParts (t : Team) (es : List Entry) (mats cycle : Nat) : List ImagePart :=
  [.given ((List.range t.shareBytes).map fun a => NMap.getD t.scratch a 0), .given (t.cords.flatMap fun kc => kc.2.image),
    .given ((t.barriers.flatMap fun kb => kb.2.image) ++ t.barr.image)]
    ++ (t.maps.flatMap fun km => [.given km.2.image, .open_ 16])
    ++ [.given t.tileImage, .open_ (128 * mats), .given (t.residues.flatMap CopyCmd.image), .given (es.flatMap fun e => numBytes (e.form cycle).toNat 192)]
    ++ ((t.groups.filter fun kg => !kg.2.hasExited).flatMap fun kg => kg.2.image t.width)

/-- The header of an image (R400), with STATE 0. -/
def imageHeader (t : Team) (size : Nat) : List Byte :=
  numBytes (0x5A42 + (t.groups.filter fun kg => !kg.2.hasExited).length % 256 * 2 ^ 24 + size * 2 ^ 64) 256

/-- An image: the header, the descriptor, the parts. -/
def imageBytes (t : Team) (es : List Entry) (mats free cycle : Nat) : List Byte :=
  let body := numBytes t.desc.toNat 256 ++ layOut free 512 (imageParts t es mats cycle)
  imageHeader t (256 + body.length) ++ body

/-- The writes of bytes to pieces, in order. -/
def piecesWrite : List (Nat × Nat) → List Byte → List DevStep
  | [], _ => []
  | (pa, n) :: r, bs => .write pa n (leNat (bs.take n)) 0 :: piecesWrite r (bs.drop n)

/-- The physical address of byte `off` of pieces. -/
def pieceAt : List (Nat × Nat) → Nat → Option Nat
  | [], _ => none
  | (pa, n) :: r, off => if off < n then some (pa + off) else pieceAt r (off - n)

/-- What a redirected item has changed in a banked team is written into its image in memory too (R92, R318): share, cords and saved registers. A register
that the image does not hold has no place in it. -/
def State.imageFollow (s : State) (im : Image) (t : Team) : State :=
  let given := fun (x : Team) => givenBytes 512 (imageParts x im.entries (im.mats.length + im.mwaits.length) 0)
  let new := if t.groups.map (fun kg => kg.2.vregs.map Prod.fst) == im.team.groups.map (fun kg => kg.2.vregs.map Prod.fst) then given t
    else (given t).take (t.shareBytes + (t.cords.flatMap fun kc => kc.2.image).length)
  let hits := ((given im.team).zip new).filterMap fun x => if x.1.2 == x.2.2 then none else (pieceAt im.pieces x.2.1).map fun pa => (pa, x.2.2)
  s.deviceSend .plain (hits.map (fun x => .write x.1 1 x.2.toNat 0) ++ s.marksOf (hits.map fun x => (x.1, 1)))

end Sys2Proof.Machine
end

