-- ==== Sys2Proof/Machine/Fabric.lean ====
section
/-! DEFINITION. Packets in the fabric (spec/18, R358 to R368; spec/15, R317; spec/04, R91, R92): hops, delivery, responses, timeouts. -/
namespace Sys2Proof.Machine

def State.dropPacket (s : State) (id : Nat) : State := { s with packets := NMap.del s.packets id }

/-- The RETURN field of a header flit (R438): the source node, core, slot and group, and the sequence. -/
def Packet.return_ (p : Packet) : Nat :=
  p.seq % 2 ^ 32 + p.src.group % 32 * 2 ^ 33 + p.src.slot % 32 * 2 ^ 38 + coreInDie p.src.core * 2 ^ 43 + (4 * p.srcDevice + dieOf p.src.core) * 2 ^ 51

/-- The packet is a KSEND (R438). -/
def Packet.ksend (p : Packet) : Bool := p.typ == 1

/-- The packet is an acknowledgement or a refusal (R438). -/
def Packet.answers (p : Packet) : Bool := p.typ == 2 || p.typ == 3

/-- The header flit of a packet (R438). -/
def Packet.flit (p : Packet) : BitVec 512 :=
  BitVec.ofNat 512 (p.route.toNat + p.name.toNat * 2 ^ 128 + p.dinc.toNat * 2 ^ 256 + p.fdom % 4096 * 2 ^ 288 + p.typ % 16 * 2 ^ 300
    + (if p.answers then (p.reason % 16 + p.rhop % 16 * 16) * 2 ^ 320
      else if p.ksend then (p.bytes.length - 1) % 2 ^ 17 * 2 ^ 320
      else p.ofs % 512 * 2 ^ 304 + (p.n - 1) % 4 * 2 ^ 313 + p.ftag.code * 2 ^ 315 + p.lanes.toNat * 2 ^ 320)
    + p.return_ * 2 ^ 384 + (if p.hasTags then p.ctags.toNat else 0) * 2 ^ 448)

/-- The reversed route of a packet (R368): back by the ports that it has entered by, to the core that sent it (log entry 146). -/
def Packet.backRoute (p : Packet) : BitVec 128 :=
  BitVec.ofNat 128 ((p.back.zipIdx.map fun x => 4 * x.1.2 * 256 ^ x.2).sum + coreInDie p.src.core * 2 ^ 96 + dieOf p.src.core % 4 * 2 ^ 108
    + p.srcDevice % 1024 * 2 ^ 110 + p.back.length % 16 * 2 ^ 124)

/-- The response to a packet (R438): an acknowledgement for reason 0, else a refusal; it copies RETURN, and its other fields but TYPE and ROUTE are zero.
It starts where the packet stands. -/
def Packet.answer (p : Packet) (reason hop : Nat) : Packet :=
  { p with
    typ := if reason = 0 then 2 else 3
    route := p.backRoute
    name := 0
    dinc := 0
    fdom := 0
    ftag := .raw
    n := 0
    ofs := 0
    lanes := 0
    ctags := 0
    hasTags := false
    values := []
    bytes := []
    hop := 0
    cls := 0
    reason := reason
    rhop := hop }

/-- The response to a packet leaves (R368); to a sender of the same die it goes by no link. -/
def State.respond (s : State) (p : Packet) (reason hop : Nat) : State :=
  if p.back.isEmpty && p.srcDevice == s.pkg.selfDevice then s.post (.responseArrival p.src p.seq reason hop)
  else ({ s.useId with packets := NMap.set s.packets s.freshId (p.answer reason hop) } : State).post (.packetHop s.freshId)

/-- One hop of a response (R368): the response plane always accepts it; it ends at a link that is down, and at its sender's die it arrives. One to
another device leaves. -/
def State.responseHop (s : State) (id : Nat) (p : Packet) : State :=
  match p.back with
  | [] =>
    let s1 := s.dropPacket id
    if p.node = 4 * s.pkg.selfDevice + dieOf p.src.core && p.srcDevice = s.pkg.selfDevice then s1.post (.responseArrival p.src p.seq p.reason p.rhop) else s1
  | (n, k) :: rest =>
    let o := s.portWord n k
    if portPresent o && portUp o then
      ({ s with packets := NMap.set s.packets id { p with hop := p.hop + 1, node := portPeerNode o, back := rest } } : State).post (.packetHop id)
    else s.dropPacket id

/-- Refuse (R366). -/
def State.refuse (s : State) (id : Nat) (p : Packet) (reason hop : Nat) : State := (s.dropPacket id).respond p reason hop

/-- The output port that a request waits at. -/
def Packet.at_ (p : Packet) : Option (Nat × Nat) := if p.typ < 2 && p.hop < routeHops p.route then some (p.node, routeHop p.route p.hop / 4) else none

/-- The packet that an output port serves next (R374): its lane classes in rotation after the one served last, within a class the oldest. -/
def State.portServes (s : State) (node port : Nat) : Option (Nat × Packet) :=
  let here := s.packets.filter fun x => x.2.at_ == some (node, port)
  let last := NMap.getD s.portTurns (portKey node port) 3
  ((List.range 4).map fun i => (last + 1 + i) % 4).findSome? fun c => here.find? fun x => x.2.cls == c

/-- A packet passes one hop, or is refused there (R366). -/
def State.hopOnce (s : State) (id : Nat) (p : Packet) (again : Bool) : State :=
  let self := s.pkg.selfDevice
  let ports := fun n k => some (s.portWord n k)
  let s1 : State := match p.at_ with | some (n, k) => { s with portTurns := NMap.set s.portTurns (portKey n k) p.cls } | none => s
  match hopTest ports p.srcDevice (if p.srcDevice = self then s.openPorts p.tenant else 0xFFFFFFFFFFFFFFFF) p.fdom p.node p.cls (routeHop p.route p.hop) with
  | .error r => s1.refuse id p r p.hop
  | .ok (n, c) =>
    let by_ := (p.at_.map fun x => let o := s.portWord x.1 x.2; (portPeerNode o, portPeerPort o)).toList
    let s2 : State := { s1 with packets := NMap.set s1.packets id { p with hop := p.hop + 1, node := n, cls := c, back := by_ ++ p.back } }
    if again then s2.post (.packetHop id) else s2

/-- PACKET_HOP: one hop's tests where the port stands, for the packet whose turn it is there, or the end tests (R366, R374). A packet whose route
ends at another device leaves; one of no known type is dropped (R438); a response goes on by its own plane. -/
def State.packetHop (s : State) (id : Nat) : State :=
  match NMap.find s.packets id with
  | none => s
  | some p =>
    if p.answers then s.responseHop id p
    else if 4 ≤ p.typ then s.dropPacket id
    else match p.at_ with
    | some (n, k) =>
      (match s.portServes n k with
      | some (j, q) => if j = id then s.hopOnce id p true else (s.hopOnce j q false).post (.packetHop id)
      | none => s.hopOnce id p true)
    | none => match endTest p.route (some p.name) p.node with
      | some r => s.refuse id p r 15
      | none =>
        if routeDevice p.route ≠ s.pkg.selfDevice then s.dropPacket id
        else s.post (if p.ksend then .ksendArrival id else .sendDeliver id)

def execPacketHop (id : Nat) (s : State) : Host.Outcome State Fault Refusal := .next (s.packetHop id)

/-! Where a packet's team is (R359, R92). -/

/-- A team that a name reaches: on a core, or in its context image. -/
inductive Home where
  | core (core slot : Nat)
  | image (id : Nat)
  deriving DecidableEq, Repr

/-- The team slot, or the place a forwarding entry gives (R91). -/
def State.homeOf (s : State) (core slot incn : Nat) : Option Home :=
  let k := s.core core
  match NMap.find k.teams slot with
  | some t => if t.incn % 4096 = incn then some (.core core slot) else fwd k
  | none => fwd k
where
  /-- The forwarding entry of the old slot and incarnation. -/
  fwd (k : Core) : Option Home :=
    (k.forwards.find? fun f => f.2.oslot == slot && f.2.oincn % 4096 == incn).map fun f =>
      if f.2.image then .image f.2.imageId else .core f.2.ncore f.2.nslot

/-- The team at a home. -/
def State.homeTeam (s : State) : Home → Option Team
  | .core c sl => s.team c sl
  | .image i => (NMap.find s.images i).map Image.team

/-- Puts a team back at its home; a banked one's image in memory follows. -/
def State.setHomeTeam (s : State) (h : Home) (t : Team) : State :=
  match h with
  | .core c sl => s.setTeam c sl t
  | .image i => match NMap.find s.images i with
    | some im => ({ s with images := NMap.set s.images i { im with team := t } } : State).imageFollow im t
    | none => s

/-- The core whose sweep marker and world a home has; an image has none of its own until it is placed. -/
def Home.coreOf : Home → Option Nat
  | .core c _ => some c
  | .image _ => none

/-- The core a packet is for. -/
def packetCore (p : Packet) : Nat := 144 * nameDie p.name + nameCore p.name

/-! Deliver (R359). -/

/-- The checks and the writes of a send in its target team: the reason of a refusal, or the team. `keep` decides which tags survive (R56). -/
def Team.deliver (t : Team) (p : Packet) (keep : Cap → Bool) : Except Nat Team :=
  let gi := nameGroup p.name
  let b := nameRegbase p.name + p.ofs
  match NMap.find t.groups gi with
  | none => .error 10
  | some g =>
    let rs := (List.range p.n).map fun j => b + j
    if t.ngroups ≤ gi then .error 10
    else if p.lanes &&& ~~~(widthMask t.width) != 0 then .error 12
    else if t.regs < b + p.n then .error 10
    else if rs.any fun r => g.fullForSend r then .error 11
    else
      let g1 := g.writeLanes (p.values.map fun x => (b + x.1, x.2.1, x.2.2))
      let g2 := if p.hasTags then
          (lanesOf 64 p.ctags).foldl (fun x l => if keep ⟨(x.quad b l).bits, true⟩ then x.setQTag b l true else x) g1
        else g1
      .ok { t with groups := NMap.set t.groups gi (g2.fillAll rs p.ftag) }

/-- SEND_DELIVER: Deliver at the core that the name gives, or by a forwarding entry. -/
def State.sendDeliver (s : State) (id : Nat) : State :=
  match NMap.find s.packets id with
  | none => s
  | some p =>
    if p.dinc ≠ s.pkg.dinc then s.refuse id p 10 15
    else match s.homeOf (packetCore p) (nameSlot p.name) (nameIncn p.name) with
      | none => s.refuse id p 10 15
      | some h =>
        match s.homeTeam h with
        | none => s.refuse id p 10 15
        | some t =>
          if (match h.coreOf with | some c => (s.core c).world != p.world | none => false) then s.refuse id p 10 15
          else match t.deliver p (fun k => (match h.coreOf with | some c => s.sweepFilter t.tenant c k | none => s.imageFilter t.tenant k).tag) with
            | .error r => s.refuse id p r 15
            | .ok t1 => ((s.setHomeTeam h t1).dropPacket id).respond p 0 0

def execSendDeliver (id : Nat) (s : State) : Host.Outcome State Fault Refusal := .next (s.sendDeliver id)

/-! KSEND (R317). -/

/-- The code that stands for a CORD_STATE refusal among the reasons of R367. -/
def reasonCord : Nat := 16

/-- A KSEND packet at its slot (R317): the reason of a refusal, or the team with the bytes written and the slot credited. -/
def Team.kArrive (t : Team) (p : Packet) : Except Nat Team :=
  let n := nameRegbase p.name - 1536
  let i := nameCount p.name % 64
  match NMap.find t.cords n with
  | none => .error reasonCord
  | some k =>
    let x := k.slot i
    if !k.ch || k.n ≤ i || x.st != .armed || x.gen.toNat % 32 ≠ nameCount p.name / 64 % 32 then .error reasonCord
    else
      let len := p.bytes.length
      let fits := p.bytes.zipIdx.filter fun b => decide (x.cur + b.2 < t.shareBytes)
      let m := fits.foldl (fun m b => scratchPut m (x.cur + b.2) b.1) t.scratch
      let y := { x with cur := x.cur + len, pb := x.pb - len, pa := x.pa - 1 }
      let z := { y with st := if fits.length < len then .overrun else y.decide }
      .ok { t.setCord n (k.setSlot i z) with scratch := m }

/-- KSEND_ARRIVAL. -/
def State.ksendArrival (s : State) (id : Nat) : State :=
  match NMap.find s.packets id with
  | none => s
  | some p =>
    if p.dinc ≠ s.pkg.dinc then s.refuse id p 10 15
    else match s.homeOf (packetCore p) (nameSlot p.name) (nameIncn p.name) with
      | none => s.refuse id p 10 15
      | some h =>
        match s.homeTeam h with
        | none => s.refuse id p 10 15
        | some t =>
          if (match h.coreOf with | some c => (s.core c).world != p.world | none => false) then s.refuse id p 10 15
          else match t.kArrive p with
          | .error r => s.refuse id p r 15
          | .ok t1 => ((s.setHomeTeam h t1).dropPacket id).respond p 0 0

def execKsendArrival (id : Nat) (s : State) : Host.Outcome State Fault Refusal := .next (s.ksendArrival id)

/-! Responses (R368). -/

/-- The cause of a reason code (R367); CORD_STATE of a KSEND has none. -/
def reasonCause (r : Nat) : Cause :=
  if r = 4 then .firewall
  else if r = 9 || r = 10 then .staleTarget
  else if r = 11 then .overwrite
  else if r = 12 then .capBounds
  else if r = reasonCord then .cordState
  else .routeCause

/-- An item of p5 completes; a refusal waits for the group's next clause boundary, or goes to the grid of a group that has exited. -/
def State.endSend (s : State) (g : GroupId) (x : SendItem) (reason hop : Nat) : State :=
  let s1 := s.modGroup g fun y => { y.ctrDone 5 x.seq with sends := y.sends.filter fun z => z.seq != x.seq }
  if reason = 0 then s1
  else
    let c := reasonCause reason
    match s1.team g.core g.slot, s1.group g with
    | some t, some y =>
      if y.hasExited then s1.gridEvent t.grid t.index 3 c.code 0 0
      else
        let code := if reason = reasonCord then (Config.cordRefusal s1.pkg.freeCount).toNat else reason
        let s2 := if reason = reasonCord then s1.useFree else s1
        s2.modGroup g fun z => z.addEvent ⟨c, rfailValue code hop x.word, code, hop, x.word, 0, none⟩
    | _, _ => s1

/-- RESPONSE_ARRIVAL: matched by group and sequence (R438); one that matches nothing is discarded. -/
def execResponseArrival (g : GroupId) (seq reason hop : Nat) (s : State) : Host.Outcome State Fault Refusal :=
  .next (match (s.group g).bind fun x => x.sends.find? fun y => y.seq == seq with
    | some x => s.endSend g x reason hop
    | none => s)

/-- SEND_TIMEOUT: no response within 2^26 cycles, reason 13 (R368). -/
def execSendTimeout (g : GroupId) (seq : Nat) (s : State) : Host.Outcome State Fault Refusal :=
  .next (match (s.group g).bind fun x => x.sends.find? fun y => y.seq == seq && decide (y.since + 2 ^ 26 ≤ s.cycle) with
    | some x => s.endSend g x 13 15
    | none => s)

/-! Completion of local accesses (R245). -/

/-- SCRATCH_WRITE_DONE: the last lane's write of a scratchpad store or atomic; p0 falls. -/
def execScratchWriteDone (g : GroupId) (id : Nat) (s : State) : Host.Outcome State Fault Refusal := .next (s.modGroup g fun x => x.ctrDone 0 id)

/-- CLUSTER_ACCESS_DONE: the last lane's completion at the owning core; p1 falls. -/
def execClusterAccessDone (g : GroupId) (id : Nat) (s : State) : Host.Outcome State Fault Refusal := .next (s.modGroup g fun x => x.ctrDone 1 id)

end Sys2Proof.Machine
end

