-- ==== Sys2Proof/Machine/Traps.lean ====
section
/-! DEFINITION. Steps of issue and traps (spec/06, spec/20): the choice, clause breaks, rotation, delivery, late faults, and the writes of S and of
the debug controller (R394, R395, R403). -/
namespace Sys2Proof.Machine

/-- QUADRANT_CHOICE (R115 to R117). -/
def execQuadrantChoice (core q : Nat) (s : State) : Host.Outcome State Fault Refusal := .next (s.quadrantChoice core q)

/-- The quadrant of a group has no clause in progress any more. -/
def State.freeQuadrant (s : State) (g : GroupId) : State :=
  s.modCore g.core fun k => { k with quads := NMap.adjust k.quads (quadOf g.slot g.group) fun q => { q with current := none } }

/-- The 64th cycle of a stall (R122). -/
def stallLimit : Nat := 64

/-- CLAUSE_BREAK (R122): the split is HELD at its word; it resumes there once every register that the word reads is full. -/
def State.clauseBreak (s : State) (i : Site) : State :=
  match s.split i with
  | none => s
  | some p =>
    if p.st == .issue && stallLimit ≤ p.stall then
      -- the split waits for every register that the word reads in ACTIVE, an empty destination among them
      let reads := match s.team i.g.core i.g.slot, s.group i.g, p.clause with
        | some t, some g, some cl => (match decodeWord (decodeHeader cl.header).cls (cl.words.getD cl.next 0) with
          | .ok x => readsEmpty t g p (wordMask (decodeHeader cl.header).cls (cl.words.getD cl.next 0)) x
          | .error _ => [])
        | _, _, _ => []
      let s1 := s.modSplit i fun p => { p with
        st := .held, prior := .held, stall := 0, eligible := false
        held := p.held.map fun h => { h with conds := (h.conds ++ reads).dedup } }
      ((s1.modGroup i.g fun g => g.normalise s.cycle).freeQuadrant i.g).count i.g.core (((s.team i.g.core i.g.slot).map Team.tenant).getD 0) 3 1
    else s

def execClauseBreak (at_ : Site) (s : State) : Host.Outcome State Fault Refusal := .next (s.clauseBreak at_)

/-- Cycles after which the oldest overflow entry rotates (R126). -/
def rotationCycles : Nat := 4096

/-- The split that rotation moves: the first that has come to BOUND since the oldest entry's wait was over, and was not itself just released by
rotation (R126). -/
def Group.rotationSplit (g : Group) (o : Overflow) : Option (Nat × Split) :=
  firstBy (fun a b => decide (a.2.reached < b.2.reached))
    (g.splits.filter fun kp => kp.2.st == .bound && !kp.2.rotated && decide (o.since + rotationCycles ≤ kp.2.reached))

/-- OVERFLOW_ROTATION (R126). -/
def State.overflowRotation (s : State) (i : GroupId) : State :=
  match s.group i with
  | none => s
  | some g =>
    match g.overflow, g.overflow.head?.bind g.rotationSplit with
    | o :: r, some (k, p) =>
      if s.cycle < o.since + rotationCycles then s
      else
        let back : Overflow := ⟨p.lanes, p.pc, p.code, p.landing, s.cycle, none⟩
        s.setGroup i ({ g with
          overflow := r ++ [back]
          splits := NMap.set g.splits k { o.toSplit s.cycle with rotated := true } }.normalise s.cycle)
    | _, _ => s

def execOverflowRotation (g : GroupId) (s : State) : Host.Outcome State Fault Refusal := .next (s.overflowRotation g)

/-! Delivery (R388, R389, R393). -/

/-- The group that a held trap record names (R393). -/
def recordGroup (r : BitVec 2048) : GroupId := ⟨144 * bitsOf r.toNat 88 2 + bitsOf r.toNat 80 8, bitsOf r.toNat 95 5, bitsOf r.toNat 90 5⟩

/-- Records that a full ring has held are written while there is room, oldest first (R393). -/
def State.flushRing (s : State) (tenant : Nat) : Nat → State
  | 0 => s
  | n + 1 =>
    match (s.tenant tenant).heldRecords with
    | [] => s
    | (r, host) :: rest =>
      if s.ringFull tenant then s
      else
        let s1 := s.setTenant tenant { s.tenant tenant with heldRecords := rest }
        let s2 := s1.ringWrite tenant r host
        State.flushRing (s2.modGroup (recordGroup r) fun g => { g with recordHeld := false }) tenant n

/-- A tenant's ring holds a record that it can take now. -/
def State.ringReady (s : State) (tenant : Nat) : Bool := !(s.tenant tenant).heldRecords.isEmpty && !s.ringFull tenant

/-- TRAP_DELIVERY (R388): records held by full rings go out; the group traps if its condition holds. -/
def State.trapDelivery (s : State) (i : GroupId) : State :=
  let s1 := (NMap.keys s.tenants).foldl (fun x t =>
    if x.ringReady t then x.flushRing t (x.tenant t).heldRecords.length
    else match x.ringAsks t with
      | some ln => x.askHost ln false
      | none => x) s
  match s1.group i with
  | some g => if g.trapCondition then s1.takeTrap i else s1
  | none => s1

def execTrapDelivery (g : GroupId) (s : State) : Host.Outcome State Fault Refusal := .next (s.trapDelivery g)

/-- The lanes of the splits that hold one of some lanes: a uniform form's fault stops its whole split (R445). -/
def Group.wholeLanes (g : Group) (ls : Lanes) : Lanes := g.splits.foldl (fun m kp => if kp.2.lanes &&& ls != 0 then m ||| kp.2.lanes else m) ls

/-- LATE_FAULT (R445). -/
def State.lateFault (s : State) (i : GroupId) (lanes : Lanes) (whole : Bool) (c : Cause) (addr : W64) : State :=
  match s.group i with
  | none => s
  | some g => s.lateFaultAt i (if whole then g.wholeLanes lanes else lanes) c addr

def execLateFault (g : GroupId) (lanes : Lanes) (whole : Bool) (cause : Cause) (addr : W64) (s : State) : Host.Outcome State Fault Refusal :=
  .next (s.lateFault g lanes whole cause addr)

/-! The writes of S (R394, R395). -/

/-- A write that names a team of the writer's tenant: applied where the team is, or kept for its rekindle. -/
def State.onNamedTeam (s : State) (step : Instr) (f : State → Nat → Nat → Team → State) : State :=
  let r := s.req
  match s.homeOf r.core r.slot r.incn with
  | none => s
  | some h =>
    match s.homeTeam h with
    | none => s
    | some t =>
      if t.tenant != r.tenant then s
      else match h with
        | .core c sl => f s c sl t
        | .image id => { s with images := NMap.adjust s.images id fun x => { x with writes := x.writes ++ [⟨step, r⟩] } }

/-- GRESUME on a group that awaits it and whose record has been written (R394, R393). -/
def State.gresume (s : State) (step : Instr) (f : State → GroupId → Team → Group → State) : State :=
  let gn := s.req.group
  s.onNamedTeam step fun s c sl t =>
    match s.group ⟨c, sl, gn⟩ with
    | some g => if g.awaiting && !g.recordHeld then f s ⟨c, sl, gn⟩ t g else s
    | none => s

/-- GRESUME_RETRY (R394): operands core, slot, group, incn, tenant. -/
def execGresumeRetry (s : State) : Host.Outcome State Fault Refusal := .next (s.gresume .gresumeRetry fun s i _ _ => s.resumeGroup i .retry)

/-- GRESUME_SKIP (R394). -/
def execGresumeSkip (s : State) : Host.Outcome State Fault Refusal := .next (s.gresume .gresumeSkip fun s i _ _ => s.resumeGroup i .skip)

/-- GRESUME_DELIVER (R394): ignored without a handler, and for a trap taken in handler mode. -/
def execGresumeDeliver (s : State) : Host.Outcome State Fault Refusal :=
  .next (s.gresume .gresumeDeliver fun s i _ g => if !g.sp.tvec.getLsbD 63 || g.mode == .handler then s else s.deliverGroup i)

/-- GRESUME_KILL (R394): every lane of the team ends; the grid receives an event of KIND 3 with the trap's cause. -/
def execGresumeKill (s : State) : Host.Outcome State Fault Refusal :=
  .next (s.gresume .gresumeKill fun s i t g =>
    let s1 := match g.cur with
      | some r => s.gridEvent t.grid t.index 3 r.cause.code r.flm r.word
      | none => s
    s1.endTeam i.core i.slot)

/-- BANKREQ (R394): operands core, slot, incn, tenant, flag (GO). -/
def execBankreq (s : State) : Host.Outcome State Fault Refusal :=
  let go := s.req.flag
  .next (s.onNamedTeam .bankreq fun s c sl _ => if go then s.post (.bankRequest c sl .request) else s)

/-- Replaces bits [lo+len-1:lo] of a descriptor snapshot. -/
def descPut (d : BitVec 2048) (lo len v : Nat) : BitVec 2048 := (d &&& ~~~(BitVec.ofNat 2048 ((2 ^ len - 1) * 2 ^ lo))) ||| BitVec.ofNat 2048 (v % 2 ^ len * 2 ^ lo)

/-- GRTIGHT is taken only when every field is defined and at least as tight as the team's (R395). -/
def tightOk (t : Tightening) (d : BitVec 2048) : Bool :=
  decide (t.grIssue ≤ 1) && decide (t.grMatrix ≤ 1) && decide (t.grCopy ≤ 1) && decide (t.grHearth ≤ 1) && t.grace != 0
    && decide (descField d 764 4 ≤ t.grIssue) && decide (t.grMatrix ≤ descField d 760 4) && decide (t.grCopy ≤ descField d 756 4)
    && decide (t.grHearth ≤ descField d 752 4) && decide (t.grace ≤ descField d 740 8)

/-- The descriptor snapshot after GRTIGHT. -/
def tighten (t : Tightening) (d : BitVec 2048) : BitVec 2048 :=
  descPut (descPut (descPut (descPut (descPut d 764 4 t.grIssue) 760 4 t.grMatrix) 756 4 t.grCopy) 752 4 t.grHearth) 740 8 t.grace

/-- GRTIGHT (R395): operands core, slot, incn, tenant, tight. -/
def execGrtight (s : State) : Host.Outcome State Fault Refusal :=
  let g := s.req.tight
  .next (s.onNamedTeam .grtight fun s c sl t => if tightOk g t.desc then s.setTeam c sl { t with desc := tighten g t.desc } else s)

/-! The debug controller (R403, R431). -/

/-- DBGSTAT of a core (R403): the halted groups of the named slot, and whether a step is in progress. -/
def Core.dbgStat (k : Core) : W64 :=
  match NMap.find k.teams k.dbgSlot with
  | none => 0
  | some t =>
    let halted := t.groups.foldl (fun v kg => if kg.2.halted then v + 2 ^ kg.1 else v) 0
    let stepping := t.groups.any fun kg => kg.2.splits.any fun kp => kp.2.dbgStep
    BitVec.ofNat 64 (halted + (if stepping then 2 ^ 32 else 0))

/-- A DBGCMD write (R403): operands core and value; a write with other bits, or to a core that debug does not reach, is ignored. -/
def State.dbgCommand (s : State) (op : Nat) (f : State → GroupId → Nat → Bool → State) : State :=
  let v := s.req.value.toNat
  let core := s.req.core
  if v / 2 ^ 17 ≠ 0 || bitsOf v 12 4 ≠ op || !s.debugReach core then s
  else f (s.modCore core fun k => { k with dbgSlot := bitsOf v 0 5 }) ⟨core, bitsOf v 0 5, bitsOf v 5 5⟩ (bitsOf v 10 2) (v.testBit 16)

/-- Halts a group: a split in issue has finished its word, and every split halts (R403, R125). -/
def State.haltGroup (s : State) (i : GroupId) : State :=
  let s1 := s.modGroup i fun g =>
    ({ g with
      halted := true
      splits := g.splits.map fun kp => if kp.2.st == .issue then (kp.1, { kp.2 with st := .held, held := some ⟨[], true, false⟩, stall := 0 }) else kp
      } : Group).debugEvent .debugHalt 0x100 |>.normalise s.cycle
  let q := quadOf i.slot i.group
  match (NMap.find (s1.core i.core).quads q).bind Quadrant.current with
  | some c => if c.g == i then s1.freeQuadrant i else s1
  | none => s1

/-- DBGCMD_HALT (R403). -/
def execDbgcmdHalt (s : State) : Host.Outcome State Fault Refusal :=
  .next (s.dbgCommand 0 fun s i _ frz =>
    match s.team i.core i.slot with
    | none => s
    | some t => (t.groups.filter fun kg => kg.1 == i.group || frz).foldl (fun x kg => x.haltGroup ⟨i.core, i.slot, kg.1⟩) s)

/-- Releases the halt of a group. -/
def Group.release (g : Group) (cycle : Nat) : Group :=
  ({ g with halted := false, splits := g.splits.map fun kp => (kp.1, { kp.2 with dbgStep := false }) } : Group).normalise cycle

/-- DBGCMD_RESUME (R403): the named group, or with FRZ every group of the team. -/
def execDbgcmdResume (s : State) : Host.Outcome State Fault Refusal :=
  .next (s.dbgCommand 1 fun s i _ frz =>
    match s.team i.core i.slot with
    | none => s
    | some t => (t.groups.filter fun kg => kg.1 == i.group || frz).foldl (fun x kg => x.modGroup ⟨i.core, i.slot, kg.1⟩ fun g => g.release s.cycle) s)

/-- DBGCMD_STEP (R403): the named split of a halted group may issue one word; a step into the stopped record's word halts before it. -/
def execDbgcmdStep (s : State) : Host.Outcome State Fault Refusal :=
  .next (s.dbgCommand 2 fun s i k _ =>
    s.modGroup i fun g =>
      match NMap.find g.splits k with
      | none => g
      | some p =>
        if !g.halted || p.st != .halt then g
        else if g.mustHalt p then g.debugEvent .step 0
        else { g with splits := NMap.set g.splits k { p with st := p.prior, dbgStep := true, eligible := false } })

end Sys2Proof.Machine
end

