-- ==== Sys2Proof/Machine/Returns.lean ====
section
/-! DEFINITION. Late results (spec/06, R121; spec/11, R254, R267; spec/20, R445): what a return writes, and the atomics of the home and the hearth. -/
namespace Sys2Proof.Machine

/-- F is changing the tenant's topology map: GEN is odd in what is a map (R373, R382). -/
def State.mapMoving (s : State) (tenant : Nat) : Bool :=
  match s.mapGen (s.tenant tenant) with
  | some g => g % 2 == 1 && s.mapGood (s.tenant tenant)
  | none => false

/-- The line of the map that an RTCHK waits for: the header's, or one of its routes' (R382, R228). -/
def State.routeWaits (s : State) (gi : GroupId) (tenant : Nat) (l : Late) : Option Nat :=
  match l.kind with
  | .rtchk items => (s.mapReadShut (s.tenant tenant) 0 16).orElse fun _ => items.findSome? fun i => s.mapRouteShut tenant (dieOf gi.core) i.2.2.1
  | _ => none

/-! LOAD_RETURN (R121, R254). -/

/-- The bytes of a request as one number. -/
def LaneReq.value (r : LaneReq) : Nat := leNat (r.bytes.map fun b => b.val.getD 0)

/-- The words that a returned request writes, one for each of its registers. -/
def LaneReq.words (r : LaneReq) (k : LateKind) : List W32 :=
  match k with
  | .load size t => loadWords size t r.value
  | .loadCap _ => splitWords 4 r.value
  | _ => splitWords r.regs.length r.value

/-- Register writes of a late result: lanes that have not faulted (R254). -/
def Late.writes (l : Late) : List (Nat × Nat × W32) :=
  l.vwrites ++ (l.reqs.filter fun r => l.ok r.lane).flatMap fun r => (r.regs.zip (r.words l.kind)).map fun x => (x.1, r.lane, x.2)

/-- The scalar writes of a late result. -/
def Late.scalarWrites (l : Late) : List (Nat × W64) :=
  match l.kind with
  | .loadU _ => if l.faults.isEmpty then (l.reqs.flatMap fun r => l.sdests.map fun d => (d, BitVec.ofNat 64 r.value)) else []
  | .atomHome _ _ _ true => if l.faults.isEmpty then (l.reqs.flatMap fun r => l.sdests.map fun d => (d, BitVec.ofNat 64 r.value)) else []
  | .atomHearth _ _ _ true _ => if l.faults.isEmpty then (l.reqs.flatMap fun r => l.sdests.map fun d => (d, BitVec.ofNat 64 r.value)) else []
  | _ => l.swrites

/-- The register holds the scale of a record: the last of a lane's registers; where an indexed record's lanes differ on that, the highest lane's place
decides (R104, R264). -/
def Late.scaleReg (l : Late) (r i : Nat) : Bool :=
  match (l.reqs.filter fun q => q.regs.contains r).getLast? with
  | some q => q.regs.getLast? == some r
  | none => i + 1 == l.vdests.length

/-- The tag under which a destination register becomes full; `none` keeps it (R188, R264). -/
def Late.tagFor (l : Late) (r : Nat) (i : Nat) : Option FTag :=
  match l.kind with
  | .load size t => if size = 5 && l.scaleReg r i then some .e8m0x4 else some t
  | .loadCap _ => some .cap
  | _ => l.newTag

/-- The form is uniform: a fault stops the whole split (R445). -/
def Late.whole (l : Late) : Bool :=
  match l.kind with
  | .loadU _ => true
  | .atomHome _ _ _ u => u
  | .atomHearth _ _ _ u _ => u
  | _ => false

/-- The address of a lane's access (R445). -/
def Late.addrOf (l : Late) (lane : Nat) : W64 :=
  match l.reqs.find? fun r => r.lane == lane with
  | some r => (match r.bytes with | b :: _ => b.va | [] => r.v)
  | none => 0

/-- Late faults of a result (R445): a vector form's by lane, each with the address of its access; a uniform form's for the whole word, with the
lowest cause. -/
def State.postLateFaults (s : State) (gi : GroupId) (l : Late) : State :=
  if l.whole then
    match l.faults with
    | [] => s
    | f :: r =>
      let low := r.foldl (fun (b : Nat × Cause) x => if x.2.code < b.2.code then x else b) f
      s.post (.lateFault gi l.lanes true low.2 (l.addrOf low.1))
  else
    let exited := ((s.group gi).map Group.exited).getD 0
    let gone := l.faults.filter fun f => exited.getLsbD f.1
    let here := l.faults.filter fun f => !exited.getLsbD f.1
    -- lanes that have exited: one event for each cause
    let s1 := ((gone.map Prod.snd).dedup).foldl (fun x c =>
      x.post (.lateFault gi (lanesMask ((gone.filter fun f => f.2 == c).map Prod.fst)) false c 0)) s
    (sortBy Prod.fst here).foldl (fun x f => x.post (.lateFault gi (1#64 <<< f.1) false f.2 (l.addrOf f.1))) s1

/-- The destination registers become full, but for those that another result still fills. -/
def Group.fillDests (g : Group) (l : Late) : Group :=
  let others := g.lates.flatMap Late.vdests
  l.vdests.zipIdx.foldl (fun x ri =>
    if others.contains ri.1 then x else x.fillV ri.1 ((l.tagFor ri.1 ri.2).getD (x.v ri.1).tag)) g

/-- Writes of a returned result to a group: old bits stay in lanes that faulted (R254). -/
def Group.returnLate (g : Group) (l : Late) (caps : List (Nat × Nat × Bool)) (cycle : Nat) : Group :=
  let g1 := { g with lates := g.lates.filter fun x => x.id != l.id, lastReturn := cycle }
  let g2 := g1.writeLanes l.writes
  let g3 := caps.foldl (fun x c => x.setQTag c.1 c.2.1 c.2.2) g2
  let g4 := g3.fillDests l
  let g5 := l.scalarWrites.foldl (fun x w => x.setS w.1 w.2) g4
  { g5 with sEmpty := g5.sEmpty.filter fun r => !l.sdests.contains r }

/-- The tags that a returned LDC gives its lanes (R263, R56); host memory has none (R46), nor has an entry of one of its lines. -/
def State.returnTags (s : State) (gi : GroupId) (tenant : Nat) (l : Late) : List (Nat × Nat × Bool) :=
  match l.kind with
  | .loadCap _ => (l.reqs.filter fun r => l.ok r.lane).map fun r =>
      let host := match r.bytes with | b :: _ => isHostLine (b.pa / 128) | [] => false
      let c : Cap := ⟨BitVec.ofNat 128 r.value, r.gtag.getD false && r.w == 1 && !host⟩
      (r.regs.headD 0, r.lane, (s.sweepFilter tenant gi.core c).tag)
  | _ => []

/-- RTCHK's results (R382): computed while the map stands still. -/
def State.routeResults (s : State) (gi : GroupId) (tenant : Nat) (l : Late) : Late :=
  match l.kind with
  | .rtchk items => { l with vwrites := l.vwrites ++ items.map fun i => (i.2.1, i.1, (s.routeCheck tenant (dieOf gi.core) i.2.2.1 i.2.2.2)) }
  | _ => l

/-- An RTCHK whose read of the map ends without an answer of the host: its map cannot be read (R382, R297; log entry 120). -/
def State.routeAbort (s : State) (gi : GroupId) (id : Nat) : State :=
  s.modGroup gi fun g => match g.late id with
    | some l => (match l.kind with
      | .rtchk items => g.setLate { l with kind := .filled, vwrites := l.vwrites ++ items.map fun i => (i.2.1, i.1, routeUnread) }
      | _ => g)
    | none => g

/-- LOAD_RETURN (R121): a result whose bytes are all there fills its registers. -/
def State.loadReturn (s : State) (gi : GroupId) (id : Nat) : State :=
  match s.team gi.core gi.slot, (s.group gi).bind fun g => g.late id with
  | some t, some l0 =>
    if l0.pendingBytes then s
    else match s.routeWaits gi t.tenant l0 with
    | some ln => s.awaitHome ln (.loadReturn gi id)
    | none =>
      if (match l0.kind with | .rtchk _ => s.mapMoving t.tenant | _ => false) then s else
      let l := s.routeResults gi t.tenant l0
      let caps := s.returnTags gi t.tenant l
      let s1 := s.modGroup gi fun g => g.returnLate l caps s.cycle
      let s2 := if l.dropL1 then s1.acquireWide gi else s1
      let s3 := if l.faults.any fun f => f.2 == .integrity then s2.noteCause gi.core t.tenant .integrity else s2
      s3.postLateFaults gi l
  | _, _ => s

def execLoadReturn (g : GroupId) (id : Nat) (s : State) : Host.Outcome State Fault Refusal := .next (s.loadReturn g id)

/-! HOME_ATOMIC (R267, R257, R94). -/

/-- The lines of an atomic's lanes: PA line and VA line. -/
def Late.lines (l : Late) : List (Nat × Nat) :=
  (l.reqs.filterMap fun r => match r.bytes with | b :: _ => some (b.pa / 128, b.va.toNat / 128) | [] => none).dedup

/-- Entries of the core that hold a line of the atomic. -/
def Core.atomEntries (k : Core) (l : Late) : List Nat := (l.lines.flatMap fun x => k.holdsLine x.1 x.2).dedup

/-- Entries older than the release's mark are FREE. -/
def Core.olderFree (k : Core) (l : Late) : Bool :=
  match l.stamp with
  | some st => k.hearth.all fun ie => decide (st ≤ ie.2.stamp)
  | none => true

/-- What an atomic or a LAUNCH that has not reached its home does next. -/
inductive AtomTurn where
  | fence        -- a release's older entries are triggered
  | trigger      -- OPEN entries of its lines are triggered
  | go           -- it goes home
  | wait
  deriving DecidableEq, Repr

/-- The turn of a late result (R257, R267, R260). -/
def State.atomTurn (s : State) (gi : GroupId) (g : Group) (l : Late) : AtomTurn :=
  let k := s.core gi.core
  match l.kind with
  | .atomHome .. =>
    if l.trig then .wait
    else if l.rel.isSome && l.stamp.isNone then (if g.releaseReady l.lanes (l.item.getD l.id) (l.rel.getD 0) then .fence else .wait)
    else
      let es := k.atomEntries l
      -- an earlier load of the group from one of its lines returns first (R278)
      if (g.ownLoad (l.item.getD l.id) [] (l.lines.map Prod.fst)).isSome then .wait
      else if es.any fun i => match NMap.find k.hearth i with | some e => e.st == .open_ | none => false then .trigger
      else if es.isEmpty && k.olderFree l then .go else .wait
  | .launch .. => if !l.trig && k.olderFree l && !g.bothFull then .go else .wait
  | _ => .wait

/-- An in-hearth atomic that waits for its releases can go on. -/
def State.nearAtomDue (s : State) (gi : GroupId) (g : Group) (l : Late) : Bool :=
  match l.kind with
  | .atomHearth _ _ _ _ rel =>
    let k := s.core gi.core
    (match rel with | some sc => g.releaseReady l.lanes (l.item.getD l.id) sc | none => true)
      && (!l.trig || (decide ((k.teamEntries gi.slot).length < s.limitOf gi.core gi.slot) && k.freeEntry.isSome)) && (l.hearthLine k g).isSome
  | _ => false

/-- LAUNCH's atomic at the home of its QCB: its request, or its turn goes on (R94). -/
def State.launchSend (s : State) (gi : GroupId) (id key tenant : Nat) : State :=
  let va : W64 := BitVec.ofNat 64 ((s.queue key).qcb.toNat * 64)
  match s.pageHost gi.core tenant va .atomic with
  | some ln => s.homeResume ln (.homeAtomic gi id)
  | none =>
    match s.launchAddr gi.core tenant va with
    | (s1, .ok pa) =>
      let ln := pa / 128
      if isHostLine ln then (s1.launchAtHome gi id).state
      else if (s1.dirAt ln).queue.contains (.atomic gi id) then s1.homeRetry ln
      else s1.homeArrive ln (.atomic gi id)
    | (s1, .error _) => (s1.launchAtHome gi id).state

/-- HOME_ATOMIC (R267): a release's fence, the core's own entries of the lines, then the request at each line's home; in the hearth where the
atomic is performed there. LAUNCH's atomic goes to the home of WIDX (R94). -/
def State.homeAtomic (s : State) (gi : GroupId) (id : Nat) : State :=
  match s.team gi.core gi.slot, s.group gi with
  | some t, some g =>
    match g.late id with
    | none => s
    | some l =>
      match s.atomTurn gi g l with
      | .fence => (s.triggerWhere gi.core fun _ => true).modGroup gi fun x => x.setLate { l with stamp := some (s.core gi.core).seqNext }
      | .trigger => ((s.core gi.core).atomEntries l).foldl (fun x i => x.trigger gi.core i) s
      | .go =>
        let s1 := s.modGroup gi fun x => x.setLate { l with trig := true }
        (match l.kind with
        | .launch key .. => s1.launchSend gi id key t.tenant
        | _ => ((l.lines.map Prod.fst).dedup).foldl (fun x ln => x.homeArrive ln (.atomic gi id)) s1)
      | .wait => (match l.kind with
        | .launch key .. => if l.trig then s.launchSend gi id key t.tenant else s
        | _ => if s.nearAtomDue gi g l then s.runAtomics gi.core 64 else s)
  | _, _ => s

def execHomeAtomic (g : GroupId) (id : Nat) (s : State) : Host.Outcome State Fault Refusal := .next (s.homeAtomic g id)

/-- A late result of a core that has a turn to take: RTCHK, a home atomic, LAUNCH, an in-hearth atomic. -/
def State.lateDue (s : State) (core : Nat) : Option Instr :=
  (s.core core).teams.findSome? fun st => st.2.groups.findSome? fun kg =>
    kg.2.lates.findSome? fun l =>
      let gi : GroupId := ⟨core, st.1, kg.1⟩
      match l.kind with
      | .rtchk _ => (match s.routeWaits gi st.2.tenant l with
        | some ln => if s.homeAsked ln (.loadReturn gi l.id) then none else some (.loadReturn gi l.id)
        | none => if s.mapMoving st.2.tenant then none else some (.loadReturn gi l.id))
      | _ => if s.atomTurn gi kg.2 l != .wait || s.nearAtomDue gi kg.2 l then some (.homeAtomic gi l.id) else none

end Sys2Proof.Machine
end

