-- ==== Sys2Proof/Machine/Directory.lean ====
section
/-! DEFINITION. Steps of the hearth and of the directory (spec/10, R238 to R242; spec/12, R284, R293 to R295, R447), one meaning for each message. -/
namespace Sys2Proof.Machine

/-! The hearth's own steps. -/

/-- STORE_ACCEPT (R235). -/
def execStoreAccept (core : Nat) (s : State) : Host.Outcome State Fault Refusal := .next (s.acceptStore core)

/-- What a completed walk gives an entry (R241): TV, the line, and a grant request once it drains; a release registers. -/
def State.entryWalked (s : State) (core idx : Nat) (ln : Nat) : State :=
  match s.entry core idx with
  | none => s
  | some e =>
    let s1 := s.setEntry core idx { e with tv := true, pa := ln, host := isHostLine ln }
    let s2 := s1.register core idx
    if e.st == .open_ || isHostLine ln then s2 else s2.wantGrant core ln (e.st == .draining)

/-- TLB_WALK (R228, R241): an entry's store walk completes, or its failure follows. -/
def State.tlbWalk (s : State) (core idx : Nat) : State :=
  match s.entry core idx with
  | none => s
  | some e =>
    if e.tv || e.st == .faulted then s
    else match s.pageHost core e.tenant (BitVec.ofNat 64 (e.va * 128)) .store with
      | some ln => s.homeResume ln (.tlbWalk core idx)
      | none => match translate s core e.tenant (BitVec.ofNat 64 (e.va * 128)) .store with
        | (s1, .ok (.mem pa)) => s1.entryWalked core idx (pa / 128)
        | (s1, .ok _) => s1.post (.walkFail core idx .window)
        | (s1, .error c) => s1.post (.walkFail core idx c)

def execTlbWalk (core index : Nat) (s : State) : Host.Outcome State Fault Refusal := .next (s.tlbWalk core index)

/-- WALK_FAIL (R241, R242): held while the entry is OPEN, else the entry becomes FAULTED. -/
def State.walkFail (s : State) (core idx : Nat) (c : Cause) : State :=
  match s.entry core idx with
  | none => s
  | some e =>
    if e.tv || e.st == .faulted then s
    else if e.st == .open_ then s.setEntry core idx { e with heldFail := some c } else s.faultEntry core idx c

def execWalkFail (core index : Nat) (cause : Cause) (s : State) : Host.Outcome State Fault Refusal := .next (s.walkFail core index cause)

/-- The age at which an entry is triggered (R238). -/
def ageLimit : Nat := 4095

/-- HEARTH_AGE_TRIGGER (R238, R280). -/
def State.ageTrigger (s : State) (core idx : Nat) : State :=
  match s.entry core idx with
  | none => s
  | some e => if e.st == .open_ && e.born + ageLimit ≤ s.cycle then s.trigger core idx else s

def execHearthAgeTrigger (core index : Nat) (s : State) : Host.Outcome State Fault Refusal := .next (s.ageTrigger core index)

/-- An entry may leave (R239): triggered, walked, its grant held and the line M, every older triggered entry has left, no older entry of the same line is in
the hearth, and none whose line is not known yet. A host release leaves once every older entry is FREE (R298). -/
def State.canLeave (s : State) (core idx : Nat) (e : Entry) : Bool :=
  let k := s.core core
  let older := k.hearth.filter fun x => x.1 != idx && decide (x.2.stamp < e.stamp)
  (e.st == .draining || e.st == .provisional) && e.tv && !e.sent && (e.host || (k.grants.contains e.pa && !k.grantAsked.contains e.pa))
    && older.all (fun x => (match x.2.st with | .draining => x.2.sent | .provisional => x.2.sent | _ => true) && !(x.2.tv && x.2.pa == e.pa)
        && (x.2.tv || x.2.heldFail.isSome || x.2.st == .faulted))
    && (!(e.host && e.st == .provisional) || older.isEmpty)

/-- The MORE mark (R293): another entry of the line is not FREE. -/
def Core.more (k : Core) (idx : Nat) (e : Entry) : Bool := k.hearth.any fun x => x.1 != idx && x.2.tv && x.2.pa == e.pa

/-- ENTRY_LEAVE (R239, R240). -/
def State.entryLeave (s : State) (core idx : Nat) : State :=
  match s.entry core idx with
  | none => s
  | some e =>
    if !s.canLeave core idx e then s
    else
      let s1 := s.setEntry core idx { e with sent := true }
      if e.host then s1.post (.hostWriteAccept core idx)
      else if e.st == .draining then s1.post (.drainData e.pa core idx ((s.core core).more idx e))
      else s1.post (.drainProv e.pa core idx)

def execEntryLeave (core index : Nat) (s : State) : Host.Outcome State Fault Refusal := .next (s.entryLeave core index)

/-! Requests and grants. -/

/-- READ (R294). -/
def execRead (line core : Nat) (s : State) : Host.Outcome State Fault Refusal := .next (s.homeArrive line (.read core))

/-- READNEW (R294, R259). -/
def execReadNew (line : Nat) (g : GroupId) (id : Nat) (s : State) : Host.Outcome State Fault Refusal := .next (s.homeArrive line (.readNew g id))

/-- GRANT_REQ (R294). -/
def execGrantReq (line core : Nat) (mark engine : Bool) (s : State) : Host.Outcome State Fault Refusal :=
  .next (s.homeArrive line (.grant core mark engine))

/-- GRANT (R293, R267, R284, R285). -/
def State.grantArrives (s : State) (ln core : Nat) (engine : Bool) : State :=
  if engine then
    let d := s.dirAt ln
    let wanted := (s.core core).wantsLine ln
    if d.st == .modified && d.eg && d.holder == core then
      -- the lines of an accepted MDRAIN and of a chunk in flight stay granted until they are written (R285)
      if wanted then s.modCore core fun k => { k with egrants := if k.egrants.contains ln then k.egrants else ln :: k.egrants }
      else s.post (.grantBack ln core)
    else if wanted then s.post (.grantReq ln core false true)
    else s
  else
    let s1 := s.modCore core fun k => { k with
      grants := if k.grants.contains ln then k.grants else ln :: k.grants
      grantAsked := k.grantAsked.filter fun x => x != ln }
    -- a host line is held exclusive only until its atomics and their entries are done (R267, R298)
    let s2 := if isHostLine ln then s1.modCore core fun k => k.recallLine ln s.freshId else s1
    ((s2.registerLine core ln).runAtomics core 64).returnGrants core

def execGrant (line core : Nat) (engine : Bool) (s : State) : Host.Outcome State Fault Refusal := .next (s.grantArrives line core engine)

/-- RECALL (R293, R295): every entry of the line is triggered; the grant goes back when nothing is pending. -/
def State.recallArrives (s : State) (ln core : Nat) : State :=
  let k := s.core core
  if !k.grants.contains ln then s
  else
    let es := sortBy (fun ie => ie.2.stamp) (k.hearth.filter fun ie => ie.2.st == .open_ && ie.2.tv && ie.2.pa == ln)
    let s1 := es.foldl (fun x ie => x.trigger core ie.1) s
    (s1.modCore core fun k => k.recallLine ln s.freshId).returnGrants core

def execRecall (line core : Nat) (s : State) : Host.Outcome State Fault Refusal := .next (s.recallArrives line core)

/-- The entry after a holder's grant has ended: S with the sites, or I (R292, R294, R447). -/
def DirEntry.grantEnds (d : DirEntry) : DirEntry :=
  ({ d with st := .shared, hg := false, eg := false, holder := 0, rp := false, rseq := 0, dr := false, fwdData := none, asked := false, promoted := false } : DirEntry).settle

/-- GRANT_BACK (R294); in state O it comes when the entry whose bytes were forwarded has left without reaching the home (R246, R248). -/
def State.grantBack (s : State) (ln core : Nat) : State :=
  let d := s.dirAt ln
  if (d.st == .excl || d.st == .modified || d.st == .owned) && !d.hg && d.holder == core then (s.setDir ln d.grantEnds).homeRetry ln else s

def execGrantBack (line core : Nat) (s : State) : Host.Outcome State Fault Refusal := .next (s.grantBack line core)

/-- PROMOTE (R284): the holder drains up to and including its registered release. -/
def State.promote (s : State) (ln core : Nat) : State :=
  match (s.core core).hearth.find? fun ie => ie.2.registered && ie.2.tv && ie.2.pa == ln && ie.2.st == .open_ with
  | some (i, _) => s.trigger core i
  | none => s

def execPromote (line core : Nat) (s : State) : Host.Outcome State Fault Refusal := .next (s.promote line core)

/-! Forwarding (R293, R294). -/

/-- The home's bytes under the holder's DRAINING entries, youngest last, with the granules' tags (R293). -/
def State.mergedLine (s : State) (ln core : Nat) : LineData × BitVec 8 :=
  let es := (sortBy (fun ie => ie.2.stamp) ((s.core core).hearth.filter fun ie => ie.2.st == .draining && ie.2.tv && ie.2.pa == ln)).map Prod.snd
  let data := es.foldl (fun d e => overlay d e.data e.mask) (s.lineData ln)
  let owner := fun (b : Nat) => (es.filter fun e => e.mask.getLsbD b).getLast?
  let tag : Nat → Bool := fun i =>
    let os := (List.range 16).map fun j => owner (16 * i + j)
    match os.head? with
    | some (some e) => os.all (fun o => o == some e) && e.tags.getLsbD i
    | _ => os.all Option.isNone && s.granuleTag (ln * 8 + i)
  (data, (List.range 8).foldl (fun m i => if tag i then m ||| (1#8 <<< i) else m) 0)

/-- The host's reads that wait for forwarded bytes of a line are answered (R293, R434). -/
def State.hostForward (s : State) (ln : Nat) (res : Except Cause LineData) : State :=
  let d := s.dirAt ln
  d.hostWaits.foldl (fun x w => x.hostReply w.1 w.2 res) (s.setDir ln { d with hostWaits := [] })

/-- A reader that the home cannot serve meets the cause of the home's read. -/
def State.deliverFault (s : State) (core ln : Nat) (c : Cause) : State :=
  let waiting := (s.core core).teams.flatMap fun st => st.2.groups.flatMap fun kg =>
    (kg.2.lates.filter fun l => l.racq && l.pendingBytes).map fun l => ((⟨core, st.1, kg.1⟩ : GroupId), l.id)
  waiting.foldl (fun x w => x.deliverNew w.1 w.2 ln (.error c)) (s.deliverLine core ln (.error c))

/-- FWD (R293). -/
def State.forward (s : State) (ln core reader : Nat) : State :=
  match s.lineFault ln with
  | some c => if reader = hostReader then (s.health (homeDie ln) 5 0 (ln * 128)).hostForward ln (.error c) else s.deliverFault reader ln c
  | none =>
    let (d, t) := s.mergedLine ln core
    s.post (.fwdData ln reader d t)

def execFwd (line core reader : Nat) (s : State) : Host.Outcome State Fault Refusal := .next (s.forward line core reader)

/-- Plain loads of a core that wait for a line. -/
def Core.plainWaits (k : Core) (ln : Nat) : Bool :=
  k.teams.any fun st => st.2.groups.any fun kg => kg.2.lates.any fun l =>
    !l.racq && (match l.kind with | .load _ _ => true | .loadCap _ => true | .loadU _ => true | _ => false)
      && l.reqs.any fun r => r.bytes.any fun b => b.val.isNone && b.pa / 128 == ln

/-- FWD_DATA (R293, R295): the reader's loads take the bytes; it keeps a copy while the bytes are what every reader sees. An engine reads them at the
slice (R286). -/
def State.forwardData (s : State) (ln reader : Nat) (data : LineData) (tags : BitVec 8) : State :=
  let d := s.dirAt ln
  if reader = hostReader then
    (if d.st == .owned then s.setDir ln { d with fwdData := some (data, tags) } else s).hostForward ln (.ok data)
  else if hostReader < reader then (if d.st == .owned then s.setDir ln { d with fwdData := some (data, tags) } else s)
  else if (s.core reader).plainWaits ln then
    if d.st == .owned then (s.setDir ln { d with fwdData := some (data, tags) }).reply reader ln (data, tags)
    else if s.visibleLine ln == (data, tags) && (d.st == .inv || d.st == .shared) then s.reply reader ln (data, tags)
    else s.deliverLine reader ln (.ok (data, tags))
  else
    let waiting := (s.core reader).teams.flatMap fun st => st.2.groups.flatMap fun kg =>
      (kg.2.lates.filter fun l => l.racq && l.pendingBytes).map fun l => ((⟨reader, st.1, kg.1⟩ : GroupId), l.id)
    waiting.foldl (fun x w => x.deliverNew w.1 w.2 ln (.ok (data, tags))) s

def execFwdData (line reader : Nat) (data : LineData) (tags : BitVec 8) (s : State) : Host.Outcome State Fault Refusal :=
  .next (s.forwardData line reader data tags)

/-! Drains (R239 to R241, R294). -/

/-- More of the line is pending after a drain: its MORE mark, or a registered release (R293, R292). -/
def DirEntry.moreLeft (d : DirEntry) (more : Bool) : Bool := more || d.rp

/-- The entry of a line after a visible drain (R294): in O the readers' sites stay; in M, and in E as in M, the sites are gone. -/
def DirEntry.drained (d : DirEntry) (more : Bool) : DirEntry :=
  if d.st == .owned then (if d.moreLeft more then { d with st := .modified } else d.grantEnds)
  else if d.moreLeft more then { d with st := .modified, fwdData := none }
  else { d with st := .excl, dr := false, fwdData := none }

/-- DRAIN_DATA (R294): visible at once, once no copy is left; a line that cannot be merged refuses it. -/
def State.drainData (s : State) (ln core idx : Nat) (more : Bool) : State :=
  match s.entry core idx with
  | none => s
  | some e =>
    if e.st != .draining || !e.sent || e.pa != ln then s
    else match s.drainFault ln core idx with
      | some c => s.faultEntry core idx c
      | none =>
        match s.visible ln core idx (.drainData ln core idx more) with
        | (none, s1) => s1
        | (some s1, _) =>
          let d := s1.dirAt ln
          ((s1.setDir ln (d.drained more)).post (.ack core idx (d.st == .owned && !d.moreLeft more))).homeRetry ln

def execDrainData (line core index : Nat) (more : Bool) (s : State) : Host.Outcome State Fault Refusal := .next (s.drainData line core index more)

/-- DRAIN_PROV (R240, R241): the home holds the bytes invisible. -/
def State.drainProv (s : State) (ln core idx : Nat) : State :=
  match s.entry core idx with
  | none => s
  | some e =>
    if e.st != .provisional || !e.sent || e.pa != ln then s
    else match s.drainFault ln core idx with
      | some c => s.faultEntry core idx c
      | none =>
        let d := s.dirAt ln
        -- a line in E has bytes pending again (R292, R294)
        let s1 := if d.st == .excl && !d.hg then s.setDir ln { d with st := .modified } else s
        (s1.setEntry core idx { e with acked := true }).sendCommits core

def execDrainProv (line core index : Nat) (s : State) : Host.Outcome State Fault Refusal := .next (s.drainProv line core index)

/-- COMMIT (R240, R294, R284): the held bytes become visible; a registration of the entry ends. A line in O takes it as one in M. -/
def State.commitArrives (s : State) (ln core idx : Nat) (more : Bool) : State :=
  match s.entry core idx with
  | none => s
  | some e =>
    if e.st != .provisional || !e.acked || e.pa != ln then s
    else match s.drainFault ln core idx with
      | some c => s.faultEntry core idx c
      | none =>
        let d0 := s.dirAt ln
        let s0 := if d0.st == .owned then s.setDir ln { d0 with st := .modified } else s
        match s0.visible ln core idx (.commit ln core idx more) with
        | (none, s1) => s1
        | (some s1, _) =>
          let d := s1.dirAt ln
          let d1 := if d.rp && d.rseq == e.stamp % 8192 then { d with rp := false, rseq := 0, promoted := false } else d
          ((s1.setDir ln (d1.drained more)).post (.ack core idx false)).homeRetry ln

def execCommit (line core index : Nat) (more : Bool) (s : State) : Host.Outcome State Fault Refusal := .next (s.commitArrives line core index more)

/-- ACK (R241, R293): the entry is FREE; with END the grant is gone. What of the line still needs grant asks for it. -/
def State.ackArrives (s : State) (core idx : Nat) (endMark : Bool) : State :=
  match s.entry core idx with
  | none => s
  | some e =>
    let s1 := if endMark then s.modCore core fun k => { k with grants := k.grants.filter fun x => x != e.pa, recalls := NMap.del k.recalls e.pa }
      else s
    (((s1.freeEntryAt core idx).homeRetry e.pa).askAgain core e.pa).registerLine core e.pa

def execAck (core index : Nat) (endMark : Bool) (s : State) : Host.Outcome State Fault Refusal := .next (s.ackArrives core index endMark)

/-! Copies (R293, R223). -/

/-- The host site of a line. -/
def hostSite : Nat := 6

/-- INVAL (R293): the site drops its copy and answers; a host answers when it will (R297). -/
def State.invalArrives (s : State) (ln site : Nat) : State :=
  if site = hostSite then
    let d := s.dirAt ln
    if d.bisnp then s else s.setDir ln { d with bisnp := true, bisnpData := false, bisnpSince := s.cycle }
  else (s.setCopies ln (s.copiesAt ln &&& ~~~(1#7 <<< site))).post (.invalAck ln site)

def execInval (line site : Nat) (s : State) : Host.Outcome State Fault Refusal := .next (s.invalArrives line site)

/-- INVAL_ACK (R293, R292). -/
def State.invalAck (s : State) (ln site : Nat) : State :=
  let d := s.dirAt ln
  let m : BitVec 7 := ~~~(1#7 <<< site)
  (s.setDir ln ({ d with sites := d.sites &&& m, invSent := d.invSent &&& m } : DirEntry).settle).homeRetry ln

def execInvalAck (line site : Nat) (s : State) : Host.Outcome State Fault Refusal := .next (s.invalAck line site)

/-- HOST_WRITE_ACCEPT (R239, R298, R428): the host takes the write-through of an entry; that of a tenant whose interface is in ERROR is dropped at
the port (log entry 129). -/
def State.hostWriteAccept (s : State) (core idx : Nat) : State :=
  match s.entry core idx with
  | none => s
  | some e =>
    let d := s.dirAt e.pa
    if !e.host || !e.sent || !(e.st == .draining || e.st == .provisional) then s
    else if (d.st == .excl || d.st == .modified) && d.holder != core then
      -- another core holds the line exclusive for an atomic: the write-through follows it (R267, R298)
      (let s1 := s.recallHolder e.pa
       let d1 := s1.dirAt e.pa
       s1.setDir e.pa { d1 with parked := d1.parked.filter (fun i => i != .hostWriteAccept core idx) ++ [.hostWriteAccept core idx] })
    else if s.hostBlocked e.tenant e.pa then (s.freeEntryAt core idx).homeRetry e.pa
    else (((s.writeLine e.pa e.mask e.data e.tags).setCopies e.pa 0).freeEntryAt core idx).homeRetry e.pa

def execHostWriteAccept (core index : Nat) (s : State) : Host.Outcome State Fault Refusal := .next (s.hostWriteAccept core index)

/-- What a core's hearth does next. -/
def State.hearthDue (s : State) (core : Nat) : Option Instr :=
  let k := s.core core
  if (s.storeReady core).isSome then some (.storeAccept core)
  else match k.hearth.find? fun ie => s.canLeave core ie.1 ie.2 with
    | some (i, _) => some (.entryLeave core i)
    | none => (k.hearth.find? fun ie => ie.2.st == .open_ && ie.2.born + ageLimit ≤ s.cycle).map fun ie => .hearthAgeTrigger core ie.1

end Sys2Proof.Machine
end

