-- ==== Sys2Proof/Machine/Health.lean ====
section
/-! DEFINITION. Memory controllers (spec/22, R416), and errors of SRAM and HBM (spec/10, R248 to R250). -/
namespace Sys2Proof.Machine

/-! Memory controllers (R416). -/

/-- The waiting head with the least start tag; ties go to the lower tenant number. -/
def MemCtrl.next (c : MemCtrl) : Option MemRequest :=
  let heads := c.queue.filter fun q => (c.queue.find? fun x => x.tenant == q.tenant) == some q
  firstBy (fun a b => tagLt a.tag b.tag || (!tagLt b.tag a.tag && decide (a.tenant < b.tenant))) heads

/-- A service slot: one in 16 at most goes to a request without a tenant, ahead of the tenants; a slot that no request may take passes. V is the tag in
service, or when idle the largest F. -/
def MemCtrl.serve (c : MemCtrl) : MemCtrl × Option MemRequest :=
  match c.untagged with
  | _ :: r => if 15 ≤ c.sinceUntagged then ({ c with untagged := r, sinceUntagged := 0 }, none) else tenantTurn c
  | [] => tenantTurn c
where
  /-- A tenant's request is served, if one waits. -/
  tenantTurn (c : MemCtrl) : MemCtrl × Option MemRequest :=
    match c.next with
    | none => ({ c with sinceUntagged := min 15 (c.sinceUntagged + 1) }, none)
    | some q =>
      let rest := removeFirst c.queue q
      ({ c with
        queue := rest
        sinceUntagged := min 15 (c.sinceUntagged + 1)
        v := if rest.isEmpty then c.f.foldl (fun m x => tagMax m x.2) q.tag else q.tag }, some q)

/-- MEMORY_REQUEST (R416): operands index (the controller), line, tenant, core; flag: the request carries no tenant. -/
def execMemoryRequest (s : State) : Host.Outcome State Fault Refusal :=
  let r := s.req
  let c := s.ctrl r.index
  .next (s.setCtrl r.index (if r.flag then { c with untagged := c.untagged ++ [r.line] }
    else c.arrive r.tenant (max 1 (s.tenant r.tenant).weight) r.line r.core s.cycle))

/-- MEMORY_SERVE (R416): the cycles that the line waited are counted (R419, event 14). -/
def execMemoryServe (ctrl : Nat) (s : State) : Host.Outcome State Fault Refusal :=
  let (c, q) := (s.ctrl ctrl).serve
  let s1 := s.setCtrl ctrl c
  .next (match q with
    | some q => s1.count q.core q.tenant 14 (s.cycle - q.arrived)
    | none => s1)

/-! Errors (R248 to R250). -/

/-- The team's context meets MACHINE_CHECK (R248, R389, R396): a bank in progress is abandoned with the team. -/
def State.machineCheck (s : State) (core slot : Nat) : State :=
  let s0 : State := match (s.team core slot).bind fun t => t.banking.bind Banking.collected with
    | some (_, pa) => s.homeWrite (pa + 2) 1 2
    | none => s
  let s1 := s0.endTeamBy core slot .machineCheck
  if (s.core core).reserved.isSome then s1.post (.rickWithdraw (clusterOf core)) else s1

/-- A hearth entry that an error destroys becomes FREE without reaching memory; an atomic or a drain that waits for its line goes on. -/
def State.loseEntry (s : State) (core idx : Nat) : State :=
  match s.entry core idx with
  | some e => (s.loseEntryAt core idx).homeRetry e.pa
  | none => s

/-- The home drops a directory entry (R248): copies are invalidated, the grant recalled, the line held in I. -/
def State.loseDirEntry (s : State) (ln : Nat) : State :=
  let d := s.dirAt ln
  let s1 := match d.st with
    | .excl => if d.hg then s.askHost ln false else s.recallHolder ln
    | .modified => s.recallHolder ln
    | .owned => s.recallHolder ln
    | _ => s
  s1.invalSites ln

/-- SRAM_UNCORRECTABLE (R248): operand place; a line whose MAC no longer fits is found when it is read (R425). -/
def State.uncorrectable (s : State) : State :=
  match s.req.place with
  | .l1Line core line => s.modCore core fun k => { k with l1 := NMap.del k.l1 line }
  | .l2Copy line site => s.setCopies line (s.copiesAt line &&& ~~~(1#7 <<< site))
  | .tlbEntry core i => s.modCore core fun k => { k with tlb := k.tlb.eraseIdx i }
  | .directoryEntry line => s.loseDirEntry line
  | .teamStore core slot => s.machineCheck core slot
  | .hearthEntry core i =>
    (match s.entry core i with
    | none => s
    | some e =>
      let gone := (s.core core).hearth.filter fun x => x.1 == i || (x.2.rel && x.2.slot == e.slot && decide (e.stamp < x.2.stamp))
      (gone.foldl (fun x ie => x.loseEntry core ie.1) s).machineCheck core e.slot)
  | .macLine line =>
    -- only the lines of protected worlds carry MACs (R424)
    if (List.range 15).any fun i => s.inWorld (i + 1) (128 * line) then { s with macBad := setIn s.macBad line true } else s
  | .hbmLine line => ({ s with badLines := setIn s.badLines line true } : State).health (homeDie line) 4 0 (line * 128)

def execSramUncorrectable (s : State) : Host.Outcome State Fault Refusal := .next s.uncorrectable

/-- SINGLE_BIT_ERROR (R248, R442): corrected in place and counted; operands die, index (bank or slice), flag: F's threshold is crossed. -/
def execSingleBitError (s : State) : Host.Outcome State Fault Refusal :=
  let r := s.req
  let d := s.die r.die
  let n := NMap.getD d.corrected r.index 0 + 1
  let s1 := s.setDie r.die { d with corrected := NMap.set d.corrected r.index n }
  .next (if r.flag then s1.health r.die 1 r.index n else s1)

/-- POOL_BANK_RETIRE (R249, R442): operand core. -/
def execPoolBankRetire (s : State) : Host.Outcome State Fault Refusal :=
  let c := s.req.core
  .next ((s.modCore c fun k => { k with poolTop := k.poolTop - 32 }).health (dieOf c) 2 (coreInDie c) 0)

/-- Buckets of a retired slice go to the other slices of its sector in rising order, round and round (R250). -/
def Die.moveBuckets (d : Die) (slice : Nat) : Die :=
  let sector := slice / 192
  let others := ((List.range 192).map fun i => 192 * sector + i).filter fun x => x != slice && !d.retired.contains x
  let mine := (List.range 16384).filter fun b => (d.bucket b).slice == slice
  if others.isEmpty then d
  else
    { d with
      retired := setIn d.retired slice true
      buckets := mine.zipIdx.foldl (fun m bi => NMap.set m bi.1 ⟨false, others.getD (bi.2 % others.length) 0⟩) d.buckets }

/-- The buckets of a slice with FRZ set or cleared (R222). -/
def Die.freeze (d : Die) (slice : Nat) : Die :=
  { d with buckets := ((List.range 16384).filter fun b => (d.bucket b).slice == slice).foldl (fun m b => NMap.set m b ⟨true, slice⟩) d.buckets }

/-- The slice is being retired: its buckets are frozen. -/
def Die.coppicing (d : Die) (slice : Nat) : Bool := d.buckets.any fun x => x.2.frz && x.2.slice == slice

/-- The lines of a die that a slice is home to, as far as the directory holds an entry of them. -/
def State.sliceLines (s : State) (die slice : Nat) : List Nat :=
  (NMap.keys s.dir).filter fun ln => !isHostLine ln && homeDie ln == die && s.homeSlice ln == slice

/-- Nothing of a line is out any more: no grant, no copy (R250, steps 2 and 3). -/
def DirEntry.atRest (d : DirEntry) : Bool := (d.st == .inv || d.st == .shared) && d.sites == 0

/-- A line that has a grant or copies for which nothing has been sent. -/
def DirEntry.unasked (d : DirEntry) : Bool :=
  match d.st with
  | .owned => false
  | .excl => if d.hg then !d.bisnp else !d.asked
  | .modified => !d.asked
  | _ => d.sites &&& ~~~d.invSent != 0

/-- Coppicing of a slice can go on: a line has something to be recalled, or every line is at rest. -/
def State.coppiceReady (s : State) (die slice : Nat) : Bool :=
  let ls := s.sliceLines die slice
  (s.die die).coppicing slice && (ls.any (fun ln => (s.dirAt ln).unasked) || ls.all fun ln => (s.dirAt ln).atRest)

/-- The requests that waited at a slice's lines are served: those that had come before its buckets were frozen first, then the others in the order in
which they came (R250). -/
def State.thaw (s : State) (lines arrived : List Nat) : State :=
  let s1 := lines.foldl (fun x ln => x.homeServe ln ((x.dirAt ln).queue.length - arrived.count ln)) s
  lines.foldl (fun x ln => x.homeRetry ln) (arrived.foldl (fun x ln => x.homeServe ln 1) s1)

/-- The last steps of coppicing (R250, steps 4 and 5): the buckets move, the copies that the slice kept of other lines go with it, FRZ is cleared,
the waiting requests continue. -/
def State.coppiceEnd (s : State) (die slice : Nat) : State :=
  let waiting := s.sliceLines die slice
  let s0 : State := { s with copies := (s.copies.map fun x => (x.1, (List.range 6).foldl (fun m i =>
      let at_ := if isHostLine x.1 then (if i = die then ((s.die die).bucket (bucketOf x.1)).slice else 576)
        else if i < 3 then (if homeDie x.1 = die then s.copySlice x.1 i else 576)
        else (if (if i - 3 < homeDie x.1 then i - 3 else i - 2) = die then s.copySlice x.1 i else 576)
      if at_ = slice then m &&& ~~~(1#7 <<< i) else m) x.2)).filter fun x => x.2 != 0 }
  let d := s0.die die
  let came := d.arrived.filter fun ln => waiting.contains ln
  ((s0.setDie die { d.moveBuckets slice with arrived := d.arrived.filter fun ln => !waiting.contains ln }).health die 3 slice 0).thaw waiting came

/-- COPPICING (R250, R442): operands die, index (the slice). It begins with FRZ in every bucket of the slice; grants of the slice's lines are
recalled and every copy invalidated; once no line has any, the buckets move. -/
def execCoppicing (s : State) : Host.Outcome State Fault Refusal :=
  let r := s.req
  let s1 := if (s.die r.die).coppicing r.index then s else s.setDie r.die ((s.die r.die).freeze r.index)
  let ls := s1.sliceLines r.die r.index
  let ask := ls.filter fun ln => (s1.dirAt ln).unasked
  .next (if !ask.isEmpty then ask.foldl (fun x ln => x.loseDirEntry ln) s1
    else if ls.all fun ln => (s1.dirAt ln).atRest then s1.coppiceEnd r.die r.index
    else s1)

/-- Coppicing that goes on by itself. -/
def State.coppiceDue (s : State) : Option Happening :=
  s.dies.findSome? fun kd => ((kd.2.buckets.find? fun x => x.2.frz && s.coppiceReady kd.1 x.2.slice).map fun x =>
    ⟨.coppicing, { Request.zero with die := kd.1, index := x.2.slice }⟩)

/-- SILENT_DROP (R223): operands line, core, index (the site); flag: the copy lies in the core's L1. -/
def execSilentDrop (s : State) : Host.Outcome State Fault Refusal :=
  let r := s.req
  .next (if r.flag then s.modCore r.core fun k => { k with l1 := NMap.del k.l1 r.line }
    else s.setCopies r.line (s.copiesAt r.line &&& ~~~(1#7 <<< r.index)))

end Sys2Proof.Machine
end

