-- ==== Sys2Proof/Machine/HostEdge.lean ====
section
/-! DEFINITION. The host's edge (spec/12, R296 to R298; spec/14, R301; spec/23, R433 to R435, R439): requests over CXL.mem, answers to
back-invalidates, their timeout, snoops, doorbells, and the link's own steps. -/
namespace Sys2Proof.Machine

/-! Requests (R434, R296). -/

/-- The device key, once it is derived (R441). -/
def Package.key (p : Package) : BitVec 256 := (p.deviceKey.map Config.securityValue).getD 0

/-- The host port of a tenant's interface (R432). -/
def tenantPort (tenant : Nat) : Nat := tenant % 2

/-- The virtual function of a tenant's interface on its port (R432). -/
def tenantFunction (tenant : Nat) : Nat := tenant / 2 + 1

/-- A host access comes through the interface of the tenant that it names: by its port and its function alone (R432). -/
def Request.viaTdi (r : Request) : Bool := r.port == tenantPort r.tenant && r.func == tenantFunction r.tenant

/-- The step is made once the device is up: before STAGE 5 no function of the host ports is enabled (R441). -/
def State.whenReady (s : State) (t : State) : State := if s.pkg.ready then t else s

/-- Bytes of device memory that an HDM decoder maps (R434). -/
def hdmSpan : Nat := 256 * 2 ^ 30

/-- The IA of a host address (R434): that of the decoder which the host has committed over it. -/
def Tenant.hostIa (t : Tenant) (a : Nat) : Option Nat :=
  (List.range Config.dies).findSome? fun d => match NMap.find t.hdm d with
    | some hb => if hb ≤ a && a < hb + hdmSpan then some (d * 2 ^ 40 + (a - hb)) else none
    | none => none

/-- The physical address of a host request to device memory (R434): its window, the window's world and the TDI's state allow it. No write enters through
an interface in ERROR (log entry 129). -/
def State.hostTarget (s : State) (tenant ia : Nat) : Option Nat :=
  let t := s.tenant tenant
  if 4 * 2 ^ 40 ≤ ia || t.tdi == .error then none
  else match windowOf t ia with
    | some (.mem pa) => if t.winWorld (ia / 2 ^ 40) != 0 && t.tdi != .run then none else some pa
    | _ => none

/-- A request that R434 refuses is logged by the port (R442). -/
def State.hostRefused (s : State) (ia : Nat) : State := s.health (ia / 2 ^ 40 % 4) 5 0 ia

/-- A read that the device answers with all ones and no error: of an interface that is in ERROR, of one before STAGE 5, or of a register that the
access does not fit (R428, R433, R441). -/
def State.hostOnes (s : State) (tenant a : Nat) : State := { s with hostReplies := s.hostReplies ++ [⟨tenant, a, BitVec.allOnes 512, false⟩] }

/-- A host request to one line, by its IA: refused with all ones and an error status, or a request at home; a line whose MAC fails refuses a request
that would take or write it (R434, R425). -/
def State.hostRequest (s : State) (tenant ia : Nat) (reads : Bool) (r : HomeReq) : State :=
  match s.hostTarget tenant ia with
  | none => if reads && (s.tenant tenant).tdi == .error then s.hostOnes tenant ia else (s.hostRefused ia).hostReply tenant ia (.error .window)
  | some pa =>
    if !reads && s.lineFault (pa / 128) == some .integrity then
      ((s.health (homeDie (pa / 128)) 8 0 pa).hostRefused ia).hostReply tenant ia (.error .integrity)
    else s.homeArrive (pa / 128) r

/-- A host access to device memory over CXL.mem (R432, R434, R441): a decoder of the tenant's own interface claims its address; `f` is the request for
the IA. -/
def State.hostAccess (s : State) (reads : Bool) (f : Nat → HomeReq) : State :=
  let r := s.req
  match if r.viaTdi then (s.tenant r.tenant).hostIa r.ia else none with
  | none => s
  | some ia => if s.pkg.ready then s.hostRequest r.tenant ia reads (f ia) else if reads then s.hostOnes r.tenant ia else s

/-- The states of an interface as TSTATE shows them (R433). -/
def TdiState.code : TdiState → Nat
  | .unlocked => 0
  | .locked => 1
  | .run => 2
  | .error => 3

/-- A host read of the BAR0 of a tenant's interface (R433): operands tenant, off, size. TSTATE is the one register that reads; the manual gives no value
for the other places: it is free. -/
def State.barRead (s : State) : State :=
  let r := s.req
  let give := fun (x : State) (v : W64) => { x with hostReplies := x.hostReplies ++ [(⟨r.tenant, r.off, v.setWidth 512, false⟩ : HostReply)] }
  if !r.viaTdi then s
  else if r.size != 8 || !s.pkg.ready || (s.tenant r.tenant).tdi == .error then s.hostOnes r.tenant r.off
  else if r.off = 0x8000 then give s (BitVec.ofNat 64 (s.tenant r.tenant).tdi.code)
  else give s.useFree (Config.reportWord s.pkg.freeCount)

/-- HOST_READ (R296, R301, R434): operands tenant, ia (the host address), port, func; the host receives its 64 bytes. With flag2 it is a read of the
interface's BAR0 (R433). -/
def execHostRead (s : State) : Host.Outcome State Fault Refusal :=
  .next (if s.req.flag2 then s.barRead else s.hostAccess true fun ia => .hostRead s.req.tenant ia)

/-- HOST_OWNERSHIP_REQUEST (R294, R296): operands as HOST_READ's. -/
def execHostOwnershipRequest (s : State) : Host.Outcome State Fault Refusal := .next (s.hostAccess false fun _ => .hostOwn s.req.tenant)

/-- The bytes of a device line that a host line of 64 bytes covers. -/
def hostLineMask (ia : Nat) : LineMask := BitVec.ofNat 128 ((2 ^ 64 - 1) * 2 ^ (ia % 128 / 64 * 64))

/-- HOST_WRITE (R296, R47, R231): operands as HOST_READ's, data and mask of the device line; flag: the host keeps its copy. -/
def execHostWrite (s : State) : Host.Outcome State Fault Refusal :=
  let r := s.req
  .next (s.hostAccess false fun ia => .hostWrite r.tenant r.data (r.mask &&& hostLineMask ia) r.flag)

/-! Answers (R297, R301, R293). -/

/-- A write-back comes ahead of the host's answer; only an owner has one. -/
def State.writesBack (s : State) (ln : Nat) : Bool := s.req.flag && (s.dirAt ln).st == .excl && (s.dirAt ln).hg

/-- The write-back: the bytes, their tags cleared; a part of a line that cannot be read ends with an error. -/
def State.hostWriteBack (s : State) (ln : Nat) : State :=
  if !s.writesBack ln then s
  else match s.partialFault ln s.req.mask with
    | some c => s.hostWriteFails s.req.tenant ln c
    | none => s.writeOver ln s.req.mask s.req.data 0

/-- After the host's answer the lines that waited for it go on, a write-back's page having been marked first (R231). -/
def State.hostGoesOn (s : State) (ln : Nat) (wrote : Bool) (lns : List Nat) : State :=
  if wrote then s.deviceSend .plain (s.marksOf [(ln * 128, 1)] ++ lns.map fun l => .post (lookAgain l))
  else lns.foldl (fun x l => x.homeRetry l) s

/-- A request that stands first at a line and waits for a way of a filter set (R301). -/
def HomeReq.isHost : HomeReq → Bool
  | .hostRead .. => true
  | .hostOwn _ => true
  | _ => false

/-- The lines of a filter set whose first request is the host's. -/
def State.filterWaiters (s : State) (ln : Nat) : List Nat :=
  (s.dir.filter fun x => x.1 != ln && homeDie x.1 == homeDie ln && x.1 % 65536 == ln % 65536
    && (match x.2.queue with | r :: _ => r.isHost | [] => false)).map Prod.fst

/-- BIRSPI (R293, R297, R301): the host answers a BISnpInv, whatever it was sent for; its copy and grant end and the filter entry is free.
Operands line; flag, data, mask: a write-back comes first. -/
def State.hostAnswers (s : State) : State :=
  let ln := s.req.line
  let d0 := s.dirAt ln
  if !d0.bisnp || d0.bisnpData then s
  else
    let s1 := s.hostWriteBack ln
    let d := s1.dirAt ln
    let d1 : DirEntry := { d with sites := d.sites &&& 63, invSent := d.invSent &&& 63, bisnp := false }
    let d2 := if d1.st == .excl && d1.hg then d1.grantEnds else d1.settle
    let s2 := ((s1.setDir ln d2).setCopies ln (s1.copiesAt ln &&& 63)).filterFree ln
    s2.hostGoesOn ln (s.writesBack ln) (ln :: s.filterWaiters ln)

def execBirspi (s : State) : Host.Outcome State Fault Refusal := .next s.hostAnswers

/-- BISNPDATA_RESPONSE (R297, R301): the host gives up ownership and keeps a clean copy; the filter entry stays. An invalidation of the host's copy
that came meanwhile goes out now, as a BISnpInv. Operands as BIRSPI's. -/
def State.hostAnswersData (s : State) : State :=
  let ln := s.req.line
  let d0 := s.dirAt ln
  if !d0.bisnp || !d0.bisnpData then s
  else
    let s1 := s.hostWriteBack ln
    let d : DirEntry := { s1.dirAt ln with bisnp := false, bisnpData := false }
    let d1 := if d.st == .excl && d.hg then d.grantEnds else d
    let d2 : DirEntry := if d1.invSent.getLsbD 6 then { d1 with bisnp := true, bisnpSince := s.cycle } else d1
    (s1.setDir ln d2).hostGoesOn ln (s.writesBack ln) [ln]

def execBisnpdataResponse (s : State) : Host.Outcome State Fault Refusal := .next s.hostAnswersData

/-! The timeout (R297). -/

/-- Cycles after which an unanswered back-invalidate ends its accesses. -/
def backInvalidateCycles : Nat := 2 ^ 24

/-- The turn of a LAUNCH that has ended is over at the home of its QCB. -/
def State.launchRetry (s : State) (gi : GroupId) (id key : Nat) : State :=
  let _ := (id, key)
  (NMap.keys s.dir).foldl (fun x ln => match (x.dirAt ln).queue with
    | .atomic g i :: _ => if g == gi && i == id then x.homeRetry ln else x
    | _ => x) s

/-- Lanes of an atomic at a line end with a cause (R297). -/
def State.abortAtomic (s : State) (gi : GroupId) (id ln : Nat) (c : Cause) : State :=
  match (s.group gi).bind fun g => g.late id with
  | none => s
  | some l =>
    match l.kind with
    | .launch key .. => (s.launchFault gi id l c (BitVec.ofNat 64 ((s.queue key).qcb.toNat * 64))).launchRetry gi id key
    | _ =>
      let mine := fun (r : LaneReq) => r.line == ln && r.waiting
      let l1 := { l with
        faults := l.faults ++ (l.reqs.filter mine).map fun r => (r.lane, c)
        reqs := l.reqs.map fun r => if mine r then r.answer 0 else r }
      (s.modGroup gi fun g => g.setLate l1).atomDone gi id

/-- What waits for a core's grant of a line ends: triggered entries become FAULTED, in-hearth atomics fault (R297, R241, R267). -/
def State.abortGrant (s : State) (core ln : Nat) (c : Cause) : State :=
  let k := s.core core
  let s1 := s.modCore core fun k => { k with grantAsked := k.grantAsked.filter fun x => x != ln }
  let es := k.hearth.filter fun x => x.2.tv && x.2.pa == ln && (x.2.st == .draining || x.2.st == .provisional)
  let s2 := es.foldl (fun x ie => x.faultEntry core ie.1 c) s1
  let near := k.teams.flatMap fun st => st.2.groups.flatMap fun kg =>
    (kg.2.lates.filter fun l => (match l.kind with | .atomHearth .. => true | _ => false) && l.reqs.any fun r => r.line == ln && r.waiting).map
      fun l => ((⟨core, st.1, kg.1⟩ : GroupId), l.id)
  near.foldl (fun x w => x.abortAtomic w.1 w.2 ln c) s2

/-- The ranges that the matrix operation in progress reads or writes next, and the kind of access. -/
def MatOp.ranges (op : MatOp) (t : Team) : AccessKind × List MRange :=
  match op.kind with
  | .load glob off rs => (.load, loadRanges t glob off rs)
  | .loop a b _ _ => (.load, match matPair a.fmt b.fmt t.accF with | some (ks, _) => stepRanges t a b ks (t.tile op.tile).step | none => [])
  | .drain m _ _ _ amax _ => if op.rowsLeft t m then (.write, m.drainRow t.tileDim op.row)
    else (.atomic, match amax with | some k => [⟨some k, k.addr, t.tileBytes⟩] | none => [])
  | .zero => (.load, [])

/-- The matrix operation in progress ends with a cause: FADDR is the lowest byte of its ranges that a test picks, by address and by line. -/
def State.abortMat (s : State) (core : Nat) (c : Cause) (hit : AccessKind → Nat → W64 → Option Nat → Bool) : State :=
  match s.matHead core with
  | none => s
  | some (op, t) =>
    let (kind, rs) := op.ranges t
    let ps := rs.flatMap fun x => if x.glob.isNone then [] else rangeLines x.addr x.n
    match ps.find? fun p => hit kind t.tenant p.1 (match (s.engineRange core t.tenant kind [p]).2 with | .ok (q :: _) => some (q.1 / 128) | _ => none) with
    | some p => s.stopMat core op c p.1
    | none => s

/-- The same for a line that the operation reads or writes. -/
def State.abortMatLine (s : State) (core ln : Nat) (c : Cause) : State := s.abortMat core c fun _ _ _ l => l == some ln

/-- The same for a line of its walks. -/
def State.abortMatWalk (s : State) (core ln : Nat) (c : Cause) : State := s.abortMat core c fun kind tn va _ => s.pageHost core tn va kind == some ln

/-- The commands of a core that a test picks fail with a cause (R310). -/
def State.failCopies (s : State) (core : Nat) (c : Cause) (hit : State → Nat → Team → CopyCmd → Bool) : State :=
  ((s.core core).teams.foldl (fun x st => st.2.cmds.foldl (fun y cmd =>
    if hit y st.1 st.2 cmd then y.modTeam core st.1 fun t => (match t.cmds.find? fun z => z.id == cmd.id with | some z => t.failCmd z c | none => t)
    else y) x) s).releaseEngine core

/-- An engine's write of a line ends with a cause: the chunk that needs its grant fails; an MDRAIN that has begun stops, one that waits asks again when it
begins. -/
def State.abortJobs (s : State) (core ln : Nat) (c : Cause) : State :=
  let s1 := s.modCore core fun k => { k with mqueue := k.mqueue.map fun op => { op with lines := op.lines.filter fun x => x != ln } }
  let s2 := s1.failCopies core c fun _ _ _ cmd => cmd.lines.contains ln
  match s2.matHead core with
  | some (op, _) => if op.begun then s2.abortMatLine core ln c else s2
  | none => s2

/-- An engine's read of a line ends with a cause: the command, the table read or the matrix operation that needs the line (R310, R309, R337). -/
def State.abortPin (s : State) (core ln : Nat) (c : Cause) : State :=
  let s0 := s.failCopies core c fun y sl t cmd => t.mayChunk cmd && (y.chunkLines core sl t cmd).contains ln
  let s1 := (s.core core).teams.foldl (fun x st =>
    match x.team core st.1 with
    | some t =>
      (match t.ring with
      | some r =>
        if t.mayAccept && t.residues.isEmpty && (x.tableLines core t.tenant r (t.ringEntry r r.consumed.toNat)).contains ln then
          x.acceptRing core st.1 t r (some c)
        else x
      | none => x)
    | none => x) s0
  match s1.matHead core with
  | some (op, t) => if (op.ranges t).1 == .load then s1.abortMatLine core ln c else s1
  | none => s1

/-- A step of an engine whose walk needs the line ends with a cause. -/
def State.abortStep (s : State) (ln : Nat) (i : Instr) (c : Cause) : State :=
  match i with
  | .tlbWalk core idx => s.post (.walkFail core idx c)
  | .homeAtomic g id => s.abortAtomic g id ln c
  | .loadReturn g id => (s.routeAbort g id).post (.loadReturn g id)
  | .copyChunk core slot cmd => s.failCopies core c fun _ sl _ z => sl == slot && z.id == cmd
  | .entryAccept core slot =>
    (match s.team core slot with
    | some t => (match t.ring with | some r => if t.mayAccept && t.residues.isEmpty then s.acceptRing core slot t r (some c) else s | none => s)
    | none => s)
  | .teamPlace gn => (match s.grid gn with | some g => if g.writes.isEmpty then s else s.gridWriteFailed gn g | none => s)
  | .matrixLoadPerform core => s.abortMatWalk core ln c
  | .matrixStep core => s.abortMatWalk core ln c
  | .matrixDrainPerform core => s.abortMatWalk core ln c
  | .amaxAtomic core => s.abortMatWalk core ln c
  | _ => s

/-- One waiting request ends with HOST_ABORT (R297); a host request ends with an error. A write of the device's own agents is not made, and what
follows it goes on; a LAUNCH faults, a grid's record or signal fails as R446 says. -/
def State.abortRequest (s : State) (ln : Nat) (r : HomeReq) : State :=
  match r with
  | .read core => s.deliverFault core ln .hostAbort
  | .readNew g id => s.deliverNew g id ln (.error .hostAbort)
  | .grant core _ engine => if engine then s.abortJobs core ln .hostAbort else s.abortGrant core ln .hostAbort
  | .atomic g id => s.abortAtomic g id ln .hostAbort
  | .pin core => s.abortPin core ln .hostAbort
  | .amax core => s.abortMatLine core ln .hostAbort
  | .device (.launch g id) _ => s.abortAtomic g id ln .hostAbort
  | .device (.grid gn) _ => (match s.grid gn with | some g => s.gridWriteFailed gn g | none => s)
  | .device owner steps => deviceSteps owner none (steps.drop 1) s
  | .resume i _ => s.abortStep ln i .hostAbort
  | .hostRead tenant ia => s.hostReply tenant ia (.error .hostAbort)
  | .hostOwn tenant => s.hostReply tenant (ln * 128) (.error .hostAbort)
  | .hostWrite tenant .. => s.hostReply tenant (ln * 128) (.error .hostAbort)
  | _ => s

/-- A parked drain or commit ends with HOST_ABORT. -/
def State.abortParked (s : State) (i : Instr) : State :=
  match i with
  | .drainData _ core idx _ => s.faultEntry core idx .hostAbort
  | .commit _ core idx _ => s.faultEntry core idx .hostAbort
  | _ => s

/-- One waiting request ends with HOST_ABORT; a write of another line that must mark its page here ends with it: a message, or the request that stands
first at that line (R231). -/
def State.abortWaiter (s : State) (ln : Nat) (r : HomeReq) : State :=
  match r with
  | .mark (.invalAck l _) _ =>
    (match (s.dirAt l).queue with
    | q :: rest => ((s.setDir l { s.dirAt l with queue := rest }).abortRequest l q).homeRetry l
    | [] => s)
  | .mark i _ => s.abortParked i
  | _ => s.abortRequest ln r

/-- Splits that wait for the host's line: one held at a word leaves with a precise HOST_ABORT at that word, one at a header whose fetch or walk needs
the line at its header (R297, R99; log entry 120). -/
def State.abortFetches (s : State) (ln : Nat) : State :=
  let sites := s.cores.flatMap fun kc => kc.2.teams.flatMap fun st => st.2.groups.flatMap fun kg => kg.2.splits.map fun kp =>
    ((⟨⟨kc.1, st.1, kg.1⟩, kp.1⟩ : Site), st.2, kg.2, kp.2)
  sites.foldl (fun x a =>
    let (i, t, g, p) := a
    match p.st, p.clause with
    | .held, some cl =>
      if ((p.held.map Held.conds).getD []).contains (.lineHome ln) then x.headerFaultAt i p.heldWord cl.addr false .hostAbort p.heldClause else x
    | .bound, _ => if s.headerHost i.g.core t g.code p = some ln then x.headerFaultAt i p.pc p.pc true .hostAbort none else x
    | _, _ => x) s

/-- BACK_INVALIDATE_TIMEOUT (R297, R442): every access that waits on the line ends; the filter entry is kept. Operand line. -/
def State.backInvalidateTimeout (s : State) : State :=
  let ln := s.req.line
  let d := s.dirAt ln
  if !d.bisnp || s.cycle < d.bisnpSince + backInvalidateCycles then s
  else
    let s1 := s.setDir ln { d with bisnp := false, bisnpData := false, invSent := d.invSent &&& 63, queue := [], parked := [] }
    let s2 := d.parked.foldl (fun x i => x.abortParked i) (d.queue.foldl (fun x r => x.abortWaiter ln r) s1)
    -- host requests that wait for this line's way of the filter end too
    let s3 := (s.filterWaiters ln).foldl (fun x l =>
      match x.filterAlloc l with
      | .error v => if v = ln then (let e := x.dirAt l
                                    (e.queue.take 1).foldl (fun y q => (y.setDir l { e with queue := e.queue.drop 1 }).abortRequest l q) x |>.homeRetry l) else x
      | .ok _ => x) s2
    (s3.abortFetches ln).health (homeDie ln) 6 0 (ln * 128)

def execBackInvalidateTimeout (s : State) : Host.Outcome State Fault Refusal := .next s.backInvalidateTimeout

/-- HOST_SNOOP (R298): the device drops its copies of a host line in the slices, once no atomic holds the line exclusive and no write-through of it is
in flight; operand line. -/
def execHostSnoop (s : State) : Host.Outcome State Fault Refusal := .next (if isHostLine s.req.line then s.homeArrive s.req.line .snoop else s)

/-! Doorbells (R433, R76) and links (R439). -/

/-- The line that a read of a queue's QCB waits for: one of its walk, or the QCB's own (R228, R297, R222). -/
def State.qcbShut (s : State) (die tenant : Nat) (q : Queue) : Option Nat :=
  (s.distHost die tenant (q.qcb.toNat * 64) false).orElse fun _ => match (distTranslate s die tenant (q.qcb.toNat * 64) false).2 with
    | .ok pa => if s.homeShut (lineOf pa) then some (lineOf pa) else none
    | .error _ => none

/-- The queue is fed by the device (R73): DEV of its QCB, as it reads now. -/
def State.deviceFed (s : State) (die tenant : Nat) (q : Queue) : Bool :=
  match (distTranslate s die tenant (q.qcb.toNat * 64) false).2 with
  | .ok pa => (s.lineFault (lineOf pa)).isNone && (s.visNat pa 8).testBit 55
  | .error _ => false

/-- DOORBELL (R433, R76, R428): operands tenant, die, index (the queue), port, func, size. A doorbell of a queue that does not run is remembered; the one
of a device-fed queue is ignored, and so is one through an interface in ERROR or of another size. DEV is read at home, once the QCB's line is open. -/
def State.doorbell (s : State) : State :=
  let r := s.req
  let key := queueKey r.die r.index
  let q := s.queue key
  if !r.viaTdi || r.size != 8 || !s.pkg.ready || !(s.tenant r.tenant).ownsQueue r.die r.index || q.st == .off || (s.tenant r.tenant).tdi == .error then s
  else match s.qcbShut r.die r.tenant q with
    | some ln => s.homeResume ln .doorbell r
    | none => if s.deviceFed r.die r.tenant q then s else s.setQueue key { q with bell := true }

def execDoorbell (s : State) : Host.Outcome State Fault Refusal := .next s.doorbell

/-- FLIT_REPLAY (R439): the link replays a flit; neither order nor number of the flits changes. Operands die, index (the port), off (as a link step's);
flag: the replay succeeds. A link that has failed 16 in a row retrains. -/
def State.flitReplay (s : State) : State :=
  let r := s.req
  let key := portKey (if r.off = 0 then 4 * s.pkg.selfDevice + r.die else r.off - 1) r.index
  let n := if r.flag then 0 else NMap.getD s.replays key 0 + 1
  if n < 16 then { s with replays := if n = 0 then NMap.del s.replays key else NMap.set s.replays key n }
  else ({ s with replays := NMap.del s.replays key } : State).postReq .linkRetrain r

def execFlitReplay (s : State) : Host.Outcome State Fault Refusal := .next s.flitReplay

end Sys2Proof.Machine
end

