-- ==== Sys2Proof/Machine/Launch.lean ====
section
/-! DEFINITION. Taking and checking launch packets, dependences, completion (spec/04, R73 to R84, R446; spec/02, R24 to R29), and LAUNCH (R94). -/
namespace Sys2Proof.Machine

/-! Errors and completion. -/

/-- A queue goes to ERROR and S is interrupted (R74, R82). -/
def State.queueFails (s : State) (die q tenant kind code : Nat) : State :=
  ((s.queueError (queueKey die q) kind code).eventWord tenant q kind code).interruptFor tenant q

/-- The tenant whose QRANGE holds a queue (R413). -/
def State.queueTenant (s : State) (die q : Nat) : Option Nat :=
  (NMap.keys s.tenants).find? fun n => (s.tenant n).valid && (s.tenant n).ownsQueue die q

/-- A write of a grid's record or signal still waits at its home. -/
def State.gridWrites (s : State) (gn : Nat) : Bool := s.dir.any fun x => x.2.queue.any (HomeReq.ownedBy (.grid gn))

/-- A grid that has completed is forgotten once none of its placed teams is left and its writes are made. -/
def State.dropGrid (s : State) (gn : Nat) : State :=
  match s.grid gn with
  | some g => if g.complete && g.retired = g.placed && g.writes.isEmpty && !s.gridWrites gn then { s with grids := NMap.del s.grids gn } else s
  | none => s

/-- GRID_COMPLETE (R83): the grid's signal, as one atomic operation at the word's home, after the grid's record (R82). -/
def State.completeGrid (s : State) (gn : Nat) : State :=
  match s.grid gn with
  | none => s
  | some g =>
    if g.complete then s.dropGrid gn
    else ((s.setGrid gn { g with complete := true }).gridWrite gn (.signal (g.nfault != 0))).dropGrid gn

/-- LAUNCH_REJECT (R28): a failing packet's record, event word and signal. -/
def State.rejectGrid (s : State) (gn kind code : Nat) : State := (s.gridEvent gn 0xFFFFFFFF kind code 0 0).completeGrid gn

/-! Reading tenant memory (R446). -/

/-- Bytes that the distributor reads at home, as every reader outside the writing core sees them (R279). -/
def State.distRead (s : State) (die tenant va n : Nat) : State × Option Nat :=
  match distTranslate s die tenant va false with
  | (s1, .error _) => (s1, none)
  | (s1, .ok pa) => if (s1.lineFault (lineOf pa)).isSome then (s1, none) else (s1, some (s1.visNat pa n))

/-- A capability that the distributor reads whole, with its tag; one that cannot be read is untagged (R77, R446). One at an address that is no
multiple of 16 (check 0x11 asks no alignment of a parameter block) is the 16 bytes from its first byte's physical address on, untagged, and only that
byte's line is looked at (log entry 131). -/
def State.distCap (s : State) (die tenant va : Nat) : State × Cap :=
  match distTranslate s die tenant va false with
  | (s1, .error _) => (s1, Cap.null)
  | (s1, .ok pa) =>
    if (s1.lineFault (lineOf pa)).isSome then (s1, Cap.null)
    else (s1, ⟨BitVec.ofNat 128 (s1.visNat pa 16), pa % 16 == 0 && s1.visTag (pa / 16)⟩)

/-- An entry of the launch table (R77): `none` for 0xFFF. -/
def State.tableEntry (s : State) (die tenant ltab i : Nat) : State × Option Cap :=
  if i = 0xFFF then (s, none)
  else match s.distCap die tenant ((ltab + 16 * i) % 2 ^ 64) with
    | (s1, c) => (s1, some c)

/-! Packets (R78). -/

def packDesc (p : BitVec 512) : Nat := bitsOf p.toNat 52 12
def packParam (p : BitVec 512) : Nat := bitsOf p.toNat 40 12
def packDep (p : BitVec 512) (k : Nat) : Nat := bitsOf p.toNat (if k = 0 then 28 else 16) 12
def packWait (p : BitVec 512) (k : Nat) : Nat := bitsOf p.toNat (192 + 64 * k) 64
def packWaitErr (p : BitVec 512) : Bool := p.getLsbD 5
def packBarrier (p : BitVec 512) : Bool := p.getLsbD 4
def packType (p : BitVec 512) : Nat := bitsOf p.toNat 0 2
def packXrec (p : BitVec 512) : Nat := bitsOf p.toNat 104 12
def packSig (p : BitVec 512) : Nat := bitsOf p.toNat 116 12
/-- GX, GY, GZ and the team count T (R79). -/
def packTeams (p : BitVec 512) : Nat := bitsOf p.toNat 160 32 * bitsOf p.toNat 144 16 * bitsOf p.toNat 128 16

/-- An index that is neither "none" nor below LTN (R77). -/
def badIndex (ltn i : Nat) : Bool := i != 0xFFF && decide (ltn ≤ i)

/-- Check 0x17 of a packet (R81). -/
def packetOk (p : BitVec 512) (ltn : Nat) : Bool :=
  let n := p.toNat
  decide (packType p ≤ 1) && n / 2 ^ 320 == 0 && bitsOf n 64 40 == 0 && bitsOf n 6 10 == 0 && bitsOf n 2 2 == 0
    && !p.getLsbD 255 && !p.getLsbD 319 && decide (1 ≤ packTeams p) && decide (packTeams p < 2 ^ 40)
    && !([packDesc p, packParam p, packDep p 0, packDep p 1, packSig p, packXrec p].any (badIndex ltn))
    && (packType p == 0 || packDesc p != 0xFFF)

/-- The tests of check 0x18 for one word (R81). -/
def wordCap (c : Cap) (perm n : Nat) : Bool := (capCheck c c.addr n perm).isNone && c.addr.toNat % n == 0

/-- An index that names an entry which fails the tests. -/
def badEntry (c : Option Cap) (perm n : Nat) : Bool := match c with | some c => !wordCap c perm n | none => false

/-! Descriptors (R24 to R27). -/

/-- A placement entry of a descriptor (R25): kind, register. -/
def descPlace (d : BitVec 2048) (i : Nat) : Nat × Nat := (descField d (1216 + 32 * i + 30) 2, descField d (1216 + 32 * i + 19) 11)
/-- The used placements: index, kind, register. -/
def descPlaces (d : BitVec 2048) : List (Nat × Nat × Nat) :=
  ((List.range 26).map fun i => (i, descPlace d i)).filter fun x => x.2.1 != 0
def descChan (d : BitVec 2048) (j : Nat) : Nat := descField d (1088 + 8 * j) 8
def descSlots (d : BitVec 2048) (n : Nat) : Nat := descField d (832 + 8 * n) 8
/-- The cords that channels name (R26). -/
def descChans (d : BitVec 2048) : List Nat := ((List.range 16).map (descChan d)).filterMap fun b => if 128 ≤ b then some (b % 32) else none
def descGroups (d : BitVec 2048) : Nat := descField d 789 6
def descRegs (d : BitVec 2048) : Nat := descField d 629 11
def descWidth (d : BitVec 2048) : Nat := 16 * 2 ^ descField d 627 2
def descRick (d : BitVec 2048) : Nat := descField d 614 4
def descWorld (d : BitVec 2048) : Nat := descField d 610 4
def descTscr (d : BitVec 2048) : Nat := descField d 795 11
def descPool (d : BitVec 2048) : Nat × Nat × Nat := (descField d 693 11, descField d 682 11, descField d 671 11)
/-- Bytes of the register store that a team takes (R30). -/
def descRegBytes (d : BitVec 2048) : Nat := descGroups d * descRegs d * 4 * descWidth d
/-- KiB of the accumulator store that a team takes (R30). -/
def descAcc (d : BitVec 2048) : Nat := descField d 606 4 * (if descField d 605 1 = 1 then 32 else 64)
def descStack (d : BitVec 2048) : Nat := descField d 655 16
def descCap (d : BitVec 2048) (tags : BitVec 4) (i : Nat) : Cap := ⟨d.extractLsb' (128 * i) 128, tags.getLsbD i⟩

/-- A capability that is tagged, of memory kind, unsealed, with permissions, over `n` bytes from an address. -/
def covers (c : Cap) (perm a n : Nat) : Bool :=
  (capCheckUse c perm).isNone && decide ((capDecode c).1 ≤ a) && decide (a + n ≤ (capDecode c).2)

/-- The registers that placements and the stack write (R27, check 0x15): scalars, then vector registers above 128. -/
def placeRegs (d : BitVec 2048) : List Nat :=
  ((descPlaces d).flatMap fun x =>
    if x.2.1 = 1 then [x.2.2] else if x.2.1 = 2 then [x.2.2, x.2.2 + 1] else (List.range 4).map fun j => 128 + x.2.2 + j)
    ++ (if descStack d = 0 then [] else (List.range 4).map fun j => 128 + descField d 644 11 + j)

/-- Reserved fields and unused bytes (R27, check 0x03). -/
def descRsvOk (d : BitVec 2048) : Bool :=
  [(768, 21), (704, 36), (640, 4), (576, 29), (544, 8)].all (fun x => descField d x.1 x.2 == 0)
    && (List.range 26).all (fun i => if (descPlace d i).1 = 0 then descField d (1216 + 32 * i) 32 == 0 else descField d (1216 + 32 * i) 19 == 0)
    && (List.range 16).all fun j => if descChan d j < 128 then descChan d j == 0 else bitsOf (descChan d j) 5 2 == 0

/-- KSLOTS are 1 to 64 in an unbroken run from k0 (R27, check 0x0D). -/
def descSlotsOk (d : BitVec 2048) : Bool :=
  let n := ((List.range 32).map (descSlots d)).findIdx fun v => v == 0
  (List.range 32).all fun i => if i < n then decide (descSlots d i ≤ 64) else descSlots d i == 0

/-- Check 0x13 but its block entry (R27). -/
def stackShape (d : BitVec 2048) (param : Cap) : Bool :=
  let q := descField d 644 11
  descStack d % 16 == 0 && q % 4 == 0 && decide (q + 3 < descRegs d) && covers param (permLD + permLC) (param.addr.toNat + 416) 16

/-- Check 0x13, the stack entry (R27, R35): it covers every stack of the launch from its base. -/
def stackEntryOk (d : BitVec 2048) (teams : Nat) (e : Cap) : Bool :=
  !e.grants permGL && covers e (permLD + permST + permLC + permSC) (capDecode e).1 (teams * descGroups d * descWidth d * descStack d)

/-- The checks of a descriptor after 0x01, in order (R27): the first that fails. -/
def descChecks (d : BitVec 2048) (tags : BitVec 4) (param stack : Cap) (teams worlds : Nat) : List (Nat × Bool) :=
  let code := descCap d tags 0
  let rec_ := descCap d tags 2
  let land := descCap d tags 3
  let (re, se, le) := descPool d
  let last := ((descPlaces d).getLast?.map fun x => x.1 + 1).getD 0
  [(0x02, descField d 560 16 == 0x5A4B && descField d 552 8 == 1),
   (0x03, descRsvOk d),
   (0x04, (capCheckUse code permEX).isNone && code.addr.toNat % 8 == 0),
   (0x05, covers code permEX (code.addr.toNat + 8 * descField d 512 32) 8),
   (0x06, decide (descField d 627 2 ≤ 2) && descRegs d % 8 == 0 && decide (8 ≤ descRegs d) && decide (descRegs d ≤ 1536)),
   (0x07, re % 32 == 0 && se % 32 == 0 && le % 32 == 0 && decide (re ≤ se) && decide (se + 32 ≤ le) && decide (le ≤ 1536)),
   (0x08, decide (1 ≤ descGroups d) && decide (descGroups d ≤ 32) && decide (descRegBytes d ≤ re * 1024) && decide (descTscr d ≤ se - re)),
   (0x09, decide (1 ≤ descField d 618 9) && decide (descField d 618 9 ≤ 256)),
   (0x0A, decide (1 ≤ descRick d) && decide (descRick d ≤ 12) && teams % descRick d == 0),
   (0x0B, worlds.testBit (descWorld d)),
   (0x0C, decide (descField d 606 4 ≤ if descField d 605 1 = 1 then 8 else 4)),
   (0x0D, descSlotsOk d),
   (0x0E, (descChans d).all (fun n => descSlots d n != 0) && decide (descChans d).Nodup),
   (0x0F, descField d 819 13 == 0 || covers rec_ permLD rec_.addr.toNat (32 * descField d 819 13)),
   (0x10, descField d 806 13 == 0 || covers land permLD land.addr.toNat (8 * descField d 806 13)),
   (0x11, last == 0 || covers param (permLD + permLC) param.addr.toNat (16 * last)),
   (0x12, (descPlaces d).all fun x =>
      if x.2.1 = 1 then decide (1 ≤ x.2.2) && decide (x.2.2 ≤ 127)
      else if x.2.1 = 2 then x.2.2 % 2 == 0 && decide (2 ≤ x.2.2) && decide (x.2.2 ≤ 126)
      else x.2.2 % 4 == 0 && decide (x.2.2 + 3 < descRegs d)),
   (0x13, descStack d == 0 || (stackShape d param && stackEntryOk d teams stack)),
   (0x14, descField d 740 8 != 0 && decide (descField d 764 4 ≤ 1) && decide (descField d 760 4 ≤ 1) && decide (descField d 756 4 ≤ 1)
      && decide (descField d 752 4 ≤ 1) && descField d 748 4 == 0),
   (0x15, decide (placeRegs d).Nodup),
   (0x16, decide (descAcc d ≤ 256) && decide (descRick d ≤ 48))]

/-- Reads a descriptor as sixteen units of 16 bytes, each whole with its tag (R29). -/
def State.readUnits (s : State) (die tenant va : Nat) : Nat → State × Option (Nat × Nat)
  | 0 => (s, some (0, 0))
  | n + 1 =>
    match distTranslate s die tenant va false with
    | (s1, .error _) => (s1, none)
    | (s1, .ok pa) =>
      if (s1.lineFault (lineOf pa)).isSome then (s1, none)
      else match State.readUnits s1 die tenant (va + 16) n with
        | (s2, none) => (s2, none)
        | (s2, some (v, t)) =>
          (s2, some (s2.visNat pa 16 + 2 ^ 128 * v, (if s2.visTag (pa / 16) then 1 else 0) + 2 * t))

/-- The descriptor checks (R27): the snapshot with PARAM and the stack entry, or the code of the first check that fails. The stack entry is kept as
check 0x13 read it, and no placement reads it again (log entry 121). -/
def State.checkDescriptor (s : State) (die tenant : Nat) (dc : Cap) (param : Option Cap) (teams : Nat) :
    State × Except Nat (BitVec 2048 × BitVec 4 × Cap × Cap) :=
  if !wordCap dc (permLD + permLC) 256 then (s, .error 0x01)
  else match s.readUnits die tenant dc.addr.toNat 16 with
    | (s1, none) => (s1, .error 0x01)
    | (s1, some (v, t)) =>
      let d := BitVec.ofNat 2048 v
      let tags := BitVec.ofNat 4 t
      let pc := param.getD (descCap d tags 1)
      let (s2, stack) := if descStack d != 0 && stackShape d pc then s1.distCap die tenant (pc.addr.toNat + 416) else (s1, Cap.null)
      match (descChecks d tags pc stack teams (s2.tenant tenant).worlds).find? fun x => !x.2 with
      | some (c, _) => (s2, .error c)
      | none => (s2, .ok (d, tags, pc, stack))

/-! PACKET_TAKE (R75 to R77, R81, R82). -/

/-- A head that no longer keeps its queue (R84): every team placed, or failed or completed. -/
def State.headFree (s : State) (q : Queue) : Bool :=
  match q.head with
  | none => true
  | some gn => match s.grid gn with
    | none => true
    | some g => g.complete || (g.readySince.isSome && g.placed == g.teams)

/-- The next packet of a queue, once its QCB and slot have been read and RIDX has been written: `error` puts the queue in ERROR,
`ok none` finds no packet. -/
def State.nextPacket (s : State) (die tenant : Nat) (q : Queue) : State × Except Unit (Option (BitVec 512 × Nat)) :=
  let qcb := q.qcb.toNat * 64
  match s.distRead die tenant qcb 64 with
  | (s1, none) => (s1, .error ())
  | (s1, some b) =>
    let size := bitsOf b 36 4
    let widx := bitsOf b 128 64
    let ridx := bitsOf b 192 64
    if b / 2 ^ 256 ≠ 0 || bitsOf b 58 6 ≠ 0 || bitsOf b 52 3 ≠ 0 || size = 0 || widx < ridx || ridx + 2 ^ size < widx then (s1, .error ())
    else if widx = ridx then (s1, .ok none)
    else match s1.distRead die tenant (bitsOf b 0 36 * 64 + 64 * (ridx % 2 ^ size)) 64 with
      | (s2, none) => (s2, .error ())
      | (s2, some p) =>
        match distTranslate s2 die tenant (qcb + 24) true with
        | (s3, .error _) => (s3, .error ())
        | (s3, .ok pa) =>
          if (s3.lineFault (lineOf pa)).isSome then (s3, .error ())
          else (s3.deviceSend .plain (writesOf pa 8 ((ridx + 1) % 2 ^ 64) ++ s3.marksOf [(pa, 8)]), .ok (some (BitVec.ofNat 512 p, b)))

/-- The grid of a taken packet, before its descriptor. -/
def packetGrid (die q tenant n : Nat) (p : BitVec 512) (sLevel : Bool) (prio : Nat) (deps : List (W64 × W64)) (sig xrec : Option Cap) : Grid where
  die := die
  queue := q
  tenant := tenant
  packet := p
  name := BitVec.ofNat 64 (die * 2 ^ 30 + n)
  desc := 0
  descTags := 0
  param := Cap.null
  deps := deps
  depsMet := []
  sig := sig.map Cap.addr
  xrec := xrec.map Cap.addr
  teams := if packType p = 0 then 0 else packTeams p
  placed := 0
  retired := 0
  nfault := 0
  readySince := none
  checked := false
  complete := false
  sLevel := sLevel
  stack := Cap.null
  prio := prio
  writes := []

/-- PACKET_CHECK (R81, R82, R27) for a packet whose queue control block reads `b`. The first packet that a die takes has n = 0 in its gridid: the count
of those taken before it (R79; log entry 132). -/
def State.checkPacket (s : State) (die q tenant : Nat) (p : BitVec 512) (b : Nat) : State :=
  let key := queueKey die q
  let ltn := bitsOf b 40 12
  let entry := fun (x : State) (i : Nat) => if badIndex ltn i then (x, none) else x.tableEntry die tenant (bitsOf b 64 64) i
  let d := s.die die
  let s0 := s.setDie die { d with gridCount := (d.gridCount + 1) % 2 ^ 30 }
  if badIndex ltn (packSig p) || badIndex ltn (packXrec p) then s0.queueFails die q tenant 1 0x17
  else
    let (s1, sig) := entry s0 (packSig p)
    let (s2, xrec) := entry s1 (packXrec p)
    if badEntry sig (permLD + permST + permAT) 8 || badEntry xrec permST 32 then s2.queueFails die q tenant 1 0x18
    else
      let (s3, dep0) := entry s2 (packDep p 0)
      let (s4, dep1) := entry s3 (packDep p 1)
      let (s5, dc) := entry s4 (packDesc p)
      let (s6, param) := entry s5 (packParam p)
      let deps := (dep0.map fun c => (c.addr, BitVec.ofNat 64 (packWait p 0))).toList ++ (dep1.map fun c => (c.addr, BitVec.ofNat 64 (packWait p 1))).toList
      let gn := s6.freshId
      let g := packetGrid die q tenant d.gridCount p (s6.queue key).sLevel (bitsOf b 56 2) deps sig xrec
      let s7 := (s6.useId.setQueue key { s6.queue key with head := some gn }).setGrid gn g
      if !packetOk p ltn then s7.rejectGrid gn 1 0x17
      else if badEntry dep0 permLD 8 || badEntry dep1 permLD 8 then s7.rejectGrid gn 1 0x18
      else if packType p = 0 then s7
      else match s7.checkDescriptor die tenant (dc.getD Cap.null) param (packTeams p) with
        | (s8, .error c) => s8.rejectGrid gn 1 c
        | (s8, .ok (desc, tags, pc, stack)) =>
          let s9 := s8.setGrid gn { g with desc := desc, descTags := tags, param := pc, stack := stack }
          -- a queue of a world that is being destroyed is stopped (R426)
          if (s9.world (descWorld desc)).st == .dying then s9.setQueue key { s9.queue key with st := .stop } else s9

/-- The addresses that a packet's turn reads: QCB, slot, launch table entries, descriptor, stack entry. -/
def State.takeReads (s : State) (die tenant : Nat) (q : Queue) : List Nat :=
  let rd := fun (va n : Nat) => ((s.distRead die tenant va n).2).getD 0
  let qcb := q.qcb.toNat * 64
  let b := rd qcb 64
  if bitsOf b 128 64 = bitsOf b 192 64 then [qcb]
  else
    let slot := bitsOf b 0 36 * 64 + 64 * (bitsOf b 192 64 % 2 ^ bitsOf b 36 4)
    let p : BitVec 512 := BitVec.ofNat 512 (rd slot 64)
    let at_ := fun (i : Nat) => (bitsOf b 64 64 + 16 * i) % 2 ^ 64
    let used := [packSig p, packXrec p, packDep p 0, packDep p 1, packDesc p, packParam p].filter fun i => decide (i < bitsOf b 40 12)
    let desc := rd (at_ (packDesc p)) 8
    let param := if packParam p = 0xFFF then rd (desc + 16) 8 else rd (at_ (packParam p)) 8
    [qcb, slot] ++ used.map at_ ++ (if packDesc p < bitsOf b 40 12 then
      [desc, desc + 128] ++ (if descStack (BitVec.ofNat 2048 (rd desc 128)) = 0 then [] else [param + 416]) else [])

/-- The first line that a read at home of some addresses waits for: one of a walk, or one of the bytes, which the host owns or which a write
of the device's agents waits to reach (R297, R295). -/
def State.hostHeld (s : State) (die tenant : Nat) (vas : List Nat) : Option Nat :=
  vas.findSome? fun va => (s.distHost die tenant va false).orElse fun _ => match (distTranslate s die tenant va false).2 with
    | .ok pa => if s.homeReadable (lineOf pa) then none else some (lineOf pa)
    | .error _ => none


/-- A step that reads lines at home is due: it waits for none, or for one that the host has not been asked for. -/
def State.askDue (s : State) (h : Option Nat) : Bool :=
  match h with
  | some ln => s.hostOwns ln && !(s.dirAt ln).bisnp
  | none => true

/-- What a packet's turn waits for: its reads, and the walk of its write to RIDX. -/
def State.takeHeld (s : State) (die tenant : Nat) (q : Queue) : Option Nat :=
  (s.hostHeld die tenant (s.takeReads die tenant q)).orElse fun _ => s.distHost die tenant (q.qcb.toNat * 64) true

/-- PACKET_TAKE (R75): only for a queue in RUN whose head has gone on; lines that the host owns are called back first. -/
def State.packetTake (s : State) (die qn : Nat) : State :=
  let key := queueKey die qn
  let q := s.queue key
  match s.queueTenant die qn with
  | none => s
  | some tenant =>
    if q.st != .run || !s.headFree q || !q.bell then s
    else match s.takeHeld die tenant q with
      | some ln => s.callBack ln
      | none =>
        match s.nextPacket die tenant q with
        | (s1, .error _) => s1.queueFails die qn tenant 1 0x17
        | (s1, .ok none) => s1.setQueue key { s1.queue key with bell := false }
        | (s1, .ok (some (p, b))) => s1.checkPacket die qn tenant p b

def execPacketTake (die q : Nat) (s : State) : Host.Outcome State Fault Refusal := .next (s.packetTake die q)

/-! Readiness (R84, R81). -/

/-- The dependence words of a head: `none` when one cannot be read; else for each whether its wait is met and whether it has ERR. -/
def State.depState (s : State) (g : Grid) : List (W64 × W64) → State × Option (List (Bool × Bool))
  | [] => (s, some [])
  | (va, w) :: r =>
    match s.distRead g.die g.tenant va.toNat 8 with
    | (s1, none) => (s1, none)
    | (s1, some v) =>
      match State.depState s1 g r with
      | (s2, none) => (s2, none)
      | (s2, some l) => (s2, some ((decide (w.toNat ≤ v % 2 ^ 63), decide (2 ^ 63 ≤ v)) :: l))

/-- The words whose waits are met now for the first time: number, ERR (R81). -/
def Grid.newlyMet (g : Grid) (ws : List (Bool × Bool)) : List (Nat × Bool) :=
  (ws.zipIdx.filter fun x => x.1.1 && !g.depsMet.contains x.2).map fun x => (x.2, x.1.2)

/-- BARRIER (R78): every earlier packet of the queue has completed. -/
def State.earlierDone (s : State) (gn : Nat) (g : Grid) : Bool :=
  !packBarrier g.packet || s.grids.all fun x => decide (gn ≤ x.1) || x.2.die != g.die || x.2.queue != g.queue || x.2.complete

/-! Fitting (R30 to R33, R88). -/

/-- Snake position `p` of a cluster (R88). -/
def snakeCore (cluster p : Nat) : Nat := 48 * cluster + 8 * (p / 8) + (if p / 8 % 2 = 0 then p % 8 else 7 - p % 8)
/-- The cores of a run of `n` positions from `st`. -/
def snakeRun (cluster st n : Nat) : List Nat := (List.range n).map fun i => snakeCore cluster (st + i)
/-- The starts of runs of `n` positions. -/
def snakeStarts (n : Nat) : List Nat := (List.range 48).filter fun st => decide (st + n ≤ 48)

/-- A core of the lease that could hold a team of the kernel if it were empty (R30, R249, R81). -/
def State.couldFit (s : State) (tenant : Nat) (d : BitVec 2048) (core : Nat) : Bool :=
  (s.tenant tenant).lease.contains core && decide ((descPool d).2.2 ≤ (s.core core).poolTop)

/-- Groups that stand on a quadrant. -/
def Core.quadGroups (k : Core) (q : Nat) : Nat :=
  (k.teams.flatMap fun st => st.2.groups.filter fun kg => quadOf st.1 kg.1 == q).length

/-- The slot that a team of a kernel takes on a core, if it fits (R30, R32, R86); the lowest one. `free` is the number of FREE hearth entries
that a rekindled image needs (R246); `for_` is the grid that a reservation may stand for. -/
def State.fitSlot (s : State) (tenant : Nat) (d : BitVec 2048) (core free : Nat) (for_ : Option Nat) : Option Nat :=
  let k := s.core core
  let sum := fun (f : BitVec 2048 → Nat) => k.teams.foldl (fun n st => n + f st.2.desc) 0
  if !s.couldFit tenant d core || (s.die (dieOf core)).fatal || k.noNewTeam || k.leaving || (match k.reserved with | some g => some g != for_ | none => false) then none
  else if !k.teams.isEmpty && (k.pool != some (descPool d) || k.world != descWorld d) then none
  else if 256 < k.hearth.length + free then none
  else if (descPool d).1 * 1024 < sum descRegBytes + descRegBytes d || (descPool d).2.1 - (descPool d).1 < sum descTscr + descTscr d
      || 256 < sum descAcc + descAcc d then none
  else (List.range 32).find? fun sl => (NMap.find k.teams sl).isNone
    && (List.range 4).all fun q => decide (k.quadGroups q + ((List.range (descGroups d)).filter fun g => quadOf sl g == q).length ≤ 48)

/-- Resident groups of a core. -/
def Core.nGroups (k : Core) : Nat := (k.teams.flatMap fun st => st.2.groups).length

/-- The cores of a die in order of cluster and number. -/
def dieCores (die : Nat) : List Nat := (List.range 144).map fun c => 144 * die + c

/-- The fitting core of a die with the fewest resident groups; ties go to the lower number (R87). -/
def State.chooseCore (s : State) (tenant : Nat) (d : BitVec 2048) (die free : Nat) (for_ : Option Nat) : Option (Nat × Nat) :=
  let cand := (dieCores die).filterMap fun c => (s.fitSlot tenant d c free for_).map fun sl => (c, sl)
  firstBy (fun a b => decide ((s.core a.1).nGroups < (s.core b.1).nGroups)
    || ((s.core a.1).nGroups == (s.core b.1).nGroups && decide (a.1 < b.1))) cand

/-- A run of a cluster that fits whole (R89). -/
def State.runFits (s : State) (gn : Nat) (g : Grid) (cores : List Nat) : Bool :=
  cores.all fun c => (s.fitSlot g.tenant g.desc c 0 (some gn)).isSome

/-- The run for a direct placement: the lowest start in the lowest cluster of the die (R89). -/
def State.directRun (s : State) (gn : Nat) (g : Grid) : Option (List Nat) :=
  (List.range 3).findSome? fun j =>
    ((snakeStarts (descRick g.desc)).map fun st => snakeRun (3 * g.die + j) st (descRick g.desc)).find? (s.runFits gn g)

/-- Check 0x1A (R81). -/
def State.leaseHolds (s : State) (g : Grid) : Bool :=
  (List.range 3).any fun j => (snakeStarts (descRick g.desc)).any fun st =>
    (snakeRun (3 * g.die + j) st (descRick g.desc)).all (s.couldFit g.tenant g.desc)

/-- The addresses of the dependence words. -/
def Grid.depVas (g : Grid) : List Nat := g.deps.map fun d => d.1.toNat

/-- DEPENDENCE_REEVAL (R84): the head's dependence words are read; ERR is tested as each word's wait is met (R81), and once all waits are met
the head signals or becomes ready. -/
def State.dependenceReeval (s : State) (die qn : Nat) : State :=
  let key := queueKey die qn
  match (s.queue key).head.bind fun gn => (s.grid gn).map fun g => (gn, g) with
  | none => s
  | some (gn, g) =>
    if (s.queue key).st != .run || g.complete || g.readySince.isSome then s
    else match s.hostHeld g.die g.tenant g.depVas with
      | some ln => s.callBack ln
      | none =>
        match s.depState g g.deps with
        | (s1, none) => s1.rejectGrid gn 1 0x18
        | (s1, some ws) =>
          let fresh := g.newlyMet ws
          let g1 := { g with depsMet := g.depsMet ++ fresh.map Prod.fst }
          if packWaitErr g.packet && fresh.any Prod.snd then s1.rejectGrid gn 2 0x19
          else if !ws.all Prod.fst || !s1.earlierDone gn g then s1.setGrid gn g1
          else if packType g.packet = 0 then s1.completeGrid gn
          else if !s1.leaseHolds g then s1.rejectGrid gn 1 0x1A
          else (s1.setGrid gn { g1 with readySince := some s.cycle, checked := true }).setQueue key { s1.queue key with since := s.cycle }

def execDependenceReeval (die q : Nat) (s : State) : Host.Outcome State Fault Refusal := .next (s.dependenceReeval die q)

/-- A waiting head that a re-evaluation would move on: read without the marks that a walk leaves. -/
def State.reevalDue (s : State) (gn : Nat) (g : Grid) : Bool :=
  let held := s.hostHeld g.die g.tenant g.depVas
  !g.complete && g.readySince.isNone && s.askDue held
    && (held.isSome || (match (s.depState g g.deps).2 with
      | none => true
      | some ws => !(g.newlyMet ws).isEmpty || (ws.all Prod.fst && s.earlierDone gn g)))

/-! LAUNCH (R94). -/

/-- QueueWithQCB: the queue whose control block lies at an address; a queue that is OFF is none (R74, R94). Where several have that address, the
first by die and number is it, whichever tenant's it is (log entry 121). -/
def State.queueWithQcb (s : State) (a : W64) : Option Nat := (s.queues.find? fun x => x.2.st != .off && x.2.qcb.toNat * 64 == a.toNat).map Prod.fst

/-- The text of LAUNCH. -/
def launchWord (q p d : Nat) (c : Ctx) (s : State) : WordOut :=
  if q % 2 ≠ 0 || p % 8 ≠ 0 || p < 8 || 120 < p then .trap s .reservedField 0 c.p.lanes
  else guardW (c.checkScalars (pairRegs q ++ d :: (List.range 8).map fun j => p + j)) c 0 s <|
    let k := c.g.sc q
    match capCheck k k.addr 64 (permST + permAT) with
    | some f => .trap s f k.addr c.p.lanes
    | none =>
      match (s.queueWithQcb k.addr).filter fun key => s.queueTenant (key / 256) (key % 256) == some c.team.tenant with
      | none => .trap s .capPerm k.addr c.p.lanes
      | some key =>
        if !(c.fenceWaits 3).isEmpty then .hold s ⟨c.fenceWaits 3, true, false⟩ []
        else
          let id := s.freshId
          let l := { c.mkLate id (.launch key ((List.range 8).map fun j => c.g.s (p + j)) false) [] with
            sdests := if d = 0 then [] else [d], stamp := some (s.core c.core).seqNext }
          let s1 := s.useId.releaseFenceAt c.core 3
          .hold (s1.modGroup c.gid fun g => { (g.stretch.emptyS d) with lates := g.lates ++ [l] }) ⟨[.lateDone id], false, false⟩ []

def execLaunch (q p d : SReg) (s : State) : Host.Outcome State Fault Refusal := runStretch 0 (launchWord q.toNat p.toNat d.toNat) s

end Sys2Proof.Machine
end

