-- ==== Sys2Proof/Machine/Tags.lean ====
section
/-! DEFINITION. What a debarking sweep clears in place (spec/03, R56 to R58): everything of a core or a grid that holds tags. -/
namespace Sys2Proof.Machine

/-- A capability whose tag a test refuses. -/
def Cap.swept (bad : Cap → Bool) (c : Cap) : Cap := if c.tag && bad c then { c with tag := false } else c

/-- The capabilities that a late LDC has read and not yet written to a register. -/
def Late.swept (bad : Cap → Bool) (l : Late) : Late :=
  let one := fun (r : LaneReq) =>
    if r.gtag == some true && bad ⟨BitVec.ofNat 128 (leNat (r.bytes.map fun b => b.val.getD 0)), true⟩ then { r with gtag := some false } else r
  match l.kind with
  | .loadCap _ => { l with reqs := l.reqs.map one }
  | _ => l

/-- Tags of a register file, of what is on its way there, and of the code capabilities of a group, that a test refuses are cleared (R57, R58). -/
def Group.sweepTags (g : Group) (bad : Cap → Bool) : Group :=
  let qt := g.qtags.map fun x => (x.1, lanesMask ((lanesOf 64 x.2).filter fun l => !bad { bits := (g.quad (4 * x.1) l).bits, tag := true }))
  let ovf := fun (o : Overflow) => { o with code := o.code.swept bad }
  let rec_ := fun (r : Record) => { r with code := r.code.swept bad }
  let sp := fun (m : NMap Split) => m.map fun kp => (kp.1, { kp.2 with code := kp.2.code.swept bad })
  { g with
    qtags := qt
    splits := sp g.splits
    shadow := sp g.shadow
    overflow := g.overflow.map ovf
    shadowOverflow := g.shadowOverflow.map ovf
    stopped := g.stopped.map rec_
    pending := g.pending.map rec_
    shadowPending := g.shadowPending.map rec_
    nested := g.nested.map rec_
    nestedPending := g.nestedPending.map rec_
    lates := g.lates.map (Late.swept bad)
    sTags := g.sTags.filter fun r => !bad (g.sc (2 * r)) }

def OpMap.swept (bad : Cap → Bool) (m : OpMap) : OpMap := { m with glob := m.glob.map (Cap.swept bad) }
def MatOp.swept (bad : Cap → Bool) (op : MatOp) : MatOp :=
  { op with kind := match op.kind with
    | .zero => .zero
    | .load g off rs => .load (g.map (Cap.swept bad)) off rs
    | .loop a b n r => .loop (a.swept bad) (b.swept bad) n r
    | .drain d mo se sv am sys => .drain (d.swept bad) mo se sv (am.map (Cap.swept bad)) sys }
def CopyCmd.swept (bad : Cap → Bool) (x : CopyCmd) : CopyCmd := { x with src := x.src.swept bad, dst := x.dst.swept bad }

/-- The tags of a descriptor's capabilities that a test leaves. -/
def sweptDesc (bad : Cap → Bool) (d : BitVec 2048) (tags : BitVec 4) : BitVec 4 :=
  (List.range 4).foldl (fun m i => if m.getLsbD i && bad ⟨d.extractLsb' (128 * i) 128, true⟩ then m &&& ~~~(1#4 <<< i) else m) tags

/-- What a grid keeps for its teams (R58). -/
def Grid.swept (g : Grid) (bad : Cap → Bool) : Grid :=
  { g with descTags := sweptDesc bad g.desc g.descTags, param := g.param.swept bad, stack := g.stack.swept bad }

/-- Everything of a team that holds tags (R57, R58). -/
def Team.swept (t : Team) (bad : Cap → Bool) : Team :=
  { t with
    descTags := sweptDesc bad t.desc t.descTags
    groups := t.groups.map fun kg => (kg.1, kg.2.sweepTags bad)
    maps := t.maps.map fun km => (km.1, km.2.swept bad)
    cmds := t.cmds.map (CopyCmd.swept bad)
    residues := t.residues.map (CopyCmd.swept bad)
    ring := t.ring.map fun r => { r with
      table := r.table.swept bad
      shadows := r.shadows.map fun x => (x.1, (x.2.1.swept bad, x.2.2.swept bad)) } }

/-- An entry's granules that hold a capability a test refuses lose their tags. -/
def Entry.swept (e : Entry) (bad : Cap → Bool) : Entry := { e with tags := sweptTags bad e.data e.tags }

/-- The test that a sweep makes on a core (R56). -/
def State.revokedOn (s : State) (tenant core : Nat) (c : Cap) : Bool := c.tag && !(s.sweepFilter tenant core c).tag

end Sys2Proof.Machine
end

