-- ==== Sys2Proof/Machine/Placement.lean ====
section
/-! DEFINITION. Placing teams and ricks, reservations, retirement (spec/04, R85 to R92; spec/02, R30 to R36; spec/20, R405). -/
namespace Sys2Proof.Machine

/-! The state in which a team begins (R35, R36). -/

/-- The block entries of a descriptor's placements, read at placement (R35, R446). -/
def State.readPlaces (s : State) (g : Grid) : List (Nat × Nat × Nat) → State × List (Nat × Nat × Cap)
  | [] => (s, [])
  | (i, kind, reg) :: r =>
    let (s1, c) := s.distCap g.die g.tenant ((g.param.addr.toNat + 16 * i) % 2 ^ 64)
    let (s2, cs) := State.readPlaces s1 g r
    (s2, (kind, reg, c) :: cs)

/-- What a placement's reads wait for (R35, R297). -/
def State.placeHeld (s : State) (g : Grid) : Option Nat :=
  s.hostHeld g.die g.tenant ((descPlaces g.desc).map fun x => (g.param.addr.toNat + 16 * x.1) % 2 ^ 64)

/-- One placement applied to a group (R35). -/
def Group.place (g : Group) (width : Nat) (x : Nat × Nat × Cap) : Group :=
  let (kind, reg, c) := x
  if kind = 1 then g.setS reg (c.bits.extractLsb' 0 64)
  else if kind = 2 then g.setSc reg c
  else (List.range 4).foldl (fun y j => y.setV (reg + j) ⟨.route, true, List.replicate width (c.bits.extractLsb' (32 * j) 32)⟩) g

/-- The stack capability of lane `l` of group `gi` of team `t` (R35). -/
def stackCap (d : BitVec 2048) (stack : Cap) (t gi l : Nat) : Cap :=
  let sz := descStack d
  let base := (capDecode stack).1 + t * descGroups d * descWidth d * sz + (gi * descWidth d + l) * sz
  capNarrow stack base sz (permLD + permST + permLC + permSC) (BitVec.ofNat 64 (base + sz))

/-- The stacks of a group (R35). -/
def Group.placeStack (g : Group) (d : BitVec 2048) (stack : Cap) (t gi : Nat) : Group :=
  if descStack d = 0 then g
  else
    let q := descField d 644 11
    let caps := (List.range (descWidth d)).map fun l => stackCap d stack t gi l
    let g1 := (List.range 4).foldl (fun y j => y.setV (q + j) ⟨.cap, true, caps.map fun c => c.bits.extractLsb' (32 * j) 32⟩) g
    (List.range (descWidth d)).foldl (fun y l => y.setQTag q l stack.tag) g1

/-- Group `gi` of a team as it begins (R35): one split with every lane at the entry clause, then the placements; its fetches see memory as it
is now (R100; log entry 119). -/
def startGroup (g : Grid) (code_ : List Host.Cell) (places : List (Nat × Nat × Cap)) (t gi cycle : Nat) : Group :=
  let code := descCap g.desc g.descTags 0
  let pc := code.addr + BitVec.ofNat 64 (8 * descField g.desc 512 32)
  let w := descWidth g.desc
  let g0 := { Group.fresh with code := code_, splits := [(0, Split.boundAt pc (widthMask w) code .none_ cycle)] }
  (places.foldl (fun x p => x.place w p) g0).placeStack g.desc g.stack t gi

/-- The cords of a team as it begins (R36, R26, R316). -/
def startCords (d : BitVec 2048) : NMap Cord :=
  ((List.range 32).filter fun n => descSlots d n != 0).map fun n =>
    (n, { n := descSlots d n, ch := (descChans d).contains n, wp := 0, rp := 0, slots := [], waiters := [] })

/-- A team as it begins (R36). -/
def startTeam (g : Grid) (gn : Nat) (code_ : List Host.Cell) (places : List (Nat × Nat × Cap)) (t incn cycle : Nat) : Team where
  tenant := g.tenant
  grid := gn
  index := t
  desc := g.desc
  descTags := g.descTags
  incn := incn
  sLevel := g.sLevel
  groups := (List.range (descGroups g.desc)).map fun gi => (gi, startGroup g code_ places t gi cycle)
  scratch := []
  cords := startCords g.desc
  barriers := []
  barr := .fresh
  tiles := []
  maps := []
  ring := none
  cmds := []
  residues := []
  reclim := descField g.desc 618 9
  banking := none
  killed := false

/-- WORLD_LATCH_CHANGE (R421): the core's L1 and TLB are dropped, its stores are zero; the hearth of a core without teams is empty (R247). -/
def Core.latch (k : Core) (w : Nat) : Core := { k with world := w, l1 := [], tlb := [] }

/-- A core takes a first team: its latch and its pool boundaries (R86, R31, R219). -/
def Core.open_ (k : Core) (d : BitVec 2048) : Core :=
  if !k.teams.isEmpty then k
  else
    let k1 := if k.world = descWorld d then k else k.latch (descWorld d)
    if k1.pool = some (descPool d) then k1 else { k1 with pool := some (descPool d), l1 := [] }

/-- Places the next team of a grid in a slot (R87, R35, R402: the queue's timer restarts). -/
def State.placeTeam (s : State) (gn core slot : Nat) : State :=
  match s.grid gn with
  | none => s
  | some g =>
    let (s1, places) := s.readPlaces g (descPlaces g.desc)
    let s2 := s1.modCore core fun k => k.open_ g.desc
    let t0 := startTeam g gn s2.mem places g.placed (s2.incn core slot) s.cycle
    -- what a sweep that has passed the core revokes enters it without its tag (R56, R58)
    let t := if (s2.tenant g.tenant).sweep.isSome then t0.swept (s2.revokedOn g.tenant core) else t0
    let key := queueKey g.die g.queue
    ((s2.setTeam core slot t).setGrid gn { g with placed := g.placed + 1 }).setQueue key { s2.queue key with elapsed := 0, since := s.cycle }

/-! Ranking (R85). -/

/-- The effective priority of a ready head. -/
def Grid.rank (g : Grid) (cycle : Nat) : Nat := g.prio - (cycle - g.readySince.getD cycle) / 65536

/-- A grid that is under placement: its queue runs, no expiry of it is under way (R407), and it is the ready head. -/
def State.placing (s : State) (gn : Nat) (g : Grid) : Bool :=
  let q := s.queue (queueKey g.die g.queue)
  q.st == .run && q.escalation == 0 && q.head == some gn && g.readySince.isSome && !g.complete && decide (g.placed < g.teams)

/-- The order of R85. -/
def rankLt (cycle : Nat) (a b : Nat × Grid) : Bool :=
  let x := (a.2.rank cycle, a.2.readySince.getD 0, a.2.queue)
  let y := (b.2.rank cycle, b.2.readySince.getD 0, b.2.queue)
  decide (x.1 < y.1) || (x.1 == y.1 && (decide (x.2.1 < y.2.1) || (x.2.1 == y.2.1 && decide (x.2.2 < y.2.2))))

/-- Puts an element into a list that a strict order sorts. -/
def insertLt {α : Type} (lt : α → α → Bool) (x : α) : List α → List α
  | [] => [x]
  | y :: r => if lt x y then x :: y :: r else y :: insertLt lt x r

/-- The heads of a die that may place teams, best first; at most 8 (R85). -/
def State.ranked (s : State) (die : Nat) : List (Nat × Grid) :=
  ((s.grids.filter fun x => x.2.die == die && s.placing x.1 x.2).foldl (fun l x => insertLt (rankLt s.cycle) x l) []).take 8

/-! Reservations (R89, R90). -/

def ClusterState.fresh : ClusterState := ⟨none, 0, [], none⟩
def State.cluster (s : State) (c : Nat) : ClusterState := NMap.getD s.clusters c ClusterState.fresh
def State.setCluster (s : State) (c : Nat) (x : ClusterState) : State := { s with clusters := NMap.set s.clusters c x }

/-- Cycles that a reservation lasts, and that the pause after it lasts (R90). -/
def reservationCycles : Nat := 2 ^ 20

/-- A grid has a reservation somewhere. -/
def State.reserves (s : State) (gn : Nat) : Bool := s.clusters.any fun x => match x.2.reservation with | some r => r.grid == gn | none => false

/-- A reservation that starts again goes on in the window of the one that was withdrawn, so that cores are held for at most 2^20 cycles of any 2^21
(R89, R90): the pause follows that window. -/
def ClusterState.windowOpen (x : ClusterState) (cycle : Nat) : Bool :=
  match x.restart with
  | some t => decide (cycle < t + reservationCycles) || decide (t + 2 * reservationCycles ≤ cycle)
  | none => true

/-- When a reservation that begins now has begun. -/
def ClusterState.begins (x : ClusterState) (cycle : Nat) : Nat :=
  match x.restart with
  | some t => if cycle < t + reservationCycles then t else cycle
  | none => cycle

/-- A cluster takes a new reservation of a grid: of one whose reservation it has released, only while the grid ranks first (R90). -/
def State.mayReserve (s : State) (gn c : Nat) : Bool :=
  let x := s.cluster c
  x.reservation.isNone && decide (x.pauseUntil ≤ s.cycle) && x.windowOpen s.cycle && (!x.released.contains gn || ((s.ranked (c / 3)).head?.map Prod.fst) == some gn)

/-- The run that a reservation takes (R89): the fewest occupied cores, then the lowest start. -/
def State.reserveRun (s : State) (g : Grid) (cluster n : Nat) : Option (List Nat) :=
  let runs := ((snakeStarts n).map fun st => snakeRun cluster st n).filter fun r => r.all fun c =>
    s.couldFit g.tenant g.desc c && !(s.core c).noNewTeam && !(s.core c).leaving && (s.core c).reserved.isNone
  let occ := fun (r : List Nat) => (r.filter fun c => !(s.core c).teams.isEmpty).length
  firstBy (fun a b => decide (occ a < occ b)) runs

/-- Reserves a run for a grid. -/
def State.reserve (s : State) (gn cluster n : Nat) : State :=
  match s.grid gn with
  | none => s
  | some g =>
    if !s.placing gn g || !s.mayReserve gn cluster || s.reserves gn || cluster / 3 != g.die then s
    else match s.reserveRun g cluster n with
      | none => s
      | some cores =>
        let s1 := s.setCluster cluster { s.cluster cluster with
          reservation := some ⟨gn, cores, (s.cluster cluster).begins s.cycle⟩
          restart := none }
        cores.foldl (fun x c => x.modCore c fun k => { k with reserved := some gn }) s1

/-- How a reservation ends (R89, R90): filled, released unfilled, or withdrawn to start again. -/
inductive ResEnd where
  | filled | released | withdrawn
  deriving DecidableEq, Repr

/-- A reservation ends; filled or released, the cluster then accepts none for 2^20 cycles (R90). A withdrawn one starts again at the next scan of the
ready heads, which may take another run or cluster for it, or another packet's reservation here first; its 2^20 cycles run on (R89; log entry 134). -/
def State.endReservation (s : State) (cluster : Nat) (how : ResEnd) : State :=
  match (s.cluster cluster).reservation with
  | none => s
  | some r =>
    let s1 := r.cores.foldl (fun x c => x.modCore c fun k => { k with reserved := if k.reserved = some r.grid then none else k.reserved }) s
    let x := s.cluster cluster
    s1.setCluster cluster ⟨none, if how == .withdrawn then x.pauseUntil else s.cycle + reservationCycles,
      if how == .released then x.released.filter (fun n => n != r.grid && (s.grid n).isSome) ++ [r.grid] else x.released,
      if how == .withdrawn then some r.since else none⟩

/-- The cluster in which a grid holds a reservation, and its cores. -/
def State.reservedRun (s : State) (gn : Nat) : Option (Nat × List Nat) :=
  s.clusters.findSome? fun x => match x.2.reservation with | some r => if r.grid = gn then some (x.1, r.cores) else none | none => none

/-- A reservation of a run that has served: it ends once a team of it is placed. -/
def State.endFilled (s : State) (gn : Nat) : State :=
  match s.reservedRun gn with
  | some (c, _) => s.endReservation c .filled
  | none => s

/-! The steps. -/

/-- TEAM_PLACE (R86, R87), the distributor's turn for a grid: writes of the grid that waited for a walk go on (R446); else the next team of a grid that
is no rick. A reservation of the grid is filled by that, whichever core the team takes
(R90; log entry 121). -/
def State.teamPlace (s : State) (gn : Nat) : State :=
  match s.grid gn with
  | none => s
  | some g =>
    if !g.writes.isEmpty then (s.gridFlush gn g.writes).dropGrid gn
    else if !s.placing gn g || descRick g.desc ≠ 1 then s
    else match s.placeHeld g with
    | some ln => s.callBack ln
    | none => match s.chooseCore g.tenant g.desc g.die 0 (some gn) with
      | none => s
      | some (c, sl) => (s.placeTeam gn c sl).endFilled gn

def execTeamPlace (grid : Nat) (s : State) : Host.Outcome State Fault Refusal := .next (s.teamPlace grid)

/-- The run that a rick takes now: its reserved one once it fits, else a direct one (R89). -/
def State.rickRun (s : State) (gn : Nat) (g : Grid) : Option (List Nat) :=
  match s.reservedRun gn with
  | some (_, cores) => if s.runFits gn g cores then some cores else none
  | none => s.directRun gn g

/-- RICK_PLACE (R88, R89): every member of a rick is written and committed within this one step. -/
def State.rickPlace (s : State) (gn : Nat) : State :=
  match s.grid gn with
  | none => s
  | some g =>
    if !s.placing gn g || descRick g.desc ≤ 1 then s
    else match s.placeHeld g with
    | some ln => s.callBack ln
    | none => match s.rickRun gn g with
      | none => s
      | some cores =>
        (cores.foldl (fun x c => match x.fitSlot g.tenant g.desc c 0 (some gn) with | some sl => x.placeTeam gn c sl | none => x) s).endFilled gn

def execRickPlace (grid : Nat) (s : State) : Host.Outcome State Fault Refusal := .next (s.rickPlace grid)

/-- RICK_RESERVE (R89, R90): a rick that fits nowhere reserves a run. -/
def State.rickReserve (s : State) (gn cluster : Nat) : State :=
  match s.grid gn with
  | some g => if descRick g.desc ≤ 1 || (s.directRun gn g).isSome then s else s.reserve gn cluster (descRick g.desc)
  | none => s

def execRickReserve (grid cluster : Nat) (s : State) : Host.Outcome State Fault Refusal := .next (s.rickReserve grid cluster)

/-- RICK_WITHDRAW (R89): a reserved core has left the lease or met MACHINE_CHECK; the reservation starts again. No member of a rick is
ever written ahead of its commit, so no member is withdrawn. -/
def execRickWithdraw (cluster : Nat) (s : State) : Host.Outcome State Fault Refusal := .next (s.endReservation cluster .withdrawn)

/-- A reservation has no use any more: its grid has failed, completed or gone. -/
def State.reservationIdle (s : State) (r : Reservation) : Bool := match s.grid r.grid with | some g => g.complete | none => true

/-- RESERVATION_TIMEOUT (R90): a reservation that was not filled in time, or whose grid has ended, is released. -/
def State.reservationTimeout (s : State) (cluster : Nat) : State :=
  match (s.cluster cluster).reservation with
  | some r => if r.since + reservationCycles ≤ s.cycle || s.reservationIdle r then s.endReservation cluster .released else s
  | none => s

def execReservationTimeout (cluster : Nat) (s : State) : Host.Outcome State Fault Refusal := .next (s.reservationTimeout cluster)

/-- RESERVATION_PAUSE_END (R90): the cluster accepts reservations again. -/
def State.pauseEnd (s : State) (cluster : Nat) : State :=
  let x := s.cluster cluster
  if x.pauseUntil ≤ s.cycle then s.setCluster cluster { x with pauseUntil := 0 } else s

def execReservationPauseEnd (cluster : Nat) (s : State) : Host.Outcome State Fault Refusal := .next (s.pauseEnd cluster)

/-- The head of the ranking, no rick, has placed no team for 2^20 cycles (R90). -/
def State.starves (s : State) (gn : Nat) (g : Grid) : Bool :=
  decide (descRick g.desc = 1) && ((s.ranked g.die).head?.map Prod.fst) == some gn
    && decide ((s.queue (queueKey g.die g.queue)).since + reservationCycles ≤ s.cycle)

/-- NONRICK_RESERVE (R90): it reserves one core as a rick of 1. -/
def State.nonrickReserve (s : State) (gn cluster : Nat) : State :=
  match s.grid gn with
  | some g => if s.starves gn g && (s.chooseCore g.tenant g.desc g.die 0 (some gn)).isNone then s.reserve gn cluster 1 else s
  | none => s

def execNonrickReserve (grid cluster : Nat) (s : State) : Host.Outcome State Fault Refusal := .next (s.nonrickReserve grid cluster)

/-- The cluster of a die in which a grid reserves: the one whose run has the fewest occupied cores (R89). -/
def State.reserveWhere (s : State) (gn : Nat) (g : Grid) : Option Nat :=
  let n := descRick g.desc
  let cand := ((List.range 3).map fun j => 3 * g.die + j).filterMap fun c =>
    if s.mayReserve gn c then (s.reserveRun g c n).map fun r => (c, (r.filter fun x => !(s.core x).teams.isEmpty).length) else none
  (firstBy (fun a b => decide (a.2 < b.2)) cand).map Prod.fst

/-- What the distributor of a die does for its ready heads: a head whose parameter block is with the host is passed over, and a lower-ranked one may
take a core that it fits (R85; log entry 133). -/
def State.placeDue (s : State) (die : Nat) : Option Instr :=
  (s.ranked die).findSome? fun x =>
    let (gn, g) := x
    if descRick g.desc = 1 then
      if (s.chooseCore g.tenant g.desc g.die 0 (some gn)).isSome then (if s.askDue (s.placeHeld g) then some (.teamPlace gn) else none)
      else if s.starves gn g && !s.reserves gn then (s.reserveWhere gn g).map fun c => .nonrickReserve gn c
      else none
    else if (s.rickRun gn g).isSome then (if s.askDue (s.placeHeld g) then some (.rickPlace gn) else none)
    else if s.reserves gn then none
    else (s.reserveWhere gn g).map fun c => .rickReserve gn c

/-- What the reservations of the die's clusters do. -/
def State.clusterDue (s : State) (c : Nat) : Option Instr :=
  match (s.cluster c).reservation with
  | some r =>
    if r.since + reservationCycles ≤ s.cycle || s.reservationIdle r then some (.reservationTimeout c)
    else if (match s.grid r.grid with | some g => r.cores.any fun x => !(s.tenant g.tenant).lease.contains x | none => false) then
      some (.rickWithdraw c)
    else none
  | none => if (s.cluster c).pauseUntil != 0 && decide ((s.cluster c).pauseUntil ≤ s.cycle) then some (.reservationPauseEnd c) else none

/-! Retirement (R405, R92). -/

/-- The conditions of R405 but for the hearth. -/
def Team.settled (t : Team) : Bool :=
  (t.groups.all fun kg => kg.2.hasExited && kg.2.sends.isEmpty && kg.2.p 5 == 0 && kg.2.lates.isEmpty)
    && (t.tiles.all fun x => x.2.pend == 0)
    && (t.cords.all fun kc => kc.2.slots.all fun ks => ks.2.infl == 0)
    && t.cmds.isEmpty && t.residues.isEmpty && (match t.ring with | some r => r.consumed == r.published | none => true)

/-- A team retires now (R405). -/
def State.mayRetire (s : State) (core slot : Nat) (t : Team) : Bool :=
  t.settled && (s.core core).hearth.all (fun ie => ie.2.slot != slot) && (s.core core).waiting.all fun w => w.g.slot != slot

/-- Cores that had to stay in a lease for want of a forwarding entry leave it now (R93). -/
def State.leaveCores (s : State) : State :=
  let go := (s.cores.filter fun kc => kc.2.leaving && decide (kc.2.forwards.length < 64)).map Prod.fst
  if go.isEmpty then s
  else { s with
    cores := s.cores.map fun kc => if go.contains kc.1 then (kc.1, { kc.2 with leaving := false, noNewTeam := !kc.2.teams.isEmpty }) else kc
    tenants := s.tenants.map fun kt => (kt.1, { kt.2 with lease := kt.2.lease.filter fun c => !go.contains c }) }

/-- Forwarding entries that a test picks are freed (R92). -/
def State.dropForwards (s : State) (f : Forward → Bool) : State :=
  ({ s with cores := s.cores.map fun kc => (kc.1, { kc.2 with forwards := kc.2.forwards.filter fun x => !f x.2 }) } : State).leaveCores

/-- Forwarding entries of a team that has ended are freed (R92): their items are acknowledged in the step that redirects them. -/
def State.freeForwards (s : State) (core slot incn : Nat) : State :=
  s.dropForwards fun f => !f.image && f.ncore == core && f.nslot == slot && f.nincn % 4096 == incn % 4096

/-- One team of a grid has retired; the last one completes it (R83). The queue's timer restarts (R402), unless it has expired (R407). -/
def State.teamGone (s : State) (gn : Nat) : State :=
  match s.grid gn with
  | none => s
  | some g =>
    let key := queueKey g.die g.queue
    let q := s.queue key
    let s1 := (s.setGrid gn { g with retired := g.retired + 1 }).setQueue key (if q.escalation = 0 then { q with elapsed := 0 } else q)
    if g.retired + 1 = g.teams || g.complete then s1.completeGrid gn else s1

/-- A slot is left: the incarnation rises, the team is gone (R92, R405). -/
def State.freeTeamSlot (s : State) (core slot : Nat) : State :=
  (s.bumpIncn core slot).modCore core fun k => { k with teams := NMap.del k.teams slot }

/-- TEAM_RETIRE (R405). -/
def State.teamRetire (s : State) (core slot : Nat) : State :=
  match s.team core slot with
  | none => s
  | some t => if s.mayRetire core slot t then ((s.freeTeamSlot core slot).freeForwards core slot t.incn).teamGone t.grid else s

def execTeamRetire (core slot : Nat) (s : State) : Host.Outcome State Fault Refusal := .next (s.teamRetire core slot)

/-- The first team of a core that retires. -/
def State.retireDue (s : State) (core : Nat) : Option Instr :=
  ((s.core core).teams.find? fun st => s.mayRetire core st.1 st.2).map fun st => .teamRetire core st.1

end Sys2Proof.Machine
end

