-- ==== Sys2Proof/Machine/Registers.lean ====
section
/-! DEFINITION. Writes to registers (spec/04, R74; spec/10, R244; spec/20, R402, R403; spec/22, R418; spec/23, R433, R436, R437), and the mailbox. -/
namespace Sys2Proof.Machine

/-! The state word of a queue (R74, R76, R402). -/

/-- A write of the state word: operands die, index (the queue). -/
def State.queueStateWrite (s : State) (f : Queue → Queue) : State :=
  let k := queueKey s.req.die s.req.index
  s.setQueue k (f (s.queue k))

/-- QSTATE_OFF (R74). -/
def execQstateOff (s : State) : Host.Outcome State Fault Refusal := .next (s.queueStateWrite fun q => { q with st := .off })

/-- The head of a queue that runs again becomes ready now (R84, R85). -/
def State.headAgain (s : State) (key : Nat) : State :=
  match (s.queue key).head.bind fun gn => (s.grid gn).map fun g => (gn, g) with
  | some (gn, g) => s.setGrid gn { g with readySince := g.readySince.map fun _ => s.cycle }
  | none => s

/-- QSTATE_RUN (R74): a queue in STOP or ERROR goes on; one that the watchdog has stopped counts afresh (R402), and a tenant whose
queue runs is stopped no longer (R290). -/
def State.queueRun (s : State) : State :=
  let key := queueKey s.req.die s.req.index
  let s0 := if (s.queue key).st == .run then s else s.headAgain key
  let s1 := s0.queueStateWrite fun q =>
    if q.st == .error then { q with st := .run, elapsed := 0, escalation := 0, outcome := 0, since := s.cycle }
    else if q.st == .run then q else { q with st := .run, since := s.cycle }
  match s1.queueTenant s1.req.die s1.req.index with
  | some t => s1.setTenant t { s1.tenant t with stoppedStatus := false }
  | none => s1

def execQstateRun (s : State) : Host.Outcome State Fault Refusal := .next s.queueRun

/-- QSTATE_STOP (R74). -/
def execQstateStop (s : State) : Host.Outcome State Fault Refusal := .next (s.queueStateWrite fun q => { q with st := .stop })

/-! HREARM (R244). -/

/-- A write to HREARM that names a FAULTED entry of the writer's tenant: operands core, index, tenant. -/
def State.onFaulted (s : State) (f : State → Entry → State) : State :=
  match s.entry s.req.core s.req.index with
  | some e => if e.st == .faulted && e.tenant == s.req.tenant then f s e else s
  | none => s

/-- HREARM_RETRY (R244, R241): DRAINING or PROVISIONAL by REL, TV := 0, and the walk is made again. -/
def State.rearm (s : State) : State :=
  let core := s.req.core
  let idx := s.req.index
  s.onFaulted fun s e =>
    ((s.forsake core e).setEntry core idx { e with
      st := if e.rel then .provisional else .draining
      tv := false
      host := false
      fcause := 0
      sent := false
      acked := false
      committing := false
      registered := false }).post (.tlbWalk core idx)

def execHrearmRetry (s : State) : Host.Outcome State Fault Refusal := .next s.rearm

/-- HREARM_DISCARD (R244, R241): the entry becomes FREE and its owner group takes DRAIN_FAULT at its next clause boundary. -/
def State.discard (s : State) : State :=
  let core := s.req.core
  let idx := s.req.index
  s.onFaulted fun s e =>
    (s.loseEntryAt core idx).modGroup ⟨core, e.slot, e.group⟩ fun g => g.addEvent ⟨.drainFault, BitVec.ofNat 64 idx, 0, 0, 0, 0, none⟩

def execHrearmDiscard (s : State) : Host.Outcome State Fault Refusal := .next s.discard

/-! Performance counters (R418). -/

/-- Changes a tenant's copy of the counters of a core. -/
def State.modPerf (s : State) (core tenant : Nat) (f : Perf → Perf) : State :=
  s.modCore core fun k => { k with perf := NMap.set k.perf tenant (f (k.perfOf tenant)) }

/-- PSEL_WRITE (R418): operands core, tenant, index, value; the counter counts from this moment. -/
def State.pselWrite (s : State) : State :=
  let r := s.req
  if 64 ≤ r.value.toNat then s
  else s.modPerf r.core r.tenant fun p => { p with psel := NMap.set p.psel r.index r.value.toNat, pcnt := NMap.set p.pcnt r.index 0 }

def execPselWrite (s : State) : Host.Outcome State Fault Refusal := .next s.pselWrite

/-- PCNT_READ (R418): operands core, tenant, index; a read that ALLOW refuses sets DENIED. -/
def execPcntRead (s : State) : Host.Outcome State Fault Refusal := .next (s.pcntRead s.req.tenant s.req.core s.req.index)

/-- PSTAT_WRITE (R418): operands core, tenant, value; a write of 0 clears DENIED. -/
def State.pstatWrite (s : State) : State :=
  let r := s.req
  if r.value.getLsbD 0 then s else s.modPerf r.core r.tenant fun p => { p with denied := false }

def execPstatWrite (s : State) : Host.Outcome State Fault Refusal := .next s.pstatWrite

/-! The mailbox (R436, R437). -/

/-- A command ends: MBRSP holds a response whose layout the manual does not give (log entry 4), DONE is set. -/
def State.mbDone (s : State) (key status : Nat) : State :=
  let m := s.mailbox key
  s.useFree.setMailbox key { m with rsp := Config.mailboxResponse s.pkg.freeCount, status := status, done := true, busy := false }

/-- The step of a command code, for physical function 0 or a tenant (R437). -/
def mailboxStep (function0 : Bool) (code : Nat) : Option Instr :=
  match code with
  | 0x01 => if function0 then none else some .admitDevice
  | 0x02 => some .health
  | 0x03 => some .checkpoint
  | 0x10 => if function0 then some .ptable else none
  | 0x11 => if function0 then some .partition else none
  | 0x12 => if function0 then some .worldCreate else none
  | 0x13 => if function0 then some .worldDestroy else none
  | 0x14 => if function0 then some .dbgUnlock else none
  | 0x15 => if function0 then some .powercap else none
  | 0x16 => if function0 then some .reset else none
  | 0x17 => if function0 then some .image else none
  | _ => none

/-- A write to MBDOOR (R436). The command's operands that MBCMD holds are handed on: index is the mailbox, value the argument, ia bytes 8
to 15; the request's other fields hold what the manual gives no place in the command (log entry 6): `slot` is IMAGE's device number
and PTABLE's SIZE, `data` the S queues. -/
def State.mailboxDoor (s : State) (key : Nat) (r : Request) : State :=
  let m := s.mailbox key
  if !r.value.getLsbD 0 then s
  else if m.busy then s.setMailbox key { m with status := 2 }
  else
    let m1 := { m with done := false, status := 0 }
    match mailboxStep (decide (key < 4)) (m.cmd.toNat % 256) with
    | none => s.setMailbox key { m1 with done := true, status := 3 }
    | some i =>
      (s.setMailbox key { m1 with busy := true }).postReq i { r with
        index := key
        off := 0
        split := 0
        value := BitVec.ofNat 64 (bitsOf m.cmd.toNat 8 56)
        ia := bitsOf m.cmd.toNat 64 64 }

/-- An 8-byte write at an offset of a mailbox; writes to MBCMD while BUSY are discarded. -/
def State.mailboxWrite (s : State) (key off : Nat) (r : Request) : State :=
  let m := s.mailbox key
  if off < 0x40 then
    (if m.busy then s
    else
      let hole : BitVec 512 := BitVec.ofNat 512 ((2 ^ 64 - 1) * 2 ^ (8 * off))
      s.setMailbox key { m with cmd := (m.cmd &&& ~~~hole) ||| BitVec.ofNat 512 (r.value.toNat * 2 ^ (8 * off)) })
  else if off = 0x80 then s.mailboxDoor key r
  else s

/-! REGISTER_WRITE. -/

/-- A write to qctl or qhang of a queue (R74, R402). -/
def State.queueFieldWrite (s : State) (r : Request) : State :=
  let k := queueKey r.die r.index
  let q := s.queue k
  match r.off % 32 with
  | 0 => s.setQueue k { q with qcb := r.value.extractLsb' 12 36 }
  | 16 => s.setQueue k { q with limit := r.value.toNat % 65536 }
  | _ => s

/-- A write to a breakpoint of a core (R403). -/
def State.breakpointWrite (s : State) (r : Request) : State :=
  if 0x40 ≤ r.off && r.off < 0x80 && s.debugReach r.core then
    s.modCore r.core fun k => { k with breakpoints := NMap.set k.breakpoints ((r.off - 0x40) / 8) (r.value &&& ~~~6#64) }
  else s

/-- F's count P of protected ways, 0 to 14, in every slice of a die (R423): with no way, the copies of protected lines that the die holds, and those of
its own lines elsewhere, go. -/
def State.protectWays (s : State) (die p : Nat) : State :=
  if 14 < p then s
  else
    let s1 := s.setDie die { s.die die with protectedWays := p }
    let keep := fun (ln : Nat) (m : BitVec 7) =>
      if isHostLine ln || !s1.protectedLine ln then m else if homeDie ln == die then 0 else m &&& ~~~(1#7 <<< siteOf (144 * die) ln)
    if p = 0 then { s1 with copies := (s1.copies.map fun x => (x.1, keep x.1 x.2)).filter fun x => x.2 != 0 } else s1

/-- REGISTER_WRITE: a write to a register without a step of its own. Operand line names the region, off the place in it: 0 a core control region
(core, tenant), 1 a queue control region (die, index), 2 the debug controller (core), 3 BAR0 of physical function 0, 4 the MSI-X table of a
tenant's TDI (tenant, port, func), 5 the place of the health ring that physical function 0 gives (value, the host memory's PA; index, the records
it holds: R442), 6 F's count of protected ways (die, value). A write that reaches no writable register is ignored, and so is one before STAGE 5
(R441), and one through an interface in ERROR (R428). -/
def State.registerWrite (s : State) : State :=
  let r := s.req
  if !s.pkg.ready then s
  else match r.line with
  | 0 => if 0x2000 ≤ r.off && (s.tenant r.tenant).lease.contains r.core then
      s.mailboxWrite (tenantMailbox r.tenant (dieOf r.core)) (r.off - 0x2000) r else s
  | 1 => s.queueFieldWrite r
  | 2 => s.breakpointWrite r
  | 3 => if 0x100 ≤ r.off && r.off < 0x500 then s.mailboxWrite ((r.off - 0x100) / 0x100) (r.off % 0x100) r else s
  | 4 => if r.viaTdi && r.off < 0x4000 && (s.tenant r.tenant).tdi != .error then
      s.setTenant r.tenant { s.tenant r.tenant with msix := NMap.set (s.tenant r.tenant).msix (r.off / 8) r.value } else s
  | 5 => if isHostLine (lineOf r.value.toNat) && r.index != 0 then { s with pkg := { s.pkg with
      healthBase := some r.value.toNat, healthSize := r.index, healthCount := 0, healthRing := [] } } else s
  | 6 => s.protectWays r.die r.value.toNat
  | _ => s

def execRegisterWrite (s : State) : Host.Outcome State Fault Refusal := .next s.registerWrite

end Sys2Proof.Machine
end

