-- ==== Sys2Proof/Machine/Banking.lean ====
section
/-! DEFINITION. Banking and rekindle (spec/20, R397 to R401; spec/04, R91 to R93; spec/10, R246; spec/15, R318; spec/16, R341). -/
namespace Sys2Proof.Machine

/-! What a group is saved as (R398, R399). -/

/-- The group is rewound, if its recipe entry can be read (R399): the other groups that stop are saved whole. -/
def Group.mayRewind (g : Group) (grIssue : Nat) : Bool :=
  grIssue == 0 && g.sp.rwpc.getLsbD 0 && !g.sp.rwpc.getLsbD 2 && g.mode != .handler && !g.awaiting && g.stopped.isNone && g.pending.isNone

/-- RECIPECAP of a team, and the address of a group's recipe entry (R398). -/
def recipeAt (t : Team) (g : Group) : Cap × W64 :=
  let k := descCap t.desc t.descTags 2
  (k, k.addr + BitVec.ofNat 64 (32 * g.sp.recipe))

/-- The recipe entry of a group (R398, R399); `none` when it cannot be read or its reserved field is not zero. -/
def State.recipeEntry (s : State) (core : Nat) (t : Team) (g : Group) : State × Option (BitVec 256) :=
  let (k, a) := recipeAt t g
  match capCheck k a 32 permLD with
  | some _ => (s, none)
  | none =>
    match s.engineRange core t.tenant .load (rangeLines a 32) with
    | (s1, .error _) => (s1, none)
    | (s1, .ok ps) =>
      if (s1.readFault core ps).isSome then (s1, none)
      else
        let e := BitVec.ofNat 256 (s1.visibleNat ps)
        if bitsOf e.toNat 33 31 ≠ 0 then (s1, none) else (s1, some e)

/-- Vector register `r` is live (R398). -/
def recipeLiveV (e : BitVec 256) (r : Nat) : Bool :=
  (List.range 4).any fun i =>
    let first := bitsOf e.toNat (72 + 16 * i) 8 * 8
    let count := bitsOf e.toNat (64 + 16 * i) 8 * 8
    decide (first ≤ r) && decide (r < first + count)
/-- Scalar `r` is live. -/
def recipeLiveS (e : BitVec 256) (r : Nat) : Bool := e.getLsbD (128 + r)

/-- A group as a rewind leaves it (R399, R401): its live registers, one split of its lanes at its recipe or at rwpc. -/
def Group.rewound (g : Group) (code : Cap) (e : BitVec 256) (cycle : Nat) : Group :=
  let recipe := e.getLsbD 32
  let pc := if recipe then code.addr + 8 * sext 32 (bitsOf e.toNat 0 32) else g.sp.rwpc &&& ~~~7#64
  { g with
    vregs := g.vregs.filter fun x => recipeLiveV e x.1
    qtags := g.qtags.filter fun x => recipeLiveV e (4 * x.1)
    sregs := g.sregs.filter fun x => recipeLiveS e x.1
    sEmpty := g.sEmpty.filter fun r => recipeLiveS e r
    sTags := g.sTags.filter fun r => recipeLiveS e (2 * r) && recipeLiveS e (2 * r + 1)
    lates := g.lates.filter fun l => l.vdests.all (recipeLiveV e) && l.sdests.all (recipeLiveS e)
    splits := [(0, Split.boundAt pc g.liveLanes code .none_ cycle)]
    overflow := []
    mode := if recipe then .recipe else .normal }

/-- A group as it enters the image, and whether it was rewound: another one is saved whole, as it stands at its clause boundaries (R399). -/
def State.saveGroup (s : State) (core : Nat) (t : Team) (grIssue : Nat) (g : Group) : State × Group × Bool :=
  if g.hasExited || !g.mayRewind grIssue then (s, g, false)
  else match s.recipeEntry core t g with
    | (s1, some e) => (s1, g.rewound t.codeCap e s.cycle, true)
    | (s1, none) => (s1, g, false)

/-- The groups of a team as they enter the image, and those that were rewound. -/
def State.saveGroups (s : State) (core : Nat) (t : Team) (grIssue : Nat) : NMap Group → State × NMap Group × List Nat
  | [] => (s, [], [])
  | (k, g) :: r =>
    let (s1, g1, w) := s.saveGroup core t grIssue g
    let (s2, gs, ws) := State.saveGroups s1 core t grIssue r
    (s2, (k, g1) :: gs, if w then k :: ws else ws)

/-- The team as it enters the image: rewound groups arrive afresh at their barriers and wait for no slot; residues follow the commands. -/
def Team.saved (t : Team) (gs : NMap Group) (rewound : List Nat) : Team :=
  let open_ := fun (g id : Nat) => (gs.any fun kg => kg.1 == g && kg.2.lates.any fun l => l.id == id)
  { t with
    groups := gs
    barriers := t.barriers.map fun kb => (kb.1, { kb.2 with arrived := kb.2.arrived.filter fun g => !rewound.contains g })
    barr := { t.barr with arrived := t.barr.arrived.filter fun g => !rewound.contains g }
    cords := t.cords.map fun kc => (kc.1, { kc.2 with waiters := kc.2.waiters.filter fun w => !rewound.contains w.1 || open_ w.1 w.2 })
    residues := t.cmds ++ t.residues
    cmds := []
    banking := none }

/-! Acknowledgements of the engines (R399). -/

/-- The grace period of a bank has ended. -/
def State.graceOver (s : State) (b : Banking) : Bool := decide (b.since + 1024 * b.grace ≤ s.cycle)

/-- A group's late results are back: only registers that wait for a send or a slot stay empty. -/
def Group.latesBack (g : Group) : Bool := g.lates.all fun l => match l.kind with | .filled => true | _ => false

/-- A group's issue and its late results have settled (R399): no word is in issue, every split stands at a clause boundary or waits. -/
def State.groupSettled (s : State) (i : GroupId) (g : Group) : Bool :=
  g.latesBack && g.p 0 == 0 && g.p 1 == 0 && g.p 2 == 0
    && g.splits.all fun kp => match kp.2.st with
      | .issue => false
      | .held => !(((kp.2.held.map Held.conds).getD []).all fun c => s.condHolds i c)
      | _ => true

/-- Issue has settled (R399): no group runs on in a stretch, which ends with the grace period. -/
def State.issueAck (s : State) (core slot : Nat) (t : Team) (b : Banking) : Bool :=
  t.groups.all fun kg => (s.graceOver b || !kg.2.runsOn b.grIssue) && s.groupSettled ⟨core, slot, kg.1⟩ kg.2

/-- What counts as settled when the grace period ends: also a group that is still in a stretch, whose clause then ends (R407). -/
def State.issueCounts (s : State) (core slot : Nat) (t : Team) (b : Banking) : Bool :=
  t.groups.all fun kg => kg.2.runsOn b.grIssue || s.groupSettled ⟨core, slot, kg.1⟩ kg.2

/-- A PROVISIONAL entry whose commit waits on a FAULTED one (R246). -/
def Core.waitsOnFault (k : Core) (e : Entry) : Bool :=
  e.st == .provisional && k.hearth.any fun x => x.2.st == .faulted && decide (x.2.stamp < e.stamp)

/-- The hearth acknowledges (R246). -/
def State.hearthAck (s : State) (core slot : Nat) (b : Banking) : Bool :=
  let k := s.core core
  (k.waiting.all fun w => w.g.slot != slot)
    && k.hearth.all fun ie => ie.2.slot != slot || (b.grHearth == 0 && (ie.2.st == .faulted || k.waitsOnFault ie.2))

/-- The matrix unit acknowledges (R341). -/
def State.matrixAck (s : State) (core slot : Nat) (b : Banking) : Bool :=
  let k := s.core core
  let mine := k.mqueue.filter fun op => op.g.slot == slot
  if b.grMatrix = 0 then mine.all fun op => !op.begun || (match op.kind with | .drain .. => false | _ => true)
  else mine.isEmpty && k.mwaiting.all fun op => op.g.slot != slot

/-- The copy engine acknowledges (R318). -/
def Team.copyAck (t : Team) (b : Banking) : Bool := if b.grCopy = 0 then t.cmds.all fun x => x.lines.isEmpty else t.cmds.isEmpty

/-- The remote sends are acknowledged or refused (R360). -/
def Team.sendAck (t : Team) : Bool := t.groups.all fun kg => kg.2.sends.isEmpty && kg.2.p 5 == 0

/-- The other engines of a team have acknowledged. -/
def State.enginesAck (s : State) (core slot : Nat) (t : Team) (b : Banking) : Bool :=
  s.hearthAck core slot b && s.matrixAck core slot b && t.copyAck b && t.sendAck

/-- The teams that are banked and rekindled with a team: its rick's (R273), itself among them. -/
def State.bankedWith (s : State) (core slot : Nat) (t : Team) : List (Nat × Nat) := if t.rick ≤ 1 then [(core, slot)] else s.rickTeams t

/-- Every engine of a team has acknowledged. -/
def State.teamBanked (s : State) (core slot : Nat) (t : Team) (b : Banking) : Bool := s.issueAck core slot t b && s.enginesAck core slot t b

/-- Every engine of a team has acknowledged, and of the other resident members of its rick, which is banked whole (R273). -/
def State.banked (s : State) (core slot : Nat) (t : Team) (b : Banking) : Bool :=
  s.teamBanked core slot t b && (s.bankedWith core slot t).all fun m => match s.team m.1 m.2 with
    | some x => (match x.banking with | some y => y.collected.isSome || s.teamBanked m.1 m.2 x y | none => false)
    | none => true

/-- A bank meets the end of its grace period (R407). -/
def State.bankInTime (s : State) (core slot : Nat) (t : Team) (b : Banking) : Bool := s.issueCounts core slot t b && s.enginesAck core slot t b

/-! BANK_REQUEST (R399). -/

/-- OPEN entries of a team are triggered (R246). -/
def State.triggerTeam (s : State) (core slot : Nat) : State :=
  ((s.core core).hearth.filter fun ie => ie.2.slot == slot && ie.2.st == .open_).foldl (fun x ie => x.trigger core ie.1) s

/-- The granularity that a bank begins with (R24, R395). -/
def Banking.begin_ (d : BitVec 2048) (why : BankReason) (cycle : Nat) : Banking where
  why := why
  since := cycle
  collected := none
  grIssue := descField d 764 4
  grMatrix := descField d 760 4
  grCopy := descField d 756 4
  grHearth := descField d 752 4
  grace := descField d 740 8
  failed := false
  saving := none

/-- A bank request reaches one team: a bank in progress goes on, and a watchdog's request takes it over (R402). -/
def State.bankOne (s : State) (core slot : Nat) (why : BankReason) : State :=
  match s.team core slot with
  | none => s
  | some t =>
    match t.banking with
    | some b =>
      (s.setTeam core slot { t with banking := some { b with why := if why == .watchdog then .watchdog else b.why } }).triggerTeam core slot
    | none =>
      ((s.count core t.tenant 13 1).setTeam core slot { t with banking := some (Banking.begin_ t.desc why s.cycle) }).triggerTeam core slot

/-- BANK_REQUEST (R399): the team and the other members of its rick (R273). -/
def State.bankRequest (s : State) (core slot : Nat) (why : BankReason) : State :=
  match s.team core slot with
  | none => s
  | some t => (s.bankedWith core slot t).foldl (fun x m => x.bankOne m.1 m.2 why) s

def execBankRequest (core slot : Nat) (why : BankReason) (s : State) : Host.Outcome State Fault Refusal := .next (s.bankRequest core slot why)

/-! BANK_TIMEOUT (R399, R402). -/

/-- The queue key of a grid. -/
def State.gridQueue (s : State) (gn : Nat) : Option Nat := (s.grid gn).map fun g => queueKey g.die g.queue

/-- The watchdog's bank of a team has failed: the team stays stopped until the lease is reset (R402). -/
def State.bankFails (s : State) (core slot code : Nat) : State :=
  match s.team core slot with
  | none => s
  | some t =>
    let s1 := s.setTeam core slot { t with banking := t.banking.map fun b => { b with failed := true } }
    match s1.gridQueue t.grid with
    | some k => s1.setQueue k { s1.queue k with outcome := code }
    | none => s1

/-- A team goes on from where its bank stopped it. -/
def State.bankDropped (s : State) (core slot : Nat) : State := s.modTeam core slot fun t =>
  match t.banking with
  | some b => if b.collected.isSome then t else { t with banking := none }
  | none => t

/-- BANK_TIMEOUT (R399, R407): the grace period has ended and an engine has not acknowledged. A rick goes on whole. -/
def State.bankTimeout (s : State) (core slot : Nat) : State :=
  match s.team core slot with
  | none => s
  | some t =>
    match t.banking with
    | none => s
    | some b =>
      if b.failed || b.collected.isSome || b.saving.isSome || !s.graceOver b || s.bankInTime core slot t b then s
      else if b.why == .watchdog then s.bankFails core slot 0x59
      else (s.bankedWith core slot t).foldl (fun x m => x.bankDropped m.1 m.2) (s.sendTrapRecord ⟨core, slot, 0⟩ .bankTimeout true false false 0 0 0 0 none)

def execBankTimeout (core slot : Nat) (s : State) : Host.Outcome State Fault Refusal := .next (s.bankTimeout core slot)

/-! The image (R400). -/

/-- The physical addresses of a tenant's image ring, and of the capability of its next area (R400; log entry 21: areas taken in bytes 0 to 7,
areas filled in bytes 8 to 15, log2 of the ring's size in byte 16, capability i at byte 256 + 16 (i mod size)). -/
def State.ringArea (s : State) (tenant : Nat) : Option (Nat × Nat) :=
  (s.tenant tenant).paOf (s.tenant tenant).iring |>.map fun pa => (pa, pa + 256 + 16 * (s.visNat pa 8 % 2 ^ (s.visByte (pa + 16)).toNat))

/-- The next area of a tenant's image ring, and the ring's address; none of an empty ring or of one that cannot be read (R400, R4). -/
def State.nextArea (s : State) (tenant : Nat) : Option (Cap × Nat) :=
  match s.ringArea tenant with
  | none => none
  | some (pa, a) =>
    if (s.lineFault (lineOf pa)).isSome || (s.lineFault (lineOf a)).isSome || s.visNat pa 8 = s.visNat (pa + 8) 8 then none
    else some (⟨BitVec.ofNat 128 (s.visNat a 16), s.visTag (a / 16)⟩, pa)

/-- What a save waits for: lines of the recipe table, of the ring, of the area or of their walks that the host owns (R297). -/
def State.imageHeld (s : State) (core : Nat) (t : Team) (grIssue size : Nat) : Option Nat :=
  let held := fun (l : List Nat) => l.find? fun ln => !s.homeReadable ln
  let entry := fun (g : Group) =>
    let l := rangeLines (recipeAt t g).2 32
    if g.hasExited || !g.mayRewind grIssue then none
    else (s.walksHost core t.tenant .load l).orElse fun _ => match (s.engineRange core t.tenant .load l).2 with
      | .ok ps => held (pieceLines ps)
      | .error _ => none
  (t.groups.findSome? fun kg => entry kg.2).orElse fun _ => match s.ringArea t.tenant with
    | none => none
    | some (pa, a) => (held [lineOf pa, lineOf a]).orElse fun _ => match s.nextArea t.tenant with
      | some (k, _) => (s.walksHost core t.tenant .write (rangeLines k.addr size)).orElse fun _ =>
        (match (s.engineRange core t.tenant .write (rangeLines k.addr size)).2 with
        | .ok ps => held (pieceLines ps)
        | .error _ => none)
      | none => none

/-- The area's count in the ring rises. -/
def State.areaTaken (s : State) (ring : Nat) : DevStep := .write ring 8 ((s.visNat ring 8 + 1) % 2 ^ 64) 0

/-- A save whose memory fails: STATE becomes 2 where it can be written, and the area is used up (R400; log entry 21). -/
def State.imageFails (s : State) (core tenant ring : Nat) (k : Cap) : State :=
  match s.engineRange core tenant .write [(k.addr, 16)] with
  | (s1, .ok [(pa, _)]) => if (s1.lineFault (lineOf pa)).isSome || s1.hostBlocked tenant (lineOf pa) then s1 else s1.deviceSend .plain [.write (pa + 2) 1 2 0, s1.areaTaken ring]
  | (s1, _) => s1

/-- IMAGE_SAVE (R400): the image is written whole and then marked valid, or the save fails. -/
def State.saveImage (s : State) (core : Nat) (t : Team) (es : List Entry) (mats : Nat) : State × Option (List (Nat × Nat)) :=
  match s.nextArea t.tenant with
  | none => (s, none)
  | some (k, ring) =>
    let bs := imageBytes t es mats s.pkg.freeCount s.cycle
    match capCheck k k.addr bs.length permST with
    | some _ => (s, none)
    | none =>
      match s.engineRange core t.tenant .write (rangeLines k.addr bs.length) with
      | (s1, .error _) => (s1.imageFails core t.tenant ring k, none)
      | (s1, .ok ps) =>
        if ps.any fun p => (p.2 != 128 && (s1.lineFault (lineOf p.1)).isSome) || s1.hostBlocked t.tenant (lineOf p.1) then (s1.imageFails core t.tenant ring k, none)
        else
          let pa := (ps.head?.map Prod.fst).getD 0
          (s1.useFree.deviceSend .plain (piecesWrite ps bs ++ s1.marksOf ps ++ [.write (pa + 2) 1 1 0, s1.areaTaken ring]), some ps)

/-! Leaving a core (R92, R246). -/

/-- An entry as it is saved (R246, R284): an aborted PROVISIONAL one is OPEN with REL kept; its registration and its grant have ended. -/
def Entry.saved (e : Entry) : Entry :=
  { e with
    st := if e.st == .provisional then .open_ else e.st
    sent := false, acked := false, committing := false, registered := false, near := false }

/-- The entries of a team in SEQ order. -/
def Core.entriesOf (k : Core) (slot : Nat) : List Entry := (sortBy (fun ie => ie.2.stamp) (k.teamEntries slot)).map Prod.snd

/-- A core's entries of a team that leaves become FREE; the L1 drops their lines, younger commits and returns may follow (R246, R220). -/
def State.takeEntries (s : State) (core slot : Nat) : State × List Entry :=
  let es := (s.core core).entriesOf slot
  let s1 := es.foldl (fun x e => x.forsake core e) s
  let s2 := s1.modCore core fun k => { k with
    hearth := k.hearth.filter fun ie => ie.2.slot != slot
    l1 := k.l1.filter fun l => !(es.any fun e => e.tv && e.pa == l.1) }
  ((s2.sendCommits core).returnGrants core, es.map Entry.saved)

/-- Forwarding entries of a core (R91). -/
def forwardLimit : Nat := 64

/-- Every live entry of a team is repointed to its newest home (R92). -/
def State.repoint (s : State) (old : Forward → Bool) (f : Forward → Forward) : State :=
  { s with cores := s.cores.map fun kc => (kc.1, { kc.2 with forwards := kc.2.forwards.map fun x => if old x.2 then (x.1, f x.2) else x }) }

/-- TEAM_LEAVE (R92): a forwarding entry to the image, and the slot is left. -/
def State.teamLeave (s : State) (core slot incn id : Nat) : State :=
  let s1 := s.repoint (fun f => !f.image && f.ncore == core && f.nslot == slot && f.nincn % 4096 == incn % 4096)
    fun f => { f with image := true, imageId := id }
  let k := s1.core core
  let i := ((List.range forwardLimit).find? fun i => (NMap.find k.forwards i).isNone).getD 0
  (s1.setCore core { k with forwards := NMap.set k.forwards i ⟨true, slot, incn, 0, 0, 0, 0, id⟩ }).freeTeamSlot core slot

/-- The matrix operations of a team leave the unit, accepted and waiting ones (R341); grants that nothing needs go back (R285). -/
def State.takeMats (s : State) (core slot : Nat) : State × List MatOp × List MatOp :=
  let k := s.core core
  let mine := fun (op : MatOp) => op.g.slot == slot
  ((s.setCore core { k with
    mqueue := k.mqueue.filter fun op => !mine op
    mwaiting := k.mwaiting.filter fun op => !mine op }).releaseEngine core, k.mqueue.filter mine, k.mwaiting.filter mine)

/-- A quadrant gives up the clause of a team's group. -/
def State.stopIssue (s : State) (core slot : Nat) : State :=
  s.modCore core fun k => { k with quads := k.quads.map fun kq =>
    if (match kq.2.current with | some i => i.g.slot == slot | none => false) then (kq.1, { kq.2 with current := none }) else kq }

/-- A team of a bank that is complete leaves its core for an image, or stays as long as no forwarding entry is free (R400, R92, R93). -/
def State.collectNow (s : State) (core slot : Nat) (t : Team) (b : Banking) : State :=
  let (s1, gs, ws) := s.saveGroups core t b.grIssue t.groups
  let t1 := t.saved gs ws
  let nm := ((s1.core core).mqueue ++ (s1.core core).mwaiting).filter fun op => op.g.slot == slot
  let (s2, area) := s1.saveImage core t1 (((s1.core core).entriesOf slot).map Entry.saved) nm.length
  match area with
  | none => s2.post (.saveTimeout core slot)
  | some ps =>
    let pa := (ps.head?.map Prod.fst).getD 0
    let id := s2.freshId
    let s3 := s2.useId.stopIssue core slot
    if forwardLimit ≤ (s3.core core).forwards.length then
      s3.setTeam core slot { t1 with banking := some { b with collected := some (id, pa) } }
    else
      let (s4, es) := s3.takeEntries core slot
      let (s5, ms, mw) := s4.takeMats core slot
      let s6 := s5.teamLeave core slot t.incn id
      { s6 with images := NMap.set s6.images id ⟨t1, es, 1, pa, ms, mw, ps, core, slot, []⟩ }

/-- Bytes of the image that a save writes now. -/
def State.imageSize (s : State) (core slot : Nat) (t : Team) (grIssue : Nat) : Nat :=
  let (s1, gs, ws) := s.saveGroups core t grIssue t.groups
  let k := s1.core core
  (imageBytes (t.saved gs ws) ((k.entriesOf slot).map Entry.saved) ((k.mqueue ++ k.mwaiting).countP fun op => op.g.slot == slot) 0 s.cycle).length

/-- The line that a complete bank waits for. -/
def State.collectHeld (s : State) (core slot : Nat) (t : Team) (b : Banking) : Option Nat := s.imageHeld core t b.grIssue (s.imageSize core slot t b.grIssue)

/-- Cycles from its collection in which a save must be complete (R400). -/
def saveCycles : Nat := 2 ^ 20

/-- The bound of a save has passed (R400, R402). -/
def Banking.saveOver (b : Banking) (cycle : Nat) : Bool := match b.saving with | some c => decide (c + saveCycles ≤ cycle) | none => false

/-- A save whose bound has passed fails; its partial image gets STATE 2 where that can be written. -/
def State.saveLate (s : State) (core slot : Nat) (t : Team) : State :=
  (match s.nextArea t.tenant with | some (k, ring) => s.imageFails core t.tenant ring k | none => s).post (.saveTimeout core slot)

/-- BANK_COLLECT (R399, R400): once every engine has acknowledged; lines of the save that the host owns are called back first (R297), within its
bound. -/
def State.bankCollect (s : State) (core slot : Nat) : State :=
  match s.team core slot with
  | none => s
  | some t =>
    match t.banking with
    | none => s
    | some b =>
      if b.failed || b.collected.isSome || !s.banked core slot t b then s
      else if b.saveOver s.cycle then s.saveLate core slot t
      else match s.collectHeld core slot t b with
        | some ln =>
          (if b.saving.isSome then s else s.setTeam core slot { t with banking := some { b with saving := some s.cycle } }).callBack ln
        | none => s.collectNow core slot t b

def execBankCollect (core slot : Nat) (s : State) : Host.Outcome State Fault Refusal := .next (s.bankCollect core slot)

/-- SAVE_TIMEOUT (R400, R402): a watchdog's bank escalates; any other ends the team (R389). -/
def State.saveTimeout (s : State) (core slot : Nat) : State :=
  match (s.team core slot).bind Team.banking with
  | none => s
  | some b => if b.failed then s else if b.why == .watchdog then s.bankFails core slot 0x5A else s.endTeamBy core slot .saveTimeout

def execSaveTimeout (core slot : Nat) (s : State) : Host.Outcome State Fault Refusal := .next (s.saveTimeout core slot)

/-! REKINDLE (R401, R92, R246). -/

/-- Waiting conditions on entries name the restored entries. -/
def remapCond (m : List (Nat × Nat)) (c : Cond) : List Cond :=
  match c with
  | .entryGone st => (m.filter fun x => x.1 == st).map fun x => .entryGone x.2
  | .olderGone st => (m.filter fun x => decide (x.1 < st)).map fun x => .entryGone x.2
  | c => [c]
def remapSplit (m : List (Nat × Nat)) (p : Split) : Split :=
  { p with held := p.held.map fun h => { h with conds := h.conds.flatMap (remapCond m) } }

/-- A group in its new place: p3 and the waiting conditions name the restored entries by their new stamps; its fetches see memory as it is now
(log entry 119). -/
def Group.restored (g : Group) (mem : List Host.Cell) (m : List (Nat × Nat)) : Group :=
  { g with
    recordHeld := false
    code := mem
    ctrs := NMap.adjust g.ctrs 3 fun l => l.map fun i => match m.find? fun x => x.1 == i.1 with | some x => (x.2, i.2) | none => i
    splits := g.splits.map fun kp => (kp.1, remapSplit m kp.2)
    shadow := g.shadow.map fun kp => (kp.1, remapSplit m kp.2) }

/-- A group's name in its team's new place. -/
def movedId (im : Image) (core slot : Nat) (g : GroupId) : GroupId :=
  if g.core = im.oldCore && g.slot = im.oldSlot then ⟨core, slot, g.group⟩ else g

/-- The team in its new place. -/
def Image.placed (im : Image) (core slot incn : Nat) (mem : List Host.Cell) (m : List (Nat × Nat)) : Team :=
  { im.team with
    incn := incn
    groups := im.team.groups.map fun kg => (kg.1, kg.2.restored mem m)
    ring := im.team.ring.map fun r => { r with
      publisher := r.publisher.map fun x => (x.1, movedId im core slot x.2)
      items := r.items.map fun x => (x.1, (movedId im core slot x.2.1, x.2.2)) } }

/-- One saved entry is restored (R246). -/
def State.restoreEntry (s : State) (core slot : Nat) (e : Entry) : State :=
  let k := s.core core
  match k.freeEntry with
  | none => s
  | some idx =>
    let e1 := { e with stamp := k.seqNext, slot := slot, born := s.cycle }
    let s1 := s.setCore core { k with
      hearth := NMap.set k.hearth idx e1
      seqNext := k.seqNext + 1
      rseq := if e.rel then k.seqNext else k.rseq }
    if e.st == .faulted then
      s1.sendTrapRecord ⟨core, slot, e.group⟩ .drainFault true false false (BitVec.ofNat 64 idx) 0 0 0 (some (e1.form s1.cycle))
    else
      let s2 := (if e.tv || e.heldFail.isSome then s1 else s1.post (.tlbWalk core idx)).register core idx
      s2.trigger core idx

/-- Up to sixteen operations stand in the matrix queue (R329). -/
def matrixDepth : Nat := 16

/-- A queue's teams may run again (R401, R402). -/
def State.teamsMayRun (s : State) (t : Team) : Bool :=
  (match s.gridQueue t.grid with | some k => (s.queue k).st == .run && (s.queue k).escalation == 0 | none => true)
    && !(s.tenant t.tenant).checkpointing && !(s.tenant t.tenant).stoppedStatus

/-- The slot that an image fits in on a core (R86, R246); its matrix operations fit in the unit's queue (R341). -/
def State.imageSlot (s : State) (im : Image) (core : Nat) : Option Nat :=
  let k := s.core core
  if matrixDepth < k.mqueue.length + k.mwaiting.length + im.mats.length + im.mwaits.length then none
  else s.fitSlot im.team.tenant im.team.desc core im.entries.length none

/-- The core of a die that takes a banked team which is no rick's: the fewest resident groups, then the lowest number (R401, R87). -/
def State.imageCore (s : State) (im : Image) : Option (Nat × Nat) :=
  let cand := (dieCores (dieOf im.oldCore)).filterMap fun c => (s.imageSlot im c).map fun sl => (c, sl)
  firstBy (fun a b => decide ((s.core a.1).nGroups < (s.core b.1).nGroups) || ((s.core a.1).nGroups == (s.core b.1).nGroups && decide (a.1 < b.1))) cand

/-- Two teams are members of one rick (R20). -/
def Team.sameRick (a b : Team) : Bool := a.grid == b.grid && a.tenant == b.tenant && a.index / (max 1 a.rick) == b.index / (max 1 a.rick)

/-- The banked members of a team's rick, by image number. -/
def State.rickImages (s : State) (t : Team) : List (Nat × Image) := s.images.filter fun x => t.sameRick x.2.team

/-- The core at a member's place in a run. -/
def rickCore (cores : List Nat) (t : Team) : Nat := cores.getD (t.index % max 1 t.rick) 0

/-- The run that a banked rick takes whole (R273, R88, R89): every resident member has been collected and stays on its core (R93), the others
fit, a direct placement's order decides. -/
def State.rickSpot (s : State) (t : Team) : Option (List Nat) :=
  let kept := s.rickTeams t
  let ims := s.rickImages t
  if !(kept.all fun m => match (s.team m.1 m.2).bind Team.banking with | some b => b.collected.isSome | none => false)
    || !(ims.all fun x => x.2.state == 1) then none
  else
    let die := match ims with | x :: _ => dieOf x.2.oldCore | [] => (kept.head?.map fun m => dieOf m.1).getD 0
    (List.range 3).findSome? fun j => ((snakeStarts t.rick).map fun st => snakeRun (3 * die + j) st t.rick).find? fun cores =>
      (kept.all fun m => match s.team m.1 m.2 with | some x => rickCore cores x == m.1 | none => true)
        && ims.all fun x => (s.imageSlot x.2 (rickCore cores x.2.team)).isSome

/-- The place that a banked team takes (R401, R86, R246, R273). -/
def State.rekindleSpot (s : State) (im : Image) : Option (Nat × Nat) :=
  if im.state ≠ 1 || !s.teamsMayRun im.team then none
  else if im.team.rick ≤ 1 then s.imageCore im
  else match s.rickSpot im.team with
    | some cores => (s.imageSlot im (rickCore cores im.team)).map fun sl => (rickCore cores im.team, sl)
    | none => none

/-- A register write that waited for the rekindle names the team's new place (R394). -/
def Happening.moved (h : Happening) (core slot incn : Nat) : Happening := { h with req := { h.req with core := core, slot := slot, incn := incn } }

/-- The queue's hang timer restarts at a placement (R402). -/
def State.timerRestart (s : State) (gn : Nat) : State :=
  match s.gridQueue gn with
  | some k => s.setQueue k { s.queue k with elapsed := 0, since := s.cycle }
  | none => s

/-- A banked team is placed and rebuilt. -/
def State.rekindleAt (s : State) (id : Nat) (im : Image) (core slot : Nat) : State :=
  let tn := im.team.tenant
  let s0 := s.modCore core fun k => k.open_ im.team.desc
  let bad := s0.revokedOn tn core
  let k := s0.core core
  let incn := s0.incn core slot
  let m := im.entries.zipIdx.map fun ei => (ei.1.stamp, k.seqNext + ei.2)
  let t := (im.placed core slot incn s0.mem m).swept bad
  let s1 := s0.setTeam core slot t
  let s2 := im.entries.foldl (fun x e => x.restoreEntry core slot (e.swept bad)) s1
  let moved := fun (op : MatOp) => { (op.swept bad) with g := ⟨core, slot, op.g.group⟩, incn := incn }
  let ms := im.mats.map moved
  let s3 := (s2.modCore core fun k => { k with mqueue := k.mqueue ++ ms, mwaiting := k.mwaiting ++ im.mwaits.map moved }).askEngine core (ms.flatMap MatOp.lines)
  let s3 := im.mwaits.foldl (fun x _ => x.post (.matrixAccept core)) s3
  let s4 := s3.repoint (fun f => f.image && f.imageId == id) fun f => { f with image := false, ncore := core, nslot := slot, nincn := incn }
  let s5 := { s4 with images := NMap.del s4.images id, agenda := s4.agenda ++ im.writes.map fun (h : Happening) => h.moved core slot incn }
  s5.timerRestart im.team.grid

/-- A team that was banked but could not leave its core (R93). -/
def State.keptTeam (s : State) (id : Nat) : Option (Nat × Nat × Team) :=
  s.cores.findSome? fun kc => (kc.2.teams.find? fun st => match st.2.banking.bind Banking.collected with
    | some x => x.1 == id
    | none => false).map fun st => (kc.1, st.1, st.2)

/-- A kept team goes on where it stands. -/
def State.keptOn (s : State) (core slot : Nat) : State :=
  match s.team core slot with
  | some t => (s.setTeam core slot { t with banking := none, groups := t.groups.map fun kg => (kg.1, { kg.2 with code := s.mem }) }).timerRestart t.grid
  | none => s

/-- A rick is rekindled whole: its images take their places in the run, its kept members go on (R273, R93). -/
def State.rickRekindle (s : State) (t : Team) : State :=
  match s.rickSpot t with
  | none => s
  | some cores =>
    let s1 := (s.rickImages t).foldl (fun x im =>
      let c := rickCore cores im.2.team
      match x.imageSlot im.2 c with
      | some sl => x.rekindleAt im.1 im.2 c sl
      | none => x) s
    (s.rickTeams t).foldl (fun x m => x.keptOn m.1 m.2) s1

/-- REKINDLE (R401). -/
def State.rekindle (s : State) (id : Nat) : State :=
  match NMap.find s.images id with
  | some im => (match s.rekindleSpot im with
    | some (c, sl) => if im.team.rick ≤ 1 then s.rekindleAt id im c sl else s.rickRekindle im.team
    | none => s)
  | none => (match s.keptTeam id with
    | some (c, sl, t) => if !s.teamsMayRun t then s else if t.rick ≤ 1 then s.keptOn c sl else s.rickRekindle t
    | none => s)

def execRekindle (image : Nat) (s : State) : Host.Outcome State Fault Refusal := .next (s.rekindle image)

/-- The image that rekindles next. -/
def State.rekindleDue (s : State) : Option Instr :=
  match s.images.find? fun x => (s.rekindleSpot x.2).isSome with
  | some x => some (.rekindle x.1)
  | none => (s.cores.filter fun kc => !(s.die (dieOf kc.1)).fatal).findSome? fun kc => kc.2.teams.findSome? fun st => match st.2.banking.bind Banking.collected with
    | some x => if s.teamsMayRun st.2 && (st.2.rick ≤ 1 || (s.rickSpot st.2).isSome) then some (.rekindle x.1) else none
    | none => none

/-- What the bank of a team does next: the collector, the end of the grace period, or a renewed trigger of entries that have become OPEN. -/
def State.bankDue (s : State) (core : Nat) : Option Instr :=
  (s.core core).teams.findSome? fun st =>
    match st.2.banking with
    | none => if (s.tenant st.2.tenant).checkpointing then some (.bankRequest core st.1 .checkpoint)
        else if (s.core core).noNewTeam && !(s.tenant st.2.tenant).lease.contains core then some (.bankRequest core st.1 .distributor) else none
    | some b =>
      if b.failed || b.collected.isSome then none
      else if s.banked core st.1 st.2 b then
        let h := s.collectHeld core st.1 st.2 b
        if b.saveOver s.cycle || s.askDue h || (h.isSome && b.saving.isNone) then some (.bankCollect core st.1) else none
      else if s.graceOver b && !s.bankInTime core st.1 st.2 b then some (.bankTimeout core st.1)
      else if s.issueAck core st.1 st.2 b && ((s.core core).hearth.any fun ie => ie.2.slot == st.1 && ie.2.st == .open_) then
        some (.bankRequest core st.1 b.why)
      else none

end Sys2Proof.Machine
end

