-- ==== Sys2Proof/Machine/Watchdog.lean ====
section
/-! DEFINITION. The hang watchdog (spec/20, R402, R404; spec/21, R407) and debarking sweeps (spec/03, R57, R58). -/
namespace Sys2Proof.Machine

/-! The phases of an expiry, kept in Queue.escalation: 0 counting, 1 the queue's own teams are being banked, 2 the other teams on the lease are
being banked, 3 the hearth entries of the lease are draining, 4 done until the queue runs again. -/

/-- Resident teams that a test picks: core, slot, team. -/
def State.teamsWhere (s : State) (f : Nat → Team → Bool) : List (Nat × Nat × Team) :=
  s.cores.flatMap fun kc => (kc.2.teams.filter fun st => f kc.1 st.2).map fun st => (kc.1, st.1, st.2)

/-- Resident teams of a queue's grids. -/
def State.queueTeams (s : State) (key : Nat) : List (Nat × Nat × Team) := s.teamsWhere fun _ t => s.gridQueue t.grid == some key

/-- A bank that has failed, or that is complete although the team could not leave. -/
def Team.bankOver (t : Team) : Bool := match t.banking with | some b => b.failed || b.collected.isSome | none => false

/-- A taken grid of a queue that has not completed. -/
def State.openGrids (s : State) (key : Nat) : List (Nat × Grid) := s.grids.filter fun x => queueKey x.2.die x.2.queue == key && !x.2.complete

/-- The head of a queue waits for dependences (R85, R402): a wait for BARRIER alone is none. -/
def State.awaitsWords (s : State) (key : Nat) : Bool :=
  match (s.queue key).head.bind s.grid with
  | some g => g.readySince.isNone && !g.complete && decide (g.depsMet.length < g.deps.length)
  | none => false

/-- The timer is held (R402): a group of the queue's grids awaits GRESUME or is halted, or the head waits for dependences. -/
def State.timerHeld (s : State) (key : Nat) : Bool :=
  ((s.queueTeams key).any fun x => x.2.2.groups.any fun kg => kg.2.awaiting || kg.2.halted)
    || (s.images.any fun x => s.gridQueue x.2.team.grid == some key && x.2.team.groups.any fun kg => kg.2.awaiting || kg.2.halted)
    || s.awaitsWords key

/-- The timer of a queue counts (R402), but from its expiry until the escalation is done (R407). -/
def State.timerCounts (s : State) (key : Nat) : Bool :=
  let q := s.queue key
  (q.escalation == 0 || q.escalation == 4) && !(s.openGrids key).isEmpty && !s.timerHeld key

/-- ELAPSED has reached LIMIT. -/
def Queue.expired (q : Queue) : Bool := q.limit != 0 && q.escalation == 0 && decide (q.limit * 65536 ≤ q.elapsed)

/-- The event of a watchdog in a grid's record (R407). -/
def State.watchdogRecord (s : State) (gn code : Nat) : State := s.gridRecord gn 0xFFFFFFFF 5 code 0 0

/-- Step 3 of the escalation (R402, R407): ERROR, the records, the completion of grids whose teams were cleared, the interrupt. -/
def State.watchdogError (s : State) (key tenant code : Nat) (cleared : List Nat) : State :=
  let s1 := s.queueError key 5 code
  let s2 := s1.setQueue key { s1.queue key with escalation := 4, outcome := code }
  let gs := (s2.openGrids key).filter fun x => x.2.readySince.isSome
  let s3 := gs.foldl (fun x g => x.watchdogRecord g.1 code) s2
  let s4 := gs.foldl (fun x g => if cleared.contains g.1 then x.completeGrid g.1 else x) s3
  (s4.eventWord tenant (key % 256) 5 code).interruptFor tenant (key % 256)

/-- LEASE_RESET (R402): what a core keeps. Its teams, hearth, L1, forwarding entries and queued engine work are gone, and every slot's
incarnation has risen. -/
def Core.cleared (k : Core) : Core :=
  { k with
    teams := []
    incns := (List.range 32).map fun i => (i, NMap.getD k.incns i 0 + 1)
    hearth := []
    waiting := []
    l1 := []
    forwards := []
    quads := []
    mqueue := []
    mwaiting := []
    noNewTeam := false
    leaving := false }

/-- Cleared teams of a grid do not retire, but they are gone (R407). -/
def State.forgetTeam (s : State) (gn : Nat) : State :=
  match s.grid gn with
  | some g => s.setGrid gn { g with retired := g.retired + 1 }
  | none => s

/-- The lease of a tenant is reset: its cores are cleared, and queues with cleared teams go to ERROR. -/
def State.leaseReset (s : State) (key tenant : Nat) : State :=
  let lease := (s.tenant tenant).lease
  let lost := s.teamsWhere fun c _ => lease.contains c
  let grids := (lost.map fun x => x.2.2.grid).dedup
  let s1 := lost.foldl (fun x t => x.forgetTeam t.2.2.grid) s
  let s2 := lease.foldl (fun x c => ((x.modCore c Core.cleared).returnGrants c).releaseEngine c) s1
  let keys := ((grids.filterMap s.gridQueue).dedup).filter fun k => k != key
  keys.foldl (fun x k => x.watchdogError k tenant 0x59 grids) (s2.watchdogError key tenant (s2.queue key).outcome grids)

/-- Every core of a lease has banked or failed teams only. -/
def State.leaseBanked (s : State) (tenant : Nat) : Bool :=
  (s.teamsWhere fun c _ => (s.tenant tenant).lease.contains c).all fun x => x.2.2.bankOver

/-- The hearths of a lease are empty. -/
def State.leaseDrained (s : State) (tenant : Nat) : Bool := (s.tenant tenant).lease.all fun c => (s.core c).hearth.isEmpty

/-- Hearth entries of a lease are triggered. -/
def State.leaseTrigger (s : State) (tenant : Nat) : State :=
  (s.tenant tenant).lease.foldl (fun x c => x.triggerWhere c fun _ => true) s

/-- A queue's phase. -/
def State.setPhase (s : State) (key n : Nat) : State := s.setQueue key { s.queue key with escalation := n }

/-- WATCHDOG_EXPIRY (R402): the next phase of the queue's escalation, once the last one is over. -/
def State.watchdog (s : State) (die q : Nat) : State :=
  let key := queueKey die q
  let x := s.queue key
  match s.queueTenant die q with
  | none => s
  | some tn =>
    match x.escalation with
    | 0 =>
      if !x.expired then s
      else
        let s1 := s.setQueue key { x with escalation := 1, outcome := 0x58 }
        (s1.queueTeams key).foldl (fun y t => y.bankRequest t.1 t.2.1 .watchdog) s1
    | 1 =>
      if !(s.queueTeams key).all fun t => t.2.2.bankOver then s
      else if x.outcome = 0x58 then s.watchdogError key tn 0x58 []
      else
        let s1 := (s.tenant tn).lease.foldl (fun y c => y.modCore c fun k => { k with noNewTeam := true }) (s.setPhase key 2)
        (s1.teamsWhere fun c t => (s.tenant tn).lease.contains c && !t.bankOver).foldl (fun y t => y.bankRequest t.1 t.2.1 .watchdog) s1
    | 2 => if s.leaseBanked tn then (s.setQueue key { x with escalation := 3, resetSince := s.cycle }).leaseTrigger tn else s
    | 3 => if s.leaseDrained tn then s.leaseReset key tn else s
    | _ => s

def execWatchdogExpiry (die q : Nat) (s : State) : Host.Outcome State Fault Refusal := .next (s.watchdog die q)

/-- A queue whose escalation takes a step. -/
def State.watchdogDue (s : State) : Option Instr :=
  ((s.queues.filter fun kq => !(s.die (kq.1 / 256)).fatal).find? fun kq =>
    match s.queueTenant (kq.1 / 256) (kq.1 % 256) with
    | none => false
    | some tn => match kq.2.escalation with
      | 0 => kq.2.expired
      | 1 => (s.queueTeams kq.1).all fun t => t.2.2.bankOver
      | 2 => s.leaseBanked tn
      | 3 => s.leaseDrained tn
      | _ => false).map fun kq => .watchdogExpiry (kq.1 / 256) (kq.1 % 256)

/-! The forced-entry log (R402, R404). -/

/-- Cycles that an entry of a lease being reset has to become FREE. -/
def forcedCycles : Nat := 2 ^ 20
/-- Records that the log holds. -/
def ashRecords : Nat := 5461

/-- A record of the log: the 192-byte form with the tenant number in byte 168 (R404). -/
def Entry.ashRecord (e : Entry) (cycle : Nat) : Nat := (e.form cycle).toNat % 2 ^ 1344 + e.tenant % 64 * 2 ^ 1344

/-- Appends an entry to the log of the core's die; one beyond the last slot is counted and reported as health event 10. -/
def State.logForced (s : State) (core : Nat) (e : Entry) : State :=
  let base := Config.dieSpan * dieOf core + Config.ashBase
  let n := s.natAt base 8
  let count := writesOf base 8 ((n + 1) % 2 ^ 64)
  if n < ashRecords then s.firmwareSend (writesOf (base + 64 + 192 * n) 192 (e.ashRecord s.cycle) ++ count)
  else (s.firmwareSend count).health (dieOf core) 10 0 0

/-- A core of a lease whose reset has waited long enough for its entries. -/
def State.forcing (s : State) (core : Nat) : Bool :=
  s.queues.any fun kq => kq.2.escalation == 3 && decide (kq.2.resetSince + forcedCycles ≤ s.cycle)
    && (match s.queueTenant (kq.1 / 256) (kq.1 % 256) with | some tn => (s.tenant tn).lease.contains core | none => false)

/-- FORCED_ENTRY_LOG (R402): the entry is logged and freed. -/
def State.forceEntry (s : State) (core idx : Nat) : State :=
  match s.entry core idx with
  | none => s
  | some e => if s.forcing core then (s.logForced core e).loseEntryAt core idx else s

def execForcedEntryLog (core index : Nat) (s : State) : Host.Outcome State Fault Refusal := .next (s.forceEntry core index)

/-- The oldest entry of a core that is forced out. -/
def State.forcedDue (s : State) (core : Nat) : Option Instr :=
  if !s.forcing core then none
  else ((sortBy (fun ie => ie.2.stamp) (s.core core).hearth).head?).map fun ie => .forcedEntryLog core ie.1

/-! Debarking sweeps (R57, R58). -/

/-- The fence of CSWEEP has completed: the entries of its core older than it are FREE. -/
def State.sweepStarted (s : State) (w : Sweep) : Bool := (s.core w.core).hearth.all fun ie => decide (w.stamp ≤ ie.2.stamp)

/-- A clause of the tenant's groups is in progress on a core. -/
def State.inClause (s : State) (tenant core : Nat) : Bool :=
  (s.core core).quads.any fun kq => match kq.2.current with
    | some i => (match s.team i.g.core i.g.slot with | some t => t.tenant == tenant | none => false)
    | none => false

/-- What a core holds of a tenant outside its teams: hearth entries, stores not accepted yet, engine work. -/
def Core.sweptEngines (k : Core) (tenant : Nat) (bad : Cap → Bool) : Core :=
  let mine := fun (slot : Nat) => match NMap.find k.teams slot with | some t => t.tenant == tenant | none => false
  { k with
    hearth := k.hearth.map fun ie => if ie.2.tenant == tenant then (ie.1, ie.2.swept bad) else ie
    waiting := k.waiting.map fun w => if mine w.g.slot then { w with pieces := w.pieces.map fun p => { p with tags := sweptTags bad p.data p.tags } } else w
    mqueue := k.mqueue.map fun op => if mine op.g.slot then op.swept bad else op
    mwaiting := k.mwaiting.map fun op => if mine op.g.slot then op.swept bad else op }

/-- The pages of a sweep's bitmap, by virtual address. -/
def Sweep.pages (w : Sweep) : List Nat :=
  let a := w.bitmap.addr.toNat
  (List.range ((a % 4096 + ((capDecode w.bitmap).2 - a) + 4095) / 4096)).map fun i => a / 4096 * 4096 + 4096 * i

/-- The line that the first look at a bitmap waits for: one of a walk, or one of the bitmap that the host owns (R228, R297; log entry 16). -/
def State.bitmapHeld (s : State) (tenant : Nat) (w : Sweep) : Option Nat :=
  w.pages.findSome? fun va => (s.distHost (dieOf w.core) tenant va false).orElse fun _ =>
    match (distTranslate s (dieOf w.core) tenant va false).2 with
    | .ok pa => (s.dir.find? fun x => s.hostOwns x.1 && decide (lineOf pa ≤ x.1) && decide (x.1 < lineOf pa + 32)).map Prod.fst
    | .error _ => none

/-- The first look at the bitmap of a sweep: its pages' walks set A (R228), and the home's bytes are the newest ones. -/
def State.lookBitmap (s : State) (tenant : Nat) (w : Sweep) : State :=
  match s.bitmapHeld tenant w with
  | some ln => s.callBack ln
  | none =>
    let s1 := w.pages.foldl (fun x va => (distTranslate x (dieOf w.core) tenant va false).1) s
    s1.setTenant tenant { s1.tenant tenant with sweep := some { w with looked := true } }

/-- SWEEP_CORE_PHASE (R57), once the bitmap has been looked at: the tenant's registers, maps, rings, commands and hearth entries on the core are swept where they stand; its L1 drops
every line (R220). -/
def State.sweepCore (s : State) (tenant core : Nat) : State :=
  let t := s.tenant tenant
  match t.sweep with
  | none => s
  | some w =>
    if !w.coresLeft.contains core || !s.sweepStarted w || s.inClause tenant core then s
    else if !w.looked then s.lookBitmap tenant w
    else
      let s1 := s.setTenant tenant { t with sweep := some { w with coresLeft := w.coresLeft.filter fun c => c != core } }
      let bad := fun (c : Cap) => s1.revokedBase tenant w (capDecode c).1
      s1.modCore core fun k => { (k.sweptEngines tenant bad) with
        teams := k.teams.map fun st => if st.2.tenant == tenant then (st.1, st.2.swept bad) else st
        l1 := [] }

def execSweepCorePhase (tenant core : Nat) (s : State) : Host.Outcome State Fault Refusal := .next (s.sweepCore tenant core)

/-- A granule lies in a window of the tenant. -/
def State.ownsGranule (s : State) (tenant gr : Nat) : Bool := s.ownerOf (gr * 16) == some tenant

/-- SWEEP_MEMORY_PHASE (R57): every tagged granule of the tenant's windows, every banked image of the tenant, and what its grids keep (R58). -/
def State.sweepMemory (s : State) (tenant : Nat) : State :=
  let t := s.tenant tenant
  match t.sweep with
  | none => s
  | some w =>
    if !w.coresLeft.isEmpty || w.memoryDone then s
    else
      let bad := fun (c : Cap) => s.revokedBase tenant w (capDecode c).1
      let hit := s.memTags.filter fun gr => s.ownsGranule tenant gr && bad ⟨BitVec.ofNat 128 (s.natAt (gr * 16) 16), true⟩
      let s1 := hit.foldl (fun x gr => (x.setGranuleTag gr false).dropCopies (lineOf (gr * 16))) s
      let s2 : State := { s1 with
        images := s1.images.map fun x =>
          if x.2.team.tenant == tenant then
            (x.1, { x.2 with
              team := x.2.team.swept bad
              entries := x.2.entries.map fun e => e.swept bad
              mats := x.2.mats.map fun op => op.swept bad
              mwaits := x.2.mwaits.map fun op => op.swept bad })
          else x
        grids := s1.grids.map fun x => if x.2.tenant == tenant then (x.1, x.2.swept bad) else x
        dir := s1.dir.map fun x => if s.ownsGranule tenant (8 * x.1) then
            (x.1, { x.2 with fwdData := x.2.fwdData.map fun d => (d.1, sweptTags bad d.1 d.2) })
          else x
        cores := s1.cores.map fun kc => (kc.1, { kc.2 with
          l1 := kc.2.l1.map fun l => if hit.any fun gr => lineOf (gr * 16) == l.1 then
              (l.1, { l.2 with tags := (List.range 8).foldl (fun m i => if hit.contains (8 * l.1 + i) then m &&& ~~~(1#8 <<< i) else m) l.2.tags })
            else l }) }
      s2.setTenant tenant { s2.tenant tenant with sweep := some { w with memoryDone := true } }

def execSweepMemoryPhase (tenant : Nat) (s : State) : Host.Outcome State Fault Refusal := .next (s.sweepMemory tenant)

/-- The line that the epoch's increment waits for: the host owns it, or it is one of the walk's (R228, R297). -/
def State.epochHeld (s : State) (tenant : Nat) (w : Sweep) : Option Nat :=
  (walkHost s tenant w.bitmap.addr.toNat).orElse fun _ => match s.peekVa tenant w.bitmap.addr.toNat with
    | some pa => if s.homeReadable (lineOf pa) then none else some (lineOf pa)
    | none => none

/-- The capabilities of a packet's lanes that a test refuses lose their tags. -/
def Packet.swept (p : Packet) (bad : Cap → Bool) : Packet :=
  let word := fun (l j : Nat) => ((p.values.find? fun x => x.1 == j && x.2.1 == l).map fun x => x.2.2.toNat).getD 0
  { p with ctags := lanesMask ((lanesOf 64 p.ctags).filter fun l =>
      !bad ⟨BitVec.ofNat 128 (word l 0 + 2 ^ 32 * word l 1 + 2 ^ 64 * word l 2 + 2 ^ 96 * word l 3), true⟩) }

/-- What a tenant's sweep still finds on its way when its phases are over: late LDCs, and sends that have not left the device (R58, R59). -/
def State.sweepFlights (s : State) (tenant : Nat) (bad : Cap → Bool) : State :=
  { s with
    cores := s.cores.map fun kc => (kc.1, { kc.2 with teams := kc.2.teams.map fun st =>
      if st.2.tenant == tenant then (st.1, { st.2 with groups := st.2.groups.map fun kg => (kg.1, { kg.2 with lates := kg.2.lates.map (Late.swept bad) }) })
      else st })
    grids := s.grids.map fun x => if x.2.tenant == tenant then (x.1, x.2.swept bad) else x
    packets := s.packets.map fun x => if x.2.tenant == tenant then (x.1, x.2.swept bad) else x }

/-- SWEEP_COMPLETE (R58): nothing revoked is left on its way, and the epoch word rises by one, at home. -/
def State.sweepEnd (s : State) (tenant : Nat) : State :=
  let t := s.tenant tenant
  match t.sweep with
  | none => s
  | some w =>
    if !w.coresLeft.isEmpty || !w.memoryDone then s
    else match s.epochHeld tenant w with
    | some ln => s.callBack ln
    | none =>
      let s0 := s.sweepFlights tenant fun c => s.revokedBase tenant w (capDecode c).1
      let s1 := s0.setTenant tenant { t with sweep := none }
      match s1.peekVa tenant w.bitmap.addr.toNat with
      | some pa => s1.deviceSend .plain (writesOf pa 8 ((s1.visNat pa 8 + 1) % 2 ^ 64) ++ s1.marksOf [(pa, 8)])
      | none => s1

def execSweepComplete (tenant : Nat) (s : State) : Host.Outcome State Fault Refusal := .next (s.sweepEnd tenant)

/-- What a tenant's sweep does next. -/
def State.sweepDue (s : State) : Option Instr :=
  s.tenants.findSome? fun kt =>
    match kt.2.sweep with
    | none => none
    | some w =>
      match w.coresLeft with
      | [] => if !w.memoryDone then some (.sweepMemoryPhase kt.1) else if s.askDue (s.epochHeld kt.1 w) then some (.sweepComplete kt.1) else none
      | cs => if s.sweepStarted w && (w.looked || s.askDue (s.bitmapHeld kt.1 w)) then (cs.find? fun c => !s.inClause kt.1 c).map fun c => .sweepCorePhase kt.1 c else none

end Sys2Proof.Machine
end

