-- ==== Sys2Proof/Machine/Security.lean ====
section
/-! DEFINITION. Device interfaces, attestation, worlds and debug unlock (spec/22, R426 to R432; spec/23, R440). -/
namespace Sys2Proof.Machine

/-! Mailbox commands that end later. -/

/-- The argument of a mailbox's command (R436). -/
def Mailbox.arg (m : Mailbox) : Nat := bitsOf m.cmd.toNat 8 56

/-- Every command of a code that a test picks by its mailbox and argument ends. -/
def State.mbFinish (s : State) (code : Nat) (f : Nat → Nat → Bool) (status : Nat) : State :=
  (s.mailboxes.filter fun km => km.2.busy && km.2.cmd.toNat % 256 == code && f km.1 km.2.arg).foldl (fun x km => x.mbDone km.1 status) s

/-! Queues and teams of a tenant. -/

/-- Every queue of a tenant that is one goes to STOP (R428, R440). -/
def State.stopQueues (s : State) (tenant : Nat) : State :=
  { s with queues := s.queues.map fun kq =>
      if (s.tenant tenant).ownsQueue (kq.1 / 256) (kq.1 % 256) && kq.2.st != .off then (kq.1, { kq.2 with st := .stop }) else kq }

/-- The event that KILL adds to a team's grid (R394): KIND 3, with the cause of the trap that a group of it awaits GRESUME for, or none (log entry 144). -/
def State.killEvent (s : State) (t : Team) : State :=
  match t.groups.findSome? fun kg => if kg.2.awaiting then kg.2.cur else none with
  | some r => s.gridEvent t.grid t.index 3 r.cause.code r.flm r.word
  | none => s.gridEvent t.grid t.index 3 0 0 0

/-- Every team that a test picks is ended by KILL (R394). -/
def State.killTeams (s : State) (f : Team → Bool) : State :=
  (s.teamsWhere fun _ t => f t && !t.killed).foldl (fun x t => (x.killEvent t.2.2).endTeam t.1 t.2.1) s

/-- Banked teams that a test picks are ended by KILL: they retire once they are rekindled. -/
def State.killImages (s : State) (f : Team → Bool) : State :=
  let hit := fun (t : Team) => f t && !t.killed
  let kill := fun (im : Image) => { im with
    team := { im.team with groups := im.team.groups.map fun kg => (kg.1, kg.2.endLanes), killed := true } }
  (s.images.filter fun x => hit x.2.team).foldl (fun y x => y.killEvent x.2.team)
    { s with images := s.images.map fun x => (x.1, if hit x.2.team then kill x.2 else x.2) }

/-! The device interface of a tenant (R428). -/

def State.setTdi (s : State) (tenant : Nat) (x : TdiState) : State := s.setTenant tenant { s.tenant tenant with tdi := x }

/-- LOCK_INTERFACE (R428): operand tenant; with a bound stream that is keyed, from CONFIG_UNLOCKED; else an error response and no change. -/
def State.lockInterface (s : State) : State :=
  let t := s.tenant s.req.tenant
  if t.tdi == .unlocked && t.boundStream.any s.pkg.ideStreams.contains then s.setTdi s.req.tenant .locked else s

def execLockInterface (s : State) : Host.Outcome State Fault Refusal := .next (s.whenReady s.lockInterface)

/-- GET_DEVICE_INTERFACE_REPORT (R427): the answer that the session keeps; nothing else changes. -/
def execGetDeviceInterfaceReport (s : State) : Host.Outcome State Fault Refusal :=
  .next (s.whenReady (s.setTenant s.req.tenant { s.tenant s.req.tenant with answer := some ⟨11, [], Config.identity 2 s.pkg.key, none⟩ }))

/-- START_INTERFACE (R428): operand tenant. -/
def State.startInterface (s : State) : State := if (s.tenant s.req.tenant).tdi == .locked then s.setTdi s.req.tenant .run else s

def execStartInterface (s : State) : Host.Outcome State Fault Refusal := .next (s.whenReady s.startInterface)

/-- STOP_INTERFACE (R428): operand tenant. -/
def State.stopInterface (s : State) : State :=
  match (s.tenant s.req.tenant).tdi with
  | .unlocked => s
  | .locked => s.setTdi s.req.tenant .unlocked
  | _ => (s.setTdi s.req.tenant .unlocked).stopQueues s.req.tenant

def execStopInterface (s : State) : Host.Outcome State Fault Refusal := .next (s.whenReady s.stopInterface)

/-- The interface enters ERROR from CONFIG_LOCKED or RUN. -/
def Tenant.tdiFails (t : Tenant) : Tenant := if t.tdi == .locked || t.tdi == .run then { t with tdi := .error } else t

/-- IDE_STREAM_FAIL (R428): operand index (the stream); every interface bound to it enters ERROR. With flag2 the protection of CXL.cache and CXL.mem of
port `index` ends (R427; log entry 145). -/
def State.streamFails (s : State) : State :=
  let n := s.req.index
  if s.req.flag2 then { s with pkg := { s.pkg with cxlIde := setIn s.pkg.cxlIde n false } }
  else
    { s with
      tenants := s.tenants.map fun kt => if kt.2.boundStream == some n then (kt.1, kt.2.tdiFails) else kt
      pkg := { s.pkg with ideStreams := setIn s.pkg.ideStreams n false } }

def execIdeStreamFail (s : State) : Host.Outcome State Fault Refusal := .next s.streamFails

/-- TDI_CONFIG_WRITE (R428): operand tenant; accepted in CONFIG_UNLOCKED, discarded in ERROR. With flag it commits HDM decoder `index` at the host base
`ia` (R434). -/
def State.configWrite (s : State) : State :=
  let r := s.req
  let t := s.tenant r.tenant
  if t.tdi == .unlocked then (if r.flag && r.index < 4 then s.setTenant r.tenant { t with hdm := NMap.set t.hdm r.index r.ia } else s)
  else s.setTenant r.tenant t.tdiFails

def execTdiConfigWrite (s : State) : Host.Outcome State Fault Refusal := .next (s.whenReady s.configWrite)

/-- Streams of the two host ports, 64 each: stream n belongs to port n / 64 (R427). -/
def streamLimit : Nat := 128

/-- IDE_KM (R427): operands tenant, index (the stream): it is keyed, and bound to the interface while that is unlocked,
if it is a stream of the interface's port (R432). With flag2 it keys the protection of CXL.cache and CXL.mem of port `index`, in containment mode
(log entry 145). -/
def State.ideKm (s : State) : State :=
  let r := s.req
  let t := s.tenant r.tenant
  if r.flag2 then (if r.index < 2 then { s with pkg := { s.pkg with cxlIde := setIn s.pkg.cxlIde r.index true } } else s)
  else if streamLimit ≤ r.index then s
  else
    let s1 := { s with pkg := { s.pkg with ideStreams := setIn s.pkg.ideStreams r.index true } }
    if t.tdi == .unlocked && r.index / 64 == tenantPort r.tenant then s1.setTenant r.tenant { t with boundStream := some r.index } else s1

def execIdeKm (s : State) : Host.Outcome State Fault Refusal := .next (s.whenReady s.ideKm)

/-- FUNCTION_LEVEL_RESET (R440): operand tenant. -/
def State.functionReset (s : State) : State :=
  let n := s.req.tenant
  (((s.setTdi n .unlocked).stopQueues n).killTeams fun t => t.tenant == n).killImages fun t => t.tenant == n

def execFunctionLevelReset (s : State) : Host.Outcome State Fault Refusal := .next (s.whenReady s.functionReset)

/-! Attestation (R427, R430): operands tenant, off (the SPDM version of the request). The standards fix the messages; the model keeps the answer's
code, its signature and what derives from the device key in it, and the transcript hash, whose value is free (log entry 4). -/

/-- SPDM 1.2 and 1.3 (R427). -/
def spdmVersions : List Nat := [0x12, 0x13]

/-- A request of a session: its number, the transcript that it extends, and its answer; signed: the RSA-3072 signature over the new transcript. One of
a version that the device does not support gets an error response and changes nothing else. -/
def State.spdmRequest (s : State) (n : Nat) (signed : Bool) (payload : Nat := 0) : State :=
  let r := s.req
  let t := s.tenant r.tenant
  if n != 1 && !spdmVersions.contains r.off then s.setTenant r.tenant { t with answer := some ⟨0x7F, [], 0, none⟩ }
  else
    let h := (Config.securityValue s.pkg.freeCount).toNat
    s.useFree.setTenant r.tenant { t with
      spdm := n
      transcript := h
      version := if n = 1 then 0 else r.off
      answer := some ⟨n, if n = 1 then spdmVersions else [], payload, if signed then some (0, Config.signatureOf 0 s.pkg.key h) else none⟩ }

/-- GET_VERSION: the answer names both versions. -/
def execGetVersion (s : State) : Host.Outcome State Fault Refusal := .next (s.whenReady (s.spdmRequest 1 false))
/-- GET_CAPABILITIES. -/
def execGetCapabilities (s : State) : Host.Outcome State Fault Refusal := .next (s.whenReady (s.spdmRequest 2 false))
/-- NEGOTIATE_ALGORITHMS. -/
def execNegotiateAlgorithms (s : State) : Host.Outcome State Fault Refusal := .next (s.whenReady (s.spdmRequest 3 false))
/-- GET_DIGESTS. -/
def execGetDigests (s : State) : Host.Outcome State Fault Refusal := .next (s.whenReady (s.spdmRequest 4 false (Config.identity 0 s.pkg.key)))
/-- GET_CERTIFICATE. -/
def execGetCertificate (s : State) : Host.Outcome State Fault Refusal := .next (s.whenReady (s.spdmRequest 5 false (Config.identity 1 s.pkg.key)))
/-- CHALLENGE: a signed answer. -/
def execChallenge (s : State) : Host.Outcome State Fault Refusal := .next (s.whenReady (s.spdmRequest 6 true))

/-- What a measurement report says (R430): the debug state, the LIVE worlds that are excluded, the partition of each die, and the version and the
measurement of the firmware image. -/
structure Report where
  unlocked : Bool
  excluded : List Nat
  parts : List Nat
  version : Nat
  image : BitVec 256
  deriving DecidableEq, Repr

/-- The report that an attestation request made now carries (R430, R431). -/
def State.report (s : State) : Report where
  unlocked := s.pkg.debugUnlocked
  excluded := (s.worlds.filter fun kw => kw.2.st == .live && kw.2.excluded).map Prod.fst
  parts := (List.range Config.dies).map fun d => (s.die d).part
  version := ((NMap.find s.pkg.flash s.pkg.bootSlot).map FlashSlot.version).getD 0
  image := ((NMap.find s.pkg.flash s.pkg.bootSlot).map fun f => Config.securityValue f.measure).getD 0

/-- The report's words, as the model keeps the last one of a session. -/
def Report.words (r : Report) : NMap W64 :=
  [(0, if r.unlocked then 1 else 0), (1, BitVec.ofNat 64 (r.excluded.foldl (fun n w => n + 2 ^ w) 0)),
   (2, BitVec.ofNat 64 (r.parts.zipIdx.foldl (fun n p => n + p.1 % 4 * 4 ^ p.2) 0)), (3, BitVec.ofNat 64 r.version)]
    ++ (List.range 4).map fun i => (4 + i, r.image.extractLsb' (64 * i) 64)

/-- GET_MEASUREMENTS (R430, R431): the report of this moment is what the session has last been told, in a signed answer. -/
def State.measure (s : State) : State :=
  let s1 := s.spdmRequest 7 true
  if spdmVersions.contains s.req.off then s1.setTenant s.req.tenant { s1.tenant s.req.tenant with measured := s.report.words } else s1

def execGetMeasurements (s : State) : Host.Outcome State Fault Refusal := .next (s.whenReady s.measure)
/-- KEY_EXCHANGE: a signed answer. -/
def execKeyExchange (s : State) : Host.Outcome State Fault Refusal := .next (s.whenReady (s.spdmRequest 8 true))
/-- FINISH. -/
def execFinish (s : State) : Host.Outcome State Fault Refusal := .next (s.whenReady (s.spdmRequest 9 false))

/-- SLH_SIG (R430): the SLH-DSA signature over the transcript hash as it stands. -/
def State.slhSig (s : State) : State :=
  let t := s.tenant s.req.tenant
  s.setTenant s.req.tenant { t with spdm := 10, answer := some ⟨10, [], 0, some (1, Config.signatureOf 1 s.pkg.key t.transcript)⟩ }

def execSlhSig (s : State) : Host.Outcome State Fault Refusal := .next (s.whenReady s.slhSig)

/-! Worlds and debug (R426, R431): operands index (the mailbox), value (the argument: the world), flag. -/

/-- The key of a world, while it has one (R424): from the device key and the nonce of its creation. -/
def State.worldKey (s : State) (w : Nat) : Option (BitVec 256) := (s.world w).key.map fun n => Config.derivedKey s.pkg.key (Config.securityValue n)

/-- WORLD_CREATE (R426, R431): a fresh nonce is drawn. -/
def State.worldCreate (s : State) : State :=
  let k := s.req.index
  let w := s.req.value.toNat
  if s.pkg.debugUnlocked then s.mbDone k 5
  else if w = 0 || 16 ≤ w || (s.world w).st != .free then s.mbDone k 1
  else ((s.setWorld w ⟨.live, some s.pkg.freeCount, false⟩).useFree).mbDone k 0

def execWorldCreate (s : State) : Host.Outcome State Fault Refusal := .next (s.whenReady s.worldCreate)

/-- Memory that a test picks by address is written with zero, line by line whole: tags and errors of it are gone. -/
def State.wipe (s : State) (f : Nat → Bool) : State :=
  { s with
    mem := s.mem.filter fun c => !f c.1
    memTags := s.memTags.filter fun g => !f (16 * g)
    badLines := s.badLines.filter fun l => !f (128 * l)
    macBad := s.macBad.filter fun l => !f (128 * l) }

/-- Lines of a world that the directory holds an entry of. -/
def State.worldLines (s : State) (w : Nat) : List Nat := (NMap.keys s.dir).filter fun ln => s.inWorld w (128 * ln)

/-- Queues with a taken grid of a world. -/
def State.worldQueues (s : State) (w : Nat) : List Nat :=
  ((s.grids.filter fun x => !x.2.complete && descWorld x.2.desc == w).map fun x => queueKey x.2.die x.2.queue).dedup

/-- The teams of a world are gone from every core. -/
def State.worldEmpty (s : State) (w : Nat) : Bool :=
  (s.teamsWhere fun _ t => descWorld t.desc == w).isEmpty

/-- WORLD_DESTROY, first part: DYING, queues stopped, teams killed, its banked images lost, and with them their forwarding entries (R92). -/
def State.worldDies (s : State) (w : Nat) : State :=
  let s1 := s.setWorld w { s.world w with st := .dying }
  let s2 := (s.worldQueues w).foldl (fun x k => x.setQueue k { x.queue k with st := .stop }) s1
  let s3 := s2.killTeams fun t => descWorld t.desc == w
  let gone := s3.images.filter fun x => descWorld x.2.team.desc == w
  let s4 : State := { s3 with images := s3.images.filter fun x => descWorld x.2.team.desc != w }
  gone.foldl (fun x im => (if im.2.team.killed then x else x.killEvent im.2.team).teamGone im.2.team.grid) (s4.dropForwards fun f => f.image && gone.any fun im => im.1 == f.imageId)

/-- WORLD_DESTROY, second part: the latches change and the key is erased. -/
def State.eraseKey (s : State) (w : Nat) : State :=
  { s.setWorld w { s.world w with key := none } with cores := s.cores.map fun kc => if kc.2.world == w then (kc.1, kc.2.latch 0) else kc }

/-- WORLD_DESTROY, last part: windows and MAC reserves are zeroed, the world is FREE. -/
def State.worldFrees (s : State) (w : Nat) : State := (s.wipe (s.inWorld w)).setWorld w World.fresh

/-- WORLD_DESTROY goes on (R426, R301): once the world's teams have retired, its key is erased; F takes every line of it back from its holders and its
copies, the host's among them, zeroes it when none is out any more, and sets the world FREE. -/
def State.worldGoes (s : State) (w : Nat) : State :=
  if !s.worldEmpty w then s
  else if (s.world w).key.isSome then s.eraseKey w
  else
    let ls := s.worldLines w
    let ask := ls.filter fun ln => (s.dirAt ln).unasked
    if !ask.isEmpty then ask.foldl (fun x ln => x.loseDirEntry ln) s
    else if ls.all fun ln => (s.dirAt ln).atRest then (s.worldFrees w).mbFinish 0x13 (fun k a => decide (k < 4) && a == w) 0
    else s

/-- WORLD_DESTROY (R426): it begins at the command, and goes on by itself. -/
def State.worldDestroy (s : State) : State :=
  let w := s.req.value.toNat
  match (s.world w).st with
  | .free => s.mbDone s.req.index 1
  | .live => if w = 0 then s.mbDone s.req.index 1 else s.worldDies w
  | .dying => s.worldGoes w

def execWorldDestroy (s : State) : Host.Outcome State Fault Refusal := .next (s.whenReady s.worldDestroy)

/-- DBG_UNLOCK (R431, R429): flag says that the token verifies under both signatures. -/
def State.debugUnlock (s : State) : State :=
  let k := s.req.index
  if !s.req.flag then s.mbDone k 4
  else if s.pkg.debugUnlocked then s.mbDone k 0
  else
    ({ s with
      pkg := { s.pkg with debugUnlocked := true }
      worlds := s.worlds.map fun kw => if kw.2.st == .live then (kw.1, { kw.2 with excluded := true }) else kw } : State).mbDone k 0

def execDbgUnlock (s : State) : Host.Outcome State Fault Refusal := .next (s.whenReady s.debugUnlock)

/-- The destruction of a world can go on. -/
def State.worldReady (s : State) (w : Nat) : Bool :=
  let ls := s.worldLines w
  s.worldEmpty w && ((s.world w).key.isSome || ls.any (fun ln => (s.dirAt ln).unasked) || ls.all fun ln => (s.dirAt ln).atRest)

/-- A dying world that can go on. -/
def State.worldDue (s : State) : Option Happening :=
  (s.worlds.find? fun kw => kw.2.st == .dying && s.worldReady kw.1).map fun kw =>
    ⟨.worldDestroy, { Request.zero with value := BitVec.ofNat 64 kw.1 }⟩

end Sys2Proof.Machine
end

