-- ==== Sys2Proof/Machine/Firmware.lean ====
section
/-! DEFINITION. Firmware (spec/22, R410 to R414; spec/23, R436 to R444; spec/18, R370 to R377; spec/20, R404, R406): resets, the partition table,
partitions, admission, links, checkpoints, health, power, ash images. -/
namespace Sys2Proof.Machine

/-! Resets (R376, R440, R441). -/

/-- The incarnation drawn at a reset: never zero (R376). -/
def drawnIncarnation (n : Nat) : BitVec 32 := if Config.deviceIncarnation n = 0 then 1 else Config.deviceIncarnation n

/-- The flash slot that boots: the valid one with the highest version that is at least the floor; ties go to slot 0 (R441). -/
def Package.bootChoice (p : Package) : Option (Nat × Nat) :=
  let ok := fun (i : Nat) => match NMap.find p.flash i with | some f => if f.valid && decide (p.floor ≤ f.version) then some (i, f.version) else none | none => none
  match ok 0, ok 1 with
  | some a, some b => if a.2 < b.2 then some b else some a
  | some a, none => some a
  | none, b => b

/-- BOOTSTAT once the image is chosen: STAGE, slot in bit 8 and version in bits 15 to 9. -/
def bootWord (stage slot version : Nat) : W64 := BitVec.ofNat 64 (stage + (slot % 2 + 2 * (version % 128)) * 256)

/-- STAGE of BOOTSTAT becomes `n`. -/
def Package.stage (p : Package) (n : Nat) : Package := { p with bootstat := (p.bootstat &&& ~~~15#64) ||| BitVec.ofNat 64 n }

/-- The ports after a reset (R3, R440). A warm one keeps the Spindle ports' training, PRESENT, UP and the peer, under the device's new number; a cold
one takes the far ends of its links down. The words of other nodes are not the device's. -/
def State.rebootedPorts (s : State) (warm : Bool) (self : Nat) : NMap W64 :=
  s.ports.foldl (fun m x =>
    let (n, k) := (x.1 / 64, x.1 % 64)
    if n / 4 = s.pkg.selfDevice then
      (if warm && 8 ≤ k && portUp x.2 then NMap.set m (portKey (4 * self + n % 4) k)
        (s.trainedWord (4 * self + n % 4) k (portPeerNode x.2) (portPeerPort x.2) 0) else m)
    else NMap.set m x.1 (if !warm && portPeerNode x.2 / 4 == s.pkg.selfDevice then x.2 &&& ~~~2#64 else x.2)) []

/-- The device number that the image of the boot gives. -/
def Package.bootDevice (p : Package) : Nat := ((p.bootChoice.bind fun x => NMap.find p.flash x.1).map FlashSlot.device).getD 0

/-- The steps of a boot, in their order (R441). -/
def bootSteps : List Happening := (List.range 5).map fun k => ⟨.reset, { Request.zero with split := k + 1 }⟩

/-- What a reset leaves (R3, R440, R441): every state is lost but the flash; a warm reset keeps the ports trained; host memory and fabric-attached memory
are not the device's. The boot follows, from STAGE 0. -/
def State.rebooted (s : State) (warm : Bool) : State :=
  { State.reset with
    mem := s.mem.filter fun c => decide (Config.hostBase ≤ c.1)
    fabric := s.fabric
    ports := s.rebootedPorts warm s.pkg.bootDevice
    agenda := bootSteps
    pkg := { Package.reset with
      deviceKey := none
      dinc := drawnIncarnation s.pkg.freeCount
      flash := s.pkg.flash
      floor := s.pkg.floor
      bootstat := 0
      freeCount := s.pkg.freeCount + 1 } }

/-- One step of a boot, each after the one before (R441): 1 derives the device key, the same at every boot (R2; log entry 5), 2 picks the image, which configures the device (R2), or finds none,
so that all dies stay in reset; 3 tests the memories and gives the bucket tables their reset form, 4 trains the ports; 5 enables the host ports. -/
def State.bootStep (s : State) (k : Nat) : State :=
  let p := s.pkg
  if p.bootstat.toNat % 16 + 1 ≠ k || 5 < k then s
  else match k with
  | 1 => { s with pkg := { p with deviceKey := some 0 }.stage 1 }
  | 2 => match p.bootChoice with
    | some (i, v) => { s with pkg := { p with bootSlot := i, selfDevice := p.bootDevice, bootstat := bootWord 2 i v } }
    | none => { s with
        pkg := { p with bootstat := 0xF }
        dies := (List.range Config.dies).map fun d => (d, { Die.fresh with fatal := true }) }
  | 3 => { s with pkg := p.stage 3, dies := s.dies.map fun kd => (kd.1, { kd.2 with buckets := [] }) }
  | n => { s with pkg := p.stage n }

/-- RESET (R440): the command, a warm reset; with split one of the steps of the boot after a reset. -/
def execReset (s : State) : Host.Outcome State Fault Refusal :=
  .next (if s.req.split = 0 then s.whenReady (s.rebooted true) else s.bootStep s.req.split)
/-- COLD_RESET (R440). -/
def execColdReset (s : State) : Host.Outcome State Fault Refusal := .next (s.rebooted false)

/-- IMAGE (R441, R429, R2): operands index (the mailbox), value (the security version), slot (the device number that the image configures), flag
(both signatures verify), flag2 (the floor record is raised to this version). The slot that did not boot is written, with the image's measurement. -/
def State.imageWrite (s : State) : State :=
  let r := s.req
  let v := r.value.toNat
  if !r.flag then s.mbDone r.index 4
  else if v < s.pkg.floor then s.mbDone r.index 1
  else ({ s.useFree with pkg := { s.useFree.pkg with
      flash := NMap.set s.pkg.flash (1 - s.pkg.bootSlot) ⟨v, true, r.slot % 1024, s.pkg.freeCount⟩
      floor := if r.flag2 then max s.pkg.floor v else s.pkg.floor } } : State).mbDone r.index 0

def execImage (s : State) : Host.Outcome State Fault Refusal := .next (s.whenReady s.imageWrite)

/-- POWERCAP (R444): operands index, value in watts. -/
def State.powerCap (s : State) : State :=
  let v := s.req.value.toNat
  if v < 1800 || 3600 < v then s.mbDone s.req.index 1
  else ({ s with pkg := { s.pkg with powercap := v } } : State).mbDone s.req.index 0

def execPowercap (s : State) : Host.Outcome State Fault Refusal := .next (s.whenReady s.powerCap)

/-! The topology map (R370 to R373; log entry 122 for the places of its tables). -/

/-- The places of the tables of a map, and its bytes. -/
def mapNodeOff : Nat := 64
def mapPortOff : Nat := mapNodeOff + 16 * 8192
def mapRouteOff : Nat := mapPortOff + 8 * (14 * 4096 + 64 * 4096)
def mapBytes : Nat := mapRouteOff + 16 * 8 * 4096 * 4

/-- The port table index of a node's port 0. -/
def mapPortIx (n : Nat) : Nat := if n < 4096 then 14 * n else 14 * 4096 + 64 * (n - 4096)

/-- Switch nodes that fabric firmware has given ports. -/
def State.switchCount (s : State) : Nat := s.ports.foldl (fun m x => max m (min 4096 (x.1 / 64 + 1 - 4096))) 0

/-- The nodes that the map describes: this device's dies, those of the fabric members, the switches. -/
def State.mapNodes (s : State) : List Nat :=
  ((s.pkg.selfDevice :: (s.peers.map Prod.fst).filter fun v => v != s.pkg.selfDevice).flatMap fun v => (List.range 4).map fun d => 4 * v + d)
    ++ (List.range s.switchCount).map fun i => 4096 + i

/-- The entry of such a node (R371). -/
def State.nodeEntry (s : State) (n : Nat) : Nat :=
  let v := n / 4
  let own := v == s.pkg.selfDevice
  let p := NMap.getD s.peers v ⟨0, 0, 0, 0, 0, false⟩
  if 4096 ≤ n then 2 * 2 ^ 30 + mapPortIx n * 2 ^ 32 + 64 * 2 ^ 64
  else n % 4 + v * 4 + 2 ^ 30 + mapPortIx n * 2 ^ 32 + 14 * 2 ^ 64 + (if own then 1 else p.state % 4) * 2 ^ 94
    + (if own then s.pkg.dinc else p.dinc).toNat * 2 ^ 96

/-- The links that leave a node and are open to a tenant (R366): port, and the node that it leads to. -/
def State.openLinks (s : State) (tenant n : Nat) : List (Nat × Nat) :=
  let rfw := s.openPorts tenant
  let fdom := (s.tenant tenant).fdom
  let self := s.pkg.selfDevice
  (List.range (if n < 4096 then 14 else 64)).filterMap fun k =>
    let o := s.portWord n k
    let q := s.portWord (portPeerNode o) (portPeerPort o)
    if portPresent o && portUp o && portUp q && !shut self rfw fdom o n k && !shut self rfw fdom q (portPeerNode o) (portPeerPort o) then
      some (k, portPeerNode o) else none

/-- A shortest path to a node, in rounds from the nodes reached so far, each with its path; no node twice, and no link that `used` names. -/
def State.pathTo (s : State) (tenant t : Nat) (used : List (Nat × Nat)) : Nat → List Nat → List (Nat × List (Nat × Nat)) → Option (List (Nat × Nat))
  | 0, _, _ => none
  | fuel + 1, seen, front =>
    let step := fun (a : List Nat × List (Nat × List (Nat × Nat))) (x : Nat × List (Nat × Nat)) =>
      ((s.openLinks tenant x.1).filter fun kn => !used.contains (x.1, kn.1)).foldl (fun b kn =>
        if b.1.contains kn.2 then b else (kn.2 :: b.1, b.2 ++ [(kn.2, x.2 ++ [(x.1, kn.1)])])) a
    let (seen1, front1) := front.foldl step (seen, [])
    match front1.find? fun x => x.1 == t with
    | some x => some x.2
    | none => if front1.isEmpty then none else s.pathTo tenant t used fuel seen1 front1

/-- Paths to a node that share no link, the shortest first. -/
def State.pathsTo (s : State) (tenant n t : Nat) : Nat → List (Nat × Nat) → List (List (Nat × Nat))
  | 0, _ => []
  | fuel + 1, used =>
    match s.pathTo tenant t used 12 [n] [(n, [])] with
    | none => []
    | some p => p :: s.pathsTo tenant n t fuel (used ++ p.flatMap fun x => [x, (portPeerNode (s.portWord x.1 x.2), portPeerPort (s.portWord x.1 x.2))])

/-- A route word with ENDPOINT zero over the given ports, which raises the lane class at datelines (R363, R366). -/
def State.routeWord (s : State) (t : Nat) (hops : List (Nat × Nat)) : Nat :=
  let b := fun (x : Nat × Nat) => 4 * x.2 + (if portDateline (s.portWord x.1 x.2) then 2 else 0)
  hops.zipIdx.foldl (fun v x => v + b x.1 * 256 ^ x.2) 0 + t % 4 * 2 ^ 108 + t / 4 * 2 ^ 110 + hops.length * 2 ^ 124

/-- The precomputed routes of a tenant from die `d` to a node (R372): the empty one to itself; else paths over links that are open to the tenant, eight at
most, which share no link, in order of hop count. One that would need a class above 3 is left out (R366). -/
def State.mapRoutes (s : State) (tenant d t : Nat) : List Nat :=
  let n := 4 * s.pkg.selfDevice + d
  if n = t then [s.routeWord t []]
  else ((s.pathsTo tenant n t 8 []).filter fun p => decide ((p.filter fun x => portDateline (s.portWord x.1 x.2)).length ≤ 3)).map (s.routeWord t)

/-- The eight entries of a pair, the unused ones with HOPS 0xF. -/
def State.routeEntries (s : State) (tenant d t : Nat) : List Nat :=
  let l := s.mapRoutes tenant d t
  l ++ List.replicate (8 - l.length) (15 * 2 ^ 124)

/-- The physical address of a tenant's map: it lies whole in the tenant's window of its lowest die (R370). -/
def Tenant.mapBase (t : Tenant) : Option Nat :=
  match (List.range Config.dies).find? fun d => t.winLimit d != 0 with
  | some d => if d * 2 ^ 40 ≤ t.topo && t.topo + mapBytes ≤ d * 2 ^ 40 + t.winLimit d then t.paOf t.topo else none
  | none => none

/-- The entries of a tenant's map for the nodes that it describes: node table, port table, route table. -/
def State.mapEntries (s : State) (tenant pa : Nat) : List DevStep :=
  let ns := s.mapNodes
  (ns.flatMap fun n => writesOf (pa + mapNodeOff + 16 * n) 16 (s.nodeEntry n))
    ++ (ns.flatMap fun n => (List.range (if n < 4096 then 14 else 64)).flatMap fun k =>
      writesOf (pa + mapPortOff + 8 * (mapPortIx n + k)) 8 (s.portWord n k).toNat)
    ++ ((List.range 4).flatMap fun d => (ns.filter fun n => decide (n < 4096)).flatMap fun t => (s.routeEntries tenant d t).zipIdx.flatMap fun r =>
      writesOf (pa + mapRouteOff + 16 * (8 * (4096 * d + t) + r.2)) 16 r.1)
    ++ writesOf (pa + 22) 2 s.switchCount

/-- The header of a map (R370). -/
def State.mapHeader (s : State) : Nat :=
  s.pkg.topoGen % 2 ^ 64 + 2 ^ 72 + 0x5A4D * 2 ^ 80 + s.pkg.selfDevice % 1024 * 2 ^ 112 + s.pkg.dinc.toNat * 2 ^ 128 + s.switchCount * 2 ^ 176
    + mapNodeOff * 2 ^ 192 + mapPortOff * 2 ^ 256 + mapRouteOff * 2 ^ 320

/-- F writes a tenant's map whole (R370 to R372): every table empty, then the entries, the header last. -/
def State.mapCreate (s : State) (tenant : Nat) : State :=
  match (s.tenant tenant).mapBase with
  | none => s
  | some pa =>
    let empty := writesOf pa mapRouteOff 0 ++ (List.range (8 * 4096 * 4)).flatMap fun i => writesOf (pa + mapRouteOff + 16 * i) 16 (15 * 2 ^ 124)
    s.firmwareSend (empty ++ s.mapEntries tenant pa ++ writesOf pa 64 s.mapHeader)

/-- The maps that F has written. -/
def State.liveMaps (s : State) : List (Nat × Nat) :=
  s.tenants.filterMap fun kt => if kt.2.valid then kt.2.mapBase.map fun pa => (kt.1, pa) else none

/-- GEN is written to every map, after the steps that `before` gives. -/
def State.mapGens (s : State) (n : Nat) (before : Nat → Nat → List DevStep) : State :=
  (s.liveMaps).foldl (fun x m => x.firmwareSend (before m.1 m.2 ++ writesOf m.2 8 (n % 2 ^ 64))) { s with pkg := { s.pkg with topoGen := n } }

/-- A change of the maps is to be made (R373). One that is under way takes it in. -/
def State.mapBegin (s : State) : State := if s.liveMaps.isEmpty then s else { s with pkg := { s.pkg with mapOwed := true } }

/-- No write of F and the other agents without a name is on its way. -/
def State.plainIdle (s : State) : Bool := s.dir.all fun x => !x.2.queue.any (HomeReq.ownedBy .plain)

/-- A change of the maps goes on (R373), once the writes before have been made: GEN becomes odd; then the entries are written, as the ports and the
peers are now, and GEN becomes even. -/
def State.mapFollow (s : State) : State :=
  if !s.plainIdle then s
  else if s.pkg.topoGen % 2 = 1 then { s with pkg := { s.pkg with mapOwed := false } }.mapGens (s.pkg.topoGen + 1) s.mapEntries
  else if s.pkg.mapOwed then s.mapGens (s.pkg.topoGen + 1) fun _ _ => []
  else s

/-- A change of the maps can go on: the second half of LINK_UP. -/
def State.mapDue (s : State) : Option Happening :=
  if (s.pkg.mapOwed || s.pkg.topoGen % 2 == 1) && s.plainIdle then some ⟨.linkUp, { Request.zero with slot := 1 }⟩ else none

/-! Admission (R376, R377). -/

/-- A device that has never been a member (R376). -/
def Peer.fresh : Peer := ⟨0, 0, 0, 0, 0, false⟩

/-- ADMIT (R377): operands index (the mailbox), value (the device). The device's fresh report is what LINK_UP has brought: it must verify, and
its measurements must equal those of the first admission, if there was one. -/
def State.admitPeer (s : State) : State :=
  let k := s.req.index
  let dev := s.req.value.toNat % 1024
  match NMap.find s.peers dev with
  | none => s.mbDone k 1
  | some p =>
    if !p.verifies then s.mbDone k 4
    else if p.dinc != 0 && p.measured != p.newMeasured then
      ({ s with peers := NMap.set s.peers dev { p with state := 3 } } : State).mapBegin.mbDone k 6
    else
      ({ s with peers := NMap.set s.peers dev { p with state := 1, dinc := p.newDinc, measured := p.newMeasured } } : State).mapBegin.mbDone k 0

def execAdmitDevice (s : State) : Host.Outcome State Fault Refusal := .next (s.whenReady s.admitPeer)

/-! Links (R364, R377, R439): operands die, index (the port); off: 0, or one more than another node whose port it is. -/

/-- The node that a link step names. -/
def State.linkNode (s : State) : Nat := if s.req.off = 0 then 4 * s.pkg.selfDevice + s.req.die else s.req.off - 1

/-- A port exists (R364): a die's as its table says, a switch's among the 64 that it may have. -/
def nodePort (node port : Nat) : Bool := if node < 4096 then diePort (node % 4) port else decide (node < 8192) && decide (port < 64)

/-- The port that a link step names exists. -/
def State.linkExists (s : State) : Bool := (s.req.off != 0 || decide (s.req.die < 4)) && nodePort s.linkNode s.req.index

/-- Packets that wait at a port are refused with reason 3 (R366). -/
def State.refuseWaiting (s : State) (node port : Nat) : State :=
  (s.packets.filter fun x => x.2.at_ == some (node, port)).foldl (fun x p => x.refuse p.1 p.2 3 p.2.hop) s

/-- One end of a link goes down. -/
def State.endDown (s : State) (node port : Nat) : State :=
  ({ s with ports := NMap.set s.ports (portKey node port) (s.portWord node port &&& ~~~2#64) } : State).refuseWaiting node port

/-- A link that is up goes down at both of its ends. -/
def State.linkOff (s : State) (node port : Nat) : State :=
  let o := s.portWord node port
  if portUp o then (s.endDown node port).endDown (portPeerNode o) (portPeerPort o) else s

/-- LINK_DOWN (R377); the maps follow (R373). -/
def State.linkDown (s : State) : State := if s.linkExists then (s.linkOff s.linkNode s.req.index).mapBegin else s

def execLinkDown (s : State) : Host.Outcome State Fault Refusal := .next s.linkDown

/-- LINK_RETRAIN (R439, R442). -/
def execLinkRetrain (s : State) : Host.Outcome State Fault Refusal := .next (s.linkDown.health s.req.die 7 s.req.index 0)

/-- A returning member announces its incarnation (R377): it is STALE until it is admitted. -/
def State.peerReturns (s : State) (dev : Nat) (dinc : BitVec 32) (measured : W64) (verifies : Bool) : State :=
  let p := NMap.getD s.peers dev Peer.fresh
  { s with peers := NMap.set s.peers dev { p with state := 2, newDinc := dinc, newMeasured := measured, verifies := verifies } }

/-- The far end of a link that trains: a die link leads to the other die of the device (R364), another port where its word says. -/
def linkPeer (node port : Nat) (v : W64) : Nat × Nat :=
  if node < 4096 && port < 4 then (4 * (node / 4) + port, node % 4) else (portPeerNode v, portPeerPort v)

/-- A link trains: both of its ends learn their peers (R365); the far end keeps its own firewall fields. No link trains to a port that does not exist. -/
def State.linkTrains (s : State) (node port : Nat) (v : W64) : State :=
  let (peer, pp) := linkPeer node port v
  if !nodePort peer pp then s
  else
    let s1 : State := { s with ports := NMap.set s.ports (portKey node port) (s.trainedWord node port peer pp v) }
    { s1 with ports := NMap.set s1.ports (portKey peer pp) (s1.trainedWord peer pp node port (s1.portWord peer pp)) }

/-- LINK_UP (R377, R365): value is the port's property word as F or fabric firmware writes it; with flag, the member `line` announces `dinc`, and
its report carries the measurements `ia`; flag2: the report verifies under both signatures. With slot 1 it is the second half of a change of
the maps (R373). -/
def State.linkUp (s : State) : State :=
  let r := s.req
  if r.slot = 1 then s.mapFollow
  else if !s.linkExists || !s.pkg.ready then s
  else
    let s1 := s.linkTrains s.linkNode r.index r.value
    (if r.flag then s1.peerReturns (r.line % 1024) r.dinc (BitVec.ofNat 64 r.ia) r.flag2 else s1).mapBegin

def execLinkUp (s : State) : Host.Outcome State Fault Refusal := .next s.linkUp

/-! The partition table (R410, R413, R414). -/

/-- The reserved bits of an entry are zero. -/
def entryRsvOk (e : BitVec 4096) : Bool :=
  let ctl := entryField e 0 8
  bitsOf ctl 62 1 == 0 && bitsOf ctl 0 24 == 0
    && ((List.range 4).all fun d => bitsOf (entryField e (32 + 8 * d) 8) 17 47 == 0)
    && ((List.range 64).all fun i => !(entryField e 144 8).testBit i || decide (i % 16 ≤ 3) || (decide (8 ≤ i % 16) && decide (i % 16 ≤ 13)))
    && bitsOf (entryField e 152 8) 24 40 == 0
    && e.toNat / 2 ^ (8 * 220) == 0

/-- Windows and host addresses are multiples of 2 MiB (R413). -/
def entryAligned (e : BitVec 4096) : Bool := (List.range 10).all fun i => entryField e (64 + 8 * i) 8 % 2 ^ 21 == 0

/-- Two ranges meet. -/
def rangesMeet (a b c d : Nat) : Bool := decide (a < b) && decide (c < d) && decide (a < d) && decide (c < b)

/-- The checks of an entry's windows on one die (R414). -/
def State.windowOk (s : State) (tenant : Nat) (t : Tenant) (d : Nat) : Bool :=
  let top := winTop (t.winBase d) (t.winLimit d) (t.winWorld d)
  t.winLimit d == 0 ||
    (decide (top ≤ Config.windowSpan) && s.inPart t.part d && t.worlds.testBit (t.winWorld d)
      && s.tenants.all fun kt => kt.1 == tenant || !kt.2.valid
          || !rangesMeet (t.winBase d) top (kt.2.winBase d) (winTop (kt.2.winBase d) (kt.2.winLimit d) (kt.2.winWorld d)))

/-- The checks of an entry's queue range on one die (R414, R410). -/
def State.queuesOk (s : State) (tenant : Nat) (t : Tenant) (d : Nat) : Bool :=
  t.qcount d == 0 ||
    (decide (t.qfirst d + t.qcount d ≤ 256) && s.inPart t.part d
      && s.tenants.all fun kt => kt.1 == tenant || !kt.2.valid
          || !rangesMeet (t.qfirst d) (t.qfirst d + t.qcount d) (kt.2.qfirst d) (kt.2.qfirst d + kt.2.qcount d))

/-- The lease lies on the partition's dies and meets no other tenant's (R410). -/
def State.leaseOk (s : State) (tenant : Nat) (t : Tenant) (lease : List Nat) : Bool :=
  lease.all fun c => decide (c < 576) && s.inPart t.part (dieOf c) && s.tenants.all fun kt => kt.1 == tenant || !kt.2.lease.contains c

/-- The lease that an entry's writing gives: a tenant whose entry is not VALID leases nothing. -/
def leaseOf (e : BitVec 4096) (lease : List Nat) : List Nat := if e.getLsbD 63 then lease else []

/-- F's checks of an entry, VALID or not (R414). -/
def State.entryOk (s : State) (tenant : Nat) (e : BitVec 4096) (lease : List Nat) : Bool :=
  let t := { Tenant.fresh with entry := e }
  entryRsvOk e && entryAligned e && t.weight != 0 && t.fdom != 0
    && (t.worlds.testBit 0 || (List.range 15).any fun i => t.worlds.testBit (i + 1) && (s.world (i + 1)).st == .live)
    && ((List.range Config.dies).all fun d => s.windowOk tenant t d && s.queuesOk tenant t d)
    && s.leaseOk tenant t (leaseOf e lease)

/-- The fields that F writes while the tenant has a taken grid (R414): TOFF, WEIGHT, ALLOW, RFW, INTV. -/
def liveMask : BitVec 4096 :=
  BitVec.ofNat 4096 (255 * 2 ^ 24 + (2 ^ 64 - 1) * 2 ^ 64 + (2 ^ 64 - 1) * 2 ^ 192 + (2 ^ 64 - 1) * 2 ^ 1152 + (2 ^ 64 - 1) * 2 ^ 1216)

/-- The tenant has a taken grid. -/
def State.hasGrid (s : State) (tenant : Nat) : Bool := s.grids.any fun x => x.2.tenant == tenant && !x.2.complete
/-- The tenant has a team or a hearth entry somewhere. -/
def State.hasTeam (s : State) (tenant : Nat) : Bool :=
  !(s.teamsWhere fun _ t => t.tenant == tenant).isEmpty || (s.images.any fun x => x.2.team.tenant == tenant)
    || s.cores.any fun kc => kc.2.hearth.any fun ie => ie.2.tenant == tenant

/-- A change of a live tenant's entry is one that F may make (R414, R420). -/
def State.changeOk (s : State) (tenant : Nat) (old new : BitVec 4096) : Bool :=
  ((old &&& ~~~liveMask) == (new &&& ~~~liveMask) || (!s.hasGrid tenant && !s.hasTeam tenant))
    && (!s.hasGrid tenant || decide (signedOf 64 (entryField old 8 8) ≤ signedOf 64 (entryField new 8 8)))

/-- An address lies in a window of a tenant. -/
def Tenant.inWindow (t : Tenant) (a : Nat) : Bool := (List.range Config.dies).any fun d => decide (d * 2 ^ 40 ≤ a) && decide (a < d * 2 ^ 40 + t.winLimit d)

/-- A window root that F may give a tenant (R52, R37, R43): an unsealed kind 0 capability with zero reserved fields over the tenant's windows, one of
them or several, by the windows' addresses (log entry 123), or over the whole space; as entry 15 the sealing root. -/
def Tenant.rootOk (t : Tenant) (i : Nat) (b : BitVec 128) : Bool :=
  let c : Cap := ⟨b, true⟩
  let (lo, hi) := capDecode c
  c.kind == 0 && c.otype == 0 && bitsOf b.toNat 64 2 == 0 && !b.getLsbD 114
    && (if i = 15 then lo == 1 && hi == 16384 && c.grants (permSEAL + permUNSEAL)
      else decide (lo < hi) && ((lo == 0 && hi == 2 ^ 64) || (t.inWindow lo && t.inWindow (hi - 1))))

/-- A new tenant (R386, R393, R52): route tables at their defaults, the roots among those that F is given which are ones, the trap ring's header
written. `logSize` is SIZE. -/
def State.createTenant (s : State) (tenant logSize : Nat) (roots : List (BitVec 128)) : State :=
  let t := s.tenant tenant
  let t1 := { t with
    troute0 := trouteDefault 0
    troute1 := trouteDefault 1
    troute2 := trouteDefault 2
    roots := ((roots.take 16).zipIdx.filter fun x => t.rootOk x.2 x.1).map fun x => (x.2, x.1)
    tdi := .unlocked
    heldRecords := []
    stoppedStatus := false
    checkpointing := false
    copied := false
    dirtyReport := none }
  let s1 := s.setTenant tenant t1
  match t1.paOf t1.tring with
  | some pa => s1.firmwareSend (writesOf pa 256 (logSize % 256 * 2 ^ 128))
  | none => s1

/-- Queues that carry the tenant's own S grids: bit 256 d + q of a mask (log entry 22). -/
def State.queueLevels (s : State) (tenant : Nat) (m : LineData) : State :=
  let t := s.tenant tenant
  ((List.range 1024).filter fun k => t.ownsQueue (k / 256) (k % 256)).foldl (fun x k => x.setQueue k { x.queue k with sLevel := m.getLsbD k }) s

/-- The cores that leave a tenant's lease, and those of them whose forwarding entries are all in use (R93). -/
def State.leavers (s : State) (tenant : Nat) (lease : List Nat) : List Nat × List Nat :=
  let gone := (s.tenant tenant).lease.filter fun c => !lease.contains c
  (gone, gone.filter fun c => decide (forwardLimit ≤ (s.core c).forwards.length))

/-- The lease changes (R399, R93): teams on cores that leave it are banked; a core whose forwarding entries are all in use stays and takes no new
team until one is freed. -/
def State.changeLease (s : State) (tenant : Nat) (lease : List Nat) : State :=
  let (gone, stuck) := s.leavers tenant lease
  let s1 := s.setTenant tenant { s.tenant tenant with lease := lease ++ stuck }
  let s2 := gone.foldl (fun x c => x.modCore c fun k => { k with noNewTeam := !k.teams.isEmpty, leaving := stuck.contains c }) s1
  let s3 := lease.foldl (fun x c => x.modCore c fun k => { k with noNewTeam := false, leaving := false }) s2
  (s3.teamsWhere fun c t => gone.contains c && t.tenant == tenant).foldl (fun x t => x.bankRequest t.1 t.2.1 .distributor) s3

/-- A written entry asks for a new map: the tenant is new, or its map or a window of it has moved (R370). -/
def mapMoves (old new : BitVec 4096) : Bool :=
  entryField new 192 8 != entryField old 192 8 || (List.range 8).any fun i => entryField new (64 + 8 * i) 8 != entryField old (64 + 8 * i) 8

/-- PTABLE (R413, R414): operands index (the mailbox), tenant, entry, lease, roots, slot (SIZE of the trap ring), data (the S queues). A refused
entry gives STATUS 1. -/
def State.writeEntry (s : State) : State :=
  let r := s.req
  let n := r.tenant
  let t := s.tenant n
  let lease := leaseOf r.entry r.lease
  -- a core that cannot leave the lease yet keeps the tenant in its partition (R410; log entry 144)
  let kept := ({ Tenant.fresh with entry := r.entry } : Tenant).part != t.part && !(s.leavers n lease).2.isEmpty
  if 64 ≤ n || !s.entryOk n r.entry r.lease || (t.valid && !s.changeOk n t.entry r.entry) || kept then s.mbDone r.index 1
  else
    let s1 := s.setTenant n { t with entry := r.entry }
    let s2 := if !t.valid && (s1.tenant n).valid then (s1.createTenant n r.slot r.roots).queueLevels n r.data else s1
    let s3 := if (s2.tenant n).valid && (!t.valid || mapMoves t.entry r.entry) then s2.mapCreate n else s2
    (s3.changeLease n lease).mbDone r.index 0

def execPtable (s : State) : Host.Outcome State Fault Refusal := .next (s.whenReady s.writeEntry)

/-! Partitions (R411, R412). -/

/-- A tenant holds a core, a window or a queue on a die. -/
def State.dieInUse (s : State) (d : Nat) : Bool :=
  s.tenants.any fun kt => (kt.2.lease.any fun c => dieOf c == d) || (kt.2.valid && (kt.2.winLimit d != 0 || kt.2.qcount d != 0))

/-- F closes or opens the die links of a die by the partitions of their ends (R411). -/
def State.setLinks (s : State) (d : Nat) : State :=
  let self := s.pkg.selfDevice
  ((List.range Config.dies).filter fun e => e != d).foldl (fun x e =>
    let same := (x.die d).part == (x.die e).part
    [(d, e), (e, d)].foldl (fun (y : State) ab =>
      let n := 4 * self + ab.1
      let o := y.portWord n ab.2 &&& ~~~(BitVec.ofNat 64 (8 + 4095 * 2 ^ 33))
      { y with ports := NMap.set y.ports (portKey n ab.2) (if same then o else o ||| 8) }) x) s

/-- The die's L2 drops the copies that it holds of other dies' lines. -/
def State.dropDieCopies (s : State) (d : Nat) : State :=
  let keep := fun (ln : Nat) (m : BitVec 7) => if homeDie ln == d && !isHostLine ln then (0 : BitVec 7) else m &&& ~~~(1#7 <<< siteOf (144 * d) ln)
  { s with copies := (s.copies.map fun x => (x.1, keep x.1 x.2)).filter fun x => x.2 != 0 }

/-- PARTITION (R412): operands index (the mailbox), value: [1:0] the die, [9:8] its new partition (log entry 23). -/
def State.moveDie (s : State) : State :=
  let d := s.req.value.toNat % 4
  let p := bitsOf s.req.value.toNat 8 2
  if s.dieInUse d then s.mbDone s.req.index 1
  else
    let mine := fun (a : Nat) => decide (a < Config.hostBase) && a / Config.dieSpan == d
    let data := fun (a : Nat) => mine a && !(decide (Config.ashBase ≤ a % Config.dieSpan) && decide (a % Config.dieSpan < Config.tagBase))
    let s1 := s.dropDieCopies d
    let s2 : State := { s1 with
      dir := s1.dir.filter fun x => !mine (128 * x.1)
      mem := s1.mem.filter fun c => !data c.1
      memTags := s1.memTags.filter fun g => !mine (16 * g)
      badLines := s1.badLines.filter fun l => !data (128 * l)
      macBad := s1.macBad.filter fun l => !mine (128 * l) }
    (((s2.setDie d { s2.die d with part := p, filter := [] }).setLinks d).mapBegin).mbDone s.req.index 0

def execPartition (s : State) : Host.Outcome State Fault Refusal := .next (s.whenReady s.moveDie)

/-! Checkpoints (R406, R290). -/

/-- The tenant that a CHECKPOINT is for: the mailbox's own, or the one that function 0 names. -/
def checkpointTenant (key arg : Nat) : Nat := if key < 4 then arg % 64 else (key - 4) / 4

/-- Every team of a tenant is banked, every hearth entry of it has drained, and no write of the device's agents is on its way. -/
def State.quiet (s : State) (tenant : Nat) : Bool :=
  ((s.teamsWhere fun _ t => t.tenant == tenant).all fun x => match x.2.2.banking with | some b => b.collected.isSome | none => false)
    && s.cores.all fun kc => kc.2.hearth.all fun ie => ie.2.tenant != tenant || (match NMap.find kc.2.teams ie.2.slot with
        | some t => t.tenant == tenant
        | none => false)
    && s.plainIdle

/-- The pages of a tenant's windows whose dirty-page bits are set, by die (R231). The bytes of a line that cannot be read count as set (R4, R425; log
entry 147). -/
def State.dirtyPages (s : State) (tenant : Nat) : List (Nat × Nat) :=
  let t := s.tenant tenant
  (List.range Config.dies).flatMap fun d => match t.paOf (t.dpb d) with
    | none => []
    | some q =>
      let n := (t.winLimit d + 32767) / 32768
      let bad := (rangeLines (BitVec.ofNat 64 q) n).filter fun p => (s.lineFault (lineOf p.1.toNat)).isSome
      ((s.mem.filter fun c => decide (q ≤ c.1) && decide (c.1 < q + n) && (s.lineFault (lineOf c.1)).isNone).flatMap fun c =>
        ((List.range 8).filter fun i => c.2.getLsbD i).map fun i => (d, 8 * (c.1 - q) + i))
        ++ bad.flatMap fun p => (List.range (8 * p.2)).map fun i => (d, 8 * (p.1.toNat - q) + i)

/-- The destination of a tenant's checkpoint, bytes 16 to 31 of the command in progress (R437), whether it is incremental, and whether it goes to
fabric-attached memory (log entry 24). -/
def State.checkpointCap (s : State) (tenant : Nat) : Option (BitVec 128 × Bool × Bool) :=
  (s.mailboxes.find? fun km => km.2.busy && km.2.cmd.toNat % 256 == 3 && checkpointTenant km.1 km.2.arg == tenant).map fun km =>
    (km.2.cmd.extractLsb' 128 128, km.2.arg.testBit 8, km.2.arg.testBit 9)

/-- A copy engine in checkpoint mode writes a part of a line through the capability (R406); what the capability does not reach stays. The addresses of
fabric-attached memory, which F's engines alone reach, are those of the capability (R439; log entry 24). -/
def State.checkpointPiece (s : State) (tenant : Nat) (cap : BitVec 128) (toFabric : Bool) (va n v : Nat) : State :=
  let (lo, hi) := capDecode ⟨cap, true⟩
  if va < lo || hi < va + n then s
  else if toFabric then { s with fabric := (List.range n).foldl (fun m i => memSet m (va + i) (BitVec.ofNat 8 (v / 256 ^ i))) s.fabric }
  else match distTranslate s 0 tenant va true with
    | (s1, .error _) => s1
    | (s1, .ok pa) => if s1.hostBlocked tenant (lineOf pa) then s1 else s1.firmwareSend (.write pa n v 0 :: s1.marksOf [(pa, n)])

/-- A line as its controller seals it in HBM, and its MAC over the ciphertext, its PA and its tags (R424). -/
def State.sealed (s : State) (world ln : Nat) : LineData × BitVec 64 :=
  let key := (s.worldKey world).getD 0
  let (d, tags) := s.visibleLine ln
  let c := Config.sealedLine key (128 * ln) d
  (c, Config.macOf key (128 * ln) c tags)

/-- A checkpoint writes bytes at a virtual address, line by line. -/
def State.checkpointWrite (s : State) (tenant : Nat) (cap : BitVec 128) (toFabric : Bool) (va n v : Nat) : State :=
  (rangeLines (BitVec.ofNat 64 va) n).foldl (fun z p => z.checkpointPiece tenant cap toFabric p.1.toNat p.2 (v / 256 ^ (p.1.toNat - va) % 256 ^ p.2)) s

/-- The windows of a tenant are copied, die by die, each byte as far into the destination as into the windows; the lines of a protected window move as the
sealed copies that HBM and the shared ways hold (R423, R424), their MACs, 8 bytes a line, after the windows and as far into that part as the line is
into the windows. An incremental checkpoint copies the marked pages alone, and a line that cannot be read is left out (R406; log entry 24). -/
def State.checkpointCopy (s : State) (tenant : Nat) (cap : BitVec 128) (incremental toFabric : Bool) : State :=
  let t := s.tenant tenant
  let marked := s.dirtyPages tenant
  let total := ((List.range Config.dies).map t.winLimit).sum
  (List.range Config.dies).foldl (fun x d =>
    let before := ((List.range d).map t.winLimit).sum
    ((List.range (t.winLimit d / 128)).filter fun i => !incremental || marked.contains (d, i / 32)).foldl (fun y i =>
      let ln := (Config.dieSpan * d + t.winBase d) / 128 + i
      let va := cap.toNat % 2 ^ 64 + before + 128 * i
      if (s.lineFault ln).isSome then y
      else if t.winWorld d = 0 then (y.chargeF [ln]).checkpointWrite tenant cap toFabric va 128 (s.visNat (ln * 128) 128)
      else
        let (c, mac) := s.sealed (t.winWorld d) ln
        ((y.chargeF [ln]).checkpointWrite tenant cap toFabric va 128 c.toNat).checkpointWrite tenant cap toFabric (cap.toNat % 2 ^ 64 + total + before / 16 + 8 * i) 8 mac.toNat) x) s

/-- CHECKPOINT (R406): operands index (the mailbox), value (for function 0, the tenant). It begins by banking every team; once the tenant is
quiet its windows are copied, then the final dirty-page report is written, in the step after it the stopped status, and the command is done (R290). -/
def State.checkpoint (s : State) : State :=
  let n := checkpointTenant s.req.index s.req.value.toNat
  let t := s.tenant n
  if !t.checkpointing then
    let s1 := s.setTenant n { t with checkpointing := true, copied := false, dirtyReport := none, stoppedStatus := false }
    (s1.teamsWhere fun _ x => x.tenant == n).foldl (fun x y => x.bankRequest y.1 y.2.1 .checkpoint) s1
  else if s.quiet n then
    if !t.copied then
      let s1 := s.setTenant n { t with copied := true }
      match s1.checkpointCap n with
      | some (cap, incremental, toFabric) => s1.checkpointCopy n cap incremental toFabric
      | none => s1
    else match t.dirtyReport with
    | none => s.setTenant n { t with dirtyReport := some (s.dirtyPages n) }
    | some _ => (s.setTenant n { t with checkpointing := false, stoppedStatus := true }).mbFinish 3 (fun k a => checkpointTenant k a == n) 0
  else s

def execCheckpoint (s : State) : Host.Outcome State Fault Refusal := .next (s.whenReady s.checkpoint)

/-- A checkpoint whose tenant is quiet. -/
def State.checkpointDue (s : State) : Option Happening :=
  (s.tenants.find? fun kt => kt.2.checkpointing && s.quiet kt.1).map fun kt =>
    ⟨.checkpoint, { Request.zero with index := 4 + 4 * kt.1 }⟩

/-! Health and ash images (R404, R443, R444). -/

/-- Words of a health summary, 160 for a die (log entry 25). -/
def summaryWords : Nat := 640

/-- A die's part of the summary (R443): the pool tops of its cores, the L2 in service and the HBM in bytes, the link states (PRESENT and UP of port k
in bits 2k and 2k + 1), the temperatures of the die and of its stacks; nothing else. No rule measures a stack: its temperature is free. -/
def State.dieSummary (s : State) (d : Nat) : List Nat :=
  let k := s.die d
  let links := ((List.range 14).map fun p => (s.portWord (4 * s.pkg.selfDevice + d) p).toNat % 4 * 4 ^ p).sum
  ((List.range 144).map fun c => (s.core (144 * d + c)).poolTop * 1024)
    ++ [(576 - k.retired.length) * 2 ^ 18, 4 * 48 * 2 ^ 30, links, k.celsius]
    ++ ((List.range 4).map fun i => (Config.reportWord (s.pkg.freeCount * 2 ^ 32 + 4 * d + i)).toNat) ++ List.replicate 8 0

/-- The bytes of the summary. -/
def State.summary (s : State) : List Byte := (List.range Config.dies).flatMap fun d => (s.dieSummary d).flatMap fun v => numBytes v 8

/-- HEALTH (R443): operands index (the mailbox), ia, and for function 0 the tenant whose windows translate it. -/
def State.healthSummary (s : State) : State :=
  let r := s.req
  let t := s.tenant (if r.index < 4 then r.tenant else (r.index - 4) / 4)
  match t.paOf r.ia, t.paOf (r.ia + 8 * summaryWords - 1) with
  | some pa, some _ =>
    let n := 8 * summaryWords
    (s.useFree.firmwareSend (writesOf pa n (leNat s.summary) ++ s.marksOf [(pa, 1), (pa + 4096, 1), (pa + n - 1, 1)])).mbDone r.index 0
  | _, _ => s.mbDone r.index 1

def execHealth (s : State) : Host.Outcome State Fault Refusal := .next (s.whenReady s.healthSummary)

/-- A directory entry as its home slice holds it (R291). -/
def DirEntry.word (e : DirEntry) : Nat :=
  let code := match e.st with | .inv => 0 | .shared => 1 | .excl => 2 | .modified => 3 | .owned => 4
  (if e.rp then 2 ^ 41 + e.rseq % 8192 * 2 ^ 28 else 0) + e.holder % 144 * 2 ^ 42 + dieOf e.holder % 4 * 2 ^ 50 + (if e.eg then 2 ^ 52 else 0)
    + (if e.hg then 2 ^ 53 else 0) + e.sites.toNat * 2 ^ 54 + code * 2 ^ 61

/-- A bucket's entry (R222). -/
def Bucket.word (b : Bucket) : Nat := b.slice % 1024 + (if b.frz then 2 ^ 15 else 0)

/-- A forwarding entry (R91). -/
def Forward.word (f : Forward) : Nat :=
  f.pend % 2 ^ 17 + f.nincn % 4096 * 2 ^ 17 + f.nslot % 32 * 2 ^ 29 + f.ncore % 144 * 2 ^ 34 + dieOf f.ncore % 4 * 2 ^ 42 + f.oincn % 4096 * 2 ^ 44
    + f.oslot % 32 * 2 ^ 56 + (if f.image then 0 else 2 ^ 61) + 2 ^ 63

/-- The clause in progress of a split or a record: its address, its header, the index of its next word and that word. -/
def clauseAsh (c : Option Clause) : List Byte :=
  match c with
  | some c => numBytes c.addr.toNat 8 ++ numBytes c.header.toNat 8 ++ numBytes (c.next + 1) 8 ++ numBytes ((c.words[c.next]?).getD 0).toNat 8
  | none => numBytes 0 32

/-- A split (R124): its slot, its state with the number of the conditions that hold it, its PC, its lanes, its code capability, its clause with the word
that it is held at. -/
def Split.ash (n : Nat) (p : Split) : List Byte :=
  let code := match p.st with | .bound => 1 | .issue => 2 | .held => 3 | .halt => 4
  numBytes (n + code * 2 ^ 8 + ((p.held.map fun h => h.conds.length).getD 0) * 2 ^ 16) 8 ++ numBytes p.pc.toNat 8 ++ numBytes p.lanes.toNat 8
    ++ numBytes p.code.bits.toNat 16 ++ clauseAsh p.clause

/-- An entry of the overflow set (R126). -/
def Overflow.ash (o : Overflow) : List Byte := numBytes o.lanes.toNat 8 ++ numBytes o.pc.toNat 8 ++ numBytes o.code.bits.toNat 16 ++ clauseAsh o.clause

/-- A record (R387); zero where there is none. -/
def recordAsh (r : Option Record) : List Byte :=
  match r with
  | some r => numBytes (r.cause.code + r.kind * 2 ^ 8 + 2 ^ 16) 8 ++ [r.word, r.hdr, r.info].flatMap (fun v => numBytes v.toNat 8)
      ++ [r.lanes, r.flm].flatMap (fun v => numBytes v.toNat 8) ++ numBytes r.code.bits.toNat 16 ++ clauseAsh r.clause
  | none => numBytes 0 96

/-- The split state of a group: how many splits and overflow entries it has now and in the shadow, these, the records. -/
def Group.splitAsh (g : Group) : List Byte :=
  numBytes (g.splits.length + g.overflow.length * 2 ^ 16 + g.shadow.length * 2 ^ 32 + g.shadowOverflow.length * 2 ^ 48) 8
    ++ (g.splits.flatMap fun kp => kp.2.ash kp.1) ++ g.overflow.flatMap Overflow.ash
    ++ (g.shadow.flatMap fun kp => kp.2.ash kp.1) ++ g.shadowOverflow.flatMap Overflow.ash
    ++ [g.stopped, g.pending, g.shadowPending, g.nested, g.nestedPending].flatMap recordAsh

/-- The split state and the 23 special registers (R392) of a group in an ash image. -/
def State.groupAsh (s : State) (i : GroupId) (t : Team) (g : Group) : List Byte :=
  g.splitAsh ++ (List.range 23).flatMap fun r => numBytes (s.specialOf i t g r).toNat 8

/-- The sections of an ash image that come from a core (log entry 25): its pool, its hearth entries, its splits and special registers, its copy and
matrix queues, its forwarding entries; each begins with the core's number. -/
def State.coreAsh (s : State) (c : Nat) (k : Core) : List (List Byte) :=
  let pool := fun (t : Team) => ((List.range t.shareBytes).map fun a => NMap.getD t.scratch a 0) ++ t.groups.flatMap fun kg =>
    ((List.range 128).flatMap fun r => numBytes (kg.2.s r).toNat 8)
      ++ kg.2.vregs.flatMap fun x => (List.range t.width).flatMap fun l => numBytes (x.2.lanes.getD l 0).toNat 4
  let copy := fun (x : CopyCmd) => numBytes x.entry.toNat 32 ++ numBytes x.ext.toNat 32
  [k.teams.flatMap fun st => pool st.2,
    (sortBy (fun ie => ie.2.stamp) k.hearth).flatMap fun ie => numBytes (ie.2.form s.cycle).toNat 192,
    k.teams.flatMap fun st => st.2.groups.flatMap fun kg => s.groupAsh ⟨c, st.1, kg.1⟩ st.2 kg.2,
    (k.teams.flatMap fun st => (st.2.cmds ++ st.2.residues).flatMap copy) ++ (k.mqueue ++ k.mwaiting).flatMap fun op => numBytes op.word.toNat 8,
    k.forwards.flatMap fun f => numBytes f.2.word 8].map fun b => numBytes c 8 ++ b

/-- The sections of a die's ash image in the order of R404: pools, hearth entries, splits and special registers, directories, bucket table, copy and
matrix queues, forwarding entries. -/
def State.ashSections (s : State) (d : Nat) : List (List Byte) :=
  let ks := (s.cores.filter fun kc => dieOf kc.1 == d).map fun kc => s.coreAsh kc.1 kc.2
  let part := fun (i : Nat) => ks.flatMap fun x => x.getD i []
  [part 0, part 1, part 2,
    (s.dir.filter fun x => !isHostLine x.1 && homeDie x.1 == d).flatMap fun x => numBytes x.1 8 ++ numBytes x.2.word 8,
    (List.range 16384).flatMap fun b => numBytes ((s.die d).bucket b).word 2,
    part 3, part 4]

/-- An ash image (R404): the cause, the time and the offsets of the sections, then the sections. -/
def ashBytes (cause time : Nat) (parts : List (List Byte)) : List Byte :=
  let offs := (parts.foldl (fun (x : List Nat × Nat) b => (x.1 ++ [x.2], x.2 + b.length)) (([], 128) : List Nat × Nat)).1
  (numBytes cause 8 ++ numBytes time 8 ++ offs.flatMap (fun o => numBytes o 8) ++ List.replicate 56 0) ++ parts.flatten

/-- The pieces of a range of physical addresses by line. -/
def physPieces (pa n : Nat) : List (Nat × Nat) := (List.range ((n + 127) / 128)).map fun i => (pa + 128 * i, min 128 (n - 128 * i))

/-- ASH_IMAGE of a die (R404, R442): its issue stops, the image is written behind the forced-entry log. -/
def State.ashImage (s : State) (d cause : Nat) : State :=
  let s1 := s.setDie d { s.die d with fatal := true }
  let bs := ashBytes cause s.time (s.ashSections d)
  (s1.firmwareSend (piecesWrite (physPieces (Config.dieSpan * d + Config.ashBase + 2 ^ 20) bs.length) bs)).health d 10 0 0

/-- ASH_IMAGE: operands die, value (the cause). -/
def execAshImage (s : State) : Host.Outcome State Fault Refusal := .next (s.ashImage s.req.die s.req.value.toNat)

/-- JUNCTION_FATAL (R444): operand die; the ash images are written, with the thermal event's number as their cause (log entry 25), and the dies are
held in reset. -/
def State.junctionFatal (s : State) : State :=
  (List.range Config.dies).foldl (fun x d => x.ashImage d 9) (s.setDie s.req.die { s.die s.req.die with celsius := 110 })

def execJunctionFatal (s : State) : Host.Outcome State Fault Refusal := .next s.junctionFatal

/-- THERMAL_THROTTLE (R444, R442): operands die, value (the junction in °C), index (the power of the package in watts); the arithmetic clock falls by
75 MHz, down to 1.2 GHz, where the junction is above 100 °C or the power above the cap. -/
def State.throttle (s : State) : State :=
  let d := s.die s.req.die
  let f := if 100 < s.req.value.toNat || s.pkg.powercap < s.req.index then max 1200 (d.clockMHz - 75) else d.clockMHz
  (s.setDie s.req.die { d with clockMHz := f, celsius := s.req.value.toNat }).health s.req.die 9 0 f

def execThermalThrottle (s : State) : Host.Outcome State Fault Refusal := .next s.throttle

end Sys2Proof.Machine
end

