-- ==== Sys2Proof/Machine/Scalar.lean ====
section
/-! DEFINITION. The SCALAR instructions (spec/07, R147 to R152): each executes once, whatever the split's lanes, and sets no flag. -/
namespace Sys2Proof.Machine

/-- Y (R149): S[b] plus the sign-extended immediate. -/
def scalarY (o : SOp) (g : Group) : W64 := g.s o.b.toNat + sext 32 o.imm.toNat

/-- A scalar word: its sources and its destination must be full (R148, R121); it writes one scalar in its issue cycle. -/
def scalarWord (d : SReg) (srcs : List Nat) (f : Group → W64) (c : Ctx) (s : State) : WordOut :=
  guardW (c.checkScalars (srcs ++ [d.toNat])) c 0 s (.done (s.modGroup c.gid fun g => g.setS d.toNat (f g)) [])

/-- A word of X and Y (R150). -/
def scalarTwo (o : SOp) (f : W64 → W64 → W64) : Ctx → State → WordOut :=
  scalarWord o.d [o.a.toNat, o.b.toNat] fun g => f (g.s o.a.toNat) (scalarY o g)

/-- A word of X alone. -/
def scalarOne (o : SOp) (f : W64 → W64) : Ctx → State → WordOut := scalarWord o.d [o.a.toNat] fun g => f (g.s o.a.toNat)

/-- A division (R151): a divisor of zero raises INT_DIVZERO for every lane of the split, and nothing is written. -/
def scalarDivide (o : SOp) (f : W64 → W64 → W64) (c : Ctx) (s : State) : WordOut :=
  guardW (c.checkScalars [o.a.toNat, o.b.toNat, o.d.toNat]) c 0 s <|
    if scalarY o c.g == 0 then .trap s .intDivzero 0 c.p.lanes else scalarTwo o f c s

/-! The bit fields of SBEXT and SBINS (R151): POS imm32[5:0], LEN imm32[12:6], SX imm32[13]; the field is cut at bit 63. -/

def scalarPos (o : SOp) : Nat := bitsOf o.imm.toNat 0 6
def scalarLen (o : SOp) : Nat := min (bitsOf o.imm.toNat 6 7) (64 - scalarPos o)

/-- The field SBEXT reads. -/
def scalarExtract (o : SOp) (x : W64) : W64 :=
  let f := bitsOf x.toNat (scalarPos o) (scalarLen o)
  if o.imm.getLsbD 13 then sext (scalarLen o) f else BitVec.ofNat 64 f

/-- The destination with X's low bits put into the field. -/
def scalarInsert (o : SOp) (x old : W64) : W64 :=
  let m : W64 := BitVec.ofNat 64 ((2 ^ (scalarLen o) - 1) * 2 ^ (scalarPos o))
  (old &&& ~~~m) ||| ((x <<< (scalarPos o)) &&& m)

/-- The conditions of SCMP (R152). -/
def scalarCond (code : Nat) (x y : W64) : Bool :=
  match code with
  | 0 => x == y
  | 1 => x != y
  | 2 => decide (x.toInt < y.toInt)
  | 3 => decide (x.toInt ≤ y.toInt)
  | 4 => decide (y.toInt < x.toInt)
  | 5 => decide (y.toInt ≤ x.toInt)
  | 6 => decide (x.toNat < y.toNat)
  | 7 => decide (x.toNat ≤ y.toNat)
  | 8 => decide (y.toNat < x.toNat)
  | _ => decide (y.toNat ≤ x.toNat)

/-- SMOV (R150). -/
def execSmov (o : SOp) (s : State) : Host.Outcome State Fault Refusal :=
  runWord false 0 (scalarWord o.d [o.a.toNat] fun g => g.s o.a.toNat) s

/-- SMOVI (R150). -/
def execSmovi (o : SOp) (s : State) : Host.Outcome State Fault Refusal :=
  runWord false 0 (scalarWord o.d [o.b.toNat] fun g => scalarY o g) s

/-- SMOVHI (R150). -/
def execSmovhi (o : SOp) (s : State) : Host.Outcome State Fault Refusal :=
  runWord false 0 (scalarWord o.d [o.a.toNat] fun g => (o.imm ++ (g.s o.a.toNat).setWidth 32 : BitVec 64)) s

/-- SADD (R150). -/
def execSadd (o : SOp) (s : State) : Host.Outcome State Fault Refusal :=
  runWord false 0 (scalarTwo o fun x y => x + y) s

/-- SSUB (R150). -/
def execSsub (o : SOp) (s : State) : Host.Outcome State Fault Refusal :=
  runWord false 0 (scalarTwo o fun x y => x - y) s

/-- SMUL (R150). -/
def execSmul (o : SOp) (s : State) : Host.Outcome State Fault Refusal :=
  runWord false 0 (scalarTwo o fun x y => x * y) s

/-- SMULHS: bits [127:64] of the signed product (R150). -/
def execSmulhs (o : SOp) (s : State) : Host.Outcome State Fault Refusal :=
  runWord false 0 (scalarTwo o fun x y => BitVec.ofInt 64 (x.toInt * y.toInt / 2 ^ 64)) s

/-- SMULHN: bits [127:64] of the unsigned product (R150). -/
def execSmulhn (o : SOp) (s : State) : Host.Outcome State Fault Refusal :=
  runWord false 0 (scalarTwo o fun x y => BitVec.ofNat 64 (x.toNat * y.toNat / 2 ^ 64)) s

/-- SDIVS: truncated toward zero; -2^63 by -1 gives -2^63 (R150). -/
def execSdivs (o : SOp) (s : State) : Host.Outcome State Fault Refusal :=
  runWord false 0 (scalarDivide o fun x y => x.sdiv y) s

/-- SDIVN (R150). -/
def execSdivn (o : SOp) (s : State) : Host.Outcome State Fault Refusal :=
  runWord false 0 (scalarDivide o fun x y => x / y) s

/-- SREMS: the sign of X (R150). -/
def execSrems (o : SOp) (s : State) : Host.Outcome State Fault Refusal :=
  runWord false 0 (scalarDivide o fun x y => x.srem y) s

/-- SREMN (R150). -/
def execSremn (o : SOp) (s : State) : Host.Outcome State Fault Refusal :=
  runWord false 0 (scalarDivide o fun x y => x % y) s

/-- SAND (R150). -/
def execSand (o : SOp) (s : State) : Host.Outcome State Fault Refusal :=
  runWord false 0 (scalarTwo o fun x y => x &&& y) s

/-- SOR (R150). -/
def execSor (o : SOp) (s : State) : Host.Outcome State Fault Refusal :=
  runWord false 0 (scalarTwo o fun x y => x ||| y) s

/-- SXOR (R150). -/
def execSxor (o : SOp) (s : State) : Host.Outcome State Fault Refusal :=
  runWord false 0 (scalarTwo o fun x y => x ^^^ y) s

/-- SANDN (R150). -/
def execSandn (o : SOp) (s : State) : Host.Outcome State Fault Refusal :=
  runWord false 0 (scalarTwo o fun x y => x &&& ~~~y) s

/-- SSHL: 0 for an amount of 64 or more (R150). -/
def execSshl (o : SOp) (s : State) : Host.Outcome State Fault Refusal :=
  runWord false 0 (scalarTwo o fun x y => if 64 ≤ y.toNat then 0 else x <<< y.toNat) s

/-- SSHRN: 0 for an amount of 64 or more (R150). -/
def execSshrn (o : SOp) (s : State) : Host.Outcome State Fault Refusal :=
  runWord false 0 (scalarTwo o fun x y => if 64 ≤ y.toNat then 0 else x >>> y.toNat) s

/-- SSHRS: all copies of X[63] for an amount of 64 or more (R150). -/
def execSshrs (o : SOp) (s : State) : Host.Outcome State Fault Refusal :=
  runWord false 0 (scalarTwo o fun x y => x.sshiftRight (min y.toNat 63)) s

/-- SMINS (R150). -/
def execSmins (o : SOp) (s : State) : Host.Outcome State Fault Refusal :=
  runWord false 0 (scalarTwo o fun x y => if x.toInt ≤ y.toInt then x else y) s

/-- SMAXS (R150). -/
def execSmaxs (o : SOp) (s : State) : Host.Outcome State Fault Refusal :=
  runWord false 0 (scalarTwo o fun x y => if x.toInt ≤ y.toInt then y else x) s

/-- SMINN (R150). -/
def execSminn (o : SOp) (s : State) : Host.Outcome State Fault Refusal :=
  runWord false 0 (scalarTwo o fun x y => if x.toNat ≤ y.toNat then x else y) s

/-- SMAXN (R150). -/
def execSmaxn (o : SOp) (s : State) : Host.Outcome State Fault Refusal :=
  runWord false 0 (scalarTwo o fun x y => if x.toNat ≤ y.toNat then y else x) s

/-- SCLZ (R150). -/
def execSclz (o : SOp) (s : State) : Host.Outcome State Fault Refusal :=
  runWord false 0 (scalarOne o fun x => BitVec.ofNat 64 (((List.range 64).find? fun i => x.getLsbD (63 - i)).getD 64)) s

/-- SCTZ (R150). -/
def execSctz (o : SOp) (s : State) : Host.Outcome State Fault Refusal :=
  runWord false 0 (scalarOne o fun x => BitVec.ofNat 64 (((List.range 64).find? fun i => x.getLsbD i).getD 64)) s

/-- SPOPC (R150). -/
def execSpopc (o : SOp) (s : State) : Host.Outcome State Fault Refusal :=
  runWord false 0 (scalarOne o fun x => BitVec.ofNat 64 (popcount 64 x.toNat)) s

/-- SBEXT (R151). -/
def execSbext (o : SOp) (s : State) : Host.Outcome State Fault Refusal := runWord false 0 (scalarOne o (scalarExtract o)) s

/-- SBINS (R151): the destination is a source too. -/
def execSbins (o : SOp) (s : State) : Host.Outcome State Fault Refusal :=
  runWord false 0 (scalarWord o.d [o.a.toNat] fun g => scalarInsert o (g.s o.a.toNat) (g.s o.d.toNat)) s

/-- SSEL (R152): the condition scalar is imm32[6:0]. -/
def execSsel (o : SOp) (s : State) : Host.Outcome State Fault Refusal :=
  runWord false 0 (scalarWord o.d [o.a.toNat, o.b.toNat, bitsOf o.imm.toNat 0 7] fun g =>
    if g.s (bitsOf o.imm.toNat 0 7) != 0 then g.s o.a.toNat else g.s o.b.toNat) s

/-- SCMP (R152). -/
def execScmp (o : SOp) (s : State) : Host.Outcome State Fault Refusal :=
  runWord false 0 (scalarWord o.d [o.a.toNat, o.b.toNat] fun g =>
    if scalarCond o.imm.toNat (g.s o.a.toNat) (g.s o.b.toNat) then 1 else 0) s

end Sys2Proof.Machine
end

