-- ==== Sys2Proof/Machine/Valu.lean ====
section
/-! DEFINITION. The VALU instructions (spec/09, R192 to R202). -/
namespace Sys2Proof.Machine

def srcA (o : VU) : List Src := [⟨o.a, o.wa, none⟩]
def srcAB (o : VB) : List Src := [⟨o.a, o.wa, none⟩, ⟨o.b, o.wb, none⟩]
def srcABC (o : VT) : List Src := [⟨o.a, o.wa, none⟩, ⟨o.b, o.wb, none⟩, ⟨o.c, o.wc, none⟩]

/-- The plan of an arithmetic instruction (R188): integer and float tags that agree, with one rule for each kind of element. -/
def arithPlan (sat : Bool) (fi : Nat → Bool → List Int → Rounded) (ff : Fmt → Bool → List Nat → Rounded) (c : Ctx) (ts : List FTag) :
    Except Cause VPlan :=
  match oneTag ts with
  | .error e => .error e
  | .ok t =>
    if !(t.isInt || t.isFloat) then .error .format
    else if sat && t.isFloat then .error .reservedField
    else
      let (f, w, k) := tagElems t
      .ok ⟨t, fun _ xs _ => elementwise w k (fun _ es =>
        match f with
        | .int b sg => fi b sg (es.map (intVal b sg))
        | _ => ff f c.ftz es) xs⟩

/-- An integer rule by the exact value of two elements, reduced by R189. -/
def int2 (sat : Bool) (f : Int → Int → Int) (w : Nat) (sg : Bool) (xs : List Int) : Rounded := intReduce w sg sat (f (xs.getD 0 0) (xs.getD 1 0))
/-- A float rule by the exact value of two elements, rounded by R190. -/
def float2 (f : Num → Num → Num) (fm : Fmt) (ftz : Bool) (xs : List Nat) : Rounded :=
  fpResult fm ftz xs (f (readNum fm (xs.getD 0 0) ftz) (readNum fm (xs.getD 1 0) ftz))

/-- The exact integer of a signed immediate. -/
def immNum (n : Int) : Num := .fin (decide (n < 0)) n.natAbs 1 0

/-- A multiply-add (R196): an infinity times zero is invalid even beside a quiet NaN. -/
def fmaResult (minus : Bool) (f : Fmt) (ftz : Bool) (xs : List Nat) : Rounded :=
  let a := xs.getD 0 0
  let b := xs.getD 1 0
  let z := readNum f (xs.getD 2 0) ftz
  let p := (readNum f a ftz).mul (readNum f b ftz)
  let r := fpResult f ftz xs (p.add (if minus then z.neg else z))
  if p.isNaN && !isNaNBits f a && !isNaNBits f b then ⟨defaultNaN f, r.flags ||| flIV⟩ else r

/-- VADDMIN's integer rule (R199): the sum saturates, then the order decides. -/
def addMinInt (w : Nat) (sg : Bool) (xs : List Int) : Rounded :=
  let s := intVal w sg (intReduce w sg true (xs.getD 0 0 + xs.getD 1 0)).bits
  intReduce w sg false (if s ≤ xs.getD 2 0 then s else xs.getD 2 0)

/-- VADDMIN's float rule (R199). -/
def addMinFloat (f : Fmt) (ftz : Bool) (xs : List Nat) : Rounded :=
  let s := float2 Num.add f ftz (xs.take 2)
  (fmin f ftz false s.bits (xs.getD 2 0)).also s.flags

/-- VCLAMP: FMin(FMax(a, b), c) (R197). -/
def clampFloat (f : Fmt) (ftz : Bool) (xs : List Nat) : Rounded :=
  let m := fmin f ftz true (xs.getD 0 0) (xs.getD 1 0)
  (fmin f ftz false m.bits (xs.getD 2 0)).also m.flags

/-- VABS of a float clears the sign, VNEG inverts it (R198). -/
def signFloat (neg : Bool) (f : Fmt) (_ftz : Bool) (xs : List Nat) : Rounded :=
  let v := xs.getD 0 0
  let h := 2 ^ (f.width - 1)
  ⟨if neg then (if v < h then v + h else v - h) else v % h, 0⟩

/-- VMULH: the high half of the exact product (R200). -/
def mulHigh (w : Nat) (sg : Bool) (xs : List Int) : Rounded := intReduce w sg false (xs.getD 0 0 * xs.getD 1 0 / 2 ^ w)

/-- A copy keeps bits and tag (R193). -/
def copyPlan (pick : Nat → Nat) (_c : Ctx) (ts : List FTag) : Except Cause VPlan :=
  match oneTag ts with
  | .error e => .error e
  | .ok t => .ok ⟨t, fun l xs _ => ⟨xs.getD (pick l) 0, 0⟩⟩

/-- VMOV (R193). -/
def execVmov (o : VU) (s : State) : Host.Outcome State Fault Refusal := runWord false o.m (vectorWord o.m [] o.d (srcA o) (copyPlan fun _ => 0)) s

/-- The tags VMOVI and VMOVS may name (R188). -/
def immTag (code : Nat) : Except Cause FTag :=
  match tagOf code with
  | none => .error .format
  | some t => if t == .e3m2s || t == .e2m3s || t == .cap || t == .route then .error .format else .ok t

/-- The plan of a word that writes one value into every active lane. -/
def fillPlan (code : Nat) (v : Nat → Nat) (_c : Ctx) (_ts : List FTag) : Except Cause VPlan :=
  match immTag code with
  | .error e => .error e
  | .ok t => .ok ⟨t, fun _ _ _ => ⟨v (32 * t.regs), 0⟩⟩

/-- The lane value of VMOVI in L bits (R194). -/
def immValue (sub k len : Nat) : Nat :=
  match sub with
  | 0 => (sext 17 k).toNat % 2 ^ len
  | 1 => k
  | 2 => k * 2 ^ (len - 17)
  | _ => k % 2 ^ 16 * (2 ^ 16 + 1)

/-- VMOVI (R194). -/
def execVmovi (d : VField) (imm : BitVec 22) (sub : BitVec 2) (m : MField) (s : State) : Host.Outcome State Fault Refusal :=
  runWord false m (vectorWord m [] d [] (fillPlan (imm.toNat / 2 ^ 17) (immValue sub.toNat (imm.toNat % 2 ^ 17)))) s

/-- VMOVS (R193): a pair tag takes all 64 bits. -/
def execVmovs (d : VField) (a : SReg) (tag : BitVec 5) (m : MField) (s : State) : Host.Outcome State Fault Refusal :=
  runWord false m (vectorWord m [a] d [] fun c ts => fillPlan tag.toNat (fun len => (c.g.s a.toNat).toNat % 2 ^ len) c ts) s

/-- VADD (R195). -/
def execVadd (o : VB) (sat : Bool) (s : State) : Host.Outcome State Fault Refusal :=
  runWord false o.m (vectorWord o.m [] o.d (srcAB o) (arithPlan sat (int2 sat fun x y => x + y) (float2 Num.add))) s

/-- VADDI (R195): the immediate enters the exact sum. -/
def execVaddi (o : VU) (imm : BitVec 22) (sat : Bool) (s : State) : Host.Outcome State Fault Refusal :=
  let n := signedOf 22 imm.toNat
  runWord false o.m (vectorWord o.m [] o.d (srcA o) (arithPlan sat (int2 sat fun x _ => x + n)
    (fun f ftz xs => fpResult f ftz xs ((readNum f (xs.getD 0 0) ftz).add (immNum n))))) s

/-- VSUB (R195): a + (-b). -/
def execVsub (o : VB) (sat : Bool) (s : State) : Host.Outcome State Fault Refusal :=
  runWord false o.m (vectorWord o.m [] o.d (srcAB o) (arithPlan sat (int2 sat fun x y => x - y) (float2 fun x y => x.add y.neg))) s

/-- VMUL (R195). -/
def execVmul (o : VB) (sat : Bool) (s : State) : Host.Outcome State Fault Refusal :=
  runWord false o.m (vectorWord o.m [] o.d (srcAB o) (arithPlan sat (int2 sat fun x y => x * y) (float2 Num.mul))) s

/-- VFMA (R196). -/
def execVfma (o : VT) (s : State) : Host.Outcome State Fault Refusal :=
  runWord false o.m (vectorWord o.m [] o.d (srcABC o) (arithPlan false
    (fun w sg xs => intReduce w sg false (xs.getD 0 0 * xs.getD 1 0 + xs.getD 2 0)) (fmaResult false))) s

/-- VFMS (R196). -/
def execVfms (o : VT) (s : State) : Host.Outcome State Fault Refusal :=
  runWord false o.m (vectorWord o.m [] o.d (srcABC o) (arithPlan false
    (fun w sg xs => intReduce w sg false (xs.getD 0 0 * xs.getD 1 0 - xs.getD 2 0)) (fmaResult true))) s

/-- VMIN (R197). -/
def execVmin (o : VB) (s : State) : Host.Outcome State Fault Refusal :=
  runWord false o.m (vectorWord o.m [] o.d (srcAB o) (arithPlan false (int2 false fun x y => min x y)
    (fun f ftz xs => fmin f ftz false (xs.getD 0 0) (xs.getD 1 0)))) s

/-- VMAX (R197). -/
def execVmax (o : VB) (s : State) : Host.Outcome State Fault Refusal :=
  runWord false o.m (vectorWord o.m [] o.d (srcAB o) (arithPlan false (int2 false fun x y => max x y)
    (fun f ftz xs => fmin f ftz true (xs.getD 0 0) (xs.getD 1 0)))) s

/-- VCLAMP (R197). -/
def execVclamp (o : VT) (s : State) : Host.Outcome State Fault Refusal :=
  runWord false o.m (vectorWord o.m [] o.d (srcABC o) (arithPlan false
    (fun w sg xs => intReduce w sg false (min (max (xs.getD 0 0) (xs.getD 1 0)) (xs.getD 2 0))) clampFloat)) s

/-- VABS (R198). -/
def execVabs (o : VU) (sat : Bool) (s : State) : Host.Outcome State Fault Refusal :=
  runWord false o.m (vectorWord o.m [] o.d (srcA o) (arithPlan sat (int2 sat fun x _ => (x.natAbs : Int)) (signFloat false))) s

/-- VNEG (R198). -/
def execVneg (o : VU) (sat : Bool) (s : State) : Host.Outcome State Fault Refusal :=
  runWord false o.m (vectorWord o.m [] o.d (srcA o) (arithPlan sat (int2 sat fun x _ => -x) (signFloat true))) s

/-- VADDMIN (R199). -/
def execVaddmin (o : VT) (s : State) : Host.Outcome State Fault Refusal :=
  runWord false o.m (vectorWord o.m [] o.d (srcABC o) (arithPlan false addMinInt addMinFloat)) s

/-- VMULH (R200): integer tags alone. -/
def execVmulh (o : VB) (s : State) : Host.Outcome State Fault Refusal :=
  runWord false o.m (vectorWord o.m [] o.d (srcAB o) fun c ts =>
    if ts.any FTag.isFloat then .error .format else arithPlan false mulHigh (fun _ _ _ => ⟨0, 0⟩) c ts) s

/-- The conditions of VCMP on values that are no NaN (R201). -/
def cmpHolds (cond : Nat) (lt eq : Bool) : Bool :=
  match cond with
  | 0 => eq
  | 1 => !eq
  | 2 => lt
  | 3 => lt || eq
  | 4 => !lt && !eq
  | 5 => !lt
  | 6 => false
  | _ => true

/-- One lane's comparison: the result and its flags (R201). -/
def cmpLane (f : Fmt) (ftz : Bool) (cond a b : Nat) : Bool × Nat :=
  match f with
  | .int w sg => (cmpHolds cond (decide (intVal w sg a < intVal w sg b)) (intVal w sg a == intVal w sg b), 0)
  | _ =>
    if isNaNBits f a || isNaNBits f b then
      (cond == 1 || cond == 6, if decide (2 ≤ cond) && decide (cond ≤ 5) then flIV else snan f [a, b])
    else
      let x := readNum f a ftz
      let y := readNum f b ftz
      (cmpHolds cond (x.lt y) (x.eqv y), 0)

/-- VCMP (R201): a mask of the active lanes; every other bit is cleared, and so is that of a lane that takes INDEX_WINDOW (log entry 139: the model's
choice). -/
def vcmpWord (d : SReg) (a b : VField) (cond : Nat) (m : MField) (wa wb : Bool) (c : Ctx) (s : State) : WordOut :=
  let ls := c.lanes m
  let act := c.active m
  let srcs : List Src := [⟨a, wa, none⟩, ⟨b, wb, none⟩]
  guardW (c.placedBy ls srcs none fun _ => 1) c m s <| guardW (c.checkScalars [m.toNat, d.toNat]) c m s <|
    match c.checkSrcs ls srcs with
    | .error e => e.out s act
    | .ok ts =>
      if c.unresolved ls srcs then .done (s.modGroup c.gid fun g => g.setS d.toNat 0) (ls.map fun l => (l, .indexWindow, 0))
      else match oneTag (ts.map Prod.fst) with
        | .error e => .trap s e 0 act
        | .ok t =>
          if !(t == .i32 || t == .n32 || t == .i64 || t == .n64 || t == .f32 || t == .f64) then .trap s .format 0 act
          else if t.isInt && decide (6 ≤ cond) then .trap s .reservedField 0 act
          else
            let f := (tagElems t).1
            let r := ls.foldl (fun (acc : List (Nat × Bool × Nat) × List LaneFault) l =>
              match c.resolve l [(a, t.regs), (b, t.regs)] with
              | some [x, y] =>
                let q := cmpLane f c.ftz cond (c.read x t.regs l) (c.read y t.regs l)
                (acc.1 ++ [(l, q.1, q.2)], acc.2)
              | _ => (acc.1, acc.2 ++ [(l, .indexWindow, 0)])) ([], [])
            let fl := r.1.map fun x => (x.1, x.2.2)
            match fpTrap c.g.sp.fpctl fl with
            | some (cause, flm) => .trap s cause 0 flm
            | none =>
              let mask := lanesMask ((r.1.filter fun x => x.2.1).map Prod.fst)
              .done (s.modGroup c.gid fun g => (g.setS d.toNat mask).raise (allFlags fl)) r.2

def execVcmp (d : SReg) (a b : VField) (cond : BitVec 3) (m : MField) (wa wb : Bool) (s : State) : Host.Outcome State Fault Refusal :=
  runWord false m (vcmpWord d a b cond.toNat m wa wb) s

/-- VSEL (R202). -/
def execVsel (o : VB) (cs : SReg) (s : State) : Host.Outcome State Fault Refusal :=
  runWord false o.m (vectorWord o.m [cs] o.d (srcAB o) fun c ts => copyPlan (fun l => if (c.g.s cs.toNat).getLsbD l then 0 else 1) c ts) s

end Sys2Proof.Machine
end

