-- ==== Sys2Proof/Machine/Estimates.lean ====
section
/-! DEFINITION. Division, square root and the estimates of VBIT (spec/09, R208 to R210). Exact quotients; square roots and logarithms to far
more bits than any format keeps, with a sticky last bit. -/
namespace Sys2Proof.Machine

/-- The largest r below 2^bits with r^2 at most n, from r on. -/
def isqrtFrom (n : Nat) : Nat → Nat → Nat
  | 0, r => r
  | b + 1, r => isqrtFrom n b (if (r + 2 ^ b) * (r + 2 ^ b) ≤ n then r + 2 ^ b else r)

/-- The integer square root of a number below 2^(2 * bits). -/
def isqrt (bits n : Nat) : Nat := isqrtFrom n bits 0

/-- The square root of a positive value a / d * 2^e, to at least 120 bits, its last bit set when it is not exact. -/
def sqrtNum (a d : Nat) (e : Int) : Num :=
  let (a1, e1) := if e % 2 = 0 then (a, e) else (2 * a, e - 1)
  let k := 128 + (Nat.log2 d + 1)
  let n := a1 * 2 ^ (2 * k) / d
  let r := isqrt (Nat.log2 n / 2 + 1) n
  let exact := r * r * d == a1 * 2 ^ (2 * k)
  .fin false (2 * r + (if exact then 0 else 1)) 1 (e1 / 2 - (k : Int) - 1)

/-- VDIV (R208). -/
def divResult (f : Fmt) (ftz : Bool) (x y : Nat) : Rounded :=
  if isNaNBits f x || isNaNBits f y then ⟨defaultNaN f, snan f [x, y]⟩
  else
    match readNum f x ftz, readNum f y ftz with
    | .inf _, .inf _ => ⟨defaultNaN f, flIV⟩
    | .inf n, b => ⟨infBits f (n != b.sign), 0⟩
    | a, .inf n => ⟨withSign f (a.sign != n) 0, 0⟩
    | .fin n1 a1 d1 e1, .fin n2 a2 d2 e2 =>
      if a1 = 0 && a2 = 0 then ⟨defaultNaN f, flIV⟩
      else if a2 = 0 then ⟨infBits f (n1 != n2), flDZ⟩
      else if a1 = 0 then ⟨withSign f (n1 != n2) 0, 0⟩
      else roundTo f 0 (.fin (n1 != n2) (a1 * d2) (d1 * a2) (e1 - e2)) 0 ftz
    | _, _ => ⟨defaultNaN f, flIV⟩

/-- VSQRT (R208). -/
def sqrtResult (f : Fmt) (ftz : Bool) (x : Nat) : Rounded :=
  if isNaNBits f x then ⟨defaultNaN f, snan f [x]⟩
  else match readNum f x ftz with
    | .nan => ⟨defaultNaN f, flIV⟩
    | .inf n => if n then ⟨defaultNaN f, flIV⟩ else ⟨infBits f false, 0⟩
    | .fin n a d e => if a = 0 then ⟨withSign f n 0, 0⟩ else if n then ⟨defaultNaN f, flIV⟩ else roundTo f 0 (sqrtNum a d e) 0 ftz

/-! 2^x and log2 x in fixed point. -/

/-- Bits after the point in the working precision. -/
def fixBits : Nat := 160

/-- The product of 2^(2^-i) over the set bits of a fraction, from the factor `c` of the next bit on. -/
def exp2Frac (v : Nat) : Nat → Nat → Nat → Nat
  | 0, _, acc => acc
  | b + 1, c, acc => exp2Frac v b (isqrt (fixBits + 2) (c * 2 ^ fixBits)) (if v.testBit b then acc * c / 2 ^ fixBits else acc)

/-- 2^x of a finite value: exact for an integer, else to about 150 bits with a sticky last bit. The exponent is held within 2^20. -/
def exp2Num (n : Bool) (a d : Nat) (e : Int) : Num :=
  let (p, q) := scaled a d e 0
  let big := 2 ^ 20
  let whole := p / q
  let frac := p % q
  if big ≤ whole then .fin false 1 1 (if n then -(big : Int) else big)
  else if frac = 0 then .fin false 1 1 (if n then -(whole : Int) else whole)
  else
    let fx := frac * 2 ^ fixBits / q
    let (k, g) : Int × Nat := if n then (-(whole : Int) - 1, 2 ^ fixBits - fx - (if frac * 2 ^ fixBits % q = 0 then 0 else 1)) else (whole, fx)
    let root := isqrt (fixBits + 2) (2 ^ (2 * fixBits + 1))
    .fin false (2 * exp2Frac g fixBits root (2 ^ fixBits) + 1) 1 (k - (fixBits : Int) - 1)

/-- Bits of log2 of a value in [1, 2) held with 320 bits after the point. -/
def log2Frac : Nat → Nat → Nat → Nat
  | 0, _, acc => acc
  | b + 1, m, acc =>
    let sq := m * m / 2 ^ 320
    if 2 ^ 321 ≤ sq then log2Frac b (sq / 2) (2 * acc + 1) else log2Frac b sq (2 * acc)

/-- log2 of a positive value: exact for a power of two, else to 160 bits after the point, with a sticky bit. -/
def log2Num (a d : Nat) (e : Int) : Num :=
  let ex := floorLog2 a d + e
  let (p, q) := scaled a d e (ex - 320)
  let m := p / q
  if m = 2 ^ 320 && p % q = 0 then .fin (decide (ex < 0)) ex.natAbs 1 0
  else
    let fr := log2Frac fixBits m 0
    let v : Int := 2 * (ex * 2 ^ fixBits + fr) + 1
    .fin (decide (v < 0)) v.natAbs 1 (-(fixBits : Int) - 1)

/-- The exact value of an estimate (R209) of a finite operand in its domain, or as near as the fixed point comes, and whether the fixed point is
that value itself: 0 VRCP, 1 VRSQ, 2 VEXP2, 3 VLOG2. -/
def estimateExact (fn : Nat) (n : Bool) (a d : Nat) (e : Int) : Num × Bool :=
  let pow2 := d = 1 && a == 2 ^ Nat.log2 a
  match fn with
  | 0 => (.fin n d a (-e), pow2)
  | 1 => (sqrtNum d a (-e), pow2 && (Nat.log2 a + e) % 2 == 0)
  | 2 => (exp2Num n a d e, let (p, q) := scaled a d e 0; p % q == 0)
  | _ => (log2Num a d e, pow2)

/-- The difference of two finite values, as a magnitude. -/
def numDist (x y : Num) : Num :=
  match x.add y.neg with
  | .fin _ a d e => .fin false a d e
  | z => z

/-- An estimate z of F32 or F64 lies within the bound of R209 around y. VLOG2's absolute bound alone allows the other sign. -/
def withinBound (fn : Nat) (f : Fmt) (x y z : Num) : Bool :=
  match y, f.params with
  | .fin _ a d e, some p =>
    let ex := floorLog2 a d + e
    let emin : Int := 1 - (p.bias : Int)
    let q := (if ex < emin then emin else ex) - p.fbits
    let dist := numDist y z
    let ulps : Nat := if fn = 0 then 1 else 2
    let near := !(.fin false ulps 1 q : Num).lt dist && y.sign == z.sign
    let small := fn == 3 && !(x.lt (.fin false 1 1 (-1))) && x.lt (.fin false 2 1 0)
      && !(.fin false 1 1 (if f == .f32 then -22 else -51) : Num).lt dist
    a != 0 && (near || small)
  | _, _ => false

/-- A value below half the smallest subnormal of a format. -/
def vanishes (f : Fmt) (y : Num) : Bool :=
  match f.params with
  | some p => y.lt (.fin false 1 1 (-(p.bias : Int) - p.fbits))
  | none => false

/-- The result for an operand in the function's domain (R209): exact results alone raise nothing; a positive result below half the smallest
subnormal is +0; F16 and BF16 are correctly rounded; an F32 or F64 result is the implementation's (`Config.estimate`) where that lies within the
bound (log entry 15). -/
def estimateFinite (fn : Nat) (f : Fmt) (ftz : Bool) (bits : Nat) (n : Bool) (a d : Nat) (e : Int) : Rounded :=
  let (y, whole) := estimateExact fn n a d e
  let r := roundTo f 0 y 0 ftz
  if whole && (roundTo f 0 y 0 false).flags &&& flNX == 0 then r
  else if !(f == .f32 || f == .f64) || (fn == 2 && vanishes f y) then r.also flNX
  else
    let v := Config.estimate fn (if f == .f32 then 0 else 1) bits % 2 ^ f.width
    let z := decodeNum f v
    let top := (decodeNum f f.maxBits)
    if r.flags &&& flOF != 0 || isNaNBits f v || z.isInf || top.lt y || !(withinBound fn f (.fin n a d e) y z) then r.also flNX
    else if isSubnormal f v || z.isZero then (if ftz then ⟨withSign f z.sign 0, flUF ||| flNX⟩ else ⟨v, flUF ||| flNX⟩)
    else ⟨v, flNX⟩

/-- VRCP, VRSQ, VEXP2, VLOG2 with their special inputs (R210). -/
def estimateResult (fn : Nat) (f : Fmt) (ftz : Bool) (bits : Nat) : Rounded :=
  if isNaNBits f bits then ⟨defaultNaN f, snan f [bits]⟩
  else match readNum f bits ftz with
    | .nan => ⟨defaultNaN f, flIV⟩
    | .inf n =>
      match fn with
      | 0 => ⟨withSign f n 0, 0⟩
      | 1 => if n then ⟨defaultNaN f, flIV⟩ else ⟨withSign f false 0, 0⟩
      | 2 => if n then ⟨withSign f false 0, 0⟩ else ⟨infBits f false, 0⟩
      | _ => if n then ⟨defaultNaN f, flIV⟩ else ⟨infBits f false, 0⟩
    | .fin n a d e =>
      if a = 0 then
        match fn with
        | 2 => roundTo f 0 (.fin false 1 1 0) 0 ftz
        | 3 => ⟨infBits f true, flDZ⟩
        | _ => ⟨infBits f n, flDZ⟩
      else if n && (fn == 1 || fn == 3) then ⟨defaultNaN f, flIV⟩
      else estimateFinite fn f ftz bits n a d e

end Sys2Proof.Machine
end

