-- ==== Sys2Proof/Machine/Vbit.lean ====
section
/-! DEFINITION. The VBIT instructions (spec/09, R203 to R216). -/
namespace Sys2Proof.Machine

/-- The plan of bitwise logic over all bits of a lane (R204). -/
def logicPlan (f : Nat → List Nat → Nat) (_c : Ctx) (ts : List FTag) : Except Cause VPlan :=
  if ts.all fun t => t == .raw || t.isInt || t.isFloat then
    match rawTag ts with
    | .error e => .error e
    | .ok t => .ok ⟨t, fun _ xs _ => ⟨f (2 ^ (32 * t.regs)) xs, 0⟩⟩
  else .error .format

/-- The plan of counts and bit fields, element by element (R206, R207): `f` takes the width and the source's element. -/
def bitPlan (ok : Nat → Bool) (f : Nat → List Nat → Nat) (_c : Ctx) (ts : List FTag) : Except Cause VPlan :=
  if ts.all fun t => t == .raw || t.isInt then
    match rawTag ts with
    | .error e => .error e
    | .ok t =>
      let (_, w, k) := tagElems t
      if ok w then .ok ⟨t, fun _ xs _ => elementwise w k (fun _ es => ⟨f w es, 0⟩) xs⟩ else .error .reservedField
  else .error .format

/-- VAND (R204). -/
def execVand (o : VB) (s : State) : Host.Outcome State Fault Refusal :=
  runWord false o.m (wideVectorWord pairWide o.m [] o.d (srcAB o) (logicPlan fun _ xs => xs.getD 0 0 &&& xs.getD 1 0)) s
/-- VOR (R204). -/
def execVor (o : VB) (s : State) : Host.Outcome State Fault Refusal :=
  runWord false o.m (wideVectorWord pairWide o.m [] o.d (srcAB o) (logicPlan fun _ xs => xs.getD 0 0 ||| xs.getD 1 0)) s
/-- VXOR (R204). -/
def execVxor (o : VB) (s : State) : Host.Outcome State Fault Refusal :=
  runWord false o.m (wideVectorWord pairWide o.m [] o.d (srcAB o) (logicPlan fun _ xs => xs.getD 0 0 ^^^ xs.getD 1 0)) s
/-- VNOT (R204). -/
def execVnot (o : VU) (s : State) : Host.Outcome State Fault Refusal :=
  runWord false o.m (vectorWord o.m [] o.d (srcA o) (logicPlan fun m xs => m - 1 - xs.getD 0 0)) s

/-- A shift amount is the whole element of b, unsigned; from the width on nothing of a is left (R205). -/
def shiftLeft (w : Nat) (xs : List Nat) : Nat := if w ≤ xs.getD 1 0 then 0 else xs.getD 0 0 * 2 ^ xs.getD 1 0 % 2 ^ w
def shiftRight (w : Nat) (xs : List Nat) : Nat := if w ≤ xs.getD 1 0 then 0 else xs.getD 0 0 / 2 ^ xs.getD 1 0
/-- VSRA: copies of the element's top bit. -/
def shiftArith (w : Nat) (xs : List Nat) : Nat := (signedOf w (xs.getD 0 0) / 2 ^ min (xs.getD 1 0) (w - 1) % 2 ^ w).toNat

/-- The plan of the shifts (R205): element j of a by element j of b. A RAW operand has one 32-bit element, in one register: beside a tag of one
32-bit element it is a whole operand, as an amount it shifts the one element of a pair or element 0 of a packed tag; where no element corresponds, or the
element to shift has not the width of the result's tag, the spec states no value and the element is a free value (log entry 35). -/
def shiftPlan (op : Nat) (f : Nat → List Nat → Nat) (_c : Ctx) (ts : List FTag) : Except Cause VPlan :=
  if ts.all fun t => t == .raw || t.isInt then
    match rawTag ts with
    | .error e => .error e
    | .ok t =>
      let (_, w, k) := tagElems t
      let same := fun (x : FTag) => x == t || (w == 32 && k == 1)
      .ok ⟨t, fun _ xs _ =>
        let es := (List.range k).map fun j =>
          if same (ts.getD 0 .raw) && (same (ts.getD 1 .raw) || j == 0) then
            f w [elemAt w (xs.getD 0 0) j, if same (ts.getD 1 .raw) then elemAt w (xs.getD 1 0) j else xs.getD 1 0]
          else Config.openShift op j (xs.getD 0 0) (xs.getD 1 0) % 2 ^ w
        ⟨joinElems w es, 0⟩⟩
  else .error .format

/-- VSHL (R205). -/
def execVshl (o : VB) (s : State) : Host.Outcome State Fault Refusal :=
  runWord false o.m (vectorWord o.m [] o.d (srcAB o) (shiftPlan 0 shiftLeft)) s
/-- VSHR (R205). -/
def execVshr (o : VB) (s : State) : Host.Outcome State Fault Refusal :=
  runWord false o.m (vectorWord o.m [] o.d (srcAB o) (shiftPlan 1 shiftRight)) s
/-- VSRA (R205). -/
def execVsra (o : VB) (s : State) : Host.Outcome State Fault Refusal :=
  runWord false o.m (vectorWord o.m [] o.d (srcAB o) (shiftPlan 2 shiftArith)) s

/-- VCLZ (R206). -/
def execVclz (o : VU) (s : State) : Host.Outcome State Fault Refusal :=
  runWord false o.m (vectorWord o.m [] o.d (srcA o) (bitPlan (fun _ => true) fun w xs =>
    if xs.getD 0 0 = 0 then w else w - 1 - Nat.log2 (xs.getD 0 0))) s
/-- VPOPC (R206). -/
def execVpopc (o : VU) (s : State) : Host.Outcome State Fault Refusal :=
  runWord false o.m (vectorWord o.m [] o.d (srcA o) (bitPlan (fun _ => true) fun w xs => popcount w (xs.getD 0 0))) s

/-- The field fits an element of width w (R207). -/
def fieldOk (pos len w : Nat) : Bool := decide (pos < w) && decide (1 ≤ len) && decide (len ≤ w)

/-- VBFE (R207). -/
def execVbfe (o : VU) (pos : BitVec 6) (len : BitVec 7) (sx : Bool) (s : State) : Host.Outcome State Fault Refusal :=
  runWord false o.m (vectorWord o.m [] o.d (srcA o) (bitPlan (fieldOk pos.toNat len.toNat) fun w xs =>
    let n := min len.toNat (w - pos.toNat)
    let v := bitsOf (xs.getD 0 0) pos.toNat n
    if sx then (sext n v).toNat % 2 ^ w else v)) s

/-- VBFI (R207): the destination is a source with a's tag or RAW; the result carries a's tag. -/
def bfiPlan (pos len : Nat) (_c : Ctx) (ts : List FTag) : Except Cause VPlan :=
  let a := ts.getD 0 .raw
  let d := ts.getD 1 .raw
  if !(a == .raw || a.isInt) || !(d == a || d == .raw) then .error .format
  else
    let (_, w, k) := tagElems a
    if fieldOk pos len w then
      let n := min len (w - pos)
      .ok ⟨a, fun _ xs _ => elementwise w k (fun _ es =>
        let old := es.getD 1 0
        ⟨old - bitsOf old pos n * 2 ^ pos + es.getD 0 0 % 2 ^ n * 2 ^ pos, 0⟩) xs⟩
    else .error .reservedField

def execVbfi (o : VU) (pos : BitVec 6) (len : BitVec 7) (s : State) : Host.Outcome State Fault Refusal :=
  runWord false o.m (wideVectorWord fieldWide o.m [] o.d [⟨o.a, o.wa, none⟩, ⟨o.d, false, none⟩] (bfiPlan pos.toNat len.toNat)) s

/-- The plan of the float specials (R188): float tags that agree. -/
def floatPlan (f : Fmt → Bool → Nat → Nat → List Nat → Rounded) (c : Ctx) (ts : List FTag) : Except Cause VPlan :=
  match oneTag ts with
  | .error e => .error e
  | .ok t =>
    if t.isFloat then
      let (fm, w, k) := tagElems t
      .ok ⟨t, fun l xs _ => elementwise w k (fun j es => f fm c.ftz l j es) xs⟩
    else .error .format

/-- VDIV (R208). -/
def execVdiv (o : VB) (s : State) : Host.Outcome State Fault Refusal :=
  runWord false o.m (vectorWord o.m [] o.d (srcAB o) (floatPlan fun f z _ _ xs => divResult f z (xs.getD 0 0) (xs.getD 1 0))) s
/-- VSQRT (R208). -/
def execVsqrt (o : VU) (s : State) : Host.Outcome State Fault Refusal :=
  runWord false o.m (vectorWord o.m [] o.d (srcA o) (floatPlan fun f z _ _ xs => sqrtResult f z (xs.getD 0 0))) s
/-- VRCP (R209, R210). -/
def execVrcp (o : VU) (s : State) : Host.Outcome State Fault Refusal :=
  runWord false o.m (vectorWord o.m [] o.d (srcA o) (floatPlan fun f z _ _ xs => estimateResult 0 f z (xs.getD 0 0))) s
/-- VRSQ (R209, R210). -/
def execVrsq (o : VU) (s : State) : Host.Outcome State Fault Refusal :=
  runWord false o.m (vectorWord o.m [] o.d (srcA o) (floatPlan fun f z _ _ xs => estimateResult 1 f z (xs.getD 0 0))) s
/-- VEXP2 (R209, R210). -/
def execVexp2 (o : VU) (s : State) : Host.Outcome State Fault Refusal :=
  runWord false o.m (vectorWord o.m [] o.d (srcA o) (floatPlan fun f z _ _ xs => estimateResult 2 f z (xs.getD 0 0))) s
/-- VLOG2 (R209, R210). -/
def execVlog2 (o : VU) (s : State) : Host.Outcome State Fault Refusal :=
  runWord false o.m (vectorWord o.m [] o.d (srcA o) (floatPlan fun f z _ _ xs => estimateResult 3 f z (xs.getD 0 0))) s

/-- VRINT of one element (R211): the grid of integers of the format; the sign is the source's. -/
def rintResult (f : Fmt) (ftz : Bool) (mode r v : Nat) : Rounded :=
  if isNaNBits f v then ⟨defaultNaN f, snan f [v]⟩
  else match readNum f v ftz, f.params with
    | .fin n a d e, some p =>
      let (x, q) := scaled a d e 0
      if 2 ^ p.fbits * q ≤ x then ⟨v, 0⟩
      else
        let m := x / q
        let rest := x % q
        let y := if rest ≠ 0 && roundsUp mode n (m % 2 == 1) rest q r then m + 1 else m
        ⟨(roundTo f 0 (.fin n y 1 0) 0 ftz).bits, if rest = 0 then 0 else flNX⟩
    | _, _ => ⟨v, 0⟩

/-- VRINT (R211, R180). -/
def execVrint (o : VU) (seed : SReg) (mode : BitVec 3) (s : State) : Host.Outcome State Fault Refusal :=
  runWord false o.m (vectorWord o.m [seed] o.d (srcA o) fun c ts =>
    floatPlan (fun f z l j xs => rintResult f z mode.toNat (srBits (c.g.s seed.toNat) l j) (xs.getD 0 0)) c ts) s

/-- VSCALE of one element (R212). -/
def scaleResult (f : Fmt) (ftz : Bool) (v : Nat) (n : Int) : Rounded := fpResult f ftz [v] ((readNum f v ftz).scale n)

/-- The plan of VSCALE: b carries I32 beside F32 and F64, I16X2 beside F16X2 and BF16X2 (R212). -/
def scalePlan (c : Ctx) (ts : List FTag) : Except Cause VPlan :=
  let a := ts.getD 0 .raw
  let b := ts.getD 1 .raw
  if ((a == .f32 || a == .f64) && b == .i32) || ((a == .f16x2 || a == .bf16x2) && b == .i16x2) then
    let (f, w, k) := tagElems a
    let wb := (tagElems b).2.1
    .ok ⟨a, fun _ xs _ => elementwise w k (fun j es =>
      scaleResult f c.ftz (es.getD 0 0) (signedOf wb (elemAt wb (xs.getD 1 0) j))) (xs.take 1)⟩
  else .error .format

/-- VSCALE (R212). -/
def execVscale (o : VB) (s : State) : Host.Outcome State Fault Refusal :=
  runWord false o.m (vectorWord o.m [] o.d (srcAB o) scalePlan) s

/-- The class of an element (R213): one bit of ten. -/
def classOf (f : Fmt) (v : Nat) : Nat :=
  match f.params with
  | none => 0
  | some p =>
    let neg := v / 2 ^ (f.width - 1) % 2 == 1
    if isNaNBits f v then (if isSignalling f v then 1 else 2)
    else match decodeNum f v with
      | .inf _ => if neg then 4 else 512
      | .fin _ a _ _ =>
        if a = 0 then (if neg then 32 else 64)
        else if v / 2 ^ p.fbits % 2 ^ p.ebits = 0 then (if neg then 16 else 128)
        else if neg then 8 else 256
      | .nan => 2

/-- The plan of VCLASS: one N32 register; a pair source gives one class set (R213). -/
def classPlan (_c : Ctx) (ts : List FTag) : Except Cause VPlan :=
  let t := ts.getD 0 .raw
  if t.isFloat then
    let (f, w, k) := tagElems t
    .ok ⟨.n32, fun _ xs _ => ⟨(List.range k).foldl (fun x j => x + classOf f (elemAt w (xs.getD 0 0) j) * 2 ^ (16 * j)) 0, 0⟩⟩
  else .error .format

/-- VCLASS (R213). -/
def execVclass (o : VU) (s : State) : Host.Outcome State Fault Refusal := runWord false o.m (vectorWord o.m [] o.d (srcA o) classPlan) s

/-- VCVT of one element (R215): the exact value of the source, rounded in the mode. -/
def convertElem (src dst : Fmt) (ftz : Bool) (mode r v : Nat) : Rounded :=
  (roundTo dst mode (readNum src v ftz) r ftz).also (snan src [v])

/-- The plan of VCVT (R214): how parts of the larger side are chosen. A destination that is read too gives its bits as they stand, whatever tags its
registers carry (log entry 140: the model's choice). -/
def convertPlan (seed : W64) (p mode dtag : Nat) (c : Ctx) (ts : List FTag) : Except Cause VPlan :=
  let ok := fun (t : FTag) => t.isInt || t.isFloat || t.isMx
  let st := ts.getD 0 .raw
  match tagOf dtag with
  | none => .error .format
  | some dt =>
    if !ok st || !ok dt then .error .format
    else
      let (sf, sw, ks) := tagElems st
      let (df, dw, kd) := tagElems dt
      if (if ks = kd then p ≠ 0 else if ks < kd then kd / ks ≤ p else ks / kd ≤ p) then .error .reservedField
      else
        let n := min ks kd
        let sOff := if kd < ks then p * kd else 0
        let dOff := if ks < kd then p * ks else 0
        .ok ⟨dt, fun l xs old =>
          let r := (List.range n).map fun i =>
            convertElem sf df c.ftz mode (srBits seed l (dOff + i)) (elemAt sw (xs.getD 0 0) (sOff + i))
          let es := (List.range kd).map fun j =>
            if dOff ≤ j && j < dOff + n then (r.getD (j - dOff) ⟨0, 0⟩).bits else elemAt dw old j
          ⟨joinElems dw es, r.foldl (fun m x => m ||| x.flags) 0⟩⟩

/-- VCVT (R214, R215). -/
def execVcvt (o : VU) (seed : SReg) (p : BitVec 4) (tag : BitVec 5) (mode : BitVec 3) (s : State) : Host.Outcome State Fault Refusal :=
  runWord false o.m (vectorWord o.m [seed] o.d (srcA o) fun c ts => convertPlan (c.g.s seed.toNat) p.toNat mode.toNat tag.toNat c ts) s

/-- VTAG (R216): the registers of the new tag's size move under it; the sources' own tags are not checked. -/
def vtagWord (o : VU) (tag : Nat) (c : Ctx) (s : State) : WordOut :=
  let ls := c.lanes o.m
  let act := c.active o.m
  match tagOf tag with
  | none => guardW (c.placed [(o.a, 1), (o.d, 1)]) c o.m s (.trap s .format 0 act)
  | some t =>
    let n := t.regs
    guardW (c.placed [(o.a, n), (o.d, n)]) c o.m s <| guardW (c.checkScalars [o.m.toNat]) c o.m s <|
      guardW (c.fullCheck [(⟨o.a, o.wa, some n⟩, c.touched o.a n ls)]) c o.m s <| guardW (c.checkDst ls o.d n) c o.m s <|
        let r := c.compute ls [(o.a, n)] o.d ⟨t, fun _ xs _ => ⟨xs.getD 0 0, 0⟩⟩
        vectorResult c s o.m o.d n t r.1 r.2

def execVtag (o : VU) (tag : BitVec 5) (s : State) : Host.Outcome State Fault Refusal := runWord false o.m (vtagWord o tag.toNat) s

end Sys2Proof.Machine
end

