-- ==== Sys2Proof/Machine/Dispatch.lean ====
section
/-! DEFINITION. What each instruction and each step does: one arm per constructor, one call of its meaning. -/
namespace Sys2Proof.Machine

def exec (i : Instr) (s : State) : Host.Outcome State Fault Refusal :=
  match i with
  | .bra off => Sys2Proof.Machine.execBra off s
  | .brz a off => Sys2Proof.Machine.execBrz a off s
  | .brnz a off => Sys2Proof.Machine.execBrnz a off s
  | .mskip a off => Sys2Proof.Machine.execMskip a off s
  | .brv a off => Sys2Proof.Machine.execBrv a off s
  | .jmpt a b => Sys2Proof.Machine.execJmpt a b s
  | .jmptC a b => Sys2Proof.Machine.execJmptC a b s
  | .jmptv a idx wi => Sys2Proof.Machine.execJmptv a idx wi s
  | .call off => Sys2Proof.Machine.execCall off s
  | .callt a b => Sys2Proof.Machine.execCallt a b s
  | .calltC a b => Sys2Proof.Machine.execCalltC a b s
  | .calltv a idx wi link => Sys2Proof.Machine.execCalltv a idx wi link s
  | .ret a => Sys2Proof.Machine.execRet a s
  | .retv link wl => Sys2Proof.Machine.execRetv link wl s
  | .bar n count => Sys2Proof.Machine.execBar n count s
  | .pwait n k => Sys2Proof.Machine.execPwait n k s
  | .splits d var => Sys2Proof.Machine.execSplits d var s
  | .trap code m => Sys2Proof.Machine.execTrap code m s
  | .bkpt m => Sys2Proof.Machine.execBkpt m s
  | .sget d r => Sys2Proof.Machine.execSget d r s
  | .sset a r => Sys2Proof.Machine.execSset a r s
  | .tlbiDropVa tenant va => Sys2Proof.Machine.execTlbiDropVa tenant va s
  | .tlbiDropTenant tenant => Sys2Proof.Machine.execTlbiDropTenant tenant s
  | .launch q p d => Sys2Proof.Machine.execLaunch q p d s
  | .smov o => Sys2Proof.Machine.execSmov o s
  | .smovi o => Sys2Proof.Machine.execSmovi o s
  | .smovhi o => Sys2Proof.Machine.execSmovhi o s
  | .sadd o => Sys2Proof.Machine.execSadd o s
  | .ssub o => Sys2Proof.Machine.execSsub o s
  | .smul o => Sys2Proof.Machine.execSmul o s
  | .smulhs o => Sys2Proof.Machine.execSmulhs o s
  | .smulhn o => Sys2Proof.Machine.execSmulhn o s
  | .sdivs o => Sys2Proof.Machine.execSdivs o s
  | .sdivn o => Sys2Proof.Machine.execSdivn o s
  | .srems o => Sys2Proof.Machine.execSrems o s
  | .sremn o => Sys2Proof.Machine.execSremn o s
  | .sand o => Sys2Proof.Machine.execSand o s
  | .sor o => Sys2Proof.Machine.execSor o s
  | .sxor o => Sys2Proof.Machine.execSxor o s
  | .sandn o => Sys2Proof.Machine.execSandn o s
  | .sshl o => Sys2Proof.Machine.execSshl o s
  | .sshrn o => Sys2Proof.Machine.execSshrn o s
  | .sshrs o => Sys2Proof.Machine.execSshrs o s
  | .smins o => Sys2Proof.Machine.execSmins o s
  | .smaxs o => Sys2Proof.Machine.execSmaxs o s
  | .sminn o => Sys2Proof.Machine.execSminn o s
  | .smaxn o => Sys2Proof.Machine.execSmaxn o s
  | .sclz o => Sys2Proof.Machine.execSclz o s
  | .sctz o => Sys2Proof.Machine.execSctz o s
  | .spopc o => Sys2Proof.Machine.execSpopc o s
  | .sbext o => Sys2Proof.Machine.execSbext o s
  | .sbins o => Sys2Proof.Machine.execSbins o s
  | .ssel o => Sys2Proof.Machine.execSsel o s
  | .scmp o => Sys2Proof.Machine.execScmp o s
  | .vmov o => Sys2Proof.Machine.execVmov o s
  | .vmovi d imm sub m => Sys2Proof.Machine.execVmovi d imm sub m s
  | .vmovs d a tag m => Sys2Proof.Machine.execVmovs d a tag m s
  | .vadd o sat => Sys2Proof.Machine.execVadd o sat s
  | .vaddi o imm sat => Sys2Proof.Machine.execVaddi o imm sat s
  | .vsub o sat => Sys2Proof.Machine.execVsub o sat s
  | .vmul o sat => Sys2Proof.Machine.execVmul o sat s
  | .vfma o => Sys2Proof.Machine.execVfma o s
  | .vfms o => Sys2Proof.Machine.execVfms o s
  | .vmin o => Sys2Proof.Machine.execVmin o s
  | .vmax o => Sys2Proof.Machine.execVmax o s
  | .vclamp o => Sys2Proof.Machine.execVclamp o s
  | .vabs o sat => Sys2Proof.Machine.execVabs o sat s
  | .vneg o sat => Sys2Proof.Machine.execVneg o sat s
  | .vaddmin o => Sys2Proof.Machine.execVaddmin o s
  | .vmulh o => Sys2Proof.Machine.execVmulh o s
  | .vcmp d a b cond m wa wb => Sys2Proof.Machine.execVcmp d a b cond m wa wb s
  | .vsel o c => Sys2Proof.Machine.execVsel o c s
  | .vand o => Sys2Proof.Machine.execVand o s
  | .vor o => Sys2Proof.Machine.execVor o s
  | .vxor o => Sys2Proof.Machine.execVxor o s
  | .vnot o => Sys2Proof.Machine.execVnot o s
  | .vshl o => Sys2Proof.Machine.execVshl o s
  | .vshr o => Sys2Proof.Machine.execVshr o s
  | .vsra o => Sys2Proof.Machine.execVsra o s
  | .vclz o => Sys2Proof.Machine.execVclz o s
  | .vpopc o => Sys2Proof.Machine.execVpopc o s
  | .vbfe o pos len sx => Sys2Proof.Machine.execVbfe o pos len sx s
  | .vbfi o pos len => Sys2Proof.Machine.execVbfi o pos len s
  | .vdiv o => Sys2Proof.Machine.execVdiv o s
  | .vsqrt o => Sys2Proof.Machine.execVsqrt o s
  | .vrcp o => Sys2Proof.Machine.execVrcp o s
  | .vrsq o => Sys2Proof.Machine.execVrsq o s
  | .vexp2 o => Sys2Proof.Machine.execVexp2 o s
  | .vlog2 o => Sys2Proof.Machine.execVlog2 o s
  | .vrint o seed mode => Sys2Proof.Machine.execVrint o seed mode s
  | .vscale o => Sys2Proof.Machine.execVscale o s
  | .vclass o => Sys2Proof.Machine.execVclass o s
  | .vcvt o seed p tag mode => Sys2Proof.Machine.execVcvt o seed p tag mode s
  | .vtag o tag => Sys2Proof.Machine.execVtag o tag s
  | .vshfl o => Sys2Proof.Machine.execVshfl o s
  | .vshflx o k => Sys2Proof.Machine.execVshflx o k s
  | .vshup o n c wc => Sys2Proof.Machine.execVshup o n c wc s
  | .vshdn o n c wc => Sys2Proof.Machine.execVshdn o n c wc s
  | .vbcast o b => Sys2Proof.Machine.execVbcast o b s
  | .vrdl d a b sz wa => Sys2Proof.Machine.execVrdl d a b sz wa s
  | .vwrl d a b sz => Sys2Proof.Machine.execVwrl d a b sz s
  | .vvote d a opr m wa => Sys2Proof.Machine.execVvote d a opr m wa s
  | .vred d a opr sz m wa => Sys2Proof.Machine.execVred d a opr sz m wa s
  | .vscan o opr x sz => Sys2Proof.Machine.execVscan o opr x sz s
  | .xset x a add m wa => Sys2Proof.Machine.execXset x a add m wa s
  | .xwin x a len => Sys2Proof.Machine.execXwin x a len s
  | .xget d x m => Sys2Proof.Machine.execXget d x m s
  | .ld tag o => Sys2Proof.Machine.execLd tag o s
  | .ldRec tag o => Sys2Proof.Machine.execLdRec tag o s
  | .st o => Sys2Proof.Machine.execSt o s
  | .stRec o => Sys2Proof.Machine.execStRec o s
  | .ldu o => Sys2Proof.Machine.execLdu o s
  | .stu o => Sys2Proof.Machine.execStu o s
  | .ldc o => Sys2Proof.Machine.execLdc o s
  | .stc o => Sys2Proof.Machine.execStc o s
  | .atom op o => Sys2Proof.Machine.execAtom op o s
  | .atomu op o => Sys2Proof.Machine.execAtomu op o s
  | .fence order scope => Sys2Proof.Machine.execFence order scope s
  | .lds tag o => Sys2Proof.Machine.execLds tag o s
  | .sts o => Sys2Proof.Machine.execSts o s
  | .atoms op o => Sys2Proof.Machine.execAtoms op o s
  | .ldx tag o => Sys2Proof.Machine.execLdx tag o s
  | .stx o => Sys2Proof.Machine.execStx o s
  | .atomx op o => Sys2Proof.Machine.execAtomx op o s
  | .cgeta o => Sys2Proof.Machine.execCgeta o s
  | .cgetb o => Sys2Proof.Machine.execCgetb o s
  | .cgetl o => Sys2Proof.Machine.execCgetl o s
  | .cgetp o => Sys2Proof.Machine.execCgetp o s
  | .cgetk o => Sys2Proof.Machine.execCgetk o s
  | .cgett o => Sys2Proof.Machine.execCgett o s
  | .cseta o => Sys2Proof.Machine.execCseta o s
  | .cinc o => Sys2Proof.Machine.execCinc o s
  | .cinci u d a imm m wa => Sys2Proof.Machine.execCinci u d a imm m wa s
  | .cbound o => Sys2Proof.Machine.execCbound o s
  | .cboundx o => Sys2Proof.Machine.execCboundx o s
  | .candp o => Sys2Proof.Machine.execCandp o s
  | .cseal o => Sys2Proof.Machine.execCseal o s
  | .csealE o => Sys2Proof.Machine.execCsealE o s
  | .cunseal o => Sys2Proof.Machine.execCunseal o s
  | .csub o => Sys2Proof.Machine.execCsub o s
  | .ceq o => Sys2Proof.Machine.execCeq o s
  | .cclr o => Sys2Proof.Machine.execCclr o s
  | .cmovc o => Sys2Proof.Machine.execCmovc o s
  | .cmovcX o => Sys2Proof.Machine.execCmovcX o s
  | .creg d a b => Sys2Proof.Machine.execCreg d a b s
  | .csweep d a b => Sys2Proof.Machine.execCsweep d a b s
  | .cmint d a b => Sys2Proof.Machine.execCmint d a b s
  | .send d a b ofs m wa wb => Sys2Proof.Machine.execSend d a b ofs m wa wb s
  | .sendm d a b ofs nm1 m wa wb => Sys2Proof.Machine.execSendm d a b ofs nm1 m wa wb s
  | .empty d nm1 => Sys2Proof.Machine.execEmpty d nm1 s
  | .isfull d a nm1 => Sys2Proof.Machine.execIsfull d a nm1 s
  | .rtchk d a b capchk m wa wb => Sys2Proof.Machine.execRtchk d a b capchk m wa wb s
  | .cpy o => Sys2Proof.Machine.execCpy o s
  | .cpyt o => Sys2Proof.Machine.execCpyt o s
  | .cpyg o esz => Sys2Proof.Machine.execCpyg o esz s
  | .cpys o esz => Sys2Proof.Machine.execCpys o esz s
  | .kinit a => Sys2Proof.Machine.execKinit a s
  | .kinitR a d => Sys2Proof.Machine.execKinitR a d s
  | .kacq d a nb => Sys2Proof.Machine.execKacq d a nb s
  | .karr a b => Sys2Proof.Machine.execKarr a b s
  | .karrC d a b => Sys2Proof.Machine.execKarrC d a b s
  | .kwait a => Sys2Proof.Machine.execKwait a s
  | .krel a => Sys2Proof.Machine.execKrel a s
  | .ksend d a b => Sys2Proof.Machine.execKsend d a b s
  | .kstat d a var => Sys2Proof.Machine.execKstat d a var s
  | .mmap a b om => Sys2Proof.Machine.execMmap a b om s
  | .mzero tile => Sys2Proof.Machine.execMzero tile s
  | .mload a b tile => Sys2Proof.Machine.execMload a b tile s
  | .mloop ma mb b tile => Sys2Proof.Machine.execMloop ma mb b tile s
  | .mloopResume ma mb b tile => Sys2Proof.Machine.execMloopResume ma mb b tile s
  | .mdrain d a b tile sys => Sys2Proof.Machine.execMdrain d a b tile sys s
  | .mwait d tile => Sys2Proof.Machine.execMwait d tile s
  | .mprog d tile var => Sys2Proof.Machine.execMprog d tile var s
  | .quadrantChoice core q => Sys2Proof.Machine.execQuadrantChoice core q s
  | .clauseBreak at_ => Sys2Proof.Machine.execClauseBreak at_ s
  | .overflowRotation g => Sys2Proof.Machine.execOverflowRotation g s
  | .trapDelivery g => Sys2Proof.Machine.execTrapDelivery g s
  | .lateFault g lanes whole cause addr => Sys2Proof.Machine.execLateFault g lanes whole cause addr s
  | .loadReturn g id => Sys2Proof.Machine.execLoadReturn g id s
  | .storeAccept core => Sys2Proof.Machine.execStoreAccept core s
  | .tlbWalk core index => Sys2Proof.Machine.execTlbWalk core index s
  | .walkFail core index cause => Sys2Proof.Machine.execWalkFail core index cause s
  | .hearthAgeTrigger core index => Sys2Proof.Machine.execHearthAgeTrigger core index s
  | .entryLeave core index => Sys2Proof.Machine.execEntryLeave core index s
  | .homeAtomic g id => Sys2Proof.Machine.execHomeAtomic g id s
  | .scratchWriteDone g id => Sys2Proof.Machine.execScratchWriteDone g id s
  | .clusterAccessDone g id => Sys2Proof.Machine.execClusterAccessDone g id s
  | .read line core => Sys2Proof.Machine.execRead line core s
  | .readNew line g id => Sys2Proof.Machine.execReadNew line g id s
  | .grantReq line core mark engine => Sys2Proof.Machine.execGrantReq line core mark engine s
  | .grant line core engine => Sys2Proof.Machine.execGrant line core engine s
  | .recall line core => Sys2Proof.Machine.execRecall line core s
  | .grantBack line core => Sys2Proof.Machine.execGrantBack line core s
  | .promote line core => Sys2Proof.Machine.execPromote line core s
  | .fwd line core reader => Sys2Proof.Machine.execFwd line core reader s
  | .fwdData line reader data tags => Sys2Proof.Machine.execFwdData line reader data tags s
  | .drainData line core index more => Sys2Proof.Machine.execDrainData line core index more s
  | .drainProv line core index => Sys2Proof.Machine.execDrainProv line core index s
  | .commit line core index more => Sys2Proof.Machine.execCommit line core index more s
  | .ack core index endMark => Sys2Proof.Machine.execAck core index endMark s
  | .inval line site => Sys2Proof.Machine.execInval line site s
  | .invalAck line site => Sys2Proof.Machine.execInvalAck line site s
  | .hostWriteAccept core index => Sys2Proof.Machine.execHostWriteAccept core index s
  | .memoryServe ctrl => Sys2Proof.Machine.execMemoryServe ctrl s
  | .packetTake die q => Sys2Proof.Machine.execPacketTake die q s
  | .dependenceReeval die q => Sys2Proof.Machine.execDependenceReeval die q s
  | .teamPlace grid => Sys2Proof.Machine.execTeamPlace grid s
  | .rickPlace grid => Sys2Proof.Machine.execRickPlace grid s
  | .rickReserve grid cluster => Sys2Proof.Machine.execRickReserve grid cluster s
  | .rickWithdraw cluster => Sys2Proof.Machine.execRickWithdraw cluster s
  | .reservationTimeout cluster => Sys2Proof.Machine.execReservationTimeout cluster s
  | .reservationPauseEnd cluster => Sys2Proof.Machine.execReservationPauseEnd cluster s
  | .nonrickReserve grid cluster => Sys2Proof.Machine.execNonrickReserve grid cluster s
  | .teamRetire core slot => Sys2Proof.Machine.execTeamRetire core slot s
  | .bankRequest core slot why => Sys2Proof.Machine.execBankRequest core slot why s
  | .bankTimeout core slot => Sys2Proof.Machine.execBankTimeout core slot s
  | .bankCollect core slot => Sys2Proof.Machine.execBankCollect core slot s
  | .saveTimeout core slot => Sys2Proof.Machine.execSaveTimeout core slot s
  | .rekindle image => Sys2Proof.Machine.execRekindle image s
  | .watchdogExpiry die q => Sys2Proof.Machine.execWatchdogExpiry die q s
  | .forcedEntryLog core index => Sys2Proof.Machine.execForcedEntryLog core index s
  | .sweepCorePhase tenant core => Sys2Proof.Machine.execSweepCorePhase tenant core s
  | .sweepMemoryPhase tenant => Sys2Proof.Machine.execSweepMemoryPhase tenant s
  | .sweepComplete tenant => Sys2Proof.Machine.execSweepComplete tenant s
  | .ringNotify g core slot value => Sys2Proof.Machine.execRingNotify g core slot value s
  | .entryAccept core slot => Sys2Proof.Machine.execEntryAccept core slot s
  | .copyChunk core slot cmd => Sys2Proof.Machine.execCopyChunk core slot cmd s
  | .ksendArrival packet => Sys2Proof.Machine.execKsendArrival packet s
  | .matrixAccept core => Sys2Proof.Machine.execMatrixAccept core s
  | .matrixStep core => Sys2Proof.Machine.execMatrixStep core s
  | .matrixZeroPerform core => Sys2Proof.Machine.execMatrixZeroPerform core s
  | .matrixLoadPerform core => Sys2Proof.Machine.execMatrixLoadPerform core s
  | .matrixDrainPerform core => Sys2Proof.Machine.execMatrixDrainPerform core s
  | .amaxAtomic core => Sys2Proof.Machine.execAmaxAtomic core s
  | .packetHop packet => Sys2Proof.Machine.execPacketHop packet s
  | .sendDeliver packet => Sys2Proof.Machine.execSendDeliver packet s
  | .responseArrival g seq reason hop => Sys2Proof.Machine.execResponseArrival g seq reason hop s
  | .sendTimeout g seq => Sys2Proof.Machine.execSendTimeout g seq s
  | .illegalOp cls word => Sys2Proof.Machine.execIllegalOp cls word s
  | .nop => Sys2Proof.Machine.execNop s
  | .retX => Sys2Proof.Machine.execRetX s
  | .exit => Sys2Proof.Machine.execExit s
  | .yield => Sys2Proof.Machine.execYield s
  | .barr => Sys2Proof.Machine.execBarr s
  | .eret => Sys2Proof.Machine.execEret s
  | .eretSkip => Sys2Proof.Machine.execEretSkip s
  | .eretCont => Sys2Proof.Machine.execEretCont s
  | .gfence => Sys2Proof.Machine.execGfence s
  | .drain => Sys2Proof.Machine.execDrain s
  | .reset => Sys2Proof.Machine.execReset s
  | .coldReset => Sys2Proof.Machine.execColdReset s
  | .admitDevice => Sys2Proof.Machine.execAdmitDevice s
  | .health => Sys2Proof.Machine.execHealth s
  | .checkpoint => Sys2Proof.Machine.execCheckpoint s
  | .ptable => Sys2Proof.Machine.execPtable s
  | .partition => Sys2Proof.Machine.execPartition s
  | .worldCreate => Sys2Proof.Machine.execWorldCreate s
  | .worldDestroy => Sys2Proof.Machine.execWorldDestroy s
  | .dbgUnlock => Sys2Proof.Machine.execDbgUnlock s
  | .powercap => Sys2Proof.Machine.execPowercap s
  | .image => Sys2Proof.Machine.execImage s
  | .getVersion => Sys2Proof.Machine.execGetVersion s
  | .getCapabilities => Sys2Proof.Machine.execGetCapabilities s
  | .negotiateAlgorithms => Sys2Proof.Machine.execNegotiateAlgorithms s
  | .getDigests => Sys2Proof.Machine.execGetDigests s
  | .getCertificate => Sys2Proof.Machine.execGetCertificate s
  | .challenge => Sys2Proof.Machine.execChallenge s
  | .getMeasurements => Sys2Proof.Machine.execGetMeasurements s
  | .keyExchange => Sys2Proof.Machine.execKeyExchange s
  | .finish => Sys2Proof.Machine.execFinish s
  | .slhSig => Sys2Proof.Machine.execSlhSig s
  | .lockInterface => Sys2Proof.Machine.execLockInterface s
  | .getDeviceInterfaceReport => Sys2Proof.Machine.execGetDeviceInterfaceReport s
  | .startInterface => Sys2Proof.Machine.execStartInterface s
  | .stopInterface => Sys2Proof.Machine.execStopInterface s
  | .ideStreamFail => Sys2Proof.Machine.execIdeStreamFail s
  | .tdiConfigWrite => Sys2Proof.Machine.execTdiConfigWrite s
  | .functionLevelReset => Sys2Proof.Machine.execFunctionLevelReset s
  | .ideKm => Sys2Proof.Machine.execIdeKm s
  | .pselWrite => Sys2Proof.Machine.execPselWrite s
  | .pcntRead => Sys2Proof.Machine.execPcntRead s
  | .pstatWrite => Sys2Proof.Machine.execPstatWrite s
  | .thermalThrottle => Sys2Proof.Machine.execThermalThrottle s
  | .junctionFatal => Sys2Proof.Machine.execJunctionFatal s
  | .ashImage => Sys2Proof.Machine.execAshImage s
  | .singleBitError => Sys2Proof.Machine.execSingleBitError s
  | .bisnpdataResponse => Sys2Proof.Machine.execBisnpdataResponse s
  | .hostRead => Sys2Proof.Machine.execHostRead s
  | .hostOwnershipRequest => Sys2Proof.Machine.execHostOwnershipRequest s
  | .hostWrite => Sys2Proof.Machine.execHostWrite s
  | .birspi => Sys2Proof.Machine.execBirspi s
  | .backInvalidateTimeout => Sys2Proof.Machine.execBackInvalidateTimeout s
  | .hostSnoop => Sys2Proof.Machine.execHostSnoop s
  | .doorbell => Sys2Proof.Machine.execDoorbell s
  | .flitReplay => Sys2Proof.Machine.execFlitReplay s
  | .linkRetrain => Sys2Proof.Machine.execLinkRetrain s
  | .linkDown => Sys2Proof.Machine.execLinkDown s
  | .linkUp => Sys2Proof.Machine.execLinkUp s
  | .qstateOff => Sys2Proof.Machine.execQstateOff s
  | .qstateRun => Sys2Proof.Machine.execQstateRun s
  | .qstateStop => Sys2Proof.Machine.execQstateStop s
  | .registerWrite => Sys2Proof.Machine.execRegisterWrite s
  | .hrearmRetry => Sys2Proof.Machine.execHrearmRetry s
  | .hrearmDiscard => Sys2Proof.Machine.execHrearmDiscard s
  | .gresumeRetry => Sys2Proof.Machine.execGresumeRetry s
  | .gresumeSkip => Sys2Proof.Machine.execGresumeSkip s
  | .gresumeDeliver => Sys2Proof.Machine.execGresumeDeliver s
  | .gresumeKill => Sys2Proof.Machine.execGresumeKill s
  | .bankreq => Sys2Proof.Machine.execBankreq s
  | .grtight => Sys2Proof.Machine.execGrtight s
  | .dbgcmdHalt => Sys2Proof.Machine.execDbgcmdHalt s
  | .dbgcmdResume => Sys2Proof.Machine.execDbgcmdResume s
  | .dbgcmdStep => Sys2Proof.Machine.execDbgcmdStep s
  | .sramUncorrectable => Sys2Proof.Machine.execSramUncorrectable s
  | .poolBankRetire => Sys2Proof.Machine.execPoolBankRetire s
  | .coppicing => Sys2Proof.Machine.execCoppicing s
  | .silentDrop => Sys2Proof.Machine.execSilentDrop s
  | .memoryRequest => Sys2Proof.Machine.execMemoryRequest s

end Sys2Proof.Machine
end

