-- ==== Sys2Proof/Machine/Schedule.lean ====
section
/-! DEFINITION. What happens next (log entries 7 to 9): the happening that is due, the next word of the clause in focus, or a quadrant's choice;
and the smallest machine that fetches a given word next. -/
namespace Sys2Proof.Machine

/-- What a step does. -/
inductive Action where
  | run (i : Instr)
  | badWord (c : Ctx) (m : MField) (cause : Cause)
  | idle

/-! What is due (log entry 7): the first that a fixed scan finds. -/

/-- A step without operands. -/
def plainHap (i : Instr) : Happening := ⟨i, Request.zero⟩

/-- What the splits of a group are due for: a clause break, a rotation, a trap. A team that is being banked takes no trap (R396). -/
def State.groupDue (s : State) (i : GroupId) (t : Team) (g : Group) : Option Instr :=
  match g.splits.find? fun kp => kp.2.st == .issue && decide (stallLimit ≤ kp.2.stall) with
  | some kp => some (.clauseBreak ⟨i, kp.1⟩)
  | none =>
    if g.trapCondition && t.banking.isNone then some (.trapDelivery i)
    else match g.overflow, g.overflow.head?.bind g.rotationSplit with
      | o :: _, some _ => if o.since + rotationCycles ≤ s.cycle then some (.overflowRotation i) else none
      | _, _ => none

/-- A send without a response for too long (R368). -/
def sendLimit : Nat := 2 ^ 26

/-- What the groups of a core are due for. -/
def State.groupsDue (s : State) (core : Nat) : Option Instr :=
  (s.core core).teams.findSome? fun st => st.2.groups.findSome? fun kg =>
    let i : GroupId := ⟨core, st.1, kg.1⟩
    match s.groupDue i st.2 kg.2 with
    | some x => some x
    | none => (kg.2.sends.find? fun x => decide (x.since + sendLimit ≤ s.cycle)).map fun x => .sendTimeout i x.seq

/-- What the copy engine of a core does next. -/
def State.copyDue (s : State) (core : Nat) : Option Instr :=
  match s.acceptSlot core with
  | some sl => some (.entryAccept core sl)
  | none => (s.chunkDue core).map fun x => .copyChunk core x.1 x.2

/-- What a core does next besides issue; a die that a fatal error has stopped does nothing (R404). -/
def State.coreDue (s : State) (core : Nat) : Option Instr :=
  if (s.die (dieOf core)).fatal then none
  else (s.groupsDue core).orElse fun _ => (s.hearthDue core).orElse fun _ => (s.lateDue core).orElse fun _ =>
    (s.matrixDue core).orElse fun _ => (s.copyDue core).orElse fun _ => (s.bankDue core).orElse fun _ => (s.retireDue core).orElse fun _ =>
    s.forcedDue core

/-- A packet, or a waiting head, that the distributor turns to. -/
def State.queueDue (s : State) (key : Nat) (q : Queue) : Option Instr :=
  if q.st != .run then none
  else if q.bell && s.headFree q && (match s.queueTenant (key / 256) (key % 256) with
      | some t => s.askDue (s.takeHeld (key / 256) t q)
      | none => false) then some (.packetTake (key / 256) (key % 256))
  else match q.head.bind fun gn => (s.grid gn).map fun g => (gn, g) with
    | some (gn, g) => if s.reevalDue gn g then some (.dependenceReeval (key / 256) (key % 256)) else none
    | none => none

/-- What the distributors do next; that of a die which a fatal error has stopped, and which is held in reset, does nothing (R404, R444). -/
def State.distDue (s : State) : Option Instr :=
  let on := fun (d : Nat) => !(s.die d).fatal
  ((s.queues.filter fun kq => on (kq.1 / 256)).findSome? fun kq => s.queueDue kq.1 kq.2).orElse fun _ =>
    (((List.range Config.dies).filter on).findSome? s.placeDue).orElse fun _ =>
    (((NMap.keys s.clusters).filter fun c => on (c / 3)).findSome? s.clusterDue).orElse fun _ => (s.rekindleDue).orElse fun _ => s.watchdogDue

/-- A back-invalidate that the host has not answered in time (R297). -/
def State.hostDue (s : State) : Option Happening :=
  (s.dir.find? fun x => x.2.bisnp && decide (x.2.bisnpSince + backInvalidateCycles ≤ s.cycle)).map fun x =>
    ⟨.backInvalidateTimeout, { Request.zero with line := x.1 }⟩

/-- A trap record that a full ring has held and now takes (R393). -/
def State.ringDue (s : State) : Option Instr :=
  s.tenants.findSome? fun kt => if s.ringReady kt.1 || (s.ringAsks kt.1).isSome then (kt.2.heldRecords.head?).map fun r => .trapDelivery (recordGroup r.1) else none

/-- A memory controller with a request (R416). -/
def State.ctrlDue (s : State) : Option Instr :=
  (s.ctrls.find? fun kc => !kc.2.queue.isEmpty || !kc.2.untagged.isEmpty).map fun kc => .memoryServe kc.1

/-- The happening whose enabling condition holds now, if any. -/
def dueStep (s : State) : Option Happening :=
  (((NMap.keys s.cores).findSome? s.coreDue).map plainHap).orElse fun _ =>
    (s.hostDue).orElse fun _ => ((s.ringDue).map plainHap).orElse fun _ => ((s.distDue).map plainHap).orElse fun _ =>
    ((s.sweepDue).map plainHap).orElse fun _ => ((s.ctrlDue).map plainHap).orElse fun _ => (s.worldDue).orElse fun _ =>
    (s.checkpointDue).orElse fun _ => (s.mapDue).orElse fun _ => s.coppiceDue

/-- The quadrants in the order in which the focus goes round: those after the focus first (log entry 8). -/
def quadrantRing (s : State) : List (Nat × Nat) :=
  let all := ((NMap.keys s.cores).filter fun c => !(s.die (dieOf c)).fatal).flatMap fun c => (List.range 4).map fun q => (c, q)
  match s.focus with
  | none => all
  | some (c, q) => (all.filter fun x => decide (c < x.1) || (x.1 == c && decide (q < x.2)))
      ++ all.filter fun x => decide (x.1 < c) || (x.1 == c && decide (x.2 ≤ q))

/-- A quadrant has a clause in progress, or a split to choose. -/
def quadrantBusy (s : State) (x : Nat × Nat) : Bool :=
  (s.issuing x.1 x.2).isSome || s.quadReady x.1 x.2

/-- The word that the quadrant in focus issues next. -/
def wordAction (c : Ctx) : Action :=
  match decodeWord (decodeHeader c.cl.header).cls (c.cl.words.getD c.cl.next 0) with
  | .ok i => .run i
  | .error (.reservedField sLevel) =>
    .badWord c (wordMask (decodeHeader c.cl.header).cls (c.cl.words.getD c.cl.next 0)) (if sLevel && !c.team.sLevel then .privilege else .reservedField)
  | .error _ => .badWord c 0 .illegalOp

/-- The next action when nothing is due: the clause in progress goes on; else the focus moves to the next busy quadrant. -/
def issueAction (s : State) : State × Action :=
  match s.issuer with
  | some c => (s, wordAction c)
  | none =>
    match (quadrantRing s).find? (quadrantBusy s) with
    | none => (s, .idle)
    | some x =>
      let s1 := { s with focus := some x }
      match s1.issuer with
      | some c => (s1, wordAction c)
      | none => (s1, .run (.quadrantChoice x.1 x.2))

/-- The hang timers that count advance by one cycle (R402). -/
def State.tickQueues (s : State) : State :=
  { s with queues := s.queues.map fun kq => if s.timerCounts kq.1 then (kq.1, { kq.2 with elapsed := kq.2.elapsed + 1 }) else kq }

/-- Cycles with a team of a tenant on a core (R419, event 0). -/
def State.tickPerf (s : State) : State :=
  (s.cores.filter fun kc => !kc.2.perf.isEmpty).foldl (fun x kc =>
    ((kc.2.teams.map fun st => st.2.tenant).dedup).foldl (fun y t => y.count kc.1 t 0 1) x) s

/-- A group stands at a barrier. -/
def Group.barred (g : Group) : Bool :=
  g.splits.any fun kp => match kp.2.held with
    | some h => h.conds.any fun c => match c with | .barrier .. => true | .rickBarrier _ => true | _ => false
    | none => false

/-- Arrivals and releases of barriers that have become possible (R143, R144). -/
def State.tickBarriers (s : State) : State :=
  (s.teamsWhere fun _ t => t.groups.any fun kg => kg.2.barred).foldl (fun x t => x.afterExit t.1 t.2.1) s

/-- The parts of a nanosecond that device time counts in: every clock of R444, 1,200 to 2,250 MHz in steps of 75, has a whole number of them in a cycle. -/
def fineUnits : Nat := 6987268688400

/-- The arithmetic clock that cycles are counted by, in MHz: that of the slowest die (R444; log entry 25). -/
def State.clock (s : State) : Nat := ((List.range Config.dies).map fun d => (s.die d).clockMHz).foldl min 2250

/-- One cycle: device time counts nanoseconds, however long the cycle lasts (R6, R420, R444). -/
def State.tick (s : State) : State :=
  let fine := s.fine + 1000 * fineUnits / s.clock
  let s1 : State := { s with cycle := s.cycle + 1, fine := fine, time := fine / fineUnits }
  s1.tickBarriers.tickPerf.tickQueues.tickSplits

/-- The next action of the machine: a happening that has been posted, one that is due, or issue. -/
def nextAction (s : State) : State × Action :=
  match s.agenda with
  | h :: r => ({ ({ s with agenda := r } : State).tick with req := h.req }, .run h.step)
  | [] =>
    match dueStep s with
    | some h => ({ s.tick with req := h.req }, .run h.step)
    | none => issueAction s.tick

/-- A word that fails step 4 of R112 raises its cause precisely, for ACTIVE (R387). -/
def badWord (c : Ctx) (m : MField) (cause : Cause) (s : State) : State := settle c (.trap s cause 0 (c.active m))

/-! The machine that fetches a given word next (log entry 9). -/

/-- A descriptor with W = 32, REGS = 64, one group, and a code capability over the whole of the first 2^48 bytes. -/
def fetchDesc : BitVec 2048 :=
  BitVec.ofNat 2048 ((capNarrow ⟨BitVec.ofNat 128 (permEX * 2 ^ 114), true⟩ 0 (2 ^ 48) permEX 0).bits.toNat
    + 2 ^ 627 + 64 * 2 ^ 629 + 1 * 2 ^ 614 + 64 * 2 ^ 618 + 0x5A4B * 2 ^ 560 + 2 ^ 552
    + 512 * 2 ^ 693 + 512 * 2 ^ 682 + 1536 * 2 ^ 671 + 16 * 2 ^ 740 + 1 * 2 ^ 789)

/-- A team of one group whose one split has the clause in progress. -/
def fetchTeam (cl : Clause) : Team where
  tenant := 0
  grid := 0
  index := 0
  desc := fetchDesc
  descTags := 0xF
  incn := 0
  sLevel := false
  groups := [(0, { Group.fresh with
    splits := [(0, { Split.boundAt cl.addr (widthMask 32) ⟨fetchDesc.extractLsb' 0 128, true⟩ .none_ 0 with clause := some cl, st := .issue })] })]
  scratch := []
  cords := []
  barriers := []
  barr := .fresh
  tiles := []
  maps := []
  ring := none
  cmds := []
  residues := []
  reclim := 64
  banking := none
  killed := false

/-- The clause whose header and first word are the bits of a table word; its other words are zero. -/
def fetchClause (_nbits w : Nat) : Clause :=
  let h : W64 := BitVec.ofNat 64 (w % 2 ^ 64)
  ⟨0x1000, h, BitVec.ofNat 64 (w / 2 ^ 64) :: (List.replicate (decodeHeader h).count.toNat 0), 0⟩

/-- A state whose next step runs the first word of a clause: nothing is due, and quadrant 0 of core 0 has the clause in progress. -/
def State.withClause (s : State) (cl : Clause) : State :=
  let k := s.core 0
  { s with
    agenda := []
    focus := some (0, 0)
    cores := NMap.set s.cores 0 { k with
      pool := some (512, 512, 1536)
      teams := NMap.set k.teams 0 (fetchTeam cl)
      quads := NMap.set k.quads 0 ⟨some ⟨⟨0, 0, 0⟩, 0⟩, none⟩ } }

end Sys2Proof.Machine
end

