-- ==== Sys2Proof/Machine/Step.lean ====
section
/-! DEFINITION. One step of the machine (log entries 7 and 8). -/
namespace Sys2Proof.Machine

/-- One step: the happening that is due, else the next word in issue. -/
def step (s : State) : Host.Outcome State Fault Refusal :=
  match nextAction s with
  | (s1, .run i) => exec i s1
  | (s1, .badWord c m cause) => .next (badWord c m cause s1)
  | (s1, .idle) => .next s1

/-- The state whose next step runs the instruction that the bits `w` hold: the clause header in bits 63 to 0, the word above it. -/
def State.withFetchWord (s : State) (nbits w : Nat) : State :=
  s.withClause (fetchClause nbits w)

end Sys2Proof.Machine
end

