-- ==== Sys2Proof/Laws/Encoding.lean ====
section
/-! SUPPORT. The five word formats (R101) as numbers, and the fields that the decoder reads from an encoded word. -/
namespace Sys2Proof.Laws

set_option linter.unusedSimpArgs false
set_option linter.unusedTactic false
set_option linter.unreachableTactic false

/-- The number of two joined vectors. -/
theorem toNat_join {v w : Nat} (x : BitVec v) (y : BitVec w) : @BitVec.toNat (v + w) (x ++ y) = x.toNat * 2 ^ w + y.toNat := by
  rw [BitVec.toNat_append, ← Nat.shiftLeft_eq, Nat.shiftLeft_add_eq_or_of_lt y.isLt]

theorem zero_nat (n : Nat) : (0 : BitVec n).toNat = 0 := rfl

/-- Format S. -/
theorem encS_nat (op : Nat) (o : SOp) :
    (encS op o).toNat = op % 1024 * 2 ^ 54 + o.d.toNat * 2 ^ 47 + o.a.toNat * 2 ^ 40 + o.b.toNat * 2 ^ 33 + o.imm.toNat * 2 := by
  unfold encS
  change @BitVec.toNat (10 + 7 + 7 + 7 + 32 + 1) _ = _
  simp only [toNat_join, BitVec.toNat_ofNat, zero_nat]
  omega

/-- Format C. -/
theorem encC_nat (op : Nat) (sa sb : SReg) (imm : BitVec 32) (m : MField) :
    (encC op sa sb imm m).toNat = op % 1024 * 2 ^ 54 + sa.toNat * 2 ^ 47 + sb.toNat * 2 ^ 40 + imm.toNat * 2 ^ 8 + m.toNat * 4 := by
  unfold encC
  change @BitVec.toNat (10 + 7 + 7 + 32 + 6 + 2) _ = _
  simp only [toNat_join, BitVec.toNat_ofNat, zero_nat]
  omega

/-- Format V. -/
theorem encV_nat (op : Nat) (d a b c : VField) (m : MField) (wa wb wc : Bool) :
    (encV op d a b c m wa wb wc).toNat = op % 1024 * 2 ^ 54 + d.toNat * 2 ^ 43 + a.toNat * 2 ^ 32 + b.toNat * 2 ^ 21 + c.toNat * 2 ^ 10
      + m.toNat * 2 ^ 4 + wa.toNat * 8 + wb.toNat * 4 + wc.toNat * 2 := by
  unfold encV
  change @BitVec.toNat (10 + 11 + 11 + 11 + 11 + 6 + 1 + 1 + 1 + 1) _ = _
  simp only [toNat_join, BitVec.toNat_ofNat, zero_nat, BitVec.toNat_ofBool]
  omega

/-- Format VI. -/
theorem encVI_nat (op : Nat) (d a : VField) (imm : BitVec 22) (m : MField) (wa : Bool) (sub : BitVec 2) :
    (encVI op d a imm m wa sub).toNat = op % 1024 * 2 ^ 54 + d.toNat * 2 ^ 43 + a.toNat * 2 ^ 32 + imm.toNat * 2 ^ 10
      + m.toNat * 2 ^ 4 + wa.toNat * 8 + sub.toNat * 2 := by
  unfold encVI
  change @BitVec.toNat (10 + 11 + 11 + 22 + 6 + 1 + 2 + 1) _ = _
  simp only [toNat_join, BitVec.toNat_ofNat, zero_nat, BitVec.toNat_ofBool]
  omega

/-- Format M. -/
theorem encM_nat (op : Nat) (o : MOp) :
    (encM op o).toNat = op % 128 * 2 ^ 57 + o.size.toNat * 2 ^ 54 + o.t.toNat * 2 ^ 43 + o.base.toNat * 2 ^ 32 + o.off.toNat * 2 ^ 21
      + o.imm8.toNat * 2 ^ 13 + o.bsel.toNat * 2 ^ 12 + o.order.toNat * 2 ^ 9 + o.scope.toNat * 2 ^ 6 + o.m.toNat := by
  unfold encM
  change @BitVec.toNat (7 + 3 + 11 + 11 + 11 + 8 + 1 + 3 + 3 + 6) _ = _
  simp only [toNat_join, BitVec.toNat_ofNat, BitVec.toNat_ofBool]
  omega

theorem field_toNat (w : W64) (lo len : Nat) : (field w lo len).toNat = w.toNat / 2 ^ lo % 2 ^ len := by
  simp [field, Nat.shiftRight_eq_div_pow]

theorem bit_nat (w : W64) (k : Nat) : (w.getLsbD k) = decide (w.toNat / 2 ^ k % 2 = 1) := by
  simp [BitVec.getLsbD, Nat.testBit_eq_decide_div_mod_eq]

/-- A word is read by comparing numbers. -/
theorem field_eq {w : W64} {lo len : Nat} {x : BitVec len} (h : w.toNat / 2 ^ lo % 2 ^ len = x.toNat) : field w lo len = x := by
  apply BitVec.eq_of_toNat_eq; rw [field_toNat, h]

theorem bit_eq {w : W64} {k : Nat} {b : Bool} (h : w.toNat / 2 ^ k % 2 = b.toNat) : w.getLsbD k = b := by
  rw [bit_nat, h]; cases b <;> rfl

/-- Part of a vector by numbers. -/
theorem sub_eq {n : Nat} {v : BitVec n} {lo len : Nat} {x : BitVec len} (h : v.toNat / 2 ^ lo % 2 ^ len = x.toNat) :
    v.extractLsb' lo len = x := by
  apply BitVec.eq_of_toNat_eq; simpa [Nat.shiftRight_eq_div_pow] using h

/-- Part of a field. -/
theorem field_in (p n : Nat) (w : W64) {lo len : Nat} (h : p ≤ lo) (h2 : lo + len ≤ p + n) :
    field w lo len = (field w p n).extractLsb' (lo - p) len := by
  ext i hi
  simp only [field, BitVec.getElem_extractLsb', BitVec.getLsbD_extractLsb']
  rw [show p + (lo - p + i) = lo + i by omega]
  simp only [show (lo - p + i < n) by omega, decide_true, Bool.true_and]

/-- A bit of a field. -/
theorem bit_in (p n : Nat) (w : W64) {k : Nat} (h : p ≤ k) (h2 : k < p + n) : w.getLsbD k = (field w p n).getLsbD (k - p) := by
  simp only [field, BitVec.getLsbD_extractLsb']
  rw [show p + (k - p) = k by omega]
  simp only [show (k - p < n) by omega, decide_true, Bool.true_and]

/-! The fields of an encoded word. -/

section S
variable (op : Nat) (o : SOp)
@[simp] theorem fOp_encS : fOp (encS op o) = op % 1024 := by simp only [fOp, field_toNat, encS_nat]; omega
@[simp] theorem fSD_encS : fSD (encS op o) = o.d := field_eq (by rw [encS_nat]; omega)
@[simp] theorem fSA_encS : fSA (encS op o) = o.a := field_eq (by rw [encS_nat]; omega)
@[simp] theorem fSB_encS : fSB (encS op o) = o.b := field_eq (by rw [encS_nat]; omega)
@[simp] theorem fSImm_encS : fSImm (encS op o) = o.imm := field_eq (by rw [encS_nat]; omega)
@[simp] theorem fRsv_encS : fRsv (encS op o) = false := bit_eq (by rw [encS_nat, Bool.toNat_false]; omega)
@[simp] theorem fS_encS : fS (encS op o) = o := by simp [fS]
theorem imm_encS {lo len : Nat} (h : 1 ≤ lo) (h2 : lo + len ≤ 33) : field (encS op o) lo len = o.imm.extractLsb' (lo - 1) len := by
  rw [field_in 1 32 _ h h2]; congr 1; exact fSImm_encS op o
end S

section C
variable (op : Nat) (sa sb : SReg) (imm : BitVec 32) (m : MField)
@[simp] theorem fOp_encC : fOp (encC op sa sb imm m) = op % 1024 := by simp only [fOp, field_toNat, encC_nat]; omega
@[simp] theorem fCSA_encC : fCSA (encC op sa sb imm m) = sa := field_eq (by rw [encC_nat]; omega)
@[simp] theorem fCSB_encC : fCSB (encC op sa sb imm m) = sb := field_eq (by rw [encC_nat]; omega)
@[simp] theorem fCImm_encC : fCImm (encC op sa sb imm m) = imm := field_eq (by rw [encC_nat]; omega)
@[simp] theorem fCM_encC : fCM (encC op sa sb imm m) = m := field_eq (by rw [encC_nat]; omega)
@[simp] theorem fCRsv_encC : fCRsv (encC op sa sb imm m) = 0 := field_eq (by rw [encC_nat, zero_nat]; omega)
theorem imm_encC {lo len : Nat} (h : 8 ≤ lo) (h2 : lo + len ≤ 40) : field (encC op sa sb imm m) lo len = imm.extractLsb' (lo - 8) len := by
  rw [field_in 8 32 _ h h2]; congr 1; exact fCImm_encC op sa sb imm m
theorem ibit_encC {k : Nat} (h : 8 ≤ k) (h2 : k < 40) : (encC op sa sb imm m).getLsbD k = imm.getLsbD (k - 8) := by
  rw [bit_in 8 32 _ h h2]; congr 1; exact fCImm_encC op sa sb imm m
end C

section V
variable (op : Nat) (d a b c : VField) (m : MField) (wa wb wc : Bool)
@[simp] theorem fOp_encV : fOp (encV op d a b c m wa wb wc) = op % 1024 := by
  simp only [fOp, field_toNat, encV_nat]; have := wa.toNat_le; have := wb.toNat_le; have := wc.toNat_le; omega
@[simp] theorem fD_encV : fD (encV op d a b c m wa wb wc) = d :=
  field_eq (by rw [encV_nat]; have := wa.toNat_le; have := wb.toNat_le; have := wc.toNat_le; omega)
@[simp] theorem fA_encV : fA (encV op d a b c m wa wb wc) = a :=
  field_eq (by rw [encV_nat]; have := wa.toNat_le; have := wb.toNat_le; have := wc.toNat_le; omega)
@[simp] theorem fB_encV : fB (encV op d a b c m wa wb wc) = b :=
  field_eq (by rw [encV_nat]; have := wa.toNat_le; have := wb.toNat_le; have := wc.toNat_le; omega)
@[simp] theorem fC_encV : fC (encV op d a b c m wa wb wc) = c :=
  field_eq (by rw [encV_nat]; have := wa.toNat_le; have := wb.toNat_le; have := wc.toNat_le; omega)
@[simp] theorem fM_encV : fM (encV op d a b c m wa wb wc) = m :=
  field_eq (by rw [encV_nat]; have := wa.toNat_le; have := wb.toNat_le; have := wc.toNat_le; omega)
@[simp] theorem fWa_encV : fWa (encV op d a b c m wa wb wc) = wa :=
  bit_eq (by rw [encV_nat]; have := wa.toNat_le; have := wb.toNat_le; have := wc.toNat_le; omega)
@[simp] theorem fWb_encV : fWb (encV op d a b c m wa wb wc) = wb :=
  bit_eq (by rw [encV_nat]; have := wa.toNat_le; have := wb.toNat_le; have := wc.toNat_le; omega)
@[simp] theorem fWc_encV : fWc (encV op d a b c m wa wb wc) = wc :=
  bit_eq (by rw [encV_nat]; have := wa.toNat_le; have := wb.toNat_le; have := wc.toNat_le; omega)
@[simp] theorem fRsv_encV : fRsv (encV op d a b c m wa wb wc) = false :=
  bit_eq (by rw [encV_nat, Bool.toNat_false]; omega)
theorem d_encV {lo len : Nat} (h : 43 ≤ lo) (h2 : lo + len ≤ 54) :
    field (encV op d a b c m wa wb wc) lo len = d.extractLsb' (lo - 43) len := by
  rw [field_in 43 11 _ h h2]; congr 1; exact fD_encV op d a b c m wa wb wc
theorem a_encV {lo len : Nat} (h : 32 ≤ lo) (h2 : lo + len ≤ 43) :
    field (encV op d a b c m wa wb wc) lo len = a.extractLsb' (lo - 32) len := by
  rw [field_in 32 11 _ h h2]; congr 1; exact fA_encV op d a b c m wa wb wc
theorem b_encV {lo len : Nat} (h : 21 ≤ lo) (h2 : lo + len ≤ 32) :
    field (encV op d a b c m wa wb wc) lo len = b.extractLsb' (lo - 21) len := by
  rw [field_in 21 11 _ h h2]; congr 1; exact fB_encV op d a b c m wa wb wc
theorem c_encV {lo len : Nat} (h : 10 ≤ lo) (h2 : lo + len ≤ 21) :
    field (encV op d a b c m wa wb wc) lo len = c.extractLsb' (lo - 10) len := by
  rw [field_in 10 11 _ h h2]; congr 1; exact fC_encV op d a b c m wa wb wc
theorem cbit_encV {k : Nat} (h : 10 ≤ k) (h2 : k < 21) : (encV op d a b c m wa wb wc).getLsbD k = c.getLsbD (k - 10) := by
  rw [bit_in 10 11 _ h h2]; congr 1; exact fC_encV op d a b c m wa wb wc
end V

section VI
variable (op : Nat) (d a : VField) (imm : BitVec 22) (m : MField) (wa : Bool) (sub : BitVec 2)
@[simp] theorem fOp_encVI : fOp (encVI op d a imm m wa sub) = op % 1024 := by
  simp only [fOp, field_toNat, encVI_nat]; have := wa.toNat_le; omega
@[simp] theorem fD_encVI : fD (encVI op d a imm m wa sub) = d := field_eq (by rw [encVI_nat]; have := wa.toNat_le; omega)
@[simp] theorem fA_encVI : fA (encVI op d a imm m wa sub) = a := field_eq (by rw [encVI_nat]; have := wa.toNat_le; omega)
@[simp] theorem fImm22_encVI : fImm22 (encVI op d a imm m wa sub) = imm := field_eq (by rw [encVI_nat]; have := wa.toNat_le; omega)
@[simp] theorem fM_encVI : fM (encVI op d a imm m wa sub) = m := field_eq (by rw [encVI_nat]; have := wa.toNat_le; omega)
@[simp] theorem fWa_encVI : fWa (encVI op d a imm m wa sub) = wa := bit_eq (by rw [encVI_nat]; have := wa.toNat_le; omega)
@[simp] theorem fSub_encVI : fSub (encVI op d a imm m wa sub) = sub := field_eq (by rw [encVI_nat]; have := wa.toNat_le; omega)
@[simp] theorem fRsv_encVI : fRsv (encVI op d a imm m wa sub) = false := bit_eq (by rw [encVI_nat, Bool.toNat_false]; omega)
theorem d_encVI {lo len : Nat} (h : 43 ≤ lo) (h2 : lo + len ≤ 54) :
    field (encVI op d a imm m wa sub) lo len = d.extractLsb' (lo - 43) len := by
  rw [field_in 43 11 _ h h2]; congr 1; exact fD_encVI op d a imm m wa sub
theorem imm_encVI {lo len : Nat} (h : 10 ≤ lo) (h2 : lo + len ≤ 32) :
    field (encVI op d a imm m wa sub) lo len = imm.extractLsb' (lo - 10) len := by
  rw [field_in 10 22 _ h h2]; congr 1; exact fImm22_encVI op d a imm m wa sub
theorem sbit_encVI {k : Nat} (h : 1 ≤ k) (h2 : k < 3) : (encVI op d a imm m wa sub).getLsbD k = sub.getLsbD (k - 1) := by
  rw [bit_in 1 2 _ h h2]; congr 1; exact fSub_encVI op d a imm m wa sub
end VI

section M
variable (op : Nat) (o : MOp)
@[simp] theorem op_encM : field (encM op o) 57 7 = BitVec.ofNat 7 op :=
  field_eq (by rw [encM_nat, BitVec.toNat_ofNat]; have := o.bsel.toNat_le; omega)
@[simp] theorem tag_encM : field (encM op o) 57 5 = BitVec.ofNat 5 op :=
  field_eq (by rw [encM_nat, BitVec.toNat_ofNat]; have := o.bsel.toNat_le; omega)
@[simp] theorem fMOp_encM : fMOp (encM op o) = o := by
  obtain ⟨size, t, base, off, imm8, bsel, order, scope, m⟩ := o
  have := bsel.toNat_le
  simp only [fMOp, fD, fA, fB, MOp.mk.injEq]
  refine ⟨field_eq ?_, field_eq ?_, field_eq ?_, field_eq ?_, field_eq ?_, bit_eq ?_, field_eq ?_, field_eq ?_, field_eq ?_⟩ <;>
    (rw [encM_nat]; dsimp only; omega)
end M

/-! Small fields in wider ones. -/

theorem wide_toNat {n : Nat} (x : BitVec n) (h : n ≤ 11) : (wide x).toNat = x.toNat := by
  simp only [wide, BitVec.toNat_setWidth]
  exact Nat.mod_eq_of_lt (lt_of_lt_of_le x.isLt (Nat.pow_le_pow_right (by norm_num) h))

theorem wide_low {n : Nat} (x : BitVec n) (h : n ≤ 11) : (wide x).extractLsb' 0 n = x := sub_eq (by
  rw [wide_toNat x h, pow_zero, Nat.div_one, Nat.mod_eq_of_lt x.isLt])

theorem wide_high {n lo len : Nat} (x : BitVec n) (h : n ≤ 11) (h2 : n ≤ lo) : (wide x).extractLsb' lo len = 0#len := sub_eq (by
  rw [wide_toNat x h, Nat.div_eq_of_lt (lt_of_lt_of_le x.isLt (Nat.pow_le_pow_right (by norm_num) h2))]; simp)

theorem hi4_wide {n : Nat} (x : BitVec n) (h : n ≤ 7) : hi4 (wide x) = true := by
  simp only [hi4, wide_toNat x (by omega), decide_eq_true_eq]
  exact lt_of_lt_of_le x.isLt (Nat.pow_le_pow_right (by norm_num) h)

theorem wide_bit (b : Bool) : (wide (BitVec.ofBool b)).getLsbD 0 = b := by cases b <;> rfl

theorem bitn {n : Nat} (v : BitVec n) (k : Nat) : v.getLsbD k = decide (v.toNat / 2 ^ k % 2 = 1) := by
  simp [BitVec.getLsbD, Nat.testBit_eq_decide_div_mod_eq]

theorem zero_getLsbD (n k : Nat) : (0#n).getLsbD k = false := by simp

theorem low_encV (op : Nat) (d a b c : VField) : field (encV op d a b c 0#6 false false false) 0 10 = 0#10 :=
  field_eq (by rw [encV_nat]; simp only [BitVec.toNat_ofNat, Bool.toNat_false]; omega)

theorem most_encV (op : Nat) : field (encV op 0#11 0#11 0#11 0#11 0#6 false false false) 0 54 = 0#54 :=
  field_eq (by rw [encV_nat]; simp only [BitVec.toNat_ofNat, Bool.toNat_false]; omega)

theorem most_encM (op : Nat) : field (encM op ⟨0#3, 0#11, 0#11, 0#11, 0#8, false, 0#3, 0#3, 0#6⟩) 0 57 = 0#57 :=
  field_eq (by rw [encM_nat]; simp only [BitVec.toNat_ofNat, Bool.toNat_false]; omega)

theorem fence_encM (op : Nat) (order scope : BitVec 3) : field (encM op ⟨0#3, 0#11, 0#11, 0#11, 0#8, false, order, scope, 0#6⟩) 12 45 = 0#45 :=
  field_eq (by rw [encM_nat]; simp only [BitVec.toNat_ofNat, Bool.toNat_false]; omega)

theorem setw_low {n k : Nat} (x : BitVec n) (h : n ≤ k) : (x.setWidth k).extractLsb' 0 n = x := sub_eq (by
  rw [BitVec.toNat_setWidth, pow_zero, Nat.div_one, Nat.mod_mod_of_dvd _ (pow_dvd_pow 2 h), Nat.mod_eq_of_lt x.isLt])

theorem setw_high {n k lo len : Nat} (x : BitVec n) (h : n ≤ lo) : (x.setWidth k).extractLsb' lo len = 0#len := sub_eq (by
  rw [BitVec.toNat_setWidth, Nat.div_eq_of_lt
    (lt_of_le_of_lt (Nat.mod_le _ _) (lt_of_lt_of_le x.isLt (Nat.pow_le_pow_right (by norm_num) h)))]; simp)

theorem wide_top {n k : Nat} (x : BitVec n) (h : n ≤ 11) (h2 : n ≤ k) : (wide x).getLsbD k = false := by
  rw [bitn, wide_toNat x h, Nat.div_eq_of_lt (lt_of_lt_of_le x.isLt (Nat.pow_le_pow_right (by norm_num) h2))]; simp

theorem pair_low {v w : Nat} (x : BitVec v) (y : BitVec w) (h : v + w ≤ 11) : (wide (x ++ y)).extractLsb' 0 w = y := sub_eq (by
  rw [wide_toNat _ h, toNat_join, pow_zero, Nat.div_one, Nat.mul_comm, Nat.mul_add_mod, Nat.mod_eq_of_lt y.isLt])

theorem pair_high {v w : Nat} (x : BitVec v) (y : BitVec w) (h : v + w ≤ 11) : (wide (x ++ y)).extractLsb' w v = x := sub_eq (by
  rw [wide_toNat _ h, toNat_join, Nat.mul_comm, Nat.mul_add_div (by positivity), Nat.div_eq_of_lt y.isLt, Nat.add_zero,
    Nat.mod_eq_of_lt x.isLt])

theorem pair_top {v w lo len : Nat} (x : BitVec v) (y : BitVec w) (h : v + w ≤ 11) (h2 : v + w ≤ lo) :
    (wide (x ++ y)).extractLsb' lo len = 0#len := wide_high _ h h2

theorem mm_low (x y : BitVec 3) : (wide (x ++ y)).extractLsb' 0 3 = y := pair_low x y (by norm_num)
theorem mm_high (x y : BitVec 3) : (wide (x ++ y)).extractLsb' 3 3 = x := pair_high x y (by norm_num)
theorem mm_top (x y : BitVec 3) (lo len : Nat) (h : 6 ≤ lo) : (wide (x ++ y)).extractLsb' lo len = 0#len := pair_top x y (by norm_num) h
theorem vt_low (x : BitVec 2) (y : BitVec 3) : (wide (x ++ y)).extractLsb' 0 3 = y := pair_low x y (by norm_num)
theorem vt_high (x : BitVec 2) (y : BitVec 3) : (wide (x ++ y)).extractLsb' 3 2 = x := pair_high x y (by norm_num)
theorem vt_top (x : BitVec 2) (y : BitVec 3) (lo len : Nat) (h : 5 ≤ lo) : (wide (x ++ y)).extractLsb' lo len = 0#len := pair_top x y (by norm_num) h
theorem st_low (x : Bool) (y : BitVec 3) : (wide (BitVec.ofBool x ++ y)).extractLsb' 0 3 = y := pair_low _ y (by norm_num)
theorem st_top (x : Bool) (y : BitVec 3) (lo len : Nat) (h : 4 ≤ lo) : (wide (BitVec.ofBool x ++ y)).extractLsb' lo len = 0#len :=
  pair_top _ y (by norm_num) h
theorem one_top (y : BitVec 3) (lo len : Nat) (h : 4 ≤ lo) : (wide (1#1 ++ y)).extractLsb' lo len = 0#len := pair_top _ y (by norm_num) h

theorem bit3_pair (s : Bool) (t : BitVec 3) : (wide (BitVec.ofBool s ++ t)).getLsbD 3 = s := by
  rw [bitn, wide_toNat _ (by norm_num), toNat_join, BitVec.toNat_ofBool]
  have := t.isLt
  cases s <;> simp <;> omega

theorem bit3_one (t : BitVec 3) : (wide (1#1 ++ t)).getLsbD 3 = true := bit3_pair true t

theorem low3_one (t : BitVec 3) : (wide (1#1 ++ t)).extractLsb' 0 3 = t := pair_low _ _ (by norm_num)

/-! The fields that stand side by side in an immediate or in C. -/

theorem cat_idxw (wi : Bool) (idx : BitVec 11) : @BitVec.toNat 32 (0#19 ++ BitVec.ofBool wi ++ idx ++ 0#1 : BitVec 32) = wi.toNat * 2 ^ 12 + idx.toNat * 2 ^ 1 := by
  change @BitVec.toNat (19 + 1 + 11 + 1) _ = _
  simp only [toNat_join, BitVec.toNat_ofNat, BitVec.toNat_ofBool] <;> omega
@[simp] theorem cat_idxw_1 (wi : Bool) (idx : BitVec 11) : @BitVec.extractLsb' 32 13 19 (0#19 ++ BitVec.ofBool wi ++ idx ++ 0#1 : BitVec 32) = 0#19 := sub_eq (by
  rw [cat_idxw, BitVec.toNat_ofNat]; have := wi.toNat_le; omega)
@[simp] theorem cat_idxw_2 (wi : Bool) (idx : BitVec 11) : @BitVec.getLsbD 32 (0#19 ++ BitVec.ofBool wi ++ idx ++ 0#1 : BitVec 32) 12 = wi := by
  have h := cat_idxw wi idx
  rw [bitn, h]; have := wi.toNat_le; cases wi <;> simp <;> omega
@[simp] theorem cat_idxw_3 (wi : Bool) (idx : BitVec 11) : @BitVec.extractLsb' 32 1 11 (0#19 ++ BitVec.ofBool wi ++ idx ++ 0#1 : BitVec 32) = idx := sub_eq (by
  rw [cat_idxw]; have := wi.toNat_le; omega)
@[simp] theorem cat_idxw_4b (wi : Bool) (idx : BitVec 11) : @BitVec.getLsbD 32 (0#19 ++ BitVec.ofBool wi ++ idx ++ 0#1 : BitVec 32) 0 = false := by
  have h := cat_idxw wi idx
  rw [bitn, h]; have := wi.toNat_le; simp <;> omega
@[simp] theorem cat_idxw_4 (wi : Bool) (idx : BitVec 11) : @BitVec.extractLsb' 32 0 1 (0#19 ++ BitVec.ofBool wi ++ idx ++ 0#1 : BitVec 32) = 0#1 := sub_eq (by
  rw [cat_idxw, BitVec.toNat_ofNat]; have := wi.toNat_le; omega)
theorem cat_calltv (link : BitVec 11) (wi : Bool) (idx : BitVec 11) : @BitVec.toNat 32 (0#8 ++ link ++ BitVec.ofBool wi ++ idx ++ 0#1 : BitVec 32) = link.toNat * 2 ^ 13 + wi.toNat * 2 ^ 12 + idx.toNat * 2 ^ 1 := by
  change @BitVec.toNat (8 + 11 + 1 + 11 + 1) _ = _
  simp only [toNat_join, BitVec.toNat_ofNat, BitVec.toNat_ofBool] <;> omega
@[simp] theorem cat_calltv_1 (link : BitVec 11) (wi : Bool) (idx : BitVec 11) : @BitVec.extractLsb' 32 24 8 (0#8 ++ link ++ BitVec.ofBool wi ++ idx ++ 0#1 : BitVec 32) = 0#8 := sub_eq (by
  rw [cat_calltv, BitVec.toNat_ofNat]; have := wi.toNat_le; omega)
@[simp] theorem cat_calltv_2 (link : BitVec 11) (wi : Bool) (idx : BitVec 11) : @BitVec.extractLsb' 32 13 11 (0#8 ++ link ++ BitVec.ofBool wi ++ idx ++ 0#1 : BitVec 32) = link := sub_eq (by
  rw [cat_calltv]; have := wi.toNat_le; omega)
@[simp] theorem cat_calltv_3 (link : BitVec 11) (wi : Bool) (idx : BitVec 11) : @BitVec.getLsbD 32 (0#8 ++ link ++ BitVec.ofBool wi ++ idx ++ 0#1 : BitVec 32) 12 = wi := by
  have h := cat_calltv link wi idx
  rw [bitn, h]; have := wi.toNat_le; cases wi <;> simp <;> omega
@[simp] theorem cat_calltv_4 (link : BitVec 11) (wi : Bool) (idx : BitVec 11) : @BitVec.extractLsb' 32 1 11 (0#8 ++ link ++ BitVec.ofBool wi ++ idx ++ 0#1 : BitVec 32) = idx := sub_eq (by
  rw [cat_calltv]; have := wi.toNat_le; omega)
@[simp] theorem cat_calltv_5b (link : BitVec 11) (wi : Bool) (idx : BitVec 11) : @BitVec.getLsbD 32 (0#8 ++ link ++ BitVec.ofBool wi ++ idx ++ 0#1 : BitVec 32) 0 = false := by
  have h := cat_calltv link wi idx
  rw [bitn, h]; have := wi.toNat_le; simp <;> omega
@[simp] theorem cat_calltv_5 (link : BitVec 11) (wi : Bool) (idx : BitVec 11) : @BitVec.extractLsb' 32 0 1 (0#8 ++ link ++ BitVec.ofBool wi ++ idx ++ 0#1 : BitVec 32) = 0#1 := sub_eq (by
  rw [cat_calltv, BitVec.toNat_ofNat]; have := wi.toNat_le; omega)
theorem cat_bar (count : BitVec 6) (n : BitVec 4) : @BitVec.toNat 32 (0#22 ++ count ++ n : BitVec 32) = count.toNat * 2 ^ 4 + n.toNat := by
  change @BitVec.toNat (22 + 6 + 4) _ = _
  simp only [toNat_join, BitVec.toNat_ofNat, BitVec.toNat_ofBool] <;> omega
@[simp] theorem cat_bar_1 (count : BitVec 6) (n : BitVec 4) : @BitVec.extractLsb' 32 10 22 (0#22 ++ count ++ n : BitVec 32) = 0#22 := sub_eq (by
  rw [cat_bar, BitVec.toNat_ofNat];  omega)
@[simp] theorem cat_bar_2 (count : BitVec 6) (n : BitVec 4) : @BitVec.extractLsb' 32 4 6 (0#22 ++ count ++ n : BitVec 32) = count := sub_eq (by
  rw [cat_bar];  omega)
@[simp] theorem cat_bar_3 (count : BitVec 6) (n : BitVec 4) : @BitVec.extractLsb' 32 0 4 (0#22 ++ count ++ n : BitVec 32) = n := sub_eq (by
  rw [cat_bar];  omega)
theorem cat_pwait (k : BitVec 4) (n : BitVec 3) : @BitVec.toNat 32 (0#25 ++ k ++ n : BitVec 32) = k.toNat * 2 ^ 3 + n.toNat := by
  change @BitVec.toNat (25 + 4 + 3) _ = _
  simp only [toNat_join, BitVec.toNat_ofNat, BitVec.toNat_ofBool] <;> omega
@[simp] theorem cat_pwait_1 (k : BitVec 4) (n : BitVec 3) : @BitVec.extractLsb' 32 7 25 (0#25 ++ k ++ n : BitVec 32) = 0#25 := sub_eq (by
  rw [cat_pwait, BitVec.toNat_ofNat];  omega)
@[simp] theorem cat_pwait_2 (k : BitVec 4) (n : BitVec 3) : @BitVec.extractLsb' 32 3 4 (0#25 ++ k ++ n : BitVec 32) = k := sub_eq (by
  rw [cat_pwait];  omega)
@[simp] theorem cat_pwait_3 (k : BitVec 4) (n : BitVec 3) : @BitVec.extractLsb' 32 0 3 (0#25 ++ k ++ n : BitVec 32) = n := sub_eq (by
  rw [cat_pwait];  omega)
theorem cat_sat (sat : Bool) : @BitVec.toNat 2 (0#1 ++ BitVec.ofBool sat : BitVec 2) = sat.toNat := by
  change @BitVec.toNat (1 + 1) _ = _
  simp only [toNat_join, BitVec.toNat_ofNat, BitVec.toNat_ofBool] <;> omega
@[simp] theorem cat_sat_1b (sat : Bool) : @BitVec.getLsbD 2 (0#1 ++ BitVec.ofBool sat : BitVec 2) 1 = false := by
  have h := cat_sat sat
  rw [bitn, h]; have := sat.toNat_le; simp <;> omega
@[simp] theorem cat_sat_1 (sat : Bool) : @BitVec.extractLsb' 2 1 1 (0#1 ++ BitVec.ofBool sat : BitVec 2) = 0#1 := sub_eq (by
  rw [cat_sat, BitVec.toNat_ofNat]; have := sat.toNat_le; omega)
@[simp] theorem cat_sat_2 (sat : Bool) : @BitVec.getLsbD 2 (0#1 ++ BitVec.ofBool sat : BitVec 2) 0 = sat := by
  have h := cat_sat sat
  rw [bitn, h]; have := sat.toNat_le; cases sat <;> simp <;> omega
theorem cat_bfe (sx : Bool) (len : BitVec 7) : @BitVec.toNat 11 (0#3 ++ BitVec.ofBool sx ++ len : BitVec 11) = sx.toNat * 2 ^ 7 + len.toNat := by
  change @BitVec.toNat (3 + 1 + 7) _ = _
  simp only [toNat_join, BitVec.toNat_ofNat, BitVec.toNat_ofBool] <;> omega
@[simp] theorem cat_bfe_1 (sx : Bool) (len : BitVec 7) : @BitVec.extractLsb' 11 8 3 (0#3 ++ BitVec.ofBool sx ++ len : BitVec 11) = 0#3 := sub_eq (by
  rw [cat_bfe, BitVec.toNat_ofNat]; have := sx.toNat_le; omega)
@[simp] theorem cat_bfe_2 (sx : Bool) (len : BitVec 7) : @BitVec.getLsbD 11 (0#3 ++ BitVec.ofBool sx ++ len : BitVec 11) 7 = sx := by
  have h := cat_bfe sx len
  rw [bitn, h]; have := sx.toNat_le; cases sx <;> simp <;> omega
@[simp] theorem cat_bfe_3 (sx : Bool) (len : BitVec 7) : @BitVec.extractLsb' 11 0 7 (0#3 ++ BitVec.ofBool sx ++ len : BitVec 11) = len := sub_eq (by
  rw [cat_bfe]; have := sx.toNat_le; omega)
theorem cat_cvtb (p : BitVec 4) (seed : BitVec 7) : @BitVec.toNat 11 (p ++ seed : BitVec 11) = p.toNat * 2 ^ 7 + seed.toNat := by
  change @BitVec.toNat (4 + 7) _ = _
  simp only [toNat_join, BitVec.toNat_ofNat, BitVec.toNat_ofBool] <;> omega
@[simp] theorem cat_cvtb_1 (p : BitVec 4) (seed : BitVec 7) : @BitVec.extractLsb' 11 7 4 (p ++ seed : BitVec 11) = p := sub_eq (by
  rw [cat_cvtb];  omega)
@[simp] theorem cat_cvtb_2 (p : BitVec 4) (seed : BitVec 7) : @BitVec.extractLsb' 11 0 7 (p ++ seed : BitVec 11) = seed := sub_eq (by
  rw [cat_cvtb];  omega)
theorem cat_cvtc (mode : BitVec 3) (tag : BitVec 5) : @BitVec.toNat 11 (0#3 ++ mode ++ tag : BitVec 11) = mode.toNat * 2 ^ 5 + tag.toNat := by
  change @BitVec.toNat (3 + 3 + 5) _ = _
  simp only [toNat_join, BitVec.toNat_ofNat, BitVec.toNat_ofBool] <;> omega
@[simp] theorem cat_cvtc_1 (mode : BitVec 3) (tag : BitVec 5) : @BitVec.extractLsb' 11 8 3 (0#3 ++ mode ++ tag : BitVec 11) = 0#3 := sub_eq (by
  rw [cat_cvtc, BitVec.toNat_ofNat];  omega)
@[simp] theorem cat_cvtc_2 (mode : BitVec 3) (tag : BitVec 5) : @BitVec.extractLsb' 11 5 3 (0#3 ++ mode ++ tag : BitVec 11) = mode := sub_eq (by
  rw [cat_cvtc];  omega)
@[simp] theorem cat_cvtc_3 (mode : BitVec 3) (tag : BitVec 5) : @BitVec.extractLsb' 11 0 5 (0#3 ++ mode ++ tag : BitVec 11) = tag := sub_eq (by
  rw [cat_cvtc];  omega)
theorem cat_sz (sz : Bool) : @BitVec.toNat 11 (0#7 ++ BitVec.ofBool sz ++ 0#3 : BitVec 11) = sz.toNat * 2 ^ 3 := by
  change @BitVec.toNat (7 + 1 + 3) _ = _
  simp only [toNat_join, BitVec.toNat_ofNat, BitVec.toNat_ofBool] <;> omega
@[simp] theorem cat_sz_1 (sz : Bool) : @BitVec.extractLsb' 11 4 7 (0#7 ++ BitVec.ofBool sz ++ 0#3 : BitVec 11) = 0#7 := sub_eq (by
  rw [cat_sz, BitVec.toNat_ofNat]; have := sz.toNat_le; omega)
@[simp] theorem cat_sz_2 (sz : Bool) : @BitVec.getLsbD 11 (0#7 ++ BitVec.ofBool sz ++ 0#3 : BitVec 11) 3 = sz := by
  have h := cat_sz sz
  rw [bitn, h]; have := sz.toNat_le; cases sz <;> simp <;> omega
@[simp] theorem cat_sz_3 (sz : Bool) : @BitVec.extractLsb' 11 0 3 (0#7 ++ BitVec.ofBool sz ++ 0#3 : BitVec 11) = 0#3 := sub_eq (by
  rw [cat_sz, BitVec.toNat_ofNat]; have := sz.toNat_le; omega)
theorem cat_red (sz : Bool) (opr : BitVec 2) : @BitVec.toNat 11 (0#7 ++ BitVec.ofBool sz ++ 0#1 ++ opr : BitVec 11) = sz.toNat * 2 ^ 3 + opr.toNat := by
  change @BitVec.toNat (7 + 1 + 1 + 2) _ = _
  simp only [toNat_join, BitVec.toNat_ofNat, BitVec.toNat_ofBool] <;> omega
@[simp] theorem cat_red_1 (sz : Bool) (opr : BitVec 2) : @BitVec.extractLsb' 11 4 7 (0#7 ++ BitVec.ofBool sz ++ 0#1 ++ opr : BitVec 11) = 0#7 := sub_eq (by
  rw [cat_red, BitVec.toNat_ofNat]; have := sz.toNat_le; omega)
@[simp] theorem cat_red_2 (sz : Bool) (opr : BitVec 2) : @BitVec.getLsbD 11 (0#7 ++ BitVec.ofBool sz ++ 0#1 ++ opr : BitVec 11) 3 = sz := by
  have h := cat_red sz opr
  rw [bitn, h]; have := sz.toNat_le; cases sz <;> simp <;> omega
@[simp] theorem cat_red_3b (sz : Bool) (opr : BitVec 2) : @BitVec.getLsbD 11 (0#7 ++ BitVec.ofBool sz ++ 0#1 ++ opr : BitVec 11) 2 = false := by
  have h := cat_red sz opr
  rw [bitn, h]; have := sz.toNat_le; simp <;> omega
@[simp] theorem cat_red_3 (sz : Bool) (opr : BitVec 2) : @BitVec.extractLsb' 11 2 1 (0#7 ++ BitVec.ofBool sz ++ 0#1 ++ opr : BitVec 11) = 0#1 := sub_eq (by
  rw [cat_red, BitVec.toNat_ofNat]; have := sz.toNat_le; omega)
@[simp] theorem cat_red_4 (sz : Bool) (opr : BitVec 2) : @BitVec.extractLsb' 11 0 2 (0#7 ++ BitVec.ofBool sz ++ 0#1 ++ opr : BitVec 11) = opr := sub_eq (by
  rw [cat_red]; have := sz.toNat_le; omega)
theorem cat_scan (sz : Bool) (x : Bool) (opr : BitVec 2) : @BitVec.toNat 11 (0#7 ++ BitVec.ofBool sz ++ BitVec.ofBool x ++ opr : BitVec 11) = sz.toNat * 2 ^ 3 + x.toNat * 2 ^ 2 + opr.toNat := by
  change @BitVec.toNat (7 + 1 + 1 + 2) _ = _
  simp only [toNat_join, BitVec.toNat_ofNat, BitVec.toNat_ofBool] <;> omega
@[simp] theorem cat_scan_1 (sz : Bool) (x : Bool) (opr : BitVec 2) : @BitVec.extractLsb' 11 4 7 (0#7 ++ BitVec.ofBool sz ++ BitVec.ofBool x ++ opr : BitVec 11) = 0#7 := sub_eq (by
  rw [cat_scan, BitVec.toNat_ofNat]; have := sz.toNat_le; have := x.toNat_le; omega)
@[simp] theorem cat_scan_2 (sz : Bool) (x : Bool) (opr : BitVec 2) : @BitVec.getLsbD 11 (0#7 ++ BitVec.ofBool sz ++ BitVec.ofBool x ++ opr : BitVec 11) 3 = sz := by
  have h := cat_scan sz x opr
  rw [bitn, h]; have := sz.toNat_le; have := x.toNat_le; cases sz <;> simp <;> omega
@[simp] theorem cat_scan_3 (sz : Bool) (x : Bool) (opr : BitVec 2) : @BitVec.getLsbD 11 (0#7 ++ BitVec.ofBool sz ++ BitVec.ofBool x ++ opr : BitVec 11) 2 = x := by
  have h := cat_scan sz x opr
  rw [bitn, h]; have := sz.toNat_le; have := x.toNat_le; cases x <;> simp <;> omega
@[simp] theorem cat_scan_4 (sz : Bool) (x : Bool) (opr : BitVec 2) : @BitVec.extractLsb' 11 0 2 (0#7 ++ BitVec.ofBool sz ++ BitVec.ofBool x ++ opr : BitVec 11) = opr := sub_eq (by
  rw [cat_scan]; have := sz.toNat_le; have := x.toNat_le; omega)
theorem cat_xadd (add : Bool) : @BitVec.toNat 11 (0#8 ++ BitVec.ofBool add ++ 0#2 : BitVec 11) = add.toNat * 2 ^ 2 := by
  change @BitVec.toNat (8 + 1 + 2) _ = _
  simp only [toNat_join, BitVec.toNat_ofNat, BitVec.toNat_ofBool] <;> omega
@[simp] theorem cat_xadd_1 (add : Bool) : @BitVec.extractLsb' 11 3 8 (0#8 ++ BitVec.ofBool add ++ 0#2 : BitVec 11) = 0#8 := sub_eq (by
  rw [cat_xadd, BitVec.toNat_ofNat]; have := add.toNat_le; omega)
@[simp] theorem cat_xadd_2 (add : Bool) : @BitVec.getLsbD 11 (0#8 ++ BitVec.ofBool add ++ 0#2 : BitVec 11) 2 = add := by
  have h := cat_xadd add
  rw [bitn, h]; have := add.toNat_le; cases add <;> simp <;> omega
@[simp] theorem cat_xadd_3 (add : Bool) : @BitVec.extractLsb' 11 0 2 (0#8 ++ BitVec.ofBool add ++ 0#2 : BitVec 11) = 0#2 := sub_eq (by
  rw [cat_xadd, BitVec.toNat_ofNat]; have := add.toNat_le; omega)
theorem cat_ofs (ofs : BitVec 9) : @BitVec.toNat 11 (ofs ++ 0#2 : BitVec 11) = ofs.toNat * 2 ^ 2 := by
  change @BitVec.toNat (9 + 2) _ = _
  simp only [toNat_join, BitVec.toNat_ofNat, BitVec.toNat_ofBool] <;> omega
@[simp] theorem cat_ofs_1 (ofs : BitVec 9) : @BitVec.extractLsb' 11 2 9 (ofs ++ 0#2 : BitVec 11) = ofs := sub_eq (by
  rw [cat_ofs];  omega)
@[simp] theorem cat_ofs_2 (ofs : BitVec 9) : @BitVec.extractLsb' 11 0 2 (ofs ++ 0#2 : BitVec 11) = 0#2 := sub_eq (by
  rw [cat_ofs, BitVec.toNat_ofNat];  omega)
theorem cat_ofsn (ofs : BitVec 9) (nm1 : BitVec 2) : @BitVec.toNat 11 (ofs ++ nm1 : BitVec 11) = ofs.toNat * 2 ^ 2 + nm1.toNat := by
  change @BitVec.toNat (9 + 2) _ = _
  simp only [toNat_join, BitVec.toNat_ofNat, BitVec.toNat_ofBool] <;> omega
@[simp] theorem cat_ofsn_1 (ofs : BitVec 9) (nm1 : BitVec 2) : @BitVec.extractLsb' 11 2 9 (ofs ++ nm1 : BitVec 11) = ofs := sub_eq (by
  rw [cat_ofsn];  omega)
@[simp] theorem cat_ofsn_2 (ofs : BitVec 9) (nm1 : BitVec 2) : @BitVec.extractLsb' 11 0 2 (ofs ++ nm1 : BitVec 11) = nm1 := sub_eq (by
  rw [cat_ofsn];  omega)
theorem cat_capc (u : Bool) (x : Bool) : @BitVec.toNat 11 (BitVec.ofBool u ++ BitVec.ofBool x ++ 0#9 : BitVec 11) = u.toNat * 2 ^ 10 + x.toNat * 2 ^ 9 := by
  change @BitVec.toNat (1 + 1 + 9) _ = _
  simp only [toNat_join, BitVec.toNat_ofNat, BitVec.toNat_ofBool] <;> omega
@[simp] theorem cat_capc_1 (u : Bool) (x : Bool) : @BitVec.getLsbD 11 (BitVec.ofBool u ++ BitVec.ofBool x ++ 0#9 : BitVec 11) 10 = u := by
  have h := cat_capc u x
  rw [bitn, h]; have := u.toNat_le; have := x.toNat_le; cases u <;> simp <;> omega
@[simp] theorem cat_capc_2 (u : Bool) (x : Bool) : @BitVec.getLsbD 11 (BitVec.ofBool u ++ BitVec.ofBool x ++ 0#9 : BitVec 11) 9 = x := by
  have h := cat_capc u x
  rw [bitn, h]; have := u.toNat_le; have := x.toNat_le; cases x <;> simp <;> omega
@[simp] theorem cat_capc_3 (u : Bool) (x : Bool) : @BitVec.extractLsb' 11 0 9 (BitVec.ofBool u ++ BitVec.ofBool x ++ 0#9 : BitVec 11) = 0#9 := sub_eq (by
  rw [cat_capc, BitVec.toNat_ofNat]; have := u.toNat_le; have := x.toNat_le; omega)
theorem cat_cpyc (esz : BitVec 3) (kt : Bool) (dsp : BitVec 2) (ssp : BitVec 2) : @BitVec.toNat 11 (0#3 ++ esz ++ BitVec.ofBool kt ++ dsp ++ ssp : BitVec 11) = esz.toNat * 2 ^ 5 + kt.toNat * 2 ^ 4 + dsp.toNat * 2 ^ 2 + ssp.toNat := by
  change @BitVec.toNat (3 + 3 + 1 + 2 + 2) _ = _
  simp only [toNat_join, BitVec.toNat_ofNat, BitVec.toNat_ofBool] <;> omega
@[simp] theorem cat_cpyc_1 (esz : BitVec 3) (kt : Bool) (dsp : BitVec 2) (ssp : BitVec 2) : @BitVec.extractLsb' 11 8 3 (0#3 ++ esz ++ BitVec.ofBool kt ++ dsp ++ ssp : BitVec 11) = 0#3 := sub_eq (by
  rw [cat_cpyc, BitVec.toNat_ofNat]; have := kt.toNat_le; omega)
@[simp] theorem cat_cpyc_2 (esz : BitVec 3) (kt : Bool) (dsp : BitVec 2) (ssp : BitVec 2) : @BitVec.extractLsb' 11 5 3 (0#3 ++ esz ++ BitVec.ofBool kt ++ dsp ++ ssp : BitVec 11) = esz := sub_eq (by
  rw [cat_cpyc]; have := kt.toNat_le; omega)
@[simp] theorem cat_cpyc_3 (esz : BitVec 3) (kt : Bool) (dsp : BitVec 2) (ssp : BitVec 2) : @BitVec.getLsbD 11 (0#3 ++ esz ++ BitVec.ofBool kt ++ dsp ++ ssp : BitVec 11) 4 = kt := by
  have h := cat_cpyc esz kt dsp ssp
  rw [bitn, h]; have := kt.toNat_le; cases kt <;> simp <;> omega
@[simp] theorem cat_cpyc_4 (esz : BitVec 3) (kt : Bool) (dsp : BitVec 2) (ssp : BitVec 2) : @BitVec.extractLsb' 11 2 2 (0#3 ++ esz ++ BitVec.ofBool kt ++ dsp ++ ssp : BitVec 11) = dsp := sub_eq (by
  rw [cat_cpyc]; have := kt.toNat_le; omega)
@[simp] theorem cat_cpyc_5 (esz : BitVec 3) (kt : Bool) (dsp : BitVec 2) (ssp : BitVec 2) : @BitVec.extractLsb' 11 0 2 (0#3 ++ esz ++ BitVec.ofBool kt ++ dsp ++ ssp : BitVec 11) = ssp := sub_eq (by
  rw [cat_cpyc]; have := kt.toNat_le; omega)

theorem accept_ok {l z : Bool} {i j : Instr} (hz : z = true) (e : j = i) (hw : i.wf = true) : accept l z j = .ok i := by
  subst e; simp [accept, hz, hw]

/-! Capability and copy words. -/

section Cap
variable (op : Nat) (o : CapOp) (x : Bool)
@[simp] theorem fOp_encCap : fOp (encCap op o x) = op % 1024 := by simp [encCap]
@[simp] theorem fCap_encCap : fCap (encCap op o x) = o := by
  simp [fCap, encCap, -BitVec.getLsbD_eq_getElem, cbit_encV]
@[simp] theorem fRsv_encCap : fRsv (encCap op o x) = false := by simp [encCap]
@[simp] theorem fWc_encCap : fWc (encCap op o x) = false := by simp [encCap]
@[simp] theorem low_encCap : field (encCap op o x) 10 9 = 0#9 := by simp [encCap, c_encV]
@[simp] theorem x_encCap : (encCap op o x).getLsbD 19 = x := by simp [encCap, -BitVec.getLsbD_eq_getElem, cbit_encV]
end Cap

section Cpy
variable (op : Nat) (o : CpyOp) (esz : BitVec 3)
@[simp] theorem fOp_encCpy : fOp (encCpy op o esz) = op % 1024 := by simp [encCpy]
@[simp] theorem fCpy_encCpy : fCpy (encCpy op o esz) = o := by
  simp [fCpy, encCpy, -BitVec.getLsbD_eq_getElem, cbit_encV, c_encV, d_encV, a_encV, b_encV, wide_low]
@[simp] theorem fD_encCpy : hi4 (fD (encCpy op o esz)) = true := by simp [encCpy, hi4_wide]
@[simp] theorem fA_encCpy : hi4 (fA (encCpy op o esz)) = true := by simp [encCpy, hi4_wide]
@[simp] theorem fB_encCpy : hi4 (fB (encCpy op o esz)) = true := by simp [encCpy, hi4_wide]
@[simp] theorem low_encCpy : field (encCpy op o esz) 0 10 = 0#10 := by simp [encCpy, low_encV]
@[simp] theorem esz_encCpy : field (encCpy op o esz) 15 3 = esz := by simp [encCpy, c_encV]
@[simp] theorem top_encCpy : field (encCpy op o esz) 18 3 = 0#3 := by simp [encCpy, c_encV]
@[simp] theorem six_encCpy : field (encCpy op o 0#3) 15 6 = 0#6 := by
  have h : field (encCpy op o 0#3) 15 6 = BitVec.extractLsb' 5 6 ((0#3 ++ 0#3 ++ BitVec.ofBool o.kt ++ o.dsp ++ o.ssp : BitVec 11)) :=
    c_encV _ _ _ _ _ _ _ _ _ (by norm_num) (by norm_num)
  rw [h]
  have := o.kt.toNat_le
  have e := cat_cpyc 0#3 o.kt o.dsp o.ssp
  apply sub_eq
  change @BitVec.toNat 11 _ / _ % _ = _
  rw [e]; simp only [BitVec.toNat_ofNat]; omega
end Cpy

end Sys2Proof.Laws
end

