-- ==== Sys2Proof/Laws/PerInstr.lean ====
section
/-! SUPPORT. Per-instruction laws. RoundTrip: a well-formed instruction decodes from the word that encodes it (R101, R107 to R112). -/
namespace Sys2Proof.Laws

set_option linter.unusedSimpArgs false

/-- The decoder reads a well-formed instruction back from its class and word. -/
def RoundTrip.Statement (i : Instr) : Prop := i.wf = true → ∀ c w, encode i = some (c, w) → decodeWord c w = .ok i

theorem RoundTrip.bra (off : BitVec 32) : RoundTrip.Statement (.bra off) := by
  intro h c w e; cases e
  simp [decodeWord, decodeCtrl, accept, h, encVU, encVB, encVT, encDABC, fVU, fVB, fVT, wide_top, mm_low, mm_high, mm_top, vt_low, vt_high, vt_top, st_low, st_top, one_top, bit3_pair, bit3_one, low3_one, -BitVec.getLsbD_eq_getElem, low_encV, most_encV, most_encM, fence_encM, setw_low, setw_high, show hi4 0#11 = true from rfl, wide_low, wide_high, hi4_wide, wide_bit, imm_encS, imm_encC, ibit_encC, d_encV, a_encV, b_encV, c_encV, cbit_encV, d_encVI, imm_encVI, sbit_encVI]
theorem RoundTrip.brz (a : SReg) (off : BitVec 32) : RoundTrip.Statement (.brz a off) := by
  intro h c w e; cases e
  simp [decodeWord, decodeCtrl, accept, h, encVU, encVB, encVT, encDABC, fVU, fVB, fVT, wide_top, mm_low, mm_high, mm_top, vt_low, vt_high, vt_top, st_low, st_top, one_top, bit3_pair, bit3_one, low3_one, -BitVec.getLsbD_eq_getElem, low_encV, most_encV, most_encM, fence_encM, setw_low, setw_high, show hi4 0#11 = true from rfl, wide_low, wide_high, hi4_wide, wide_bit, imm_encS, imm_encC, ibit_encC, d_encV, a_encV, b_encV, c_encV, cbit_encV, d_encVI, imm_encVI, sbit_encVI]
theorem RoundTrip.brnz (a : SReg) (off : BitVec 32) : RoundTrip.Statement (.brnz a off) := by
  intro h c w e; cases e
  simp [decodeWord, decodeCtrl, accept, h, encVU, encVB, encVT, encDABC, fVU, fVB, fVT, wide_top, mm_low, mm_high, mm_top, vt_low, vt_high, vt_top, st_low, st_top, one_top, bit3_pair, bit3_one, low3_one, -BitVec.getLsbD_eq_getElem, low_encV, most_encV, most_encM, fence_encM, setw_low, setw_high, show hi4 0#11 = true from rfl, wide_low, wide_high, hi4_wide, wide_bit, imm_encS, imm_encC, ibit_encC, d_encV, a_encV, b_encV, c_encV, cbit_encV, d_encVI, imm_encVI, sbit_encVI]
theorem RoundTrip.mskip (a : SReg) (off : BitVec 32) : RoundTrip.Statement (.mskip a off) := by
  intro h c w e; cases e
  simp [decodeWord, decodeCtrl, accept, h, encVU, encVB, encVT, encDABC, fVU, fVB, fVT, wide_top, mm_low, mm_high, mm_top, vt_low, vt_high, vt_top, st_low, st_top, one_top, bit3_pair, bit3_one, low3_one, -BitVec.getLsbD_eq_getElem, low_encV, most_encV, most_encM, fence_encM, setw_low, setw_high, show hi4 0#11 = true from rfl, wide_low, wide_high, hi4_wide, wide_bit, imm_encS, imm_encC, ibit_encC, d_encV, a_encV, b_encV, c_encV, cbit_encV, d_encVI, imm_encVI, sbit_encVI]
theorem RoundTrip.brv (a : SReg) (off : BitVec 32) : RoundTrip.Statement (.brv a off) := by
  intro h c w e; cases e
  simp [decodeWord, decodeCtrl, accept, h, encVU, encVB, encVT, encDABC, fVU, fVB, fVT, wide_top, mm_low, mm_high, mm_top, vt_low, vt_high, vt_top, st_low, st_top, one_top, bit3_pair, bit3_one, low3_one, -BitVec.getLsbD_eq_getElem, low_encV, most_encV, most_encM, fence_encM, setw_low, setw_high, show hi4 0#11 = true from rfl, wide_low, wide_high, hi4_wide, wide_bit, imm_encS, imm_encC, ibit_encC, d_encV, a_encV, b_encV, c_encV, cbit_encV, d_encVI, imm_encVI, sbit_encVI]
theorem RoundTrip.jmpt (a b : SReg) : RoundTrip.Statement (.jmpt a b) := by
  intro h c w e; cases e
  simp [decodeWord, decodeCtrl, accept, h, encVU, encVB, encVT, encDABC, fVU, fVB, fVT, wide_top, mm_low, mm_high, mm_top, vt_low, vt_high, vt_top, st_low, st_top, one_top, bit3_pair, bit3_one, low3_one, -BitVec.getLsbD_eq_getElem, low_encV, most_encV, most_encM, fence_encM, setw_low, setw_high, show hi4 0#11 = true from rfl, wide_low, wide_high, hi4_wide, wide_bit, imm_encS, imm_encC, ibit_encC, d_encV, a_encV, b_encV, c_encV, cbit_encV, d_encVI, imm_encVI, sbit_encVI]
theorem RoundTrip.jmptC (a b : SReg) : RoundTrip.Statement (.jmptC a b) := by
  intro h c w e; cases e
  simp [decodeWord, decodeCtrl, accept, h, encVU, encVB, encVT, encDABC, fVU, fVB, fVT, wide_top, mm_low, mm_high, mm_top, vt_low, vt_high, vt_top, st_low, st_top, one_top, bit3_pair, bit3_one, low3_one, -BitVec.getLsbD_eq_getElem, low_encV, most_encV, most_encM, fence_encM, setw_low, setw_high, show hi4 0#11 = true from rfl, wide_low, wide_high, hi4_wide, wide_bit, imm_encS, imm_encC, ibit_encC, d_encV, a_encV, b_encV, c_encV, cbit_encV, d_encVI, imm_encVI, sbit_encVI]
theorem RoundTrip.jmptv (a : SReg) (idx : VField) (wi : Bool) : RoundTrip.Statement (.jmptv a idx wi) := by
  intro h c w e; cases e
  simp [decodeWord, decodeCtrl, accept, h, encVU, encVB, encVT, encDABC, fVU, fVB, fVT, wide_top, mm_low, mm_high, mm_top, vt_low, vt_high, vt_top, st_low, st_top, one_top, bit3_pair, bit3_one, low3_one, -BitVec.getLsbD_eq_getElem, low_encV, most_encV, most_encM, fence_encM, setw_low, setw_high, show hi4 0#11 = true from rfl, wide_low, wide_high, hi4_wide, wide_bit, imm_encS, imm_encC, ibit_encC, d_encV, a_encV, b_encV, c_encV, cbit_encV, d_encVI, imm_encVI, sbit_encVI]
theorem RoundTrip.call (off : BitVec 32) : RoundTrip.Statement (.call off) := by
  intro h c w e; cases e
  simp [decodeWord, decodeCtrl, accept, h, encVU, encVB, encVT, encDABC, fVU, fVB, fVT, wide_top, mm_low, mm_high, mm_top, vt_low, vt_high, vt_top, st_low, st_top, one_top, bit3_pair, bit3_one, low3_one, -BitVec.getLsbD_eq_getElem, low_encV, most_encV, most_encM, fence_encM, setw_low, setw_high, show hi4 0#11 = true from rfl, wide_low, wide_high, hi4_wide, wide_bit, imm_encS, imm_encC, ibit_encC, d_encV, a_encV, b_encV, c_encV, cbit_encV, d_encVI, imm_encVI, sbit_encVI]
theorem RoundTrip.callt (a b : SReg) : RoundTrip.Statement (.callt a b) := by
  intro h c w e; cases e
  simp [decodeWord, decodeCtrl, accept, h, encVU, encVB, encVT, encDABC, fVU, fVB, fVT, wide_top, mm_low, mm_high, mm_top, vt_low, vt_high, vt_top, st_low, st_top, one_top, bit3_pair, bit3_one, low3_one, -BitVec.getLsbD_eq_getElem, low_encV, most_encV, most_encM, fence_encM, setw_low, setw_high, show hi4 0#11 = true from rfl, wide_low, wide_high, hi4_wide, wide_bit, imm_encS, imm_encC, ibit_encC, d_encV, a_encV, b_encV, c_encV, cbit_encV, d_encVI, imm_encVI, sbit_encVI]
theorem RoundTrip.calltC (a b : SReg) : RoundTrip.Statement (.calltC a b) := by
  intro h c w e; cases e
  simp [decodeWord, decodeCtrl, accept, h, encVU, encVB, encVT, encDABC, fVU, fVB, fVT, wide_top, mm_low, mm_high, mm_top, vt_low, vt_high, vt_top, st_low, st_top, one_top, bit3_pair, bit3_one, low3_one, -BitVec.getLsbD_eq_getElem, low_encV, most_encV, most_encM, fence_encM, setw_low, setw_high, show hi4 0#11 = true from rfl, wide_low, wide_high, hi4_wide, wide_bit, imm_encS, imm_encC, ibit_encC, d_encV, a_encV, b_encV, c_encV, cbit_encV, d_encVI, imm_encVI, sbit_encVI]
theorem RoundTrip.calltv (a : SReg) (idx : VField) (wi : Bool) (link : VField) : RoundTrip.Statement (.calltv a idx wi link) := by
  intro h c w e; cases e
  simp [decodeWord, decodeCtrl, accept, h, encVU, encVB, encVT, encDABC, fVU, fVB, fVT, wide_top, mm_low, mm_high, mm_top, vt_low, vt_high, vt_top, st_low, st_top, one_top, bit3_pair, bit3_one, low3_one, -BitVec.getLsbD_eq_getElem, low_encV, most_encV, most_encM, fence_encM, setw_low, setw_high, show hi4 0#11 = true from rfl, wide_low, wide_high, hi4_wide, wide_bit, imm_encS, imm_encC, ibit_encC, d_encV, a_encV, b_encV, c_encV, cbit_encV, d_encVI, imm_encVI, sbit_encVI]
theorem RoundTrip.ret (a : SReg) : RoundTrip.Statement (.ret a) := by
  intro h c w e; cases e
  simp [decodeWord, decodeCtrl, accept, h, encVU, encVB, encVT, encDABC, fVU, fVB, fVT, wide_top, mm_low, mm_high, mm_top, vt_low, vt_high, vt_top, st_low, st_top, one_top, bit3_pair, bit3_one, low3_one, -BitVec.getLsbD_eq_getElem, low_encV, most_encV, most_encM, fence_encM, setw_low, setw_high, show hi4 0#11 = true from rfl, wide_low, wide_high, hi4_wide, wide_bit, imm_encS, imm_encC, ibit_encC, d_encV, a_encV, b_encV, c_encV, cbit_encV, d_encVI, imm_encVI, sbit_encVI]
theorem RoundTrip.retv (link : VField) (wl : Bool) : RoundTrip.Statement (.retv link wl) := by
  intro h c w e; cases e
  simp [decodeWord, decodeCtrl, accept, h, encVU, encVB, encVT, encDABC, fVU, fVB, fVT, wide_top, mm_low, mm_high, mm_top, vt_low, vt_high, vt_top, st_low, st_top, one_top, bit3_pair, bit3_one, low3_one, -BitVec.getLsbD_eq_getElem, low_encV, most_encV, most_encM, fence_encM, setw_low, setw_high, show hi4 0#11 = true from rfl, wide_low, wide_high, hi4_wide, wide_bit, imm_encS, imm_encC, ibit_encC, d_encV, a_encV, b_encV, c_encV, cbit_encV, d_encVI, imm_encVI, sbit_encVI]
theorem RoundTrip.bar (n : BitVec 4) (count : BitVec 6) : RoundTrip.Statement (.bar n count) := by
  intro h c w e; cases e
  simp [decodeWord, decodeCtrl, accept, h, encVU, encVB, encVT, encDABC, fVU, fVB, fVT, wide_top, mm_low, mm_high, mm_top, vt_low, vt_high, vt_top, st_low, st_top, one_top, bit3_pair, bit3_one, low3_one, -BitVec.getLsbD_eq_getElem, low_encV, most_encV, most_encM, fence_encM, setw_low, setw_high, show hi4 0#11 = true from rfl, wide_low, wide_high, hi4_wide, wide_bit, imm_encS, imm_encC, ibit_encC, d_encV, a_encV, b_encV, c_encV, cbit_encV, d_encVI, imm_encVI, sbit_encVI]
theorem RoundTrip.pwait (n : BitVec 3) (k : BitVec 4) : RoundTrip.Statement (.pwait n k) := by
  intro h c w e; cases e
  simp [decodeWord, decodeCtrl, accept, h, encVU, encVB, encVT, encDABC, fVU, fVB, fVT, wide_top, mm_low, mm_high, mm_top, vt_low, vt_high, vt_top, st_low, st_top, one_top, bit3_pair, bit3_one, low3_one, -BitVec.getLsbD_eq_getElem, low_encV, most_encV, most_encM, fence_encM, setw_low, setw_high, show hi4 0#11 = true from rfl, wide_low, wide_high, hi4_wide, wide_bit, imm_encS, imm_encC, ibit_encC, d_encV, a_encV, b_encV, c_encV, cbit_encV, d_encVI, imm_encVI, sbit_encVI]
theorem RoundTrip.splits (d : SReg) (var : BitVec 2) : RoundTrip.Statement (.splits d var) := by
  intro h c w e; cases e
  simp [decodeWord, decodeCtrl, accept, h, encVU, encVB, encVT, encDABC, fVU, fVB, fVT, wide_top, mm_low, mm_high, mm_top, vt_low, vt_high, vt_top, st_low, st_top, one_top, bit3_pair, bit3_one, low3_one, -BitVec.getLsbD_eq_getElem, low_encV, most_encV, most_encM, fence_encM, setw_low, setw_high, show hi4 0#11 = true from rfl, wide_low, wide_high, hi4_wide, wide_bit, imm_encS, imm_encC, ibit_encC, d_encV, a_encV, b_encV, c_encV, cbit_encV, d_encVI, imm_encVI, sbit_encVI]
theorem RoundTrip.trap (code : BitVec 16) (m : MField) : RoundTrip.Statement (.trap code m) := by
  intro h c w e; cases e
  simp [decodeWord, decodeCtrl, accept, h, encVU, encVB, encVT, encDABC, fVU, fVB, fVT, wide_top, mm_low, mm_high, mm_top, vt_low, vt_high, vt_top, st_low, st_top, one_top, bit3_pair, bit3_one, low3_one, -BitVec.getLsbD_eq_getElem, low_encV, most_encV, most_encM, fence_encM, setw_low, setw_high, show hi4 0#11 = true from rfl, wide_low, wide_high, hi4_wide, wide_bit, imm_encS, imm_encC, ibit_encC, d_encV, a_encV, b_encV, c_encV, cbit_encV, d_encVI, imm_encVI, sbit_encVI]
theorem RoundTrip.bkpt (m : MField) : RoundTrip.Statement (.bkpt m) := by
  intro h c w e; cases e
  simp [decodeWord, decodeCtrl, accept, h, encVU, encVB, encVT, encDABC, fVU, fVB, fVT, wide_top, mm_low, mm_high, mm_top, vt_low, vt_high, vt_top, st_low, st_top, one_top, bit3_pair, bit3_one, low3_one, -BitVec.getLsbD_eq_getElem, low_encV, most_encV, most_encM, fence_encM, setw_low, setw_high, show hi4 0#11 = true from rfl, wide_low, wide_high, hi4_wide, wide_bit, imm_encS, imm_encC, ibit_encC, d_encV, a_encV, b_encV, c_encV, cbit_encV, d_encVI, imm_encVI, sbit_encVI]
theorem RoundTrip.sget (d : SReg) (r : BitVec 8) : RoundTrip.Statement (.sget d r) := by
  intro h c w e; cases e
  simp [decodeWord, decodeCtrl, accept, h, encVU, encVB, encVT, encDABC, fVU, fVB, fVT, wide_top, mm_low, mm_high, mm_top, vt_low, vt_high, vt_top, st_low, st_top, one_top, bit3_pair, bit3_one, low3_one, -BitVec.getLsbD_eq_getElem, low_encV, most_encV, most_encM, fence_encM, setw_low, setw_high, show hi4 0#11 = true from rfl, wide_low, wide_high, hi4_wide, wide_bit, imm_encS, imm_encC, ibit_encC, d_encV, a_encV, b_encV, c_encV, cbit_encV, d_encVI, imm_encVI, sbit_encVI]
theorem RoundTrip.sset (a : SReg) (r : BitVec 8) : RoundTrip.Statement (.sset a r) := by
  intro h c w e; cases e
  simp [decodeWord, decodeCtrl, accept, h, encVU, encVB, encVT, encDABC, fVU, fVB, fVT, wide_top, mm_low, mm_high, mm_top, vt_low, vt_high, vt_top, st_low, st_top, one_top, bit3_pair, bit3_one, low3_one, -BitVec.getLsbD_eq_getElem, low_encV, most_encV, most_encM, fence_encM, setw_low, setw_high, show hi4 0#11 = true from rfl, wide_low, wide_high, hi4_wide, wide_bit, imm_encS, imm_encC, ibit_encC, d_encV, a_encV, b_encV, c_encV, cbit_encV, d_encVI, imm_encVI, sbit_encVI]
theorem RoundTrip.tlbiDropVa (tenant : Nat) (va : W64) : RoundTrip.Statement (.tlbiDropVa tenant va) := by
  intro _ c w e; cases e
theorem RoundTrip.tlbiDropTenant (tenant : Nat) : RoundTrip.Statement (.tlbiDropTenant tenant) := by
  intro _ c w e; cases e
theorem RoundTrip.launch (q p d : SReg) : RoundTrip.Statement (.launch q p d) := by
  intro h c w e; cases e
  simp [decodeWord, decodeCtrl, accept, h, encVU, encVB, encVT, encDABC, fVU, fVB, fVT, wide_top, mm_low, mm_high, mm_top, vt_low, vt_high, vt_top, st_low, st_top, one_top, bit3_pair, bit3_one, low3_one, -BitVec.getLsbD_eq_getElem, low_encV, most_encV, most_encM, fence_encM, setw_low, setw_high, show hi4 0#11 = true from rfl, wide_low, wide_high, hi4_wide, wide_bit, imm_encS, imm_encC, ibit_encC, d_encV, a_encV, b_encV, c_encV, cbit_encV, d_encVI, imm_encVI, sbit_encVI]
theorem RoundTrip.smov (o : SOp) : RoundTrip.Statement (.smov o) := by
  intro h c w e; cases e
  simp [decodeWord, decodeScalar, accept, h, encVU, encVB, encVT, encDABC, fVU, fVB, fVT, wide_top, mm_low, mm_high, mm_top, vt_low, vt_high, vt_top, st_low, st_top, one_top, bit3_pair, bit3_one, low3_one, -BitVec.getLsbD_eq_getElem, low_encV, most_encV, most_encM, fence_encM, setw_low, setw_high, show hi4 0#11 = true from rfl, wide_low, wide_high, hi4_wide, wide_bit, imm_encS, imm_encC, ibit_encC, d_encV, a_encV, b_encV, c_encV, cbit_encV, d_encVI, imm_encVI, sbit_encVI]
theorem RoundTrip.smovi (o : SOp) : RoundTrip.Statement (.smovi o) := by
  intro h c w e; cases e
  simp [decodeWord, decodeScalar, accept, h, encVU, encVB, encVT, encDABC, fVU, fVB, fVT, wide_top, mm_low, mm_high, mm_top, vt_low, vt_high, vt_top, st_low, st_top, one_top, bit3_pair, bit3_one, low3_one, -BitVec.getLsbD_eq_getElem, low_encV, most_encV, most_encM, fence_encM, setw_low, setw_high, show hi4 0#11 = true from rfl, wide_low, wide_high, hi4_wide, wide_bit, imm_encS, imm_encC, ibit_encC, d_encV, a_encV, b_encV, c_encV, cbit_encV, d_encVI, imm_encVI, sbit_encVI]
theorem RoundTrip.smovhi (o : SOp) : RoundTrip.Statement (.smovhi o) := by
  intro h c w e; cases e
  simp [decodeWord, decodeScalar, accept, h, encVU, encVB, encVT, encDABC, fVU, fVB, fVT, wide_top, mm_low, mm_high, mm_top, vt_low, vt_high, vt_top, st_low, st_top, one_top, bit3_pair, bit3_one, low3_one, -BitVec.getLsbD_eq_getElem, low_encV, most_encV, most_encM, fence_encM, setw_low, setw_high, show hi4 0#11 = true from rfl, wide_low, wide_high, hi4_wide, wide_bit, imm_encS, imm_encC, ibit_encC, d_encV, a_encV, b_encV, c_encV, cbit_encV, d_encVI, imm_encVI, sbit_encVI]
theorem RoundTrip.sadd (o : SOp) : RoundTrip.Statement (.sadd o) := by
  intro h c w e; cases e
  simp [decodeWord, decodeScalar, accept, h, encVU, encVB, encVT, encDABC, fVU, fVB, fVT, wide_top, mm_low, mm_high, mm_top, vt_low, vt_high, vt_top, st_low, st_top, one_top, bit3_pair, bit3_one, low3_one, -BitVec.getLsbD_eq_getElem, low_encV, most_encV, most_encM, fence_encM, setw_low, setw_high, show hi4 0#11 = true from rfl, wide_low, wide_high, hi4_wide, wide_bit, imm_encS, imm_encC, ibit_encC, d_encV, a_encV, b_encV, c_encV, cbit_encV, d_encVI, imm_encVI, sbit_encVI]
theorem RoundTrip.ssub (o : SOp) : RoundTrip.Statement (.ssub o) := by
  intro h c w e; cases e
  simp [decodeWord, decodeScalar, accept, h, encVU, encVB, encVT, encDABC, fVU, fVB, fVT, wide_top, mm_low, mm_high, mm_top, vt_low, vt_high, vt_top, st_low, st_top, one_top, bit3_pair, bit3_one, low3_one, -BitVec.getLsbD_eq_getElem, low_encV, most_encV, most_encM, fence_encM, setw_low, setw_high, show hi4 0#11 = true from rfl, wide_low, wide_high, hi4_wide, wide_bit, imm_encS, imm_encC, ibit_encC, d_encV, a_encV, b_encV, c_encV, cbit_encV, d_encVI, imm_encVI, sbit_encVI]
theorem RoundTrip.smul (o : SOp) : RoundTrip.Statement (.smul o) := by
  intro h c w e; cases e
  simp [decodeWord, decodeScalar, accept, h, encVU, encVB, encVT, encDABC, fVU, fVB, fVT, wide_top, mm_low, mm_high, mm_top, vt_low, vt_high, vt_top, st_low, st_top, one_top, bit3_pair, bit3_one, low3_one, -BitVec.getLsbD_eq_getElem, low_encV, most_encV, most_encM, fence_encM, setw_low, setw_high, show hi4 0#11 = true from rfl, wide_low, wide_high, hi4_wide, wide_bit, imm_encS, imm_encC, ibit_encC, d_encV, a_encV, b_encV, c_encV, cbit_encV, d_encVI, imm_encVI, sbit_encVI]
theorem RoundTrip.smulhs (o : SOp) : RoundTrip.Statement (.smulhs o) := by
  intro h c w e; cases e
  simp [decodeWord, decodeScalar, accept, h, encVU, encVB, encVT, encDABC, fVU, fVB, fVT, wide_top, mm_low, mm_high, mm_top, vt_low, vt_high, vt_top, st_low, st_top, one_top, bit3_pair, bit3_one, low3_one, -BitVec.getLsbD_eq_getElem, low_encV, most_encV, most_encM, fence_encM, setw_low, setw_high, show hi4 0#11 = true from rfl, wide_low, wide_high, hi4_wide, wide_bit, imm_encS, imm_encC, ibit_encC, d_encV, a_encV, b_encV, c_encV, cbit_encV, d_encVI, imm_encVI, sbit_encVI]
theorem RoundTrip.smulhn (o : SOp) : RoundTrip.Statement (.smulhn o) := by
  intro h c w e; cases e
  simp [decodeWord, decodeScalar, accept, h, encVU, encVB, encVT, encDABC, fVU, fVB, fVT, wide_top, mm_low, mm_high, mm_top, vt_low, vt_high, vt_top, st_low, st_top, one_top, bit3_pair, bit3_one, low3_one, -BitVec.getLsbD_eq_getElem, low_encV, most_encV, most_encM, fence_encM, setw_low, setw_high, show hi4 0#11 = true from rfl, wide_low, wide_high, hi4_wide, wide_bit, imm_encS, imm_encC, ibit_encC, d_encV, a_encV, b_encV, c_encV, cbit_encV, d_encVI, imm_encVI, sbit_encVI]
theorem RoundTrip.sdivs (o : SOp) : RoundTrip.Statement (.sdivs o) := by
  intro h c w e; cases e
  simp [decodeWord, decodeScalar, accept, h, encVU, encVB, encVT, encDABC, fVU, fVB, fVT, wide_top, mm_low, mm_high, mm_top, vt_low, vt_high, vt_top, st_low, st_top, one_top, bit3_pair, bit3_one, low3_one, -BitVec.getLsbD_eq_getElem, low_encV, most_encV, most_encM, fence_encM, setw_low, setw_high, show hi4 0#11 = true from rfl, wide_low, wide_high, hi4_wide, wide_bit, imm_encS, imm_encC, ibit_encC, d_encV, a_encV, b_encV, c_encV, cbit_encV, d_encVI, imm_encVI, sbit_encVI]
theorem RoundTrip.sdivn (o : SOp) : RoundTrip.Statement (.sdivn o) := by
  intro h c w e; cases e
  simp [decodeWord, decodeScalar, accept, h, encVU, encVB, encVT, encDABC, fVU, fVB, fVT, wide_top, mm_low, mm_high, mm_top, vt_low, vt_high, vt_top, st_low, st_top, one_top, bit3_pair, bit3_one, low3_one, -BitVec.getLsbD_eq_getElem, low_encV, most_encV, most_encM, fence_encM, setw_low, setw_high, show hi4 0#11 = true from rfl, wide_low, wide_high, hi4_wide, wide_bit, imm_encS, imm_encC, ibit_encC, d_encV, a_encV, b_encV, c_encV, cbit_encV, d_encVI, imm_encVI, sbit_encVI]
theorem RoundTrip.srems (o : SOp) : RoundTrip.Statement (.srems o) := by
  intro h c w e; cases e
  simp [decodeWord, decodeScalar, accept, h, encVU, encVB, encVT, encDABC, fVU, fVB, fVT, wide_top, mm_low, mm_high, mm_top, vt_low, vt_high, vt_top, st_low, st_top, one_top, bit3_pair, bit3_one, low3_one, -BitVec.getLsbD_eq_getElem, low_encV, most_encV, most_encM, fence_encM, setw_low, setw_high, show hi4 0#11 = true from rfl, wide_low, wide_high, hi4_wide, wide_bit, imm_encS, imm_encC, ibit_encC, d_encV, a_encV, b_encV, c_encV, cbit_encV, d_encVI, imm_encVI, sbit_encVI]
theorem RoundTrip.sremn (o : SOp) : RoundTrip.Statement (.sremn o) := by
  intro h c w e; cases e
  simp [decodeWord, decodeScalar, accept, h, encVU, encVB, encVT, encDABC, fVU, fVB, fVT, wide_top, mm_low, mm_high, mm_top, vt_low, vt_high, vt_top, st_low, st_top, one_top, bit3_pair, bit3_one, low3_one, -BitVec.getLsbD_eq_getElem, low_encV, most_encV, most_encM, fence_encM, setw_low, setw_high, show hi4 0#11 = true from rfl, wide_low, wide_high, hi4_wide, wide_bit, imm_encS, imm_encC, ibit_encC, d_encV, a_encV, b_encV, c_encV, cbit_encV, d_encVI, imm_encVI, sbit_encVI]
theorem RoundTrip.sand (o : SOp) : RoundTrip.Statement (.sand o) := by
  intro h c w e; cases e
  simp [decodeWord, decodeScalar, accept, h, encVU, encVB, encVT, encDABC, fVU, fVB, fVT, wide_top, mm_low, mm_high, mm_top, vt_low, vt_high, vt_top, st_low, st_top, one_top, bit3_pair, bit3_one, low3_one, -BitVec.getLsbD_eq_getElem, low_encV, most_encV, most_encM, fence_encM, setw_low, setw_high, show hi4 0#11 = true from rfl, wide_low, wide_high, hi4_wide, wide_bit, imm_encS, imm_encC, ibit_encC, d_encV, a_encV, b_encV, c_encV, cbit_encV, d_encVI, imm_encVI, sbit_encVI]
theorem RoundTrip.sor (o : SOp) : RoundTrip.Statement (.sor o) := by
  intro h c w e; cases e
  simp [decodeWord, decodeScalar, accept, h, encVU, encVB, encVT, encDABC, fVU, fVB, fVT, wide_top, mm_low, mm_high, mm_top, vt_low, vt_high, vt_top, st_low, st_top, one_top, bit3_pair, bit3_one, low3_one, -BitVec.getLsbD_eq_getElem, low_encV, most_encV, most_encM, fence_encM, setw_low, setw_high, show hi4 0#11 = true from rfl, wide_low, wide_high, hi4_wide, wide_bit, imm_encS, imm_encC, ibit_encC, d_encV, a_encV, b_encV, c_encV, cbit_encV, d_encVI, imm_encVI, sbit_encVI]
theorem RoundTrip.sxor (o : SOp) : RoundTrip.Statement (.sxor o) := by
  intro h c w e; cases e
  simp [decodeWord, decodeScalar, accept, h, encVU, encVB, encVT, encDABC, fVU, fVB, fVT, wide_top, mm_low, mm_high, mm_top, vt_low, vt_high, vt_top, st_low, st_top, one_top, bit3_pair, bit3_one, low3_one, -BitVec.getLsbD_eq_getElem, low_encV, most_encV, most_encM, fence_encM, setw_low, setw_high, show hi4 0#11 = true from rfl, wide_low, wide_high, hi4_wide, wide_bit, imm_encS, imm_encC, ibit_encC, d_encV, a_encV, b_encV, c_encV, cbit_encV, d_encVI, imm_encVI, sbit_encVI]
theorem RoundTrip.sandn (o : SOp) : RoundTrip.Statement (.sandn o) := by
  intro h c w e; cases e
  simp [decodeWord, decodeScalar, accept, h, encVU, encVB, encVT, encDABC, fVU, fVB, fVT, wide_top, mm_low, mm_high, mm_top, vt_low, vt_high, vt_top, st_low, st_top, one_top, bit3_pair, bit3_one, low3_one, -BitVec.getLsbD_eq_getElem, low_encV, most_encV, most_encM, fence_encM, setw_low, setw_high, show hi4 0#11 = true from rfl, wide_low, wide_high, hi4_wide, wide_bit, imm_encS, imm_encC, ibit_encC, d_encV, a_encV, b_encV, c_encV, cbit_encV, d_encVI, imm_encVI, sbit_encVI]
theorem RoundTrip.sshl (o : SOp) : RoundTrip.Statement (.sshl o) := by
  intro h c w e; cases e
  simp [decodeWord, decodeScalar, accept, h, encVU, encVB, encVT, encDABC, fVU, fVB, fVT, wide_top, mm_low, mm_high, mm_top, vt_low, vt_high, vt_top, st_low, st_top, one_top, bit3_pair, bit3_one, low3_one, -BitVec.getLsbD_eq_getElem, low_encV, most_encV, most_encM, fence_encM, setw_low, setw_high, show hi4 0#11 = true from rfl, wide_low, wide_high, hi4_wide, wide_bit, imm_encS, imm_encC, ibit_encC, d_encV, a_encV, b_encV, c_encV, cbit_encV, d_encVI, imm_encVI, sbit_encVI]
theorem RoundTrip.sshrn (o : SOp) : RoundTrip.Statement (.sshrn o) := by
  intro h c w e; cases e
  simp [decodeWord, decodeScalar, accept, h, encVU, encVB, encVT, encDABC, fVU, fVB, fVT, wide_top, mm_low, mm_high, mm_top, vt_low, vt_high, vt_top, st_low, st_top, one_top, bit3_pair, bit3_one, low3_one, -BitVec.getLsbD_eq_getElem, low_encV, most_encV, most_encM, fence_encM, setw_low, setw_high, show hi4 0#11 = true from rfl, wide_low, wide_high, hi4_wide, wide_bit, imm_encS, imm_encC, ibit_encC, d_encV, a_encV, b_encV, c_encV, cbit_encV, d_encVI, imm_encVI, sbit_encVI]
theorem RoundTrip.sshrs (o : SOp) : RoundTrip.Statement (.sshrs o) := by
  intro h c w e; cases e
  simp [decodeWord, decodeScalar, accept, h, encVU, encVB, encVT, encDABC, fVU, fVB, fVT, wide_top, mm_low, mm_high, mm_top, vt_low, vt_high, vt_top, st_low, st_top, one_top, bit3_pair, bit3_one, low3_one, -BitVec.getLsbD_eq_getElem, low_encV, most_encV, most_encM, fence_encM, setw_low, setw_high, show hi4 0#11 = true from rfl, wide_low, wide_high, hi4_wide, wide_bit, imm_encS, imm_encC, ibit_encC, d_encV, a_encV, b_encV, c_encV, cbit_encV, d_encVI, imm_encVI, sbit_encVI]
theorem RoundTrip.smins (o : SOp) : RoundTrip.Statement (.smins o) := by
  intro h c w e; cases e
  simp [decodeWord, decodeScalar, accept, h, encVU, encVB, encVT, encDABC, fVU, fVB, fVT, wide_top, mm_low, mm_high, mm_top, vt_low, vt_high, vt_top, st_low, st_top, one_top, bit3_pair, bit3_one, low3_one, -BitVec.getLsbD_eq_getElem, low_encV, most_encV, most_encM, fence_encM, setw_low, setw_high, show hi4 0#11 = true from rfl, wide_low, wide_high, hi4_wide, wide_bit, imm_encS, imm_encC, ibit_encC, d_encV, a_encV, b_encV, c_encV, cbit_encV, d_encVI, imm_encVI, sbit_encVI]
theorem RoundTrip.smaxs (o : SOp) : RoundTrip.Statement (.smaxs o) := by
  intro h c w e; cases e
  simp [decodeWord, decodeScalar, accept, h, encVU, encVB, encVT, encDABC, fVU, fVB, fVT, wide_top, mm_low, mm_high, mm_top, vt_low, vt_high, vt_top, st_low, st_top, one_top, bit3_pair, bit3_one, low3_one, -BitVec.getLsbD_eq_getElem, low_encV, most_encV, most_encM, fence_encM, setw_low, setw_high, show hi4 0#11 = true from rfl, wide_low, wide_high, hi4_wide, wide_bit, imm_encS, imm_encC, ibit_encC, d_encV, a_encV, b_encV, c_encV, cbit_encV, d_encVI, imm_encVI, sbit_encVI]
theorem RoundTrip.sminn (o : SOp) : RoundTrip.Statement (.sminn o) := by
  intro h c w e; cases e
  simp [decodeWord, decodeScalar, accept, h, encVU, encVB, encVT, encDABC, fVU, fVB, fVT, wide_top, mm_low, mm_high, mm_top, vt_low, vt_high, vt_top, st_low, st_top, one_top, bit3_pair, bit3_one, low3_one, -BitVec.getLsbD_eq_getElem, low_encV, most_encV, most_encM, fence_encM, setw_low, setw_high, show hi4 0#11 = true from rfl, wide_low, wide_high, hi4_wide, wide_bit, imm_encS, imm_encC, ibit_encC, d_encV, a_encV, b_encV, c_encV, cbit_encV, d_encVI, imm_encVI, sbit_encVI]
theorem RoundTrip.smaxn (o : SOp) : RoundTrip.Statement (.smaxn o) := by
  intro h c w e; cases e
  simp [decodeWord, decodeScalar, accept, h, encVU, encVB, encVT, encDABC, fVU, fVB, fVT, wide_top, mm_low, mm_high, mm_top, vt_low, vt_high, vt_top, st_low, st_top, one_top, bit3_pair, bit3_one, low3_one, -BitVec.getLsbD_eq_getElem, low_encV, most_encV, most_encM, fence_encM, setw_low, setw_high, show hi4 0#11 = true from rfl, wide_low, wide_high, hi4_wide, wide_bit, imm_encS, imm_encC, ibit_encC, d_encV, a_encV, b_encV, c_encV, cbit_encV, d_encVI, imm_encVI, sbit_encVI]
theorem RoundTrip.sclz (o : SOp) : RoundTrip.Statement (.sclz o) := by
  intro h c w e; cases e
  simp [decodeWord, decodeScalar, accept, h, encVU, encVB, encVT, encDABC, fVU, fVB, fVT, wide_top, mm_low, mm_high, mm_top, vt_low, vt_high, vt_top, st_low, st_top, one_top, bit3_pair, bit3_one, low3_one, -BitVec.getLsbD_eq_getElem, low_encV, most_encV, most_encM, fence_encM, setw_low, setw_high, show hi4 0#11 = true from rfl, wide_low, wide_high, hi4_wide, wide_bit, imm_encS, imm_encC, ibit_encC, d_encV, a_encV, b_encV, c_encV, cbit_encV, d_encVI, imm_encVI, sbit_encVI]
theorem RoundTrip.sctz (o : SOp) : RoundTrip.Statement (.sctz o) := by
  intro h c w e; cases e
  simp [decodeWord, decodeScalar, accept, h, encVU, encVB, encVT, encDABC, fVU, fVB, fVT, wide_top, mm_low, mm_high, mm_top, vt_low, vt_high, vt_top, st_low, st_top, one_top, bit3_pair, bit3_one, low3_one, -BitVec.getLsbD_eq_getElem, low_encV, most_encV, most_encM, fence_encM, setw_low, setw_high, show hi4 0#11 = true from rfl, wide_low, wide_high, hi4_wide, wide_bit, imm_encS, imm_encC, ibit_encC, d_encV, a_encV, b_encV, c_encV, cbit_encV, d_encVI, imm_encVI, sbit_encVI]
theorem RoundTrip.spopc (o : SOp) : RoundTrip.Statement (.spopc o) := by
  intro h c w e; cases e
  simp [decodeWord, decodeScalar, accept, h, encVU, encVB, encVT, encDABC, fVU, fVB, fVT, wide_top, mm_low, mm_high, mm_top, vt_low, vt_high, vt_top, st_low, st_top, one_top, bit3_pair, bit3_one, low3_one, -BitVec.getLsbD_eq_getElem, low_encV, most_encV, most_encM, fence_encM, setw_low, setw_high, show hi4 0#11 = true from rfl, wide_low, wide_high, hi4_wide, wide_bit, imm_encS, imm_encC, ibit_encC, d_encV, a_encV, b_encV, c_encV, cbit_encV, d_encVI, imm_encVI, sbit_encVI]
theorem RoundTrip.sbext (o : SOp) : RoundTrip.Statement (.sbext o) := by
  intro h c w e; cases e
  simp [decodeWord, decodeScalar, accept, h, encVU, encVB, encVT, encDABC, fVU, fVB, fVT, wide_top, mm_low, mm_high, mm_top, vt_low, vt_high, vt_top, st_low, st_top, one_top, bit3_pair, bit3_one, low3_one, -BitVec.getLsbD_eq_getElem, low_encV, most_encV, most_encM, fence_encM, setw_low, setw_high, show hi4 0#11 = true from rfl, wide_low, wide_high, hi4_wide, wide_bit, imm_encS, imm_encC, ibit_encC, d_encV, a_encV, b_encV, c_encV, cbit_encV, d_encVI, imm_encVI, sbit_encVI]
theorem RoundTrip.sbins (o : SOp) : RoundTrip.Statement (.sbins o) := by
  intro h c w e; cases e
  simp [decodeWord, decodeScalar, accept, h, encVU, encVB, encVT, encDABC, fVU, fVB, fVT, wide_top, mm_low, mm_high, mm_top, vt_low, vt_high, vt_top, st_low, st_top, one_top, bit3_pair, bit3_one, low3_one, -BitVec.getLsbD_eq_getElem, low_encV, most_encV, most_encM, fence_encM, setw_low, setw_high, show hi4 0#11 = true from rfl, wide_low, wide_high, hi4_wide, wide_bit, imm_encS, imm_encC, ibit_encC, d_encV, a_encV, b_encV, c_encV, cbit_encV, d_encVI, imm_encVI, sbit_encVI]
theorem RoundTrip.ssel (o : SOp) : RoundTrip.Statement (.ssel o) := by
  intro h c w e; cases e
  simp [decodeWord, decodeScalar, accept, h, encVU, encVB, encVT, encDABC, fVU, fVB, fVT, wide_top, mm_low, mm_high, mm_top, vt_low, vt_high, vt_top, st_low, st_top, one_top, bit3_pair, bit3_one, low3_one, -BitVec.getLsbD_eq_getElem, low_encV, most_encV, most_encM, fence_encM, setw_low, setw_high, show hi4 0#11 = true from rfl, wide_low, wide_high, hi4_wide, wide_bit, imm_encS, imm_encC, ibit_encC, d_encV, a_encV, b_encV, c_encV, cbit_encV, d_encVI, imm_encVI, sbit_encVI]
theorem RoundTrip.scmp (o : SOp) : RoundTrip.Statement (.scmp o) := by
  intro h c w e; cases e
  simp [decodeWord, decodeScalar, accept, h, encVU, encVB, encVT, encDABC, fVU, fVB, fVT, wide_top, mm_low, mm_high, mm_top, vt_low, vt_high, vt_top, st_low, st_top, one_top, bit3_pair, bit3_one, low3_one, -BitVec.getLsbD_eq_getElem, low_encV, most_encV, most_encM, fence_encM, setw_low, setw_high, show hi4 0#11 = true from rfl, wide_low, wide_high, hi4_wide, wide_bit, imm_encS, imm_encC, ibit_encC, d_encV, a_encV, b_encV, c_encV, cbit_encV, d_encVI, imm_encVI, sbit_encVI]
theorem RoundTrip.vmov (o : VU) : RoundTrip.Statement (.vmov o) := by
  intro h c w e; cases e
  simp [decodeWord, decodeValu, accept, h, encVU, encVB, encVT, encDABC, fVU, fVB, fVT, wide_top, mm_low, mm_high, mm_top, vt_low, vt_high, vt_top, st_low, st_top, one_top, bit3_pair, bit3_one, low3_one, -BitVec.getLsbD_eq_getElem, low_encV, most_encV, most_encM, fence_encM, setw_low, setw_high, show hi4 0#11 = true from rfl, wide_low, wide_high, hi4_wide, wide_bit, imm_encS, imm_encC, ibit_encC, d_encV, a_encV, b_encV, c_encV, cbit_encV, d_encVI, imm_encVI, sbit_encVI]
theorem RoundTrip.vmovi (d : VField) (imm : BitVec 22) (sub : BitVec 2) (m : MField) : RoundTrip.Statement (.vmovi d imm sub m) := by
  intro h c w e; cases e
  simp [decodeWord, decodeValu, accept, h, encVU, encVB, encVT, encDABC, fVU, fVB, fVT, wide_top, mm_low, mm_high, mm_top, vt_low, vt_high, vt_top, st_low, st_top, one_top, bit3_pair, bit3_one, low3_one, -BitVec.getLsbD_eq_getElem, low_encV, most_encV, most_encM, fence_encM, setw_low, setw_high, show hi4 0#11 = true from rfl, wide_low, wide_high, hi4_wide, wide_bit, imm_encS, imm_encC, ibit_encC, d_encV, a_encV, b_encV, c_encV, cbit_encV, d_encVI, imm_encVI, sbit_encVI]
theorem RoundTrip.vmovs (d : VField) (a : SReg) (tag : BitVec 5) (m : MField) : RoundTrip.Statement (.vmovs d a tag m) := by
  intro h c w e; cases e
  simp [decodeWord, decodeValu, accept, h, encVU, encVB, encVT, encDABC, fVU, fVB, fVT, wide_top, mm_low, mm_high, mm_top, vt_low, vt_high, vt_top, st_low, st_top, one_top, bit3_pair, bit3_one, low3_one, -BitVec.getLsbD_eq_getElem, low_encV, most_encV, most_encM, fence_encM, setw_low, setw_high, show hi4 0#11 = true from rfl, wide_low, wide_high, hi4_wide, wide_bit, imm_encS, imm_encC, ibit_encC, d_encV, a_encV, b_encV, c_encV, cbit_encV, d_encVI, imm_encVI, sbit_encVI]
theorem RoundTrip.vadd (o : VB) (sat : Bool) : RoundTrip.Statement (.vadd o sat) := by
  intro h c w e; cases e
  simp [decodeWord, decodeValu, accept, h, encVU, encVB, encVT, encDABC, fVU, fVB, fVT, wide_top, mm_low, mm_high, mm_top, vt_low, vt_high, vt_top, st_low, st_top, one_top, bit3_pair, bit3_one, low3_one, -BitVec.getLsbD_eq_getElem, low_encV, most_encV, most_encM, fence_encM, setw_low, setw_high, show hi4 0#11 = true from rfl, wide_low, wide_high, hi4_wide, wide_bit, imm_encS, imm_encC, ibit_encC, d_encV, a_encV, b_encV, c_encV, cbit_encV, d_encVI, imm_encVI, sbit_encVI]
theorem RoundTrip.vaddi (o : VU) (imm : BitVec 22) (sat : Bool) : RoundTrip.Statement (.vaddi o imm sat) := by
  intro h c w e; cases e
  simp [decodeWord, decodeValu, accept, h, encVU, encVB, encVT, encDABC, fVU, fVB, fVT, wide_top, mm_low, mm_high, mm_top, vt_low, vt_high, vt_top, st_low, st_top, one_top, bit3_pair, bit3_one, low3_one, -BitVec.getLsbD_eq_getElem, low_encV, most_encV, most_encM, fence_encM, setw_low, setw_high, show hi4 0#11 = true from rfl, wide_low, wide_high, hi4_wide, wide_bit, imm_encS, imm_encC, ibit_encC, d_encV, a_encV, b_encV, c_encV, cbit_encV, d_encVI, imm_encVI, sbit_encVI]
theorem RoundTrip.vsub (o : VB) (sat : Bool) : RoundTrip.Statement (.vsub o sat) := by
  intro h c w e; cases e
  simp [decodeWord, decodeValu, accept, h, encVU, encVB, encVT, encDABC, fVU, fVB, fVT, wide_top, mm_low, mm_high, mm_top, vt_low, vt_high, vt_top, st_low, st_top, one_top, bit3_pair, bit3_one, low3_one, -BitVec.getLsbD_eq_getElem, low_encV, most_encV, most_encM, fence_encM, setw_low, setw_high, show hi4 0#11 = true from rfl, wide_low, wide_high, hi4_wide, wide_bit, imm_encS, imm_encC, ibit_encC, d_encV, a_encV, b_encV, c_encV, cbit_encV, d_encVI, imm_encVI, sbit_encVI]
theorem RoundTrip.vmul (o : VB) (sat : Bool) : RoundTrip.Statement (.vmul o sat) := by
  intro h c w e; cases e
  simp [decodeWord, decodeValu, accept, h, encVU, encVB, encVT, encDABC, fVU, fVB, fVT, wide_top, mm_low, mm_high, mm_top, vt_low, vt_high, vt_top, st_low, st_top, one_top, bit3_pair, bit3_one, low3_one, -BitVec.getLsbD_eq_getElem, low_encV, most_encV, most_encM, fence_encM, setw_low, setw_high, show hi4 0#11 = true from rfl, wide_low, wide_high, hi4_wide, wide_bit, imm_encS, imm_encC, ibit_encC, d_encV, a_encV, b_encV, c_encV, cbit_encV, d_encVI, imm_encVI, sbit_encVI]
theorem RoundTrip.vfma (o : VT) : RoundTrip.Statement (.vfma o) := by
  intro h c w e; cases e
  simp [decodeWord, decodeValu, accept, h, encVU, encVB, encVT, encDABC, fVU, fVB, fVT, wide_top, mm_low, mm_high, mm_top, vt_low, vt_high, vt_top, st_low, st_top, one_top, bit3_pair, bit3_one, low3_one, -BitVec.getLsbD_eq_getElem, low_encV, most_encV, most_encM, fence_encM, setw_low, setw_high, show hi4 0#11 = true from rfl, wide_low, wide_high, hi4_wide, wide_bit, imm_encS, imm_encC, ibit_encC, d_encV, a_encV, b_encV, c_encV, cbit_encV, d_encVI, imm_encVI, sbit_encVI]
theorem RoundTrip.vfms (o : VT) : RoundTrip.Statement (.vfms o) := by
  intro h c w e; cases e
  simp [decodeWord, decodeValu, accept, h, encVU, encVB, encVT, encDABC, fVU, fVB, fVT, wide_top, mm_low, mm_high, mm_top, vt_low, vt_high, vt_top, st_low, st_top, one_top, bit3_pair, bit3_one, low3_one, -BitVec.getLsbD_eq_getElem, low_encV, most_encV, most_encM, fence_encM, setw_low, setw_high, show hi4 0#11 = true from rfl, wide_low, wide_high, hi4_wide, wide_bit, imm_encS, imm_encC, ibit_encC, d_encV, a_encV, b_encV, c_encV, cbit_encV, d_encVI, imm_encVI, sbit_encVI]
theorem RoundTrip.vmin (o : VB) : RoundTrip.Statement (.vmin o) := by
  intro h c w e; cases e
  simp [decodeWord, decodeValu, accept, h, encVU, encVB, encVT, encDABC, fVU, fVB, fVT, wide_top, mm_low, mm_high, mm_top, vt_low, vt_high, vt_top, st_low, st_top, one_top, bit3_pair, bit3_one, low3_one, -BitVec.getLsbD_eq_getElem, low_encV, most_encV, most_encM, fence_encM, setw_low, setw_high, show hi4 0#11 = true from rfl, wide_low, wide_high, hi4_wide, wide_bit, imm_encS, imm_encC, ibit_encC, d_encV, a_encV, b_encV, c_encV, cbit_encV, d_encVI, imm_encVI, sbit_encVI]
theorem RoundTrip.vmax (o : VB) : RoundTrip.Statement (.vmax o) := by
  intro h c w e; cases e
  simp [decodeWord, decodeValu, accept, h, encVU, encVB, encVT, encDABC, fVU, fVB, fVT, wide_top, mm_low, mm_high, mm_top, vt_low, vt_high, vt_top, st_low, st_top, one_top, bit3_pair, bit3_one, low3_one, -BitVec.getLsbD_eq_getElem, low_encV, most_encV, most_encM, fence_encM, setw_low, setw_high, show hi4 0#11 = true from rfl, wide_low, wide_high, hi4_wide, wide_bit, imm_encS, imm_encC, ibit_encC, d_encV, a_encV, b_encV, c_encV, cbit_encV, d_encVI, imm_encVI, sbit_encVI]
theorem RoundTrip.vclamp (o : VT) : RoundTrip.Statement (.vclamp o) := by
  intro h c w e; cases e
  simp [decodeWord, decodeValu, accept, h, encVU, encVB, encVT, encDABC, fVU, fVB, fVT, wide_top, mm_low, mm_high, mm_top, vt_low, vt_high, vt_top, st_low, st_top, one_top, bit3_pair, bit3_one, low3_one, -BitVec.getLsbD_eq_getElem, low_encV, most_encV, most_encM, fence_encM, setw_low, setw_high, show hi4 0#11 = true from rfl, wide_low, wide_high, hi4_wide, wide_bit, imm_encS, imm_encC, ibit_encC, d_encV, a_encV, b_encV, c_encV, cbit_encV, d_encVI, imm_encVI, sbit_encVI]
theorem RoundTrip.vabs (o : VU) (sat : Bool) : RoundTrip.Statement (.vabs o sat) := by
  intro h c w e; cases e
  simp [decodeWord, decodeValu, accept, h, encVU, encVB, encVT, encDABC, fVU, fVB, fVT, wide_top, mm_low, mm_high, mm_top, vt_low, vt_high, vt_top, st_low, st_top, one_top, bit3_pair, bit3_one, low3_one, -BitVec.getLsbD_eq_getElem, low_encV, most_encV, most_encM, fence_encM, setw_low, setw_high, show hi4 0#11 = true from rfl, wide_low, wide_high, hi4_wide, wide_bit, imm_encS, imm_encC, ibit_encC, d_encV, a_encV, b_encV, c_encV, cbit_encV, d_encVI, imm_encVI, sbit_encVI]
theorem RoundTrip.vneg (o : VU) (sat : Bool) : RoundTrip.Statement (.vneg o sat) := by
  intro h c w e; cases e
  simp [decodeWord, decodeValu, accept, h, encVU, encVB, encVT, encDABC, fVU, fVB, fVT, wide_top, mm_low, mm_high, mm_top, vt_low, vt_high, vt_top, st_low, st_top, one_top, bit3_pair, bit3_one, low3_one, -BitVec.getLsbD_eq_getElem, low_encV, most_encV, most_encM, fence_encM, setw_low, setw_high, show hi4 0#11 = true from rfl, wide_low, wide_high, hi4_wide, wide_bit, imm_encS, imm_encC, ibit_encC, d_encV, a_encV, b_encV, c_encV, cbit_encV, d_encVI, imm_encVI, sbit_encVI]
theorem RoundTrip.vaddmin (o : VT) : RoundTrip.Statement (.vaddmin o) := by
  intro h c w e; cases e
  simp [decodeWord, decodeValu, accept, h, encVU, encVB, encVT, encDABC, fVU, fVB, fVT, wide_top, mm_low, mm_high, mm_top, vt_low, vt_high, vt_top, st_low, st_top, one_top, bit3_pair, bit3_one, low3_one, -BitVec.getLsbD_eq_getElem, low_encV, most_encV, most_encM, fence_encM, setw_low, setw_high, show hi4 0#11 = true from rfl, wide_low, wide_high, hi4_wide, wide_bit, imm_encS, imm_encC, ibit_encC, d_encV, a_encV, b_encV, c_encV, cbit_encV, d_encVI, imm_encVI, sbit_encVI]
theorem RoundTrip.vmulh (o : VB) : RoundTrip.Statement (.vmulh o) := by
  intro h c w e; cases e
  simp [decodeWord, decodeValu, accept, h, encVU, encVB, encVT, encDABC, fVU, fVB, fVT, wide_top, mm_low, mm_high, mm_top, vt_low, vt_high, vt_top, st_low, st_top, one_top, bit3_pair, bit3_one, low3_one, -BitVec.getLsbD_eq_getElem, low_encV, most_encV, most_encM, fence_encM, setw_low, setw_high, show hi4 0#11 = true from rfl, wide_low, wide_high, hi4_wide, wide_bit, imm_encS, imm_encC, ibit_encC, d_encV, a_encV, b_encV, c_encV, cbit_encV, d_encVI, imm_encVI, sbit_encVI]
theorem RoundTrip.vcmp (d : SReg) (a b : VField) (cond : BitVec 3) (m : MField) (wa wb : Bool) : RoundTrip.Statement (.vcmp d a b cond m wa wb) := by
  intro h c w e; cases e
  simp [decodeWord, decodeValu, accept, h, encVU, encVB, encVT, encDABC, fVU, fVB, fVT, wide_top, mm_low, mm_high, mm_top, vt_low, vt_high, vt_top, st_low, st_top, one_top, bit3_pair, bit3_one, low3_one, -BitVec.getLsbD_eq_getElem, low_encV, most_encV, most_encM, fence_encM, setw_low, setw_high, show hi4 0#11 = true from rfl, wide_low, wide_high, hi4_wide, wide_bit, imm_encS, imm_encC, ibit_encC, d_encV, a_encV, b_encV, c_encV, cbit_encV, d_encVI, imm_encVI, sbit_encVI]
theorem RoundTrip.vsel (o : VB) (c : SReg) : RoundTrip.Statement (.vsel o c) := by
  intro h c w e; cases e
  simp [decodeWord, decodeValu, accept, h, encVU, encVB, encVT, encDABC, fVU, fVB, fVT, wide_top, mm_low, mm_high, mm_top, vt_low, vt_high, vt_top, st_low, st_top, one_top, bit3_pair, bit3_one, low3_one, -BitVec.getLsbD_eq_getElem, low_encV, most_encV, most_encM, fence_encM, setw_low, setw_high, show hi4 0#11 = true from rfl, wide_low, wide_high, hi4_wide, wide_bit, imm_encS, imm_encC, ibit_encC, d_encV, a_encV, b_encV, c_encV, cbit_encV, d_encVI, imm_encVI, sbit_encVI]
theorem RoundTrip.vand (o : VB) : RoundTrip.Statement (.vand o) := by
  intro h c w e; cases e
  simp [decodeWord, decodeVbit, accept, h, encVU, encVB, encVT, encDABC, fVU, fVB, fVT, wide_top, mm_low, mm_high, mm_top, vt_low, vt_high, vt_top, st_low, st_top, one_top, bit3_pair, bit3_one, low3_one, -BitVec.getLsbD_eq_getElem, low_encV, most_encV, most_encM, fence_encM, setw_low, setw_high, show hi4 0#11 = true from rfl, wide_low, wide_high, hi4_wide, wide_bit, imm_encS, imm_encC, ibit_encC, d_encV, a_encV, b_encV, c_encV, cbit_encV, d_encVI, imm_encVI, sbit_encVI]
theorem RoundTrip.vor (o : VB) : RoundTrip.Statement (.vor o) := by
  intro h c w e; cases e
  simp [decodeWord, decodeVbit, accept, h, encVU, encVB, encVT, encDABC, fVU, fVB, fVT, wide_top, mm_low, mm_high, mm_top, vt_low, vt_high, vt_top, st_low, st_top, one_top, bit3_pair, bit3_one, low3_one, -BitVec.getLsbD_eq_getElem, low_encV, most_encV, most_encM, fence_encM, setw_low, setw_high, show hi4 0#11 = true from rfl, wide_low, wide_high, hi4_wide, wide_bit, imm_encS, imm_encC, ibit_encC, d_encV, a_encV, b_encV, c_encV, cbit_encV, d_encVI, imm_encVI, sbit_encVI]
theorem RoundTrip.vxor (o : VB) : RoundTrip.Statement (.vxor o) := by
  intro h c w e; cases e
  simp [decodeWord, decodeVbit, accept, h, encVU, encVB, encVT, encDABC, fVU, fVB, fVT, wide_top, mm_low, mm_high, mm_top, vt_low, vt_high, vt_top, st_low, st_top, one_top, bit3_pair, bit3_one, low3_one, -BitVec.getLsbD_eq_getElem, low_encV, most_encV, most_encM, fence_encM, setw_low, setw_high, show hi4 0#11 = true from rfl, wide_low, wide_high, hi4_wide, wide_bit, imm_encS, imm_encC, ibit_encC, d_encV, a_encV, b_encV, c_encV, cbit_encV, d_encVI, imm_encVI, sbit_encVI]
theorem RoundTrip.vnot (o : VU) : RoundTrip.Statement (.vnot o) := by
  intro h c w e; cases e
  simp [decodeWord, decodeVbit, accept, h, encVU, encVB, encVT, encDABC, fVU, fVB, fVT, wide_top, mm_low, mm_high, mm_top, vt_low, vt_high, vt_top, st_low, st_top, one_top, bit3_pair, bit3_one, low3_one, -BitVec.getLsbD_eq_getElem, low_encV, most_encV, most_encM, fence_encM, setw_low, setw_high, show hi4 0#11 = true from rfl, wide_low, wide_high, hi4_wide, wide_bit, imm_encS, imm_encC, ibit_encC, d_encV, a_encV, b_encV, c_encV, cbit_encV, d_encVI, imm_encVI, sbit_encVI]
theorem RoundTrip.vshl (o : VB) : RoundTrip.Statement (.vshl o) := by
  intro h c w e; cases e
  simp [decodeWord, decodeVbit, accept, h, encVU, encVB, encVT, encDABC, fVU, fVB, fVT, wide_top, mm_low, mm_high, mm_top, vt_low, vt_high, vt_top, st_low, st_top, one_top, bit3_pair, bit3_one, low3_one, -BitVec.getLsbD_eq_getElem, low_encV, most_encV, most_encM, fence_encM, setw_low, setw_high, show hi4 0#11 = true from rfl, wide_low, wide_high, hi4_wide, wide_bit, imm_encS, imm_encC, ibit_encC, d_encV, a_encV, b_encV, c_encV, cbit_encV, d_encVI, imm_encVI, sbit_encVI]
theorem RoundTrip.vshr (o : VB) : RoundTrip.Statement (.vshr o) := by
  intro h c w e; cases e
  simp [decodeWord, decodeVbit, accept, h, encVU, encVB, encVT, encDABC, fVU, fVB, fVT, wide_top, mm_low, mm_high, mm_top, vt_low, vt_high, vt_top, st_low, st_top, one_top, bit3_pair, bit3_one, low3_one, -BitVec.getLsbD_eq_getElem, low_encV, most_encV, most_encM, fence_encM, setw_low, setw_high, show hi4 0#11 = true from rfl, wide_low, wide_high, hi4_wide, wide_bit, imm_encS, imm_encC, ibit_encC, d_encV, a_encV, b_encV, c_encV, cbit_encV, d_encVI, imm_encVI, sbit_encVI]
theorem RoundTrip.vsra (o : VB) : RoundTrip.Statement (.vsra o) := by
  intro h c w e; cases e
  simp [decodeWord, decodeVbit, accept, h, encVU, encVB, encVT, encDABC, fVU, fVB, fVT, wide_top, mm_low, mm_high, mm_top, vt_low, vt_high, vt_top, st_low, st_top, one_top, bit3_pair, bit3_one, low3_one, -BitVec.getLsbD_eq_getElem, low_encV, most_encV, most_encM, fence_encM, setw_low, setw_high, show hi4 0#11 = true from rfl, wide_low, wide_high, hi4_wide, wide_bit, imm_encS, imm_encC, ibit_encC, d_encV, a_encV, b_encV, c_encV, cbit_encV, d_encVI, imm_encVI, sbit_encVI]
theorem RoundTrip.vclz (o : VU) : RoundTrip.Statement (.vclz o) := by
  intro h c w e; cases e
  simp [decodeWord, decodeVbit, accept, h, encVU, encVB, encVT, encDABC, fVU, fVB, fVT, wide_top, mm_low, mm_high, mm_top, vt_low, vt_high, vt_top, st_low, st_top, one_top, bit3_pair, bit3_one, low3_one, -BitVec.getLsbD_eq_getElem, low_encV, most_encV, most_encM, fence_encM, setw_low, setw_high, show hi4 0#11 = true from rfl, wide_low, wide_high, hi4_wide, wide_bit, imm_encS, imm_encC, ibit_encC, d_encV, a_encV, b_encV, c_encV, cbit_encV, d_encVI, imm_encVI, sbit_encVI]
theorem RoundTrip.vpopc (o : VU) : RoundTrip.Statement (.vpopc o) := by
  intro h c w e; cases e
  simp [decodeWord, decodeVbit, accept, h, encVU, encVB, encVT, encDABC, fVU, fVB, fVT, wide_top, mm_low, mm_high, mm_top, vt_low, vt_high, vt_top, st_low, st_top, one_top, bit3_pair, bit3_one, low3_one, -BitVec.getLsbD_eq_getElem, low_encV, most_encV, most_encM, fence_encM, setw_low, setw_high, show hi4 0#11 = true from rfl, wide_low, wide_high, hi4_wide, wide_bit, imm_encS, imm_encC, ibit_encC, d_encV, a_encV, b_encV, c_encV, cbit_encV, d_encVI, imm_encVI, sbit_encVI]
theorem RoundTrip.vbfe (o : VU) (pos : BitVec 6) (len : BitVec 7) (sx : Bool) : RoundTrip.Statement (.vbfe o pos len sx) := by
  intro h c w e; cases e
  simp [decodeWord, decodeVbit, accept, h, encVU, encVB, encVT, encDABC, fVU, fVB, fVT, wide_top, mm_low, mm_high, mm_top, vt_low, vt_high, vt_top, st_low, st_top, one_top, bit3_pair, bit3_one, low3_one, -BitVec.getLsbD_eq_getElem, low_encV, most_encV, most_encM, fence_encM, setw_low, setw_high, show hi4 0#11 = true from rfl, wide_low, wide_high, hi4_wide, wide_bit, imm_encS, imm_encC, ibit_encC, d_encV, a_encV, b_encV, c_encV, cbit_encV, d_encVI, imm_encVI, sbit_encVI]
theorem RoundTrip.vbfi (o : VU) (pos : BitVec 6) (len : BitVec 7) : RoundTrip.Statement (.vbfi o pos len) := by
  intro h c w e; cases e
  simp [decodeWord, decodeVbit, accept, h, encVU, encVB, encVT, encDABC, fVU, fVB, fVT, wide_top, mm_low, mm_high, mm_top, vt_low, vt_high, vt_top, st_low, st_top, one_top, bit3_pair, bit3_one, low3_one, -BitVec.getLsbD_eq_getElem, low_encV, most_encV, most_encM, fence_encM, setw_low, setw_high, show hi4 0#11 = true from rfl, wide_low, wide_high, hi4_wide, wide_bit, imm_encS, imm_encC, ibit_encC, d_encV, a_encV, b_encV, c_encV, cbit_encV, d_encVI, imm_encVI, sbit_encVI]
theorem RoundTrip.vdiv (o : VB) : RoundTrip.Statement (.vdiv o) := by
  intro h c w e; cases e
  simp [decodeWord, decodeVbit, accept, h, encVU, encVB, encVT, encDABC, fVU, fVB, fVT, wide_top, mm_low, mm_high, mm_top, vt_low, vt_high, vt_top, st_low, st_top, one_top, bit3_pair, bit3_one, low3_one, -BitVec.getLsbD_eq_getElem, low_encV, most_encV, most_encM, fence_encM, setw_low, setw_high, show hi4 0#11 = true from rfl, wide_low, wide_high, hi4_wide, wide_bit, imm_encS, imm_encC, ibit_encC, d_encV, a_encV, b_encV, c_encV, cbit_encV, d_encVI, imm_encVI, sbit_encVI]
theorem RoundTrip.vsqrt (o : VU) : RoundTrip.Statement (.vsqrt o) := by
  intro h c w e; cases e
  simp [decodeWord, decodeVbit, accept, h, encVU, encVB, encVT, encDABC, fVU, fVB, fVT, wide_top, mm_low, mm_high, mm_top, vt_low, vt_high, vt_top, st_low, st_top, one_top, bit3_pair, bit3_one, low3_one, -BitVec.getLsbD_eq_getElem, low_encV, most_encV, most_encM, fence_encM, setw_low, setw_high, show hi4 0#11 = true from rfl, wide_low, wide_high, hi4_wide, wide_bit, imm_encS, imm_encC, ibit_encC, d_encV, a_encV, b_encV, c_encV, cbit_encV, d_encVI, imm_encVI, sbit_encVI]
theorem RoundTrip.vrcp (o : VU) : RoundTrip.Statement (.vrcp o) := by
  intro h c w e; cases e
  simp [decodeWord, decodeVbit, accept, h, encVU, encVB, encVT, encDABC, fVU, fVB, fVT, wide_top, mm_low, mm_high, mm_top, vt_low, vt_high, vt_top, st_low, st_top, one_top, bit3_pair, bit3_one, low3_one, -BitVec.getLsbD_eq_getElem, low_encV, most_encV, most_encM, fence_encM, setw_low, setw_high, show hi4 0#11 = true from rfl, wide_low, wide_high, hi4_wide, wide_bit, imm_encS, imm_encC, ibit_encC, d_encV, a_encV, b_encV, c_encV, cbit_encV, d_encVI, imm_encVI, sbit_encVI]
theorem RoundTrip.vrsq (o : VU) : RoundTrip.Statement (.vrsq o) := by
  intro h c w e; cases e
  simp [decodeWord, decodeVbit, accept, h, encVU, encVB, encVT, encDABC, fVU, fVB, fVT, wide_top, mm_low, mm_high, mm_top, vt_low, vt_high, vt_top, st_low, st_top, one_top, bit3_pair, bit3_one, low3_one, -BitVec.getLsbD_eq_getElem, low_encV, most_encV, most_encM, fence_encM, setw_low, setw_high, show hi4 0#11 = true from rfl, wide_low, wide_high, hi4_wide, wide_bit, imm_encS, imm_encC, ibit_encC, d_encV, a_encV, b_encV, c_encV, cbit_encV, d_encVI, imm_encVI, sbit_encVI]
theorem RoundTrip.vexp2 (o : VU) : RoundTrip.Statement (.vexp2 o) := by
  intro h c w e; cases e
  simp [decodeWord, decodeVbit, accept, h, encVU, encVB, encVT, encDABC, fVU, fVB, fVT, wide_top, mm_low, mm_high, mm_top, vt_low, vt_high, vt_top, st_low, st_top, one_top, bit3_pair, bit3_one, low3_one, -BitVec.getLsbD_eq_getElem, low_encV, most_encV, most_encM, fence_encM, setw_low, setw_high, show hi4 0#11 = true from rfl, wide_low, wide_high, hi4_wide, wide_bit, imm_encS, imm_encC, ibit_encC, d_encV, a_encV, b_encV, c_encV, cbit_encV, d_encVI, imm_encVI, sbit_encVI]
theorem RoundTrip.vlog2 (o : VU) : RoundTrip.Statement (.vlog2 o) := by
  intro h c w e; cases e
  simp [decodeWord, decodeVbit, accept, h, encVU, encVB, encVT, encDABC, fVU, fVB, fVT, wide_top, mm_low, mm_high, mm_top, vt_low, vt_high, vt_top, st_low, st_top, one_top, bit3_pair, bit3_one, low3_one, -BitVec.getLsbD_eq_getElem, low_encV, most_encV, most_encM, fence_encM, setw_low, setw_high, show hi4 0#11 = true from rfl, wide_low, wide_high, hi4_wide, wide_bit, imm_encS, imm_encC, ibit_encC, d_encV, a_encV, b_encV, c_encV, cbit_encV, d_encVI, imm_encVI, sbit_encVI]
theorem RoundTrip.vrint (o : VU) (seed : SReg) (mode : BitVec 3) : RoundTrip.Statement (.vrint o seed mode) := by
  intro h c w e; cases e
  simp [decodeWord, decodeVbit, accept, h, encVU, encVB, encVT, encDABC, fVU, fVB, fVT, wide_top, mm_low, mm_high, mm_top, vt_low, vt_high, vt_top, st_low, st_top, one_top, bit3_pair, bit3_one, low3_one, -BitVec.getLsbD_eq_getElem, low_encV, most_encV, most_encM, fence_encM, setw_low, setw_high, show hi4 0#11 = true from rfl, wide_low, wide_high, hi4_wide, wide_bit, imm_encS, imm_encC, ibit_encC, d_encV, a_encV, b_encV, c_encV, cbit_encV, d_encVI, imm_encVI, sbit_encVI]
theorem RoundTrip.vscale (o : VB) : RoundTrip.Statement (.vscale o) := by
  intro h c w e; cases e
  simp [decodeWord, decodeVbit, accept, h, encVU, encVB, encVT, encDABC, fVU, fVB, fVT, wide_top, mm_low, mm_high, mm_top, vt_low, vt_high, vt_top, st_low, st_top, one_top, bit3_pair, bit3_one, low3_one, -BitVec.getLsbD_eq_getElem, low_encV, most_encV, most_encM, fence_encM, setw_low, setw_high, show hi4 0#11 = true from rfl, wide_low, wide_high, hi4_wide, wide_bit, imm_encS, imm_encC, ibit_encC, d_encV, a_encV, b_encV, c_encV, cbit_encV, d_encVI, imm_encVI, sbit_encVI]
theorem RoundTrip.vclass (o : VU) : RoundTrip.Statement (.vclass o) := by
  intro h c w e; cases e
  simp [decodeWord, decodeVbit, accept, h, encVU, encVB, encVT, encDABC, fVU, fVB, fVT, wide_top, mm_low, mm_high, mm_top, vt_low, vt_high, vt_top, st_low, st_top, one_top, bit3_pair, bit3_one, low3_one, -BitVec.getLsbD_eq_getElem, low_encV, most_encV, most_encM, fence_encM, setw_low, setw_high, show hi4 0#11 = true from rfl, wide_low, wide_high, hi4_wide, wide_bit, imm_encS, imm_encC, ibit_encC, d_encV, a_encV, b_encV, c_encV, cbit_encV, d_encVI, imm_encVI, sbit_encVI]
theorem RoundTrip.vcvt (o : VU) (seed : SReg) (p : BitVec 4) (tag : BitVec 5) (mode : BitVec 3) : RoundTrip.Statement (.vcvt o seed p tag mode) := by
  intro h c w e; cases e
  simp [decodeWord, decodeVbit, accept, h, encVU, encVB, encVT, encDABC, fVU, fVB, fVT, wide_top, mm_low, mm_high, mm_top, vt_low, vt_high, vt_top, st_low, st_top, one_top, bit3_pair, bit3_one, low3_one, -BitVec.getLsbD_eq_getElem, low_encV, most_encV, most_encM, fence_encM, setw_low, setw_high, show hi4 0#11 = true from rfl, wide_low, wide_high, hi4_wide, wide_bit, imm_encS, imm_encC, ibit_encC, d_encV, a_encV, b_encV, c_encV, cbit_encV, d_encVI, imm_encVI, sbit_encVI]
theorem RoundTrip.vtag (o : VU) (tag : BitVec 5) : RoundTrip.Statement (.vtag o tag) := by
  intro h c w e; cases e
  simp [decodeWord, decodeVbit, accept, h, encVU, encVB, encVT, encDABC, fVU, fVB, fVT, wide_top, mm_low, mm_high, mm_top, vt_low, vt_high, vt_top, st_low, st_top, one_top, bit3_pair, bit3_one, low3_one, -BitVec.getLsbD_eq_getElem, low_encV, most_encV, most_encM, fence_encM, setw_low, setw_high, show hi4 0#11 = true from rfl, wide_low, wide_high, hi4_wide, wide_bit, imm_encS, imm_encC, ibit_encC, d_encV, a_encV, b_encV, c_encV, cbit_encV, d_encVI, imm_encVI, sbit_encVI]
theorem RoundTrip.vshfl (o : VB) : RoundTrip.Statement (.vshfl o) := by
  intro h c w e; cases e
  simp [decodeWord, decodeLane, accept, h, encVU, encVB, encVT, encDABC, fVU, fVB, fVT, wide_top, mm_low, mm_high, mm_top, vt_low, vt_high, vt_top, st_low, st_top, one_top, bit3_pair, bit3_one, low3_one, -BitVec.getLsbD_eq_getElem, low_encV, most_encV, most_encM, fence_encM, setw_low, setw_high, show hi4 0#11 = true from rfl, wide_low, wide_high, hi4_wide, wide_bit, imm_encS, imm_encC, ibit_encC, d_encV, a_encV, b_encV, c_encV, cbit_encV, d_encVI, imm_encVI, sbit_encVI]
theorem RoundTrip.vshflx (o : VU) (k : BitVec 6) : RoundTrip.Statement (.vshflx o k) := by
  intro h c w e; cases e
  simp [decodeWord, decodeLane, accept, h, encVU, encVB, encVT, encDABC, fVU, fVB, fVT, wide_top, mm_low, mm_high, mm_top, vt_low, vt_high, vt_top, st_low, st_top, one_top, bit3_pair, bit3_one, low3_one, -BitVec.getLsbD_eq_getElem, low_encV, most_encV, most_encM, fence_encM, setw_low, setw_high, show hi4 0#11 = true from rfl, wide_low, wide_high, hi4_wide, wide_bit, imm_encS, imm_encC, ibit_encC, d_encV, a_encV, b_encV, c_encV, cbit_encV, d_encVI, imm_encVI, sbit_encVI]
theorem RoundTrip.vshup (o : VU) (n : BitVec 6) (c : VField) (wc : Bool) : RoundTrip.Statement (.vshup o n c wc) := by
  intro h c w e; cases e
  simp [decodeWord, decodeLane, accept, h, encVU, encVB, encVT, encDABC, fVU, fVB, fVT, wide_top, mm_low, mm_high, mm_top, vt_low, vt_high, vt_top, st_low, st_top, one_top, bit3_pair, bit3_one, low3_one, -BitVec.getLsbD_eq_getElem, low_encV, most_encV, most_encM, fence_encM, setw_low, setw_high, show hi4 0#11 = true from rfl, wide_low, wide_high, hi4_wide, wide_bit, imm_encS, imm_encC, ibit_encC, d_encV, a_encV, b_encV, c_encV, cbit_encV, d_encVI, imm_encVI, sbit_encVI]
theorem RoundTrip.vshdn (o : VU) (n : BitVec 6) (c : VField) (wc : Bool) : RoundTrip.Statement (.vshdn o n c wc) := by
  intro h c w e; cases e
  simp [decodeWord, decodeLane, accept, h, encVU, encVB, encVT, encDABC, fVU, fVB, fVT, wide_top, mm_low, mm_high, mm_top, vt_low, vt_high, vt_top, st_low, st_top, one_top, bit3_pair, bit3_one, low3_one, -BitVec.getLsbD_eq_getElem, low_encV, most_encV, most_encM, fence_encM, setw_low, setw_high, show hi4 0#11 = true from rfl, wide_low, wide_high, hi4_wide, wide_bit, imm_encS, imm_encC, ibit_encC, d_encV, a_encV, b_encV, c_encV, cbit_encV, d_encVI, imm_encVI, sbit_encVI]
theorem RoundTrip.vbcast (o : VU) (b : SReg) : RoundTrip.Statement (.vbcast o b) := by
  intro h c w e; cases e
  simp [decodeWord, decodeLane, accept, h, encVU, encVB, encVT, encDABC, fVU, fVB, fVT, wide_top, mm_low, mm_high, mm_top, vt_low, vt_high, vt_top, st_low, st_top, one_top, bit3_pair, bit3_one, low3_one, -BitVec.getLsbD_eq_getElem, low_encV, most_encV, most_encM, fence_encM, setw_low, setw_high, show hi4 0#11 = true from rfl, wide_low, wide_high, hi4_wide, wide_bit, imm_encS, imm_encC, ibit_encC, d_encV, a_encV, b_encV, c_encV, cbit_encV, d_encVI, imm_encVI, sbit_encVI]
theorem RoundTrip.vrdl (d : SReg) (a : VField) (b : SReg) (sz : Bool) (wa : Bool) : RoundTrip.Statement (.vrdl d a b sz wa) := by
  intro h c w e; cases e
  simp [decodeWord, decodeLane, accept, h, encVU, encVB, encVT, encDABC, fVU, fVB, fVT, wide_top, mm_low, mm_high, mm_top, vt_low, vt_high, vt_top, st_low, st_top, one_top, bit3_pair, bit3_one, low3_one, -BitVec.getLsbD_eq_getElem, low_encV, most_encV, most_encM, fence_encM, setw_low, setw_high, show hi4 0#11 = true from rfl, wide_low, wide_high, hi4_wide, wide_bit, imm_encS, imm_encC, ibit_encC, d_encV, a_encV, b_encV, c_encV, cbit_encV, d_encVI, imm_encVI, sbit_encVI]
theorem RoundTrip.vwrl (d : VField) (a b : SReg) (sz : Bool) : RoundTrip.Statement (.vwrl d a b sz) := by
  intro h c w e; cases e
  simp [decodeWord, decodeLane, accept, h, encVU, encVB, encVT, encDABC, fVU, fVB, fVT, wide_top, mm_low, mm_high, mm_top, vt_low, vt_high, vt_top, st_low, st_top, one_top, bit3_pair, bit3_one, low3_one, -BitVec.getLsbD_eq_getElem, low_encV, most_encV, most_encM, fence_encM, setw_low, setw_high, show hi4 0#11 = true from rfl, wide_low, wide_high, hi4_wide, wide_bit, imm_encS, imm_encC, ibit_encC, d_encV, a_encV, b_encV, c_encV, cbit_encV, d_encVI, imm_encVI, sbit_encVI]
theorem RoundTrip.vvote (d : SReg) (a : VField) (opr : BitVec 2) (m : MField) (wa : Bool) : RoundTrip.Statement (.vvote d a opr m wa) := by
  intro h c w e; cases e
  simp [decodeWord, decodeLane, accept, h, encVU, encVB, encVT, encDABC, fVU, fVB, fVT, wide_top, mm_low, mm_high, mm_top, vt_low, vt_high, vt_top, st_low, st_top, one_top, bit3_pair, bit3_one, low3_one, -BitVec.getLsbD_eq_getElem, low_encV, most_encV, most_encM, fence_encM, setw_low, setw_high, show hi4 0#11 = true from rfl, wide_low, wide_high, hi4_wide, wide_bit, imm_encS, imm_encC, ibit_encC, d_encV, a_encV, b_encV, c_encV, cbit_encV, d_encVI, imm_encVI, sbit_encVI]
theorem RoundTrip.vred (d : SReg) (a : VField) (opr : BitVec 2) (sz : Bool) (m : MField) (wa : Bool) : RoundTrip.Statement (.vred d a opr sz m wa) := by
  intro h c w e; cases e
  simp [decodeWord, decodeLane, accept, h, encVU, encVB, encVT, encDABC, fVU, fVB, fVT, wide_top, mm_low, mm_high, mm_top, vt_low, vt_high, vt_top, st_low, st_top, one_top, bit3_pair, bit3_one, low3_one, -BitVec.getLsbD_eq_getElem, low_encV, most_encV, most_encM, fence_encM, setw_low, setw_high, show hi4 0#11 = true from rfl, wide_low, wide_high, hi4_wide, wide_bit, imm_encS, imm_encC, ibit_encC, d_encV, a_encV, b_encV, c_encV, cbit_encV, d_encVI, imm_encVI, sbit_encVI]
theorem RoundTrip.vscan (o : VU) (opr : BitVec 2) (x sz : Bool) : RoundTrip.Statement (.vscan o opr x sz) := by
  intro h c w e; cases e
  simp [decodeWord, decodeLane, accept, h, encVU, encVB, encVT, encDABC, fVU, fVB, fVT, wide_top, mm_low, mm_high, mm_top, vt_low, vt_high, vt_top, st_low, st_top, one_top, bit3_pair, bit3_one, low3_one, -BitVec.getLsbD_eq_getElem, low_encV, most_encV, most_encM, fence_encM, setw_low, setw_high, show hi4 0#11 = true from rfl, wide_low, wide_high, hi4_wide, wide_bit, imm_encS, imm_encC, ibit_encC, d_encV, a_encV, b_encV, c_encV, cbit_encV, d_encVI, imm_encVI, sbit_encVI]
theorem RoundTrip.xset (x : BitVec 3) (a : VField) (add : Bool) (m : MField) (wa : Bool) : RoundTrip.Statement (.xset x a add m wa) := by
  intro h c w e; cases e
  simp [decodeWord, decodeLane, accept, h, encVU, encVB, encVT, encDABC, fVU, fVB, fVT, wide_top, mm_low, mm_high, mm_top, vt_low, vt_high, vt_top, st_low, st_top, one_top, bit3_pair, bit3_one, low3_one, -BitVec.getLsbD_eq_getElem, low_encV, most_encV, most_encM, fence_encM, setw_low, setw_high, show hi4 0#11 = true from rfl, wide_low, wide_high, hi4_wide, wide_bit, imm_encS, imm_encC, ibit_encC, d_encV, a_encV, b_encV, c_encV, cbit_encV, d_encVI, imm_encVI, sbit_encVI]
theorem RoundTrip.xwin (x : BitVec 3) (a : VField) (len : BitVec 6) : RoundTrip.Statement (.xwin x a len) := by
  intro h c w e; cases e
  simp [decodeWord, decodeLane, accept, h, encVU, encVB, encVT, encDABC, fVU, fVB, fVT, wide_top, mm_low, mm_high, mm_top, vt_low, vt_high, vt_top, st_low, st_top, one_top, bit3_pair, bit3_one, low3_one, -BitVec.getLsbD_eq_getElem, low_encV, most_encV, most_encM, fence_encM, setw_low, setw_high, show hi4 0#11 = true from rfl, wide_low, wide_high, hi4_wide, wide_bit, imm_encS, imm_encC, ibit_encC, d_encV, a_encV, b_encV, c_encV, cbit_encV, d_encVI, imm_encVI, sbit_encVI]
theorem RoundTrip.xget (d : VField) (x : BitVec 3) (m : MField) : RoundTrip.Statement (.xget d x m) := by
  intro h c w e; cases e
  simp [decodeWord, decodeLane, accept, h, encVU, encVB, encVT, encDABC, fVU, fVB, fVT, wide_top, mm_low, mm_high, mm_top, vt_low, vt_high, vt_top, st_low, st_top, one_top, bit3_pair, bit3_one, low3_one, -BitVec.getLsbD_eq_getElem, low_encV, most_encV, most_encM, fence_encM, setw_low, setw_high, show hi4 0#11 = true from rfl, wide_low, wide_high, hi4_wide, wide_bit, imm_encS, imm_encC, ibit_encC, d_encV, a_encV, b_encV, c_encV, cbit_encV, d_encVI, imm_encVI, sbit_encVI]
theorem RoundTrip.ld (tag : BitVec 5) (o : MOp) : RoundTrip.Statement (.ld tag o) := by
  intro h c w e; cases e
  have h1 : tag.toNat % 128 < 32 := by omega
  have h2 : o.size ≠ 5#3 := by intro e; simp [Instr.wf, e] at h
  simp [decodeWord, decodeMem, accept, h, h1, h2]
theorem RoundTrip.ldRec (tag : BitVec 5) (o : MOp) : RoundTrip.Statement (.ldRec tag o) := by
  intro h c w e; cases e
  have h1 : tag.toNat % 128 < 32 := by omega
  have h2 : o.size = 5#3 := by simp [Instr.wf] at h; exact h.1.2
  simp [decodeWord, decodeMem, accept, h, h1, h2]
theorem RoundTrip.st (o : MOp) : RoundTrip.Statement (.st o) := by
  intro h c w e; cases e
  have h2 : o.size ≠ 5#3 := by intro e; simp [Instr.wf, e] at h
  simp [decodeWord, decodeMem, accept, h, h2]
theorem RoundTrip.stRec (o : MOp) : RoundTrip.Statement (.stRec o) := by
  intro h c w e; cases e
  have h2 : o.size = 5#3 := by simp [Instr.wf] at h; exact h.1.2
  simp [decodeWord, decodeMem, accept, h, h2]
theorem RoundTrip.ldu (o : MOp) : RoundTrip.Statement (.ldu o) := by
  intro h c w e; cases e
  simp [decodeWord, decodeMem, accept, h, encVU, encVB, encVT, encDABC, fVU, fVB, fVT, wide_top, mm_low, mm_high, mm_top, vt_low, vt_high, vt_top, st_low, st_top, one_top, bit3_pair, bit3_one, low3_one, -BitVec.getLsbD_eq_getElem, low_encV, most_encV, most_encM, fence_encM, setw_low, setw_high, show hi4 0#11 = true from rfl, wide_low, wide_high, hi4_wide, wide_bit, imm_encS, imm_encC, ibit_encC, d_encV, a_encV, b_encV, c_encV, cbit_encV, d_encVI, imm_encVI, sbit_encVI]
theorem RoundTrip.stu (o : MOp) : RoundTrip.Statement (.stu o) := by
  intro h c w e; cases e
  simp [decodeWord, decodeMem, accept, h, encVU, encVB, encVT, encDABC, fVU, fVB, fVT, wide_top, mm_low, mm_high, mm_top, vt_low, vt_high, vt_top, st_low, st_top, one_top, bit3_pair, bit3_one, low3_one, -BitVec.getLsbD_eq_getElem, low_encV, most_encV, most_encM, fence_encM, setw_low, setw_high, show hi4 0#11 = true from rfl, wide_low, wide_high, hi4_wide, wide_bit, imm_encS, imm_encC, ibit_encC, d_encV, a_encV, b_encV, c_encV, cbit_encV, d_encVI, imm_encVI, sbit_encVI]
theorem RoundTrip.ldc (o : MOp) : RoundTrip.Statement (.ldc o) := by
  intro h c w e; cases e
  simp [decodeWord, decodeMem, accept, h, encVU, encVB, encVT, encDABC, fVU, fVB, fVT, wide_top, mm_low, mm_high, mm_top, vt_low, vt_high, vt_top, st_low, st_top, one_top, bit3_pair, bit3_one, low3_one, -BitVec.getLsbD_eq_getElem, low_encV, most_encV, most_encM, fence_encM, setw_low, setw_high, show hi4 0#11 = true from rfl, wide_low, wide_high, hi4_wide, wide_bit, imm_encS, imm_encC, ibit_encC, d_encV, a_encV, b_encV, c_encV, cbit_encV, d_encVI, imm_encVI, sbit_encVI]
theorem RoundTrip.stc (o : MOp) : RoundTrip.Statement (.stc o) := by
  intro h c w e; cases e
  simp [decodeWord, decodeMem, accept, h, encVU, encVB, encVT, encDABC, fVU, fVB, fVT, wide_top, mm_low, mm_high, mm_top, vt_low, vt_high, vt_top, st_low, st_top, one_top, bit3_pair, bit3_one, low3_one, -BitVec.getLsbD_eq_getElem, low_encV, most_encV, most_encM, fence_encM, setw_low, setw_high, show hi4 0#11 = true from rfl, wide_low, wide_high, hi4_wide, wide_bit, imm_encS, imm_encC, ibit_encC, d_encV, a_encV, b_encV, c_encV, cbit_encV, d_encVI, imm_encVI, sbit_encVI]
theorem RoundTrip.atom (op : BitVec 4) (o : MOp) : RoundTrip.Statement (.atom op o) := by
  intro h c w e; cases e
  have h1 : op.toNat ≤ 9 := by simp only [Instr.wf, Bool.and_eq_true, decide_eq_true_eq] at h; omega
  have h2 : (37 + op.toNat) % 128 = 37 + op.toNat := by omega
  have h3 : BitVec.ofNat 4 (37 + op.toNat - 37) = op := by rw [Nat.add_sub_cancel_left]; simp
  simp only [decodeWord, decodeMem, op_encM, fMOp_encM, BitVec.toNat_ofNat, h2, h3]
  norm_num
  iterate 6 rw [if_neg (by omega)]
  rw [if_pos (by omega)]
  simp [accept, h]
theorem RoundTrip.atomu (op : BitVec 4) (o : MOp) : RoundTrip.Statement (.atomu op o) := by
  intro h c w e; cases e
  have h1 : op.toNat ≤ 9 := by simp only [Instr.wf, Bool.and_eq_true, decide_eq_true_eq] at h; omega
  have h2 : (48 + op.toNat) % 128 = 48 + op.toNat := by omega
  have h3 : BitVec.ofNat 4 (48 + op.toNat - 48) = op := by rw [Nat.add_sub_cancel_left]; simp
  simp only [decodeWord, decodeMem, op_encM, fMOp_encM, BitVec.toNat_ofNat, h2, h3]
  norm_num
  iterate 8 rw [if_neg (by omega)]
  rw [if_pos (by omega)]
  simp [accept, h]
theorem RoundTrip.fence (order scope : BitVec 3) : RoundTrip.Statement (.fence order scope) := by
  intro h c w e; cases e
  simp [decodeWord, decodeMem, accept, h, encVU, encVB, encVT, encDABC, fVU, fVB, fVT, wide_top, mm_low, mm_high, mm_top, vt_low, vt_high, vt_top, st_low, st_top, one_top, bit3_pair, bit3_one, low3_one, -BitVec.getLsbD_eq_getElem, low_encV, most_encV, most_encM, fence_encM, setw_low, setw_high, show hi4 0#11 = true from rfl, wide_low, wide_high, hi4_wide, wide_bit, imm_encS, imm_encC, ibit_encC, d_encV, a_encV, b_encV, c_encV, cbit_encV, d_encVI, imm_encVI, sbit_encVI]
theorem RoundTrip.lds (tag : BitVec 5) (o : MOp) : RoundTrip.Statement (.lds tag o) := by
  intro h c w e; cases e
  have h1 : tag.toNat % 128 < 32 := by omega
  simp [decodeWord, decodeLocal, accept, h, h1]
theorem RoundTrip.sts (o : MOp) : RoundTrip.Statement (.sts o) := by
  intro h c w e; cases e
  simp [decodeWord, decodeLocal, accept, h, encVU, encVB, encVT, encDABC, fVU, fVB, fVT, wide_top, mm_low, mm_high, mm_top, vt_low, vt_high, vt_top, st_low, st_top, one_top, bit3_pair, bit3_one, low3_one, -BitVec.getLsbD_eq_getElem, low_encV, most_encV, most_encM, fence_encM, setw_low, setw_high, show hi4 0#11 = true from rfl, wide_low, wide_high, hi4_wide, wide_bit, imm_encS, imm_encC, ibit_encC, d_encV, a_encV, b_encV, c_encV, cbit_encV, d_encVI, imm_encVI, sbit_encVI]
theorem RoundTrip.atoms (op : BitVec 4) (o : MOp) : RoundTrip.Statement (.atoms op o) := by
  intro h c w e; cases e
  have h1 : op.toNat ≤ 7 := by simp only [Instr.wf, Bool.and_eq_true, decide_eq_true_eq] at h; omega
  have h2 : (33 + op.toNat) % 128 = 33 + op.toNat := by omega
  have h3 : BitVec.ofNat 4 (33 + op.toNat - 33) = op := by rw [Nat.add_sub_cancel_left]; simp
  simp only [decodeWord, decodeLocal, op_encM, fMOp_encM, BitVec.toNat_ofNat, h2, h3]
  norm_num
  split_ifs <;> first | (exfalso; omega) | simp [accept, h]
theorem RoundTrip.ldx (tag : BitVec 5) (o : MOp) : RoundTrip.Statement (.ldx tag o) := by
  intro h c w e; cases e
  have h2 : (64 + tag.toNat) % 128 = 64 + tag.toNat := by omega
  have h3 : BitVec.ofNat 5 (64 + tag.toNat) = tag := by apply BitVec.eq_of_toNat_eq; rw [BitVec.toNat_ofNat]; have := tag.isLt; omega
  simp only [decodeWord, decodeLocal, op_encM, tag_encM, fMOp_encM, BitVec.toNat_ofNat, h2, h3]
  norm_num
  split_ifs <;> first | (exfalso; omega) | simp [accept, h]
theorem RoundTrip.stx (o : MOp) : RoundTrip.Statement (.stx o) := by
  intro h c w e; cases e
  simp [decodeWord, decodeLocal, accept, h, encVU, encVB, encVT, encDABC, fVU, fVB, fVT, wide_top, mm_low, mm_high, mm_top, vt_low, vt_high, vt_top, st_low, st_top, one_top, bit3_pair, bit3_one, low3_one, -BitVec.getLsbD_eq_getElem, low_encV, most_encV, most_encM, fence_encM, setw_low, setw_high, show hi4 0#11 = true from rfl, wide_low, wide_high, hi4_wide, wide_bit, imm_encS, imm_encC, ibit_encC, d_encV, a_encV, b_encV, c_encV, cbit_encV, d_encVI, imm_encVI, sbit_encVI]
theorem RoundTrip.atomx (op : BitVec 4) (o : MOp) : RoundTrip.Statement (.atomx op o) := by
  intro h c w e; cases e
  have h1 : op.toNat ≤ 7 := by simp only [Instr.wf, Bool.and_eq_true, decide_eq_true_eq] at h; omega
  have h2 : (97 + op.toNat) % 128 = 97 + op.toNat := by omega
  have h3 : BitVec.ofNat 4 (97 + op.toNat - 97) = op := by rw [Nat.add_sub_cancel_left]; simp
  simp only [decodeWord, decodeLocal, op_encM, fMOp_encM, BitVec.toNat_ofNat, h2, h3]
  norm_num
  split_ifs <;> first | (exfalso; omega) | simp [accept, h]
theorem RoundTrip.cgeta (o : CapOp) : RoundTrip.Statement (.cgeta o) := by
  intro h c w e; cases e
  simp [decodeWord, decodeCap, accept, h, encVU, encVB, encVT, encDABC, fVU, fVB, fVT, wide_top, mm_low, mm_high, mm_top, vt_low, vt_high, vt_top, st_low, st_top, one_top, bit3_pair, bit3_one, low3_one, -BitVec.getLsbD_eq_getElem, low_encV, most_encV, most_encM, fence_encM, setw_low, setw_high, show hi4 0#11 = true from rfl, wide_low, wide_high, hi4_wide, wide_bit, imm_encS, imm_encC, ibit_encC, d_encV, a_encV, b_encV, c_encV, cbit_encV, d_encVI, imm_encVI, sbit_encVI]
theorem RoundTrip.cgetb (o : CapOp) : RoundTrip.Statement (.cgetb o) := by
  intro h c w e; cases e
  simp [decodeWord, decodeCap, accept, h, encVU, encVB, encVT, encDABC, fVU, fVB, fVT, wide_top, mm_low, mm_high, mm_top, vt_low, vt_high, vt_top, st_low, st_top, one_top, bit3_pair, bit3_one, low3_one, -BitVec.getLsbD_eq_getElem, low_encV, most_encV, most_encM, fence_encM, setw_low, setw_high, show hi4 0#11 = true from rfl, wide_low, wide_high, hi4_wide, wide_bit, imm_encS, imm_encC, ibit_encC, d_encV, a_encV, b_encV, c_encV, cbit_encV, d_encVI, imm_encVI, sbit_encVI]
theorem RoundTrip.cgetl (o : CapOp) : RoundTrip.Statement (.cgetl o) := by
  intro h c w e; cases e
  simp [decodeWord, decodeCap, accept, h, encVU, encVB, encVT, encDABC, fVU, fVB, fVT, wide_top, mm_low, mm_high, mm_top, vt_low, vt_high, vt_top, st_low, st_top, one_top, bit3_pair, bit3_one, low3_one, -BitVec.getLsbD_eq_getElem, low_encV, most_encV, most_encM, fence_encM, setw_low, setw_high, show hi4 0#11 = true from rfl, wide_low, wide_high, hi4_wide, wide_bit, imm_encS, imm_encC, ibit_encC, d_encV, a_encV, b_encV, c_encV, cbit_encV, d_encVI, imm_encVI, sbit_encVI]
theorem RoundTrip.cgetp (o : CapOp) : RoundTrip.Statement (.cgetp o) := by
  intro h c w e; cases e
  simp [decodeWord, decodeCap, accept, h, encVU, encVB, encVT, encDABC, fVU, fVB, fVT, wide_top, mm_low, mm_high, mm_top, vt_low, vt_high, vt_top, st_low, st_top, one_top, bit3_pair, bit3_one, low3_one, -BitVec.getLsbD_eq_getElem, low_encV, most_encV, most_encM, fence_encM, setw_low, setw_high, show hi4 0#11 = true from rfl, wide_low, wide_high, hi4_wide, wide_bit, imm_encS, imm_encC, ibit_encC, d_encV, a_encV, b_encV, c_encV, cbit_encV, d_encVI, imm_encVI, sbit_encVI]
theorem RoundTrip.cgetk (o : CapOp) : RoundTrip.Statement (.cgetk o) := by
  intro h c w e; cases e
  simp [decodeWord, decodeCap, accept, h, encVU, encVB, encVT, encDABC, fVU, fVB, fVT, wide_top, mm_low, mm_high, mm_top, vt_low, vt_high, vt_top, st_low, st_top, one_top, bit3_pair, bit3_one, low3_one, -BitVec.getLsbD_eq_getElem, low_encV, most_encV, most_encM, fence_encM, setw_low, setw_high, show hi4 0#11 = true from rfl, wide_low, wide_high, hi4_wide, wide_bit, imm_encS, imm_encC, ibit_encC, d_encV, a_encV, b_encV, c_encV, cbit_encV, d_encVI, imm_encVI, sbit_encVI]
theorem RoundTrip.cgett (o : CapOp) : RoundTrip.Statement (.cgett o) := by
  intro h c w e; cases e
  simp [decodeWord, decodeCap, accept, h, encVU, encVB, encVT, encDABC, fVU, fVB, fVT, wide_top, mm_low, mm_high, mm_top, vt_low, vt_high, vt_top, st_low, st_top, one_top, bit3_pair, bit3_one, low3_one, -BitVec.getLsbD_eq_getElem, low_encV, most_encV, most_encM, fence_encM, setw_low, setw_high, show hi4 0#11 = true from rfl, wide_low, wide_high, hi4_wide, wide_bit, imm_encS, imm_encC, ibit_encC, d_encV, a_encV, b_encV, c_encV, cbit_encV, d_encVI, imm_encVI, sbit_encVI]
theorem RoundTrip.cseta (o : CapOp) : RoundTrip.Statement (.cseta o) := by
  intro h c w e; cases e
  simp [decodeWord, decodeCap, accept, h, encVU, encVB, encVT, encDABC, fVU, fVB, fVT, wide_top, mm_low, mm_high, mm_top, vt_low, vt_high, vt_top, st_low, st_top, one_top, bit3_pair, bit3_one, low3_one, -BitVec.getLsbD_eq_getElem, low_encV, most_encV, most_encM, fence_encM, setw_low, setw_high, show hi4 0#11 = true from rfl, wide_low, wide_high, hi4_wide, wide_bit, imm_encS, imm_encC, ibit_encC, d_encV, a_encV, b_encV, c_encV, cbit_encV, d_encVI, imm_encVI, sbit_encVI]
theorem RoundTrip.cinc (o : CapOp) : RoundTrip.Statement (.cinc o) := by
  intro h c w e; cases e
  simp [decodeWord, decodeCap, accept, h, encVU, encVB, encVT, encDABC, fVU, fVB, fVT, wide_top, mm_low, mm_high, mm_top, vt_low, vt_high, vt_top, st_low, st_top, one_top, bit3_pair, bit3_one, low3_one, -BitVec.getLsbD_eq_getElem, low_encV, most_encV, most_encM, fence_encM, setw_low, setw_high, show hi4 0#11 = true from rfl, wide_low, wide_high, hi4_wide, wide_bit, imm_encS, imm_encC, ibit_encC, d_encV, a_encV, b_encV, c_encV, cbit_encV, d_encVI, imm_encVI, sbit_encVI]
theorem RoundTrip.cinci (u : Bool) (d a : VField) (imm : BitVec 22) (m : MField) (wa : Bool) : RoundTrip.Statement (.cinci u d a imm m wa) := by
  intro h c w e; cases e
  simp [decodeWord, decodeCap, accept, h, encVU, encVB, encVT, encDABC, fVU, fVB, fVT, wide_top, mm_low, mm_high, mm_top, vt_low, vt_high, vt_top, st_low, st_top, one_top, bit3_pair, bit3_one, low3_one, -BitVec.getLsbD_eq_getElem, low_encV, most_encV, most_encM, fence_encM, setw_low, setw_high, show hi4 0#11 = true from rfl, wide_low, wide_high, hi4_wide, wide_bit, imm_encS, imm_encC, ibit_encC, d_encV, a_encV, b_encV, c_encV, cbit_encV, d_encVI, imm_encVI, sbit_encVI]
theorem RoundTrip.cbound (o : CapOp) : RoundTrip.Statement (.cbound o) := by
  intro h c w e; cases e
  simp [decodeWord, decodeCap, accept, h, encVU, encVB, encVT, encDABC, fVU, fVB, fVT, wide_top, mm_low, mm_high, mm_top, vt_low, vt_high, vt_top, st_low, st_top, one_top, bit3_pair, bit3_one, low3_one, -BitVec.getLsbD_eq_getElem, low_encV, most_encV, most_encM, fence_encM, setw_low, setw_high, show hi4 0#11 = true from rfl, wide_low, wide_high, hi4_wide, wide_bit, imm_encS, imm_encC, ibit_encC, d_encV, a_encV, b_encV, c_encV, cbit_encV, d_encVI, imm_encVI, sbit_encVI]
theorem RoundTrip.cboundx (o : CapOp) : RoundTrip.Statement (.cboundx o) := by
  intro h c w e; cases e
  simp [decodeWord, decodeCap, accept, h, encVU, encVB, encVT, encDABC, fVU, fVB, fVT, wide_top, mm_low, mm_high, mm_top, vt_low, vt_high, vt_top, st_low, st_top, one_top, bit3_pair, bit3_one, low3_one, -BitVec.getLsbD_eq_getElem, low_encV, most_encV, most_encM, fence_encM, setw_low, setw_high, show hi4 0#11 = true from rfl, wide_low, wide_high, hi4_wide, wide_bit, imm_encS, imm_encC, ibit_encC, d_encV, a_encV, b_encV, c_encV, cbit_encV, d_encVI, imm_encVI, sbit_encVI]
theorem RoundTrip.candp (o : CapOp) : RoundTrip.Statement (.candp o) := by
  intro h c w e; cases e
  simp [decodeWord, decodeCap, accept, h, encVU, encVB, encVT, encDABC, fVU, fVB, fVT, wide_top, mm_low, mm_high, mm_top, vt_low, vt_high, vt_top, st_low, st_top, one_top, bit3_pair, bit3_one, low3_one, -BitVec.getLsbD_eq_getElem, low_encV, most_encV, most_encM, fence_encM, setw_low, setw_high, show hi4 0#11 = true from rfl, wide_low, wide_high, hi4_wide, wide_bit, imm_encS, imm_encC, ibit_encC, d_encV, a_encV, b_encV, c_encV, cbit_encV, d_encVI, imm_encVI, sbit_encVI]
theorem RoundTrip.cseal (o : CapOp) : RoundTrip.Statement (.cseal o) := by
  intro h c w e; cases e
  simp [decodeWord, decodeCap, accept, h, encVU, encVB, encVT, encDABC, fVU, fVB, fVT, wide_top, mm_low, mm_high, mm_top, vt_low, vt_high, vt_top, st_low, st_top, one_top, bit3_pair, bit3_one, low3_one, -BitVec.getLsbD_eq_getElem, low_encV, most_encV, most_encM, fence_encM, setw_low, setw_high, show hi4 0#11 = true from rfl, wide_low, wide_high, hi4_wide, wide_bit, imm_encS, imm_encC, ibit_encC, d_encV, a_encV, b_encV, c_encV, cbit_encV, d_encVI, imm_encVI, sbit_encVI]
theorem RoundTrip.csealE (o : CapOp) : RoundTrip.Statement (.csealE o) := by
  intro h c w e; cases e
  simp [decodeWord, decodeCap, accept, h, encVU, encVB, encVT, encDABC, fVU, fVB, fVT, wide_top, mm_low, mm_high, mm_top, vt_low, vt_high, vt_top, st_low, st_top, one_top, bit3_pair, bit3_one, low3_one, -BitVec.getLsbD_eq_getElem, low_encV, most_encV, most_encM, fence_encM, setw_low, setw_high, show hi4 0#11 = true from rfl, wide_low, wide_high, hi4_wide, wide_bit, imm_encS, imm_encC, ibit_encC, d_encV, a_encV, b_encV, c_encV, cbit_encV, d_encVI, imm_encVI, sbit_encVI]
theorem RoundTrip.cunseal (o : CapOp) : RoundTrip.Statement (.cunseal o) := by
  intro h c w e; cases e
  simp [decodeWord, decodeCap, accept, h, encVU, encVB, encVT, encDABC, fVU, fVB, fVT, wide_top, mm_low, mm_high, mm_top, vt_low, vt_high, vt_top, st_low, st_top, one_top, bit3_pair, bit3_one, low3_one, -BitVec.getLsbD_eq_getElem, low_encV, most_encV, most_encM, fence_encM, setw_low, setw_high, show hi4 0#11 = true from rfl, wide_low, wide_high, hi4_wide, wide_bit, imm_encS, imm_encC, ibit_encC, d_encV, a_encV, b_encV, c_encV, cbit_encV, d_encVI, imm_encVI, sbit_encVI]
theorem RoundTrip.csub (o : CapOp) : RoundTrip.Statement (.csub o) := by
  intro h c w e; cases e
  simp [decodeWord, decodeCap, accept, h, encVU, encVB, encVT, encDABC, fVU, fVB, fVT, wide_top, mm_low, mm_high, mm_top, vt_low, vt_high, vt_top, st_low, st_top, one_top, bit3_pair, bit3_one, low3_one, -BitVec.getLsbD_eq_getElem, low_encV, most_encV, most_encM, fence_encM, setw_low, setw_high, show hi4 0#11 = true from rfl, wide_low, wide_high, hi4_wide, wide_bit, imm_encS, imm_encC, ibit_encC, d_encV, a_encV, b_encV, c_encV, cbit_encV, d_encVI, imm_encVI, sbit_encVI]
theorem RoundTrip.ceq (o : CapOp) : RoundTrip.Statement (.ceq o) := by
  intro h c w e; cases e
  simp [decodeWord, decodeCap, accept, h, encVU, encVB, encVT, encDABC, fVU, fVB, fVT, wide_top, mm_low, mm_high, mm_top, vt_low, vt_high, vt_top, st_low, st_top, one_top, bit3_pair, bit3_one, low3_one, -BitVec.getLsbD_eq_getElem, low_encV, most_encV, most_encM, fence_encM, setw_low, setw_high, show hi4 0#11 = true from rfl, wide_low, wide_high, hi4_wide, wide_bit, imm_encS, imm_encC, ibit_encC, d_encV, a_encV, b_encV, c_encV, cbit_encV, d_encVI, imm_encVI, sbit_encVI]
theorem RoundTrip.cclr (o : CapOp) : RoundTrip.Statement (.cclr o) := by
  intro h c w e; cases e
  simp [decodeWord, decodeCap, accept, h, encVU, encVB, encVT, encDABC, fVU, fVB, fVT, wide_top, mm_low, mm_high, mm_top, vt_low, vt_high, vt_top, st_low, st_top, one_top, bit3_pair, bit3_one, low3_one, -BitVec.getLsbD_eq_getElem, low_encV, most_encV, most_encM, fence_encM, setw_low, setw_high, show hi4 0#11 = true from rfl, wide_low, wide_high, hi4_wide, wide_bit, imm_encS, imm_encC, ibit_encC, d_encV, a_encV, b_encV, c_encV, cbit_encV, d_encVI, imm_encVI, sbit_encVI]
theorem RoundTrip.cmovc (o : CapOp) : RoundTrip.Statement (.cmovc o) := by
  intro h c w e; cases e
  simp [decodeWord, decodeCap, accept, h, encVU, encVB, encVT, encDABC, fVU, fVB, fVT, wide_top, mm_low, mm_high, mm_top, vt_low, vt_high, vt_top, st_low, st_top, one_top, bit3_pair, bit3_one, low3_one, -BitVec.getLsbD_eq_getElem, low_encV, most_encV, most_encM, fence_encM, setw_low, setw_high, show hi4 0#11 = true from rfl, wide_low, wide_high, hi4_wide, wide_bit, imm_encS, imm_encC, ibit_encC, d_encV, a_encV, b_encV, c_encV, cbit_encV, d_encVI, imm_encVI, sbit_encVI]
theorem RoundTrip.cmovcX (o : CapOp) : RoundTrip.Statement (.cmovcX o) := by
  intro h c w e; cases e
  simp [decodeWord, decodeCap, accept, h, encVU, encVB, encVT, encDABC, fVU, fVB, fVT, wide_top, mm_low, mm_high, mm_top, vt_low, vt_high, vt_top, st_low, st_top, one_top, bit3_pair, bit3_one, low3_one, -BitVec.getLsbD_eq_getElem, low_encV, most_encV, most_encM, fence_encM, setw_low, setw_high, show hi4 0#11 = true from rfl, wide_low, wide_high, hi4_wide, wide_bit, imm_encS, imm_encC, ibit_encC, d_encV, a_encV, b_encV, c_encV, cbit_encV, d_encVI, imm_encVI, sbit_encVI]
theorem RoundTrip.creg (d : SReg) (a b : VField) : RoundTrip.Statement (.creg d a b) := by
  intro h c w e; cases e
  simp [decodeWord, decodeCap, accept, h, encCap, fCap, -BitVec.getLsbD_eq_getElem, wide_low, wide_high, hi4_wide, d_encV, a_encV, b_encV, c_encV, cbit_encV]
theorem RoundTrip.csweep (d a b : SReg) : RoundTrip.Statement (.csweep d a b) := by
  intro h c w e; cases e
  simp [decodeWord, decodeCap, accept, h, encCap, fCap, -BitVec.getLsbD_eq_getElem, wide_low, wide_high, hi4_wide, d_encV, a_encV, b_encV, c_encV, cbit_encV]
theorem RoundTrip.cmint (d : SReg) (a : BitVec 4) (b : SReg) : RoundTrip.Statement (.cmint d a b) := by
  intro h c w e; cases e
  simp [decodeWord, decodeCap, accept, h, encCap, fCap, -BitVec.getLsbD_eq_getElem, wide_low, wide_high, hi4_wide, d_encV, a_encV, b_encV, c_encV, cbit_encV]
theorem RoundTrip.send (d a b : VField) (ofs : BitVec 9) (m : MField) (wa wb : Bool) : RoundTrip.Statement (.send d a b ofs m wa wb) := by
  intro h c w e; cases e
  simp [decodeWord, decodeRemote, accept, h, encVU, encVB, encVT, encDABC, fVU, fVB, fVT, wide_top, mm_low, mm_high, mm_top, vt_low, vt_high, vt_top, st_low, st_top, one_top, bit3_pair, bit3_one, low3_one, -BitVec.getLsbD_eq_getElem, low_encV, most_encV, most_encM, fence_encM, setw_low, setw_high, show hi4 0#11 = true from rfl, wide_low, wide_high, hi4_wide, wide_bit, imm_encS, imm_encC, ibit_encC, d_encV, a_encV, b_encV, c_encV, cbit_encV, d_encVI, imm_encVI, sbit_encVI]
theorem RoundTrip.sendm (d a b : VField) (ofs : BitVec 9) (nm1 : BitVec 2) (m : MField) (wa wb : Bool) : RoundTrip.Statement (.sendm d a b ofs nm1 m wa wb) := by
  intro h c w e; cases e
  simp [decodeWord, decodeRemote, accept, h, encVU, encVB, encVT, encDABC, fVU, fVB, fVT, wide_top, mm_low, mm_high, mm_top, vt_low, vt_high, vt_top, st_low, st_top, one_top, bit3_pair, bit3_one, low3_one, -BitVec.getLsbD_eq_getElem, low_encV, most_encV, most_encM, fence_encM, setw_low, setw_high, show hi4 0#11 = true from rfl, wide_low, wide_high, hi4_wide, wide_bit, imm_encS, imm_encC, ibit_encC, d_encV, a_encV, b_encV, c_encV, cbit_encV, d_encVI, imm_encVI, sbit_encVI]
theorem RoundTrip.empty (d : VField) (nm1 : BitVec 6) : RoundTrip.Statement (.empty d nm1) := by
  intro h c w e; cases e
  simp [decodeWord, decodeRemote, accept, h, encVU, encVB, encVT, encDABC, fVU, fVB, fVT, wide_top, mm_low, mm_high, mm_top, vt_low, vt_high, vt_top, st_low, st_top, one_top, bit3_pair, bit3_one, low3_one, -BitVec.getLsbD_eq_getElem, low_encV, most_encV, most_encM, fence_encM, setw_low, setw_high, show hi4 0#11 = true from rfl, wide_low, wide_high, hi4_wide, wide_bit, imm_encS, imm_encC, ibit_encC, d_encV, a_encV, b_encV, c_encV, cbit_encV, d_encVI, imm_encVI, sbit_encVI]
theorem RoundTrip.isfull (d : SReg) (a : VField) (nm1 : BitVec 6) : RoundTrip.Statement (.isfull d a nm1) := by
  intro h c w e; cases e
  simp [decodeWord, decodeRemote, accept, h, encVU, encVB, encVT, encDABC, fVU, fVB, fVT, wide_top, mm_low, mm_high, mm_top, vt_low, vt_high, vt_top, st_low, st_top, one_top, bit3_pair, bit3_one, low3_one, -BitVec.getLsbD_eq_getElem, low_encV, most_encV, most_encM, fence_encM, setw_low, setw_high, show hi4 0#11 = true from rfl, wide_low, wide_high, hi4_wide, wide_bit, imm_encS, imm_encC, ibit_encC, d_encV, a_encV, b_encV, c_encV, cbit_encV, d_encVI, imm_encVI, sbit_encVI]
theorem RoundTrip.rtchk (d a b : VField) (capchk : Bool) (m : MField) (wa wb : Bool) : RoundTrip.Statement (.rtchk d a b capchk m wa wb) := by
  intro h c w e; cases e
  simp [decodeWord, decodeRemote, accept, h, encVU, encVB, encVT, encDABC, fVU, fVB, fVT, wide_top, mm_low, mm_high, mm_top, vt_low, vt_high, vt_top, st_low, st_top, one_top, bit3_pair, bit3_one, low3_one, -BitVec.getLsbD_eq_getElem, low_encV, most_encV, most_encM, fence_encM, setw_low, setw_high, show hi4 0#11 = true from rfl, wide_low, wide_high, hi4_wide, wide_bit, imm_encS, imm_encC, ibit_encC, d_encV, a_encV, b_encV, c_encV, cbit_encV, d_encVI, imm_encVI, sbit_encVI]
theorem RoundTrip.cpy (o : CpyOp) : RoundTrip.Statement (.cpy o) := by
  intro h c w e; cases e
  simp [decodeWord, decodeCopy, accept, h, encVU, encVB, encVT, encDABC, fVU, fVB, fVT, wide_top, mm_low, mm_high, mm_top, vt_low, vt_high, vt_top, st_low, st_top, one_top, bit3_pair, bit3_one, low3_one, -BitVec.getLsbD_eq_getElem, low_encV, most_encV, most_encM, fence_encM, setw_low, setw_high, show hi4 0#11 = true from rfl, wide_low, wide_high, hi4_wide, wide_bit, imm_encS, imm_encC, ibit_encC, d_encV, a_encV, b_encV, c_encV, cbit_encV, d_encVI, imm_encVI, sbit_encVI]
theorem RoundTrip.cpyt (o : CpyOp) : RoundTrip.Statement (.cpyt o) := by
  intro h c w e; cases e
  simp [decodeWord, decodeCopy, accept, h, encVU, encVB, encVT, encDABC, fVU, fVB, fVT, wide_top, mm_low, mm_high, mm_top, vt_low, vt_high, vt_top, st_low, st_top, one_top, bit3_pair, bit3_one, low3_one, -BitVec.getLsbD_eq_getElem, low_encV, most_encV, most_encM, fence_encM, setw_low, setw_high, show hi4 0#11 = true from rfl, wide_low, wide_high, hi4_wide, wide_bit, imm_encS, imm_encC, ibit_encC, d_encV, a_encV, b_encV, c_encV, cbit_encV, d_encVI, imm_encVI, sbit_encVI]
theorem RoundTrip.cpyg (o : CpyOp) (esz : BitVec 3) : RoundTrip.Statement (.cpyg o esz) := by
  intro h c w e; cases e
  simp [decodeWord, decodeCopy, accept, h, encVU, encVB, encVT, encDABC, fVU, fVB, fVT, wide_top, mm_low, mm_high, mm_top, vt_low, vt_high, vt_top, st_low, st_top, one_top, bit3_pair, bit3_one, low3_one, -BitVec.getLsbD_eq_getElem, low_encV, most_encV, most_encM, fence_encM, setw_low, setw_high, show hi4 0#11 = true from rfl, wide_low, wide_high, hi4_wide, wide_bit, imm_encS, imm_encC, ibit_encC, d_encV, a_encV, b_encV, c_encV, cbit_encV, d_encVI, imm_encVI, sbit_encVI]
theorem RoundTrip.cpys (o : CpyOp) (esz : BitVec 3) : RoundTrip.Statement (.cpys o esz) := by
  intro h c w e; cases e
  simp [decodeWord, decodeCopy, accept, h, encVU, encVB, encVT, encDABC, fVU, fVB, fVT, wide_top, mm_low, mm_high, mm_top, vt_low, vt_high, vt_top, st_low, st_top, one_top, bit3_pair, bit3_one, low3_one, -BitVec.getLsbD_eq_getElem, low_encV, most_encV, most_encM, fence_encM, setw_low, setw_high, show hi4 0#11 = true from rfl, wide_low, wide_high, hi4_wide, wide_bit, imm_encS, imm_encC, ibit_encC, d_encV, a_encV, b_encV, c_encV, cbit_encV, d_encVI, imm_encVI, sbit_encVI]
theorem RoundTrip.kinit (a : BitVec 5) : RoundTrip.Statement (.kinit a) := by
  intro h c w e; cases e
  simp [decodeWord, decodeCopy, accept, h, encVU, encVB, encVT, encDABC, fVU, fVB, fVT, wide_top, mm_low, mm_high, mm_top, vt_low, vt_high, vt_top, st_low, st_top, one_top, bit3_pair, bit3_one, low3_one, -BitVec.getLsbD_eq_getElem, low_encV, most_encV, most_encM, fence_encM, setw_low, setw_high, show hi4 0#11 = true from rfl, wide_low, wide_high, hi4_wide, wide_bit, imm_encS, imm_encC, ibit_encC, d_encV, a_encV, b_encV, c_encV, cbit_encV, d_encVI, imm_encVI, sbit_encVI]
theorem RoundTrip.kinitR (a d : SReg) : RoundTrip.Statement (.kinitR a d) := by
  intro h c w e; cases e
  simp [decodeWord, decodeCopy, accept, h, encVU, encVB, encVT, encDABC, fVU, fVB, fVT, wide_top, mm_low, mm_high, mm_top, vt_low, vt_high, vt_top, st_low, st_top, one_top, bit3_pair, bit3_one, low3_one, -BitVec.getLsbD_eq_getElem, low_encV, most_encV, most_encM, fence_encM, setw_low, setw_high, show hi4 0#11 = true from rfl, wide_low, wide_high, hi4_wide, wide_bit, imm_encS, imm_encC, ibit_encC, d_encV, a_encV, b_encV, c_encV, cbit_encV, d_encVI, imm_encVI, sbit_encVI]
theorem RoundTrip.kacq (d : SReg) (a : BitVec 5) (nb : Bool) : RoundTrip.Statement (.kacq d a nb) := by
  intro h c w e; cases e
  simp [decodeWord, decodeCopy, accept, h, encVU, encVB, encVT, encDABC, fVU, fVB, fVT, wide_top, mm_low, mm_high, mm_top, vt_low, vt_high, vt_top, st_low, st_top, one_top, bit3_pair, bit3_one, low3_one, -BitVec.getLsbD_eq_getElem, low_encV, most_encV, most_encM, fence_encM, setw_low, setw_high, show hi4 0#11 = true from rfl, wide_low, wide_high, hi4_wide, wide_bit, imm_encS, imm_encC, ibit_encC, d_encV, a_encV, b_encV, c_encV, cbit_encV, d_encVI, imm_encVI, sbit_encVI]
theorem RoundTrip.karr (a b : SReg) : RoundTrip.Statement (.karr a b) := by
  intro h c w e; cases e
  simp [decodeWord, decodeCopy, accept, h, encVU, encVB, encVT, encDABC, fVU, fVB, fVT, wide_top, mm_low, mm_high, mm_top, vt_low, vt_high, vt_top, st_low, st_top, one_top, bit3_pair, bit3_one, low3_one, -BitVec.getLsbD_eq_getElem, low_encV, most_encV, most_encM, fence_encM, setw_low, setw_high, show hi4 0#11 = true from rfl, wide_low, wide_high, hi4_wide, wide_bit, imm_encS, imm_encC, ibit_encC, d_encV, a_encV, b_encV, c_encV, cbit_encV, d_encVI, imm_encVI, sbit_encVI]
theorem RoundTrip.karrC (d a b : SReg) : RoundTrip.Statement (.karrC d a b) := by
  intro h c w e; cases e
  simp [decodeWord, decodeCopy, accept, h, encVU, encVB, encVT, encDABC, fVU, fVB, fVT, wide_top, mm_low, mm_high, mm_top, vt_low, vt_high, vt_top, st_low, st_top, one_top, bit3_pair, bit3_one, low3_one, -BitVec.getLsbD_eq_getElem, low_encV, most_encV, most_encM, fence_encM, setw_low, setw_high, show hi4 0#11 = true from rfl, wide_low, wide_high, hi4_wide, wide_bit, imm_encS, imm_encC, ibit_encC, d_encV, a_encV, b_encV, c_encV, cbit_encV, d_encVI, imm_encVI, sbit_encVI]
theorem RoundTrip.kwait (a : SReg) : RoundTrip.Statement (.kwait a) := by
  intro h c w e; cases e
  simp [decodeWord, decodeCopy, accept, h, encVU, encVB, encVT, encDABC, fVU, fVB, fVT, wide_top, mm_low, mm_high, mm_top, vt_low, vt_high, vt_top, st_low, st_top, one_top, bit3_pair, bit3_one, low3_one, -BitVec.getLsbD_eq_getElem, low_encV, most_encV, most_encM, fence_encM, setw_low, setw_high, show hi4 0#11 = true from rfl, wide_low, wide_high, hi4_wide, wide_bit, imm_encS, imm_encC, ibit_encC, d_encV, a_encV, b_encV, c_encV, cbit_encV, d_encVI, imm_encVI, sbit_encVI]
theorem RoundTrip.krel (a : SReg) : RoundTrip.Statement (.krel a) := by
  intro h c w e; cases e
  simp [decodeWord, decodeCopy, accept, h, encVU, encVB, encVT, encDABC, fVU, fVB, fVT, wide_top, mm_low, mm_high, mm_top, vt_low, vt_high, vt_top, st_low, st_top, one_top, bit3_pair, bit3_one, low3_one, -BitVec.getLsbD_eq_getElem, low_encV, most_encV, most_encM, fence_encM, setw_low, setw_high, show hi4 0#11 = true from rfl, wide_low, wide_high, hi4_wide, wide_bit, imm_encS, imm_encC, ibit_encC, d_encV, a_encV, b_encV, c_encV, cbit_encV, d_encVI, imm_encVI, sbit_encVI]
theorem RoundTrip.ksend (d a : VField) (b : SReg) : RoundTrip.Statement (.ksend d a b) := by
  intro h c w e; cases e
  simp [decodeWord, decodeCopy, accept, h, encVU, encVB, encVT, encDABC, fVU, fVB, fVT, wide_top, mm_low, mm_high, mm_top, vt_low, vt_high, vt_top, st_low, st_top, one_top, bit3_pair, bit3_one, low3_one, -BitVec.getLsbD_eq_getElem, low_encV, most_encV, most_encM, fence_encM, setw_low, setw_high, show hi4 0#11 = true from rfl, wide_low, wide_high, hi4_wide, wide_bit, imm_encS, imm_encC, ibit_encC, d_encV, a_encV, b_encV, c_encV, cbit_encV, d_encVI, imm_encVI, sbit_encVI]
theorem RoundTrip.kstat (d a : SReg) (var : BitVec 2) : RoundTrip.Statement (.kstat d a var) := by
  intro h c w e; cases e
  simp [decodeWord, decodeCopy, accept, h, encVU, encVB, encVT, encDABC, fVU, fVB, fVT, wide_top, mm_low, mm_high, mm_top, vt_low, vt_high, vt_top, st_low, st_top, one_top, bit3_pair, bit3_one, low3_one, -BitVec.getLsbD_eq_getElem, low_encV, most_encV, most_encM, fence_encM, setw_low, setw_high, show hi4 0#11 = true from rfl, wide_low, wide_high, hi4_wide, wide_bit, imm_encS, imm_encC, ibit_encC, d_encV, a_encV, b_encV, c_encV, cbit_encV, d_encVI, imm_encVI, sbit_encVI]
theorem RoundTrip.mmap (a b : SReg) (om : BitVec 3) : RoundTrip.Statement (.mmap a b om) := by
  intro h c w e; cases e
  simp [decodeWord, decodeMatrix, accept, h, encVU, encVB, encVT, encDABC, fVU, fVB, fVT, wide_top, mm_low, mm_high, mm_top, vt_low, vt_high, vt_top, st_low, st_top, one_top, bit3_pair, bit3_one, low3_one, -BitVec.getLsbD_eq_getElem, low_encV, most_encV, most_encM, fence_encM, setw_low, setw_high, show hi4 0#11 = true from rfl, wide_low, wide_high, hi4_wide, wide_bit, imm_encS, imm_encC, ibit_encC, d_encV, a_encV, b_encV, c_encV, cbit_encV, d_encVI, imm_encVI, sbit_encVI]
theorem RoundTrip.mzero (tile : BitVec 3) : RoundTrip.Statement (.mzero tile) := by
  intro h c w e; cases e
  simp [decodeWord, decodeMatrix, accept, h, encVU, encVB, encVT, encDABC, fVU, fVB, fVT, wide_top, mm_low, mm_high, mm_top, vt_low, vt_high, vt_top, st_low, st_top, one_top, bit3_pair, bit3_one, low3_one, -BitVec.getLsbD_eq_getElem, low_encV, most_encV, most_encM, fence_encM, setw_low, setw_high, show hi4 0#11 = true from rfl, wide_low, wide_high, hi4_wide, wide_bit, imm_encS, imm_encC, ibit_encC, d_encV, a_encV, b_encV, c_encV, cbit_encV, d_encVI, imm_encVI, sbit_encVI]
theorem RoundTrip.mload (a b : SReg) (tile : BitVec 3) : RoundTrip.Statement (.mload a b tile) := by
  intro h c w e; cases e
  simp [decodeWord, decodeMatrix, accept, h, encVU, encVB, encVT, encDABC, fVU, fVB, fVT, wide_top, mm_low, mm_high, mm_top, vt_low, vt_high, vt_top, st_low, st_top, one_top, bit3_pair, bit3_one, low3_one, -BitVec.getLsbD_eq_getElem, low_encV, most_encV, most_encM, fence_encM, setw_low, setw_high, show hi4 0#11 = true from rfl, wide_low, wide_high, hi4_wide, wide_bit, imm_encS, imm_encC, ibit_encC, d_encV, a_encV, b_encV, c_encV, cbit_encV, d_encVI, imm_encVI, sbit_encVI]
theorem RoundTrip.mloop (ma mb : BitVec 3) (b : SReg) (tile : BitVec 3) : RoundTrip.Statement (.mloop ma mb b tile) := by
  intro h c w e; cases e
  simp [decodeWord, decodeMatrix, accept, h, encVU, encVB, encVT, encDABC, fVU, fVB, fVT, wide_top, mm_low, mm_high, mm_top, vt_low, vt_high, vt_top, st_low, st_top, one_top, bit3_pair, bit3_one, low3_one, -BitVec.getLsbD_eq_getElem, low_encV, most_encV, most_encM, fence_encM, setw_low, setw_high, show hi4 0#11 = true from rfl, wide_low, wide_high, hi4_wide, wide_bit, imm_encS, imm_encC, ibit_encC, d_encV, a_encV, b_encV, c_encV, cbit_encV, d_encVI, imm_encVI, sbit_encVI]
theorem RoundTrip.mloopResume (ma mb : BitVec 3) (b : SReg) (tile : BitVec 3) : RoundTrip.Statement (.mloopResume ma mb b tile) := by
  intro h c w e; cases e
  simp [decodeWord, decodeMatrix, accept, h, encVU, encVB, encVT, encDABC, fVU, fVB, fVT, wide_top, mm_low, mm_high, mm_top, vt_low, vt_high, vt_top, st_low, st_top, one_top, bit3_pair, bit3_one, low3_one, -BitVec.getLsbD_eq_getElem, low_encV, most_encV, most_encM, fence_encM, setw_low, setw_high, show hi4 0#11 = true from rfl, wide_low, wide_high, hi4_wide, wide_bit, imm_encS, imm_encC, ibit_encC, d_encV, a_encV, b_encV, c_encV, cbit_encV, d_encVI, imm_encVI, sbit_encVI]
theorem RoundTrip.mdrain (d a b : SReg) (tile : BitVec 3) (sys : Bool) : RoundTrip.Statement (.mdrain d a b tile sys) := by
  intro h c w e; cases e
  simp [decodeWord, decodeMatrix, accept, h, encVU, encVB, encVT, encDABC, fVU, fVB, fVT, wide_top, mm_low, mm_high, mm_top, vt_low, vt_high, vt_top, st_low, st_top, one_top, bit3_pair, bit3_one, low3_one, -BitVec.getLsbD_eq_getElem, low_encV, most_encV, most_encM, fence_encM, setw_low, setw_high, show hi4 0#11 = true from rfl, wide_low, wide_high, hi4_wide, wide_bit, imm_encS, imm_encC, ibit_encC, d_encV, a_encV, b_encV, c_encV, cbit_encV, d_encVI, imm_encVI, sbit_encVI]
theorem RoundTrip.mwait (d : SReg) (tile : BitVec 3) : RoundTrip.Statement (.mwait d tile) := by
  intro h c w e; cases e
  simp [decodeWord, decodeMatrix, accept, h, encVU, encVB, encVT, encDABC, fVU, fVB, fVT, wide_top, mm_low, mm_high, mm_top, vt_low, vt_high, vt_top, st_low, st_top, one_top, bit3_pair, bit3_one, low3_one, -BitVec.getLsbD_eq_getElem, low_encV, most_encV, most_encM, fence_encM, setw_low, setw_high, show hi4 0#11 = true from rfl, wide_low, wide_high, hi4_wide, wide_bit, imm_encS, imm_encC, ibit_encC, d_encV, a_encV, b_encV, c_encV, cbit_encV, d_encVI, imm_encVI, sbit_encVI]
theorem RoundTrip.mprog (d : SReg) (tile : BitVec 3) (var : BitVec 2) : RoundTrip.Statement (.mprog d tile var) := by
  intro h c w e; cases e
  simp [decodeWord, decodeMatrix, accept, h, encVU, encVB, encVT, encDABC, fVU, fVB, fVT, wide_top, mm_low, mm_high, mm_top, vt_low, vt_high, vt_top, st_low, st_top, one_top, bit3_pair, bit3_one, low3_one, -BitVec.getLsbD_eq_getElem, low_encV, most_encV, most_encM, fence_encM, setw_low, setw_high, show hi4 0#11 = true from rfl, wide_low, wide_high, hi4_wide, wide_bit, imm_encS, imm_encC, ibit_encC, d_encV, a_encV, b_encV, c_encV, cbit_encV, d_encVI, imm_encVI, sbit_encVI]
theorem RoundTrip.quadrantChoice (core q : Nat) : RoundTrip.Statement (.quadrantChoice core q) := by
  intro _ c w e; cases e
theorem RoundTrip.clauseBreak (at_ : Site) : RoundTrip.Statement (.clauseBreak at_) := by
  intro _ c w e; cases e
theorem RoundTrip.overflowRotation (g : GroupId) : RoundTrip.Statement (.overflowRotation g) := by
  intro _ c w e; cases e
theorem RoundTrip.trapDelivery (g : GroupId) : RoundTrip.Statement (.trapDelivery g) := by
  intro _ c w e; cases e
theorem RoundTrip.lateFault (g : GroupId) (lanes : Lanes) (whole : Bool) (cause : Cause) (addr : W64) : RoundTrip.Statement (.lateFault g lanes whole cause addr) := by
  intro _ c w e; cases e
theorem RoundTrip.loadReturn (g : GroupId) (id : Nat) : RoundTrip.Statement (.loadReturn g id) := by
  intro _ c w e; cases e
theorem RoundTrip.storeAccept (core : Nat) : RoundTrip.Statement (.storeAccept core) := by
  intro _ c w e; cases e
theorem RoundTrip.tlbWalk (core index : Nat) : RoundTrip.Statement (.tlbWalk core index) := by
  intro _ c w e; cases e
theorem RoundTrip.walkFail (core index : Nat) (cause : Cause) : RoundTrip.Statement (.walkFail core index cause) := by
  intro _ c w e; cases e
theorem RoundTrip.hearthAgeTrigger (core index : Nat) : RoundTrip.Statement (.hearthAgeTrigger core index) := by
  intro _ c w e; cases e
theorem RoundTrip.entryLeave (core index : Nat) : RoundTrip.Statement (.entryLeave core index) := by
  intro _ c w e; cases e
theorem RoundTrip.homeAtomic (g : GroupId) (id : Nat) : RoundTrip.Statement (.homeAtomic g id) := by
  intro _ c w e; cases e
theorem RoundTrip.scratchWriteDone (g : GroupId) (id : Nat) : RoundTrip.Statement (.scratchWriteDone g id) := by
  intro _ c w e; cases e
theorem RoundTrip.clusterAccessDone (g : GroupId) (id : Nat) : RoundTrip.Statement (.clusterAccessDone g id) := by
  intro _ c w e; cases e
theorem RoundTrip.read (line core : Nat) : RoundTrip.Statement (.read line core) := by
  intro _ c w e; cases e
theorem RoundTrip.readNew (line : Nat) (g : GroupId) (id : Nat) : RoundTrip.Statement (.readNew line g id) := by
  intro _ c w e; cases e
theorem RoundTrip.grantReq (line core : Nat) (mark engine : Bool) : RoundTrip.Statement (.grantReq line core mark engine) := by
  intro _ c w e; cases e
theorem RoundTrip.grant (line core : Nat) (engine : Bool) : RoundTrip.Statement (.grant line core engine) := by
  intro _ c w e; cases e
theorem RoundTrip.recall (line core : Nat) : RoundTrip.Statement (.recall line core) := by
  intro _ c w e; cases e
theorem RoundTrip.grantBack (line core : Nat) : RoundTrip.Statement (.grantBack line core) := by
  intro _ c w e; cases e
theorem RoundTrip.promote (line core : Nat) : RoundTrip.Statement (.promote line core) := by
  intro _ c w e; cases e
theorem RoundTrip.fwd (line core reader : Nat) : RoundTrip.Statement (.fwd line core reader) := by
  intro _ c w e; cases e
theorem RoundTrip.fwdData (line reader : Nat) (data : LineData) (tags : BitVec 8) : RoundTrip.Statement (.fwdData line reader data tags) := by
  intro _ c w e; cases e
theorem RoundTrip.drainData (line core index : Nat) (more : Bool) : RoundTrip.Statement (.drainData line core index more) := by
  intro _ c w e; cases e
theorem RoundTrip.drainProv (line core index : Nat) : RoundTrip.Statement (.drainProv line core index) := by
  intro _ c w e; cases e
theorem RoundTrip.commit (line core index : Nat) (more : Bool) : RoundTrip.Statement (.commit line core index more) := by
  intro _ c w e; cases e
theorem RoundTrip.ack (core index : Nat) (endMark : Bool) : RoundTrip.Statement (.ack core index endMark) := by
  intro _ c w e; cases e
theorem RoundTrip.inval (line site : Nat) : RoundTrip.Statement (.inval line site) := by
  intro _ c w e; cases e
theorem RoundTrip.invalAck (line site : Nat) : RoundTrip.Statement (.invalAck line site) := by
  intro _ c w e; cases e
theorem RoundTrip.hostWriteAccept (core index : Nat) : RoundTrip.Statement (.hostWriteAccept core index) := by
  intro _ c w e; cases e
theorem RoundTrip.memoryServe (ctrl : Nat) : RoundTrip.Statement (.memoryServe ctrl) := by
  intro _ c w e; cases e
theorem RoundTrip.packetTake (die q : Nat) : RoundTrip.Statement (.packetTake die q) := by
  intro _ c w e; cases e
theorem RoundTrip.dependenceReeval (die q : Nat) : RoundTrip.Statement (.dependenceReeval die q) := by
  intro _ c w e; cases e
theorem RoundTrip.teamPlace (grid : Nat) : RoundTrip.Statement (.teamPlace grid) := by
  intro _ c w e; cases e
theorem RoundTrip.rickPlace (grid : Nat) : RoundTrip.Statement (.rickPlace grid) := by
  intro _ c w e; cases e
theorem RoundTrip.rickReserve (grid cluster : Nat) : RoundTrip.Statement (.rickReserve grid cluster) := by
  intro _ c w e; cases e
theorem RoundTrip.rickWithdraw (cluster : Nat) : RoundTrip.Statement (.rickWithdraw cluster) := by
  intro _ c w e; cases e
theorem RoundTrip.reservationTimeout (cluster : Nat) : RoundTrip.Statement (.reservationTimeout cluster) := by
  intro _ c w e; cases e
theorem RoundTrip.reservationPauseEnd (cluster : Nat) : RoundTrip.Statement (.reservationPauseEnd cluster) := by
  intro _ c w e; cases e
theorem RoundTrip.nonrickReserve (grid cluster : Nat) : RoundTrip.Statement (.nonrickReserve grid cluster) := by
  intro _ c w e; cases e
theorem RoundTrip.teamRetire (core slot : Nat) : RoundTrip.Statement (.teamRetire core slot) := by
  intro _ c w e; cases e
theorem RoundTrip.bankRequest (core slot : Nat) (why : BankReason) : RoundTrip.Statement (.bankRequest core slot why) := by
  intro _ c w e; cases e
theorem RoundTrip.bankTimeout (core slot : Nat) : RoundTrip.Statement (.bankTimeout core slot) := by
  intro _ c w e; cases e
theorem RoundTrip.bankCollect (core slot : Nat) : RoundTrip.Statement (.bankCollect core slot) := by
  intro _ c w e; cases e
theorem RoundTrip.saveTimeout (core slot : Nat) : RoundTrip.Statement (.saveTimeout core slot) := by
  intro _ c w e; cases e
theorem RoundTrip.rekindle (image : Nat) : RoundTrip.Statement (.rekindle image) := by
  intro _ c w e; cases e
theorem RoundTrip.watchdogExpiry (die q : Nat) : RoundTrip.Statement (.watchdogExpiry die q) := by
  intro _ c w e; cases e
theorem RoundTrip.forcedEntryLog (core index : Nat) : RoundTrip.Statement (.forcedEntryLog core index) := by
  intro _ c w e; cases e
theorem RoundTrip.sweepCorePhase (tenant core : Nat) : RoundTrip.Statement (.sweepCorePhase tenant core) := by
  intro _ c w e; cases e
theorem RoundTrip.sweepMemoryPhase (tenant : Nat) : RoundTrip.Statement (.sweepMemoryPhase tenant) := by
  intro _ c w e; cases e
theorem RoundTrip.sweepComplete (tenant : Nat) : RoundTrip.Statement (.sweepComplete tenant) := by
  intro _ c w e; cases e
theorem RoundTrip.ringNotify (g : GroupId) (core slot : Nat) (value : BitVec 32) : RoundTrip.Statement (.ringNotify g core slot value) := by
  intro _ c w e; cases e
theorem RoundTrip.entryAccept (core slot : Nat) : RoundTrip.Statement (.entryAccept core slot) := by
  intro _ c w e; cases e
theorem RoundTrip.copyChunk (core slot : Nat) (cmd : Nat) : RoundTrip.Statement (.copyChunk core slot cmd) := by
  intro _ c w e; cases e
theorem RoundTrip.ksendArrival (packet : Nat) : RoundTrip.Statement (.ksendArrival packet) := by
  intro _ c w e; cases e
theorem RoundTrip.matrixAccept (core : Nat) : RoundTrip.Statement (.matrixAccept core) := by
  intro _ c w e; cases e
theorem RoundTrip.matrixStep (core : Nat) : RoundTrip.Statement (.matrixStep core) := by
  intro _ c w e; cases e
theorem RoundTrip.matrixZeroPerform (core : Nat) : RoundTrip.Statement (.matrixZeroPerform core) := by
  intro _ c w e; cases e
theorem RoundTrip.matrixLoadPerform (core : Nat) : RoundTrip.Statement (.matrixLoadPerform core) := by
  intro _ c w e; cases e
theorem RoundTrip.matrixDrainPerform (core : Nat) : RoundTrip.Statement (.matrixDrainPerform core) := by
  intro _ c w e; cases e
theorem RoundTrip.amaxAtomic (core : Nat) : RoundTrip.Statement (.amaxAtomic core) := by
  intro _ c w e; cases e
theorem RoundTrip.packetHop (packet : Nat) : RoundTrip.Statement (.packetHop packet) := by
  intro _ c w e; cases e
theorem RoundTrip.sendDeliver (packet : Nat) : RoundTrip.Statement (.sendDeliver packet) := by
  intro _ c w e; cases e
theorem RoundTrip.responseArrival (g : GroupId) (seq reason hop : Nat) : RoundTrip.Statement (.responseArrival g seq reason hop) := by
  intro _ c w e; cases e
theorem RoundTrip.sendTimeout (g : GroupId) (seq : Nat) : RoundTrip.Statement (.sendTimeout g seq) := by
  intro _ c w e; cases e
theorem RoundTrip.illegalOp (cls : BitVec 4) (word : W64) : RoundTrip.Statement (.illegalOp cls word) := by
  intro _ c w e; cases e
theorem RoundTrip.nop : RoundTrip.Statement (.nop) := by
  intro h c w e; cases e
  simp [decodeWord, decodeCtrl, accept, h, encVU, encVB, encVT, encDABC, fVU, fVB, fVT, wide_top, mm_low, mm_high, mm_top, vt_low, vt_high, vt_top, st_low, st_top, one_top, bit3_pair, bit3_one, low3_one, -BitVec.getLsbD_eq_getElem, low_encV, most_encV, most_encM, fence_encM, setw_low, setw_high, show hi4 0#11 = true from rfl, wide_low, wide_high, hi4_wide, wide_bit, imm_encS, imm_encC, ibit_encC, d_encV, a_encV, b_encV, c_encV, cbit_encV, d_encVI, imm_encVI, sbit_encVI]
theorem RoundTrip.retX : RoundTrip.Statement (.retX) := by
  intro h c w e; cases e
  simp [decodeWord, decodeCtrl, accept, h, encVU, encVB, encVT, encDABC, fVU, fVB, fVT, wide_top, mm_low, mm_high, mm_top, vt_low, vt_high, vt_top, st_low, st_top, one_top, bit3_pair, bit3_one, low3_one, -BitVec.getLsbD_eq_getElem, low_encV, most_encV, most_encM, fence_encM, setw_low, setw_high, show hi4 0#11 = true from rfl, wide_low, wide_high, hi4_wide, wide_bit, imm_encS, imm_encC, ibit_encC, d_encV, a_encV, b_encV, c_encV, cbit_encV, d_encVI, imm_encVI, sbit_encVI]
theorem RoundTrip.exit : RoundTrip.Statement (.exit) := by
  intro h c w e; cases e
  simp [decodeWord, decodeCtrl, accept, h, encVU, encVB, encVT, encDABC, fVU, fVB, fVT, wide_top, mm_low, mm_high, mm_top, vt_low, vt_high, vt_top, st_low, st_top, one_top, bit3_pair, bit3_one, low3_one, -BitVec.getLsbD_eq_getElem, low_encV, most_encV, most_encM, fence_encM, setw_low, setw_high, show hi4 0#11 = true from rfl, wide_low, wide_high, hi4_wide, wide_bit, imm_encS, imm_encC, ibit_encC, d_encV, a_encV, b_encV, c_encV, cbit_encV, d_encVI, imm_encVI, sbit_encVI]
theorem RoundTrip.yield : RoundTrip.Statement (.yield) := by
  intro h c w e; cases e
  simp [decodeWord, decodeCtrl, accept, h, encVU, encVB, encVT, encDABC, fVU, fVB, fVT, wide_top, mm_low, mm_high, mm_top, vt_low, vt_high, vt_top, st_low, st_top, one_top, bit3_pair, bit3_one, low3_one, -BitVec.getLsbD_eq_getElem, low_encV, most_encV, most_encM, fence_encM, setw_low, setw_high, show hi4 0#11 = true from rfl, wide_low, wide_high, hi4_wide, wide_bit, imm_encS, imm_encC, ibit_encC, d_encV, a_encV, b_encV, c_encV, cbit_encV, d_encVI, imm_encVI, sbit_encVI]
theorem RoundTrip.barr : RoundTrip.Statement (.barr) := by
  intro h c w e; cases e
  simp [decodeWord, decodeCtrl, accept, h, encVU, encVB, encVT, encDABC, fVU, fVB, fVT, wide_top, mm_low, mm_high, mm_top, vt_low, vt_high, vt_top, st_low, st_top, one_top, bit3_pair, bit3_one, low3_one, -BitVec.getLsbD_eq_getElem, low_encV, most_encV, most_encM, fence_encM, setw_low, setw_high, show hi4 0#11 = true from rfl, wide_low, wide_high, hi4_wide, wide_bit, imm_encS, imm_encC, ibit_encC, d_encV, a_encV, b_encV, c_encV, cbit_encV, d_encVI, imm_encVI, sbit_encVI]
theorem RoundTrip.eret : RoundTrip.Statement (.eret) := by
  intro h c w e; cases e
  simp [decodeWord, decodeCtrl, accept, h, encVU, encVB, encVT, encDABC, fVU, fVB, fVT, wide_top, mm_low, mm_high, mm_top, vt_low, vt_high, vt_top, st_low, st_top, one_top, bit3_pair, bit3_one, low3_one, -BitVec.getLsbD_eq_getElem, low_encV, most_encV, most_encM, fence_encM, setw_low, setw_high, show hi4 0#11 = true from rfl, wide_low, wide_high, hi4_wide, wide_bit, imm_encS, imm_encC, ibit_encC, d_encV, a_encV, b_encV, c_encV, cbit_encV, d_encVI, imm_encVI, sbit_encVI]
theorem RoundTrip.eretSkip : RoundTrip.Statement (.eretSkip) := by
  intro h c w e; cases e
  simp [decodeWord, decodeCtrl, accept, h, encVU, encVB, encVT, encDABC, fVU, fVB, fVT, wide_top, mm_low, mm_high, mm_top, vt_low, vt_high, vt_top, st_low, st_top, one_top, bit3_pair, bit3_one, low3_one, -BitVec.getLsbD_eq_getElem, low_encV, most_encV, most_encM, fence_encM, setw_low, setw_high, show hi4 0#11 = true from rfl, wide_low, wide_high, hi4_wide, wide_bit, imm_encS, imm_encC, ibit_encC, d_encV, a_encV, b_encV, c_encV, cbit_encV, d_encVI, imm_encVI, sbit_encVI]
theorem RoundTrip.eretCont : RoundTrip.Statement (.eretCont) := by
  intro h c w e; cases e
  simp [decodeWord, decodeCtrl, accept, h, encVU, encVB, encVT, encDABC, fVU, fVB, fVT, wide_top, mm_low, mm_high, mm_top, vt_low, vt_high, vt_top, st_low, st_top, one_top, bit3_pair, bit3_one, low3_one, -BitVec.getLsbD_eq_getElem, low_encV, most_encV, most_encM, fence_encM, setw_low, setw_high, show hi4 0#11 = true from rfl, wide_low, wide_high, hi4_wide, wide_bit, imm_encS, imm_encC, ibit_encC, d_encV, a_encV, b_encV, c_encV, cbit_encV, d_encVI, imm_encVI, sbit_encVI]
theorem RoundTrip.gfence : RoundTrip.Statement (.gfence) := by
  intro h c w e; cases e
  simp [decodeWord, decodeLane, accept, h, encVU, encVB, encVT, encDABC, fVU, fVB, fVT, wide_top, mm_low, mm_high, mm_top, vt_low, vt_high, vt_top, st_low, st_top, one_top, bit3_pair, bit3_one, low3_one, -BitVec.getLsbD_eq_getElem, low_encV, most_encV, most_encM, fence_encM, setw_low, setw_high, show hi4 0#11 = true from rfl, wide_low, wide_high, hi4_wide, wide_bit, imm_encS, imm_encC, ibit_encC, d_encV, a_encV, b_encV, c_encV, cbit_encV, d_encVI, imm_encVI, sbit_encVI]
theorem RoundTrip.drain : RoundTrip.Statement (.drain) := by
  intro h c w e; cases e
  simp [decodeWord, decodeMem, accept, h, encVU, encVB, encVT, encDABC, fVU, fVB, fVT, wide_top, mm_low, mm_high, mm_top, vt_low, vt_high, vt_top, st_low, st_top, one_top, bit3_pair, bit3_one, low3_one, -BitVec.getLsbD_eq_getElem, low_encV, most_encV, most_encM, fence_encM, setw_low, setw_high, show hi4 0#11 = true from rfl, wide_low, wide_high, hi4_wide, wide_bit, imm_encS, imm_encC, ibit_encC, d_encV, a_encV, b_encV, c_encV, cbit_encV, d_encVI, imm_encVI, sbit_encVI]
theorem RoundTrip.reset : RoundTrip.Statement (.reset) := by
  intro _ c w e; cases e
theorem RoundTrip.coldReset : RoundTrip.Statement (.coldReset) := by
  intro _ c w e; cases e
theorem RoundTrip.admitDevice : RoundTrip.Statement (.admitDevice) := by
  intro _ c w e; cases e
theorem RoundTrip.health : RoundTrip.Statement (.health) := by
  intro _ c w e; cases e
theorem RoundTrip.checkpoint : RoundTrip.Statement (.checkpoint) := by
  intro _ c w e; cases e
theorem RoundTrip.ptable : RoundTrip.Statement (.ptable) := by
  intro _ c w e; cases e
theorem RoundTrip.partition : RoundTrip.Statement (.partition) := by
  intro _ c w e; cases e
theorem RoundTrip.worldCreate : RoundTrip.Statement (.worldCreate) := by
  intro _ c w e; cases e
theorem RoundTrip.worldDestroy : RoundTrip.Statement (.worldDestroy) := by
  intro _ c w e; cases e
theorem RoundTrip.dbgUnlock : RoundTrip.Statement (.dbgUnlock) := by
  intro _ c w e; cases e
theorem RoundTrip.powercap : RoundTrip.Statement (.powercap) := by
  intro _ c w e; cases e
theorem RoundTrip.image : RoundTrip.Statement (.image) := by
  intro _ c w e; cases e
theorem RoundTrip.getVersion : RoundTrip.Statement (.getVersion) := by
  intro _ c w e; cases e
theorem RoundTrip.getCapabilities : RoundTrip.Statement (.getCapabilities) := by
  intro _ c w e; cases e
theorem RoundTrip.negotiateAlgorithms : RoundTrip.Statement (.negotiateAlgorithms) := by
  intro _ c w e; cases e
theorem RoundTrip.getDigests : RoundTrip.Statement (.getDigests) := by
  intro _ c w e; cases e
theorem RoundTrip.getCertificate : RoundTrip.Statement (.getCertificate) := by
  intro _ c w e; cases e
theorem RoundTrip.challenge : RoundTrip.Statement (.challenge) := by
  intro _ c w e; cases e
theorem RoundTrip.getMeasurements : RoundTrip.Statement (.getMeasurements) := by
  intro _ c w e; cases e
theorem RoundTrip.keyExchange : RoundTrip.Statement (.keyExchange) := by
  intro _ c w e; cases e
theorem RoundTrip.finish : RoundTrip.Statement (.finish) := by
  intro _ c w e; cases e
theorem RoundTrip.slhSig : RoundTrip.Statement (.slhSig) := by
  intro _ c w e; cases e
theorem RoundTrip.lockInterface : RoundTrip.Statement (.lockInterface) := by
  intro _ c w e; cases e
theorem RoundTrip.getDeviceInterfaceReport : RoundTrip.Statement (.getDeviceInterfaceReport) := by
  intro _ c w e; cases e
theorem RoundTrip.startInterface : RoundTrip.Statement (.startInterface) := by
  intro _ c w e; cases e
theorem RoundTrip.stopInterface : RoundTrip.Statement (.stopInterface) := by
  intro _ c w e; cases e
theorem RoundTrip.ideStreamFail : RoundTrip.Statement (.ideStreamFail) := by
  intro _ c w e; cases e
theorem RoundTrip.tdiConfigWrite : RoundTrip.Statement (.tdiConfigWrite) := by
  intro _ c w e; cases e
theorem RoundTrip.functionLevelReset : RoundTrip.Statement (.functionLevelReset) := by
  intro _ c w e; cases e
theorem RoundTrip.ideKm : RoundTrip.Statement (.ideKm) := by
  intro _ c w e; cases e
theorem RoundTrip.pselWrite : RoundTrip.Statement (.pselWrite) := by
  intro _ c w e; cases e
theorem RoundTrip.pcntRead : RoundTrip.Statement (.pcntRead) := by
  intro _ c w e; cases e
theorem RoundTrip.pstatWrite : RoundTrip.Statement (.pstatWrite) := by
  intro _ c w e; cases e
theorem RoundTrip.thermalThrottle : RoundTrip.Statement (.thermalThrottle) := by
  intro _ c w e; cases e
theorem RoundTrip.junctionFatal : RoundTrip.Statement (.junctionFatal) := by
  intro _ c w e; cases e
theorem RoundTrip.ashImage : RoundTrip.Statement (.ashImage) := by
  intro _ c w e; cases e
theorem RoundTrip.singleBitError : RoundTrip.Statement (.singleBitError) := by
  intro _ c w e; cases e
theorem RoundTrip.bisnpdataResponse : RoundTrip.Statement (.bisnpdataResponse) := by
  intro _ c w e; cases e
theorem RoundTrip.hostRead : RoundTrip.Statement (.hostRead) := by
  intro _ c w e; cases e
theorem RoundTrip.hostOwnershipRequest : RoundTrip.Statement (.hostOwnershipRequest) := by
  intro _ c w e; cases e
theorem RoundTrip.hostWrite : RoundTrip.Statement (.hostWrite) := by
  intro _ c w e; cases e
theorem RoundTrip.birspi : RoundTrip.Statement (.birspi) := by
  intro _ c w e; cases e
theorem RoundTrip.backInvalidateTimeout : RoundTrip.Statement (.backInvalidateTimeout) := by
  intro _ c w e; cases e
theorem RoundTrip.hostSnoop : RoundTrip.Statement (.hostSnoop) := by
  intro _ c w e; cases e
theorem RoundTrip.doorbell : RoundTrip.Statement (.doorbell) := by
  intro _ c w e; cases e
theorem RoundTrip.flitReplay : RoundTrip.Statement (.flitReplay) := by
  intro _ c w e; cases e
theorem RoundTrip.linkRetrain : RoundTrip.Statement (.linkRetrain) := by
  intro _ c w e; cases e
theorem RoundTrip.linkDown : RoundTrip.Statement (.linkDown) := by
  intro _ c w e; cases e
theorem RoundTrip.linkUp : RoundTrip.Statement (.linkUp) := by
  intro _ c w e; cases e
theorem RoundTrip.qstateOff : RoundTrip.Statement (.qstateOff) := by
  intro _ c w e; cases e
theorem RoundTrip.qstateRun : RoundTrip.Statement (.qstateRun) := by
  intro _ c w e; cases e
theorem RoundTrip.qstateStop : RoundTrip.Statement (.qstateStop) := by
  intro _ c w e; cases e
theorem RoundTrip.registerWrite : RoundTrip.Statement (.registerWrite) := by
  intro _ c w e; cases e
theorem RoundTrip.hrearmRetry : RoundTrip.Statement (.hrearmRetry) := by
  intro _ c w e; cases e
theorem RoundTrip.hrearmDiscard : RoundTrip.Statement (.hrearmDiscard) := by
  intro _ c w e; cases e
theorem RoundTrip.gresumeRetry : RoundTrip.Statement (.gresumeRetry) := by
  intro _ c w e; cases e
theorem RoundTrip.gresumeSkip : RoundTrip.Statement (.gresumeSkip) := by
  intro _ c w e; cases e
theorem RoundTrip.gresumeDeliver : RoundTrip.Statement (.gresumeDeliver) := by
  intro _ c w e; cases e
theorem RoundTrip.gresumeKill : RoundTrip.Statement (.gresumeKill) := by
  intro _ c w e; cases e
theorem RoundTrip.bankreq : RoundTrip.Statement (.bankreq) := by
  intro _ c w e; cases e
theorem RoundTrip.grtight : RoundTrip.Statement (.grtight) := by
  intro _ c w e; cases e
theorem RoundTrip.dbgcmdHalt : RoundTrip.Statement (.dbgcmdHalt) := by
  intro _ c w e; cases e
theorem RoundTrip.dbgcmdResume : RoundTrip.Statement (.dbgcmdResume) := by
  intro _ c w e; cases e
theorem RoundTrip.dbgcmdStep : RoundTrip.Statement (.dbgcmdStep) := by
  intro _ c w e; cases e
theorem RoundTrip.sramUncorrectable : RoundTrip.Statement (.sramUncorrectable) := by
  intro _ c w e; cases e
theorem RoundTrip.poolBankRetire : RoundTrip.Statement (.poolBankRetire) := by
  intro _ c w e; cases e
theorem RoundTrip.coppicing : RoundTrip.Statement (.coppicing) := by
  intro _ c w e; cases e
theorem RoundTrip.silentDrop : RoundTrip.Statement (.silentDrop) := by
  intro _ c w e; cases e
theorem RoundTrip.memoryRequest : RoundTrip.Statement (.memoryRequest) := by
  intro _ c w e; cases e

end Sys2Proof.Laws
end

