-- ==== Sys2Proof/Safety.lean ====
section
/-! DEFINITION. What a safe run is, and the terms the statements use: the canonical form of memory, a group's registers,
and what a word leaves unchanged. -/
namespace Sys2Proof.Machine

/-- Memory has its canonical form: addresses strictly rising, no entry that an unlisted address would read as. -/
abbrev Memory.wf (m : List Host.Cell) : Prop := memWf m = true

/-- The memory of a state has its canonical form. -/
abbrev State.MemoryWf (s : State) : Prop := Memory.wf s.mem

/-- A group holds the registers of another: vector registers with their tags and full bits, capability tags, scalars, index registers and
windows, path counters and sends. -/
def Group.RegsOf (h g : Group) : Prop :=
  h.vregs = g.vregs ∧ h.qtags = g.qtags ∧ h.sregs = g.sregs ∧ h.sEmpty = g.sEmpty ∧ h.sTags = g.sTags ∧ h.xregs = g.xregs
    ∧ h.windows = g.windows ∧ h.ctrs = g.ctrs ∧ h.sends = g.sends ∧ h.seq = g.seq

/-- Nothing changed but one group and the counters and quadrants of the cores: memory, hearths, caches, scratchpads, cords, tiles, barriers,
every other group and everything outside the cores are as before. -/
def OnlyGroup (i : GroupId) (s t : State) : Prop :=
  ({ t with cores := [] } : State) = { s with cores := [] }
    ∧ (∀ c, ({ t.core c with teams := [], perf := [], quads := [] } : Core) = { s.core c with teams := [], perf := [], quads := [] })
    ∧ (∀ c sl, (t.team c sl).map (fun x => ({ x with groups := [] } : Team)) = (s.team c sl).map fun x => { x with groups := [] })
    ∧ ∀ j, j ≠ i → t.group j = s.group j

/-- What a word leaves that writes only its group's registers: they are those of `g`; its special registers too, but that a single step of
the debug controller reports itself in tcause and tinfo (R403). -/
def After (c : Ctx) (s : State) (g : Group) (t : State) : Prop :=
  OnlyGroup c.gid s t ∧ ∃ h, t.group c.gid = some h ∧ h.RegsOf g ∧ (c.p.dbgStep = false → h.sp = g.sp)

/-- Where the lanes of an overflow entry go on: at a word of a clause, or at a header. -/
def Overflow.place (o : Overflow) : W64 := match o.clause with | some c => c.wordAddr c.next | none => o.pc

/-- A set of lanes stands at an address under a code capability: one split, or one entry of the overflow set, holds them all, and its next
word or header is there (R124, R126). -/
def Group.LanesAt (g : Group) (lanes : Lanes) (a : W64) (code : Cap) : Prop :=
  (∃ k p, NMap.find g.splits k = some p ∧ lanes &&& ~~~p.lanes = 0 ∧ p.place = a ∧ p.code = code)
    ∨ ∃ o ∈ g.overflow, lanes &&& ~~~o.lanes = 0 ∧ o.place = a ∧ o.code = code

/-- A set of lanes is held by some conditions: one split holds them all and waits for those conditions, among others (R123). -/
def Group.LanesHeld (g : Group) (lanes : Lanes) (cs : List Cond) : Prop :=
  ∃ k p h, NMap.find g.splits k = some p ∧ lanes &&& ~~~p.lanes = 0 ∧ p.held = some h ∧ ∀ x ∈ cs, x ∈ h.conds

/-- A lane's result from its number, its sources' bits and the destination's old bits. -/
abbrev LaneRule := Nat → List Nat → Nat → Rounded

/-- The lanes of a word with the first registers of their sources and of their destination; a lane whose indexed operand lies outside its
window has none and is left out (R104). -/
def resolved (c : Ctx) (ls : List Nat) (ops : List (VField × Nat)) (d : VField) (n : Nat) : List (Nat × List Nat × Nat) :=
  ls.filterMap fun l => match c.resolve l ops, c.regAt d n l with
    | some bs, some b => some (l, bs, b)
    | _, _ => none

/-- What a vector word leaves whose result takes `n` registers (R187): in every resolved lane the rule's words, the destination full under its tag, the flags ORed into fpst;
every other lane and register as before. -/
def VectorResult (c : Ctx) (s : State) (ls : List Nat) (ops : List (VField × Nat)) (d : VField) (n : Nat) (t : FTag) (f : LaneRule)
    (u : State) : Prop :=
  let out := (resolved c ls ops d n).map fun x => (x.1, x.2.2, f x.1 ((x.2.1.zip ops).map fun y => c.read y.1 y.2.2 x.1) (c.read x.2.2 n x.1))
  ∃ g : Group, After c s g u
    ∧ (∀ x ∈ out, ∀ j < n, g.lane (x.2.1 + j) x.1 = BitVec.ofNat 32 (x.2.2.bits / 2 ^ (32 * j))
        ∧ (g.v (x.2.1 + j)).tag = t ∧ (g.v (x.2.1 + j)).full = true)
    ∧ (∀ r l, (∀ x ∈ out, x.1 = l → r < x.2.1 ∨ x.2.1 + n ≤ r) → g.lane r l = c.g.lane r l)
    ∧ (∀ r, r ∉ c.touched d n ls → g.v r = c.g.v r)
    ∧ g.sregs = c.g.sregs ∧ g.sEmpty = c.g.sEmpty ∧ g.sTags = c.g.sTags ∧ g.xregs = c.g.xregs ∧ g.windows = c.g.windows ∧ g.ctrs = c.g.ctrs
    ∧ g.sp = { c.g.sp with fpst := c.g.sp.fpst ||| BitVec.ofNat 64 ((out.foldl (fun m x => m ||| x.2.2.flags) 0) % 32) }

end Sys2Proof.Machine
end

