-- ==== Sys2Proof/Certificates/Slice0/Obligations.lean ====
section
/-! DEFINITION. The statements about the machine. The tables before a statement say, from the words of the manual, what each of its
instructions does; `Runs` is completion: exec answers a next state, and what holds of it. -/
namespace Sys2Proof.Claims
open Sys2Proof.Machine

/-- Executing `i` in `s` answers a next state, and it satisfies `P`. -/
def Runs (i : Instr) (s : State) (P : State → Prop) : Prop := ∃ t, exec i s = .next t ∧ P t

/-- Every scalar of a list is full (R148). -/
def ScalarsFull (g : Group) (rs : List SReg) : Prop := ∀ r ∈ rs, g.sFull r.toNat = true

/-- The lanes of a split leave it for the current record, which was empty: they faulted at the issuing word with a cause, lanes that raised it and
a tinfo (R128, R387). -/
def Raises (c : Ctx) (s : State) (cause : Cause) (flm : Lanes) (info : W64) (t : State) : Prop :=
  After c s c.g t ∧ ∃ h r, t.group c.gid = some h ∧ h.cur = some r ∧ r.word = c.cl.addr + BitVec.ofNat 64 (8 * (c.cl.next + 1))
    ∧ r.lanes = c.p.lanes ∧ r.cause = cause ∧ r.flm = flm ∧ r.info = info ∧ r.code = c.p.code ∧ r.late = false ∧ h.mode = c.g.mode

/-! ### SCALAR (R147 to R152) -/

/-- X and Y (R149). -/
def scalarX (o : SOp) (g : Group) : W64 := g.s o.a.toNat
def scalarYOf (o : SOp) (g : Group) : W64 := g.s o.b.toNat + o.imm.signExtend 64

/-- Bits in a row from the top, or from the bottom, that satisfy a test. -/
def runLength (p : Nat → Bool) : Nat := ((List.range 64).takeWhile p).length

/-- The width of SBEXT's and SBINS's field (R151): Min(LEN, 64 - POS). -/
def fieldPos (o : SOp) : Nat := o.imm.toNat % 64
def fieldWidth (o : SOp) : Nat := min (o.imm.toNat / 64 % 128) (64 - fieldPos o)

/-- S[d] receives (R150 to R152): the destination, the scalars read, and the value, for every SCALAR word but the divisions. -/
def scalarRow : Instr → Option (SReg × List SReg × (Group → W64))
  | .smov o => some (o.d, [o.a], fun g => scalarX o g)
  | .smovi o => some (o.d, [o.b], fun g => scalarYOf o g)
  | .smovhi o => some (o.d, [o.a], fun g => BitVec.ofNat 64 (o.imm.toNat * 2 ^ 32 + (scalarX o g).toNat % 2 ^ 32))
  | .sadd o => some (o.d, [o.a, o.b], fun g => scalarX o g + scalarYOf o g)
  | .ssub o => some (o.d, [o.a, o.b], fun g => scalarX o g - scalarYOf o g)
  | .smul o => some (o.d, [o.a, o.b], fun g => scalarX o g * scalarYOf o g)
  | .smulhs o => some (o.d, [o.a, o.b], fun g => ((scalarX o g).signExtend 128 * (scalarYOf o g).signExtend 128).extractLsb' 64 64)
  | .smulhn o => some (o.d, [o.a, o.b], fun g => ((scalarX o g).setWidth 128 * (scalarYOf o g).setWidth 128).extractLsb' 64 64)
  | .sand o => some (o.d, [o.a, o.b], fun g => scalarX o g &&& scalarYOf o g)
  | .sor o => some (o.d, [o.a, o.b], fun g => scalarX o g ||| scalarYOf o g)
  | .sxor o => some (o.d, [o.a, o.b], fun g => scalarX o g ^^^ scalarYOf o g)
  | .sandn o => some (o.d, [o.a, o.b], fun g => scalarX o g &&& ~~~(scalarYOf o g))
  | .sshl o => some (o.d, [o.a, o.b], fun g =>
      if 64 ≤ (scalarYOf o g).toNat then 0 else BitVec.ofNat 64 ((scalarX o g).toNat * 2 ^ (scalarYOf o g).toNat))
  | .sshrn o => some (o.d, [o.a, o.b], fun g =>
      if 64 ≤ (scalarYOf o g).toNat then 0 else BitVec.ofNat 64 ((scalarX o g).toNat / 2 ^ (scalarYOf o g).toNat))
  | .sshrs o => some (o.d, [o.a, o.b], fun g =>
      BitVec.ofInt 64 ((scalarX o g).toInt / 2 ^ min (scalarYOf o g).toNat 63))
  | .smins o => some (o.d, [o.a, o.b], fun g => BitVec.ofInt 64 (min (scalarX o g).toInt (scalarYOf o g).toInt))
  | .smaxs o => some (o.d, [o.a, o.b], fun g => BitVec.ofInt 64 (max (scalarX o g).toInt (scalarYOf o g).toInt))
  | .sminn o => some (o.d, [o.a, o.b], fun g => BitVec.ofNat 64 (min (scalarX o g).toNat (scalarYOf o g).toNat))
  | .smaxn o => some (o.d, [o.a, o.b], fun g => BitVec.ofNat 64 (max (scalarX o g).toNat (scalarYOf o g).toNat))
  | .sclz o => some (o.d, [o.a], fun g => BitVec.ofNat 64 (runLength fun i => !(scalarX o g).getLsbD (63 - i)))
  | .sctz o => some (o.d, [o.a], fun g => BitVec.ofNat 64 (runLength fun i => !(scalarX o g).getLsbD i))
  | .spopc o => some (o.d, [o.a], fun g => BitVec.ofNat 64 ((List.range 64).countP fun i => (scalarX o g).getLsbD i))
  | .sbext o => some (o.d, [o.a], fun g =>
      let f := (scalarX o g).toNat / 2 ^ fieldPos o % 2 ^ fieldWidth o
      if o.imm.getLsbD 13 && decide (2 ^ fieldWidth o ≤ 2 * f) then BitVec.ofInt 64 ((f : Int) - 2 ^ fieldWidth o) else BitVec.ofNat 64 f)
  | .sbins o => some (o.d, [o.a], fun g =>
      let old := (g.s o.d.toNat).toNat
      BitVec.ofNat 64 (old % 2 ^ fieldPos o + (scalarX o g).toNat % 2 ^ fieldWidth o * 2 ^ fieldPos o
        + old / 2 ^ (fieldPos o + fieldWidth o) * 2 ^ (fieldPos o + fieldWidth o)))
  | .ssel o => some (o.d, [o.a, o.b, o.imm.setWidth 7], fun g =>
      if g.s (o.imm.toNat % 128) ≠ 0 then scalarX o g else g.s o.b.toNat)
  | .scmp o => some (o.d, [o.a, o.b], fun g =>
      let x := scalarX o g
      let y := g.s o.b.toNat
      let holds : Bool := match o.imm.toNat with
        | 0 => decide (x = y) | 1 => decide (x ≠ y)
        | 2 => decide (x.toInt < y.toInt) | 3 => decide (x.toInt ≤ y.toInt) | 4 => decide (x.toInt > y.toInt) | 5 => decide (x.toInt ≥ y.toInt)
        | 6 => decide (x.toNat < y.toNat) | 7 => decide (x.toNat ≤ y.toNat) | 8 => decide (x.toNat > y.toNat) | _ => decide (x.toNat ≥ y.toNat)
      if holds then 1 else 0)
  | _ => none

/-- The divisions (R150, R151): X over Y, and their remainders. -/
def divisionRow : Instr → Option (SOp × (W64 → W64 → W64))
  | .sdivs o => some (o, fun x y => BitVec.ofInt 64 (x.toInt.tdiv y.toInt))
  | .sdivn o => some (o, fun x y => BitVec.ofNat 64 (x.toNat / y.toNat))
  | .srems o => some (o, fun x y => BitVec.ofInt 64 (x.toInt.tmod y.toInt))
  | .sremn o => some (o, fun x y => BitVec.ofNat 64 (x.toNat % y.toNat))
  | _ => none

end Sys2Proof.Claims

section
open Sys2Proof Sys2Proof.Machine Sys2Proof.Claims

/-- R150: what every SCALAR word but the divisions writes, and that it writes nothing else. -/
def Obligations.ScalarWordsWriteTheirResult : Prop :=
  ∀ (i : Instr) (s : State) (c : Ctx) d srcs f, i.wf = true → scalarRow i = some (d, srcs, f) → s.issuer = some c → ScalarsFull c.g (d :: srcs) →
    Runs i s (After c s (c.g.setS d.toNat (f c.g)))

/-- R150, R151: what the divisions write, with -2^63 by -1 giving -2^63 and the remainder 0; a divisor of 0 is INT_DIVZERO for the split. -/
def Obligations.ScalarDivisionsWriteOrTrap : Prop :=
  ∀ (i : Instr) (s : State) (c : Ctx) o f, divisionRow i = some (o, f) → s.issuer = some c → ScalarsFull c.g [o.d, o.a, o.b] →
    (scalarYOf o c.g ≠ 0 → Runs i s (After c s (c.g.setS o.d.toNat (f (scalarX o c.g) (scalarYOf o c.g)))))
    ∧ (scalarYOf o c.g = 0 → c.g.cur = none → c.g.lateMarks = [] → Runs i s (Raises c s .intDivzero c.p.lanes 0))
end

/-! ### VALU and VBIT (R187 to R216) -/
namespace Sys2Proof.Claims
open Sys2Proof.Machine

/-- A vector word: mask, scalars read, destination, sources; the tags beside which a RAW source is a pair of RAW registers (R204, R207; for VBFI
notes/assumptions 35, the model's choice); and what it does with sources of given tags: the result's tag and the rule of a lane, or nothing where it
accepts no such tags (R188). -/
structure VectorRow where
  m : MField
  scalars : List SReg
  d : VField
  srcs : List Src
  wide : List FTag → Bool
  result : Ctx → List FTag → Option (FTag × LaneRule)

/-- No tags make a RAW source a pair. -/
def narrow (_ : List FTag) : Bool := false

/-- The one tag of all sources (R168). -/
def sameTag : List FTag → Option FTag
  | [] => none
  | t :: r => if r.all fun x => x == t then some t else none

/-- The one tag of the sources that are not RAW (R168, R188). -/
def tagBesideRaw (ts : List FTag) : Option FTag :=
  if ts.all fun t => t == .raw then some .raw else sameTag (ts.filter fun t => t != .raw)

/-- Reduces an exact integer (R189): modulo 2^w, or clamped to the element's range. -/
def reduceTo (w : Nat) (signed sat : Bool) (x : Int) : Nat :=
  if sat then
    (if signed then max (-(2 ^ (w - 1))) (min (2 ^ (w - 1) - 1) x) else max 0 (min (2 ^ w - 1) x)) % 2 ^ w |>.toNat
  else (x % 2 ^ w).toNat

/-- Arithmetic, element by element (R187 to R190): integer elements by their exact values, float elements by a float rule. -/
def arith (sat : Bool) (fi : Nat → Bool → List Int → Int) (ff : Fmt → Bool → List Nat → Rounded) (c : Ctx) (ts : List FTag) :
    Option (FTag × LaneRule) :=
  match sameTag ts with
  | none => none
  | some t =>
    if t.isInt || (t.isFloat && !sat) then
      some (t, fun _ xs _ => elementwise (tagElems t).2.1 (tagElems t).2.2 (fun _ es =>
        match (tagElems t).1 with
        | .int w sg => ⟨reduceTo w sg sat (fi w sg (es.map (intVal w sg))), 0⟩
        | f => ff f c.ftz es) xs)
    else none

/-- Element `j` of a list of exact values, or of bits. -/
def ex (xs : List Int) (j : Nat) : Int := xs.getD j 0
def eb (xs : List Nat) (j : Nat) : Nat := xs.getD j 0

/-- The saturated value of an exact integer (R199). -/
def saturated (w : Nat) (sg : Bool) (x : Int) : Int :=
  if sg then max (-(2 ^ (w - 1))) (min (2 ^ (w - 1) - 1) x) else max 0 (min (2 ^ w - 1) x)

/-- A float sum or product of two elements, rounded once (R190). -/
def rounded2 (op : Machine.Num → Machine.Num → Machine.Num) (f : Fmt) (ftz : Bool) (xs : List Nat) : Rounded :=
  fpResult f ftz xs (op (readNum f (eb xs 0) ftz) (readNum f (eb xs 1) ftz))

/-- Copies: any tags that agree, bits unchanged, of the source that `pick` names in a lane (R193, R202). -/
def copied (pick : Nat → Nat) (_ : Ctx) (ts : List FTag) : Option (FTag × LaneRule) :=
  (sameTag ts).map fun t => (t, fun l xs _ => ⟨eb xs (pick l), 0⟩)

/-- The tags that VMOVI and VMOVS may name (R188). -/
def namedTag (code : Nat) : Option FTag :=
  match tagOf code with
  | some t => if t = .e3m2s ∨ t = .e2m3s ∨ t = .cap ∨ t = .route then none else some t
  | none => none

/-- The VALU words but VCMP. -/
def valuRow : Instr → Option VectorRow
  | .vmov o => some ⟨o.m, [], o.d, srcA o, narrow, copied fun _ => 0⟩
  | .vmovi d imm sub m => some ⟨m, [], d, [], narrow, fun _ _ => (namedTag (imm.toNat / 2 ^ 17)).map fun t =>
      let len := 32 * t.regs
      let k : BitVec 17 := imm.setWidth 17
      (t, fun _ _ _ => ⟨match sub.toNat with
        | 0 => (k.signExtend len).toNat | 1 => k.toNat | 2 => k.toNat * 2 ^ (len - 17) | _ => (k.toNat % 2 ^ 16) * 2 ^ 16 + k.toNat % 2 ^ 16, 0⟩)⟩
  | .vmovs d a tag m => some ⟨m, [a], d, [], narrow, fun c _ => (namedTag tag.toNat).map fun t =>
      (t, fun _ _ _ => ⟨(c.g.s a.toNat).toNat % 2 ^ (32 * t.regs), 0⟩)⟩
  | .vadd o sat => some ⟨o.m, [], o.d, srcAB o, narrow, arith sat (fun _ _ x => ex x 0 + ex x 1) (rounded2 Machine.Num.add)⟩
  | .vaddi o imm sat => some ⟨o.m, [], o.d, srcA o, narrow, arith sat (fun _ _ x => ex x 0 + imm.toInt)
      fun f z x => fpResult f z x ((readNum f (eb x 0) z).add (.fin (decide (imm.toInt < 0)) imm.toInt.natAbs 1 0))⟩
  | .vsub o sat => some ⟨o.m, [], o.d, srcAB o, narrow, arith sat (fun _ _ x => ex x 0 - ex x 1) (rounded2 fun a b => a.add b.neg)⟩
  | .vmul o sat => some ⟨o.m, [], o.d, srcAB o, narrow, arith sat (fun _ _ x => ex x 0 * ex x 1) (rounded2 Machine.Num.mul)⟩
  | .vfma o => some ⟨o.m, [], o.d, srcABC o, narrow, arith false (fun _ _ x => ex x 0 * ex x 1 + ex x 2) (fmaResult false)⟩
  | .vfms o => some ⟨o.m, [], o.d, srcABC o, narrow, arith false (fun _ _ x => ex x 0 * ex x 1 - ex x 2) (fmaResult true)⟩
  | .vmin o => some ⟨o.m, [], o.d, srcAB o, narrow, arith false (fun _ _ x => min (ex x 0) (ex x 1)) fun f z x => fmin f z false (eb x 0) (eb x 1)⟩
  | .vmax o => some ⟨o.m, [], o.d, srcAB o, narrow, arith false (fun _ _ x => max (ex x 0) (ex x 1)) fun f z x => fmin f z true (eb x 0) (eb x 1)⟩
  | .vclamp o => some ⟨o.m, [], o.d, srcABC o, narrow, arith false (fun _ _ x => min (max (ex x 0) (ex x 1)) (ex x 2)) clampFloat⟩
  | .vabs o sat => some ⟨o.m, [], o.d, srcA o, narrow, arith sat (fun _ _ x => |ex x 0|) fun f _ x => ⟨eb x 0 % 2 ^ (f.width - 1), 0⟩⟩
  | .vneg o sat => some ⟨o.m, [], o.d, srcA o, narrow, arith sat (fun _ _ x => -(ex x 0)) fun f _ x =>
      ⟨if eb x 0 < 2 ^ (f.width - 1) then eb x 0 + 2 ^ (f.width - 1) else eb x 0 - 2 ^ (f.width - 1), 0⟩⟩
  | .vaddmin o => some ⟨o.m, [], o.d, srcABC o, narrow, arith false (fun w sg x => min (saturated w sg (ex x 0 + ex x 1)) (ex x 2)) addMinFloat⟩
  | .vmulh o => some ⟨o.m, [], o.d, srcAB o, narrow, fun c ts =>
      if ts.any FTag.isFloat then none else arith false (fun w _ x => ex x 0 * ex x 1 / 2 ^ w) (fun _ _ _ => ⟨0, 0⟩) c ts⟩
  | .vsel o cs => some ⟨o.m, [cs], o.d, srcAB o, narrow, fun c ts => copied (fun l => if (c.g.s cs.toNat).getLsbD l then 0 else 1) c ts⟩
  | _ => none

/-- Logic over all bits of a lane (R204). -/
def logic (f : Nat → List Nat → Nat) (_ : Ctx) (ts : List FTag) : Option (FTag × LaneRule) :=
  if ts.all fun t => t == .raw || t.isInt || t.isFloat then
    (tagBesideRaw ts).map fun t => (t, fun _ xs _ => ⟨f (32 * t.regs) xs, 0⟩)
  else none

/-- Shifts (R205): element j of a by element j of b. A RAW operand is one 32-bit element; beside another width of element or beside more than one it shifts
element 0 of a as an amount, and the other elements, for which R205 states no value, are free values (notes/assumptions 35). -/
def shifted (op : Nat) (f : Nat → Nat → Nat → Nat) (_ : Ctx) (ts : List FTag) : Option (FTag × LaneRule) :=
  if ts.all fun t => t == .raw || t.isInt then
    (tagBesideRaw ts).map fun t =>
      let w := (tagElems t).2.1
      let k := (tagElems t).2.2
      let whole := fun (j : Nat) => ts.getD j .raw = t ∨ (w = 32 ∧ k = 1)
      (t, fun _ xs _ => ⟨joinElems w ((List.range k).map fun j =>
        if whole 0 ∧ whole 1 then f w (elemAt w (eb xs 0) j) (elemAt w (eb xs 1) j)
        else if whole 0 ∧ j = 0 then f w (elemAt w (eb xs 0) 0) (eb xs 1)
        else Config.openShift op j (eb xs 0) (eb xs 1) % 2 ^ w), 0⟩)
  else none

/-- Counts and bit fields, element by element (R206, R207). -/
def bitwise (ok : Nat → Prop) [DecidablePred ok] (f : Nat → List Nat → Nat) (_ : Ctx) (ts : List FTag) : Option (FTag × LaneRule) :=
  if ts.all fun t => t == .raw || t.isInt then
    match tagBesideRaw ts with
    | none => none
    | some t =>
      if ok (tagElems t).2.1 then
        some (t, fun _ xs _ => elementwise (tagElems t).2.1 (tagElems t).2.2 (fun _ es => ⟨f (tagElems t).2.1 es, 0⟩) xs)
      else none
  else none

/-- The specials of float elements (R188, R208 to R211). -/
def special (f : Fmt → Bool → Nat → Nat → Nat → Nat → Rounded) (c : Ctx) (ts : List FTag) : Option (FTag × LaneRule) :=
  match sameTag ts with
  | none => none
  | some t =>
    if t.isFloat then
      some (t, fun l xs _ => elementwise (tagElems t).2.1 (tagElems t).2.2
        (fun j es => f (tagElems t).1 c.ftz l j (eb es 0) (eb es 1)) xs)
    else none

/-- The VBIT words but VTAG. -/
def vbitRow : Instr → Option VectorRow
  | .vand o => some ⟨o.m, [], o.d, srcAB o, pairWide, logic fun _ x => eb x 0 &&& eb x 1⟩
  | .vor o => some ⟨o.m, [], o.d, srcAB o, pairWide, logic fun _ x => eb x 0 ||| eb x 1⟩
  | .vxor o => some ⟨o.m, [], o.d, srcAB o, pairWide, logic fun _ x => eb x 0 ^^^ eb x 1⟩
  | .vnot o => some ⟨o.m, [], o.d, srcA o, narrow, logic fun n x => 2 ^ n - 1 - eb x 0⟩
  | .vshl o => some ⟨o.m, [], o.d, srcAB o, narrow, shifted 0 fun w a b => if w ≤ b then 0 else a * 2 ^ b % 2 ^ w⟩
  | .vshr o => some ⟨o.m, [], o.d, srcAB o, narrow, shifted 1 fun w a b => if w ≤ b then 0 else a / 2 ^ b⟩
  | .vsra o => some ⟨o.m, [], o.d, srcAB o, narrow, shifted 2 fun w a b => (signedOf w a / 2 ^ min b (w - 1) % 2 ^ w).toNat⟩
  | .vclz o => some ⟨o.m, [], o.d, srcA o, narrow, bitwise (fun _ => True) fun w x =>
      ((List.range w).takeWhile fun i => !(eb x 0).testBit (w - 1 - i)).length⟩
  | .vpopc o => some ⟨o.m, [], o.d, srcA o, narrow, bitwise (fun _ => True) fun w x => (List.range w).countP fun i => (eb x 0).testBit i⟩
  | .vbfe o pos len sx => some ⟨o.m, [], o.d, srcA o, narrow, bitwise (fun w => pos.toNat < w ∧ 1 ≤ len.toNat ∧ len.toNat ≤ w) fun w x =>
      let n := min len.toNat (w - pos.toNat)
      let f := eb x 0 / 2 ^ pos.toNat % 2 ^ n
      if sx ∧ 2 ^ n ≤ 2 * f then f + 2 ^ w - 2 ^ n else f⟩
  | .vbfi o pos len => some ⟨o.m, [], o.d, [⟨o.a, o.wa, none⟩, ⟨o.d, false, none⟩], fieldWide, fun _ ts =>
      let a := ts.getD 0 .raw
      let d := ts.getD 1 .raw
      let w := (tagElems a).2.1
      if (a = .raw ∨ a.isInt) ∧ (d = a ∨ d = .raw) ∧ pos.toNat < w ∧ 1 ≤ len.toNat ∧ len.toNat ≤ w then
        let n := min len.toNat (w - pos.toNat)
        some (a, fun _ xs _ => elementwise w (tagElems a).2.2 (fun _ x =>
          ⟨eb x 1 % 2 ^ pos.toNat + eb x 0 % 2 ^ n * 2 ^ pos.toNat + eb x 1 / 2 ^ (pos.toNat + n) * 2 ^ (pos.toNat + n), 0⟩) xs)
      else none⟩
  | .vdiv o => some ⟨o.m, [], o.d, srcAB o, narrow, special fun f z _ _ a b => divResult f z a b⟩
  | .vsqrt o => some ⟨o.m, [], o.d, srcA o, narrow, special fun f z _ _ a _ => sqrtResult f z a⟩
  | .vrcp o => some ⟨o.m, [], o.d, srcA o, narrow, special fun f z _ _ a _ => estimateResult 0 f z a⟩
  | .vrsq o => some ⟨o.m, [], o.d, srcA o, narrow, special fun f z _ _ a _ => estimateResult 1 f z a⟩
  | .vexp2 o => some ⟨o.m, [], o.d, srcA o, narrow, special fun f z _ _ a _ => estimateResult 2 f z a⟩
  | .vlog2 o => some ⟨o.m, [], o.d, srcA o, narrow, special fun f z _ _ a _ => estimateResult 3 f z a⟩
  | .vrint o seed mode => some ⟨o.m, [seed], o.d, srcA o, narrow, fun c ts =>
      special (fun f z l j a _ => rintResult f z mode.toNat (srBits (c.g.s seed.toNat) l j) a) c ts⟩
  | .vscale o => some ⟨o.m, [], o.d, srcAB o, narrow, fun c ts =>
      let a := ts.getD 0 .raw
      let b := ts.getD 1 .raw
      if ((a = .f32 ∨ a = .f64) ∧ b = .i32) ∨ ((a = .f16x2 ∨ a = .bf16x2) ∧ b = .i16x2) then
        some (a, fun _ xs _ => elementwise (tagElems a).2.1 (tagElems a).2.2 (fun j es =>
          scaleResult (tagElems a).1 c.ftz (eb es 0) (signedOf (tagElems b).2.1 (elemAt (tagElems b).2.1 (eb xs 1) j))) (xs.take 1))
      else none⟩
  | .vclass o => some ⟨o.m, [], o.d, srcA o, narrow, fun _ ts =>
      let t := ts.getD 0 .raw
      if t.isFloat then
        some (.n32, fun _ xs _ =>
          ⟨((List.range (tagElems t).2.2).map fun j =>
            classOf (tagElems t).1 (elemAt (tagElems t).2.1 (eb xs 0) j) * 2 ^ (16 * j)).sum, 0⟩)
      else none⟩
  | .vcvt o seed p tag mode => some ⟨o.m, [seed], o.d, srcA o, narrow, fun c ts =>
      match convertPlan (c.g.s seed.toNat) p.toNat mode.toNat tag.toNat c ts with
      | .ok x => some (x.rtag, x.f)
      | .error _ => none⟩
  | _ => none

/-- The checks of a row's sources pass: their tags and registers (R105, R112, R122, R165, R168). -/
def VectorRow.SourcesOk (r : VectorRow) (c : Ctx) (ts : List (FTag × Nat)) : Prop :=
  c.checkSrcs (c.lanes r.m) (c.widened (c.lanes r.m) r.wide r.srcs) = .ok ts

/-- A row runs: its registers are readable and aligned, its tags accepted, some lane or direct field gives every source a register, and no flag
that it raises is enabled. -/
def VectorRow.Ready (r : VectorRow) (c : Ctx) (ts : List (FTag × Nat)) (t : FTag) (f : LaneRule) : Prop :=
  ScalarsFull c.g (r.scalars ++ [r.m.setWidth 7]) ∧ r.SourcesOk c ts ∧ (∀ x ∈ r.srcs, c.touched x.f 1 (c.lanes r.m) ≠ [])
    ∧ r.result c (ts.map Prod.fst) = some (t, f) ∧ c.checkDst (c.lanes r.m) r.d t.regs = .ok ()
    ∧ ∀ x ∈ resolved c (c.lanes r.m) ((r.srcs.zip ts).map fun y => (y.1.f, y.2.2)) r.d t.regs, ∀ b < 5, c.g.sp.fpctl.getLsbD b = true →
        (f x.1 ((x.2.1.zip ((r.srcs.zip ts).map fun y => (y.1.f, y.2.2))).map fun y => c.read y.1 y.2.2 x.1)
          (c.read x.2.2 t.regs x.1)).flags.testBit b = false

end Sys2Proof.Claims

section
open Sys2Proof Sys2Proof.Machine Sys2Proof.Claims

/-- R187 to R202: the VALU words but VCMP. -/
def Obligations.ValuWordsWriteEveryActiveLane : Prop :=
  ∀ (i : Instr) (s : State) (c : Ctx) r ts t f, i.wf = true → valuRow i = some r → s.issuer = some c → r.Ready c ts t f →
    Runs i s (VectorResult c s (c.lanes r.m) ((r.srcs.zip ts).map fun y => (y.1.f, y.2.2)) r.d t.regs t f)

/-- R187, R203 to R215: the VBIT words but VTAG. The model's own in it: the elements of a shift with a RAW operand for which R205 states no value, which
are free, and VBFI's RAW destination of a pair (notes/assumptions 35, DESIGN CHOICE), and that the old tags of a triple which VCVT also reads are not checked
(140, DESIGN CHOICE). -/
def Obligations.VbitWordsWriteEveryActiveLane : Prop :=
  ∀ (i : Instr) (s : State) (c : Ctx) r ts t f, i.wf = true → vbitRow i = some r → s.issuer = some c → r.Ready c ts t f →
    Runs i s (VectorResult c s (c.lanes r.m) ((r.srcs.zip ts).map fun y => (y.1.f, y.2.2)) r.d t.regs t f)
end

/-! ### LANE, VCMP and VTAG (R153 to R164, R201, R216) -/
namespace Sys2Proof.Claims
open Sys2Proof.Machine

/-- A move between lanes (R155): mask, scalars, destination, source a, the operands read in the lane itself, when its count is in range, and
the word a lane receives. -/
structure MoveRow where
  m : MField
  scalars : List SReg
  d : VField
  a : VField
  wa : Bool
  others : List (VField × Bool)
  inRange : Nat → Prop
  word : Ctx → Nat → List Nat → W32

def moveRow : Instr → Option MoveRow
  | .vshfl o => some ⟨o.m, [], o.d, o.a, o.wa, [(o.b, o.wb)], fun _ => True, fun c _ xs => c.g.lane o.a.toNat (xs.getD 0 0 % c.width)⟩
  | .vshflx o k => some ⟨o.m, [], o.d, o.a, o.wa, [], fun w => k.toNat < w, fun c l _ => c.g.lane o.a.toNat (l ^^^ k.toNat)⟩
  | .vshup o n f wf => some ⟨o.m, [], o.d, o.a, o.wa, [(f, wf)], fun w => 0 < n.toNat ∧ n.toNat < w, fun c l xs =>
      if n.toNat ≤ l then c.g.lane o.a.toNat (l - n.toNat) else BitVec.ofNat 32 (xs.getD 0 0)⟩
  | .vshdn o n f wf => some ⟨o.m, [], o.d, o.a, o.wa, [(f, wf)], fun w => 0 < n.toNat ∧ n.toNat < w, fun c l xs =>
      if l + n.toNat < c.width then c.g.lane o.a.toNat (l + n.toNat) else BitVec.ofNat 32 (xs.getD 0 0)⟩
  | .vbcast o b => some ⟨o.m, [b], o.d, o.a, o.wa, [], fun _ => True, fun c _ _ => c.g.lane o.a.toNat ((c.g.s b.toNat).toNat % c.width)⟩
  | _ => none

/-- A lane's word of a move, as a rule. -/
def MoveRow.rule (r : MoveRow) (c : Ctx) : LaneRule := fun l xs _ => ⟨(r.word c l xs).toNat, 0⟩

/-- The lanes that resolve an operand of `n` registers, with its bits there. -/
def laneBits (c : Ctx) (ls : List Nat) (a : VField) (n : Nat) : List (Nat × Nat) :=
  ls.filterMap fun l => (c.regAt a n l).map fun r => (l, c.read r n l)

/-- One step of a reduction or scan (R158): OPR 0 add, 1 min, 2 max. -/
def combine (f : Fmt) (ftz : Bool) (opr acc x : Nat) : Rounded :=
  match f with
  | .int w sg =>
    if opr = 0 then ⟨(acc + x) % 2 ^ w, 0⟩
    else if opr = 1 then ⟨if intVal w sg acc ≤ intVal w sg x then acc else x, 0⟩
    else ⟨if intVal w sg acc ≤ intVal w sg x then x else acc, 0⟩
  | _ => if opr = 0 then rounded2 Machine.Num.add f ftz [acc, x] else fmin f ftz (opr != 1) acc x

/-- The identity of an operation (R158). -/
def identityOf (t : FTag) (opr : Nat) : Nat :=
  match t, opr with
  | .f32, 0 => 0x80000000 | .f32, 1 => 0x7F800000 | .f32, _ => 0xFF800000
  | .f64, 0 => 2 ^ 63 | .f64, 1 => 0x7FF * 2 ^ 52 | .f64, _ => 0xFFF * 2 ^ 52
  | _, 0 => 0
  | .i32, 1 => 2 ^ 31 - 1 | .i32, _ => 2 ^ 31 | .n32, 1 => 2 ^ 32 - 1 | .i64, 1 => 2 ^ 63 - 1 | .i64, _ => 2 ^ 63 | .n64, 1 => 2 ^ 64 - 1
  | _, _ => 0

/-- The value and the flags after combining lanes in increasing number. -/
def combineAll (t : FTag) (ftz : Bool) (opr : Nat) (vs : List (Nat × Nat)) : Rounded :=
  vs.foldl (fun r x => let q := combine (tagElems t).1 ftz opr r.bits x.2; ⟨q.bits, r.flags ||| q.flags⟩) ⟨identityOf t opr, 0⟩

/-- The tags VRED and VSCAN accept (R158). -/
def reducible (sz : Bool) (t : FTag) : Prop := if sz then t = .i64 ∨ t = .n64 ∨ t = .f64 else t = .i32 ∨ t = .n32 ∨ t = .f32

/-- A scalar of a reduction (R158). -/
def widened (t : FTag) (v : Nat) : W64 := if t = .i32 then (BitVec.ofNat 32 v).signExtend 64 else BitVec.ofNat 64 v

/-- No flag of a result is enabled (R185). -/
def NoTrap (g : Group) (flags : Nat) : Prop := ∀ b < 5, g.sp.fpctl.getLsbD b = true → flags.testBit b = false

/-- The sources of a bit-for-bit word pass their checks (R105, R122, R153). -/
def BitsOk (c : Ctx) (ls : List Nat) (srcs : List Src) : Prop := c.checkBits ls srcs = .ok ()

/-- A comparison of two elements, and the flags it raises (R201). -/
def compares (f : Fmt) (ftz : Bool) (cond a b : Nat) : Bool × Nat :=
  match f with
  | .int w sg =>
    let x := intVal w sg a
    let y := intVal w sg b
    (match cond with
      | 0 => decide (x = y) | 1 => decide (x ≠ y) | 2 => decide (x < y) | 3 => decide (x ≤ y) | 4 => decide (x > y) | _ => decide (x ≥ y), 0)
  | _ =>
    if isNaNBits f a ∨ isNaNBits f b then
      (decide (cond = 1 ∨ cond = 6), if (2 ≤ cond ∧ cond ≤ 5) ∨ isSignalling f a ∨ isSignalling f b then flIV else 0)
    else
      let lt := (readNum f a ftz).lt (readNum f b ftz)
      let eq := (readNum f a ftz).eqv (readNum f b ftz)
      (match cond with | 0 => eq | 1 => !eq | 2 => lt | 3 => lt || eq | 4 => !(lt || eq) | 5 => !lt | 6 => false | _ => true, 0)

end Sys2Proof.Claims

section
open Sys2Proof Sys2Proof.Machine Sys2Proof.Claims

/-- R153, R155: the moves between lanes. -/
def Obligations.LaneMovesCopyWords : Prop :=
  ∀ (i : Instr) (s : State) (c : Ctx) r, moveRow i = some r → s.issuer = some c →
    ScalarsFull c.g (r.scalars ++ [r.m.setWidth 7]) → r.inRange c.width →
    BitsOk c (c.lanes r.m) (⟨r.a, r.wa, some 1⟩ :: r.others.map fun x => ⟨x.1, x.2, some 1⟩) → c.checkDst (c.lanes r.m) r.d 1 = .ok () →
    Runs i s (VectorResult c s (c.lanes r.m) (r.others.map fun x => (x.1, 1)) r.d 1 (c.g.v r.a.toNat).tag (r.rule c))

/-- R156, R157, R161: one lane to and from a scalar, votes, and the value of an index register. -/
def Obligations.LaneReadsWritesAndVotes : Prop :=
  (∀ (d : SReg) (a : VField) (b : SReg) sz wa (s : State) (c : Ctx), s.issuer = some c → ScalarsFull c.g [b, d] →
    BitsOk c (c.lanes 0) [⟨a, wa, some (if sz then 2 else 1)⟩] →
    let k := (c.g.s b.toNat).toNat % c.width
    Runs (.vrdl d a b sz wa) s (After c s (c.g.setS d.toNat
      (if sz then c.g.lane (a.toNat + 1) k ++ c.g.lane a.toNat k else (c.g.lane a.toNat k).setWidth 64))))
  ∧ (∀ (d : VField) (a b : SReg) sz (s : State) (c : Ctx), s.issuer = some c → ScalarsFull c.g [a, b] →
    c.checkDst (c.lanes 0) d (if sz then 2 else 1) = .ok () → d.direct = true →
    let k := (c.g.s b.toNat).toNat % c.width
    Runs (.vwrl d a b sz) s fun t => ∃ g : Group, After c s g t ∧ g.lane d.toNat k = (c.g.s a.toNat).setWidth 32
      ∧ (sz = true → g.lane (d.toNat + 1) k = (c.g.s a.toNat).extractLsb' 32 32)
      ∧ (∀ r l, ¬(l = k ∧ (r = d.toNat ∨ (sz = true ∧ r = d.toNat + 1))) → g.lane r l = c.g.lane r l)
      ∧ (∀ r, (g.v r).tag = (c.g.v r).tag ∧ (g.v r).full = (c.g.v r).full) ∧ g.sregs = c.g.sregs ∧ g.ctrs = c.g.ctrs ∧ g.sp = c.g.sp)
  ∧ (∀ (d : SReg) (a : VField) opr m wa (s : State) (c : Ctx), s.issuer = some c → ScalarsFull c.g [m.setWidth 7, d] →
    BitsOk c (c.lanes m) [⟨a, wa, some 1⟩] →
    Runs (.vvote d a opr m wa) s fun t => ∃ v : W64, After c s (c.g.setS d.toNat v) t
      ∧ (opr = 0 → v = if ∃ x ∈ laneBits c (c.lanes m) a 1, x.2 ≠ 0 then 1 else 0)
      ∧ (opr = 1 → v = if ∀ x ∈ laneBits c (c.lanes m) a 1, x.2 ≠ 0 then 1 else 0)
      ∧ (opr = 2 → ∀ l < 64, v.getLsbD l = decide (∃ x ∈ laneBits c (c.lanes m) a 1, x.1 = l ∧ x.2 ≠ 0)))
  ∧ (∀ (d : VField) x m (s : State) (c : Ctx), s.issuer = some c → ScalarsFull c.g [m.setWidth 7] → c.checkDst (c.lanes m) d 1 = .ok () →
    Runs (.xget d x m) s (VectorResult c s (c.lanes m) [] d 1 .n32 fun l _ _ => ⟨(c.g.x x.toNat l).toNat, 0⟩))

/-- R158: reductions and scans. -/
def Obligations.ReductionsAndScans : Prop :=
  (∀ (d : SReg) (a : VField) opr sz m wa (s : State) (c : Ctx) t, s.issuer = some c → opr.toNat ≤ 2 → ScalarsFull c.g [m.setWidth 7, d] →
    c.checkSrcs (c.lanes m) [⟨a, wa, some (if sz then 2 else 1)⟩] = .ok [(t, if sz then 2 else 1)] → reducible sz t →
    c.touched a 1 (c.lanes m) ≠ [] →
    let r := combineAll t c.ftz opr.toNat (laneBits c (c.lanes m) a (if sz then 2 else 1))
    NoTrap c.g r.flags →
    Runs (.vred d a opr sz m wa) s (After c s ((c.g.setS d.toNat (widened t r.bits)).raise r.flags)))
  ∧ (∀ (o : VU) opr x sz (s : State) (c : Ctx) t, s.issuer = some c → opr.toNat ≤ 2 → ScalarsFull c.g [o.m.setWidth 7] →
    let n := if sz then 2 else 1
    let ls := c.lanes o.m
    let vs := (laneBits c ls o.a n).filter fun y => (c.regAt o.d n y.1).isSome
    c.checkDst ls o.d n = .ok () → c.checkSrcs ls [⟨o.a, o.wa, some n⟩] = .ok [(t, n)] → reducible sz t → c.touched o.a 1 ls ≠ [] →
    NoTrap c.g (combineAll t c.ftz opr.toNat vs).flags →
    Runs (.vscan o opr x sz) s (VectorResult c s ls [(o.a, n)] o.d n t fun l xs _ =>
      let before := combineAll t c.ftz opr.toNat (vs.filter fun y => decide (y.1 < l))
      let after := combine (tagElems t).1 c.ftz opr.toNat before.bits (xs.getD 0 0)
      ⟨if x then before.bits else after.bits, after.flags⟩))

/-- R160, R162: index registers and their windows; nothing else of the group changes. -/
def Obligations.IndexRegistersAndWindows : Prop :=
  (∀ (x : BitVec 3) (a : VField) add m wa (s : State) (c : Ctx), s.issuer = some c → ScalarsFull c.g [m.setWidth 7] →
    BitsOk c (c.lanes m) [⟨a, wa, some 1⟩] →
    Runs (.xset x a add m wa) s fun t => ∃ xs, After c s { c.g with xregs := xs } t
      ∧ (∀ y ∈ laneBits c (c.lanes m) a 1, (({ c.g with xregs := xs } : Group).x x.toNat y.1)
          = (if add then c.g.x x.toNat y.1 else 0) + BitVec.ofNat 16 y.2)
      ∧ ∀ k l, (k ≠ x.toNat ∨ ∀ y ∈ laneBits c (c.lanes m) a 1, y.1 ≠ l) → ({ c.g with xregs := xs } : Group).x k l = c.g.x k l)
  ∧ (∀ (x : BitVec 3) (a : VField) (len : BitVec 6) (s : State) (c : Ctx), s.issuer = some c → a.toNat + len.toNat + 1 ≤ c.regs →
    Runs (.xwin x a len) s fun t => ∃ g : Group, After c s g t ∧ g = { c.g with windows := g.windows }
      ∧ g.window c.regs x.toNat = (a.toNat, len.toNat + 1) ∧ ∀ k, k ≠ x.toNat → g.window c.regs k = c.g.window c.regs k)

/-- R201: VCMP writes the mask of the active lanes whose comparison holds, every other bit 0; that the bit of an active lane which takes INDEX_WINDOW is 0
too is the model's choice (notes/assumptions 139, DESIGN CHOICE). -/
def Obligations.CompareWritesMask : Prop :=
  ∀ (d : SReg) (a b : VField) (cond : BitVec 3) m wa wb (s : State) (c : Ctx) (t : FTag), s.issuer = some c →
    ScalarsFull c.g [m.setWidth 7, d] →
    c.checkSrcs (c.lanes m) [⟨a, wa, none⟩, ⟨b, wb, none⟩] = .ok [(t, t.regs), (t, t.regs)] →
    c.touched a 1 (c.lanes m) ≠ [] → c.touched b 1 (c.lanes m) ≠ [] →
    (t = .i32 ∨ t = .n32 ∨ t = .i64 ∨ t = .n64 ∨ t = .f32 ∨ t = .f64) → (t.isInt = true → cond.toNat < 6) →
    let vs := (c.lanes m).filterMap fun l => match c.regAt a t.regs l, c.regAt b t.regs l with
      | some x, some y => some (l, compares (tagElems t).1 c.ftz cond.toNat (c.read x t.regs l) (c.read y t.regs l))
      | _, _ => none
    let fl := vs.foldl (fun n x => n ||| x.2.2) 0
    NoTrap c.g fl →
    Runs (.vcmp d a b cond m wa wb) s fun u => ∃ v : W64, After c s ((c.g.setS d.toNat v).raise fl) u
      ∧ ∀ l < 64, v.getLsbD l = decide (∃ x ∈ vs, x.1 = l ∧ x.2.1 = true)

/-- R216: VTAG moves the registers of the new tag's size under it; the source's own tag is not looked at. -/
def Obligations.RetagMovesBits : Prop :=
  ∀ (o : VU) (tag : BitVec 5) (t : FTag) (s : State) (c : Ctx), s.issuer = some c → tagOf tag.toNat = some t → ScalarsFull c.g [o.m.setWidth 7] →
    c.placed [(o.a, t.regs)] = .ok () → c.fullCheck [(⟨o.a, o.wa, some t.regs⟩, c.touched o.a t.regs (c.lanes o.m))] = .ok () →
    c.checkDst (c.lanes o.m) o.d t.regs = .ok () →
    Runs (.vtag o tag) s (VectorResult c s (c.lanes o.m) [(o.a, t.regs)] o.d t.regs t fun _ xs _ => ⟨xs.getD 0 0, 0⟩)
end
/-! ### Control (R130 to R146, R391) -/
namespace Sys2Proof.Claims
open Sys2Proof.Machine

/-- A word leaves its group's registers as in `g`, nothing else but splits, counters and quadrants changes, and a set of lanes goes on at an
address under a code capability. -/
def Goes (c : Ctx) (s : State) (g : Group) (lanes : Lanes) (a : W64) (code : Cap) (t : State) : Prop :=
  After c s g t ∧ ∃ h, t.group c.gid = some h ∧ h.LanesAt lanes a code

/-- The place after the issuing word: the next word of the clause, or the header that follows the clause (R120). -/
def after (c : Ctx) : W64 := c.cl.addr + BitVec.ofNat 64 (8 * (c.cl.next + 2))

/-- A direct target (R134): h + 8 x SignExtend(OFF, 32). -/
def directTarget (c : Ctx) (off : BitVec 32) : W64 := c.cl.addr + 8 * off.signExtend 64

/-- The link of a call (R133): the header that follows the calling clause. -/
def linkOf (c : Ctx) : W64 := c.cl.addr + BitVec.ofNat 64 (8 * ((decodeHeader c.cl.header).count.toNat + 2))

/-- The transfers that read no memory (R135, R136, R139, R140, R142): the scalars read, a condition without which the word traps, the group as
written, the place where the split goes on, and its code capability. -/
def transferRow (c : Ctx) : Instr → Option (List SReg × Bool × Group × W64 × Cap)
  | .nop => some ([], true, c.g, after c, c.p.code)
  | .bra off => some ([], true, c.g, directTarget c off, c.p.code)
  | .brz a off => some ([a], true, c.g, if c.g.s a.toNat = 0 then directTarget c off else after c, c.p.code)
  | .brnz a off => some ([a], true, c.g, if c.g.s a.toNat = 0 then after c else directTarget c off, c.p.code)
  | .mskip a off => some ([a], true, c.g, if c.g.s a.toNat &&& c.p.lanes = 0 then directTarget c off else after c, c.p.code)
  | .call off => some ([126], true, c.g.setS 126 (linkOf c), directTarget c off, c.p.code)
  | .ret a => some ([a], decide ((c.g.s a.toNat).toNat % 8 = 0), c.g, c.g.s a.toNat, c.p.code)
  | .retX => some ([124, 125], (c.g.sc 124).tag && (c.g.sc 124).kind == 2, c.g, (c.g.sc 124).addr, (c.g.sc 124).setBits 126 2 0)
  | .yield => some ([], true, c.g, linkOf c, c.p.code)
  | _ => none

/-- The uniform indexed transfers (R138): the table's capability pair, the index, the form, the scalars a call writes and what it writes. -/
def tableRow : Instr → Option (SReg × SReg × Bool × List SReg × (Ctx → Group → Group))
  | .jmpt a b => some (a, b, false, [], fun _ g => g)
  | .jmptC a b => some (a, b, true, [], fun _ g => g)
  | .callt a b => some (a, b, false, [126], fun c g => g.setS 126 (linkOf c))
  | .calltC a b => some (a, b, true, [126, 124, 125], fun c g =>
      (g.setS 126 (linkOf c)).setSc 124 { ((c.p.code.setAddr (linkOf c)).setBits 126 2 2) with tag := true })
  | _ => none

/-- The address of a table entry (R131): Z is 8 for form 0, 16 for form 1. -/
def entryAddr (tab : Cap) (form1 : Bool) (i : W64) : W64 := tab.addr + (if form1 then 16 else 8) * i

/-- The checks of a table entry pass (R131): a data capability that grants LD, in form 1 LC too, and covers the entry, which is aligned. -/
def TableCovers (tab : Cap) (form1 : Bool) (i : W64) : Prop :=
  let z := if form1 then 16 else 8
  tab.tag = true ∧ tab.kind = 0 ∧ tab.otype = 0 ∧ tab.grants (if form1 then permLD + permLC else permLD) = true
    ∧ (capDecode tab).1 ≤ (entryAddr tab form1 i).toNat ∧ tab.addr.toNat + z * (i.toNat + 1) ≤ (capDecode tab).2
    ∧ (entryAddr tab form1 i).toNat + z ≤ (capDecode tab).2 ∧ (entryAddr tab form1 i).toNat % z = 0

/-- The target an entry names, if it names one (R131). -/
def entryTarget (c : Ctx) (form1 : Bool) (v : Nat) (tag : Bool) : Option (W64 × Cap) :=
  let w := BitVec.ofNat 128 v
  if form1 then
    let e : Cap := ⟨w, tag⟩
    if tag ∧ e.kind = 2 ∧ e.addr.toNat % 8 = 0 then some (e.addr, e.setBits 126 2 0) else none
  else if w.extractLsb' 44 20 = 0 then some (c.p.code.addr + 8 * (w.setWidth 32).signExtend 64, c.p.code) else none

/-- What the vector transfers find in the lanes of their split (R126, R138, R140): JMPTV and CALLTV read an entry for each lane, RETV its link. -/
def vectorTargets (c : Ctx) (s : State) : Instr → Option LaneTargets
  | .jmptv a idx _ => some (laneTargets s (lanesOf c.width c.p.lanes) (laneTable c (c.g.sc a.toNat) idx))
  | .calltv a idx _ _ => some (laneTargets s (lanesOf c.width c.p.lanes) (laneTable c (c.g.sc a.toNat) idx))
  | .retv l _ => some (laneTargets s (lanesOf c.width c.p.lanes) fun s x =>
      let v : W64 := c.g.lane (l.toNat + 1) x ++ c.g.lane l.toNat x
      if v.toNat % 8 = 0 then (s, .target v .none_ c.p.code) else (s, .fault .align v))
  | _ => none

/-- The checks of a vector transfer's registers pass. -/
def VectorTransferReady (c : Ctx) : Instr → Prop
  | .jmptv a idx wi => a.toNat % 2 = 0 ∧ (∀ r ∈ pairRegs a.toNat, c.g.sFull r = true)
      ∧ c.checkBits (lanesOf c.width c.p.lanes) [⟨idx, wi, some 1⟩] = .ok ()
  | .calltv a idx wi link => a.toNat % 2 = 0 ∧ (∀ r ∈ pairRegs a.toNat, c.g.sFull r = true) ∧ link.direct = true ∧ c.checkDst (lanesOf c.width c.p.lanes) link 2 = .ok ()
      ∧ c.checkBits (lanesOf c.width c.p.lanes) [⟨idx, wi, some 1⟩] = .ok ()
  | .retv l wl => ∃ ts, c.checkSrcs (lanesOf c.width c.p.lanes) [⟨l, wl, some 2⟩] = .ok ts
  | _ => True

/-- A lane's entry of JMPTV's and CALLTV's table is at hand: its index register lies in its window, the entry passes its checks, its bytes are
`v`, which the group reads at once, and bits 63 to 44 of `v` are zero (R104, R131). -/
def EntryAtHand (c : Ctx) (s : State) (a : SReg) (idx : VField) (l : Nat) (v : Nat) : Prop :=
  ∃ r tag, c.regAt idx 1 l = some r ∧ TableCovers (c.g.sc a.toNat) false ((c.g.lane r l).setWidth 64)
    ∧ s.loadNow c.gid c.team.tenant (entryAddr (c.g.sc a.toNat) false ((c.g.lane r l).setWidth 64)) 8 = (s, .ok v tag)
    ∧ v / 2 ^ 44 % 2 ^ 20 = 0

/-- The target of such an entry (R131). -/
def tableGoal (c : Ctx) (v : Nat) : W64 := c.p.code.addr + 8 * ((BitVec.ofNat 32 v).signExtend 64)

/-- Every lane of the issuing split stands at its own target, with the registers of `g`. -/
def EachLaneGoes (c : Ctx) (s : State) (g : Group) (goal : Nat → W64) (t : State) : Prop :=
  After c s g t ∧ ∃ h, t.group c.gid = some h ∧ ∀ l ∈ lanesOf c.width c.p.lanes, h.LanesAt (1#64 <<< l) (goal l) c.p.code

/-- The registers after a vector transfer: CALLTV gives every lane that did not fault the link, as N64; the others write none. -/
def LinksWritten (c : Ctx) (r : LaneTargets) (g : Group) : Instr → Prop
  | .calltv _ _ _ link =>
      let good := (lanesOf c.width c.p.lanes).filter fun l => !r.faults.any fun f => f.1 == l
      (∀ l ∈ good, g.lane (link.toNat + 1) l ++ g.lane link.toNat l = linkOf c)
        ∧ (good ≠ [] → (g.v link.toNat).tag = .n64 ∧ (g.v link.toNat).full = true)
        ∧ (∀ x l, (l ∉ good ∨ (x ≠ link.toNat ∧ x ≠ link.toNat + 1)) → g.lane x l = c.g.lane x l)
        ∧ (∀ x, x ≠ link.toNat → x ≠ link.toNat + 1 → g.v x = c.g.v x)
        ∧ g.sregs = c.g.sregs ∧ g.sTags = c.g.sTags ∧ g.xregs = c.g.xregs ∧ g.ctrs = c.g.ctrs ∧ g.sp = c.g.sp
  | _ => g = c.g

/-- No split and no overflow entry of a group holds any of these lanes. -/
def Gone (g : Group) (lanes : Lanes) : Prop :=
  (∀ k p, NMap.find g.splits k = some p → p.lanes &&& lanes = 0) ∧ ∀ o ∈ g.overflow, o.lanes &&& lanes = 0

/-- The lanes of the issuing split stand nowhere else. -/
def Alone (c : Ctx) : Prop := Gone { c.g with splits := NMap.del c.g.splits c.site.split } c.p.lanes

/-- The issuing split is all that is left in handler mode (R391). -/
def LastHandlerSplit (c : Ctx) : Prop :=
  c.g.mode = .handler ∧ (∀ k, k ≠ c.site.split → NMap.find c.g.splits k = none) ∧ c.g.splits.length = 1 ∧ c.g.overflow = []
    ∧ c.g.nested = none ∧ c.g.nestedPending = none

/-- Writing a register of the group: which value, or which special register, an SSET leaves (R392). -/
def ssetGroup (r : Nat) (v : W64) (g : Group) : Option Group :=
  match r with
  | 0 => if g.mode = .handler ∧ v.toNat % 8 = 0 then some { g with sp := { g.sp with tpc := v } } else none
  | 5 => if v.toNat < 32 then some { g with sp := { g.sp with fpst := v } } else none
  | 6 => if v &&& 0xFFFFFFFFFFFFFEE0 = 0 then some { g with sp := { g.sp with fpctl := v } } else none
  | 17 => if v &&& 0xFF00000000000007 = 0 then some { g with sp := { g.sp with rfail := v } } else none
  | 18 => if v.extractLsb' 44 19 = 0 then some { g with sp := { g.sp with tvec := v } } else none
  | _ => none

end Sys2Proof.Claims

section
open Sys2Proof Sys2Proof.Machine Sys2Proof.Claims

/-- R135, R136, R139, R140, R142: where direct branches, CALL, RET, NOP and YIELD leave their split. -/
def Obligations.DirectTransfersMoveTheirSplit : Prop :=
  ∀ (i : Instr) (s : State) (c : Ctx) rs ok g a code, s.issuer = some c → transferRow c i = some (rs, ok, g, a, code) → ok = true →
    ScalarsFull c.g rs → c.g.lateMarks = [] → Runs i s (Goes c s g c.p.lanes a code)

/-- R137, R126: the lanes of BRV's mask branch, the others go on in the clause; where a side is empty the other is the whole split. -/
def Obligations.BrvDividesItsSplit : Prop :=
  ∀ (a : SReg) (off : BitVec 32) (s : State) (c : Ctx), s.issuer = some c → ScalarsFull c.g [a] → c.g.lateMarks = [] →
    let t := c.g.s a.toNat &&& c.p.lanes
    Runs (.brv a off) s fun u => (t ≠ 0 → Goes c s c.g t (directTarget c off) c.p.code u)
      ∧ (c.p.lanes &&& ~~~t ≠ 0 → Goes c s c.g (c.p.lanes &&& ~~~t) (after c) c.p.code u)

/-- R131, R133, R138: an indexed transfer whose entry passes the checks goes where the entry names, under the code capability it names; a call
leaves the link, and in form 1 the caller's sealed code capability. -/
def Obligations.TableTransfersFollowTheirEntry : Prop :=
  ∀ (i : Instr) (s s1 : State) (c : Ctx) a b form1 ds f v tag pc code, s.issuer = some c → tableRow i = some (a, b, form1, ds, f) →
    a.toNat % 2 = 0 → ScalarsFull c.g ([a, a + 1, b] ++ ds) → c.g.lateMarks = [] → TableCovers (c.g.sc a.toNat) form1 (c.g.s b.toNat) →
    s.loadNow c.gid c.team.tenant (entryAddr (c.g.sc a.toNat) form1 (c.g.s b.toNat)) (if form1 then 16 else 8) = (s1, .ok v tag) →
    s1.group c.gid = some c.g → entryTarget c form1 v tag = some (pc, code) →
    Runs i s (Goes c s1 (f c c.g) c.p.lanes pc code)

/-- R126, R128, R138, R140: each lane of a vector transfer goes where its own entry or link names, lanes of one target together (targets that differ only
in the label they expect stay apart: notes/assumptions 118, DESIGN CHOICE); the lanes whose entry or link fails go to the current record, where none is
occupied. JMPTV and CALLTV complete where the entries of all lanes are at hand, RETV where every lane's link is a multiple of 8. -/
def Obligations.VectorTransfersFollowEachLane : Prop :=
  (∀ (i : Instr) (s : State) (c : Ctx) r, s.issuer = some c → vectorTargets c s i = some r → VectorTransferReady c i → r.wait = false →
    r.s.group c.gid = some c.g → c.g.lateMarks = [] →
    Runs i s fun t => ∃ g, (Cause.integrity ∉ faultCauses r.faults → OnlyGroup c.gid r.s t) ∧ LinksWritten c r g i
      ∧ ∃ h, t.group c.gid = some h ∧ h.RegsOf g ∧ (c.p.dbgStep = false → h.sp = g.sp) ∧ (∀ d ∈ r.dests, h.LanesAt d.lanes d.pc d.code)
      ∧ (c.g.cur = none → r.faults ≠ [] → ∃ d, h.cur = some d ∧ d.word = c.cl.addr + BitVec.ofNat 64 (8 * (c.cl.next + 1))
          ∧ d.lanes = lanesMask (r.faults.map Prod.fst) ∧ d.code = c.p.code ∧ lowestFault r.faults = some (d.cause, d.flm, d.info)))
  ∧ (∀ (a : SReg) (idx : VField) (wi : Bool) (entry : Nat → Nat) (s : State) (c : Ctx), s.issuer = some c → c.g.lateMarks = [] →
    (∀ l ∈ lanesOf c.width c.p.lanes, EntryAtHand c s a idx l (entry l)) →
    (VectorTransferReady c (.jmptv a idx wi) → Runs (.jmptv a idx wi) s (EachLaneGoes c s c.g fun l => tableGoal c (entry l)))
    ∧ ∀ link, VectorTransferReady c (.calltv a idx wi link) → Runs (.calltv a idx wi link) s fun t =>
        ∃ g : Group, EachLaneGoes c s g (fun l => tableGoal c (entry l)) t
          ∧ (∀ l ∈ lanesOf c.width c.p.lanes, g.lane (link.toNat + 1) l ++ g.lane link.toNat l = linkOf c)
          ∧ (∀ x l, (l ∉ lanesOf c.width c.p.lanes ∨ (x ≠ link.toNat ∧ x ≠ link.toNat + 1)) → g.lane x l = c.g.lane x l)
          ∧ g.sregs = c.g.sregs ∧ g.xregs = c.g.xregs ∧ g.ctrs = c.g.ctrs ∧ g.sp = c.g.sp)
  ∧ ∀ (l : VField) (wl : Bool) (s : State) (c : Ctx), s.issuer = some c → c.g.lateMarks = [] → VectorTransferReady c (.retv l wl) →
    let link := fun x => c.g.lane (l.toNat + 1) x ++ c.g.lane l.toNat x
    (∀ x ∈ lanesOf c.width c.p.lanes, (link x).toNat % 8 = 0) → Runs (.retv l wl) s (EachLaneGoes c s c.g link)

/-- R128, R391: TRAP stops its whole split at the word, with TRAP_INSN for the active lanes and its code as tinfo; BKPT outside a debug session
likewise with BKPT; with no active lane both go on. R386, R403: under a debug session BKPT halts its group at the word; that its cause then stands in
tcause is the model's reading (notes/assumptions 79, DEDUCED). -/
def Obligations.TrapAndBkptStopTheirSplit : Prop :=
  ∀ (code : BitVec 16) (m : MField) (s : State) (c : Ctx), s.issuer = some c → ScalarsFull c.g [m.setWidth 7] → c.g.cur = none →
    c.g.lateMarks = [] →
    (c.active m ≠ 0 → Runs (.trap code m) s (Raises c s .trapInsn (c.active m) (code.setWidth 64))
      ∧ (c.g.halted = false → s.debugReach c.core = false → Runs (.bkpt m) s (Raises c s .bkpt (c.active m) 0))
      ∧ (c.g.halted = true ∨ s.debugReach c.core = true → Runs (.bkpt m) s fun t => OnlyGroup c.gid s t
          ∧ ∃ h, t.group c.gid = some h ∧ h.RegsOf c.g ∧ h.halted = true ∧ h.sp = { c.g.sp with tcause := BitVec.ofNat 64 Cause.bkpt.code, tinfo := 0 }
            ∧ h.LanesAt c.p.lanes (c.cl.addr + BitVec.ofNat 64 (8 * (c.cl.next + 1))) c.p.code))
    ∧ (c.active m = 0 → Runs (.trap code m) s (Goes c s c.g c.p.lanes (after c) c.p.code)
      ∧ Runs (.bkpt m) s (Goes c s c.g c.p.lanes (after c) c.p.code))

/-- R146, R392: SPLITS and SGET write one scalar with the value the manual gives, and go on. -/
def Obligations.SplitsAndSgetReadState : Prop :=
  ∀ (d : SReg) (s : State) (c : Ctx), s.issuer = some c → ScalarsFull c.g [d] →
    (∀ var : BitVec 2, Runs (.splits d var) s (After c s (c.g.setS d.toNat (match var.toNat with
      | 0 => c.p.lanes
      | 1 => BitVec.ofNat 64 (c.g.splits.length + 8 * c.site.split + (if c.g.overflow = [] then 0 else 32)
          + (if c.g.stopped = none then 0 else 64) + (if c.g.pending = none then 0 else 128))
      | 2 => c.g.overflow.foldl (fun m o => m ||| o.lanes) 0
      | _ => match c.g.stopped with | some r => r.lanes | none => 0))))
    ∧ ∀ (r : BitVec 8) v, (match r.toNat with
        | 0 => v = c.g.sp.tpc | 1 => v = c.g.sp.tcause | 2 => v = c.g.sp.flm | 3 => v = c.g.sp.tsplit | 4 => v = c.g.sp.tinfo
        | 5 => v = c.g.sp.fpst | 6 => v = c.g.sp.fpctl | 9 => v = c.g.sp.rwpc | 17 => v = c.g.sp.rfail | 18 => v = c.g.sp.tvec
        | 19 => v = 0
        | 10 => v = BitVec.ofNat 64 (c.team.incn % 2 ^ 12)
        | 14 => v = BitVec.ofNat 64 c.team.index
        | 20 => v = (s.tenant c.team.tenant).troute0
        | 21 => v = (s.tenant c.team.tenant).troute1
        | 22 => v = (s.tenant c.team.tenant).troute2
        | _ => False) →
      Runs (.sget d r) s (After c s (c.g.setS d.toNat v))

/-- R392: SSET writes the register it names, and no other; a value outside the register's rule is RESERVED_FIELD; TROUTE, TLBI and rfail are
level S's. -/
def Obligations.SsetWritesOneRegister : Prop :=
  (∀ (a : SReg) (r : BitVec 8) (s : State) (c : Ctx) g, s.issuer = some c → ScalarsFull c.g [a] → (r.toNat = 17 → c.team.sLevel = true) →
    ssetGroup r.toNat (c.g.s a.toNat) c.g = some g → Runs (.sset a r) s (After c s g))
  ∧ (∀ (a : SReg) (r : BitVec 8) (s : State) (c : Ctx), s.issuer = some c → ScalarsFull c.g [a] → (r.toNat = 17 → c.team.sLevel = true) →
    (r.toNat = 5 ∨ r.toNat = 6 ∨ r.toNat = 17 ∨ r.toNat = 18) → ssetGroup r.toNat (c.g.s a.toNat) c.g = none → c.g.cur = none →
    c.g.lateMarks = [] → Runs (.sset a r) s (Raises c s .reservedField c.p.lanes 0))
  ∧ (∀ (a : SReg) (r : BitVec 8) (s : State) (c : Ctx), s.issuer = some c → 19 ≤ r.toNat ∧ r.toNat ≤ 22 ∨ r.toNat = 17 →
    c.team.sLevel = false → c.g.cur = none → c.g.lateMarks = [] → Runs (.sset a r) s (Raises c s .privilege c.p.lanes 0))

/-- R123, R145: PWAIT changes no register and holds its split while the path counter is above its number. R143, R144: BAR holds its split for the barrier's next generation and changes nothing but the barriers of its team; a group that is the whole
team, and stands at the barrier with all its work done, passes at once. BARR holds its split for the rick barrier's next generation. -/
def Obligations.PwaitAndBarriersHoldTheirSplit : Prop :=
  (∀ (n : BitVec 3) (k : BitVec 4) (s : State) (c : Ctx), s.issuer = some c → c.g.lateMarks = [] →
    Runs (.pwait n k) s fun t => After c s c.g t ∧ ∃ h, t.group c.gid = some h ∧ h.LanesHeld c.p.lanes [.pLe n.toNat k.toNat])
  ∧ (∀ (n count) (s : State) (c : Ctx), s.issuer = some c → c.g.lateMarks = [] →
    let gen := (NMap.getD c.team.barriers n.toNat .fresh).gen
    Runs (.bar n count) s fun t => ∃ h, t.group c.gid = some h ∧ h.RegsOf c.g ∧ h.LanesHeld c.p.lanes [.barrier n.toNat gen count.toNat]
      ∧ t.mem = s.mem ∧ (∀ j, j ≠ c.gid → t.group j = s.group j)
      ∧ (c.g.splits = [(c.site.split, c.p)] → c.g.overflow = [] → c.g.stopped = none → c.g.pending = none → c.g.mode = .normal →
          c.g.halted = false → c.p.dbgStep = false → c.team.groups = [(c.gid.group, c.g)] → c.team.barriers = [] →
          (count = 0 ∨ count = 1) → c.g.p 0 = 0 → c.g.p 2 = 0 → c.g.lates = [] →
          ∃ u, t.team c.core c.gid.slot = some u ∧ (NMap.getD u.barriers n.toNat .fresh).gen = gen + 1))
  ∧ ∀ (s : State) (c : Ctx), s.issuer = some c → c.g.lateMarks = [] →
    Runs .barr s fun t => ∃ h, t.group c.gid = some h ∧ h.RegsOf c.g ∧ h.LanesHeld c.p.lanes [.rickBarrier c.team.barr.gen]

/-- R141, R391: the lanes of the split that exits stand nowhere any more, and the group's registers stay; with the last lanes of a handler the
stopped record is discarded and the group is as before the handler. -/
def Obligations.ExitEndsItsLanes : Prop :=
  ∀ (s : State) (c : Ctx), s.issuer = some c → c.g.lateMarks = [] →
    (Alone c → ¬LastHandlerSplit c →
      Runs .exit s fun t => ∃ h, t.group c.gid = some h ∧ h.RegsOf c.g ∧ h.exited = c.g.exited ||| c.p.lanes ∧ Gone h c.p.lanes)
    ∧ (LastHandlerSplit c → c.g.stopped ≠ none →
      Runs .exit s fun t => ∃ h, t.group c.gid = some h ∧ h.RegsOf c.g ∧ h.exited = c.g.exited ||| c.p.lanes ∧ h.mode = c.g.shadowMode
        ∧ h.stopped = c.g.shadowPending ∧ h.pending = none)

/-- R391: the returns from a handler. RETRY: the lanes go on at the stopped word or header, SKIP: behind it, CONT: behind the returning clause;
the mode is that of before the handler, and the record that waited becomes the stopped one. -/
def Obligations.EretReturnsFromTheHandler : Prop :=
  ∀ (s : State) (c : Ctx) r, s.issuer = some c → LastHandlerSplit c → c.g.stopped = some r → c.p.lanes ≠ 0 → c.g.lateMarks = [] →
    c.p.dbgStep = false →
    (∀ cl, r.clause = some cl → r.atHeader = false → r.word = cl.wordAddr cl.next → cl.next < cl.count →
      Runs .eret s (Goes c s c.g c.p.lanes r.word r.code) ∧ Runs .eretSkip s (Goes c s c.g c.p.lanes (r.word + 8) r.code))
    ∧ (r.atHeader = true ∨ r.clause = none → Runs .eret s fun t => ∃ h, t.group c.gid = some h ∧ h.LanesAt c.p.lanes r.word r.code)
    ∧ Runs .eretCont s (Goes c s c.g c.p.lanes (linkOf c) c.p.code)
    ∧ ∀ i, (i = Instr.eret ∨ i = Instr.eretSkip ∨ i = Instr.eretCont) →
      Runs i s fun t => ∃ h, t.group c.gid = some h ∧ h.RegsOf c.g ∧ h.sp = c.g.sp ∧ h.mode = c.g.shadowMode ∧ h.handlerLanes = 0
        ∧ h.stopped = c.g.shadowPending ∧ h.pending = none

/-- R391, R401: ERET outside handler mode and recipes is PRIVILEGE; in a recipe RETRY goes to rwpc, and the others are RESERVED_FIELD. That RETRY goes on
under the team's code capability is the model's reading: the manual names none (notes/assumptions 89, DEDUCED). -/
def Obligations.EretOutsideAHandler : Prop :=
  ∀ i (s : State) (c : Ctx), (i = Instr.eret ∨ i = Instr.eretSkip ∨ i = Instr.eretCont) → s.issuer = some c → c.g.lateMarks = [] →
    (c.g.mode = .normal → c.g.cur = none → Runs i s (Raises c s .privilege c.p.lanes 0))
    ∧ (c.g.mode = .recipe → i = Instr.eret → Runs i s fun t =>
        Goes c s c.g c.p.lanes (c.g.sp.rwpc &&& 0xFFFFFFFFFFFFFFF8) c.team.codeCap t ∧ ∃ h, t.group c.gid = some h ∧ h.mode = .normal)
    ∧ (c.g.mode = .recipe → i ≠ Instr.eret → c.g.cur = none → Runs i s (Raises c s .reservedField c.p.lanes 0))
end

/-! ### MEM and LOCAL (R251 to R274) -/
namespace Sys2Proof.Claims
open Sys2Proof.Machine

/-- A group waits for registers: those named are empty and keep their words and tags; every other register is as before (R121, R148). -/
def Emptied (g : Group) (vs ss : List Nat) (h : Group) : Prop :=
  (∀ r, h.v r = if r ∈ vs then { g.v r with full := false } else g.v r) ∧ h.qtags = g.qtags ∧ h.sregs = g.sregs ∧ h.sTags = g.sTags
    ∧ (∀ r, h.sFull r = (g.sFull r && decide (r ∉ ss ∨ r = 0))) ∧ h.xregs = g.xregs ∧ h.windows = g.windows ∧ h.sends = g.sends ∧ h.seq = g.seq

/-- The registers named by a direct destination of `n` registers, and those that lanes name through a window. -/
def destinations (f : VField) (n : Nat) (rs : List LaneReq) : List Nat :=
  ((if f.toNat < 1536 then (List.range n).map fun j => f.toNat + j else []) ++ rs.flatMap LaneReq.regs).dedup

/-- The address of a lane's access (R251): capability address, offset register (signed under I32), IMM8 in units. -/
def laneAddress (c : Ctx) (o : MOp) (unit l r : Nat) : W64 :=
  let k := if o.bsel then c.g.sc o.base.toNat else c.g.quad (4 * o.base.toNat) l
  let w := c.g.lane r l
  k.addr + (if (c.g.v r).tag = .i32 then w.signExtend 64 else w.setWidth 64) + o.imm8.signExtend 64 * BitVec.ofNat 64 unit

/-- The load words (R253, R261, R263, R264): the operand, and the access: bytes, registers, tag, record or not. -/
def loadRow : Instr → Option (MOp × LoadSpec)
  | .ld tag o => match tagOf tag.toNat with
    | none => none
    | some t =>
      let ok : Bool := match o.size.toNat with
        | 0 => t == .raw || t == .i32 || t == .n32
        | 1 => t == .raw || t == .i32 || t == .n32
        | 2 => t.regs == 1
        | 3 => t == .raw || t == .i64 || t == .n64 || t == .f64
        | 4 => t == .raw || t == .cap || t == .route
        | _ => false
      if ok then some (o, ⟨2 ^ o.size.toNat, max 1 (2 ^ o.size.toNat / 4), t, .load o.size.toNat t, false, o.size.toNat == 3⟩) else none
  | .ldRec tag o => match tagOf tag.toNat with
    | some .e4m3x4 => some (o, ⟨33, 9, .e4m3x4, .load 5 .e4m3x4, true, false⟩)
    | some .e5m2x4 => some (o, ⟨33, 9, .e5m2x4, .load 5 .e5m2x4, true, false⟩)
    | some .mxi8x4 => some (o, ⟨33, 9, .mxi8x4, .load 5 .mxi8x4, true, false⟩)
    | some .e3m2s => some (o, ⟨25, 7, .e3m2s, .load 5 .e3m2s, true, false⟩)
    | some .e2m3s => some (o, ⟨25, 7, .e2m3s, .load 5 .e2m3s, true, false⟩)
    | some .e2m1x8 => some (o, ⟨17, 5, .e2m1x8, .load 5 .e2m1x8, true, false⟩)
    | _ => none
  | .ldc o => some (o, ⟨16, 4, .cap, .loadCap true, false, false⟩)
  | _ => none

/-- Every lane of a load passes its checks and its translation, lane after lane, and none must wait: the requests they make (R252). -/
def ReadsAll (c : Ctx) (o : MOp) (sp : LoadSpec) (id : Nat) : State → List Nat → State → List LaneReq → Prop
  | s, [], s', rs => s' = s ∧ rs = []
  | s, l :: ls, s', rs => ∃ ro rt s1 bs t rest, c.regAt o.off 1 l = some ro ∧ c.regAt o.t sp.regs l = some rt
      ∧ loadAccess s c id sp o.order.toNat o.scope.toNat (c.memCap o l) (laneAddress c o sp.n l ro) = (s1, .bytes bs t)
      ∧ ReadsAll c o sp id s1 ls s' rest
      ∧ rs = ⟨l, (List.range sp.regs).map fun j => rt + j, bs, t, laneAddress c o sp.n l ro, if (c.memCap o l).grants permLC then 1 else 0⟩ :: rest

/-- A group holds a late result like `l`; merging splits may move it to another slot. -/
def Holds (g : Group) (l : Late) : Prop := ∃ x ∈ g.lates, { x with split := l.split } = l

/-- Nothing changes but one group, the counters and quadrants of the cores, and the steps that are due. -/
def OnlyGroupAndAgenda (i : GroupId) (s t : State) : Prop := OnlyGroup i { s with agenda := [] } { t with agenda := [] }

/-- A store word: its operand, data registers, access unit, the tags it accepts, and for a lane from its first data register the permissions, the
value, and whether the value is a tagged capability without GL (R263). -/
structure StoreRow where
  o : MOp
  regs : Nat
  unit : Nat
  accepts : Ctx → List Nat → FTag → Prop
  need : Ctx → State → Nat → Nat → Nat
  value : Ctx → Nat → Nat → Nat
  escapes : Ctx → Nat → Nat → Bool
  block : Bool

/-- The store words (R253, R261, R263, R264). -/
def storeRow : Instr → Option StoreRow
  | .st o => some ⟨o, max 1 (2 ^ o.size.toNat / 4), 2 ^ o.size.toNat,
      fun c ls t => sizeTagOk o.size.toNat t = true ∧ ∀ r ∈ c.touched o.t (max 1 (2 ^ o.size.toNat / 4)) ls, (c.g.v r).tag = t,
      fun _ _ _ _ => permST, fun c r l => c.read r (max 1 (2 ^ o.size.toNat / 4)) l % 256 ^ 2 ^ o.size.toNat, fun _ _ _ => false, false⟩
  | .stc o => some ⟨o, 4, 16, fun c ls t => (t = .raw ∨ t = .cap ∨ t = .route) ∧ ∀ r ∈ c.touched o.t 4 ls, (c.g.v r).tag = t,
      fun c _ r l => if (c.g.quad r l).tag then permST + permSC else permST, fun c r l => (c.g.quad r l).bits.toNat,
      fun c r l => (c.g.quad r l).tag && !(c.g.quad r l).grants permGL, false⟩
  | _ => none

/-- The stored byte at an address of a word's stores: the highest lane's (R254). -/
def lastByte (xs : List (W64 × Nat × Nat)) (a : Nat) : Option Byte :=
  xs.foldl (fun b x => if x.1.toNat ≤ a ∧ a < x.1.toNat + x.2.1 then some (BitVec.ofNat 8 (x.2.2 / 256 ^ (a - x.1.toNat))) else b) none

/-- The byte that pieces hold at an address. -/
def pieceByte (ps : List Piece) (a : Nat) : Option Byte :=
  match ps.find? fun p => p.va == a / 128 with
  | some p => if p.mask.getLsbD (a % 128) then some (lineByte p.data (a % 128)) else none
  | none => none

/-- A lane's checks pass and its address is no control region known at issue (R244, R252, R263). -/
def StorePasses (s : State) (c : Ctx) (k : Cap) (a : W64) (n need : Nat) (block gl : Bool) : Prop :=
  capCheck k a n need = none ∧ (block = false → a.toNat % min n 16 = 0) ∧ (gl = true → k.grants permGL = false) ∧ storeRegion s c a = none
    ∧ a.toNat + n < 2 ^ 64

/-- Every lane of an atomic passes its checks and its translation, lane after lane (R265, R266, R267). -/
def AtomsAll (c : Ctx) (o : MOp) (op : Nat) : State → List Nat → State → List LaneReq → Prop
  | s, [], s', rs => s' = s ∧ rs = []
  | s, l :: ls, s', rs => ∃ ro rt s1 pa rest,
      let n := 2 ^ o.size.toNat
      let k := n / 4
      let a := laneAddress c o n l ro
      c.regAt o.off 1 l = some ro ∧ c.atomReg o.t k (op == 7) l = some rt ∧ atomHost s c n (c.memCap o l) a = none ∧ atomAccess s c n (c.memCap o l) a = (s1, .ok pa)
      ∧ AtomsAll c o op s1 ls s' rest
      ∧ rs = ⟨l, (List.range k).map fun j => rt + j, (List.range n).map fun j => ⟨pa + j, a + BitVec.ofNat 64 j, none⟩, none,
          BitVec.ofNat 64 (c.read rt k l), if op = 7 then BitVec.ofNat 64 (c.read (rt + k) k l) else 0⟩ :: rest

/-- The physical line of a request is the device's, and its atomic is performed at home, or in the hearth (R267). -/
def Placed (home : Bool) (o : MOp) (r : LaneReq) : Prop :=
  isHostLine r.line = false ∧ (if home then 3 ≤ o.scope.toNat ∨ o.order = 5 else o.scope.toNat < 3 ∧ o.order ≠ 5)

/-- The new value of a location (R266), from the old value, v and w, in `n` bytes. -/
def atomNew (op n : Nat) (signed : Bool) (old v w : Nat) : Nat :=
  let val := fun x : Nat => if signed ∧ 2 ^ (8 * n - 1) ≤ x then (x : Int) - 2 ^ (8 * n) else (x : Int)
  match op with
  | 0 => (old + v) % 2 ^ (8 * n)
  | 1 => if val v < val old then v else old
  | 2 => if val v < val old then old else v
  | 3 => old &&& v
  | 4 => old ||| v
  | 5 => old ^^^ v
  | 6 => v
  | 7 => if old = v then w else old
  | 8 => (rounded2 Machine.Num.add (if n = 4 then .f32 else .f64) false [old, v]).bits
  | _ => (fmin (if n = 4 then .f32 else .f64) false true (old % 2 ^ (8 * n - 1)) (v % 2 ^ (8 * n - 1))).bits

/-- The byte of its owner's dirty-page map that holds the bit of an address's page (R231). -/
def dirtyByteAt (s : State) (pa : Nat) : Option Nat :=
  (s.ownerOf pa).bind fun n =>
    (s.tenant n).paOf ((s.tenant n).dpb (pa / Config.dieSpan) + (pa % Config.dieSpan - (s.tenant n).winBase (pa / Config.dieSpan)) / 4096 / 8)

/-- The same of an address's line. -/
def dirtyByte (s : State) (pa : Nat) : Option Nat := dirtyByteAt s (pa / 128 * 128)

/-- The address of a lane's LOCAL access in a share, if it lies in the share and is aligned (R271). -/
def shareAddress (c : Ctx) (o : MOp) (share r l : Nat) : Option Nat :=
  let n := 2 ^ o.size.toNat
  let w := c.g.lane r l
  let a : Int := ((c.g.s o.base.toNat).toNat % 2 ^ 32 : Nat) + (if (c.g.v r).tag = .i32 then w.toInt else w.toNat) + o.imm8.toInt * n
  if 0 ≤ a ∧ a + n ≤ share ∧ a % n = 0 then some a.toNat else none

/-- The lanes of a LOCAL word with their addresses and first data registers; nothing where a lane has none. -/
def shareAccesses (c : Ctx) (o : MOp) (share : Nat) (reg : Nat → Option Nat) (ls : List Nat) : Option (List (Nat × Nat × Nat)) :=
  ls.mapM fun l => do
    let ro ← c.regAt o.off 1 l
    let rt ← reg l
    let a ← shareAddress c o share ro l
    pure (l, a, rt)

/-- The little-endian number of `n` bytes of a share. -/
def shareNat (f : Nat → Byte) (a : Nat) : Nat → Nat
  | 0 => 0
  | n + 1 => (f a).toNat + 256 * shareNat f (a + 1) n

/-- A LOCAL word may act: its registers are ready, nothing it must wait for is outstanding, and it reaches a team's share (R271 to R274). -/
def LocalReady (s : State) (c : Ctx) (o : MOp) (regs : Nat) (cluster load : Bool) (counter : Option Nat) (tg : Nat × Nat) (x : Team) : Prop :=
  c.localReady o (c.lanes o.m) regs = .ok () ∧ c.localWaits load o.order.toNat o.scope.toNat counter = []
    ∧ localRelease s c load o.order.toNat o.scope.toNat = none ∧ localTarget s c cluster (c.g.s o.base.toNat) = some tg ∧ s.team tg.1 tg.2 = some x

/-- The bytes of a team's share. -/
def shareByte (t : Team) (a : Nat) : Byte := NMap.getD t.scratch a 0

/-- One atomic after another on a share (R272): the bytes, and the old values in lane order. -/
def shareAtomics (op n : Nat) (signed : Bool) (vw : Nat × Nat × Nat → Nat × Nat) :
    (Nat → Byte) → List (Nat × Nat × Nat) → (Nat → Byte) × List Nat
  | f, [] => (f, [])
  | f, x :: r =>
    let old := shareNat f x.2.1 n
    let nw := atomNew op n signed old (vw x).1 (vw x).2
    let f1 := fun a => if x.2.1 ≤ a ∧ a < x.2.1 + n then BitVec.ofNat 8 (nw / 256 ^ (a - x.2.1)) else f a
    ((shareAtomics op n signed vw f1 r).1, old :: (shareAtomics op n signed vw f1 r).2)

end Sys2Proof.Claims

section
open Sys2Proof Sys2Proof.Machine Sys2Proof.Claims

/-- R121, R129, R252 to R254, R261, R263, R264: a vector load whose active lanes pass their checks leaves its destination registers empty and a
late result that knows each lane's bytes and registers, also where no lane is active; nothing else of the machine changes after the accesses. -/
def Obligations.VectorLoadsAskForTheirBytes : Prop :=
  ∀ (i : Instr) (s s' : State) (c : Ctx) o sp rs, s.issuer = some c → loadRow i = some (o, sp) → c.memReady o (c.lanes o.m) sp.regs = .ok () →
    c.scLoadWaits o.order.toNat o.scope.toNat = [] → ReadsAll c o sp s.freshId s.useId (c.lanes o.m) s' rs → s'.group c.gid = some c.g →
    Runs i s fun t => OnlyGroupAndAgenda c.gid s' t ∧ ∃ h, t.group c.gid = some h
      ∧ Emptied c.g (destinations o.t sp.regs rs) [] h ∧ h.ctrs = c.g.ctrs ∧ (c.p.dbgStep = false → h.sp = c.g.sp)
      ∧ Holds h { c.mkLate s.freshId sp.kind rs with
          vdests := destinations o.t sp.regs rs, newTag := some sp.tag, acquire := isAcquire o.order.toNat
          dropL1 := isAcquire o.order.toNat && decide (2 ≤ o.scope.toNat), racq := o.order.toNat == 5 }
      ∧ (t.agenda = s'.agenda ∨ t.agenda = s'.agenda ++ [⟨.loadReturn c.gid s.freshId, Request.zero⟩])

/-- R224, R236, R252, R262: LDU of a device line that no hearth entry, no L1 and no copy holds and no holder has, reads the home's bytes: S[T] is
empty, a late result holds the bytes, and its return is due; memory does not change but for the page walk's marks. -/
def Obligations.LduReadsMemory : Prop :=
  ∀ (o : MOp) (s s1 : State) (c : Ctx) pa, s.issuer = some c → o.base.toNat % 2 = 0 → o.size.toNat ≤ 3 → o.t.toNat < 128 →
    (∀ r ∈ pairRegs o.base.toNat ++ [o.off.toNat % 128, o.t.toNat], c.g.sFull r = true) →
    c.scLoadWaits o.order.toNat o.scope.toNat = [] →
    let n := 2 ^ o.size.toNat
    let a := (c.g.sc o.base.toNat).addr + c.g.s (o.off.toNat % 128) + o.imm8.signExtend 64 * BitVec.ofNat 64 n
    capCheck (c.g.sc o.base.toNat) a n permLD = none → a.toNat % n = 0 → s.useId.pageHost c.core c.team.tenant a .load = none →
    translate s.useId c.core c.team.tenant a .load = (s1, .ok (.mem pa)) → pa % 128 = a.toNat % 128 → s1.group c.gid = some c.g →
    s1.ownWaits c.gid (a.toNat / 128) = [] → s1.loadWaits c.gid s.freshId (a.toNat / 128) (pa / 128) = [] → s1.frozen (pa / 128) = false → (∀ ie ∈ (s1.core c.core).hearth, ie.2.va ≠ a.toNat / 128) →
    NMap.find (s1.core c.core).l1 (pa / 128) = none → isHostLine (pa / 128) = false → s1.copiesAt (pa / 128) = 0 →
    (o.order = 5 → (s1.dirAt (pa / 128)).rp = false) → (s1.dirAt (pa / 128)).answersNow = true → s1.lineFault (pa / 128) = none →
    Runs (.ldu o) s fun t => t.mem = s1.mem ∧ ∃ h, t.group c.gid = some h ∧ Emptied c.g [] [o.t.toNat] h ∧ h.ctrs = c.g.ctrs ∧ h.sp.rwpc = c.g.sp.rwpc
      ∧ (∃ l ∈ h.lates, l.id = s.freshId ∧ l.kind = .loadU o.size.toNat ∧ l.sdests = (if o.t = 0 then [] else [o.t.toNat]) ∧ l.faults = []
          ∧ l.pendingBytes = false ∧ l.reqs.map LaneReq.value = [s1.natAt pa n])
      ∧ ⟨.loadReturn c.gid s.freshId, Request.zero⟩ ∈ t.agenda

/-- R121, R254, R263: a late result whose bytes are all there writes each lane's registers, makes them full under its tag, and is gone; an LDU writes
its scalar; no other register and no other group changes. The return of any result that is complete leaves the group without it; a result that waits
for bytes, or for the topology map to stand still or to be readable, stays as it is. A record's last register carries E8M0X4 (R264); of a record
whose register no lane names, the last of its destination. -/
def Obligations.LoadReturnsFillTheirRegisters : Prop :=
  (∀ (s : State) (i : GroupId) (g : Group) (tm : Team) (l : Late), s.group i = some g → s.team i.core i.slot = some tm → g.late l.id = some l →
    let shut := s.routeWaits i tm.tenant l
    let waits := l.pendingBytes = true ∨ (shut = none ∧ (∃ items, l.kind = .rtchk items) ∧ s.mapMoving tm.tenant = true)
    (waits → Runs (.loadReturn i l.id) s fun u => u = s)
    ∧ (¬waits → shut ≠ none → Runs (.loadReturn i l.id) s fun u => u.mem = s.mem ∧ u.cores = s.cores)
    ∧ (¬waits → shut = none → Runs (.loadReturn i l.id) s fun u => ((∀ f ∈ l.faults, f.2 ≠ .integrity) → u.mem = s.mem)
        ∧ (∀ j, j ≠ i → u.group j = s.group j) ∧ ∃ h, u.group i = some h
        ∧ h.late l.id = none ∧ h.lates = g.lates.filter (fun x => x.id != l.id) ∧ (∀ x, x ∉ l.sdests → (∀ w ∈ l.swrites, w.1 ≠ x) → h.s x = g.s x ∧ h.sFull x = g.sFull x)
        ∧ h.ctrs = g.ctrs ∧ h.sp = g.sp ∧ h.splits = g.splits))
  ∧ ∀ (s : State) (i : GroupId) (g : Group) (l : Late), s.group i = some g → g.late l.id = some l → l.pendingBytes = false → l.faults = [] →
    l.vwrites = [] → l.swrites = [] → (∀ x ∈ g.lates, x.id ≠ l.id → ∀ r ∈ x.vdests, r ∉ l.vdests) → l.dropL1 = false → l.vdests.Nodup →
    (∀ size t, l.kind = .load size t → l.sdests = [] → (l.reqs.map fun r => r.lane).Nodup →
      (∀ r ∈ l.reqs, r.regs.Nodup ∧ r.regs.length = (loadWords size t r.value).length ∧ ∀ x ∈ r.regs, x ∈ l.vdests) →
      Runs (.loadReturn i l.id) s fun u => OnlyGroup i s u ∧ ∃ h, u.group i = some h
        ∧ h.lates = g.lates.filter (fun x => x.id != l.id)
        ∧ (∀ r ∈ l.reqs, ∀ j < r.regs.length, h.lane (r.regs.getD j 0) r.lane = (loadWords size t r.value).getD j 0)
        ∧ (∀ j < l.vdests.length, (h.v (l.vdests.getD j 0)).full = true ∧ (size ≠ 5 → (h.v (l.vdests.getD j 0)).tag = t)
            ∧ (size = 5 → (∀ r ∈ l.reqs, l.vdests.getD j 0 ∉ r.regs) →
                (h.v (l.vdests.getD j 0)).tag = if j + 1 = l.vdests.length then .e8m0x4 else t))
        ∧ (size = 5 → ∀ r ∈ l.reqs, (∀ q ∈ l.reqs, q.regs = r.regs ∨ ∀ x ∈ q.regs, x ∉ r.regs) →
            ∀ j < r.regs.length, (h.v (r.regs.getD j 0)).tag = if j + 1 = r.regs.length then .e8m0x4 else t)
        ∧ (∀ x y, (∀ r ∈ l.reqs, r.lane = y → x ∉ r.regs) → h.lane x y = g.lane x y) ∧ (∀ x, x ∉ l.vdests → h.v x = g.v x)
        ∧ h.sregs = g.sregs ∧ h.sEmpty = g.sEmpty ∧ h.sTags = g.sTags ∧ h.ctrs = g.ctrs ∧ h.sp = g.sp ∧ h.splits = g.splits)
    ∧ (∀ size d r, l.kind = .loadU size → l.sdests = [d] → d ≠ 0 → l.reqs = [r] → r.regs = [] → l.vdests = [] →
      Runs (.loadReturn i l.id) s fun u => OnlyGroup i s u ∧ ∃ h, u.group i = some h
        ∧ h.lates = g.lates.filter (fun x => x.id != l.id) ∧ h.s d = BitVec.ofNat 64 r.value ∧ h.sFull d = true
        ∧ (∀ x, x ≠ d → h.s x = g.s x ∧ h.sFull x = g.sFull x) ∧ h.vregs = g.vregs ∧ h.ctrs = g.ctrs ∧ h.sp = g.sp ∧ h.splits = g.splits)

/-- R235, R245, R254, R261, R263: ST and STC whose active lanes pass their checks wait to enter the hearth with every lane's bytes, a higher lane's over a
lower one's; p2 rises by one; no register changes and no byte of memory. -/
def Obligations.VectorStoresWaitForTheHearth : Prop :=
  ∀ (i : Instr) (s : State) (c : Ctx) r, i.wf = true → s.issuer = some c → storeRow i = some r →
    let ls := c.lanes r.o.m
    c.memReady r.o ls r.regs = .ok () → ls ≠ [] → c.g.p 2 < 255 → (∃ t, c.tagOf r.o.t ls = .ok t ∧ r.accepts c ls t) →
    (∀ l ∈ ls, ∃ ro rt, c.regAt r.o.off 1 l = some ro ∧ c.regAt r.o.t r.regs l = some rt
      ∧ StorePasses s c (c.memCap r.o l) (laneAddress c r.o r.unit l ro) r.unit (r.need c s rt l) r.block
          (r.escapes c rt l)) →
    Runs i s fun t => t.mem = s.mem ∧ ∃ h w, t.group c.gid = some h ∧ h.vregs = c.g.vregs ∧ h.qtags = c.g.qtags ∧ h.sregs = c.g.sregs
      ∧ h.sEmpty = c.g.sEmpty ∧ h.p 2 = c.g.p 2 + 1 ∧ (∀ n, n ≠ 2 → h.p n = c.g.p n)
      ∧ (t.core c.core).waiting = (s.core c.core).waiting ++ [w] ∧ w.g = c.gid ∧ w.lanes = c.p.lanes
      ∧ w.rel = (if r.o.order.toNat ∈ [2, 3, 4] then some r.o.scope.toNat else none)
      ∧ ∀ a, pieceByte w.pieces a = lastByte (ls.filterMap fun l => match c.regAt r.o.off 1 l, c.regAt r.o.t r.regs l with
          | some ro, some rt => some (laneAddress c r.o r.unit l ro, r.unit, r.value c rt l)
          | _, _ => none) a

/-- R262, R264: STU, and the block records of ST, likewise: STU once with the scalar's low bytes; a record's scale byte first, then its elements. -/
def Obligations.UniformAndRecordStoresWait : Prop :=
  (∀ (o : MOp) (s : State) (c : Ctx), s.issuer = some c → o.base.toNat % 2 = 0 → o.size.toNat ≤ 3 →
    (∀ r ∈ pairRegs o.base.toNat ++ [o.off.toNat % 128, o.t.toNat], c.g.sFull r = true) → c.g.p 2 < 255 →
    let n := 2 ^ o.size.toNat
    let a := (c.g.sc o.base.toNat).addr + c.g.s (o.off.toNat % 128) + o.imm8.signExtend 64 * BitVec.ofNat 64 n
    StorePasses s c (c.g.sc o.base.toNat) a n permST false false →
    Runs (.stu o) s fun t => t.mem = s.mem ∧ ∃ h w, t.group c.gid = some h ∧ h.vregs = c.g.vregs ∧ h.sregs = c.g.sregs ∧ h.sEmpty = c.g.sEmpty
      ∧ h.p 2 = c.g.p 2 + 1 ∧ (t.core c.core).waiting = (s.core c.core).waiting ++ [w] ∧ w.g = c.gid
      ∧ ∀ x, pieceByte w.pieces x = lastByte [(a, n, (c.g.s o.t.toNat).toNat % 256 ^ n)] x)
  ∧ (∀ (o : MOp) (s : State) (c : Ctx) t n k, s.issuer = some c → recordShape t = some (n, k) →
    let ls := c.lanes o.m
    c.memReady o ls (k + 1) = .ok () → ls ≠ [] → c.g.p 2 < 255 → c.tagOf o.t ls = .ok t →
    (∀ l ∈ ls, ∃ ro rt, c.regAt o.off 1 l = some ro ∧ c.regAt o.t (k + 1) l = some rt ∧ (∀ j < k, (c.g.v (rt + j)).tag = t)
      ∧ (c.g.v (rt + k)).tag = .e8m0x4
      ∧ StorePasses s c (c.memCap o l) (laneAddress c o n l ro) n permST true false) →
    Runs (.stRec o) s fun u => u.mem = s.mem ∧ ∃ h w, u.group c.gid = some h ∧ h.vregs = c.g.vregs ∧ h.sregs = c.g.sregs ∧ h.p 2 = c.g.p 2 + 1
      ∧ (u.core c.core).waiting = (s.core c.core).waiting ++ [w] ∧ w.g = c.gid
      ∧ ∀ x, pieceByte w.pieces x = lastByte (ls.filterMap fun l => match c.regAt o.off 1 l, c.regAt o.t (k + 1) l with
          | some ro, some rt => some (laneAddress c o n l ro, n, c.read (rt + k) 1 l % 256 + 256 * c.read rt k l)
          | _, _ => none) x)

/-- R245, R265 to R268, R397: ATOM and ATOMU whose lanes pass their checks leave their destinations empty, a late result with every lane's operands, p2
risen by one and a no-rewind stretch; at home or in the hearth, where the core holds grant of the lines or asks for it. -/
def Obligations.AtomicsStartTheirLateResult : Prop :=
  (∀ (op : BitVec 4) (o : MOp) home (s s' : State) (c : Ctx) t rs, s.issuer = some c → c.g.mode ≠ .recipe → (o.size = 2 ∨ o.size = 3) →
    c.memReady { o with t := o.off } (c.lanes o.m) 1 = .ok () → c.atomCheck o.t op.toNat o.size.toNat (c.lanes o.m) = .ok t →
    AtomsAll c o op.toNat s (c.lanes o.m) s' rs → rs ≠ [] → s'.group c.gid = some c.g →
    c.atomWaits s' o.order.toNat o.scope.toNat (rs.filterMap fun q => q.bytes.head?.map ByteReq.va) = [] →
    (∀ r ∈ rs, Placed home o r) →
    Runs (.atom op o) s fun u => ∃ h l, u.group c.gid = some h ∧ Emptied c.g (destinations o.t (2 ^ o.size.toNat / 4) rs) [] h
      ∧ h.p 2 = c.g.p 2 + 1 ∧ h.sp.rwpc = c.g.sp.rwpc ||| 4 ∧ l ∈ h.lates ∧ l.reqs = rs ∧ l.vdests = destinations o.t (2 ^ o.size.toNat / 4) rs
      ∧ l.kind = (if home then .atomHome op.toNat o.size.toNat t.isSigned false
          else .atomHearth op.toNat o.size.toNat t.isSigned false (if o.order.toNat ∈ [2, 3, 4] then some o.scope.toNat else none))
      ∧ (home = false → ∀ r ∈ rs, r.line ∈ (u.core c.core).grantAsked ∨ r.line ∈ (u.core c.core).grants))
  ∧ (∀ (op : BitVec 4) (o : MOp) home (s s' : State) (c : Ctx) pa, s.issuer = some c → c.g.mode ≠ .recipe → (o.size = 2 ∨ o.size = 3) →
    o.base.toNat % 2 = 0 → o.t.toNat < 128 →
    (∀ r ∈ pairRegs o.base.toNat ++ [o.off.toNat % 128, o.t.toNat] ++ (if op = 7 then [o.t.toNat + 1] else []), c.g.sFull r = true) →
    let n := 2 ^ o.size.toNat
    let a := (c.g.sc o.base.toNat).addr + c.g.s (o.off.toNat % 128) + o.imm8.signExtend 64 * BitVec.ofNat 64 n
    atomHost s c n (c.g.sc o.base.toNat) a = none → atomAccess s c n (c.g.sc o.base.toNat) a = (s', .ok pa) → s'.group c.gid = some c.g →
    c.atomWaits s' o.order.toNat o.scope.toNat [a] = [] →
    let r : LaneReq := ⟨0, [], (List.range n).map fun j => ⟨pa + j, a + BitVec.ofNat 64 j, none⟩, none, c.g.s o.t.toNat,
      if op = 7 then c.g.s (o.t.toNat + 1) else 0⟩
    Placed home o r →
    Runs (.atomu op o) s fun u => ∃ h l, u.group c.gid = some h ∧ Emptied c.g [] [o.t.toNat] h
      ∧ h.p 2 = c.g.p 2 + 1 ∧ h.sp.rwpc = c.g.sp.rwpc ||| 4 ∧ l ∈ h.lates ∧ l.reqs = [r] ∧ l.sdests = (if o.t = 0 then [] else [o.t.toNat])
      ∧ l.kind = (if home then .atomHome op.toNat o.size.toNat (o.off.getLsbD 7) true
          else .atomHearth op.toNat o.size.toNat (o.off.getLsbD 7) true (if o.order.toNat ∈ [2, 3, 4] then some o.scope.toNat else none)))

/-- R231, R257, R266, R267: an atomic that goes to its home, on a line that nobody else has and whose page's bitmap line is free, replaces the location by
the operation's value and answers the old one; its page is marked, its return is due and p2 falls. -/
def Obligations.HomeAtomicsUpdateTheirLocation : Prop :=
  ∀ (s : State) (i : GroupId) (g : Group) (tm : Team) (l : Late) (r : LaneReq) op size sg u pa it, s.group i = some g → s.team i.core i.slot = some tm →
    g.late l.id = some l → l.kind = .atomHome op size sg u → (size = 2 ∨ size = 3) → l.reqs = [r] → l.item = some it →
    (∀ x ∈ g.lates, x.id = l.id ∨ x.item ≠ some it) →
    let n := 2 ^ size
    r.bytes.map ByteReq.pa = (List.range n).map (fun j => pa + j) → (∀ b ∈ r.bytes, b.val = none) → pa % n = 0 →
    s.atomTurn i g l = .go → isHostLine (pa / 128) = false → (s.dirAt (pa / 128)).queue = [] → (s.dirAt (pa / 128)).st = .inv →
    (s.dirAt (pa / 128)).sites = 0 → s.frozen (pa / 128) = false → s.lineFault (pa / 128) = none → (∀ q, dirtyByte s pa = some q → q < pa ∨ pa + n ≤ q) → s.MemoryWf →
    s.markBusy (pa / 128) (lookAgain (pa / 128)) = none →
    Runs (.homeAtomic i l.id) s fun t => (∀ q m, s.dirtyAt (pa / 128 * 128) = some (q, m) → t.byteAt q = s.byteAt q ||| m) ∧ t.natAt pa n = atomNew op n sg (s.natAt pa n) (r.v.toNat % 2 ^ (8 * n)) (r.w.toNat % 2 ^ (8 * n))
      ∧ (∀ a, a < pa ∨ pa + n ≤ a → dirtyByte s pa ≠ some a → t.byteAt a = s.byteAt a)
      ∧ (∀ j, j ≠ i → t.group j = s.group j)
      ∧ ⟨.loadReturn i l.id, Request.zero⟩ ∈ t.agenda
      ∧ ∃ h x, t.group i = some h ∧ h.late l.id = some x ∧ x.reqs.map LaneReq.value = [s.natAt pa n] ∧ x.pendingBytes = false
        ∧ h.ctrs = (g.ctrDone 2 it).ctrs ∧ h.vregs = g.vregs ∧ h.sregs = g.sregs

/-- R164, R238, R256, R257, R260, R269, R270: FENCE changes no register; an acquire waits for the split's loads; a release with nothing outstanding
raises RSEQ to the next stamp and, at cluster scope and wider, leaves no entry OPEN and waits for every older one; DRAIN leaves no entry of its group
OPEN and goes on; GFENCE holds its split until every load and value-returning atomic of the split's lanes has returned. -/
def Obligations.FencesHoldAndDrainTriggers : Prop :=
  (∀ (order scope : BitVec 3) (s : State) (c : Ctx), s.issuer = some c → c.g.lateMarks = [] →
    (order.toNat ∉ [2, 3, 4] → Runs (.fence order scope) s fun t => After c s c.g t ∧ ∃ h, t.group c.gid = some h
      ∧ h.LanesHeld c.p.lanes ((c.g.lates.filter fun l => l.lanes &&& c.p.lanes != 0 && (match l.kind with | .launch .. => false | _ => true)).map
          fun l => Cond.lateDone l.id))
    ∧ (order.toNat ∈ [2, 3, 4] → c.fenceWaits scope.toNat = [] → Runs (.fence order scope) s fun t =>
        (t.core c.core).rseq = (s.core c.core).seqNext
        ∧ (2 ≤ scope.toNat → ∀ k e, t.entry c.core k = some e → e.st ≠ .open_)
        ∧ ∃ h, t.group c.gid = some h ∧ h.RegsOf c.g
          ∧ h.LanesHeld c.p.lanes (if 2 ≤ scope.toNat then [.olderGone (s.core c.core).seqNext] else []))
    ∧ (order.toNat ∈ [2, 3, 4] → c.fenceWaits scope.toNat ≠ [] → Runs (.fence order scope) s fun t =>
        After c s c.g t ∧ ∃ h, t.group c.gid = some h ∧ h.LanesHeld c.p.lanes (c.fenceWaits scope.toNat) ∧ h.LanesAt c.p.lanes c.wordAddr c.p.code))
  ∧ (∀ (s : State) (c : Ctx), s.issuer = some c → c.g.lateMarks = [] → Runs .drain s fun t =>
    (∀ k e, t.entry c.core k = some e → e.slot = c.gid.slot → e.group = c.gid.group → e.st ≠ .open_)
      ∧ ∃ h, t.group c.gid = some h ∧ h.RegsOf c.g ∧ h.LanesAt c.p.lanes (after c) c.p.code)
  ∧ ∀ (s : State) (c : Ctx), s.issuer = some c → c.g.lateMarks = [] →
    Runs .gfence s fun t => After c s c.g t ∧ ∃ g, t.group c.gid = some g ∧ ∃ k p h, NMap.find g.splits k = some p ∧ c.p.lanes &&& ~~~p.lanes = 0
      ∧ p.held = some h ∧ ∀ l ∈ c.g.lates, l.lanes &&& c.p.lanes ≠ 0 → (∀ q ws w, l.kind ≠ .launch q ws w) → Cond.lateDone l.id ∈ h.conds

/-- R271 to R273, R245: STS and STX write their lanes' bytes into the share they reach, a higher lane's over a lower one's; LDS and LDX read theirs; the
cluster forms and STS count in p1 and p0. That the share's bytes are read and written when the word issues is the model's reading (notes/assumptions 55,
DEDUCED). -/
def Obligations.LocalLoadsAndStores : Prop :=
  (∀ cluster (o : MOp) (s : State) (c : Ctx) tg x acc t, s.issuer = some c → o.size.toNat ≤ 4 →
    let regs := max 1 (2 ^ o.size.toNat / 4)
    LocalReady s c o regs cluster false (some (if cluster then 1 else 0)) tg x → c.tagOf o.t (c.lanes o.m) = .ok t → sizeTagOk o.size.toNat t = true →
    (∀ r ∈ c.touched o.t regs (c.lanes o.m), (c.g.v r).tag = t) →
    shareAccesses c o x.shareBytes (c.regAt o.t regs) (c.lanes o.m) = some acc →
    Runs (if cluster then .stx o else .sts o) s fun u => u.mem = s.mem ∧ (∃ y, u.team tg.1 tg.2 = some y ∧
        ∀ a, shareByte y a = (lastByte (acc.map fun z => (BitVec.ofNat 64 z.2.1, 2 ^ o.size.toNat, c.read z.2.2 regs z.1)) a).getD (shareByte x a))
      ∧ ∃ h, u.group c.gid = some h ∧ h.vregs = c.g.vregs ∧ h.sregs = c.g.sregs ∧ h.sEmpty = c.g.sEmpty
        ∧ ∀ n, h.p n = c.g.p n + (if n = (if cluster then 1 else 0) then 1 else 0))
  ∧ (∀ cluster (tag : BitVec 5) (o : MOp) (s : State) (c : Ctx) tg x acc t, s.issuer = some c → o.size.toNat ≤ 4 → tagOf tag.toNat = some t →
    sizeTagOk o.size.toNat t = true →
    let regs := max 1 (2 ^ o.size.toNat / 4)
    LocalReady s c o regs cluster true (if cluster then some 1 else none) tg x →
    shareAccesses c o x.shareBytes (c.regAt o.t regs) (c.lanes o.m) = some acc →
    Runs (if cluster then .ldx tag o else .lds tag o) s fun u => u.mem = s.mem ∧ ∃ h l, u.group c.gid = some h ∧ l ∈ h.lates ∧ l.id = s.freshId
      ∧ l.kind = .filled ∧ l.newTag = some t ∧ l.faults = []
      ∧ l.vwrites = acc.flatMap (fun z =>
          (loadWords o.size.toNat t (shareNat (shareByte x) z.2.1 (2 ^ o.size.toNat))).zipIdx.map fun w => (z.2.2 + w.2, z.1, w.1))
      ∧ Emptied c.g l.vdests [] h ∧ (∀ z ∈ acc, ∀ j < regs, z.2.2 + j ∈ l.vdests) ∧ ⟨.loadReturn c.gid s.freshId, Request.zero⟩ ∈ u.agenda
      ∧ ∀ n, h.p n = c.g.p n + (if cluster = true ∧ n = 1 then 1 else 0))

/-- R265, R272, R273: ATOMS and ATOMX perform their lanes' operations on the share one after the other, and bring back each lane's old value. That
they act when the word issues is the model's reading (notes/assumptions 55, DEDUCED). -/
def Obligations.LocalAtomicsActInLaneOrder : Prop :=
  ∀ cluster (op : BitVec 4) (o : MOp) (s : State) (c : Ctx) tg x acc t, s.issuer = some c → c.g.mode ≠ .recipe → (o.size = 2 ∨ o.size = 3) →
    op.toNat ≤ 7 → LocalReady s c { o with t := o.off } 1 cluster false (some (if cluster then 1 else 0)) tg x →
    c.atomCheck o.t op.toNat o.size.toNat (c.lanes o.m) = .ok t →
    let n := 2 ^ o.size.toNat
    let k := n / 4
    shareAccesses c o x.shareBytes (c.atomReg o.t k (op == 7)) (c.lanes o.m) = some acc →
    let r := shareAtomics op.toNat n t.isSigned (fun z => (c.read z.2.2 k z.1, if op = 7 then c.read (z.2.2 + k) k z.1 else 0)) (shareByte x) acc
    Runs (if cluster then .atomx op o else .atoms op o) s fun u => u.mem = s.mem ∧ (∃ y, u.team tg.1 tg.2 = some y ∧ ∀ a, shareByte y a = r.1 a)
      ∧ ∃ h l, u.group c.gid = some h ∧ l ∈ h.lates ∧ l.id = s.freshId ∧ l.kind = .filled ∧ l.newTag = none
        ∧ l.vwrites = (acc.zip r.2).flatMap (fun z => (List.range k).map fun j => (z.1.2.2 + j, z.1.1, BitVec.ofNat 32 (z.2 / 2 ^ (32 * j))))
        ∧ Emptied c.g l.vdests [] h ∧ h.sp.rwpc = c.g.sp.rwpc ||| 4
        ∧ ∀ n, h.p n = c.g.p n + (if n = (if cluster then 1 else 0) then 1 else 0)
end

/-! ### CAP, REMOTE and COPY (R60 to R72, R304 to R326, R378 to R382) -/
namespace Sys2Proof.Claims
open Sys2Proof.Machine

/-- A capability word (R60 to R69): its operand, its second operand, the destination's tag, and the result, or nothing where it faults. -/
structure CapRow where
  o : CapOp
  b : CapB
  tag : FTag
  result : Cap → W64 → Cap → Option CapOut

/-- Moving the address (R64): a tagged capability must stay representable. -/
def moved (c : Cap) (a : W64) : Option CapOut :=
  if c.tag = true ∧ (c.kind ≠ 0 ∨ c.otype ≠ 0 ∨ capDecode (c.setAddr a) ≠ capDecode c) then none else some (.cap (c.setAddr a))

/-- Narrowing the bounds (R65): to the smallest encodable range that holds [address, address + length). -/
def bounded (exactly : Bool) (c : Cap) (len : W64) : Option CapOut :=
  let lo := c.addr.toNat
  let hi := lo + len.toNat
  let n := capEncode lo hi
  if c.tag = true ∧ (c.kind ≠ 0 ∨ c.otype ≠ 0 ∨ lo < (capDecode c).1 ∨ (capDecode c).2 < hi ∨ n.rb < (capDecode c).1 ∨ (capDecode c).2 < n.rt
    ∨ (exactly = true ∧ (n.rb ≠ lo ∨ n.rt ≠ hi))) then none
  else some (.cap (c.setBounds n))

/-- The capability words but CMOVC.x and the vector form of CEQ (R63 to R69). -/
def capRow : Instr → Option CapRow
  | .cgeta o => some ⟨o, .none_, .n64, fun c _ _ => some (.num c.addr)⟩
  | .cgetb o => some ⟨o, .none_, .n64, fun c _ _ => some (.num (BitVec.ofNat 64 (capDecode c).1))⟩
  | .cgetl o => some ⟨o, .none_, .n64, fun c _ _ => some (.num (BitVec.ofNat 64 (min ((capDecode c).2 - (capDecode c).1) (2 ^ 64 - 1))))⟩
  | .cgetp o => some ⟨o, .none_, .n32, fun c _ _ => some (.num ((c.bits.extractLsb' 114 12).setWidth 64))⟩
  | .cgetk o => some ⟨o, .none_, .n32, fun c _ _ => some (.num ((c.bits.extractLsb' 100 14 ++ c.bits.extractLsb' 126 2 : BitVec 16).setWidth 64))⟩
  | .cgett o => some ⟨o, .none_, .n32, fun c _ _ => some (.num (if c.tag then 1 else 0))⟩
  | .cseta o => some ⟨o, .num, .cap, fun c y _ => moved c y⟩
  | .cinc o => some ⟨o, .num, .cap, fun c y _ => moved c (c.addr + y)⟩
  | .cinci u d a imm m wa => some ⟨⟨u, d, a, 0, m, wa, false⟩, .none_, .cap, fun c _ _ => moved c (c.addr + imm.signExtend 64)⟩
  | .cbound o => some ⟨o, .num, .cap, fun c y _ => bounded false c y⟩
  | .cboundx o => some ⟨o, .num, .cap, fun c y _ => bounded true c y⟩
  | .candp o => some ⟨o, .num, .cap, fun c y _ =>
      if c.tag = true ∧ (2 ≤ c.kind ∨ c.otype ≠ 0) then none
      else some (.cap (c.setBits 114 12 (c.perms &&& (y.toNat % 4096) &&& 0xFFE)))⟩
  | .cseal o => some ⟨o, .cap, .cap, fun c _ k =>
      if k.tag = false ∨ k.kind ≠ 0 ∨ k.otype ≠ 0 ∨ k.grants permSEAL = false ∨ (capDecode k).1 < 1 ∨ 16383 < (capDecode k).1
        ∨ (capDecode k).2 ≤ (capDecode k).1 ∨ (c.tag = true ∧ (1 < c.kind ∨ c.otype ≠ 0)) then none
      else some (.cap (c.setBits 100 14 (capDecode k).1))⟩
  | .csealE o => some ⟨o, .none_, .cap, fun c _ _ =>
      if c.tag = true ∧ (c.kind ≠ 0 ∨ c.otype ≠ 0 ∨ c.grants permEX = false ∨ c.addr.toNat % 8 ≠ 0 ∨ c.addr.toNat < (capDecode c).1
        ∨ (capDecode c).2 < c.addr.toNat + 8) then none
      else some (.cap ((c.setBits 126 2 2).setBits 100 14 0))⟩
  | .cunseal o => some ⟨o, .cap, .cap, fun c _ k =>
      if k.tag = false ∨ k.kind ≠ 0 ∨ k.otype ≠ 0 ∨ k.grants permUNSEAL = false ∨ (c.tag = true ∧ (1 < c.kind ∨ c.otype = 0))
        ∨ c.otype < (capDecode k).1 ∨ (capDecode k).2 ≤ c.otype then none
      else some (.cap (c.setBits 100 14 0))⟩
  | .csub o => some ⟨o, .cap, .i64, fun c _ k => some (.num (c.addr - k.addr))⟩
  | .cclr o => some ⟨o, .none_, .cap, fun c _ _ => some (.cap { c with tag := false })⟩
  | .cmovc o => some ⟨o, .none_, .cap, fun c _ _ => some (.cap c)⟩
  | .ceq o => if o.u then some ⟨o, .cap, .n64, fun c _ k => some (.num (if c = k then 1 else 0))⟩ else none
  | _ => none

/-- The scalars of a uniform capability word. -/
def CapRow.scalars (r : CapRow) : List Nat :=
  pairRegs r.o.a.toNat ++ (match r.b with | .none_ => [] | .num => [r.o.b.toNat] | .cap => pairRegs r.o.b.toNat)
    ++ (if r.tag == .cap then pairRegs r.o.d.toNat else [r.o.d.toNat])

/-- The registers of a vector capability word are ready: aligned, full, and its capability operands tagged CAP (R61). -/
def CapRow.VectorReady (r : CapRow) (c : Ctx) : Prop :=
  let ls := c.lanes r.o.m
  ScalarsFull c.g [r.o.m.setWidth 7] ∧ misaligned r.o.d r.tag.regs = false ∧ c.checkDst ls r.o.d r.tag.regs = .ok ()
    ∧ (r.b = .num → c.checkBits ls [⟨r.o.b, r.o.wb, some 2⟩] = .ok ())
    ∧ ∃ ts, c.checkSrcs ls (⟨r.o.a, r.o.wa, some 4⟩ :: if r.b = .cap then [⟨r.o.b, r.o.wb, some 4⟩] else []) = .ok ts ∧ ∀ t ∈ ts, t.1 = .cap

/-- What a lane of a vector capability word computes: its first destination register and the result; nothing in a lane that faults. -/
def CapRow.lane (r : CapRow) (c : Ctx) (l : Nat) : Option (Nat × CapOut) :=
  match c.regAt r.o.a 4 l, (match r.b with | .none_ => some 0 | .num => c.regAt r.o.b 2 l | .cap => c.regAt r.o.b 4 l), c.regAt r.o.d r.tag.regs l with
  | some a, some b, some d =>
    (r.result (c.g.quad a l) (if r.b = .num then c.g.lane (b + 1) l ++ c.g.lane b l else 0) (if r.b = .cap then c.g.quad b l else Cap.null)).map
      fun v => (d, v)
  | _, _, _ => none

/-- The bits of a result, and the capability tag it leaves. -/
def outBits : CapOut → Nat
  | .cap k => k.bits.toNat
  | .num v => v.toNat

/-- Every register of a quad is full under its tag in a group, for every active lane. -/
def SendReady (c : Ctx) (ls : List Nat) (d a b : VField) (wa wb : Bool) (n : Nat) : Prop :=
  d.toNat % 4 = 0 ∧ a.toNat % 4 = 0 ∧ c.outOfRange d 4 = false ∧ c.outOfRange a 4 = false ∧ c.outOfRange b n = false
    ∧ c.fullCheck [(⟨d, false, none⟩, c.touched d 4 ls), (⟨a, wa, none⟩, c.touched a 4 ls), (⟨b, wb, none⟩, (List.range n).map fun j => b.toNat + j)] = .ok ()
    ∧ c.sameTags d 4 ls .cap = true ∧ c.sameTags a 4 ls .route = true

/-- A group's slot, as its team holds it. -/
def slotAt (t : Team) (n i : Nat) : Option CordSlot := (NMap.find t.cords n).map fun k => k.slot i

/-- The state that a slot's counts decide (R313). -/
def settled (pb pa : Int) : SlotState := if pb < 0 ∨ pa < 0 then .overrun else if pb = 0 ∧ pa = 0 then .filled else .armed

/-- A COPY word changed one cord of its team, and of its group nothing but what `g` says; it begins a no-rewind stretch (R319, R397). -/
def CordChanges (c : Ctx) (s : State) (n : Nat) (k : Cord) (g : Group) (t : State) : Prop :=
  t.mem = s.mem ∧ (∀ j, j ≠ c.gid → t.group j = s.group j) ∧ (∃ h, t.group c.gid = some h ∧ h.RegsOf g ∧ h.sp.rwpc = c.g.sp.rwpc ||| 4)
    ∧ ∃ u, t.team c.core c.gid.slot = some u ∧ NMap.find u.cords n = some k ∧ (∀ m, m ≠ n → NMap.find u.cords m = NMap.find c.team.cords m)
      ∧ u.ring = c.team.ring ∧ u.scratch = c.team.scratch ∧ u.cmds = c.team.cmds

/-- The bits of a copy word's entry (R306, R320): v is S[b..]. -/
def entryBits (ty esz : Nat) (o : CpyOp) (v : Nat → Nat) : BitVec 256 :=
  BitVec.ofNat 3 ty ++ o.ssp ++ o.dsp ++ (0 : BitVec 1) ++ (0 : BitVec 6) ++ (0 : BitVec 6) ++ BitVec.ofBool o.kt ++ BitVec.ofNat 3 esz ++ (0 : BitVec 8)
    ++ BitVec.ofNat 32 (v 3) ++ (if ty = 0 then (0 : BitVec 32) else BitVec.ofNat 32 (v 4)) ++ BitVec.ofNat 32 (v 2) ++ BitVec.ofNat 64 (v 1)
    ++ BitVec.ofNat 64 (v 0)

/-- The copy words (R320): TYPE, element size, entries, scalars from S[b] on. -/
def copyRow : Instr → Option (Nat × Nat × Nat × Nat × CpyOp)
  | .cpy o => some (0, 0, 1, 4, o)
  | .cpyt o => some (1, 0, 2, 7, o)
  | .cpyg o esz => some (3, esz.toNat, 1, 5, o)
  | .cpys o esz => some (4, esz.toNat, 1, 5, o)
  | _ => none

/-- A side of a copy whose space is global: its capability grants what the side needs, and GL (R320). -/
def SideOk (glob : Bool) (k : Cap) (perm : Nat) : Prop :=
  glob = true → k.tag = true ∧ k.kind = 0 ∧ k.otype = 0 ∧ k.grants perm = true ∧ k.grants permGL = true

end Sys2Proof.Claims

section
open Sys2Proof Sys2Proof.Machine Sys2Proof.Claims

/-- R60, R61, R63 to R69: the uniform capability words write a pair or a scalar. -/
def Obligations.UniformCapabilityWords : Prop :=
  ∀ (i : Instr) (s : State) (c : Ctx) r v, s.issuer = some c → capRow i = some r → r.o.u = true → r.o.a.toNat % 2 = 0 →
    (r.b = .cap → r.o.b.toNat % 2 = 0) → (r.tag = .cap → r.o.d.toNat % 2 = 0) → (∀ x ∈ r.scalars, c.g.sFull x = true) →
    r.result (c.g.sc r.o.a.toNat) (if r.b = .num then c.g.s r.o.b.toNat else 0) (if r.b = .cap then c.g.sc r.o.b.toNat else Cap.null) = some v →
    Runs i s (After c s (match v with | .cap k => c.g.setSc r.o.d.toNat k | .num n => c.g.setS r.o.d.toNat n))

/-- R60, R61, R63 to R69: the vector capability words write, in each lane that does not fault, a quad with its capability tag, or a number. -/
def Obligations.VectorCapabilityWords : Prop :=
  ∀ (i : Instr) (s : State) (c : Ctx) r, s.issuer = some c → capRow i = some r → r.o.u = false → r.VectorReady c →
    Runs i s fun t => ∃ g : Group, After c s g t ∧ g.sregs = c.g.sregs ∧ g.sEmpty = c.g.sEmpty ∧ g.sTags = c.g.sTags ∧ g.ctrs = c.g.ctrs ∧ g.sp = c.g.sp
      ∧ (∀ l ∈ c.lanes r.o.m, ∀ d v, r.lane c l = some (d, v) → (∀ j < r.tag.regs, g.lane (d + j) l = BitVec.ofNat 32 (outBits v / 2 ^ (32 * j))
          ∧ (g.v (d + j)).full = true ∧ (g.v (d + j)).tag = r.tag) ∧ ∀ k, v = .cap k → g.quad d l = k)
      ∧ (∀ x l, (l ∉ c.lanes r.o.m ∨ ∀ d v, r.lane c l = some (d, v) → x < d ∨ d + r.tag.regs ≤ x) → g.lane x l = c.g.lane x l)
      ∧ ∀ x, x ∉ c.touched r.o.d r.tag.regs (c.lanes r.o.m) → g.v x = c.g.v x

/-- R68, R69: the vector form of CEQ gives the mask of the active lanes with equal capabilities; CMOVC.x copies one lane's quad to a pair, and a pair
into every active lane. -/
def Obligations.CapabilityEqualityAndSpread : Prop :=
  (∀ (o : CapOp) (s : State) (c : Ctx) ts, s.issuer = some c → o.u = false → ScalarsFull c.g [o.m.setWidth 7] → c.g.sFull o.d.toNat = true →
    c.checkSrcs (c.lanes o.m) [⟨o.a, o.wa, some 4⟩, ⟨o.b, o.wb, some 4⟩] = .ok ts → (∀ t ∈ ts, t.1 = .cap) →
    Runs (.ceq o) s fun t => ∃ v : W64, After c s (c.g.setS o.d.toNat v) t ∧ ∀ l < 64, (v.getLsbD l = true ↔ l ∈ c.lanes o.m
      ∧ ∃ a b, c.regAt o.a 4 l = some a ∧ c.regAt o.b 4 l = some b ∧ c.g.quad a l = c.g.quad b l))
  ∧ (∀ (o : CapOp) (s : State) (c : Ctx), s.issuer = some c → o.u = true → o.d.toNat % 2 = 0 → misaligned o.a 4 = false →
    (∀ x ∈ o.b.toNat :: pairRegs o.d.toNat, c.g.sFull x = true) → (∃ ts, c.checkSrcs [] [⟨o.a, false, some 4⟩] = .ok ts ∧ ∀ t ∈ ts, t.1 = .cap) →
    Runs (.cmovcX o) s (After c s (c.g.setSc o.d.toNat (c.g.quad o.a.toNat ((c.g.s o.b.toNat).toNat % c.width)))))
  ∧ (∀ (o : CapOp) (s : State) (c : Ctx), s.issuer = some c → o.u = false → o.a.toNat % 2 = 0 → misaligned o.d 4 = false →
    (∀ x ∈ o.m.toNat :: pairRegs o.a.toNat, c.g.sFull x = true) → c.checkDst (c.lanes o.m) o.d 4 = .ok () →
    Runs (.cmovcX o) s fun t => ∃ g : Group, After c s g t ∧ g.sregs = c.g.sregs ∧ g.sTags = c.g.sTags ∧ g.sp = c.g.sp
      ∧ (∀ l ∈ c.lanes o.m, ∀ d, c.regAt o.d 4 l = some d → g.quad d l = c.g.sc o.a.toNat ∧ ∀ j < 4, (g.v (d + j)).full = true ∧ (g.v (d + j)).tag = .cap)
      ∧ ∀ x l, (l ∉ c.lanes o.m ∨ ∀ d, c.regAt o.d 4 l = some d → x < d ∨ d + 4 ≤ x) → g.lane x l = c.g.lane x l)

/-- R37, R44, R57, R70 to R72: CREG names registers of the issuing group; CMINT derives from a root of its tenant, with reserved bits 0; CSWEEP starts a
sweep behind every older entry, or answers 1 while one runs. The cores that it visits, those of the lease and every core on which a team of the tenant
stands, are the model's reading (notes/assumptions 111, DEDUCED). -/
def Obligations.NamesRootsAndSweeps : Prop :=
  (∀ (d : SReg) (a b : VField) (s : State) (c : Ctx), s.issuer = some c → d.toNat % 2 = 0 → a.toNat + b.toNat + 1 ≤ c.regs →
    (∀ x ∈ pairRegs d.toNat, c.g.sFull x = true) → Runs (.creg d a b) s fun t => ∃ k : Cap, After c s (c.g.setSc d.toNat k) t ∧ k.tag = true ∧ k.kind = 1
      ∧ k.perms = permRS + permGL ∧ k.otype = 0 ∧ k.addr = BitVec.ofNat 10 s.pkg.selfDevice ++ BitVec.ofNat 2 (dieOf c.core) ++ BitVec.ofNat 8 (coreInDie c.core)
        ++ BitVec.ofNat 5 c.gid.slot ++ BitVec.ofNat 5 c.gid.group ++ a ++ b ++ BitVec.ofNat 12 c.team.incn)
  ∧ (∀ (d : SReg) (a : BitVec 4) (b : SReg) (s : State) (c : Ctx) bits, s.issuer = some c → c.team.sLevel = true → d.toNat % 2 = 0 →
    (∀ x ∈ [b.toNat, b.toNat + 1, b.toNat + 2] ++ pairRegs d.toNat, c.g.sFull x = true) →
    NMap.find (s.tenant c.team.tenant).roots a.toNat = some bits →
    let root : Cap := ⟨bits, true⟩
    let n := capEncode (c.g.s b.toNat).toNat ((c.g.s b.toNat).toNat + (c.g.s (b.toNat + 1)).toNat)
    (capDecode root).1 ≤ n.rb → n.rt ≤ (capDecode root).2 →
    Runs (.cmint d a b) s (After c s (c.g.setSc d.toNat ((((root.setAddr (c.g.s b.toNat)).setBounds n).setBits 114 12
      (root.perms &&& ((c.g.s (b.toNat + 2)).toNat % 4096) &&& 0xFFE)).setBits 64 2 0))))
  ∧ (∀ (d a b : SReg) (s : State) (c : Ctx), s.issuer = some c → c.team.sLevel = true → a.toNat % 2 = 0 → c.g.lateMarks = [] →
    (∀ x ∈ [b.toNat, d.toNat] ++ pairRegs a.toNat, c.g.sFull x = true) → capCheck (c.g.sc a.toNat) (c.g.sc a.toNat).addr 72 (permLD + permST + permSYS) = none →
    (c.g.s b.toNat).toNat % 512 = 0 →
    ((s.tenant c.team.tenant).sweep ≠ none → Runs (.csweep d a b) s (After c s (c.g.setS d.toNat 1)))
    ∧ ((s.tenant c.team.tenant).sweep = none → c.fenceWaits 4 = [] → Runs (.csweep d a b) s fun t =>
        (∃ w, (t.tenant c.team.tenant).sweep = some w ∧ w.bitmap = c.g.sc a.toNat ∧ w.base = (c.g.s b.toNat).toNat
          ∧ ∀ k, k ∈ w.coresLeft ↔ k ∈ (s.tenant c.team.tenant).lease ∨ ∃ C, (k, C) ∈ s.cores ∧ ∃ st ∈ C.teams, st.2.tenant = c.team.tenant)
        ∧ (∀ k e, t.entry c.core k = some e → e.st ≠ .open_)
        ∧ ∃ h, t.group c.gid = some h ∧ h.RegsOf (c.g.setS d.toNat 0) ∧ h.LanesHeld c.p.lanes [.olderGone (s.core c.core).seqNext]))

/-- R245, R362, R368, R369, R379, R397: a SEND or SENDM that passes its checks makes one packet of its lanes' registers, raises p5 by one, and waits for
a response under the group's next number. -/
def Obligations.SendsMakeOnePacket : Prop :=
  ∀ (single : Bool) (d a b : VField) (ofs : BitVec 9) (nm1 : BitVec 2) (m : MField) (wa wb : Bool) (s : State) (c : Ctx) l0 rest,
    let n := if single then 1 else nm1.toNat + 1
    let ls := c.lanes m
    let tag := (c.g.v b.toNat).tag
    let travel : Bool := tag == .cap && n == 4 && b.toNat % 4 == 0 && (nameRegbase (c.g.quad d.toNat l0).bits + ofs.toNat) % 4 == 0
    s.issuer = some c → c.g.mode ≠ .recipe → ScalarsFull c.g [m.setWidth 7] → SendReady c ls d a b wa wb n →
    (∀ j < n, (c.g.v (b.toNat + j)).tag = tag) → n % tag.regs = 0 → (tag.regs = 2 ∨ tag.regs = 4 → b.toNat % tag.regs = 0) → ls = l0 :: rest →
    sendNameCheck (c.g.quad d.toNat l0) ofs.toNat n tag.regs = none → routeForm (c.g.quad a.toNat l0).bits = true →
    s.admitted (nameDevice (c.g.quad d.toNat l0).bits) = true → c.g.p 5 < 255 →
    (∀ l ∈ ls, travel = true → (c.g.quad b.toNat l).tag = true → (c.g.quad b.toNat l).grants permGL = true) →
    Runs (if single then .send d a b ofs m wa wb else .sendm d a b ofs nm1 m wa wb) s fun t => t.mem = s.mem ∧ (∀ j, j ≠ c.gid → t.group j = s.group j)
      ∧ (∃ p, NMap.find t.packets s.freshId = some p ∧ p.ksend = false ∧ p.route = (c.g.quad a.toNat l0).bits ∧ p.name = (c.g.quad d.toNat l0).bits
        ∧ p.ftag = tag ∧ p.n = n ∧ p.ofs = ofs.toNat ∧ p.lanes = lanesMask ls ∧ p.hasTags = travel ∧ p.ctags = lanesMask (ls.filter fun l => travel && (c.g.quad b.toNat l).tag) ∧ p.seq = c.g.seq ∧ p.src = c.gid
        ∧ p.tenant = c.team.tenant ∧ p.fdom = (s.tenant c.team.tenant).fdom
        ∧ p.values = (List.range n).flatMap fun j => ls.map fun l => (j, l, c.g.lane (b.toNat + j) l))
      ∧ ⟨.packetHop s.freshId, Request.zero⟩ ∈ t.agenda
      ∧ ∃ h, t.group c.gid = some h ∧ h.vregs = c.g.vregs ∧ h.sregs = c.g.sregs ∧ h.p 5 = c.g.p 5 + 1 ∧ (∀ k, k ≠ 5 → h.p k = c.g.p k)
        ∧ h.seq = (c.g.seq + 1) % 2 ^ 32 ∧ h.sends = c.g.sends ++ [⟨c.g.seq, c.wordAddr, s.cycle⟩] ∧ h.sp.rwpc = c.g.sp.rwpc ||| 4

/-- R358, R380 to R382: EMPTY clears full bits, ISFULL reads them, RTCHK leaves a late result with each lane's route and name. -/
def Obligations.EmptyIsfullAndRtchk : Prop :=
  (∀ (d : VField) (nm1 : BitVec 6) (s : State) (c : Ctx), s.issuer = some c → c.outOfRange d (nm1.toNat + 1) = false →
    (∀ l ∈ c.g.lates, ∀ r ∈ l.vdests, r < d.toNat ∨ d.toNat + nm1.toNat < r) →
    Runs (.empty d nm1) s fun t => ∃ g, After c s g t ∧ Emptied c.g ((List.range (nm1.toNat + 1)).map fun j => d.toNat + j) [] g ∧ g.ctrs = c.g.ctrs
      ∧ g.sp = c.g.sp)
  ∧ (∀ (d : SReg) (a : VField) (nm1 : BitVec 6) (s : State) (c : Ctx), s.issuer = some c → c.outOfRange a (nm1.toNat + 1) = false →
    ScalarsFull c.g [d] → Runs (.isfull d a nm1) s fun t => ∃ v : W64, After c s (c.g.setS d.toNat v) t ∧ ∀ k < 64, v.getLsbD k =
      (decide (k ≤ nm1.toNat) && ((c.g.v (a.toNat + k)).full || c.g.lates.any fun l => l.vdests.contains (a.toNat + k))))
  ∧ (∀ (d a b : VField) capchk m wa wb (s : State) (c : Ctx), s.issuer = some c →
    let ls := c.lanes m
    a.toNat % 4 = 0 → (capchk = true → b.toNat % 4 = 0 ∧ c.outOfRange b 4 = false ∧ c.sameTags b 4 ls .cap = true) → c.outOfRange a 4 = false →
    ScalarsFull c.g [m.setWidth 7] → c.checkDst ls d 1 = .ok () → d.direct = true →
    c.fullCheck ((⟨a, wa, none⟩, c.touched a 4 ls) :: if capchk then [((⟨b, wb, none⟩ : Src), c.touched b 4 ls)] else []) = .ok () →
    c.sameTags a 4 ls .route = true →
    Runs (.rtchk d a b capchk m wa wb) s fun t => OnlyGroup c.gid s.useId t ∧ ∃ h l, t.group c.gid = some h ∧ Emptied c.g [d.toNat] [] h ∧ l ∈ h.lates
      ∧ l.id = s.freshId ∧ l.vdests = [d.toNat] ∧ l.newTag = some .n32
      ∧ l.kind = .rtchk (ls.map fun x => (x, d.toNat, (c.g.quad a.toNat x).bits, if capchk then some (c.g.quad b.toNat x).bits else none)))

/-- R311 to R313, R321 to R324: KINIT empties a cord's slots; KACQ takes the slot at WP under a new generation; KARR arms it; KREL empties it. -/
def Obligations.CordWordsMoveSlots : Prop :=
  (∀ (a : BitVec 5) (s : State) (c : Ctx) k, s.issuer = some c → c.g.mode ≠ .recipe → NMap.find c.team.cords a.toNat = some k →
    (∀ i < k.n, (k.slot i).infl = 0) → k.waiters = [] →
    Runs (.kinit a) s fun t => ∃ k1, CordChanges c s a.toNat k1 c.g t ∧ k1.wp = 0 ∧ k1.rp = 0 ∧ k1.n = k.n ∧ k1.ch = k.ch
      ∧ ∀ i < k.n, k1.slot i = { k.slot i with st := .empty })
  ∧ (∀ (d : SReg) (a : BitVec 5) nb (s : State) (c : Ctx) k, s.issuer = some c → c.g.mode ≠ .recipe → ScalarsFull c.g [d] → c.g.lateMarks = [] →
    NMap.find c.team.cords a.toNat = some k →
    ((k.slot k.wp).st = .empty → Runs (.kacq d a nb) s fun t => ∃ k1, CordChanges c s a.toNat k1 (c.g.setS d.toNat
        (BitVec.ofNat 64 (k.wp + a.toNat * 2 ^ 6 + ((k.slot k.wp).gen + 1).toNat * 2 ^ 16))) t
        ∧ k1.wp = (k.wp + 1) % k.n ∧ k1.rp = k.rp ∧ (k1.slot k.wp).st = .acq ∧ (k1.slot k.wp).gen = (k.slot k.wp).gen + 1 ∧ (k1.slot k.wp).pb = 0
        ∧ (k1.slot k.wp).pa = 0 ∧ (k1.slot k.wp).infl = 0 ∧ ∀ i, i ≠ k.wp → k1.slot i = k.slot i)
    ∧ ((k.slot k.wp).st ≠ .empty → nb = true → Runs (.kacq d a nb) s fun t => CordChanges c s a.toNat k (c.g.setS d.toNat (BitVec.allOnes 64)) t)
    ∧ ((k.slot k.wp).st ≠ .empty → nb = false → Runs (.kacq d a nb) s fun t =>
        CordChanges c s a.toNat { k with waiters := k.waiters ++ [(c.gid.group, s.freshId)] } c.g t
        ∧ ∃ h, t.group c.gid = some h ∧ h.LanesHeld c.p.lanes [.lateDone s.freshId]))
  ∧ (∀ (a b : SReg) (s : State) (c : Ctx) n i k, s.issuer = some c → c.g.mode ≠ .recipe → (∀ x ∈ [a.toNat, b.toNat, b.toNat + 1], c.g.sFull x = true) →
    (c.g.s b.toNat).toNat < 2 ^ 41 → (c.g.s (b.toNat + 1)).toNat < 65536 → c.team.slotOf (c.g.s a.toNat) = some (n, i) →
    NMap.find c.team.cords n = some k → k.ch = false → (k.slot i).st = .acq →
    Runs (.karr a b) s fun t => ∃ k1, CordChanges c s n k1 c.g t ∧ k1.wp = k.wp ∧ k1.rp = k.rp ∧ (∀ j, j ≠ i → k1.slot j = k.slot j)
      ∧ (k1.slot i).pb = (k.slot i).pb + (c.g.s b.toNat).toNat ∧ (k1.slot i).pa = (k.slot i).pa + (c.g.s (b.toNat + 1)).toNat
      ∧ (k1.slot i).st = settled (k1.slot i).pb (k1.slot i).pa ∧ (k1.slot i).gen = (k.slot i).gen ∧ (k1.slot i).infl = (k.slot i).infl)
  ∧ (∀ (d a b : SReg) (s : State) (c : Ctx) n i k, s.issuer = some c → c.g.mode ≠ .recipe → d.toNat % 2 = 0 →
    (∀ x ∈ [a.toNat, b.toNat, b.toNat + 1, b.toNat + 2] ++ pairRegs d.toNat, c.g.sFull x = true) →
    (c.g.s b.toNat).toNat < 2 ^ 41 → (c.g.s (b.toNat + 1)).toNat < 65536 → c.team.slotOf (c.g.s a.toNat) = some (n, i) →
    NMap.find c.team.cords n = some k → k.ch = true → (k.slot i).st = .acq →
    (c.g.s (b.toNat + 2)).toNat + (c.g.s b.toNat).toNat ≤ c.team.shareBytes →
    Runs (.karrC d a b) s fun t => ∃ k1 cr, CordChanges c s n k1 (c.g.setSc d.toNat cr) t ∧ cr.tag = true ∧ cr.kind = 1 ∧ cr.perms = permRS + permGL
      ∧ cr.addr.toNat / 2 ^ 23 % 2 ^ 11 = 1536 + n ∧ (k1.slot i).cur = (c.g.s (b.toNat + 2)).toNat
      ∧ (k1.slot i).pb = (k.slot i).pb + (c.g.s b.toNat).toNat ∧ (k1.slot i).pa = (k.slot i).pa + (c.g.s (b.toNat + 1)).toNat
      ∧ (k1.slot i).st = settled (k1.slot i).pb (k1.slot i).pa ∧ ∀ j, j ≠ i → k1.slot j = k.slot j)
  ∧ (∀ (a : SReg) (s : State) (c : Ctx) n i k, s.issuer = some c → c.g.mode ≠ .recipe → ScalarsFull c.g [a] → c.team.slotOf (c.g.s a.toNat) = some (n, i) →
    NMap.find c.team.cords n = some k → k.waiters = [] → (k.slot i).infl = 0 →
    (k.slot i).st = .filled ∨ (k.slot i).st = .overrun ∨ (k.slot i).st = .fault ∨ ((k.slot i).st = .acq ∧ (k.slot i).pb = 0 ∧ (k.slot i).pa = 0) →
    Runs (.krel a) s fun t => ∃ k1, CordChanges c s n k1 c.g t ∧ k1.wp = k.wp ∧ (k1.slot i).st = .empty ∧ (k1.slot i).gen = (k.slot i).gen
      ∧ (∀ j, j ≠ i → k1.slot j = k.slot j)
      ∧ ((∀ j < k.n, (k1.slot j).st = .empty) → k1.rp = k.wp))

/-- R304, R313, R314, R321, R326: KINIT.r sets up the team's ring; KWAIT goes on when its slot is FILLED, waits while it is not settled, and reports what
went wrong; KSTAT reads a slot's record or a cord's state. -/
def Obligations.RingsWaitsAndStatus : Prop :=
  (∀ (a d : SReg) (s : State) (c : Ctx) (off lg tn : Nat), s.issuer = some c → c.g.mode ≠ .recipe → d.toNat % 2 = 0 → (∀ x ∈ a.toNat :: pairRegs d.toNat, c.g.sFull x = true) →
    c.g.s a.toNat = BitVec.ofNat 64 (off + lg * 2 ^ 32 + tn * 2 ^ 40) → off % 32 = 0 → 1 ≤ lg → lg ≤ 10 → 1 ≤ tn → tn ≤ 64 →
    off + 32 + 32 * 2 ^ lg ≤ c.team.shareBytes → c.team.shareBytes < 2 ^ 32 →
    capCheck (c.g.sc d.toNat) (c.g.sc d.toNat).addr (16 * tn) (permLD + permLC) = none →
    (∀ r, c.team.ring = some r → c.team.ringUsed r = 0) → c.team.cmds = [] → c.team.residues = [] →
    Runs (.kinitR a d) s fun t => t.mem = s.mem ∧ (∃ u, t.team c.core c.gid.slot = some u ∧ (∀ x, off ≤ x → x < off + 32 → shareByte u x = 0)
        ∧ (∀ x, x < off ∨ off + 32 ≤ x → shareByte u x = shareByte c.team x)
        ∧ ∃ r, u.ring = some r ∧ r.hdr = off ∧ r.logSize = lg ∧ r.table = c.g.sc d.toNat ∧ r.tn = tn ∧ r.consumed = 0 ∧ r.published = 0)
      ∧ ∃ h, t.group c.gid = some h ∧ h.RegsOf c.g ∧ h.sp.rwpc = c.g.sp.rwpc ||| 4)
  ∧ (∀ (a : SReg) (s : State) (c : Ctx) n i x, s.issuer = some c → ScalarsFull c.g [a] → c.g.lateMarks = [] →
    c.team.slotOf (c.g.s a.toNat) = some (n, i) → slotAt c.team n i = some x →
    (x.st = .filled → Runs (.kwait a) s (Goes c s c.g c.p.lanes (after c) c.p.code))
    ∧ (x.st = .acq ∨ x.st = .armed → Runs (.kwait a) s fun t => After c s c.g t ∧ ∃ h, t.group c.gid = some h ∧ h.LanesHeld c.p.lanes [.slotSettled n i])
    ∧ (c.g.cur = none → (x.st = .empty → Runs (.kwait a) s (Raises c s .cordState c.p.lanes 0))
      ∧ (x.st = .overrun → Runs (.kwait a) s (Raises c s .cordOverrun c.p.lanes 0))
      ∧ (x.st = .fault → Runs (.kwait a) s (Raises c s .copyFault c.p.lanes (BitVec.ofNat 64 x.fcause)))))
  ∧ (∀ (d a : SReg) (s : State) (c : Ctx), s.issuer = some c → ScalarsFull c.g [d, a] →
    (∀ n i k, c.team.slotOf (c.g.s a.toNat) = some (n, i) → NMap.find c.team.cords n = some k →
      let w := (k.slot i).word k.ch
      Runs (.kstat d a 0) s (After c s (c.g.setS d.toNat (w.extractLsb' 64 64)))
        ∧ Runs (.kstat d a 2) s (After c s (c.g.setS d.toNat (w.extractLsb' 0 64))))
    ∧ (∀ k, NMap.find c.team.cords a.toNat = some k → Runs (.kstat d a 1) s (After c s (c.g.setS d.toNat (BitVec.ofNat 64
        (k.n % 128 + k.wp % 64 * 2 ^ 7 + k.rp % 64 * 2 ^ 13 + ((List.range k.n).countP fun i => (k.slot i).st != .empty) % 128 * 2 ^ 19
          + if k.ch then 2 ^ 26 else 0))))))

/-- R245, R306, R319, R320: a copy word that passes its checks writes its entry behind the ring's last, raises NOTIFY, the slot's INFL and p4, and
publishes. -/
def Obligations.CopyWordsWriteTheirEntry : Prop :=
  ∀ (i : Instr) (s : State) (c : Ctx) ty esz n regs (o : CpyOp) cn j k r, s.issuer = some c → c.g.mode ≠ .recipe → copyRow i = some (ty, esz, n, regs, o) →
    o.d.toNat % 2 = 0 → o.a.toNat % 2 = 0 →
    (∀ x ∈ pairRegs o.d.toNat ++ pairRegs o.a.toNat ++ (List.range regs).map fun q => o.b.toNat + q, c.g.sFull x = true) →
    c.team.slotOf (c.g.s (o.b.toNat + 3)) = some (cn, j) → c.team.ring = some r → NMap.find c.team.cords cn = some k → k.ch = false →
    ((k.slot j).st = .acq ∨ (k.slot j).st = .armed) →
    let v := fun q => (c.g.s (o.b.toNat + q)).toNat
    let e := entryBits ty esz o v
    let ext : BitVec 256 := if ty = 1 then BitVec.ofNat 256 (v 5 + v 6 * 2 ^ 64 + 2 * 2 ^ 253) else 0
    v 2 < 2 ^ 32 → entryFormatOk e ext c.team.shareBytes = true → entryTagsOk e = true →
    SideOk (o.dsp == 0) (c.g.sc o.d.toNat) (permST + if o.kt then permSC else 0) →
    SideOk (o.ssp == 0) (c.g.sc o.a.toNat) (permLD + if o.kt then permLC else 0) →
    c.team.ringUsed r + n ≤ 2 ^ r.logSize → c.g.p 0 = 0 → c.g.p 4 < 255 →
    let nt := c.team.scratchWord r.hdr
    Runs i s fun t => t.mem = s.mem ∧ (∃ u r1, t.team c.core c.gid.slot = some u ∧ u.ring = some r1 ∧ u.scratchWord r.hdr = (nt + n) % 2 ^ 32
        ∧ scratchNat u.scratch (r.hdr + 32 + 32 * (nt % 2 ^ r.logSize)) 32 = e.toNat
        ∧ NMap.find r1.shadows (nt % 2 ^ r.logSize) = some (if o.ssp = 0 then c.g.sc o.a.toNat else Cap.null, if o.dsp = 0 then c.g.sc o.d.toNat else Cap.null)
        ∧ r1.consumed = r.consumed ∧ r1.published = r.published
        ∧ slotAt u cn j = some { k.slot j with infl := (k.slot j).infl + 1 })
      ∧ ⟨.ringNotify c.gid c.core c.gid.slot (BitVec.ofNat 32 (nt + n)), Request.zero⟩ ∈ t.agenda
      ∧ ∃ h, t.group c.gid = some h ∧ h.vregs = c.g.vregs ∧ h.sregs = c.g.sregs ∧ h.p 4 = c.g.p 4 + 1 ∧ (∀ q, q ≠ 4 → h.p q = c.g.p q)
        ∧ h.sp.rwpc = c.g.sp.rwpc ||| 4

/-- R245, R325, R368: KSEND sends bytes of the share to a channel's credit, raises p5 and waits for a response. -/
def Obligations.KsendMakesOnePacket : Prop :=
  ∀ (d a : VField) (b : SReg) (s : State) (c : Ctx), s.issuer = some c → c.g.mode ≠ .recipe →
    let ls := lanesOf c.width c.p.lanes
    let l0 := lowestLane c.p.lanes
    let k := c.g.quad d.toNat l0
    let off := (c.g.s b.toNat).toNat
    let len := (c.g.s (b.toNat + 1)).toNat
    d.toNat % 4 = 0 → a.toNat % 4 = 0 → c.outOfRange d 4 = false → c.outOfRange a 4 = false → (∀ x ∈ [b.toNat, b.toNat + 1], c.g.sFull x = true) →
    c.fullCheck [(⟨d, false, none⟩, c.touched d 4 ls), (⟨a, false, none⟩, c.touched a 4 ls)] = .ok () → c.sameTags d 4 ls .cap = true →
    c.sameTags a 4 ls .route = true → k.tag = true → k.kind = 1 → 1536 ≤ nameRegbase k.bits → nameRegbase k.bits ≤ 1567 →
    k.grants (permRS + permGL) = true → 1 ≤ len → len ≤ 65536 → off + len ≤ c.team.shareBytes → routeForm (c.g.quad a.toNat l0).bits = true →
    s.admitted (nameDevice k.bits) = true → c.g.p 5 < 255 →
    Runs (.ksend d a b) s fun t => t.mem = s.mem ∧ (∃ p, NMap.find t.packets s.freshId = some p ∧ p.ksend = true ∧ p.route = (c.g.quad a.toNat l0).bits
        ∧ p.name = k.bits ∧ p.seq = c.g.seq ∧ p.bytes = (List.range len).map fun j => shareByte c.team (off + j))
      ∧ ⟨.packetHop s.freshId, Request.zero⟩ ∈ t.agenda
      ∧ ∃ h, t.group c.gid = some h ∧ h.vregs = c.g.vregs ∧ h.sregs = c.g.sregs ∧ h.p 5 = c.g.p 5 + 1
        ∧ h.sends = c.g.sends ++ [⟨c.g.seq, c.wordAddr, s.cycle⟩] ∧ h.sp.rwpc = c.g.sp.rwpc ||| 4
end

/-! ### MATRIX and LAUNCH (R94, R327 to R355) -/
namespace Sys2Proof.Claims
open Sys2Proof.Machine

/-- A matrix word asks its core's unit to accept an operation (R329): it waits behind the others, and nothing else changes but that a word which begins
a no-rewind stretch marks its group (R397). -/
def QueuesOp (c : Ctx) (s : State) (tile : Nat) (kind : MatKind) (stretch : Bool) (t : State) : Prop :=
  t.mem = s.mem ∧ (∀ j, j ≠ c.gid → t.group j = s.group j)
    ∧ (t.core c.core).mqueue = (s.core c.core).mqueue
    ∧ (t.core c.core).mwaiting = (s.core c.core).mwaiting ++ [⟨c.gid, c.team.incn, c.site.split, c.wordAddr, tile, kind, false, none, none, 0, []⟩]
    ∧ ⟨.matrixAccept c.core, Request.zero⟩ ∈ t.agenda
    ∧ (t.team c.core c.gid.slot).map (fun u => ({ u with groups := [] } : Team)) = some { c.team with groups := [] }
    ∧ ∃ h, t.group c.gid = some h ∧ h.RegsOf c.g ∧ h.sp.rwpc = if stretch then c.g.sp.rwpc ||| 4 else c.g.sp.rwpc

/-- Room for one more operation (R329). -/
def UnitHasRoom (c : Ctx) (s : State) : Prop := (s.core c.core).mqueue.length + (s.core c.core).mwaiting.length < 16

/-- A block of n scalars from b on, and the pairs given, are full. -/
def BlockFull (g : Group) (pairs : List SReg) (b : SReg) (n : Nat) : Prop :=
  (∀ a ∈ pairs, ∀ r ∈ pairRegs a.toNat, g.sFull r = true) ∧ ∀ j < n, g.sFull (b.toNat + j) = true

/-- The formats that a tile shape multiplies (R332): any two MX formats, two BF16, two F16 or two F32 operands on F32 tiles; F64 on F64 tiles. -/
def FormatsPair (accF : Bool) (a b : Nat) : Prop :=
  if accF then a = 9 ∧ b = 9 else (a ≤ 5 ∧ b ≤ 5) ∨ (a = b ∧ 6 ≤ a ∧ a ≤ 8)

/-- The formats into which MDRAIN converts (R342). -/
def DrainFormat (accF : Bool) (df layout : Nat) : Prop :=
  if accF then (df = 8 ∨ df = 9) ∧ layout = 0 else df ≤ 8 ∧ (layout = 0 ∨ df ≤ 5)

/-- The progress word (R328): TOTAL, STEP, FCAUSE in FAULT, PEND, STATE, TILE. -/
def progressWord (x : Tile) (n : Nat) : Nat :=
  x.total % 2 ^ 16 * 2 ^ 48 + x.step % 2 ^ 16 * 2 ^ 32 + (if x.fault then x.fcause % 2 ^ 8 else 0) * 2 ^ 16 + x.pend % 2 ^ 8 * 2 ^ 8
    + (if x.fault then 2 else if x.pend = 0 then 0 else 1) * 2 ^ 6 + n % 8

/-- A TLB entry that an invalidation keeps (R230): of another tenant, or of pages that do not hold the address. -/
def TlbKept (n : Nat) (va : Option W64) (e : TlbEntry) : Bool :=
  decide (e.tenant ≠ n) || (match va with | some a => decide (a.toNat < e.va ∨ e.va + e.bytes ≤ a.toNat) | none => false)

end Sys2Proof.Claims

section
open Sys2Proof Sys2Proof.Machine Sys2Proof.Claims

/-- R328 to R333, R342, R346, R348 to R355: MMAP writes a map at once; MZERO, MLOAD, MLOOP and MDRAIN ask the unit to accept their operation; MWAIT
reads the progress word of a tile without pending operations, and waits otherwise; MPROG reads the record. -/
def Obligations.MatrixWordsAskTheirUnit : Prop :=
  (∀ (a b : SReg) (om : BitVec 3) (s : State) (c : Ctx), s.issuer = some c → c.team.accN ≠ 0 → a.toNat % 2 = 0 → BlockFull c.g [a] b 4 →
    let v := fun j => c.g.s (b.toNat + j)
    let fmt := (v 0).toNat % 16
    let layout := (v 0).toNat / 16
    layout ≤ 1 → fmt ≤ 9 → (layout = 1 → fmt ≤ 5) → (v 3 ≠ 0 → fmt ≤ 5 ∧ layout = 0) →
    (a = 0 → (v 1).toNat < 2 ^ 32) → (a ≠ 0 → (c.g.sc a.toNat).tag = true ∧ (c.g.sc a.toNat).kind = 0 ∧ (c.g.sc a.toNat).otype = 0
      ∧ (c.g.sc a.toNat).grants permLD = true) →
    Runs (.mmap a b om) s fun t => t.mem = s.mem ∧ (∀ j, j ≠ c.gid → t.group j = s.group j) ∧ (∃ h, t.group c.gid = some h ∧ h.RegsOf c.g)
      ∧ ∃ u, t.team c.core c.gid.slot = some u ∧ u.tiles = c.team.tiles ∧ u.scratch = c.team.scratch
        ∧ NMap.find u.maps om.toNat = some ⟨fmt, layout, v 1, (v 2).toNat % 2 ^ 32, (v 2).toNat / 2 ^ 32, v 3, if a = 0 then none else some (c.g.sc a.toNat)⟩
        ∧ ∀ n, n ≠ om.toNat → NMap.find u.maps n = NMap.find c.team.maps n)
  ∧ (∀ (tile : BitVec 3) (s : State) (c : Ctx), s.issuer = some c → tile.toNat < c.team.accN → UnitHasRoom c s →
    Runs (.mzero tile) s (QueuesOp c s tile.toNat .zero false))
  ∧ (∀ (a b : SReg) (tile : BitVec 3) (s : State) (c : Ctx), s.issuer = some c → c.g.mode ≠ .recipe → tile.toNat < c.team.accN → a.toNat % 2 = 0 →
    BlockFull c.g [a] b 2 → UnitHasRoom c s → c.g.p 0 = 0 →
    let off := c.g.s b.toNat
    let rs := (c.g.s (b.toNat + 1)).toNat
    let dim := if c.team.accF then 64 else 128
    let n := (dim - 1) * rs + dim * (if c.team.accF then 8 else 4)
    rs < 2 ^ 32 →
    (a = 0 → off.toNat + n ≤ c.team.shareBytes) →
    (a ≠ 0 → capCheck (c.g.sc a.toNat) ((c.g.sc a.toNat).addr + off) n permLD = none) →
    Runs (.mload a b tile) s (QueuesOp c s tile.toNat (.load (if a = 0 then none else some (c.g.sc a.toNat)) off rs) true))
  ∧ (∀ (resume : Bool) (ma mb : BitVec 3) (b : SReg) (tile : BitVec 3) (s : State) (c : Ctx) x y, s.issuer = some c → c.g.mode ≠ .recipe →
    tile.toNat < c.team.accN → c.g.sFull b.toNat = true → 1 ≤ (c.g.s b.toNat).toNat → (c.g.s b.toNat).toNat ≤ 65535 →
    NMap.find c.team.maps ma.toNat = some x → NMap.find c.team.maps mb.toNat = some y → FormatsPair c.team.accF x.fmt y.fmt →
    UnitHasRoom c s → c.g.p 0 = 0 →
    Runs (if resume then .mloopResume ma mb b tile else .mloop ma mb b tile) s
      (QueuesOp c s tile.toNat (.loop x y (c.g.s b.toNat).toNat resume) true))
  ∧ (∀ (d a b : SReg) (tile : BitVec 3) (sys : Bool) (s : State) (c : Ctx), s.issuer = some c → c.g.mode ≠ .recipe → tile.toNat < c.team.accN →
    a.toNat % 2 = 0 → d.toNat % 2 = 0 → BlockFull c.g [d, a] b 4 → UnitHasRoom c s →
    let v := fun j => (c.g.s (b.toNat + j)).toNat
    let df := v 3 % 16
    let mode := v 3 / 16 % 8
    let layout := v 3 / 128 % 2
    let seed := v 3 / 2 ^ 16 % 128
    let m : OpMap := ⟨df, layout, c.g.s b.toNat, v 1 % 2 ^ 32, v 1 / 2 ^ 32, c.g.s (b.toNat + 2), if a = 0 then none else some (c.g.sc a.toNat)⟩
    v 3 < 2 ^ 23 → v 3 / 2 ^ 8 % 2 ^ 8 = 0 → mode ≤ 5 → (mode ≠ 5 → seed = 0) → (mode = 5 → c.g.sFull seed = true) →
    DrainFormat c.team.accF df layout →
    (∀ i < (if c.team.accF then 64 else 128), ∀ x ∈ m.rowRanges i 0 (if c.team.accF then 64 else 128),
      (a = 0 → x.addr.toNat + x.n ≤ c.team.shareBytes) ∧ (a ≠ 0 → capCheck (c.g.sc a.toNat) x.addr x.n permST = none)) →
    (d ≠ 0 → capCheck (c.g.sc d.toNat) (c.g.sc d.toNat).addr (if c.team.accF then 8 else 4) (permLD + permST + permAT) = none
      ∧ (c.g.sc d.toNat).addr.toNat % (if c.team.accF then 8 else 4) = 0) →
    Runs (.mdrain d a b tile sys) s
      (QueuesOp c s tile.toNat (.drain m mode seed (c.g.s seed) (if d = 0 then none else some (c.g.sc d.toNat)) sys) true))
  ∧ (∀ (d : SReg) (tile : BitVec 3) (s : State) (c : Ctx), s.issuer = some c → tile.toNat < c.team.accN → c.g.sFull d.toNat = true →
    let x := c.team.tile tile.toNat
    (x.pend = 0 → Runs (.mwait d tile) s (After c s (c.g.setS d.toNat (BitVec.ofNat 64 (progressWord x tile.toNat)))))
    ∧ (x.pend ≠ 0 → Runs (.mwait d tile) s fun t => After c s c.g t ∧ ∃ h, t.group c.gid = some h ∧ h.LanesHeld c.p.lanes [.tileIdle tile.toNat])
    ∧ Runs (.mprog d tile 0) s (After c s (c.g.setS d.toNat (BitVec.ofNat 64 (progressWord x tile.toNat))))
    ∧ Runs (.mprog d tile 1) s (After c s (c.g.setS d.toNat (if x.fault then x.faddr else 0))))

/-- R94, R230, R397: LAUNCH completes once its release has nothing to wait for: its result is late, its scalar empty, and its atomic waits for the
entries that are older than it. TLBI_DROP_VA and TLBI_DROP_TENANT complete in every state: they take a tenant's entries, for one page or all of them,
from every core and every walker. -/
def Obligations.LaunchWaitsForItsReleaseAndDropsEmptyTlbs : Prop :=
  (∀ (q p d : SReg) (s : State) (c : Ctx) key, s.issuer = some c → c.g.mode ≠ .recipe → q.toNat % 2 = 0 → p.toNat % 8 = 0 → 8 ≤ p.toNat → p.toNat ≤ 120 →
    (∀ r ∈ pairRegs q.toNat, c.g.sFull r = true) → c.g.sFull d.toNat = true → (∀ j < 8, c.g.sFull (p.toNat + j) = true) →
    capCheck (c.g.sc q.toNat) (c.g.sc q.toNat).addr 64 (permST + permAT) = none → s.queueWithQcb (c.g.sc q.toNat).addr = some key →
    s.queueTenant (key / 256) (key % 256) = some c.team.tenant → c.fenceWaits 3 = [] →
    Runs (.launch q p d) s fun t => t.mem = s.mem ∧ (∀ j, j ≠ c.gid → t.group j = s.group j)
      ∧ ∃ h l, t.group c.gid = some h ∧ Emptied c.g [] (if d = 0 then [] else [d.toNat]) h ∧ h.sp.rwpc = c.g.sp.rwpc ||| 4 ∧ h.lates = c.g.lates ++ [l]
        ∧ l.id = s.freshId ∧ l.kind = .launch key ((List.range 8).map fun j => c.g.s (p.toNat + j)) false ∧ l.sdests = (if d = 0 then [] else [d.toNat])
        ∧ l.stamp = some (s.core c.core).seqNext ∧ h.LanesHeld c.p.lanes [.lateDone s.freshId])
  ∧ (∀ (n : Nat) (va : W64) (s : State), Runs (.tlbiDropVa n va) s fun t => t.mem = s.mem ∧ t.tenants = s.tenants
      ∧ ∀ k, (t.core k).teams = (s.core k).teams ∧ (t.core k).tlb = (s.core k).tlb.filter (TlbKept n (some va))
        ∧ (t.die k).tlb = (s.die k).tlb.filter (TlbKept n (some va)))
  ∧ (∀ (n : Nat) (s : State), Runs (.tlbiDropTenant n) s fun t => t.mem = s.mem ∧ t.tenants = s.tenants
      ∧ ∀ k, (t.core k).teams = (s.core k).teams ∧ (t.core k).tlb = (s.core k).tlb.filter (TlbKept n none)
        ∧ (t.die k).tlb = (s.die k).tlb.filter (TlbKept n none))
end

/-! ### Steps of issue and of traps (R115 to R128, R386 to R397, R403, R445) -/
namespace Sys2Proof.Claims
open Sys2Proof.Machine

/-- The split that a quadrant chooses among its eligible ones (R117): the most aged, once one has aged 4096 cycles; else, of the group whose split became
ready first, the split at the lowest address. Ties go to the lower group slot, then to the lower split. -/
def Chosen (l : List (Site × Split)) (x : Site × Split) : Prop :=
  x ∈ l ∧
    if ∃ y ∈ l, 4096 ≤ y.2.age then
      4096 ≤ x.2.age ∧ ∀ y ∈ l, 4096 ≤ y.2.age → y = x ∨ y.2.age < x.2.age ∨ (y.2.age = x.2.age
        ∧ (groupSlot x.1.g < groupSlot y.1.g ∨ (groupSlot x.1.g = groupSlot y.1.g ∧ x.1.split < y.1.split)))
    else
      (∃ z ∈ l, z.1.g = x.1.g ∧ ∀ y ∈ l, z.2.ready < y.2.ready ∨ (z.2.ready = y.2.ready ∧ (y.1.g = z.1.g ∨ groupSlot z.1.g < groupSlot y.1.g)))
        ∧ ∀ y ∈ l, y.1.g = x.1.g → y = x ∨ x.2.place < y.2.place ∨ (x.2.place = y.2.place ∧ x.1.split < y.1.split)

/-- The split whose clause a quadrant has in progress. -/
def InProgress (s : State) (core q : Nat) : Option Site := (s.issuing core q).map Ctx.site

/-- A split that the rotation may move (R126): it came to a header after the oldest entry of the overflow set had waited 4096 cycles, and rotation has
not just released it. -/
def Candidate (o : Overflow) (p : Split) : Prop := p.st = .bound ∧ p.rotated = false ∧ o.since + 4096 ≤ p.reached

/-- A trap puts its record into the special registers (R388): the word, the cause, the lanes that raised it, the split, the information. -/
def TrapRegs (r : Record) (h : Group) : Prop :=
  h.sp.tpc = r.word ∧ h.sp.tcause = BitVec.ofNat 64 r.cause.code ∧ h.sp.flm = r.flm ∧ h.sp.tinfo = r.info

/-- The group's condition to trap (R388): it has a stopped record and awaits nothing, and none of its splits can go on. -/
def TrapsNow (g : Group) (r : Record) : Prop :=
  g.cur = some r ∧ g.awaiting = false ∧ g.halted = false ∧ ∀ kp ∈ g.splits, kp.2.st = .held ∨ kp.2.st = .halt

/-- The team that a privileged write names is on a core, and of the writer's tenant (R394). -/
def Named (s : State) (core slot : Nat) (tm : Team) : Prop :=
  s.homeOf s.req.core s.req.slot s.req.incn = some (.core core slot) ∧ s.team core slot = some tm ∧ tm.tenant = s.req.tenant

/-- The group that GRESUME names awaits it. -/
def Awaits (s : State) (i : GroupId) (tm : Team) (g : Group) (r : Record) : Prop :=
  Named s i.core i.slot tm ∧ s.req.group = i.group ∧ s.group i = some g ∧ g.awaiting = true ∧ g.recordHeld = false ∧ g.cur = some r
    ∧ g.lateMarks = [] ∧ g.curPending = none

/-- A debug command reaches the group it names (R403, R431): DBGCMD's fields are slot, group, split, operation, FRZ. -/
def DebugCommand (s : State) (i : GroupId) (split op : Nat) : Prop :=
  s.pkg.debugUnlocked = true ∧ (s.world (s.core i.core).world).excluded = false ∧ s.req.core = i.core
    ∧ i.slot < 32 ∧ i.group < 32 ∧ split < 4 ∧ s.req.value = BitVec.ofNat 64 (i.slot + i.group * 2 ^ 5 + split * 2 ^ 10 + op * 2 ^ 12)

end Sys2Proof.Claims

section
open Sys2Proof Sys2Proof.Machine Sys2Proof.Claims

/-- R97, R115 to R117, R122, R125, R126, R403: the choice begins or resumes the clause of the split that R117 names; a clause breaks after 64 stalled
cycles, and its split waits for every register that its word reads in its active lanes, an empty destination among them; the oldest overflow entry changes places with the next split that comes to a header
after 4096; halts, resumes and single steps of the debug controller. -/
def Obligations.ChoicesBreaksAndRotations : Prop :=
  (∀ (core q : Nat) (s : State) (x : Site × Split), InProgress s core q = none →
    let s1 := s.ageSplits core q 0
    Chosen (s1.candidates core q) x →
    (∀ tm g p cl, s1.team core x.1.g.slot = some tm → s1.group x.1.g = some g → s1.split x.1 = some p → g.bevents = [] →
      (p.st = .held → p.clause = some cl → cl.next < cl.count → Runs (.quadrantChoice core q) s fun t =>
        InProgress t core q = some x.1 ∧ t.split x.1 = some { p with st := .issue, held := none, stall := 0, age := 0, eligible := false } ∧ t.mem = s.mem)
      ∧ (∀ s2, p.st = .bound → (s.debugReach core = true → (s.core core).breakpointAt p.pc = none) → g.cur = none →
        s1.headerHost core tm g.code p = none → headerCheck s1 core tm g.code p = (s2, .ok cl) →
        Runs (.quadrantChoice core q) s fun t => InProgress t core q = some x.1 ∧ ∃ p1, t.split x.1 = some p1 ∧ p1.clause = some cl ∧ p1.st = .issue
          ∧ p1.lanes = p.lanes ∧ p1.code = p.code ∧ p1.pc = p.pc)))
  ∧ (∀ (i : Site) (s : State) g p hd, s.group i.g = some g → NMap.find g.splits i.split = some p → p.st = .issue → 64 ≤ p.stall → p.held = some hd →
    hd.again = true → g.lateMarks = [] →
    Runs (.clauseBreak i) s fun t => OnlyGroup i.g s t ∧ InProgress t i.g.core (quadOf i.g.slot i.g.group) = none
      ∧ ∃ h, t.group i.g = some h ∧ h.RegsOf g ∧ h.sp = g.sp ∧ h.LanesAt p.lanes p.place p.code ∧ h.LanesHeld p.lanes hd.conds
        ∧ ∀ tm cl x, s.team i.g.core i.g.slot = some tm → p.clause = some cl →
          let w := cl.words.getD cl.next 0
          decodeWord (decodeHeader cl.header).cls w = .ok x →
            h.LanesHeld p.lanes (hd.conds ++ readsEmpty tm g p (wordMask (decodeHeader cl.header).cls w) x))
  ∧ (∀ (i : GroupId) (s : State) g o rest k p, s.group i = some g → g.overflow = o :: rest → o.since + 4096 ≤ s.cycle → g.lateMarks = [] →
    (k, p) ∈ g.splits → Candidate o p → (∀ kp ∈ g.splits, Candidate o kp.2 → kp = (k, p) ∨ p.reached < kp.2.reached) →
    Runs (.overflowRotation i) s fun t => OnlyGroup i s t ∧ ∃ h, t.group i = some h ∧ h.RegsOf g ∧ h.sp = g.sp ∧ h.LanesAt o.lanes o.place o.code
      ∧ h.LanesAt p.lanes p.pc p.code)
  ∧ (∀ (i : GroupId) (k : Nat) (s : State) tm g, s.team i.core i.slot = some tm → s.group i = some g → g.lateMarks = [] → tm.groups.Pairwise (·.1 ≠ ·.1) →
    (DebugCommand s i k 0 → Runs .dbgcmdHalt s fun t => t.mem = s.mem ∧ ∃ h, t.group i = some h ∧ h.RegsOf g ∧ h.halted = true ∧ h.sp.tcause = 0x5D
      ∧ h.sp.tinfo = 0x100 ∧ (∀ n p, NMap.find h.splits n = some p → p.st = .halt ∨ p.dbgStep = true))
    ∧ (DebugCommand s i k 1 → Runs .dbgcmdResume s fun t => t.mem = s.mem ∧ ∃ h, t.group i = some h ∧ h.RegsOf g ∧ h.halted = false ∧ h.sp = g.sp)
    ∧ (∀ p, DebugCommand s i k 2 → NMap.find g.splits k = some p → g.halted = true → g.mustHalt p = false → p.st = .halt →
      Runs .dbgcmdStep s fun t => t.mem = s.mem ∧ ∃ h, t.group i = some h ∧ h.RegsOf g ∧ h.sp = g.sp ∧ h.halted = true
        ∧ NMap.find h.splits k = some { p with st := p.prior, dbgStep := true, eligible := false }
        ∧ ∀ n, n ≠ k → NMap.find h.splits n = NMap.find g.splits n))

/-- R82, R386 to R389, R394, R395, R397, R445: TAKING AN EXCEPTION. The record goes into the special registers; at level K the stopped lanes go on as one
split at the handler and the rest is set aside; at level S and at the host the group freezes until GRESUME returns its lanes, delivers the trap, or ends
the team. Late faults enter a record, or count as events of the grid once their lanes have exited. That a trap in handler mode leaves tpc, tcause, flm,
tsplit and tinfo as they were is the model's reading (notes/assumptions 72, DEDUCED). -/
def Obligations.TakingAndResumingTraps : Prop :=
  (∀ (i : GroupId) (s : State) tm g r, s.team i.core i.slot = some tm → s.group i = some g → TrapsNow g r → (∀ kt ∈ s.tenants, kt.2.heldRecords = []) →
    (g.mode = .handler → Runs (.trapDelivery i) s fun t => ∃ h, t.group i = some h ∧ h.awaiting = true ∧ h.mode = .handler ∧ h.RegsOf g ∧ h.sp = g.sp
      ∧ h.splits = g.splits ∧ h.nested = g.nested)
    ∧ (g.mode ≠ .handler → g.lateMarks = [] → routeOf (s.tenant tm.tenant) g.sp.tvec r.cause = .k → Runs (.trapDelivery i) s fun t => t.mem = s.mem
      ∧ OnlyGroup i s t ∧ ∃ h, t.group i = some h ∧ h.RegsOf g ∧ TrapRegs r h ∧ h.mode = .handler ∧ h.handlerLanes = r.lanes ∧ h.sp.rwpc = g.sp.rwpc ||| 4
        ∧ h.shadow = g.splits ∧ h.shadowOverflow = g.overflow ∧ h.shadowMode = g.mode ∧ h.stopped = some r ∧ h.sp.tvec = g.sp.tvec
        ∧ h.LanesAt r.lanes (tm.codeCap.addr + 8 * (g.sp.tvec.extractLsb' 0 32).signExtend 64) tm.codeCap)
    ∧ (g.mode ≠ .handler → routeOf (s.tenant tm.tenant) g.sp.tvec r.cause ≠ .k → Runs (.trapDelivery i) s fun t => ∃ h, t.group i = some h
      ∧ h.RegsOf g ∧ TrapRegs r h ∧ h.awaiting = true ∧ h.mode = g.mode ∧ h.splits = g.splits ∧ h.stopped = some r ∧ h.sp.rwpc = g.sp.rwpc))
  ∧ (∀ (i : GroupId) (lanes : Lanes) (cause : Cause) (addr : W64) (s : State) tm g, s.team i.core i.slot = some tm → s.group i = some g → g.lateMarks = [] →
    lanes ≠ 0 →
    (∀ gr, lanes &&& ~~~g.exited = 0 → s.grid tm.grid = some gr → gr.xrec = none → gr.writes = [] → Runs (.lateFault i lanes false cause addr) s fun t =>
      t.mem = s.mem ∧ t.group i = some g ∧ ∃ gr1, t.grid tm.grid = some gr1 ∧ gr1.nfault = min (gr.nfault + 1) (2 ^ 32 - 1))
    ∧ (∀ k p, lanes &&& g.exited = 0 → g.cur = none → (k, p) ∈ g.splits → lanes &&& ~~~p.lanes = 0 →
      (∀ kp ∈ g.splits, kp ≠ (k, p) → kp.2.lanes &&& lanes = 0) → Runs (.lateFault i lanes false cause addr) s fun t =>
        OnlyGroup i s t ∧ ∃ h r, t.group i = some h ∧ h.RegsOf g ∧ h.cur = some r ∧ r.word = p.heldWord ∧ r.lanes = lanes ∧ r.cause = cause ∧ r.flm = lanes
          ∧ r.info = addr ∧ r.late = true ∧ r.code = p.code))
  ∧ (∀ (i : GroupId) (s : State) tm g r, Awaits s i tm g r →
    (∀ c, r.clause = some c → r.atHeader = false →
      (Runs .gresumeRetry s fun t => OnlyGroup i s t ∧ ∃ h, t.group i = some h ∧ h.RegsOf g ∧ h.awaiting = false ∧ h.cur = none ∧ h.mode = g.mode
        ∧ (r.lanes ≠ 0 → h.LanesAt r.lanes (c.wordAddr c.next) r.code))
      ∧ (Runs .gresumeSkip s fun t => OnlyGroup i s t ∧ ∃ h, t.group i = some h ∧ h.RegsOf g ∧ h.awaiting = false ∧ h.cur = none ∧ h.mode = g.mode
        ∧ (r.lanes ≠ 0 → h.LanesAt r.lanes (if c.next + 1 < c.count then c.wordAddr (c.next + 1) else c.nextHeader) r.code)))
    ∧ (r.atHeader = true → r.lanes ≠ 0 →
      (Runs .gresumeRetry s fun t => ∃ h, t.group i = some h ∧ h.RegsOf g ∧ h.awaiting = false ∧ h.cur = none ∧ h.LanesAt r.lanes r.word r.code)
      ∧ ∀ c, r.clause = some c → Runs .gresumeSkip s fun t => ∃ h, t.group i = some h ∧ h.RegsOf g ∧ h.awaiting = false ∧ h.cur = none
        ∧ h.LanesAt r.lanes c.nextHeader r.code)
    ∧ (g.mode ≠ .handler → g.sp.tvec.getLsbD 63 = true → Runs .gresumeDeliver s fun t => OnlyGroup i s t ∧ ∃ h, t.group i = some h ∧ h.RegsOf g
      ∧ h.awaiting = false ∧ h.mode = .handler ∧ h.shadow = g.splits ∧ h.handlerLanes = r.lanes
      ∧ h.LanesAt r.lanes (tm.codeCap.addr + 8 * (g.sp.tvec.extractLsb' 0 32).signExtend 64) tm.codeCap)
    ∧ (∀ gr, s.grid tm.grid = some gr → gr.xrec = none → gr.writes = [] → Runs .gresumeKill s fun t => t.mem = s.mem
      ∧ (∃ gr1, t.grid tm.grid = some gr1 ∧ gr1.nfault = min (gr.nfault + 1) (2 ^ 32 - 1))
      ∧ ∃ tm1, t.team i.core i.slot = some tm1 ∧ tm1.killed = true ∧ ∀ kg ∈ tm1.groups, kg.2.splits = [] ∧ kg.2.overflow = [] ∧ kg.2.stopped = none
        ∧ kg.2.exited = BitVec.allOnes 64))
  ∧ (∀ (core slot : Nat) (s : State) tm, Named s core slot tm →
    (s.req.flag = true → Runs .bankreq s fun t => t.mem = s.mem ∧ t.cores = s.cores ∧ ⟨.bankRequest core slot .request, Request.zero⟩ ∈ t.agenda)
    ∧ (let w := s.req.tight
       let f := fun (lo len : Nat) => descField tm.desc lo len
       w.grIssue ≤ 1 → w.grMatrix ≤ 1 → w.grCopy ≤ 1 → w.grHearth ≤ 1 → w.grace ≠ 0 → w.grace < 256 →
       f 764 4 ≤ w.grIssue → w.grMatrix ≤ f 760 4 → w.grCopy ≤ f 756 4 → w.grHearth ≤ f 752 4 → w.grace ≤ f 740 8 →
       Runs .grtight s fun t => t.mem = s.mem ∧ ∃ tm1, t.team core slot = some tm1 ∧ tm1.groups = tm.groups ∧ tm1.tiles = tm.tiles
        ∧ (let h := fun (lo len : Nat) => descField tm1.desc lo len
           h 764 4 = w.grIssue ∧ h 760 4 = w.grMatrix ∧ h 756 4 = w.grCopy ∧ h 752 4 = w.grHearth ∧ h 740 8 = w.grace
             ∧ h 0 740 = f 0 740 ∧ h 768 1280 = f 768 1280)))
end

/-! ### Steps of the hearths, the homes and the memory controllers (R231 to R248, R277 to R298, R416, R447) -/
namespace Sys2Proof.Claims
open Sys2Proof.Machine

/-- Byte i of a line in memory. -/
def lineByteAt (s : State) (ln i : Nat) : Byte := s.byteAt (ln * 128 + i)

/-- Nobody waits at a line's home. -/
def Quiet (d : DirEntry) : Prop := d.queue = [] ∧ d.parked = []

/-- An entry's bytes are in memory (R239): the bytes of its mask, and nothing else but the line's dirty-page byte (R231). -/
def BytesVisible (s t : State) (ln : Nat) (e : Entry) : Prop :=
  (∀ i < 128, dirtyByte s (ln * 128) ≠ some (ln * 128 + i) → lineByteAt t ln i = if e.mask.getLsbD i then lineByte e.data i else lineByteAt s ln i)
    ∧ ∀ a, a < ln * 128 ∨ ln * 128 + 128 ≤ a → dirtyByte s (ln * 128) ≠ some a → t.byteAt a = s.byteAt a

/-- The home can write an entry's bytes: the line reads without fault, or the entry holds all of it. -/
def Writable (s : State) (ln : Nat) (e : Entry) : Prop := e.mask = BitVec.allOnes 128 ∨ s.lineFault ln = none

/-- A triggered entry may leave (R239, R298): its line is known, its grant held and not being asked for again, every older triggered entry has left, and no older entry is of the same
line or of an unknown one; a release for the host waits until every older entry is FREE. -/
def MayLeave (k : Core) (idx : Nat) (e : Entry) : Prop :=
  (e.st = .draining ∨ e.st = .provisional) ∧ e.tv = true ∧ e.sent = false ∧ (e.host = true ∨ (e.pa ∈ k.grants ∧ e.pa ∉ k.grantAsked))
    ∧ ∀ x ∈ k.hearth, x.1 ≠ idx → x.2.stamp < e.stamp →
      ((x.2.st = .draining ∨ x.2.st = .provisional) → x.2.sent = true) ∧ ¬(x.2.tv = true ∧ x.2.pa = e.pa)
        ∧ (x.2.tv = true ∨ x.2.heldFail.isSome = true ∨ x.2.st = .faulted) ∧ ¬(e.host = true ∧ e.st = .provisional)

/-- The dirty-page byte of a line can be set at once (R231): it is a byte of the line itself, or nobody waits at its own line, and no copy or grant of
that is out. -/
def PageMarkFree (s : State) (ln : Nat) : Prop :=
  ∀ q, dirtyByte s (ln * 128) = some q → q / 128 = ln ∨ ((s.dirAt (q / 128)).queue = [] ∧ s.lineFree (q / 128) = true)

/-- The tags with which a piece enters a hearth (R56): its own, but those that a sweep of its tenant takes away. -/
def EnteringTags (s : State) (w : WaitingStore) (p : Piece) (tags : BitVec 8) : Prop :=
  let tn := ((s.team w.g.core w.g.slot).map Team.tenant).getD 0
  ((s.tenant tn).sweep = none → tags = p.tags) ∧ tags &&& ~~~p.tags = 0
    ∧ ∀ i < 8, p.tags.getLsbD i = true → (tags.getLsbD i = true ↔ (s.sweepFilter tn w.g.core ⟨p.data.extractLsb' (128 * i) 128, true⟩).tag = true)

/-- No late result is outstanding on a core. -/
def NoLates (k : Core) : Prop := ∀ st ∈ k.teams, ∀ kg ∈ st.2.groups, kg.2.lates = []

/-- A line that readers may take from its home (R294, R222): no host or engine holds it, no write of it is on its way, its bucket is not frozen. -/
def HomeServes (s : State) (ln : Nat) : Prop :=
  let d := s.dirAt ln
  Quiet d ∧ isHostLine ln = false ∧ s.frozen ln = false ∧ s.lineFault ln = none
    ∧ (d.st = .inv ∨ d.st = .shared ∨ (d.st = .excl ∧ d.hg = false) ∨ (d.st = .modified ∧ d.dr = false ∧ d.eg = false ∧ d.rp = false))

end Sys2Proof.Claims

section
open Sys2Proof Sys2Proof.Machine Sys2Proof.Claims

/-- R231 to R245, R284, R298: what a core's hearth does: a store's bytes join an entry or open one; walks give entries their line or their failure; an
entry is triggered by age, leaves for its home, and is FREE when its bytes are visible. A device write to the host (R428) of an interface in ERROR is
dropped at the port; that its entry is then FREE is the model's reading (notes/assumptions 129, DEDUCED). -/
def Obligations.HearthEntriesOpenLeaveAndFree : Prop :=
  (∀ (core : Nat) (s : State) w p, s.storeReady core = some w → w.g.core = core → w.pieces = [p] → w.rel = none →
    let k := s.core core
    (∀ idx e, k.mergeTarget w.g p = some idx → s.entry core idx = some e → Runs (.storeAccept core) s fun t => t.mem = s.mem
      ∧ (∃ tags, EnteringTags s w p tags ∧ t.entry core idx = some { e with mask := e.mask ||| p.mask, data := overlay e.data p.data p.mask
                                                                            tags := (e.tags &&& ~~~p.touched) ||| (tags &&& p.touched)
                                                                            near := e.near || p.near })
      ∧ (∀ x ∈ (t.core core).waiting, x.id ≠ w.id) ∧ ∀ g, s.group w.g = some g → ∃ h, t.group w.g = some h ∧ h.ctrs = (g.ctrDone 2 w.id).ctrs)
    ∧ (∀ idx, k.mergeTarget w.g p = none → (k.teamEntries w.g.slot).length < s.limitOf core w.g.slot → k.freeEntry = some idx →
      Runs (.storeAccept core) s fun t => t.mem = s.mem ∧ (t.core core).seqNext = k.seqNext + 1 ∧ (∀ x ∈ (t.core core).waiting, x.id ≠ w.id)
      ∧ (∃ e, t.entry core idx = some e ∧ e.st = .open_ ∧ e.rel = false ∧ e.va = p.va ∧ e.mask = p.mask ∧ e.data = p.data ∧ EnteringTags s w p e.tags
          ∧ e.stamp = k.seqNext ∧ e.slot = w.g.slot ∧ e.group = w.g.group ∧ e.tv = p.pa.isSome)
      ∧ (∀ g, s.group w.g = some g → ∃ h, t.group w.g = some h ∧ h.ctrs = ((g.ctrUp 3 k.seqNext).ctrDone 2 w.id).ctrs)
      ∧ (p.pa = none → ⟨.tlbWalk core idx, Request.zero⟩ ∈ t.agenda)))
  ∧ (∀ (core idx : Nat) (s s1 : State) e, s.entry core idx = some e → e.tv = false → e.st = .open_ → e.rel = false → s1.entry core idx = some e →
    s.pageHost core e.tenant (BitVec.ofNat 64 (e.va * 128)) .store = none →
    (∀ pa, translate s core e.tenant (BitVec.ofNat 64 (e.va * 128)) .store = (s1, .ok (.mem pa)) → Runs (.tlbWalk core idx) s fun t =>
      t.mem = s1.mem ∧ t.entry core idx = some { e with tv := true, pa := pa / 128, host := isHostLine (pa / 128) })
    ∧ (∀ f, translate s core e.tenant (BitVec.ofNat 64 (e.va * 128)) .store = (s1, .error f) → Runs (.tlbWalk core idx) s fun t =>
      t.mem = s1.mem ∧ t.entry core idx = some e ∧ ⟨.walkFail core idx f, Request.zero⟩ ∈ t.agenda))
  ∧ (∀ (core idx : Nat) (f : Cause) (s : State) e, s.entry core idx = some e → e.tv = false →
    (e.st = .open_ → Runs (.walkFail core idx f) s fun t => t.mem = s.mem ∧ t.entry core idx = some { e with heldFail := some f })
    ∧ (e.st = .draining ∨ e.st = .provisional → Runs (.walkFail core idx f) s fun t => ∃ e1, t.entry core idx = some e1 ∧ e1.st = .faulted
      ∧ e1.fcause = f.code ∧ e1.mask = e.mask ∧ e1.data = e.data ∧ e1.va = e.va))
  ∧ (∀ (core idx : Nat) (s : State) e, s.entry core idx = some e → e.st = .open_ → e.born + 4095 ≤ s.cycle → e.rel = false →
    (e.heldFail = none → Runs (.hearthAgeTrigger core idx) s fun t => t.mem = s.mem ∧ t.entry core idx = some { e with st := .draining }
      ∧ (e.tv = true → e.host = false → e.pa ∉ (s.core core).grants → e.pa ∉ (s.core core).grantAsked → ⟨.grantReq e.pa core true false, Request.zero⟩ ∈ t.agenda))
    ∧ (∀ f, e.heldFail = some f → Runs (.hearthAgeTrigger core idx) s fun t => ∃ e1, t.entry core idx = some e1 ∧ e1.st = .faulted ∧ e1.fcause = f.code))
  ∧ (∀ (core idx : Nat) (s : State) e, s.entry core idx = some e → MayLeave (s.core core) idx e → Runs (.entryLeave core idx) s fun t => t.mem = s.mem
    ∧ t.entry core idx = some { e with sent := true }
    ∧ (e.host = true → ⟨.hostWriteAccept core idx, Request.zero⟩ ∈ t.agenda)
    ∧ (e.host = false → e.st = .provisional → ⟨.drainProv e.pa core idx, Request.zero⟩ ∈ t.agenda)
    ∧ (e.host = false → e.st = .draining → ∃ more : Bool, ⟨.drainData e.pa core idx more, Request.zero⟩ ∈ t.agenda
      ∧ (more = true ↔ ∃ x ∈ (s.core core).hearth, x.1 ≠ idx ∧ x.2.tv = true ∧ x.2.pa = e.pa)))
  ∧ (∀ (core idx : Nat) (s : State) e, s.entry core idx = some e → e.host = true → e.sent = true → e.st = .draining ∨ e.st = .provisional →
    Quiet (s.dirAt e.pa) → ((s.dirAt e.pa).st = .excl ∨ (s.dirAt e.pa).st = .modified → (s.dirAt e.pa).holder = core) →
    (isHostLine e.pa = true → (s.tenant e.tenant).tdi = .error → Runs (.hostWriteAccept core idx) s fun t => t.mem = s.mem ∧ t.entry core idx = none)
    ∧ ((s.tenant e.tenant).tdi ≠ .error → s.MemoryWf → Runs (.hostWriteAccept core idx) s fun t => t.entry core idx = none
    ∧ (∀ i < 128, lineByteAt t e.pa i = if e.mask.getLsbD i then lineByte e.data i else lineByteAt s e.pa i)
    ∧ (∀ a, a < e.pa * 128 ∨ e.pa * 128 + 128 ≤ a → t.byteAt a = s.byteAt a) ∧ t.copiesAt e.pa = 0))
  ∧ (∀ (core idx : Nat) (s : State) e, s.entry core idx = some e → Quiet (s.dirAt e.pa) → NoLates (s.core core) →
    (∀ g, s.group ⟨core, e.slot, e.group⟩ = some g → Runs (.ack core idx false) s fun t => t.mem = s.mem ∧ t.entry core idx = none
      ∧ (∀ j, j ≠ idx → (t.entry core j).isSome = (s.entry core j).isSome)
      ∧ ∃ h, t.group ⟨core, e.slot, e.group⟩ = some h ∧ h.ctrs = (g.ctrDone 3 e.stamp).ctrs ∧ h.vregs = g.vregs ∧ h.sregs = g.sregs)
    ∧ ((∀ x ∈ (s.core core).hearth, x.1 ≠ idx → x.2.pa ≠ e.pa) → Runs (.ack core idx true) s fun t => t.mem = s.mem ∧ t.entry core idx = none
      ∧ e.pa ∉ (t.core core).grants))
  ∧ (∀ (i : GroupId) (id : Nat) (s : State) g, s.group i = some g →
    (Runs (.scratchWriteDone i id) s fun t => OnlyGroup i s t ∧ ∃ h, t.group i = some h ∧ h.ctrs = (g.ctrDone 0 id).ctrs ∧ h.vregs = g.vregs ∧ h.sregs = g.sregs)
    ∧ (Runs (.clusterAccessDone i id) s fun t => OnlyGroup i s t ∧ ∃ h, t.group i = some h ∧ h.ctrs = (g.ctrDone 1 id).ctrs ∧ h.vregs = g.vregs
      ∧ h.sregs = g.sregs))

/-- R277 to R279, R284, R293, R294, R447: what a line's home and its sites do with each message of the directory protocol. -/
def Obligations.HomesAnswerTheirMessages : Prop :=
  (∀ (line core : Nat) (s : State), HomeServes s line → s.noCache core line = false →
    let d := s.dirAt line
    let site : BitVec 7 := 1#7 <<< siteOf core line
    site ≠ 0 → Runs (.read line core) s fun t => t.mem = s.mem ∧ t.copiesAt line = s.copiesAt line ||| site
      ∧ t.dirAt line = { d with sites := d.sites ||| site, st := if d.st = .inv then .shared else d.st })
  ∧ (∀ (line : Nat) (i : GroupId) (id : Nat) (s : State) g l, HomeServes s line → s.group i = some g → g.late id = some l →
    Runs (.readNew line i id) s fun t => t.mem = s.mem ∧ t.dirAt line = s.dirAt line ∧ t.copies = s.copies ∧ ∃ h, t.group i = some h ∧ h.vregs = g.vregs
      ∧ h.sregs = g.sregs ∧ h.late id = some (fillLate line (.ok (s.lineData line, s.lineTags line)) l))
  ∧ (∀ (line core : Nat) (mark : Bool) (s : State), Quiet (s.dirAt line) → s.frozen line = false →
    let d := s.dirAt line
    (d.st = .inv ∨ d.st = .shared ∨ (d.st = .excl ∧ d.hg = false ∧ d.eg = false ∧ d.holder = core) → Runs (.grantReq line core mark false) s fun t =>
      t.mem = s.mem ∧ (t.dirAt line).st = .modified ∧ (t.dirAt line).holder = core ∧ (t.dirAt line).dr = mark ∧ (t.dirAt line).sites = d.sites
        ∧ ⟨.grant line core false, Request.zero⟩ ∈ t.agenda)
    ∧ (d.st = .modified → d.holder ≠ core → d.asked = false → Runs (.grantReq line core mark false) s fun t => t.mem = s.mem
      ∧ (t.dirAt line).dr = true ∧ (t.dirAt line).queue = [.grant core mark false] ∧ ⟨.recall line d.holder, Request.zero⟩ ∈ t.agenda)
    ∧ (d.st = .inv → d.sites = 0 → Runs (.grantReq line core mark true) s fun t => (t.dirAt line).st = .modified ∧ (t.dirAt line).eg = true
      ∧ ⟨.grant line core true, Request.zero⟩ ∈ t.agenda))
  ∧ (∀ (line core : Nat) (s : State), isHostLine line = false → NoLates (s.core core) → NMap.find (s.core core).recalls line = none → (∀ x ∈ (s.core core).hearth, x.2.rel = false) →
    Runs (.grant line core false) s fun t => t.mem = s.mem ∧ line ∈ (t.core core).grants ∧ line ∉ (t.core core).grantAsked)
  ∧ (∀ (line core : Nat) (s : State), line ∈ (s.core core).grants → NoLates (s.core core) →
    ((∀ x ∈ (s.core core).hearth, x.2.tv = true → x.2.pa ≠ line) → Runs (.recall line core) s fun t => t.mem = s.mem ∧ line ∉ (t.core core).grants
      ∧ ⟨.grantBack line core, Request.zero⟩ ∈ t.agenda)
    ∧ (∀ idx e, (s.core core).hearth = [(idx, e)] → e.st = .open_ → e.tv = true → e.pa = line → e.rel = false → e.heldFail = none → e.host = false →
      e.sent = false →
      let asks := line ∈ (s.core core).grantAsked ∨ s.idleHolder core line = true
      Runs (.recall line core) s fun t => t.mem = s.mem ∧ t.entry core idx = some { e with st := .draining }
        ∧ (¬asks → line ∈ (t.core core).grants ∧ (NMap.find (t.core core).recalls line).isSome = true)
        ∧ (asks → line ∉ (t.core core).grants ∧ ⟨.grantBack line core, Request.zero⟩ ∈ t.agenda)))
  ∧ (∀ (line core : Nat) (s : State), Quiet (s.dirAt line) → (s.dirAt line).st = .excl ∨ (s.dirAt line).st = .modified → (s.dirAt line).hg = false →
    (s.dirAt line).holder = core → Runs (.grantBack line core) s fun t => t.mem = s.mem ∧ (t.dirAt line).sites = (s.dirAt line).sites
      ∧ (t.dirAt line).st = (if (s.dirAt line).sites = 0 then .inv else .shared) ∧ (t.dirAt line).dr = false ∧ (t.dirAt line).rp = false)
  ∧ (∀ (line core idx : Nat) (s : State) e, (s.core core).hearth = [(idx, e)] → e.registered = true → e.tv = true → e.pa = line → e.st = .open_ →
    e.rel = true → e.heldFail = none → Runs (.promote line core) s fun t => t.mem = s.mem ∧ t.entry core idx = some { e with st := .provisional })
  ∧ (∀ (line core reader : Nat) (s : State), s.lineFault line = none → Runs (.fwd line core reader) s fun t => t.mem = s.mem ∧ t.cores = s.cores
    ∧ ∃ data tags, ⟨.fwdData line reader data tags, Request.zero⟩ ∈ t.agenda
      ∧ let mine := (s.core core).hearth.filter fun x => x.2.st == .draining && x.2.tv && x.2.pa == line
        ∀ b < 128, ((∀ x ∈ mine, x.2.mask.getLsbD b = false) → lineByte data b = lineByteAt s line b)
          ∧ ∀ x ∈ mine, x.2.mask.getLsbD b = true → (∀ y ∈ mine, y.2.mask.getLsbD b = true → y = x ∨ y.2.stamp < x.2.stamp) →
            lineByte data b = lineByte x.2.data b)
  ∧ (∀ (line reader : Nat) (data : LineData) (tags : BitVec 8) (s : State), (s.dirAt line).st = .owned → reader < 576 →
    (s.core reader).plainWaits line = true → s.noCache reader line = false → isHostLine line = false → Runs (.fwdData line reader data tags) s fun t => t.mem = s.mem
      ∧ t.visibleLine line = (data, tags) ∧ (t.dirAt line).sites = (s.dirAt line).sites ||| (1#7 <<< siteOf reader line)
      ∧ t.copiesAt line = s.copiesAt line ||| (1#7 <<< siteOf reader line))
  ∧ (∀ (line core idx : Nat) (more : Bool) (s : State) e, s.entry core idx = some e → e.pa = line → Quiet (s.dirAt line) → Writable s line e →
    (s.dirAt line).st = .modified → (s.dirAt line).sites = 0 → PageMarkFree s line → s.MemoryWf →
    (e.st = .draining → e.sent = true → Runs (.drainData line core idx more) s fun t => BytesVisible s t line e ∧ t.entry core idx = some e
      ∧ ⟨.ack core idx false, Request.zero⟩ ∈ t.agenda)
    ∧ (e.st = .provisional → e.acked = true → Runs (.commit line core idx more) s fun t => BytesVisible s t line e ∧ t.entry core idx = some e
      ∧ ⟨.ack core idx false, Request.zero⟩ ∈ t.agenda))
  ∧ (∀ (line core idx : Nat) (s : State) e, s.entry core idx = some e → e.pa = line → e.sent = true → e.st = .provisional → Writable s line e →
    (s.core core).hearth = [(idx, e)] → e.committing = false → Runs (.drainProv line core idx) s fun t => t.mem = s.mem
      ∧ ((s.dirAt line).st = .excl → (s.dirAt line).hg = false → (t.dirAt line).st = .modified) ∧ t.entry core idx = some { e with acked := true, committing := true }
      ∧ ⟨.commit e.pa core idx false, Request.zero⟩ ∈ t.agenda)
  ∧ (∀ (line site : Nat) (s : State), site < 6 →
    (Runs (.inval line site) s fun t => t.mem = s.mem ∧ t.copiesAt line = s.copiesAt line &&& ~~~(1#7 <<< site) ∧ ⟨.invalAck line site, Request.zero⟩ ∈ t.agenda)
    ∧ (Quiet (s.dirAt line) → Runs (.invalAck line site) s fun t => t.mem = s.mem ∧ (t.dirAt line).sites = (s.dirAt line).sites &&& ~~~(1#7 <<< site)
      ∧ ((s.dirAt line).st = .shared → (t.dirAt line).sites = 0 → (t.dirAt line).st = .inv)))
  ∧ (∀ (s : State), s.req.index < 7 → Runs .silentDrop s fun t => t.mem = s.mem ∧ t.dir = s.dir
    ∧ (s.req.flag = false → t.copiesAt s.req.line = s.copiesAt s.req.line &&& ~~~(1#7 <<< s.req.index))
    ∧ (s.req.flag = true → NMap.find (t.core s.req.core).l1 s.req.line = none))
end

/-! ### Steps of the distributors, of banks, of the watchdog and of sweeps (R24 to R36, R57, R58, R73 to R93, R397 to R407, R446) -/
namespace Sys2Proof.Claims
open Sys2Proof.Machine

/-- A device's write of a line is made at once (R267, R295): nobody waits at its home, and no copy or grant of it is out. -/
def WritesNow (s : State) (ln : Nat) : Prop := (s.dirAt ln).queue = [] ∧ s.lineFree ln = true

/-- The ash region's log of a die: its lines can be written at once (R404). -/
def LogFree (s : State) (base : Nat) : Prop := ∀ a, base ≤ a → a < base + 64 + 192 * 5461 → WritesNow s (a / 128)

/-- A group as a team begins (R35): the lanes of its width stand as one split at the entry clause, its counters are 0 and its records empty. -/
def Starts (g : Grid) (h : Group) : Prop :=
  let code := descCap g.desc g.descTags 0
  h.LanesAt (widthMask (descWidth g.desc)) (code.addr + BitVec.ofNat 64 (8 * descField g.desc 512 32)) code ∧ h.mode = .normal ∧ h.stopped = none
    ∧ h.pending = none ∧ h.overflow = [] ∧ (∀ n, h.p n = 0) ∧ h.lates = [] ∧ h.sends = [] ∧ h.exited = 0

/-- The core where a team is placed (R87): it fits, and every other core of the die that it fits has more groups, or as many and a higher number. -/
def Fewest (s : State) (gn : Nat) (g : Grid) (c slot : Nat) : Prop :=
  s.fitSlot g.tenant g.desc c 0 (some gn) = some slot ∧ c / 144 = g.die
    ∧ ∀ k, k / 144 = g.die → k ≠ c → (s.fitSlot g.tenant g.desc k 0 (some gn)).isSome = true →
      (s.core c).nGroups < (s.core k).nGroups ∨ ((s.core c).nGroups = (s.core k).nGroups ∧ c < k)

/-- A team may retire (R405): its groups have exited and wait for nothing, its tiles, slots, copies and ring are done, and no entry or store of it is left. -/
def Finished (s : State) (core slot : Nat) (tm : Team) : Prop :=
  (∀ kg ∈ tm.groups, kg.2.hasExited = true ∧ kg.2.sends = [] ∧ kg.2.p 5 = 0 ∧ kg.2.lates = []) ∧ (∀ x ∈ tm.tiles, x.2.pend = 0)
    ∧ (∀ kc ∈ tm.cords, ∀ ks ∈ kc.2.slots, ks.2.infl = 0) ∧ tm.cmds = [] ∧ tm.residues = [] ∧ (∀ r, tm.ring = some r → r.consumed = r.published)
    ∧ (∀ x ∈ (s.core core).hearth, x.2.slot ≠ slot) ∧ ∀ w ∈ (s.core core).waiting, w.g.slot ≠ slot

/-- The reservation that a cluster can give a grid (R89): of the runs whose cores could hold the kernel, one with the fewest occupied cores. A
grid whose reservation the cluster has released must rank first, and after a withdrawn one that used up its 2^20 cycles the pause must have passed (R90). -/
def Reserves (s : State) (gn cluster n : Nat) (g : Grid) (cores : List Nat) : Prop :=
  s.grid gn = some g ∧ s.placing gn g = true ∧ (s.cluster cluster).reservation = none ∧ (s.cluster cluster).pauseUntil ≤ s.cycle ∧ s.reserves gn = false
    ∧ (∀ w, (s.cluster cluster).restart = some w → s.cycle < w + 2 ^ 20 ∨ w + 2 ^ 21 ≤ s.cycle)
    ∧ (gn ∈ (s.cluster cluster).released → ((s.ranked (cluster / 3)).head?.map Prod.fst) = some gn)
    ∧ cluster / 3 = g.die ∧ s.reserveRun g cluster n = some cores

/-- A cluster holds a reservation of some cores for a grid from now on; its cycles are counted from the withdrawn one that it starts again, if there is
one whose 2^20 cycles have not passed (notes/assumptions 134, DESIGN CHOICE). -/
def Reserved (s t : State) (gn cluster : Nat) (cores : List Nat) : Prop :=
  t.mem = s.mem ∧ (∃ since, (t.cluster cluster).reservation = some ⟨gn, cores, since⟩
      ∧ ((s.cluster cluster).restart = none → since = s.cycle)
      ∧ ∀ w, (s.cluster cluster).restart = some w → since = if s.cycle < w + 2 ^ 20 then w else s.cycle) ∧ ∀ c, (t.core c).reserved = if c ∈ cores then some gn else (s.core c).reserved

/-- A cluster's reservation has ended. -/
def Unreserved (s t : State) (cluster : Nat) (r : Reservation) (pause : Nat) : Prop :=
  t.mem = s.mem ∧ (t.cluster cluster).reservation = none ∧ (t.cluster cluster).pauseUntil = pause
    ∧ ∀ c, (t.core c).reserved = if c ∈ r.cores ∧ (s.core c).reserved = some r.grid then none else (s.core c).reserved

end Sys2Proof.Claims

section
open Sys2Proof Sys2Proof.Machine Sys2Proof.Claims

/-- R35, R36, R73 to R92, R405, R446: packets are taken in order and checked; their grids wait for their dependences; teams and ricks are placed on the
cores that the manual ranks first, or reserve them; a team retires once nothing of it is left. The model's own in it: level S goes from a queue to its grids
and their teams (notes/assumptions 22, DESIGN CHOICE); a doorbell's mark stays while packets remain (82, DEDUCED); every taken packet counts in gridid (83,
DEDUCED), and n counts from 0 (132, DESIGN CHOICE); a team takes the lowest slot that fits, and all members of a rick are placed in one step (85, DESIGN
CHOICE); when the cycles of a reservation that starts again began (134). -/
def Obligations.PacketsGridsAndPlacement : Prop :=
  (∀ (die q tn : Nat) (s s1 : State) b, s.queueTenant die q = some tn →
    let k := queueKey die q
    (s.queue k).st = .run → s.headFree (s.queue k) = true → (s.queue k).bell = true → s.takeHeld die tn (s.queue k) = none →
    (s.distRead die tn ((s.queue k).qcb.toNat * 64) 64 = (s1, none) → Runs (.packetTake die q) s fun t => t.mem = s1.mem ∧ (t.queue k).st = .error
      ∧ (t.queue k).kind = 1 ∧ (t.queue k).code = 0x17)
    ∧ (s.distRead die tn ((s.queue k).qcb.toNat * 64) 64 = (s1, some b) → b / 2 ^ 256 = 0 → b / 2 ^ 58 % 2 ^ 6 = 0 → b / 2 ^ 52 % 2 ^ 3 = 0 →
      let size := b / 2 ^ 36 % 2 ^ 4
      let widx := b / 2 ^ 128 % 2 ^ 64
      let ridx := b / 2 ^ 192 % 2 ^ 64
      1 ≤ size →
      (widx = ridx → Runs (.packetTake die q) s fun t => t.mem = s1.mem ∧ t.grids = s1.grids ∧ (t.queue k).bell = false ∧ (t.queue k).st = (s1.queue k).st)
      ∧ (∀ s2 s3 p pa, ridx < widx → widx ≤ ridx + 2 ^ size → s1.distRead die tn (b % 2 ^ 36 * 64 + 64 * (ridx % 2 ^ size)) 64 = (s2, some p) →
        distTranslate s2 die tn ((s.queue k).qcb.toNat * 64 + 24) true = (s3, .ok pa) → s3.lineFault (pa / 128) = none → WritesNow s3 (pa / 128) → s3.MemoryWf →
        pa % 8 = 0 → (∀ a, dirtyByteAt s3 pa = some a → a < pa ∨ pa + 8 ≤ a) →
        packetOk (BitVec.ofNat 512 p) (b / 2 ^ 40 % 2 ^ 12) = true → packType (BitVec.ofNat 512 p) = 0 →
        packSig (BitVec.ofNat 512 p) = 0xFFF → packXrec (BitVec.ofNat 512 p) = 0xFFF → packDep (BitVec.ofNat 512 p) 0 = 0xFFF →
        packDep (BitVec.ofNat 512 p) 1 = 0xFFF → packDesc (BitVec.ofNat 512 p) = 0xFFF → packParam (BitVec.ofNat 512 p) = 0xFFF →
        Runs (.packetTake die q) s fun t => t.natAt pa 8 = (ridx + 1) % 2 ^ 64
          ∧ ∃ gn g, (t.queue k).head = some gn ∧ t.grid gn = some g ∧ g.die = die ∧ g.queue = q ∧ g.tenant = tn ∧ g.packet = BitVec.ofNat 512 p
            ∧ g.complete = false ∧ g.readySince = none ∧ g.deps = [] ∧ g.sig = none ∧ g.sLevel = (s3.queue k).sLevel
            ∧ g.name = BitVec.ofNat 64 (die * 2 ^ 30 + (s3.die die).gridCount) ∧ (t.die die).gridCount = ((s3.die die).gridCount + 1) % 2 ^ 30)))
  ∧ (∀ (die q gn : Nat) (s s1 : State) g va w v, (s.queue (queueKey die q)).head = some gn → s.grid gn = some g → (s.queue (queueKey die q)).st = .run →
    g.complete = false → g.readySince = none → s.hostHeld g.die g.tenant g.depVas = none → g.deps = [(va, w)] →
    s.distRead g.die g.tenant va.toNat 8 = (s1, some v) → s1.earlierDone gn g = true →
    (v % 2 ^ 63 < w.toNat → Runs (.dependenceReeval die q) s fun t => t.mem = s1.mem ∧ t.queues = s1.queues ∧ t.grid gn = some g
      ∧ ∀ j, j ≠ gn → t.grid j = s1.grid j)
    ∧ (w.toNat ≤ v % 2 ^ 63 → v < 2 ^ 63 ∨ packWaitErr g.packet = false ∨ 0 ∈ g.depsMet →
      (packType g.packet ≠ 0 → s1.leaseHolds g = true → Runs (.dependenceReeval die q) s fun t => t.mem = s1.mem
        ∧ ∃ met, 0 ∈ met ∧ t.grid gn = some { g with readySince := some s.cycle, checked := true, depsMet := met })
      ∧ (packType g.packet = 0 → s1.grid gn = some g → g.sig = none → g.writes = [] → g.retired = g.placed → s1.gridWrites gn = false → Runs (.dependenceReeval die q) s fun t => t.mem = s1.mem ∧ t.grid gn = none)))
  ∧ (∀ (gn c slot : Nat) (s : State) g, s.grid gn = some g → g.writes = [] → s.placing gn g = true → descRick g.desc = 1 → s.placeHeld g = none →
    Fewest s gn g c slot →
    Runs (.teamPlace gn) s fun t => (∃ tm, t.team c slot = some tm ∧ tm.grid = gn ∧ tm.tenant = g.tenant ∧ tm.index = g.placed ∧ tm.desc = g.desc
        ∧ tm.sLevel = g.sLevel ∧ tm.incn = s.incn c slot ∧ tm.scratch = [] ∧ tm.tiles = [] ∧ tm.maps = [] ∧ tm.ring = none)
      ∧ (∀ gi < descGroups g.desc, ∃ h, t.group ⟨c, slot, gi⟩ = some h ∧ Starts g h)
      ∧ (∃ g1, t.grid gn = some g1 ∧ g1.placed = g.placed + 1) ∧ (t.queue (queueKey g.die g.queue)).elapsed = 0
      ∧ (∀ sl, sl ≠ slot → t.team c sl = s.team c sl) ∧ (t.core c).world = (if (s.core c).teams = [] then descWorld g.desc else (s.core c).world))
  ∧ (∀ (gn : Nat) (s : State) g cores, s.grid gn = some g → s.placing gn g = true → 1 < descRick g.desc → s.placeHeld g = none →
    s.rickRun gn g = some cores → cores.Nodup →
    (∀ c ∈ cores, (s.fitSlot g.tenant g.desc c 0 (some gn)).isSome = true) → Runs (.rickPlace gn) s fun t =>
      (∀ k c, cores[k]? = some c → ∃ slot tm, s.fitSlot g.tenant g.desc c 0 (some gn) = some slot ∧ t.team c slot = some tm ∧ tm.grid = gn
        ∧ tm.index = g.placed + k ∧ ∀ gi < descGroups g.desc, ∃ h, t.group ⟨c, slot, gi⟩ = some h ∧ Starts g h)
      ∧ ∃ g1, t.grid gn = some g1 ∧ g1.placed = g.placed + cores.length)
  ∧ (∀ (gn cluster : Nat) (s : State) g cores,
    (1 < descRick g.desc → s.directRun gn g = none → Reserves s gn cluster (descRick g.desc) g cores → Runs (.rickReserve gn cluster) s fun t =>
      Reserved s t gn cluster cores)
    ∧ (s.starves gn g = true → s.chooseCore g.tenant g.desc g.die 0 (some gn) = none → Reserves s gn cluster 1 g cores →
      Runs (.nonrickReserve gn cluster) s fun t => Reserved s t gn cluster cores))
  ∧ (∀ (cluster : Nat) (s : State) r, (s.cluster cluster).reservation = some r →
    Runs (.rickWithdraw cluster) s (fun t => Unreserved s t cluster r (s.cluster cluster).pauseUntil ∧ (t.cluster cluster).restart = some r.since)
    ∧ (r.since + 2 ^ 20 ≤ s.cycle ∨ (∀ g, s.grid r.grid = some g → g.complete = true) → Runs (.reservationTimeout cluster) s fun t => Unreserved s t cluster r (s.cycle + 2 ^ 20)))
  ∧ (∀ (cluster : Nat) (s : State), (s.cluster cluster).pauseUntil ≤ s.cycle → Runs (.reservationPauseEnd cluster) s fun t => t.mem = s.mem
    ∧ (t.cluster cluster).pauseUntil = 0 ∧ (t.cluster cluster).reservation = (s.cluster cluster).reservation)
  ∧ (∀ (core slot : Nat) (s : State) tm g, s.team core slot = some tm → Finished s core slot tm → s.grid tm.grid = some g → g.sig = none →
    (g.retired + 1 < g.teams → g.complete = false → Runs (.teamRetire core slot) s fun t => t.mem = s.mem ∧ t.team core slot = none
      ∧ t.incn core slot = (s.incn core slot + 1) % 4096 ∧ t.grid tm.grid = some { g with retired := g.retired + 1 })
    ∧ (g.retired + 1 = g.teams → g.placed = g.teams → g.writes = [] → s.gridWrites tm.grid = false → Runs (.teamRetire core slot) s fun t => t.mem = s.mem ∧ t.team core slot = none
      ∧ t.grid tm.grid = none))

/-- R57, R58, R91, R92, R397 to R402, R404, R407: a bank stops a team, waits for its engines and leaves its image within 2^20 cycles; a banked team is placed
again; an expired watchdog banks, resets and reports; a sweep clears the revoked tags of its cores, then of memory, and raises the epoch. The model's own
in it: that a team leaves its core in the step that writes its image, and that a team whose save fails is ended (notes/assumptions 93, DESIGN CHOICE),
the steps of an expired watchdog (98, DEDUCED), and the cores that a sweep visits (111, DEDUCED). -/
def Obligations.BanksWatchdogsAndSweeps : Prop :=
  (∀ (core slot : Nat) (why : BankReason) (s : State) tm, s.team core slot = some tm →
    (tm.banking = none → tm.rick ≤ 1 → Runs (.bankRequest core slot why) s fun t =>
      (∃ tm1 b, t.team core slot = some tm1 ∧ tm1.groups = tm.groups ∧ tm1.banking = some b ∧ b.why = why ∧ b.since = s.cycle ∧ b.collected = none
        ∧ b.failed = false ∧ b.grIssue = descField tm.desc 764 4 ∧ b.grMatrix = descField tm.desc 760 4 ∧ b.grCopy = descField tm.desc 756 4
        ∧ b.grHearth = descField tm.desc 752 4 ∧ b.grace = descField tm.desc 740 8)
      ∧ ∀ idx e, (s.core core).hearth = [(idx, e)] → e.slot = slot → e.st = .open_ → e.rel = false → e.heldFail = none →
        t.entry core idx = some { e with st := .draining })
    ∧ (1 < tm.rick → Runs (.bankRequest core slot why) s fun t => ∀ c sl x, (c, sl) ∈ s.rickTeams tm → s.team c sl = some x → x.banking = none →
      ∃ x1 b, t.team c sl = some x1 ∧ x1.groups = x.groups ∧ x1.banking = some b ∧ b.why = why ∧ b.since = s.cycle)
    ∧ (∀ b, tm.banking = some b → tm.rick ≤ 1 → Runs (.bankRequest core slot .watchdog) s fun t => ∃ tm1, t.team core slot = some tm1 ∧ tm1.groups = tm.groups
      ∧ tm1.banking = some { b with why := .watchdog })
    ∧ (∀ b, tm.banking = some b → b.failed = false → b.collected = none → b.saving = none → b.since + 1024 * b.grace ≤ s.cycle →
      s.bankInTime core slot tm b = false →
      (b.why ≠ .watchdog → tm.rick ≤ 1 → Runs (.bankTimeout core slot) s fun t => ∃ tm1, t.team core slot = some tm1 ∧ tm1.banking = none ∧ tm1.groups = tm.groups)
      ∧ (∀ g, b.why = .watchdog → s.grid tm.grid = some g → Runs (.bankTimeout core slot) s fun t => t.mem = s.mem
        ∧ (∃ tm1, t.team core slot = some tm1 ∧ tm1.banking = some { b with failed := true }) ∧ (t.queue (queueKey g.die g.queue)).outcome = 0x59))
    ∧ (∀ b, tm.banking = some b → b.failed = false →
      (b.why ≠ .watchdog → Runs (.saveTimeout core slot) s fun t => ∃ tm1, t.team core slot = some tm1 ∧ tm1.killed = true ∧ tm1.banking = none
        ∧ ∀ kg ∈ tm1.groups, kg.2.splits = [] ∧ kg.2.exited = BitVec.allOnes 64)
      ∧ (∀ g, b.why = .watchdog → s.grid tm.grid = some g → Runs (.saveTimeout core slot) s fun t => t.mem = s.mem
        ∧ (∃ tm1, t.team core slot = some tm1 ∧ tm1.banking = some { b with failed := true }) ∧ (t.queue (queueKey g.die g.queue)).outcome = 0x5A))
    ∧ (∀ b, tm.banking = some b → b.failed = false → b.collected = none → s.banked core slot tm b = true →
      (∀ c0, b.saving = some c0 → c0 + 2 ^ 20 ≤ s.cycle → Runs (.bankCollect core slot) s fun t => ⟨.saveTimeout core slot, Request.zero⟩ ∈ t.agenda)
      ∧ (∀ ln, b.saving = none → s.collectHeld core slot tm b = some ln → Runs (.bankCollect core slot) s fun t => t.mem = s.mem
        ∧ t.team core slot = some { tm with banking := some { b with saving := some s.cycle } }))
    ∧ (∀ b, tm.banking = some b → b.failed = false → b.collected = none → s.banked core slot tm b = true → s.collectHeld core slot tm b = none →
      (∀ c0, b.saving = some c0 → s.cycle < c0 + 2 ^ 20) →
      (∀ kg ∈ tm.groups, kg.2.hasExited = true ∨ kg.2.mayRewind b.grIssue = false) →
      let t1 := tm.saved tm.groups []
      let es := ((s.core core).entriesOf slot).map Entry.saved
      let n := (s.core core).mqueue.countP (fun op => op.g.slot == slot) + (s.core core).mwaiting.countP (fun op => op.g.slot == slot)
      (∀ s2, s.saveImage core t1 es n = (s2, (none : Option (List (Nat × Nat)))) → Runs (.bankCollect core slot) s fun t => t.mem = s2.mem
        ∧ ⟨.saveTimeout core slot, Request.zero⟩ ∈ t.agenda)
      ∧ (∀ s2 ps, s.saveImage core t1 es n = (s2, some ps) → (s2.core core).forwards.length < 64 → s2.team core slot = some tm →
        Runs (.bankCollect core slot) s fun t => t.mem = s2.mem ∧ t.team core slot = none ∧ t.incn core slot = (s2.incn core slot + 1) % 4096
          ∧ (∃ i f, NMap.find (t.core core).forwards i = some f ∧ f.image = true ∧ f.oslot = slot ∧ f.oincn = tm.incn ∧ f.imageId = s2.freshId)
          ∧ ∃ im, NMap.find t.images s2.freshId = some im ∧ im.state = 1 ∧ im.pieces = ps ∧ (∀ p r, ps = p :: r → im.area = p.1) ∧ im.oldCore = core ∧ im.oldSlot = slot ∧ im.team = t1)))
  ∧ (∀ (id core slot : Nat) (s : State) im, NMap.find s.images id = some im → s.rekindleSpot im = some (core, slot) → im.team.rick ≤ 1 →
    im.entries = [] → im.mats = [] → im.mwaits = [] → im.writes = [] → (s.tenant im.team.tenant).sweep = none → Runs (.rekindle id) s fun t => t.mem = s.mem ∧ NMap.find t.images id = none
      ∧ (∃ tm, t.team core slot = some tm ∧ tm.tenant = im.team.tenant ∧ tm.grid = im.team.grid ∧ tm.index = im.team.index ∧ tm.incn = s.incn core slot
          ∧ tm.scratch = im.team.scratch ∧ tm.tiles = im.team.tiles ∧ tm.cords = im.team.cords)
      ∧ (∀ gi g, NMap.find im.team.groups gi = some g → ∃ h, t.group ⟨core, slot, gi⟩ = some h ∧ h.vregs = g.vregs ∧ h.sregs = g.sregs ∧ h.xregs = g.xregs
          ∧ h.sp = g.sp ∧ h.mode = g.mode ∧ h.splits.map (fun kp => (kp.1, kp.2.lanes, kp.2.place)) = g.splits.map fun kp => (kp.1, kp.2.lanes, kp.2.place))
      ∧ ∀ k i f, NMap.find (s.core k).forwards i = some f → f.image = true → f.imageId = id →
        NMap.find (t.core k).forwards i = some { f with image := false, ncore := core, nslot := slot, nincn := s.incn core slot })
  ∧ (∀ (die q tn : Nat) (s : State), s.queueTenant die q = some tn →
    let k := queueKey die q
    let x := s.queue k
    (x.escalation = 0 → x.limit ≠ 0 → x.limit * 2 ^ 16 ≤ x.elapsed → Runs (.watchdogExpiry die q) s fun t => (t.queue k).escalation = 1
      ∧ (t.queue k).outcome = 0x58 ∧ ∀ c sl tm, s.team c sl = some tm → s.gridQueue tm.grid = some k → ∃ tm1 b, t.team c sl = some tm1
        ∧ tm1.banking = some b ∧ b.why = .watchdog)
    ∧ (x.escalation = 1 → x.outcome = 0x58 → (∀ y ∈ s.queueTeams k, y.2.2.bankOver = true) → (∀ y ∈ s.openGrids k, y.2.readySince = none) →
      Runs (.watchdogExpiry die q) s fun t => t.mem = s.mem ∧ (t.queue k).st = .error ∧ (t.queue k).kind = 5 ∧ (t.queue k).code = 0x58
        ∧ (t.queue k).escalation = 4)
    ∧ (x.escalation = 2 → s.leaseBanked tn = true → Runs (.watchdogExpiry die q) s fun t => (t.queue k).escalation = 3 ∧ (t.queue k).resetSince = s.cycle)
    ∧ (x.escalation = 3 → s.leaseDrained tn = true → Runs (.watchdogExpiry die q) s fun t => ∀ c ∈ (s.tenant tn).lease, (t.core c).teams = []
      ∧ (t.core c).hearth = [] ∧ (t.core c).l1 = []))
  ∧ (∀ (core idx : Nat) (s : State) e, s.entry core idx = some e → s.forcing core = true → s.MemoryWf →
    let base := Config.dieSpan * (core / 144) + Config.ashBase
    LogFree s base →
    let n := s.natAt base 8
    n < 5461 → Runs (.forcedEntryLog core idx) s fun t => t.entry core idx = none ∧ t.natAt base 8 = n + 1
      ∧ t.natAt (base + 64 + 192 * n) 192 = (e.form s.cycle).toNat % 2 ^ 1344 + e.tenant % 64 * 2 ^ 1344)
  ∧ (∀ (tenant core : Nat) (s : State) w, (s.tenant tenant).sweep = some w → core ∈ w.coresLeft → s.sweepStarted w = true → s.inClause tenant core = false →
    (w.looked = false → s.bitmapHeld tenant w = none → Runs (.sweepCorePhase tenant core) s fun t =>
      (t.tenant tenant).sweep = some { w with looked := true } ∧ t.cores = s.cores)
    ∧ (w.looked = true → Runs (.sweepCorePhase tenant core) s fun t => t.mem = s.mem
      ∧ (t.tenant tenant).sweep = some { w with coresLeft := w.coresLeft.filter (· ≠ core) } ∧ (t.core core).l1 = []
      ∧ ∀ sl tm gi g, s.team core sl = some tm → NMap.find tm.groups gi = some g →
        (tm.tenant ≠ tenant → t.group ⟨core, sl, gi⟩ = some g)
        ∧ (tm.tenant = tenant → ∃ h, t.group ⟨core, sl, gi⟩ = some h ∧ h.vregs = g.vregs ∧ h.sregs = g.sregs
          ∧ ∀ r, r ∈ h.sTags ↔ r ∈ g.sTags ∧ s.revokedBase tenant w (capDecode (g.sc (2 * r))).1 = false)))
  ∧ (∀ (tenant : Nat) (s : State) w, (s.tenant tenant).sweep = some w → w.coresLeft = [] → w.memoryDone = false → s.memTags.Pairwise (· < ·) →
    Runs (.sweepMemoryPhase tenant) s fun t => t.mem = s.mem ∧ (t.tenant tenant).sweep = some { w with memoryDone := true }
      ∧ ∀ gr, gr ∈ t.memTags ↔ gr ∈ s.memTags ∧ ¬(s.ownsGranule tenant gr = true
        ∧ s.revokedBase tenant w (capDecode ⟨BitVec.ofNat 128 (s.natAt (gr * 16) 16), true⟩).1 = true))
  ∧ (∀ (tenant pa : Nat) (s : State) w, (s.tenant tenant).sweep = some w → w.coresLeft = [] → w.memoryDone = true →
    s.peekVa tenant w.bitmap.addr.toNat = some pa → pa % 8 = 0 → s.epochHeld tenant w = none → WritesNow s (pa / 128) → s.MemoryWf → (∀ a, dirtyByteAt s pa = some a → a < pa ∨ pa + 8 ≤ a) →
    Runs (.sweepComplete tenant) s fun t => (t.tenant tenant).sweep = none ∧ t.natAt pa 8 = (s.visNat pa 8 + 1) % 2 ^ 64)
end

/-! ### Steps of the copy engine, of the matrix unit, of the fabric and of the memory controllers (R305 to R317, R328 to R344, R359 to R368, R416) -/
namespace Sys2Proof.Claims
open Sys2Proof.Machine

/-- A published entry that an engine may look at: the team has fewer than 8 commands, no residue and no bank (R309). -/
def EntryDue (s : State) (core slot : Nat) (tm : Team) (r : Ring) : Prop :=
  s.team core slot = some tm ∧ tm.ring = some r ∧ tm.residues = [] ∧ tm.cmds.length < 8 ∧ tm.banking = none ∧ r.consumed ≠ r.published

/-- The next entry of a ring (R304, R309). -/
def nextEntry (tm : Team) (r : Ring) : BitVec 256 :=
  BitVec.ofNat 256 (shareNat (shareByte tm) (r.hdr + 32 + 32 * (r.consumed.toNat % 2 ^ r.logSize)) 32)

/-- An entry that a copy instruction or software builds for a plain run of bytes (R306): TYPE 0 and no CSEL, KT, ESZ or index list. -/
def PlainEntry (e : BitVec 256) : Prop :=
  e.extractLsb' 253 3 = (0 : BitVec 3) ∧ e.extractLsb' 251 2 ≠ (3 : BitVec 2) ∧ e.extractLsb' 249 2 ≠ (3 : BitVec 2) ∧ e.extractLsb' 224 25 = (0 : BitVec 25)
    ∧ e.extractLsb' 160 32 = (0 : BitVec 32)

/-- A handle names a slot that a command may fill (R309, R312): its cord is no channel, the slot ACQ or ARMED. -/
def FillsSlot (tm : Team) (e : BitVec 256) (n i : Nat) (k : Cord) : Prop :=
  tm.slotOf ((e.extractLsb' 192 32).setWidth 64) = some (n, i) ∧ NMap.find tm.cords n = some k ∧ k.ch = false ∧ ((k.slot i).st = .acq ∨ (k.slot i).st = .armed)

/-- The matrix unit's operation in progress, and what waits behind it. -/
def AtHead (s : State) (core : Nat) (op : MatOp) (r : List MatOp) (tm : Team) : Prop :=
  (s.core core).mqueue = op :: r ∧ s.team core op.g.slot = some tm

/-- The element of a tile. -/
def Tile.at_ (x : Tile) (k : Nat) : Nat := NMap.getD x.elems k 0

/-- A tile after the operation in progress has ended: PEND falls by one, and the unit's queue is what waited behind it (R329). -/
def OpEnds (t : State) (core : Nat) (op : MatOp) (r : List MatOp) (x : Tile) (tile : Tile → Prop) : Prop :=
  (t.core core).mqueue = r ∧ ∃ u, t.team core op.g.slot = some u ∧ tile (u.tile op.tile) ∧ (u.tile op.tile).pend = x.pend - 1

/-- The K positions of a step and of a unit, and the bytes of an element, of two operands of one format that is not an MX format (R332). -/
def stepShape (accF : Bool) (fmt : Nat) : Option (Nat × Nat × Nat) :=
  if accF then (if fmt = 9 then some (8, 1, 8) else none)
  else if fmt = 6 ∨ fmt = 7 then some (16, 8, 2) else if fmt = 8 then some (4, 4, 4) else none

/-- An operand in the share, as a stream of elements: the rows of a step lie in it (R330, R331). -/
def InShare (tm : Team) (m : OpMap) (fmt dim last : Nat) : Prop :=
  m.glob = none ∧ m.layout = 0 ∧ m.fmt = fmt ∧ m.off.toNat + (dim - 1) * m.rs + last ≤ tm.shareBytes

/-- ValA or ValB of an operand in the share (R334). -/
def operandVal (tm : Team) (m : OpMap) (w r k : Nat) : Machine.Num := decodeNum (matFmt m.fmt) (shareNat (shareByte tm) (m.off.toNat + r * m.rs + k * w) w)

/-- One element of a step without scales (R334): each unit's exact sum of products, added to the element and rounded once. -/
def stepElem (f : Fmt) (ks unit : Nat) (a b : Nat → Machine.Num) (old : Nat) : Nat :=
  (List.range (ks / unit)).foldl (fun acc u =>
    let first := (a (u * unit)).mul (b (u * unit))
    let p := (List.range (unit - 1)).foldl (fun p k => p.add ((a (u * unit + k + 1)).mul (b (u * unit + k + 1)))) first
    (roundTo f 0 ((decodeNum f acc).add p) 0 false).bits) old

/-- An MDRAIN has no row left to write to global memory (R337). -/
def RowsDone (tm : Team) (op : MatOp) (m : OpMap) : Prop := m.glob ≠ none → (if tm.accF then 64 else 128) ≤ op.row

/-- A packet's response is on its way to its sender (R368, R438): it has arrived where the packet has used no link and its sender is this device's; else
it is a packet of its own, an acknowledgement or a refusal, that goes back by the ports that the packet has entered by. -/
def Responds (s t : State) (p : Packet) (reason hop : Nat) : Prop :=
  (p.back = [] → p.srcDevice = s.pkg.selfDevice → ⟨.responseArrival p.src p.seq reason hop, Request.zero⟩ ∈ t.agenda)
    ∧ (p.back ≠ [] ∨ p.srcDevice ≠ s.pkg.selfDevice → ⟨.packetHop s.freshId, Request.zero⟩ ∈ t.agenda ∧ ∃ a, NMap.find t.packets s.freshId = some a
      ∧ a.typ = (if reason = 0 then 2 else 3) ∧ a.reason = reason ∧ a.rhop = hop ∧ a.back = p.back ∧ a.node = p.node ∧ a.src = p.src ∧ a.seq = p.seq
      ∧ a.srcDevice = p.srcDevice)

/-- A packet is refused: it is gone, and its sender hears why (R366, R368). -/
def Refused (s : State) (id : Nat) (p : Packet) (reason hop : Nat) (t : State) : Prop :=
  t.mem = s.mem ∧ t.cores = s.cores ∧ (id ≠ s.freshId → NMap.find t.packets id = none) ∧ Responds s t p reason hop

/-- The team that a packet names is on its core, with the incarnation that the name gives (R359). -/
def AtTarget (s : State) (p : Packet) (tm : Team) : Prop :=
  p.dinc = s.pkg.dinc ∧ s.team (144 * nameDie p.name + nameCore p.name) (nameSlot p.name) = some tm ∧ tm.incn % 4096 = nameIncn p.name

/-- The cause of a refusal's reason at its sender (R367). -/
def refusalCause (r : Nat) : Cause :=
  match r with
  | 4 => .firewall
  | 9 => .staleTarget
  | 10 => .staleTarget
  | 11 => .overwrite
  | 12 => .capBounds
  | _ => .routeCause

/-- A sender's item completes; a refusal is kept for the group's next clause boundary (R368). -/
def SendEnds (s : State) (i : GroupId) (g : Group) (x : SendItem) (reason hop : Nat) (t : State) : Prop :=
  OnlyGroup i s t ∧ ∃ h, t.group i = some h ∧ h.ctrs = (g.ctrDone 5 x.seq).ctrs ∧ h.sends = g.sends.filter (fun y => y.seq != x.seq) ∧ h.vregs = g.vregs
    ∧ h.sregs = g.sregs ∧ h.bevents = if reason = 0 then g.bevents
      else g.bevents ++ [⟨refusalCause reason, rfailValue reason hop x.word, reason, hop, x.word, 0, none⟩]

/-- The sending device's firewall for its own tenant: its RFW bits on the dies of its partition (R366, R411). -/
def FirewallOpen (s : State) (p : Packet) (bit : Nat) : Prop :=
  bit < 64 ∧ (p.srcDevice = s.pkg.selfDevice →
    (s.die (bit / 16)).part = (s.tenant p.tenant).part ∧ (s.tenant p.tenant).rfw.testBit bit = true)

/-- A port lets a packet through (R366). -/
def PortOpen (s : State) (p : Packet) (node port : Nat) : Prop :=
  portUp (s.portWord node port) = true ∧ ¬(portFwc (s.portWord node port) = true ∧ portDom (s.portWord node port) ≠ p.fdom)
    ∧ (node < 4096 → node / 4 = p.srcDevice → FirewallOpen s p (16 * (node % 4) + port))

/-- No other request waits at a port (R374). -/
def AloneAt (s : State) (id node port : Nat) : Prop :=
  ∀ x ∈ s.packets, x.1 ≠ id → x.2.typ < 2 → x.2.hop < routeHops x.2.route → x.2.node = node → x.2.route.toNat / 2 ^ (8 * x.2.hop) % 256 / 4 ≠ port

/-- A tag is not above another, as fractions (R416). -/
def TagLe (a b : Nat × Nat) : Prop := a.1 * b.2 ≤ b.1 * a.2

/-- A request that is the oldest of its tenant. -/
def IsHead (c : MemCtrl) (q : MemRequest) : Prop := c.queue.find? (fun x => x.tenant == q.tenant) = some q

end Sys2Proof.Claims

section
open Sys2Proof Sys2Proof.Machine Sys2Proof.Claims

/-- R305, R309, R310, R328, R329, R334, R342, R344, R350, R351: what the copy engine and the matrix unit do at each of their steps, with operands
and destinations in the share: publication, acceptance and refusal, a chunk of bytes; an operation's acceptance, MZERO, MLOAD, one K-step, MDRAIN and amax.
The model's readings in it: that a chunk whose ranges overlap is read whole before it is written (notes/assumptions 59, DEDUCED), and that the event of a
refused entry goes to the group that published it (56, DEDUCED). -/
def Obligations.EnginesDoTheirSteps : Prop :=
  (∀ (g : GroupId) (core slot : Nat) (v : BitVec 32) (s : State) tm r h, s.team core slot = some tm → tm.ring = some r → s.group g = some h →
    ((v - r.consumed).toNat ≤ 2 ^ r.logSize → Runs (.ringNotify g core slot v) s fun t => t.mem = s.mem ∧ ∃ tm1 r1, t.team core slot = some tm1
      ∧ tm1.ring = some r1 ∧ r1.published = v ∧ r1.consumed = r.consumed ∧ tm1.groups = tm.groups
      ∧ shareNat (shareByte tm1) r.hdr 4 = v.toNat ∧ ∀ a, a < r.hdr ∨ r.hdr + 4 ≤ a → shareByte tm1 a = shareByte tm a)
    ∧ (2 ^ r.logSize < (v - r.consumed).toNat → Runs (.ringNotify g core slot v) s fun t => t.mem = s.mem ∧ (∃ tm1, t.team core slot = some tm1
        ∧ tm1.ring = some r ∧ shareNat (shareByte tm1) (r.hdr + 8) 4 = v.toNat ∧ shareByte tm1 (r.hdr + 12) = 0x45
        ∧ shareNat (shareByte tm1) r.hdr 4 = r.published.toNat
        ∧ ∀ a, a < r.hdr ∨ (r.hdr + 4 ≤ a ∧ a < r.hdr + 8) ∨ r.hdr + 13 ≤ a → shareByte tm1 a = shareByte tm a)
      ∧ ∃ h1, t.group g = some h1 ∧ (h.bevents.length < 8 → h1.bevents = h.bevents ++ [⟨.ringFormat, 0, 0, 0, 0, 0, none⟩])))
  ∧ (∀ (core slot : Nat) (s : State) tm r n i k, EntryDue s core slot tm r → PlainEntry (nextEntry tm r) → FillsSlot tm (nextEntry tm r) n i k →
    let pos := r.consumed.toNat % 2 ^ r.logSize
    let len := (nextEntry tm r).extractLsb' 128 32
    (∀ src dst, len ≠ 0 → NMap.find r.shadows pos = some (src, dst) → (s.tenant tm.tenant).sweep = none → Runs (.entryAccept core slot) s fun t =>
      t.mem = s.mem ∧ (∃ tm1 r1 x, t.team core slot = some tm1 ∧ tm1.ring = some r1 ∧ r1.consumed = r.consumed + 1 ∧ r1.published = r.published
        ∧ shareNat (shareByte tm1) (r.hdr + 4) 4 = (r.consumed + 1).toNat ∧ tm1.cmds = tm.cmds ++ [x] ∧ x.entry = nextEntry tm r ∧ x.src = src
        ∧ x.dst = dst ∧ x.done = 0 ∧ x.lines = []
        ∧ slotAt tm1 n i = some { k.slot i with infl := (k.slot i).infl + (if NMap.find r.items pos = none then 1 else 0) })
      ∧ ∀ g id h, NMap.find r.items pos = some (g, id) → s.group g = some h → ∃ h1, t.group g = some h1 ∧ h1.ctrs = (h.ctrDone 4 id).ctrs)
    ∧ (∀ g h, len = 0 ∨ NMap.find r.shadows pos = none → NMap.find r.items pos = none → NMap.find r.publisher pos = some g → s.group g = some h →
      h.bevents.length < 8 → Runs (.entryAccept core slot) s fun t => t.mem = s.mem ∧ (∃ tm1 r1, t.team core slot = some tm1 ∧ tm1.ring = some r1
        ∧ r1.consumed = r.consumed + 1 ∧ tm1.cmds = tm.cmds ∧ shareNat (shareByte tm1) (r.hdr + 8) 4 = r.consumed.toNat
        ∧ shareByte tm1 (r.hdr + 12) = 0x45 ∧ slotAt tm1 n i = some { k.slot i with st := .fault, fcause := 0x45 })
      ∧ ∃ h1, t.group g = some h1 ∧ h1.bevents = h.bevents ++ [⟨.ringFormat, 0, 0, 0, 0, 0, none⟩]))
  ∧ (∀ (core slot : Nat) (s : State) tm x n i k, s.team core slot = some tm → tm.banking = none → tm.cmds.find? (fun y => y.id == x.id) = some x →
    PlainEntry x.entry → x.entry.extractLsb' 251 2 = (1 : BitVec 2) → x.entry.extractLsb' 249 2 = (1 : BitVec 2) →
    FillsSlot tm x.entry n i k → (k.slot i).st = .armed →
    let len := (x.entry.extractLsb' 128 32).toNat
    let src := (x.entry.extractLsb' 0 64).toNat + x.done
    let dst := (x.entry.extractLsb' 64 64).toNat + x.done
    let m := min 4096 (len - x.done)
    x.done < len → src + m ≤ tm.shareBytes → dst + m ≤ tm.shareBytes →
    Runs (.copyChunk core slot x.id) s fun t => t.mem = s.mem ∧ ∃ tm1, t.team core slot = some tm1
      ∧ (∀ a, shareByte tm1 a = if dst ≤ a ∧ a < dst + m then shareByte tm (src + (a - dst)) else shareByte tm a)
      ∧ (x.done + m < len → tm1.cmds.find? (fun y => y.id == x.id) = some { x with done := x.done + m, lines := [] }
        ∧ slotAt tm1 n i = some { k.slot i with pb := (k.slot i).pb - m, st := settled ((k.slot i).pb - m) (k.slot i).pa })
      ∧ (x.done + m = len → m ≤ (k.slot i).pb → 1 ≤ (k.slot i).pa → tm1.cmds.find? (fun y => y.id == x.id) = none
        ∧ slotAt tm1 n i = some { k.slot i with pb := (k.slot i).pb - m, pa := (k.slot i).pa - 1, infl := (k.slot i).infl - 1
                                                st := settled ((k.slot i).pb - m) ((k.slot i).pa - 1) }))
  ∧ (∀ (core : Nat) (s : State) op r tm, (s.core core).mwaiting = op :: r → (s.core core).mqueue.length < 16 → s.team core op.g.slot = some tm →
    Runs (.matrixAccept core) s fun t => t.mem = s.mem ∧ (t.core core).mwaiting = r
      ∧ (∃ lines, (t.core core).mqueue = (s.core core).mqueue ++ [{ op with lines := lines }] ∧ (∀ ln ∈ lines, ⟨.grantReq ln core false true, Request.zero⟩ ∈ t.agenda)
        ∧ ((∀ m mode reg seed amax sys, op.kind = .drain m mode reg seed amax sys → m.glob = none) → lines = []))
      ∧ (∃ u, t.team core op.g.slot = some u ∧ u.tile op.tile = { tm.tile op.tile with pend := (tm.tile op.tile).pend + 1, fault := false, fcause := 0, faddr := 0 })
      ∧ ∀ a b count res h, op.kind = .loop a b count res → s.group op.g = some h → ∃ h1, t.group op.g = some h1 ∧ h1.sp = { h.sp with mprogTile := some op.tile })
  ∧ (∀ (core : Nat) (s : State) op r tm, AtHead s core op r tm → op.kind = .zero → Runs (.matrixZeroPerform core) s fun t => t.mem = s.mem
    ∧ OpEnds t core op r (tm.tile op.tile) fun y => (∀ k, Tile.at_ y k = 0) ∧ y.total = 0 ∧ y.step = 0)
  ∧ (∀ (core : Nat) (s : State) op r tm off rs, AtHead s core op r tm → op.kind = .load none off rs →
    let dim := if tm.accF then 64 else 128
    let w := if tm.accF then 8 else 4
    off.toNat + (dim - 1) * rs + dim * w ≤ tm.shareBytes → Runs (.matrixLoadPerform core) s fun t => t.mem = s.mem
      ∧ OpEnds t core op r (tm.tile op.tile) fun y => y.total = 0 ∧ y.step = 0
        ∧ ∀ i < dim, ∀ j < dim, Tile.at_ y (i * dim + j) = shareNat (shareByte tm) (off.toNat + i * rs + w * j) w)
  ∧ (∀ (core : Nat) (s : State) op r tm a b count res, AtHead s core op r tm → op.kind = .loop a b count res →
    let x := tm.tile op.tile
    let dim := if tm.accF then 64 else 128
    (op.begun = false → Runs (.matrixStep core) s fun t => t.mem = s.mem ∧ (t.core core).mqueue = { op with begun := true } :: r
      ∧ ∃ u, t.team core op.g.slot = some u ∧ u.tile op.tile = { x with total := count, step := if res then x.step else 0 })
    ∧ (op.begun = true → count ≤ x.step → Runs (.matrixStep core) s fun t => t.mem = s.mem ∧ OpEnds t core op r x fun y => y.elems = x.elems
      ∧ y.step = x.step ∧ y.total = x.total)
    ∧ (∀ fmt ks unit w, op.begun = true → x.step < count → stepShape tm.accF fmt = some (ks, unit, w) → InShare tm a fmt dim ((x.step + 1) * ks * w) →
      InShare tm b fmt dim ((x.step + 1) * ks * w) →
      let f : Fmt := if tm.accF then .f64 else .f32
      let next := fun y : Tile => y.step = x.step + 1 ∧ y.total = x.total ∧ ∀ i < dim, ∀ j < dim, Tile.at_ y (i * dim + j)
        = stepElem f ks unit (fun k => operandVal tm a w i (x.step * ks + k)) (fun k => operandVal tm b w j (x.step * ks + k)) (Tile.at_ x (i * dim + j))
      (x.step + 1 < count → Runs (.matrixStep core) s fun t => t.mem = s.mem ∧ (t.core core).mqueue = op :: r
        ∧ ∃ u, t.team core op.g.slot = some u ∧ next (u.tile op.tile) ∧ (u.tile op.tile).pend = x.pend)
      ∧ (x.step + 1 = count → Runs (.matrixStep core) s fun t => t.mem = s.mem ∧ OpEnds t core op r x next)))
  ∧ (∀ (core : Nat) (s : State) op r tm m mode reg seed amax sys, AtHead s core op r tm → op.kind = .drain m mode reg seed amax sys →
    (op.begun = false → tm.accF = false → InShare tm m 8 128 512 → 512 ≤ m.rs → (∀ k, Tile.at_ (tm.tile op.tile) k < 2 ^ 32) →
      Runs (.matrixDrainPerform core) s fun t => t.mem = s.mem ∧ (t.core core).mqueue = { op with begun := true, fail := none } :: r
        ∧ ∃ u, t.team core op.g.slot = some u ∧ u.tiles = tm.tiles
          ∧ (∀ i < 128, ∀ j < 128, shareNat (shareByte u) (m.off.toNat + i * m.rs + 4 * j) 4 = Tile.at_ (tm.tile op.tile) (i * 128 + j))
          ∧ ∀ a, (∀ i < 128, a < m.off.toNat + i * m.rs ∨ m.off.toNat + i * m.rs + 512 ≤ a) → shareByte u a = shareByte tm a)
    ∧ (op.begun = true → RowsDone tm op m → op.fail = none → amax = none →
      Runs (.matrixDrainPerform core) s fun t => t.mem = s.mem ∧ OpEnds t core op r (tm.tile op.tile) fun y => y.elems = (tm.tile op.tile).elems)
    ∧ (∀ k pa, op.begun = true → RowsDone tm op m → op.fail = none → amax = some k → op.amaxPa = some pa →
      let n := if tm.accF then 8 else 4
      pa % n = 0 → s.frozen (pa / 128) = false → (s.dirAt (pa / 128)).queue = [.amax core] → (s.dirAt (pa / 128)).parked = [] →
      (s.dirAt (pa / 128)).sites = 0 → (s.dirAt (pa / 128)).st = .inv → s.lineFault (pa / 128) = none → s.MemoryWf →
      s.markBusy (pa / 128) (.amaxAtomic core) = none → (∀ q, dirtyByteAt s pa = some q → q < pa ∨ pa + n ≤ q) → Runs (.amaxAtomic core) s fun t =>
        t.natAt pa n = atomNew 9 n false (s.natAt pa n) (tileAmax (if tm.accF then .f64 else .f32) (if tm.accF then 64 else 128) (tm.tile op.tile)) 0
          ∧ (∀ q, q < pa ∨ pa + n ≤ q → dirtyByteAt s pa ≠ some q → t.byteAt q = s.byteAt q)
          ∧ OpEnds t core op r (tm.tile op.tile) fun y => y.elems = (tm.tile op.tile).elems))

/-- R317, R359, R366 to R368, R411, R416, R422, R438: a packet takes one hop, or is refused where it stands; at its target it writes registers or a channel's
slot; its response takes its hops back, and its sender hears of it or gives up; a memory controller tags requests and serves the least tag. The model's own in
it: the reason of a refused KSEND, which the manual does not give (notes/assumptions 4, DESIGN CHOICE), hop 15 of a send that timed out (68, DEDUCED),
which requests carry no tenant and when they are served (54, DESIGN CHOICE), and the reversed route of a response (146, DEDUCED). -/
def Obligations.PacketsTravelAndControllersServe : Prop :=
  (∀ (id : Nat) (s : State) p, NMap.find s.packets id = some p →
    let hopByte := p.route.toNat / 2 ^ (8 * p.hop) % 256
    let port := hopByte / 4
    let raise := hopByte / 2 % 2
    let o := s.portWord p.node port
    (4 ≤ p.typ → Runs (.packetHop id) s fun t => t.mem = s.mem ∧ t.cores = s.cores ∧ NMap.find t.packets id = none ∧ t.agenda = s.agenda)
    ∧ (2 ≤ p.typ → p.typ < 4 →
      (p.back = [] → p.node = 4 * s.pkg.selfDevice + dieOf p.src.core → p.srcDevice = s.pkg.selfDevice → Runs (.packetHop id) s fun t =>
        t.mem = s.mem ∧ NMap.find t.packets id = none ∧ ⟨.responseArrival p.src p.seq p.reason p.rhop, Request.zero⟩ ∈ t.agenda)
      ∧ (∀ n k r, p.back = (n, k) :: r →
        let o := s.portWord n k
        (portPresent o = true → portUp o = true → Runs (.packetHop id) s fun t => t.mem = s.mem ∧ t.cores = s.cores
          ∧ NMap.find t.packets id = some { p with hop := p.hop + 1, node := portPeerNode o, back := r } ∧ ⟨.packetHop id, Request.zero⟩ ∈ t.agenda)
        ∧ (portUp o = false → Runs (.packetHop id) s fun t => t.mem = s.mem ∧ NMap.find t.packets id = none)))
    ∧ (p.typ < 2 → p.hop < routeHops p.route → AloneAt s id p.node port →
      (portPresent o = false → Runs (.packetHop id) s (Refused s id p 2 p.hop))
      ∧ (portPresent o = true → portUp o = false → Runs (.packetHop id) s (Refused s id p 3 p.hop))
      ∧ (portPresent o = true → PortOpen s p p.node port → 3 < p.cls + raise → Runs (.packetHop id) s (Refused s id p 5 p.hop))
      ∧ (portPresent o = true → PortOpen s p p.node port → p.cls + raise ≤ 3 → (portDateline o = true → raise = 1) →
        PortOpen s p (portPeerNode o) (portPeerPort o) → Runs (.packetHop id) s fun t => t.mem = s.mem ∧ t.cores = s.cores
          ∧ NMap.find t.packets id = some
            { p with hop := p.hop + 1, node := portPeerNode o, cls := p.cls + raise, back := (portPeerNode o, portPeerPort o) :: p.back }
          ∧ ⟨.packetHop id, Request.zero⟩ ∈ t.agenda))
    ∧ (p.typ < 2 → routeHops p.route ≤ p.hop →
      (p.node ≠ 4 * routeDevice p.route + routeDie p.route → Runs (.packetHop id) s (Refused s id p 7 15))
      ∧ (p.node = 4 * routeDevice p.route + routeDie p.route → 144 ≤ routeEndpoint p.route ∨ routeMeets p.route p.name = false →
        Runs (.packetHop id) s (Refused s id p 8 15))
      ∧ (p.node = 4 * routeDevice p.route + routeDie p.route → routeEndpoint p.route < 144 → routeMeets p.route p.name = true →
        routeDevice p.route = s.pkg.selfDevice → Runs (.packetHop id) s fun t => t.mem = s.mem ∧ t.packets = s.packets
          ∧ ⟨if p.ksend then .ksendArrival id else .sendDeliver id, Request.zero⟩ ∈ t.agenda)))
  ∧ (∀ (id : Nat) (s : State) p, NMap.find s.packets id = some p →
    (p.dinc ≠ s.pkg.dinc → Runs (.sendDeliver id) s (Refused s id p 10 15) ∧ Runs (.ksendArrival id) s (Refused s id p 10 15))
    ∧ (∀ tm g, AtTarget s p tm → (s.core (144 * nameDie p.name + nameCore p.name)).world = p.world → NMap.find tm.groups (nameGroup p.name) = some g →
      nameGroup p.name < tm.ngroups → (∀ l < 64, p.lanes.getLsbD l = true → l < tm.width) →
      let b := nameRegbase p.name + p.ofs
      let i : GroupId := ⟨144 * nameDie p.name + nameCore p.name, nameSlot p.name, nameGroup p.name⟩
      b + p.n ≤ tm.regs →
      (∀ j, j < p.n → g.fullForSend (b + j) = true → Runs (.sendDeliver id) s (Refused s id p 11 15))
      ∧ ((∀ j < p.n, g.fullForSend (b + j) = false) → (p.values.map fun x => (x.1, x.2.1)).Nodup → (∀ x ∈ p.values, x.1 < p.n ∧ p.lanes.getLsbD x.2.1 = true) →
        p.hasTags = false → Runs (.sendDeliver id) s fun t => t.mem = s.mem ∧ (id ≠ s.freshId → NMap.find t.packets id = none) ∧ Responds s t p 0 0
          ∧ (∀ j, j ≠ i → t.group j = s.group j) ∧ ∃ h, t.group i = some h
          ∧ (∀ x ∈ p.values, h.lane (b + x.1) x.2.1 = x.2.2) ∧ (∀ j < p.n, (h.v (b + j)).full = true ∧ (h.v (b + j)).tag = p.ftag)
          ∧ (∀ r l, p.lanes.getLsbD l = false → h.lane r l = g.lane r l) ∧ (∀ r, r < b ∨ b + p.n ≤ r → h.v r = g.v r) ∧ h.sregs = g.sregs
          ∧ h.ctrs = g.ctrs ∧ h.sp = g.sp ∧ h.splits = g.splits))
    ∧ (∀ tm, AtTarget s p tm → (s.core (144 * nameDie p.name + nameCore p.name)).world ≠ p.world →
      Runs (.sendDeliver id) s (Refused s id p 10 15) ∧ Runs (.ksendArrival id) s (Refused s id p 10 15))
    ∧ (∀ tm k, AtTarget s p tm → (s.core (144 * nameDie p.name + nameCore p.name)).world = p.world →
      NMap.find tm.cords (nameRegbase p.name - 1536) = some k →
      let n := nameRegbase p.name - 1536
      let i := nameCount p.name % 64
      let x := k.slot i
      let len := p.bytes.length
      ((k.ch = false ∨ x.st ≠ .armed ∨ x.gen.toNat % 32 ≠ nameCount p.name / 64 % 32) → ∃ reason, 15 < reason ∧ Runs (.ksendArrival id) s (Refused s id p reason 15))
      ∧ (k.ch = true → i < k.n → x.st = .armed → x.gen.toNat % 32 = nameCount p.name / 64 % 32 → x.cur + len ≤ tm.shareBytes →
        Runs (.ksendArrival id) s fun t => t.mem = s.mem ∧ (id ≠ s.freshId → NMap.find t.packets id = none) ∧ Responds s t p 0 0
          ∧ ∃ tm1, t.team (144 * nameDie p.name + nameCore p.name) (nameSlot p.name) = some tm1
            ∧ (∀ a, shareByte tm1 a = if x.cur ≤ a ∧ a < x.cur + len then p.bytes.getD (a - x.cur) 0 else shareByte tm a)
            ∧ slotAt tm1 n i = some { x with cur := x.cur + len, pb := x.pb - len, pa := x.pa - 1, st := settled (x.pb - len) (x.pa - 1) })))
  ∧ (∀ (i : GroupId) (seq : Nat) (s : State) g x, s.group i = some g → g.sends.find? (fun y => y.seq == seq) = some x →
    (∀ reason hop, reason ≤ 13 → (reason ≠ 0 → g.hasExited = false ∧ g.bevents.length < 8) → Runs (.responseArrival i seq reason hop) s (SendEnds s i g x reason hop))
    ∧ (x.since + 2 ^ 26 ≤ s.cycle → g.hasExited = false → g.bevents.length < 8 → Runs (.sendTimeout i seq) s (SendEnds s i g x 13 15)))
  ∧ (∀ (i : GroupId) (seq reason hop : Nat) (s : State), (∀ g, s.group i = some g → ∀ x ∈ g.sends, x.seq ≠ seq) →
    Runs (.responseArrival i seq reason hop) s fun t => t = s)
  ∧ (∀ (s : State),
    let c := s.ctrl s.req.index
    let f := NMap.getD c.f s.req.tenant (0, 1)
    let w := max 1 (s.tenant s.req.tenant).weight
    (s.req.flag = true → Runs .memoryRequest s fun t => t.mem = s.mem ∧ t.ctrl s.req.index = { c with untagged := c.untagged ++ [s.req.line] })
    ∧ (s.req.flag = false → Runs .memoryRequest s fun t => t.mem = s.mem ∧ ∃ q : MemRequest, (t.ctrl s.req.index).queue = c.queue ++ [q]
      ∧ q.tenant = s.req.tenant ∧ q.line = s.req.line ∧ TagLe c.v q.tag ∧ TagLe f q.tag ∧ (q.tag = c.v ∨ q.tag = f)
      ∧ NMap.find (t.ctrl s.req.index).f s.req.tenant = some (q.tag.1 * w + q.tag.2, q.tag.2 * w) ∧ (t.ctrl s.req.index).v = c.v))
  ∧ (∀ (n : Nat) (s : State),
    let c := s.ctrl n
    (∀ ln r, c.untagged = ln :: r → c.sinceUntagged ≥ 15 → Runs (.memoryServe n) s fun t => t.mem = s.mem ∧ (t.ctrl n).untagged = r
      ∧ (t.ctrl n).queue = c.queue ∧ (t.ctrl n).sinceUntagged = 0)
    ∧ (c.sinceUntagged < 15 → c.queue = [] → Runs (.memoryServe n) s fun t => t.mem = s.mem ∧ (t.ctrl n).untagged = c.untagged
      ∧ (t.ctrl n).queue = [] ∧ (t.ctrl n).sinceUntagged = c.sinceUntagged + 1)
    ∧ (∀ q, c.untagged = [] ∨ c.sinceUntagged < 15 → IsHead c q →
      (∀ x, IsHead c x → x.tenant ≠ q.tenant → TagLe q.tag x.tag ∧ (TagLe x.tag q.tag → q.tenant < x.tenant)) →
      Runs (.memoryServe n) s fun t => t.mem = s.mem ∧ (t.ctrl n).untagged = c.untagged ∧ (t.ctrl n).queue = c.queue.erase q
        ∧ (c.queue.erase q ≠ [] → (t.ctrl n).v = q.tag)))
end

/-! ### Firmware, device interfaces, registers, the host's edge and errors (R74, R244 to R250, R296 to R301, R364 to R377, R402 to R444) -/
namespace Sys2Proof.Claims
open Sys2Proof.Machine

/-- A mailbox's command has ended with a status (R436). -/
def Answered (s : State) (k status : Nat) (t : State) : Prop :=
  (t.mailbox k).done = true ∧ (t.mailbox k).busy = false ∧ (t.mailbox k).status = status ∧ (t.mailbox k).cmd = (s.mailbox k).cmd

/-- A command changed nothing but its mailbox's answer. -/
def OnlyAnswered (s : State) (k status : Nat) (t : State) : Prop :=
  Answered s k status t ∧ t.mem = s.mem ∧ t.cores = s.cores ∧ t.tenants = s.tenants ∧ t.worlds = s.worlds ∧ t.dies = s.dies ∧ t.peers = s.peers
    ∧ t.pkg.flash = s.pkg.flash ∧ t.pkg.floor = s.pkg.floor ∧ t.pkg.powercap = s.pkg.powercap ∧ t.pkg.debugUnlocked = s.pkg.debugUnlocked

/-- The health ring's newest record: its die and its event (R442). -/
def Reported (t : State) (die event : Nat) : Prop :=
  ∃ v : BitVec 256, t.pkg.healthRing.getLast? = some v ∧ (v.extractLsb' 64 8).toNat = die % 256 ∧ (v.extractLsb' 72 8).toNat = event

/-- A line's place at its home is as before but for what is said of it. -/
def SameMemory (s t : State) : Prop := t.mem = s.mem ∧ t.memTags = s.memTags ∧ t.badLines = s.badLines

/-- A step that reports to the health ring writes no other byte: memory is as before where no host memory holds the ring (R442, notes/assumptions 112). -/
def SameButHealth (s t : State) : Prop := t.badLines = s.badLines ∧ (s.pkg.healthBase = none → SameMemory s t)

/-- A flash slot that may boot (R441). -/
def Boots (s : State) (i : Nat) (f : FlashSlot) : Prop := i < 2 ∧ NMap.find s.pkg.flash i = some f ∧ f.valid = true ∧ s.pkg.floor ≤ f.version

/-- A reset took every state but the flash, the host's memory and the memory in the fabric (R3, R440): what `ports` and `pkg` hold is said beside it.
The five steps of the boot follow (R441). -/
def LikeReset (s t : State) : Prop :=
  ({ t with mem := [], ports := [], fabric := [], agenda := [], pkg := Package.reset } : State) = State.reset
    ∧ (∀ c, c ∈ t.mem ↔ c ∈ s.mem ∧ Config.hostBase ≤ c.1) ∧ t.fabric = s.fabric
    ∧ t.agenda = (List.range 5).map (fun k => (⟨.reset, { Request.zero with split := k + 1 }⟩ : Happening))
    ∧ t.pkg.flash = s.pkg.flash ∧ t.pkg.floor = s.pkg.floor ∧ t.pkg.dinc ≠ 0 ∧ t.pkg.debugUnlocked = false ∧ t.pkg.healthRing = []
    ∧ t.pkg.bootstat = 0 ∧ t.pkg.deviceKey = none

/-- Step k of a boot is done: the next in order, and BOOTSTAT says so (R441). -/
def Booted (s : State) (k : Nat) (t : State) : Prop := SameMemory s t ∧ t.pkg.bootstat.toNat % 16 = k

/-- Packets that have numbers of their own, below the next number. -/
def Numbered (s : State) : Prop := ∀ x ∈ s.packets, x.1 < s.freshId

/-- The sender of a packet hears of its refusal (R366, R368): at once, where the packet has used no link of this device, else by a packet that goes back. -/
def Hears (s t : State) (p : Packet) (reason hop : Nat) : Prop :=
  (p.back = [] → p.srcDevice = s.pkg.selfDevice → ⟨.responseArrival p.src p.seq reason hop, Request.zero⟩ ∈ t.agenda)
    ∧ (p.back ≠ [] ∨ p.srcDevice ≠ s.pkg.selfDevice → ∃ id a, ⟨.packetHop id, Request.zero⟩ ∈ t.agenda ∧ NMap.find t.packets id = some a
      ∧ a.typ = 3 ∧ a.reason = reason ∧ a.rhop = hop ∧ a.back = p.back ∧ a.node = p.node ∧ a.src = p.src ∧ a.seq = p.seq ∧ a.srcDevice = p.srcDevice)

/-- The packets that wait at a port are gone, and their senders hear reason 3 (R366). -/
def PortRefuses (s t : State) (node port : Nat) : Prop :=
  Numbered s → ∀ ip ∈ s.packets, ip.2.at_ = some (node, port) → NMap.find t.packets ip.1 = none ∧ Hears s t ip.2 3 ip.2.hop

/-- The interface of a tenant changes its state to x and nothing else of the tenant does. -/
def TdiBecomes (s : State) (n : Nat) (x : TdiState) (t : State) : Prop :=
  t.mem = s.mem ∧ t.cores = s.cores ∧ t.tenant n = { s.tenant n with tdi := x } ∧ ∀ m, m ≠ n → t.tenant m = s.tenant m

/-- The queues of a tenant that are queues are in STOP, the others as they were. -/
def QueuesStop (s : State) (n : Nat) (t : State) : Prop :=
  ∀ kq ∈ s.queues, ∃ q, (kq.1, q) ∈ t.queues
    ∧ q = if (s.tenant n).ownsQueue (kq.1 / 256) (kq.1 % 256) = true ∧ kq.2.st ≠ .off then { kq.2 with st := .stop } else kq.2

/-- The number of an SPDM request (R427). -/
def spdmNumber : Instr → Option Nat
  | .getVersion => some 1
  | .getCapabilities => some 2
  | .negotiateAlgorithms => some 3
  | .getDigests => some 4
  | .getCertificate => some 5
  | .challenge => some 6
  | .getMeasurements => some 7
  | .keyExchange => some 8
  | .finish => some 9
  | _ => none

/-- No request waits anywhere. -/
def NoneWaits (s : State) : Prop := ∀ x ∈ s.dir, x.2.queue = []

/-- The request in progress comes through the interface of its tenant: by its port and its virtual function (R432). -/
def ViaInterface (s : State) : Prop := s.req.port = s.req.tenant % 2 ∧ s.req.func = s.req.tenant / 2 + 1

/-- The device is up, and an HDM decoder of the tenant's interface maps the address of the request in progress to an IA (R434, R441). -/
def FromHost (s : State) (ia : Nat) : Prop :=
  ViaInterface s ∧ s.pkg.ready = true ∧ ∃ d hb, d < 4 ∧ NMap.find (s.tenant s.req.tenant).hdm d = some hb ∧ hb ≤ s.req.ia ∧ s.req.ia < hb + 2 ^ 38
    ∧ ia = d * 2 ^ 40 + (s.req.ia - hb) ∧ ∀ e < d, ∀ h, NMap.find (s.tenant s.req.tenant).hdm e = some h → s.req.ia < h ∨ h + 2 ^ 38 ≤ s.req.ia

/-- The host has received one more answer, to a request of a place (R434). -/
def HostAnswered (s t : State) (ia : Nat) (x : HostReply) : Prop := t.hostReplies = s.hostReplies ++ [x] ∧ x.tenant = s.req.tenant ∧ x.ia = ia

/-- It is all ones, without an error (R428, R433). -/
def AllOnes (s t : State) (ia : Nat) : Prop := ∃ x, HostAnswered s t ia x ∧ x.error = false ∧ x.data = BitVec.allOnes 512

/-- It is an error (R434). -/
def HostError (s t : State) (ia : Nat) : Prop := ∃ x, HostAnswered s t ia x ∧ x.error = true ∧ x.data = BitVec.allOnes 512

/-- No split stands at a header, and none that is held at a word waits for the home of a line (R297). -/
def NoFetchWaits (s : State) (ln : Nat) : Prop :=
  ∀ kc ∈ s.cores, ∀ kt ∈ kc.2.teams, ∀ kg ∈ kt.2.groups, ∀ kp ∈ kg.2.splits, kp.2.st ≠ .bound ∧ ∀ h, kp.2.held = some h → Cond.lineHome ln ∉ h.conds

/-- The set of a line in its die's snoop filter (R301). -/
def filterSet (s : State) (ln : Nat) : List Nat := NMap.getD (s.die (homeDie ln)).filter (ln % 65536) []

end Sys2Proof.Claims

section
open Sys2Proof Sys2Proof.Machine Sys2Proof.Claims

/-- R290, R364 to R377, R406, R410 to R414, R426 to R431, R434, R436, R440 to R444: resets, the steps of a boot, the commands of the mailboxes, links,
device interfaces and attestation requests do what the manual says, or are refused with its status. The model's
own in it: the operands that a command has no place for, an image's device number and what verifies among them (notes/assumptions 6, DESIGN CHOICE; 104, 105),
the device number without an image and the device key of every boot (5), a drawn incarnation (3), PARTITION's argument (23), leases and cores that cannot
leave them (100, 144), the queues of level S (22), window roots (123), the places and steps of a topology map (122), a member's first admission (107), the two
ends of a link (106), the ports after reset (18), the last steps of a world (102), what a checkpoint and a health summary contain (24, 25), a function reset of
banked teams (103), KILL without a trap (144), CXL IDE (145), the answers of sessions, whose values are free (4, 105). -/
def Obligations.FirmwareAndInterfacesActOnTheirCommands : Prop :=
  (∀ (s : State),
    (s.req.split = 0 → s.pkg.ready = true → Runs .reset s (LikeReset s)) ∧ Runs .coldReset s (LikeReset s)
    ∧ ∀ d k w, d < 4 → k < 64 → s.ports = [(portKey (4 * s.pkg.selfDevice + d) k, w)] →
      Runs .coldReset s (fun t => t.ports = [])
      ∧ (s.req.split = 0 → s.pkg.ready = true → Runs .reset s fun t => if 8 ≤ k ∧ portUp w = true then
          ∃ v, t.ports = [(portKey (4 * s.pkg.bootDevice + d) k, v)] ∧ portPresent v = true ∧ portUp v = true
          ∧ portFwc v = false ∧ portDom v = 0 ∧ portPeerNode v = portPeerNode w ∧ portPeerPort v = portPeerPort w
        else t.ports = []))
  ∧ (∀ (s : State) k, 1 ≤ k → k ≤ 5 → s.req.split = k →
    (s.pkg.bootstat.toNat % 16 + 1 ≠ k → Runs .reset s fun t => t = s)
    ∧ (s.pkg.bootstat.toNat % 16 + 1 = k →
      (k = 1 → Runs .reset s fun t => Booted s k t ∧ t.pkg.deviceKey = some 0)
      ∧ (k = 2 → (∀ i f, Boots s i f → Runs .reset s fun t => Booted s k t ∧ t.dies = s.dies
          ∧ ∃ j g, Boots s j g ∧ t.pkg.bootSlot = j ∧ t.pkg.selfDevice = g.device ∧ f.version ≤ g.version)
        ∧ ((∀ i f, ¬Boots s i f) → Runs .reset s fun t => Booted s 0xF t ∧ ∀ d < 4, (t.die d).fatal = true))
      ∧ (k = 3 → Runs .reset s fun t => Booted s k t ∧ ∀ kd ∈ t.dies, kd.2.buckets = [])
      ∧ (k = 4 → Runs .reset s (Booted s k)) ∧ (k = 5 → Runs .reset s fun t => Booted s k t ∧ t.pkg.ready = true)))
  ∧ (∀ (s : State) (i : Instr), s.pkg.ready = false → (i = .reset → s.req.split = 0) →
    i ∈ [Instr.reset, .image, .powercap, .admitDevice, .ptable, .partition, .worldCreate, .worldDestroy, .dbgUnlock, .checkpoint, .health,
      .lockInterface, .startInterface, .stopInterface, .getDeviceInterfaceReport, .tdiConfigWrite, .functionLevelReset, .ideKm,
      .getVersion, .getCapabilities, .negotiateAlgorithms, .getDigests, .getCertificate, .challenge, .getMeasurements, .keyExchange, .finish, .slhSig] →
    Runs i s fun t => t = s)
  ∧ (∀ (s : State), s.pkg.ready = true →
    let v := s.req.value.toNat
    let k := s.req.index
    (s.req.flag = false → Runs .image s (OnlyAnswered s k 4))
    ∧ (s.req.flag = true → v < s.pkg.floor → Runs .image s (OnlyAnswered s k 1))
    ∧ (s.req.flag = true → s.pkg.floor ≤ v → Runs .image s fun t => t.mem = s.mem ∧ Answered s k 0 t
      ∧ t.pkg.flash = NMap.set s.pkg.flash (1 - s.pkg.bootSlot) ⟨v, true, s.req.slot % 1024, s.pkg.freeCount⟩
      ∧ t.pkg.floor = (if s.req.flag2 then v else s.pkg.floor))
    ∧ (v < 1800 ∨ 3600 < v → Runs .powercap s (OnlyAnswered s k 1))
    ∧ (1800 ≤ v → v ≤ 3600 → Runs .powercap s fun t => t.mem = s.mem ∧ Answered s k 0 t ∧ t.pkg.powercap = v))
  ∧ (∀ (s : State), s.pkg.ready = true →
    let dev := s.req.value.toNat % 1024
    let k := s.req.index
    (NMap.find s.peers dev = none → Runs .admitDevice s (OnlyAnswered s k 1))
    ∧ (∀ p, NMap.find s.peers dev = some p →
      (p.verifies = false → Runs .admitDevice s (OnlyAnswered s k 4))
      ∧ (p.verifies = true → p.dinc ≠ 0 → p.measured ≠ p.newMeasured → Runs .admitDevice s fun t => t.mem = s.mem ∧ Answered s k 6 t
        ∧ NMap.find t.peers dev = some { p with state := 3 } ∧ (s.liveMaps ≠ [] → t.pkg.mapOwed = true))
      ∧ (p.verifies = true → p.dinc = 0 ∨ p.measured = p.newMeasured → Runs .admitDevice s fun t => t.mem = s.mem ∧ Answered s k 0 t
        ∧ NMap.find t.peers dev = some { p with state := 1, dinc := p.newDinc, measured := p.newMeasured } ∧ (s.liveMaps ≠ [] → t.pkg.mapOwed = true))))
  ∧ (∀ (s : State),
    let node := if s.req.off = 0 then 4 * s.pkg.selfDevice + s.req.die else s.req.off - 1
    let port := s.req.index
    let there := (s.req.off = 0 → s.req.die < 4) ∧ nodePort node port = true
    let o := s.portWord node port
    let die := node < 4096 ∧ port < 4
    let peer := if die then 4 * (node / 4) + port else portPeerNode s.req.value
    let peerPort := if die then node % 4 else portPeerPort s.req.value
    let owed := fun t : State => t.pkg.topoGen = s.pkg.topoGen ∧ (s.liveMaps ≠ [] → t.pkg.mapOwed = true) ∧ (s.liveMaps = [] → t.pkg.mapOwed = s.pkg.mapOwed)
    let down := fun t : State => owed t ∧ portUp (t.portWord node port) = false ∧ (portUp o = true →
      portUp (t.portWord (portPeerNode o) (portPeerPort o)) = false ∧ PortRefuses s t node port ∧ PortRefuses s t (portPeerNode o) (portPeerPort o))
    let up := fun t : State => owed t ∧ t.mem = s.mem ∧ (nodePort peer peerPort = false → t.ports = s.ports)
      ∧ (nodePort peer peerPort = true → portPresent (t.portWord node port) = true ∧ portUp (t.portWord node port) = true
        ∧ portUp (t.portWord peer peerPort) = true ∧ (die → portPeerNode (t.portWord node port) = peer ∧ portPeerPort (t.portWord node port) = peerPort
          ∧ (node / 4 = s.pkg.selfDevice → portFwc (t.portWord node port) = false → (s.die (node % 4)).part = (s.die port).part)))
    (there → Runs .linkDown s (fun t => down t ∧ t.mem = s.mem) ∧ Runs .linkRetrain s (fun t => down t ∧ SameButHealth s t ∧ Reported t s.req.die 7)
      ∧ (s.pkg.ready = true → s.req.slot ≠ 1 → s.req.flag = false → Runs .linkUp s fun t => up t ∧ t.peers = s.peers)
      ∧ (s.pkg.ready = true → s.req.slot ≠ 1 → s.req.flag = true → Runs .linkUp s fun t => up t ∧ ∃ p, NMap.find t.peers (s.req.line % 1024) = some p
        ∧ p.state = 2 ∧ p.newDinc = s.req.dinc ∧ p.verifies = s.req.flag2 ∧ p.dinc = ((NMap.find s.peers (s.req.line % 1024)).map Peer.dinc).getD 0))
    ∧ (¬there → Runs .linkDown s fun t => t = s) ∧ (¬there ∨ s.pkg.ready = false → s.req.slot ≠ 1 → Runs .linkUp s fun t => t = s)
    ∧ (s.req.slot = 1 →
      (s.plainIdle = false → Runs .linkUp s fun t => t = s)
      ∧ (s.plainIdle = true → s.pkg.topoGen % 2 = 1 → Runs .linkUp s fun t => t.pkg.topoGen = s.pkg.topoGen + 1 ∧ t.pkg.mapOwed = false)
      ∧ (s.plainIdle = true → s.pkg.topoGen % 2 = 0 → s.pkg.mapOwed = true → Runs .linkUp s fun t => t.pkg.topoGen = s.pkg.topoGen + 1 ∧ t.pkg.mapOwed = true)
      ∧ (s.plainIdle = true → s.pkg.topoGen % 2 = 0 → s.pkg.mapOwed = false → Runs .linkUp s fun t => t = s)))
  ∧ (∀ (s : State), s.pkg.ready = true →
    let n := s.req.tenant
    let k := s.req.index
    let e := s.req.entry
    let new : Tenant := { Tenant.fresh with entry := e }
    let lease := if new.valid then s.req.lease else []
    let stuck := fun c => c ∈ (s.tenant n).lease ∧ c ∉ lease ∧ 64 ≤ (s.core c).forwards.length
    (64 ≤ n → Runs .ptable s (OnlyAnswered s k 1))
    ∧ (new.weight = 0 ∨ (∃ i < 10, entryField e (64 + 8 * i) 8 % 2 ^ 21 ≠ 0) ∨ (∃ d < 4, new.winLimit d ≠ 0 ∧ s.inPart new.part d = false) →
      Runs .ptable s (OnlyAnswered s k 1))
    ∧ (new.part ≠ (s.tenant n).part → (∃ c, stuck c) → Runs .ptable s (OnlyAnswered s k 1))
    ∧ (n < 64 → s.entryOk n e s.req.lease = true → ((s.tenant n).valid = true → s.changeOk n (s.tenant n).entry e = true) →
      (new.part = (s.tenant n).part ∨ ∀ c, ¬stuck c) → Runs .ptable s fun t =>
      Answered s k 0 t ∧ (t.tenant n).entry = e ∧ (∀ c, c ∈ (t.tenant n).lease ↔ c ∈ lease ∨ stuck c) ∧ (∀ m, m ≠ n → t.tenant m = s.tenant m)
        ∧ ((s.tenant n).valid = false → new.valid = true → (t.tenant n).tdi = .unlocked
          ∧ ∀ i c, NMap.find (t.tenant n).roots i = some c → new.rootOk i c = true)))
  ∧ (∀ (s : State), s.pkg.ready = true →
    let d := s.req.value.toNat % 4
    let p := s.req.value.toNat / 2 ^ 8 % 4
    (s.dieInUse d = true → Runs .partition s (OnlyAnswered s s.req.index 1))
    ∧ (s.dieInUse d = false → Runs .partition s fun t => Answered s s.req.index 0 t ∧ (t.die d).part = p
      ∧ (∀ a, a < Config.hostBase → a / Config.dieSpan = d → a % Config.dieSpan < Config.ashBase ∨ Config.tagBase ≤ a % Config.dieSpan →
        t.byteAt a = 0 ∧ (a % 128 = 0 → a / 128 ∉ t.badLines ∧ a / 128 ∉ t.macBad))
      ∧ (∀ a, ¬(a < Config.hostBase ∧ a / Config.dieSpan = d) → t.byteAt a = s.byteAt a)
      ∧ (∀ ln, 128 * ln < Config.hostBase → 128 * ln / Config.dieSpan = d → t.dirAt ln = DirEntry.fresh)
      ∧ (s.liveMaps ≠ [] → t.pkg.mapOwed = true)
      ∧ ∀ e, e < 4 → e ≠ d → (portFwc (t.portWord (4 * s.pkg.selfDevice + d) e) = true ↔ (s.die e).part ≠ p)
        ∧ (portFwc (t.portWord (4 * s.pkg.selfDevice + e) d) = true ↔ (s.die e).part ≠ p)))
  ∧ (∀ (s : State), s.pkg.ready = true →
    let w := s.req.value.toNat
    let k := s.req.index
    (s.pkg.debugUnlocked = true → Runs .worldCreate s (OnlyAnswered s k 5))
    ∧ (s.pkg.debugUnlocked = false → w = 0 ∨ 16 ≤ w ∨ (s.world w).st ≠ .free → Runs .worldCreate s (OnlyAnswered s k 1))
    ∧ (s.pkg.debugUnlocked = false → 1 ≤ w → w < 16 → (s.world w).st = .free → Runs .worldCreate s fun t => t.mem = s.mem ∧ Answered s k 0 t
      ∧ t.world w = ⟨.live, some s.pkg.freeCount, false⟩ ∧ ∀ x, x ≠ w → t.world x = s.world x)
    ∧ ((s.world w).st = .free ∨ ((s.world w).st = .live ∧ w = 0) → Runs .worldDestroy s (OnlyAnswered s k 1))
    ∧ ((s.world w).st = .live → w ≠ 0 → Runs .worldDestroy s fun t => (s.images = [] → s.grids = [] → t.mem = s.mem) ∧ (t.world w).st = .dying
      ∧ (t.world w).key = (s.world w).key ∧ (∀ x ∈ t.images, descWorld x.2.team.desc ≠ w)
      ∧ ∀ kc ∈ s.cores, ∀ st ∈ kc.2.teams, descWorld st.2.desc = w → s.team kc.1 st.1 = some st.2 → st.2.killed = false →
          ∃ tm1, t.team kc.1 st.1 = some tm1 ∧ tm1.killed = true)
    ∧ ((s.world w).st = .dying →
      (s.worldEmpty w = false → Runs .worldDestroy s fun t => t = s)
      ∧ (∀ n, s.worldEmpty w = true → (s.world w).key = some n → Runs .worldDestroy s fun t => SameMemory s t ∧ (t.world w).st = .dying
        ∧ (t.world w).key = none ∧ ∀ kc ∈ t.cores, kc.2.world = w → w = 0)
      ∧ (s.worldEmpty w = true → (s.world w).key = none → ∀ ln ∈ s.worldLines w, (s.dirAt ln).unasked = true → Runs .worldDestroy s fun t => SameMemory s t
        ∧ (t.world w).st = .dying
        ∧ ∀ i < 7, (s.dirAt ln).sites.getLsbD i = true → (s.dirAt ln).invSent.getLsbD i = false → ⟨.inval ln i, Request.zero⟩ ∈ t.agenda)
      ∧ (s.worldEmpty w = true → (s.world w).key = none → (∀ ln ∈ s.worldLines w, (s.dirAt ln).atRest = true) → Runs .worldDestroy s fun t =>
        (t.world w).st = .free ∧ (∀ a, s.inWorld w a = true → t.byteAt a = 0 ∧ (a % 128 = 0 → a / 128 ∉ t.badLines))
          ∧ ∀ km ∈ s.mailboxes, km.1 < 4 → km.2.busy = true → km.2.cmd.toNat % 2 ^ 8 = 0x13 → km.2.cmd.toNat / 2 ^ 8 % 2 ^ 56 = w → (t.mailbox km.1).done = true))
    ∧ (s.req.flag = false → Runs .dbgUnlock s (OnlyAnswered s k 4))
    ∧ (s.req.flag = true → Runs .dbgUnlock s fun t => t.mem = s.mem ∧ Answered s k 0 t ∧ t.pkg.debugUnlocked = true
      ∧ ∀ kw ∈ s.worlds, ∃ x, (kw.1, x) ∈ t.worlds ∧ x.st = kw.2.st
        ∧ x.excluded = (kw.2.excluded || (!s.pkg.debugUnlocked && kw.2.st == .live))))
  ∧ (∀ (s : State), s.pkg.ready = true →
    let n := checkpointTenant s.req.index s.req.value.toNat
    ((s.tenant n).checkpointing = false → Runs .checkpoint s fun t => (t.tenant n).checkpointing = true ∧ (t.tenant n).stoppedStatus = false
      ∧ ∀ c sl tm, s.cores = [(c, s.core c)] → (s.core c).teams = [(sl, tm)] → tm.tenant = n → tm.killed = false → tm.banking = none →
          ∃ tm1 b, t.team c sl = some tm1 ∧ tm1.banking = some b ∧ b.why = .checkpoint)
    ∧ ((s.tenant n).checkpointing = true → s.quiet n = true → (s.tenant n).copied = false → Runs .checkpoint s fun t => (t.tenant n).copied = true
      ∧ (t.tenant n).checkpointing = true ∧ (s.checkpointCap n = none → t.mem = s.mem ∧ t.cores = s.cores ∧ t.tenant n = { s.tenant n with copied := true })
      ∧ ∀ cap inc, s.checkpointCap n = some (cap, inc, true) → t.mem = s.mem)
    ∧ ((s.tenant n).checkpointing = true → s.quiet n = true → (s.tenant n).copied = true → (s.tenant n).dirtyReport = none → Runs .checkpoint s fun t => t.mem = s.mem
      ∧ t.tenant n = { s.tenant n with dirtyReport := some (s.dirtyPages n) })
    ∧ (∀ r, (s.tenant n).checkpointing = true → s.quiet n = true → (s.tenant n).copied = true → (s.tenant n).dirtyReport = some r → Runs .checkpoint s fun t => t.mem = s.mem
      ∧ t.tenant n = { s.tenant n with checkpointing := false, stoppedStatus := true })
    ∧ ((s.tenant n).checkpointing = true → s.quiet n = false → Runs .checkpoint s fun t => t = s))
  ∧ (∀ (s : State), s.pkg.ready = true →
    let tn := s.tenant (if s.req.index < 4 then s.req.tenant else (s.req.index - 4) / 4)
    (tn.paOf s.req.ia = none ∨ tn.paOf (s.req.ia + 5119) = none → Runs .health s (OnlyAnswered s s.req.index 1))
    ∧ ((tn.paOf s.req.ia).isSome = true → (tn.paOf (s.req.ia + 5119)).isSome = true → Runs .health s (Answered s s.req.index 0)))
  ∧ (∀ (s : State), s.pkg.ready = true →
    let n := s.req.tenant
    let st := (s.tenant n).tdi
    let keyed := ∃ x, (s.tenant n).boundStream = some x ∧ x ∈ s.pkg.ideStreams
    (st = .unlocked → keyed → Runs .lockInterface s (TdiBecomes s n .locked))
    ∧ (¬(st = .unlocked ∧ keyed) → Runs .lockInterface s fun t => t = s)
    ∧ (Runs .startInterface s (TdiBecomes s n (if st = .locked then .run else st)))
    ∧ (Runs .stopInterface s fun t => TdiBecomes s n .unlocked t ∧ (st = .run ∨ st = .error → QueuesStop s n t) ∧ (st = .unlocked ∨ st = .locked → t.queues = s.queues))
    ∧ (st ≠ .unlocked → Runs .tdiConfigWrite s (TdiBecomes s n .error))
    ∧ (st = .unlocked → s.req.flag = true → s.req.index < 4 → Runs .tdiConfigWrite s fun t => t.mem = s.mem
      ∧ t.tenant n = { s.tenant n with hdm := NMap.set (s.tenant n).hdm s.req.index s.req.ia } ∧ ∀ m, m ≠ n → t.tenant m = s.tenant m)
    ∧ (st = .unlocked → s.req.flag = false ∨ 4 ≤ s.req.index → Runs .tdiConfigWrite s fun t => t = s)
    ∧ (Runs .getDeviceInterfaceReport s fun t => t.mem = s.mem ∧ t.cores = s.cores ∧ (∀ m, m ≠ n → t.tenant m = s.tenant m)
      ∧ ∃ a, t.tenant n = { s.tenant n with answer := some a } ∧ a.signature = none)
    ∧ (Runs .functionLevelReset s fun t => (t.tenant n).tdi = .unlocked ∧ ((∀ x ∈ s.grids, x.2.xrec = none ∧ x.2.writes = []) → QueuesStop s n t)
      ∧ (∀ x ∈ s.images, x.2.team.tenant = n → ∃ y ∈ t.images, y.1 = x.1 ∧ y.2.team.killed = true)
      ∧ ∀ kc ∈ s.cores, ∀ kt ∈ kc.2.teams, kt.2.tenant = n → s.team kc.1 kt.1 = some kt.2 → (∃ tm1, t.team kc.1 kt.1 = some tm1 ∧ tm1.killed = true)
        ∧ (kt.2.killed = false → ∀ g, s.grid kt.2.grid = some g → ∃ h, t.grid kt.2.grid = some h ∧ h.nfault ≠ 0))
    ∧ (s.req.index < 128 → s.req.flag2 = false → Runs .ideKm s fun t => t.mem = s.mem ∧ s.req.index ∈ t.pkg.ideStreams
      ∧ (t.tenant n).boundStream = if st = .unlocked ∧ s.req.index / 64 = n % 2 then some s.req.index else (s.tenant n).boundStream)
    ∧ (128 ≤ s.req.index → s.req.flag2 = false → Runs .ideKm s fun t => t = s)
    ∧ (s.req.index < 2 → s.req.flag2 = true → Runs .ideKm s fun t => t.mem = s.mem ∧ t.tenants = s.tenants ∧ s.req.index ∈ t.pkg.cxlIde))
  ∧ (∀ (s : State),
    (s.pkg.ideStreams.Pairwise (· < ·) → s.req.flag2 = false → Runs .ideStreamFail s fun t => t.mem = s.mem ∧ s.req.index ∉ t.pkg.ideStreams
      ∧ ∀ kt ∈ s.tenants, ∃ u, (kt.1, u) ∈ t.tenants
      ∧ u = if kt.2.boundStream = some s.req.index ∧ (kt.2.tdi = .locked ∨ kt.2.tdi = .run) then { kt.2 with tdi := .error } else kt.2)
    ∧ (s.pkg.cxlIde.Pairwise (· < ·) → s.req.flag2 = true → Runs .ideStreamFail s fun t => t.mem = s.mem ∧ t.tenants = s.tenants ∧ s.req.index ∉ t.pkg.cxlIde))
  ∧ (∀ (i : Instr) (k : Nat) (s : State), s.pkg.ready = true → spdmNumber i = some k →
    let n := s.req.tenant
    let known := k = 1 ∨ s.req.off = 0x12 ∨ s.req.off = 0x13
    (known → Runs i s fun t => t.mem = s.mem ∧ t.cores = s.cores ∧ (∀ m, m ≠ n → t.tenant m = s.tenant m)
      ∧ (t.tenant n).spdm = k ∧ (t.tenant n).version = (if k = 1 then 0 else s.req.off)
      ∧ (∃ a, (t.tenant n).answer = some a ∧ a.request = k ∧ (k = 1 → a.versions = [0x12, 0x13])
        ∧ a.signature = if 6 ≤ k ∧ k ≤ 8 then some (0, Config.signatureOf 0 s.pkg.key (t.tenant n).transcript) else none)
      ∧ (k = 7 → NMap.find (t.tenant n).measured 0 = some (if s.pkg.debugUnlocked then 1 else 0)))
    ∧ (¬known → Runs i s fun t => t.mem = s.mem ∧ t.cores = s.cores ∧ (∀ m, m ≠ n → t.tenant m = s.tenant m)
      ∧ ∃ a, t.tenant n = { s.tenant n with answer := some a } ∧ a.request = 0x7F ∧ a.signature = none))
  ∧ ∀ (s : State), s.pkg.ready = true → Runs .slhSig s fun t => t.mem = s.mem ∧ (t.tenant s.req.tenant).spdm = 10
    ∧ (t.tenant s.req.tenant).transcript = (s.tenant s.req.tenant).transcript
    ∧ ∃ a, (t.tenant s.req.tenant).answer = some a ∧ a.signature = some (1, Config.signatureOf 1 s.pkg.key (s.tenant s.req.tenant).transcript)

/-- R74, R76, R244, R248 to R250, R296 to R301, R402 to R404, R418, R423, R428, R432 to R436, R439, R441, R442, R444: a register holds what is written
to it; host requests and answers change the directory and the filter; errors and heat are met and reported as the manual says. The model's
own in it: the operands of steps that come from outside (notes/assumptions 6, DESIGN CHOICE); HOST_SNOOP waits for an atomic's exclusive hold (51, DEDUCED);
QSTATE_RUN from ERROR restarts the hang timer (87, DEDUCED); a write of PSEL starts its counter at 0 (88, DEDUCED); a write-back is taken from an owner alone,
and a back-invalidate timeout ends the requests that wait for that way (50, DESIGN CHOICE), with the fetches and words that wait for the line (120, DEDUCED);
the health ring's place and size (112, DESIGN CHOICE); the throttle's operands and an ash image's layout (25, DESIGN CHOICE); what a host read that fails is
answered (127, DEDUCED); how COPPICING asks for the slice's lines and resumes what waited (128, DEDUCED); what an interface in ERROR drops and answers (129,
DEDUCED). -/
def Obligations.RegistersHostAndErrors : Prop :=
  (∀ (s : State),
    let k := queueKey s.req.die s.req.index
    let q := s.queue k
    (Runs .qstateOff s fun t => t.mem = s.mem ∧ t.queue k = { q with st := .off })
    ∧ (Runs .qstateStop s fun t => t.mem = s.mem ∧ t.queue k = { q with st := .stop })
    ∧ (Runs .qstateRun s fun t => t.mem = s.mem
      ∧ t.queue k = (if q.st = .error then { q with st := .run, elapsed := 0, escalation := 0, outcome := 0, since := s.cycle }
        else if q.st = .run then q else { q with st := .run, since := s.cycle })
      ∧ (∀ n, s.queueTenant s.req.die s.req.index = some n → (t.tenant n).stoppedStatus = false)
      ∧ ∀ gn g c, q.st ≠ .run → q.head = some gn → s.grid gn = some g → g.readySince = some c → ∃ h, t.grid gn = some h ∧ h.readySince = some s.cycle)
    ∧ (s.pkg.ready = false → Runs .registerWrite s fun t => t = s)
    ∧ (s.pkg.ready = true → s.req.line = 1 →
      (s.req.off % 32 = 0 → Runs .registerWrite s fun t => t.mem = s.mem ∧ t.queue k = { q with qcb := s.req.value.extractLsb' 12 36 })
      ∧ (s.req.off % 32 = 16 → Runs .registerWrite s fun t => t.mem = s.mem ∧ t.queue k = { q with limit := (s.req.value.extractLsb' 0 16).toNat })
      ∧ (s.req.off % 32 ≠ 0 → s.req.off % 32 ≠ 16 → Runs .registerWrite s fun t => t = s))
    ∧ (s.pkg.ready = true → s.req.line = 4 →
      (ViaInterface s → s.req.off < 0x4000 → (s.tenant s.req.tenant).tdi ≠ .error → Runs .registerWrite s fun t => t.mem = s.mem
        ∧ t.tenant s.req.tenant = { s.tenant s.req.tenant with msix := NMap.set (s.tenant s.req.tenant).msix (s.req.off / 8) s.req.value })
      ∧ (¬ViaInterface s ∨ (s.tenant s.req.tenant).tdi = .error → Runs .registerWrite s fun t => t = s))
    ∧ (s.pkg.ready = true → s.req.line = 5 → isHostLine (s.req.value.toNat / 128) = true → s.req.index ≠ 0 → Runs .registerWrite s fun t => t.mem = s.mem
      ∧ t.pkg.healthBase = some s.req.value.toNat ∧ t.pkg.healthSize = s.req.index ∧ t.pkg.healthRing = [])
    ∧ (s.pkg.ready = true → s.req.line = 6 → (s.req.value.toNat ≤ 14 → Runs .registerWrite s fun t => t.mem = s.mem
        ∧ (t.die s.req.die).protectedWays = s.req.value.toNat)
      ∧ (14 < s.req.value.toNat → Runs .registerWrite s fun t => t = s)))
  ∧ (∀ (s : State) mb off, s.pkg.ready = true → s.req.line = 3 → s.req.off = 0x100 + 0x100 * mb + off → mb < 4 → off < 0x100 →
    (off < 0x40 → off % 8 = 0 → (s.mailbox mb).busy = false → Runs .registerWrite s fun t => t.mem = s.mem
      ∧ (t.mailbox mb).cmd.extractLsb' (8 * off) 64 = s.req.value ∧ ∀ j < 512, j < 8 * off ∨ 8 * off + 64 ≤ j → (t.mailbox mb).cmd.getLsbD j = (s.mailbox mb).cmd.getLsbD j)
    ∧ (off < 0x40 → (s.mailbox mb).busy = true → Runs .registerWrite s fun t => t = s)
    ∧ (off = 0x80 → s.req.value.getLsbD 0 = true →
      ((s.mailbox mb).busy = true → Runs .registerWrite s fun t => t.mem = s.mem ∧ t.mailbox mb = { s.mailbox mb with status := 2 })
      ∧ ((s.mailbox mb).busy = false → (s.mailbox mb).cmd.extractLsb' 0 8 = (0x15 : BitVec 8) → Runs .registerWrite s fun t => t.mem = s.mem
        ∧ (t.mailbox mb).busy = true ∧ (t.mailbox mb).done = false ∧ ∃ r, ⟨.powercap, r⟩ ∈ t.agenda ∧ r.index = mb ∧ r.off = 0 ∧ r.split = 0
          ∧ r.value = ((s.mailbox mb).cmd.extractLsb' 8 56).setWidth 64)
      ∧ ((s.mailbox mb).busy = false → (0x18 : BitVec 8) ≤ (s.mailbox mb).cmd.extractLsb' 0 8 → Runs .registerWrite s fun t => t.mem = s.mem
        ∧ (t.mailbox mb).done = true ∧ (t.mailbox mb).busy = false ∧ (t.mailbox mb).status = 3)))
  ∧ (∀ (s : State) e, s.entry s.req.core s.req.index = some e → e.st = .faulted → e.tenant = s.req.tenant →
    (Runs .hrearmRetry s fun t => t.mem = s.mem ∧ ⟨.tlbWalk s.req.core s.req.index, Request.zero⟩ ∈ t.agenda ∧ ∃ x, t.entry s.req.core s.req.index = some x
      ∧ x.st = (if e.rel then .provisional else .draining) ∧ x.tv = false ∧ x.fcause = 0 ∧ x.data = e.data ∧ x.mask = e.mask ∧ x.va = e.va)
    ∧ (∀ g, s.group ⟨s.req.core, e.slot, e.group⟩ = some g → g.bevents.length < 8 → NoLates (s.core s.req.core) → Runs .hrearmDiscard s fun t => t.mem = s.mem
      ∧ t.entry s.req.core s.req.index = none ∧ ∃ h, t.group ⟨s.req.core, e.slot, e.group⟩ = some h
      ∧ h.bevents = g.bevents ++ [⟨.drainFault, BitVec.ofNat 64 s.req.index, 0, 0, 0, 0, none⟩]))
  ∧ (∀ (s : State), (∀ e, s.entry s.req.core s.req.index = some e → e.st ≠ .faulted ∨ e.tenant ≠ s.req.tenant) →
    Runs .hrearmRetry s (fun t => t = s) ∧ Runs .hrearmDiscard s fun t => t = s)
  ∧ (∀ (s : State),
    let p := (s.core s.req.core).perfOf s.req.tenant
    let now := fun t : State => (t.core s.req.core).perfOf s.req.tenant
    (s.req.value.toNat < 64 → Runs .pselWrite s fun t => t.mem = s.mem ∧ NMap.find (now t).psel s.req.index = some s.req.value.toNat
      ∧ NMap.find (now t).pcnt s.req.index = some 0 ∧ (∀ j, j ≠ s.req.index → NMap.find (now t).pcnt j = NMap.find p.pcnt j) ∧ (now t).denied = p.denied)
    ∧ (64 ≤ s.req.value.toNat → Runs .pselWrite s fun t => t = s)
    ∧ (Runs .pcntRead s fun t => t.mem = s.mem ∧ (now t).pcnt = p.pcnt ∧ (now t).psel = p.psel
      ∧ (now t).denied = (p.denied || decide (NMap.getD p.psel s.req.index 0 < 16 ∧ (s.tenant s.req.tenant).allow.testBit (NMap.getD p.psel s.req.index 0) = false)))
    ∧ (Runs .pstatWrite s fun t => t.mem = s.mem ∧ (now t).denied = (p.denied && s.req.value.getLsbD 0) ∧ (now t).pcnt = p.pcnt))
  ∧ (∀ (s : State) ia pa, FromHost s ia → s.req.flag2 = false → s.hostTarget s.req.tenant ia = some pa → s.frozen (pa / 128) = false → Quiet (s.dirAt (pa / 128)) →
    let ln := pa / 128
    let d := s.dirAt ln
    d.st = .inv ∨ d.st = .shared →
    ((filterSet s ln).length < 16 → s.lineFault ln = none → Runs .hostRead s fun t => SameMemory s t ∧ t.copiesAt ln = s.copiesAt ln ||| 64
      ∧ (t.dirAt ln).sites = d.sites ||| 64 ∧ (t.dirAt ln).st = .shared ∧ ln ∈ filterSet t ln ∧ ∃ x, HostAnswered s t ia x
        ∧ x.error = false ∧ x.data = (s.lineData ln).extractLsb' (ia % 128 / 64 * 512) 512)
    ∧ (s.lineFault ln ≠ none → Runs .hostRead s fun t => SameButHealth s t ∧ filterSet t ln = filterSet s ln ∧ HostError s t ia ∧ Reported t (homeDie ln) 5))
  ∧ (∀ (s : State) ia pa, FromHost s ia → s.hostTarget s.req.tenant ia = some pa →
    let ln := pa / 128
    let d := s.dirAt ln
    (s.lineFault ln = some .integrity → ∀ i ∈ [Instr.hostOwnershipRequest, .hostWrite], Runs i s fun t => SameButHealth s t ∧ HostError s t ia
      ∧ Reported t (ia / 2 ^ 40 % 4) 5)
    ∧ (s.lineFault ln ≠ some .integrity → s.frozen ln = false → Quiet d →
      (d.st = .inv ∨ d.st = .shared → d.sites &&& 63 = 0 → (filterSet s ln).length < 16 → Runs .hostOwnershipRequest s fun t => SameMemory s t
        ∧ (t.dirAt ln).st = .excl ∧ (t.dirAt ln).hg = true ∧ (t.dirAt ln).sites = 64 ∧ ln ∈ filterSet t ln)
      ∧ (d.st = .inv → d.sites = 0 → s.lineFault ln = none → s.markBusy ln (lookAgain ln) = none → s.MemoryWf → Runs .hostWrite s fun t =>
        let lo := ia % 128 / 64 * 64
        (∀ i < 128, dirtyByte s (ln * 128) ≠ some (ln * 128 + i) → lineByteAt t ln i
          = if s.req.mask.getLsbD i = true ∧ lo ≤ i ∧ i < lo + 64 then lineByte s.req.data i else lineByteAt s ln i)
        ∧ ∀ a, a / 128 ≠ ln → dirtyByte s (ln * 128) ≠ some a → t.byteAt a = s.byteAt a)
      ∧ (d.st = .inv → d.sites = 0 → s.lineFault ln = some .uncorrectable → Runs .hostWrite s fun t => SameButHealth s t ∧ HostError s t (ln * 128))))
  ∧ (∀ (s : State) ia, FromHost s ia → s.hostTarget s.req.tenant ia = none → ∀ i ∈ [Instr.hostRead, .hostOwnershipRequest, .hostWrite], s.req.flag2 = false →
    ((i = .hostRead → (s.tenant s.req.tenant).tdi ≠ .error) → Runs i s fun t => SameButHealth s t ∧ Reported t (ia / 2 ^ 40 % 4) 5 ∧ HostError s t ia)
    ∧ (i = .hostRead → (s.tenant s.req.tenant).tdi = .error → Runs i s fun t => SameMemory s t ∧ t.dir = s.dir ∧ AllOnes s t ia))
  ∧ (∀ (s : State), s.req.flag2 = false →
    let mapped := ∃ d hb, d < 4 ∧ NMap.find (s.tenant s.req.tenant).hdm d = some hb ∧ hb ≤ s.req.ia ∧ s.req.ia < hb + 2 ^ 38
    (¬ViaInterface s ∨ ¬mapped → ∀ i ∈ [Instr.hostRead, .hostOwnershipRequest, .hostWrite], Runs i s fun t => t = s)
    ∧ (s.pkg.ready = false → ViaInterface s → mapped → Runs .hostOwnershipRequest s (fun t => t = s) ∧ Runs .hostWrite s (fun t => t = s)
      ∧ Runs .hostRead s fun t => SameMemory s t ∧ t.dir = s.dir ∧ ∃ ia, AllOnes s t ia))
  ∧ (∀ (s : State), s.req.flag2 = true →
    let x := (s.tenant s.req.tenant).tdi
    (¬ViaInterface s → Runs .hostRead s fun t => t = s)
    ∧ (ViaInterface s → s.req.size ≠ 8 ∨ s.pkg.ready = false ∨ x = .error → Runs .hostRead s fun t => SameMemory s t ∧ AllOnes s t s.req.off)
    ∧ (ViaInterface s → s.req.size = 8 → s.pkg.ready = true → x ≠ .error → s.req.off = 0x8000 → Runs .hostRead s fun t => SameMemory s t
      ∧ ∃ y, HostAnswered s t 0x8000 y ∧ y.error = false ∧ y.data = if x = .unlocked then 0 else if x = .locked then 1 else 2))
  ∧ (∀ (s : State),
    let ln := s.req.line
    let d := s.dirAt ln
    d.bisnp = true → NoneWaits s → Quiet d → (∀ a, dirtyByte s (ln * 128) = some a → a / 128 ≠ ln) →
    (d.bisnpData = false → d.st = .shared → Runs .birspi s fun t => SameMemory s t ∧ t.copiesAt ln = s.copiesAt ln &&& 63
      ∧ (t.dirAt ln).sites = d.sites &&& 63 ∧ (t.dirAt ln).bisnp = false ∧ ln ∉ filterSet t ln)
    ∧ (d.bisnpData = false → d.st = .excl → d.hg = true → s.req.flag = true → s.MemoryWf →
      (s.lineFault ln = none → Runs .birspi s fun t =>
        (∀ i < 128, dirtyByte s (ln * 128) ≠ some (ln * 128 + i) → lineByteAt t ln i = if s.req.mask.getLsbD i then lineByte s.req.data i else lineByteAt s ln i)
        ∧ (t.dirAt ln).hg = false ∧ (t.dirAt ln).st = (if d.sites &&& 63 = 0 then .inv else .shared) ∧ ln ∉ filterSet t ln)
      ∧ (s.pkg.healthBase = none → s.lineFault ln ≠ none → s.req.mask ≠ BitVec.allOnes 128 → Runs .birspi s fun t => HostError s t (ln * 128)
        ∧ ∀ i < 128, lineByteAt t ln i = lineByteAt s ln i))
    ∧ (d.bisnpData = true → d.st = .excl → d.hg = true → s.req.flag = false → Runs .bisnpdataResponse s fun t => SameMemory s t
      ∧ (t.dirAt ln).hg = false ∧ (t.dirAt ln).sites = d.sites ∧ (t.dirAt ln).bisnp = d.invSent.getLsbD 6 ∧ (t.dirAt ln).bisnpData = false
      ∧ filterSet t ln = filterSet s ln))
  ∧ (∀ (s : State) i id g l,
    let ln := s.req.line
    let d := s.dirAt ln
    d.bisnp = true → d.bisnpSince + 2 ^ 24 ≤ s.cycle → d.queue = [.readNew i id] → d.parked = [] → (∀ x ∈ s.dir, x.1 ≠ ln → x.2.queue = []) → NoFetchWaits s ln →
    s.pkg.healthBase = none → s.group i = some g → g.late id = some l → Runs .backInvalidateTimeout s fun t => SameMemory s t ∧ (t.dirAt ln).queue = []
      ∧ (t.dirAt ln).bisnp = false ∧ filterSet t ln = filterSet s ln ∧ Reported t (homeDie ln) 6
      ∧ ∃ h, t.group i = some h ∧ h.vregs = g.vregs ∧ h.sregs = g.sregs ∧ h.late id = some (fillLate ln (.error .hostAbort) l))
  ∧ (∀ (s : State),
    (isHostLine s.req.line = true → (s.dirAt s.req.line).queue = [] →
      let held := (s.dirAt s.req.line).st = .excl ∨ (s.dirAt s.req.line).st = .modified
      (¬held → (∀ kc ∈ s.cores, ∀ x ∈ kc.2.hearth, x.2.pa = s.req.line → x.2.sent = false) → Runs .hostSnoop s fun t => SameMemory s t
        ∧ t.copiesAt s.req.line = 0 ∧ t.cores = s.cores)
      ∧ (held → (s.dirAt s.req.line).asked = false → Runs .hostSnoop s fun t => SameMemory s t ∧ t.copies = s.copies ∧ t.cores = s.cores
        ∧ (t.dirAt s.req.line).queue = [.snoop] ∧ ⟨.recall s.req.line (s.dirAt s.req.line).holder, Request.zero⟩ ∈ t.agenda))
    ∧ (isHostLine s.req.line = false → Runs .hostSnoop s fun t => t = s)
    ∧ (let k := queueKey s.req.die s.req.index
      let taken := ViaInterface s ∧ s.req.size = 8 ∧ s.pkg.ready = true ∧ (s.tenant s.req.tenant).ownsQueue s.req.die s.req.index = true
        ∧ (s.queue k).st ≠ .off ∧ (s.tenant s.req.tenant).tdi ≠ .error
      (taken → s.qcbShut s.req.die s.req.tenant (s.queue k) = none →
        (s.deviceFed s.req.die s.req.tenant (s.queue k) = false → Runs .doorbell s fun t => SameMemory s t ∧ t.queue k = { s.queue k with bell := true })
        ∧ (s.deviceFed s.req.die s.req.tenant (s.queue k) = true → Runs .doorbell s fun t => t = s))
      ∧ (taken → s.qcbShut s.req.die s.req.tenant (s.queue k) ≠ none → Runs .doorbell s fun t => SameMemory s t ∧ t.queues = s.queues)
      ∧ (¬taken → Runs .doorbell s fun t => t = s))
    ∧ (let key := portKey (if s.req.off = 0 then 4 * s.pkg.selfDevice + s.req.die else s.req.off - 1) s.req.index
      let n := NMap.getD s.replays key 0
      (s.req.flag = true → Runs .flitReplay s fun t => t.mem = s.mem ∧ t.packets = s.packets ∧ NMap.find t.replays key = none ∧ t.agenda = s.agenda)
      ∧ (s.req.flag = false → n < 15 → Runs .flitReplay s fun t => t.mem = s.mem ∧ t.packets = s.packets ∧ NMap.find t.replays key = some (n + 1)
        ∧ t.agenda = s.agenda)
      ∧ (s.req.flag = false → 15 ≤ n → Runs .flitReplay s fun t => t.mem = s.mem ∧ t.packets = s.packets ∧ NMap.find t.replays key = none
        ∧ ⟨.linkRetrain, s.req⟩ ∈ t.agenda)))
  ∧ (∀ (s : State),
    (let hot := 100 < s.req.value.toNat ∨ s.pkg.powercap < s.req.index
     Runs .thermalThrottle s fun t => SameButHealth s t ∧ Reported t s.req.die 9
        ∧ (t.die s.req.die).clockMHz = (if hot then max 1200 ((s.die s.req.die).clockMHz - 75) else (s.die s.req.die).clockMHz)
        ∧ ∀ b, s.pkg.healthBase = some b → s.MemoryWf →
          let pa := b + 32 * (s.pkg.healthCount % s.pkg.healthSize)
          pa % 32 = 0 → s.dirAt (pa / 128) = DirEntry.fresh → s.frozen (pa / 128) = false →
            ∃ v, t.pkg.healthRing.getLast? = some v ∧ ∀ j < 32, t.byteAt (pa + j) = v.extractLsb' (8 * j) 8)
    ∧ (Runs .junctionFatal s fun t => ∀ d < 4, (t.die d).fatal = true)
    ∧ (Runs .ashImage s fun t => (t.die s.req.die).fatal = true ∧ Reported t s.req.die 10 ∧ t.pkg.aer = s.pkg.aer + 1)
    ∧ (Runs .singleBitError s fun t => SameButHealth s t ∧ (s.req.flag = false → t.mem = s.mem) ∧ (∃ n, NMap.find (t.die s.req.die).corrected s.req.index = some n
        ∧ n = NMap.getD (s.die s.req.die).corrected s.req.index 0 + 1) ∧ (s.req.flag = true → Reported t s.req.die 1))
    ∧ (Runs .poolBankRetire s fun t => SameButHealth s t ∧ (t.core s.req.core).poolTop = (s.core s.req.core).poolTop - 32 ∧ Reported t (s.req.core / 144) 2)
    ∧ ((∃ x, x / 192 = s.req.index / 192 ∧ x ≠ s.req.index ∧ x ∉ (s.die s.req.die).retired) → s.sliceLines s.req.die s.req.index = [] →
      Runs .coppicing s fun t => SameButHealth s t ∧ s.req.index ∈ (t.die s.req.die).retired ∧ Reported t s.req.die 3 ∧ ∀ b < 16384,
        if ((s.die s.req.die).bucket b).slice = s.req.index then let y := (t.die s.req.die).bucket b
          y.slice / 192 = s.req.index / 192 ∧ y.slice ≠ s.req.index ∧ y.slice ∉ (s.die s.req.die).retired ∧ y.frz = false
        else (t.die s.req.die).bucket b = (s.die s.req.die).bucket b)
    ∧ (∀ ln ∈ s.sliceLines s.req.die s.req.index, (s.dirAt ln).unasked = true → Runs .coppicing s fun t => SameMemory s t ∧ t.copies = s.copies
      ∧ (t.die s.req.die).retired = (s.die s.req.die).retired
      ∧ (∀ b < 16384, ((t.die s.req.die).bucket b).slice = ((s.die s.req.die).bucket b).slice
        ∧ (((s.die s.req.die).bucket b).slice = s.req.index → (s.die s.req.die).coppicing s.req.index = false → ((t.die s.req.die).bucket b).frz = true))
      ∧ ∀ i < 7, (s.dirAt ln).sites.getLsbD i = true → (s.dirAt ln).invSent.getLsbD i = false → ⟨.inval ln i, Request.zero⟩ ∈ t.agenda))
  ∧ (∀ (s : State),
    (∀ core line, s.req.place = .l1Line core line → Runs .sramUncorrectable s fun t => SameMemory s t ∧ NMap.find (t.core core).l1 line = none)
    ∧ (∀ line site, s.req.place = .l2Copy line site → site < 7 → Runs .sramUncorrectable s fun t => SameMemory s t
      ∧ t.copiesAt line = s.copiesAt line &&& ~~~(1#7 <<< site))
    ∧ (∀ core i, s.req.place = .tlbEntry core i → Runs .sramUncorrectable s fun t => SameMemory s t ∧ (t.core core).tlb = (s.core core).tlb.eraseIdx i)
    ∧ (∀ line, s.req.place = .directoryEntry line → Runs .sramUncorrectable s fun t => SameMemory s t
      ∧ ∀ i < 7, (s.dirAt line).sites.getLsbD i = true → (s.dirAt line).invSent.getLsbD i = false → ⟨.inval line i, Request.zero⟩ ∈ t.agenda)
    ∧ (∀ core slot tm, s.req.place = .teamStore core slot → s.team core slot = some tm → Runs .sramUncorrectable s fun t =>
      ∃ tm1, t.team core slot = some tm1 ∧ tm1.killed = true)
    ∧ (∀ core i e tm, s.req.place = .hearthEntry core i → s.entry core i = some e → s.team core e.slot = some tm → NoLates (s.core core) → Runs .sramUncorrectable s fun t =>
      t.entry core i = none ∧ (∀ j x, s.entry core j = some x → x.rel = true → x.slot = e.slot → e.stamp < x.stamp → t.entry core j = none)
        ∧ ∃ tm1, t.team core e.slot = some tm1 ∧ tm1.killed = true)
    ∧ (∀ line, s.req.place = .hbmLine line → Runs .sramUncorrectable s fun t => line ∈ t.badLines ∧ (s.pkg.healthBase = none → t.mem = s.mem)
      ∧ Reported t (homeDie line) 4)
    ∧ (∀ line, s.req.place = .macLine line →
      ((∃ w, 1 ≤ w ∧ w < 16 ∧ s.inWorld w (128 * line) = true) → Runs .sramUncorrectable s fun t => t.mem = s.mem ∧ line ∈ t.macBad ∧ t.lineFault line ≠ none)
      ∧ ((∀ w, 1 ≤ w → w < 16 → s.inWorld w (128 * line) = false) → Runs .sramUncorrectable s fun t => t = s)))
end

/-! ### The machine: words, steps, reset -/
namespace Sys2Proof.Claims
open Sys2Proof.Machine

/-- Words the manual writes out, by clause class (R96): CTRL, SCALAR, VALU and VBIT, LANE, MEM, LOCAL, CAP, REMOTE, COPY and MATRIX. -/
def wordsControl : List (BitVec 4 × W64 × Instr) :=
  [(0, 0x004000FFFFFFEC00, .bra (BitVec.ofInt 32 (-20))), (0, 0x014A800000000600, .brv 21 6), (0, 0x01C4000000001800, .jmptv 8 12 false),
    (0, 0x03C0000000000000, .bar 0 0), (0, 0x0440000000000200, .pwait 2 0), (0, 0x05C2100000000900, .launch 4 16 9),
    (1, 0x04C60A0000000040, .smins ⟨12, 10, 0, 32⟩), (1, 0x010A0D0000000002, .ssub ⟨20, 13, 0, 1⟩),
    (1, 0x0742860E00000004, .scmp ⟨5, 6, 7, 2⟩), (1, 0x06858A0000000168, .sbext ⟨11, 10, 0, 0xB4⟩)]

def wordsVector : List (BitVec 4 × W64 × Instr) :=
  [(2, 0x0180480401001540, .vfma ⟨9, 4, 8, 5, 20, false, false, false⟩), (2, 0x0240480900C00148, .vmax ⟨9, 9, 6, 20, true, false⟩),
    (2, 0x0380A80400A00800, .vcmp 21 4 5 2 0 false false), (2, 0x00C01803FFFFFC00, .vaddi ⟨3, 3, 0, false⟩ 0x3FFFFF false),
    (2, 0x00B6280801200000, .vadd ⟨0x6C5, 8, 9, 0, false, false⟩ false), (2, 0x0480000000000000, .illegalOp 2 0x0480000000000000),
    (3, 0x0540380700000C00, .vtag ⟨7, 7, 0, false⟩ 3), (3, 0x0500A00A20003400, .vcvt ⟨20, 10, 0, false⟩ 0 2 13 0),
    (3, 0x0480400801800000, .vscale ⟨8, 8, 12, 0, false, false⟩), (4, 0x0280000000000000, .gfence), (4, 0x0240080400001000, .vscan ⟨1, 4, 0, false⟩ 0 true false),
    (4, 0x0200300200000050, .vred 6 2 0 false 5 false), (4, 0x01C0380200000800, .vvote 7 2 2 0 false)]

def wordsMemory : List (BitVec 4 × W64 × Instr) :=
  [(5, 0x4080480A018204D4, .st ⟨2, 9, 10, 12, 16, false, 2, 3, 20⟩), (5, 0x0680400400401014, .ld 3 ⟨2, 8, 4, 2, 0, true, 0, 0, 20⟩),
    (5, 0x1B40800400401000, .ldRec 13 ⟨5, 16, 4, 2, 0, true, 0, 0, 0⟩), (5, 0x2C80480A018204D4, .ld 22 ⟨2, 9, 10, 12, 16, false, 2, 3, 20⟩),
    (5, 0x74000000000004C0, .fence 2 3), (5, 0x7600000000000000, .drain), (5, 0x4A80300400401045, .atom 0 ⟨2, 6, 4, 2, 0, true, 0, 1, 5⟩),
    (6, 0x0280180900403000, .lds 1 ⟨2, 3, 9, 2, 1, true, 0, 0, 0⟩), (7, 0x0240400801800140, .cbound ⟨false, 8, 8, 12, 20, false, false⟩),
    (8, 0x0000801403200210, .send 16 20 25 0 33 false false), (8, 0x0100701402000400, .rtchk 14 20 16 true 0 false false),
    (8, 0x0080C00000000000, .empty 24 0), (9, 0x0140600000000000, .kacq 12 0 false), (9, 0x0000000402801000, .cpy ⟨0, 4, 20, 0, 1, false⟩),
    (10, 0x00C0000801800000, .mloop 0 1 12 0), (10, 0x0100200003000000, .mdrain 4 0 24 0 false)]

/-- The device waits for nothing but the word in issue: no posted happening, none due, and the split `c` issues. -/
def AtWord (s : State) (c : Ctx) : Prop := s.agenda = [] ∧ dueStep s = none ∧ s.tick.issuer = some c

/-- A split without what R117 counts. -/
def unaged (p : Split) : Split := { p with ready := 0, age := 0, eligible := false }

/-- The lanes that a word which fails step 4 of R112 is raised for: ACTIVE by its mask field, where its form has one (R129, R387). -/
def refusedLanes (c : Ctx) : Lanes := c.active (wordMask (decodeHeader c.cl.header).cls (c.cl.words.getD c.cl.next 0))

/-- What the word in issue decodes to: the next word of the clause, under the class of its header (R96, R97). -/
def issuedWord (c : Ctx) : Except DecodeError Instr := decodeWord (decodeHeader c.cl.header).cls (c.cl.words.getD c.cl.next 0)

end Sys2Proof.Claims

section
open Sys2Proof Sys2Proof.Machine Sys2Proof.Claims

/-- R101, R103, R107 to R112: the words that the manual writes out decode to the instructions it names; a nonzero unused field is refused. -/
def Obligations.DecodedWordsAreTheManuals : Prop :=
  (∀ x ∈ wordsControl ++ wordsVector ++ wordsMemory, decodeWord x.1 x.2.1 = .ok x.2.2)
    ∧ decodeWord 2 0x0080000000000001 = .error (.reservedField false)
    ∧ decodeWord 5 0x4080480A01820CD4 = .error (.reservedField false)

/-- R101, R107 to R111: the decoder reads every well-formed instruction back from the word that encodes it, with every operand. -/
def Obligations.EveryInstructionDecodesFromItsWord : Prop := ∀ i, Sys2Proof.Laws.RoundTrip.Statement i

/-- R112: a word that decodes to an instruction is that instruction's encoding and the instruction is well formed, so no two words mean the same;
an undefined opcode keeps its class and word. -/
def Obligations.DecodedWordsEncodeBack : Prop :=
  ∀ cls w i, decodeWord cls w = .ok i → i = .illegalOp cls w ∨ (i.wf = true ∧ encode i = some (cls, w))

/-- R97, R120: when nothing is posted and nothing is due, the next step runs the word in issue: it is exec of the decoded instruction, one cycle
later; a posted happening runs before any word, with the operands posted with it. While no group stands at a barrier, a
tick changes no memory, and of a group only what R117 counts of its splits. -/
def Obligations.StepRunsTheDecodedInstruction : Prop :=
  (∀ (s : State) (c : Ctx) i, AtWord s c → issuedWord c = .ok i → step s = exec i s.tick)
    ∧ (∀ (s : State) h r, s.agenda = h :: r → step s = exec h.step { ({ s with agenda := r } : State).tick with req := h.req })
    ∧ ∀ s : State, (s.teamsWhere fun _ t => t.groups.any fun kg => kg.2.barred) = [] →
      s.tick.cycle = s.cycle + 1 ∧ s.tick.mem = s.mem ∧ s.tick.memTags = s.memTags
        ∧ ∀ i g, s.group i = some g → ∃ h, s.tick.group i = some h ∧ ({ h with splits := g.splits } : Group) = g
          ∧ ∀ k, (NMap.find h.splits k).map unaged = (NMap.find g.splits k).map unaged

/-- R112, R113: a word with an undefined opcode raises ILLEGAL_OP, and a word whose fields R112 refuses raises RESERVED_FIELD, or PRIVILEGE where
a K group names what only level S may write: precisely at the word, for every lane of its split, and with no other effect; ACTIVE are the lanes that raised it. -/
def Obligations.MalformedWordsTrap : Prop :=
  (∀ cls w (s : State) (c : Ctx), s.issuer = some c → c.g.cur = none → c.g.lateMarks = [] →
    Runs (.illegalOp cls w) s (Raises c s .illegalOp c.p.lanes 0))
  ∧ ∀ (s : State) (c : Ctx) sOnly, AtWord s c → issuedWord c = .error (.reservedField sOnly) → c.g.cur = none → c.g.lateMarks = [] →
    ∃ t, step s = .next t ∧ Raises c s.tick (if sOnly = true ∧ c.team.sLevel = false then .privilege else .reservedField) (refusedLanes c) 0 t

/-- The memory keeps its canonical form (addresses strictly rising, no entry that an unlisted address reads as) through every step. -/
def Obligations.EveryStepKeepsTheMemoryForm : Prop := ∀ s t : State, s.MemoryWf → step s = .next t → t.MemoryWf

/-- R74, R222, R436, R440: after reset no tenant, team or grid is there, no memory byte is listed, every queue is OFF with its registers zero,
every mailbox is idle, each bucket names slice b mod 576 and is not frozen, and debug is locked. -/
def Obligations.ResetLeavesTheDeviceEmpty : Prop :=
  let s := State.reset
  s.MemoryWf ∧ s.mem = [] ∧ (∀ a, s.byteAt a = Config.unwrittenByte) ∧ (∀ c sl, s.team c sl = none) ∧ (∀ n, s.grid n = none)
    ∧ (∀ k, (s.queue k).st = .off ∧ (s.queue k).qcb = 0 ∧ (s.queue k).kind = 0 ∧ (s.queue k).code = 0 ∧ (s.queue k).limit = 0)
    ∧ (∀ n, (s.tenant n).entry = 0) ∧ (∀ k, (s.mailbox k).busy = false ∧ (s.mailbox k).cmd = 0)
    ∧ (∀ d b, (s.die d).bucket b = ⟨false, b % 576⟩) ∧ s.pkg.debugUnlocked = false
end
end

