-- ==== Sys2Proof/Laws/State.lean ====
section
/-! SUPPORT. What each update of the state leaves and changes: one lemma for each field and update. -/
namespace Sys2Proof.Machine

section
variable (s : State)

@[simp] theorem State.setCore_cycle (c : Nat) (k : Core) : (s.setCore c k).cycle = s.cycle := rfl
@[simp] theorem State.setCore_time (c : Nat) (k : Core) : (s.setCore c k).time = s.time := rfl
@[simp] theorem State.setCore_agenda (c : Nat) (k : Core) : (s.setCore c k).agenda = s.agenda := rfl
@[simp] theorem State.setCore_req (c : Nat) (k : Core) : (s.setCore c k).req = s.req := rfl
@[simp] theorem State.setCore_focus (c : Nat) (k : Core) : (s.setCore c k).focus = s.focus := rfl
@[simp] theorem State.setCore_pkg (c : Nat) (k : Core) : (s.setCore c k).pkg = s.pkg := rfl
@[simp] theorem State.setCore_mem (c : Nat) (k : Core) : (s.setCore c k).mem = s.mem := rfl
@[simp] theorem State.setCore_memTags (c : Nat) (k : Core) : (s.setCore c k).memTags = s.memTags := rfl
@[simp] theorem State.setCore_badLines (c : Nat) (k : Core) : (s.setCore c k).badLines = s.badLines := rfl
@[simp] theorem State.setCore_macBad (c : Nat) (k : Core) : (s.setCore c k).macBad = s.macBad := rfl
@[simp] theorem State.setCore_dir (c : Nat) (k : Core) : (s.setCore c k).dir = s.dir := rfl
@[simp] theorem State.setCore_copies (c : Nat) (k : Core) : (s.setCore c k).copies = s.copies := rfl
@[simp] theorem State.setCore_ctrls (c : Nat) (k : Core) : (s.setCore c k).ctrls = s.ctrls := rfl
@[simp] theorem State.setCore_cores (c : Nat) (k : Core) : (s.setCore c k).cores = NMap.set s.cores c k := rfl
@[simp] theorem State.setCore_dies (c : Nat) (k : Core) : (s.setCore c k).dies = s.dies := rfl
@[simp] theorem State.setCore_queues (c : Nat) (k : Core) : (s.setCore c k).queues = s.queues := rfl
@[simp] theorem State.setCore_grids (c : Nat) (k : Core) : (s.setCore c k).grids = s.grids := rfl
@[simp] theorem State.setCore_clusters (c : Nat) (k : Core) : (s.setCore c k).clusters = s.clusters := rfl
@[simp] theorem State.setCore_images (c : Nat) (k : Core) : (s.setCore c k).images = s.images := rfl
@[simp] theorem State.setCore_tenants (c : Nat) (k : Core) : (s.setCore c k).tenants = s.tenants := rfl
@[simp] theorem State.setCore_worlds (c : Nat) (k : Core) : (s.setCore c k).worlds = s.worlds := rfl
@[simp] theorem State.setCore_packets (c : Nat) (k : Core) : (s.setCore c k).packets = s.packets := rfl
@[simp] theorem State.setCore_peers (c : Nat) (k : Core) : (s.setCore c k).peers = s.peers := rfl
@[simp] theorem State.setCore_ports (c : Nat) (k : Core) : (s.setCore c k).ports = s.ports := rfl
@[simp] theorem State.setCore_portTurns (c : Nat) (k : Core) : (s.setCore c k).portTurns = s.portTurns := rfl
@[simp] theorem State.setCore_mailboxes (c : Nat) (k : Core) : (s.setCore c k).mailboxes = s.mailboxes := rfl
@[simp] theorem State.setCore_sEvents (c : Nat) (k : Core) : (s.setCore c k).sEvents = s.sEvents := rfl
@[simp] theorem State.setCore_hostReplies (c : Nat) (k : Core) : (s.setCore c k).hostReplies = s.hostReplies := rfl
@[simp] theorem State.modCore_cycle (c : Nat) (f : Core → Core) : (s.modCore c f).cycle = s.cycle := rfl
@[simp] theorem State.modCore_time (c : Nat) (f : Core → Core) : (s.modCore c f).time = s.time := rfl
@[simp] theorem State.modCore_agenda (c : Nat) (f : Core → Core) : (s.modCore c f).agenda = s.agenda := rfl
@[simp] theorem State.modCore_req (c : Nat) (f : Core → Core) : (s.modCore c f).req = s.req := rfl
@[simp] theorem State.modCore_focus (c : Nat) (f : Core → Core) : (s.modCore c f).focus = s.focus := rfl
@[simp] theorem State.modCore_pkg (c : Nat) (f : Core → Core) : (s.modCore c f).pkg = s.pkg := rfl
@[simp] theorem State.modCore_mem (c : Nat) (f : Core → Core) : (s.modCore c f).mem = s.mem := rfl
@[simp] theorem State.modCore_memTags (c : Nat) (f : Core → Core) : (s.modCore c f).memTags = s.memTags := rfl
@[simp] theorem State.modCore_badLines (c : Nat) (f : Core → Core) : (s.modCore c f).badLines = s.badLines := rfl
@[simp] theorem State.modCore_macBad (c : Nat) (f : Core → Core) : (s.modCore c f).macBad = s.macBad := rfl
@[simp] theorem State.modCore_dir (c : Nat) (f : Core → Core) : (s.modCore c f).dir = s.dir := rfl
@[simp] theorem State.modCore_copies (c : Nat) (f : Core → Core) : (s.modCore c f).copies = s.copies := rfl
@[simp] theorem State.modCore_ctrls (c : Nat) (f : Core → Core) : (s.modCore c f).ctrls = s.ctrls := rfl
@[simp] theorem State.modCore_cores (c : Nat) (f : Core → Core) : (s.modCore c f).cores = NMap.set s.cores c (f (s.core c)) := rfl
@[simp] theorem State.modCore_dies (c : Nat) (f : Core → Core) : (s.modCore c f).dies = s.dies := rfl
@[simp] theorem State.modCore_queues (c : Nat) (f : Core → Core) : (s.modCore c f).queues = s.queues := rfl
@[simp] theorem State.modCore_grids (c : Nat) (f : Core → Core) : (s.modCore c f).grids = s.grids := rfl
@[simp] theorem State.modCore_clusters (c : Nat) (f : Core → Core) : (s.modCore c f).clusters = s.clusters := rfl
@[simp] theorem State.modCore_images (c : Nat) (f : Core → Core) : (s.modCore c f).images = s.images := rfl
@[simp] theorem State.modCore_tenants (c : Nat) (f : Core → Core) : (s.modCore c f).tenants = s.tenants := rfl
@[simp] theorem State.modCore_worlds (c : Nat) (f : Core → Core) : (s.modCore c f).worlds = s.worlds := rfl
@[simp] theorem State.modCore_packets (c : Nat) (f : Core → Core) : (s.modCore c f).packets = s.packets := rfl
@[simp] theorem State.modCore_peers (c : Nat) (f : Core → Core) : (s.modCore c f).peers = s.peers := rfl
@[simp] theorem State.modCore_ports (c : Nat) (f : Core → Core) : (s.modCore c f).ports = s.ports := rfl
@[simp] theorem State.modCore_portTurns (c : Nat) (f : Core → Core) : (s.modCore c f).portTurns = s.portTurns := rfl
@[simp] theorem State.modCore_mailboxes (c : Nat) (f : Core → Core) : (s.modCore c f).mailboxes = s.mailboxes := rfl
@[simp] theorem State.modCore_sEvents (c : Nat) (f : Core → Core) : (s.modCore c f).sEvents = s.sEvents := rfl
@[simp] theorem State.modCore_hostReplies (c : Nat) (f : Core → Core) : (s.modCore c f).hostReplies = s.hostReplies := rfl
@[simp] theorem State.setDie_cycle (d : Nat) (k : Die) : (s.setDie d k).cycle = s.cycle := rfl
@[simp] theorem State.setDie_time (d : Nat) (k : Die) : (s.setDie d k).time = s.time := rfl
@[simp] theorem State.setDie_agenda (d : Nat) (k : Die) : (s.setDie d k).agenda = s.agenda := rfl
@[simp] theorem State.setDie_req (d : Nat) (k : Die) : (s.setDie d k).req = s.req := rfl
@[simp] theorem State.setDie_focus (d : Nat) (k : Die) : (s.setDie d k).focus = s.focus := rfl
@[simp] theorem State.setDie_pkg (d : Nat) (k : Die) : (s.setDie d k).pkg = s.pkg := rfl
@[simp] theorem State.setDie_mem (d : Nat) (k : Die) : (s.setDie d k).mem = s.mem := rfl
@[simp] theorem State.setDie_memTags (d : Nat) (k : Die) : (s.setDie d k).memTags = s.memTags := rfl
@[simp] theorem State.setDie_badLines (d : Nat) (k : Die) : (s.setDie d k).badLines = s.badLines := rfl
@[simp] theorem State.setDie_macBad (d : Nat) (k : Die) : (s.setDie d k).macBad = s.macBad := rfl
@[simp] theorem State.setDie_dir (d : Nat) (k : Die) : (s.setDie d k).dir = s.dir := rfl
@[simp] theorem State.setDie_copies (d : Nat) (k : Die) : (s.setDie d k).copies = s.copies := rfl
@[simp] theorem State.setDie_ctrls (d : Nat) (k : Die) : (s.setDie d k).ctrls = s.ctrls := rfl
@[simp] theorem State.setDie_cores (d : Nat) (k : Die) : (s.setDie d k).cores = s.cores := rfl
@[simp] theorem State.setDie_dies (d : Nat) (k : Die) : (s.setDie d k).dies = NMap.set s.dies d k := rfl
@[simp] theorem State.setDie_queues (d : Nat) (k : Die) : (s.setDie d k).queues = s.queues := rfl
@[simp] theorem State.setDie_grids (d : Nat) (k : Die) : (s.setDie d k).grids = s.grids := rfl
@[simp] theorem State.setDie_clusters (d : Nat) (k : Die) : (s.setDie d k).clusters = s.clusters := rfl
@[simp] theorem State.setDie_images (d : Nat) (k : Die) : (s.setDie d k).images = s.images := rfl
@[simp] theorem State.setDie_tenants (d : Nat) (k : Die) : (s.setDie d k).tenants = s.tenants := rfl
@[simp] theorem State.setDie_worlds (d : Nat) (k : Die) : (s.setDie d k).worlds = s.worlds := rfl
@[simp] theorem State.setDie_packets (d : Nat) (k : Die) : (s.setDie d k).packets = s.packets := rfl
@[simp] theorem State.setDie_peers (d : Nat) (k : Die) : (s.setDie d k).peers = s.peers := rfl
@[simp] theorem State.setDie_ports (d : Nat) (k : Die) : (s.setDie d k).ports = s.ports := rfl
@[simp] theorem State.setDie_portTurns (d : Nat) (k : Die) : (s.setDie d k).portTurns = s.portTurns := rfl
@[simp] theorem State.setDie_mailboxes (d : Nat) (k : Die) : (s.setDie d k).mailboxes = s.mailboxes := rfl
@[simp] theorem State.setDie_sEvents (d : Nat) (k : Die) : (s.setDie d k).sEvents = s.sEvents := rfl
@[simp] theorem State.setDie_hostReplies (d : Nat) (k : Die) : (s.setDie d k).hostReplies = s.hostReplies := rfl
@[simp] theorem State.setTenant_cycle (n : Nat) (t : Tenant) : (s.setTenant n t).cycle = s.cycle := rfl
@[simp] theorem State.setTenant_time (n : Nat) (t : Tenant) : (s.setTenant n t).time = s.time := rfl
@[simp] theorem State.setTenant_agenda (n : Nat) (t : Tenant) : (s.setTenant n t).agenda = s.agenda := rfl
@[simp] theorem State.setTenant_req (n : Nat) (t : Tenant) : (s.setTenant n t).req = s.req := rfl
@[simp] theorem State.setTenant_focus (n : Nat) (t : Tenant) : (s.setTenant n t).focus = s.focus := rfl
@[simp] theorem State.setTenant_pkg (n : Nat) (t : Tenant) : (s.setTenant n t).pkg = s.pkg := rfl
@[simp] theorem State.setTenant_mem (n : Nat) (t : Tenant) : (s.setTenant n t).mem = s.mem := rfl
@[simp] theorem State.setTenant_memTags (n : Nat) (t : Tenant) : (s.setTenant n t).memTags = s.memTags := rfl
@[simp] theorem State.setTenant_badLines (n : Nat) (t : Tenant) : (s.setTenant n t).badLines = s.badLines := rfl
@[simp] theorem State.setTenant_macBad (n : Nat) (t : Tenant) : (s.setTenant n t).macBad = s.macBad := rfl
@[simp] theorem State.setTenant_dir (n : Nat) (t : Tenant) : (s.setTenant n t).dir = s.dir := rfl
@[simp] theorem State.setTenant_copies (n : Nat) (t : Tenant) : (s.setTenant n t).copies = s.copies := rfl
@[simp] theorem State.setTenant_ctrls (n : Nat) (t : Tenant) : (s.setTenant n t).ctrls = s.ctrls := rfl
@[simp] theorem State.setTenant_cores (n : Nat) (t : Tenant) : (s.setTenant n t).cores = s.cores := rfl
@[simp] theorem State.setTenant_dies (n : Nat) (t : Tenant) : (s.setTenant n t).dies = s.dies := rfl
@[simp] theorem State.setTenant_queues (n : Nat) (t : Tenant) : (s.setTenant n t).queues = s.queues := rfl
@[simp] theorem State.setTenant_grids (n : Nat) (t : Tenant) : (s.setTenant n t).grids = s.grids := rfl
@[simp] theorem State.setTenant_clusters (n : Nat) (t : Tenant) : (s.setTenant n t).clusters = s.clusters := rfl
@[simp] theorem State.setTenant_images (n : Nat) (t : Tenant) : (s.setTenant n t).images = s.images := rfl
@[simp] theorem State.setTenant_tenants (n : Nat) (t : Tenant) : (s.setTenant n t).tenants = NMap.set s.tenants n t := rfl
@[simp] theorem State.setTenant_worlds (n : Nat) (t : Tenant) : (s.setTenant n t).worlds = s.worlds := rfl
@[simp] theorem State.setTenant_packets (n : Nat) (t : Tenant) : (s.setTenant n t).packets = s.packets := rfl
@[simp] theorem State.setTenant_peers (n : Nat) (t : Tenant) : (s.setTenant n t).peers = s.peers := rfl
@[simp] theorem State.setTenant_ports (n : Nat) (t : Tenant) : (s.setTenant n t).ports = s.ports := rfl
@[simp] theorem State.setTenant_portTurns (n : Nat) (t : Tenant) : (s.setTenant n t).portTurns = s.portTurns := rfl
@[simp] theorem State.setTenant_mailboxes (n : Nat) (t : Tenant) : (s.setTenant n t).mailboxes = s.mailboxes := rfl
@[simp] theorem State.setTenant_sEvents (n : Nat) (t : Tenant) : (s.setTenant n t).sEvents = s.sEvents := rfl
@[simp] theorem State.setTenant_hostReplies (n : Nat) (t : Tenant) : (s.setTenant n t).hostReplies = s.hostReplies := rfl
@[simp] theorem State.setQueue_cycle (k : Nat) (q : Queue) : (s.setQueue k q).cycle = s.cycle := rfl
@[simp] theorem State.setQueue_time (k : Nat) (q : Queue) : (s.setQueue k q).time = s.time := rfl
@[simp] theorem State.setQueue_agenda (k : Nat) (q : Queue) : (s.setQueue k q).agenda = s.agenda := rfl
@[simp] theorem State.setQueue_req (k : Nat) (q : Queue) : (s.setQueue k q).req = s.req := rfl
@[simp] theorem State.setQueue_focus (k : Nat) (q : Queue) : (s.setQueue k q).focus = s.focus := rfl
@[simp] theorem State.setQueue_pkg (k : Nat) (q : Queue) : (s.setQueue k q).pkg = s.pkg := rfl
@[simp] theorem State.setQueue_mem (k : Nat) (q : Queue) : (s.setQueue k q).mem = s.mem := rfl
@[simp] theorem State.setQueue_memTags (k : Nat) (q : Queue) : (s.setQueue k q).memTags = s.memTags := rfl
@[simp] theorem State.setQueue_badLines (k : Nat) (q : Queue) : (s.setQueue k q).badLines = s.badLines := rfl
@[simp] theorem State.setQueue_macBad (k : Nat) (q : Queue) : (s.setQueue k q).macBad = s.macBad := rfl
@[simp] theorem State.setQueue_dir (k : Nat) (q : Queue) : (s.setQueue k q).dir = s.dir := rfl
@[simp] theorem State.setQueue_copies (k : Nat) (q : Queue) : (s.setQueue k q).copies = s.copies := rfl
@[simp] theorem State.setQueue_ctrls (k : Nat) (q : Queue) : (s.setQueue k q).ctrls = s.ctrls := rfl
@[simp] theorem State.setQueue_cores (k : Nat) (q : Queue) : (s.setQueue k q).cores = s.cores := rfl
@[simp] theorem State.setQueue_dies (k : Nat) (q : Queue) : (s.setQueue k q).dies = s.dies := rfl
@[simp] theorem State.setQueue_queues (k : Nat) (q : Queue) : (s.setQueue k q).queues = NMap.set s.queues k q := rfl
@[simp] theorem State.setQueue_grids (k : Nat) (q : Queue) : (s.setQueue k q).grids = s.grids := rfl
@[simp] theorem State.setQueue_clusters (k : Nat) (q : Queue) : (s.setQueue k q).clusters = s.clusters := rfl
@[simp] theorem State.setQueue_images (k : Nat) (q : Queue) : (s.setQueue k q).images = s.images := rfl
@[simp] theorem State.setQueue_tenants (k : Nat) (q : Queue) : (s.setQueue k q).tenants = s.tenants := rfl
@[simp] theorem State.setQueue_worlds (k : Nat) (q : Queue) : (s.setQueue k q).worlds = s.worlds := rfl
@[simp] theorem State.setQueue_packets (k : Nat) (q : Queue) : (s.setQueue k q).packets = s.packets := rfl
@[simp] theorem State.setQueue_peers (k : Nat) (q : Queue) : (s.setQueue k q).peers = s.peers := rfl
@[simp] theorem State.setQueue_ports (k : Nat) (q : Queue) : (s.setQueue k q).ports = s.ports := rfl
@[simp] theorem State.setQueue_portTurns (k : Nat) (q : Queue) : (s.setQueue k q).portTurns = s.portTurns := rfl
@[simp] theorem State.setQueue_mailboxes (k : Nat) (q : Queue) : (s.setQueue k q).mailboxes = s.mailboxes := rfl
@[simp] theorem State.setQueue_sEvents (k : Nat) (q : Queue) : (s.setQueue k q).sEvents = s.sEvents := rfl
@[simp] theorem State.setQueue_hostReplies (k : Nat) (q : Queue) : (s.setQueue k q).hostReplies = s.hostReplies := rfl
@[simp] theorem State.setGrid_cycle (n : Nat) (g : Grid) : (s.setGrid n g).cycle = s.cycle := rfl
@[simp] theorem State.setGrid_time (n : Nat) (g : Grid) : (s.setGrid n g).time = s.time := rfl
@[simp] theorem State.setGrid_agenda (n : Nat) (g : Grid) : (s.setGrid n g).agenda = s.agenda := rfl
@[simp] theorem State.setGrid_req (n : Nat) (g : Grid) : (s.setGrid n g).req = s.req := rfl
@[simp] theorem State.setGrid_focus (n : Nat) (g : Grid) : (s.setGrid n g).focus = s.focus := rfl
@[simp] theorem State.setGrid_pkg (n : Nat) (g : Grid) : (s.setGrid n g).pkg = s.pkg := rfl
@[simp] theorem State.setGrid_mem (n : Nat) (g : Grid) : (s.setGrid n g).mem = s.mem := rfl
@[simp] theorem State.setGrid_memTags (n : Nat) (g : Grid) : (s.setGrid n g).memTags = s.memTags := rfl
@[simp] theorem State.setGrid_badLines (n : Nat) (g : Grid) : (s.setGrid n g).badLines = s.badLines := rfl
@[simp] theorem State.setGrid_macBad (n : Nat) (g : Grid) : (s.setGrid n g).macBad = s.macBad := rfl
@[simp] theorem State.setGrid_dir (n : Nat) (g : Grid) : (s.setGrid n g).dir = s.dir := rfl
@[simp] theorem State.setGrid_copies (n : Nat) (g : Grid) : (s.setGrid n g).copies = s.copies := rfl
@[simp] theorem State.setGrid_ctrls (n : Nat) (g : Grid) : (s.setGrid n g).ctrls = s.ctrls := rfl
@[simp] theorem State.setGrid_cores (n : Nat) (g : Grid) : (s.setGrid n g).cores = s.cores := rfl
@[simp] theorem State.setGrid_dies (n : Nat) (g : Grid) : (s.setGrid n g).dies = s.dies := rfl
@[simp] theorem State.setGrid_queues (n : Nat) (g : Grid) : (s.setGrid n g).queues = s.queues := rfl
@[simp] theorem State.setGrid_grids (n : Nat) (g : Grid) : (s.setGrid n g).grids = NMap.set s.grids n g := rfl
@[simp] theorem State.setGrid_clusters (n : Nat) (g : Grid) : (s.setGrid n g).clusters = s.clusters := rfl
@[simp] theorem State.setGrid_images (n : Nat) (g : Grid) : (s.setGrid n g).images = s.images := rfl
@[simp] theorem State.setGrid_tenants (n : Nat) (g : Grid) : (s.setGrid n g).tenants = s.tenants := rfl
@[simp] theorem State.setGrid_worlds (n : Nat) (g : Grid) : (s.setGrid n g).worlds = s.worlds := rfl
@[simp] theorem State.setGrid_packets (n : Nat) (g : Grid) : (s.setGrid n g).packets = s.packets := rfl
@[simp] theorem State.setGrid_peers (n : Nat) (g : Grid) : (s.setGrid n g).peers = s.peers := rfl
@[simp] theorem State.setGrid_ports (n : Nat) (g : Grid) : (s.setGrid n g).ports = s.ports := rfl
@[simp] theorem State.setGrid_portTurns (n : Nat) (g : Grid) : (s.setGrid n g).portTurns = s.portTurns := rfl
@[simp] theorem State.setGrid_mailboxes (n : Nat) (g : Grid) : (s.setGrid n g).mailboxes = s.mailboxes := rfl
@[simp] theorem State.setGrid_sEvents (n : Nat) (g : Grid) : (s.setGrid n g).sEvents = s.sEvents := rfl
@[simp] theorem State.setGrid_hostReplies (n : Nat) (g : Grid) : (s.setGrid n g).hostReplies = s.hostReplies := rfl
@[simp] theorem State.post_cycle (i : Instr) : (s.post i).cycle = s.cycle := rfl
@[simp] theorem State.post_time (i : Instr) : (s.post i).time = s.time := rfl
@[simp] theorem State.post_agenda (i : Instr) : (s.post i).agenda = s.agenda ++ [⟨i, Request.zero⟩] := rfl
@[simp] theorem State.post_req (i : Instr) : (s.post i).req = s.req := rfl
@[simp] theorem State.post_focus (i : Instr) : (s.post i).focus = s.focus := rfl
@[simp] theorem State.post_pkg (i : Instr) : (s.post i).pkg = s.pkg := rfl
@[simp] theorem State.post_mem (i : Instr) : (s.post i).mem = s.mem := rfl
@[simp] theorem State.post_memTags (i : Instr) : (s.post i).memTags = s.memTags := rfl
@[simp] theorem State.post_badLines (i : Instr) : (s.post i).badLines = s.badLines := rfl
@[simp] theorem State.post_macBad (i : Instr) : (s.post i).macBad = s.macBad := rfl
@[simp] theorem State.post_dir (i : Instr) : (s.post i).dir = s.dir := rfl
@[simp] theorem State.post_copies (i : Instr) : (s.post i).copies = s.copies := rfl
@[simp] theorem State.post_ctrls (i : Instr) : (s.post i).ctrls = s.ctrls := rfl
@[simp] theorem State.post_cores (i : Instr) : (s.post i).cores = s.cores := rfl
@[simp] theorem State.post_dies (i : Instr) : (s.post i).dies = s.dies := rfl
@[simp] theorem State.post_queues (i : Instr) : (s.post i).queues = s.queues := rfl
@[simp] theorem State.post_grids (i : Instr) : (s.post i).grids = s.grids := rfl
@[simp] theorem State.post_clusters (i : Instr) : (s.post i).clusters = s.clusters := rfl
@[simp] theorem State.post_images (i : Instr) : (s.post i).images = s.images := rfl
@[simp] theorem State.post_tenants (i : Instr) : (s.post i).tenants = s.tenants := rfl
@[simp] theorem State.post_worlds (i : Instr) : (s.post i).worlds = s.worlds := rfl
@[simp] theorem State.post_packets (i : Instr) : (s.post i).packets = s.packets := rfl
@[simp] theorem State.post_peers (i : Instr) : (s.post i).peers = s.peers := rfl
@[simp] theorem State.post_ports (i : Instr) : (s.post i).ports = s.ports := rfl
@[simp] theorem State.post_portTurns (i : Instr) : (s.post i).portTurns = s.portTurns := rfl
@[simp] theorem State.post_mailboxes (i : Instr) : (s.post i).mailboxes = s.mailboxes := rfl
@[simp] theorem State.post_sEvents (i : Instr) : (s.post i).sEvents = s.sEvents := rfl
@[simp] theorem State.post_hostReplies (i : Instr) : (s.post i).hostReplies = s.hostReplies := rfl
@[simp] theorem State.postReq_cycle (i : Instr) (r : Request) : (s.postReq i r).cycle = s.cycle := rfl
@[simp] theorem State.postReq_time (i : Instr) (r : Request) : (s.postReq i r).time = s.time := rfl
@[simp] theorem State.postReq_agenda (i : Instr) (r : Request) : (s.postReq i r).agenda = s.agenda ++ [⟨i, r⟩] := rfl
@[simp] theorem State.postReq_req (i : Instr) (r : Request) : (s.postReq i r).req = s.req := rfl
@[simp] theorem State.postReq_focus (i : Instr) (r : Request) : (s.postReq i r).focus = s.focus := rfl
@[simp] theorem State.postReq_pkg (i : Instr) (r : Request) : (s.postReq i r).pkg = s.pkg := rfl
@[simp] theorem State.postReq_mem (i : Instr) (r : Request) : (s.postReq i r).mem = s.mem := rfl
@[simp] theorem State.postReq_memTags (i : Instr) (r : Request) : (s.postReq i r).memTags = s.memTags := rfl
@[simp] theorem State.postReq_badLines (i : Instr) (r : Request) : (s.postReq i r).badLines = s.badLines := rfl
@[simp] theorem State.postReq_macBad (i : Instr) (r : Request) : (s.postReq i r).macBad = s.macBad := rfl
@[simp] theorem State.postReq_dir (i : Instr) (r : Request) : (s.postReq i r).dir = s.dir := rfl
@[simp] theorem State.postReq_copies (i : Instr) (r : Request) : (s.postReq i r).copies = s.copies := rfl
@[simp] theorem State.postReq_ctrls (i : Instr) (r : Request) : (s.postReq i r).ctrls = s.ctrls := rfl
@[simp] theorem State.postReq_cores (i : Instr) (r : Request) : (s.postReq i r).cores = s.cores := rfl
@[simp] theorem State.postReq_dies (i : Instr) (r : Request) : (s.postReq i r).dies = s.dies := rfl
@[simp] theorem State.postReq_queues (i : Instr) (r : Request) : (s.postReq i r).queues = s.queues := rfl
@[simp] theorem State.postReq_grids (i : Instr) (r : Request) : (s.postReq i r).grids = s.grids := rfl
@[simp] theorem State.postReq_clusters (i : Instr) (r : Request) : (s.postReq i r).clusters = s.clusters := rfl
@[simp] theorem State.postReq_images (i : Instr) (r : Request) : (s.postReq i r).images = s.images := rfl
@[simp] theorem State.postReq_tenants (i : Instr) (r : Request) : (s.postReq i r).tenants = s.tenants := rfl
@[simp] theorem State.postReq_worlds (i : Instr) (r : Request) : (s.postReq i r).worlds = s.worlds := rfl
@[simp] theorem State.postReq_packets (i : Instr) (r : Request) : (s.postReq i r).packets = s.packets := rfl
@[simp] theorem State.postReq_peers (i : Instr) (r : Request) : (s.postReq i r).peers = s.peers := rfl
@[simp] theorem State.postReq_ports (i : Instr) (r : Request) : (s.postReq i r).ports = s.ports := rfl
@[simp] theorem State.postReq_portTurns (i : Instr) (r : Request) : (s.postReq i r).portTurns = s.portTurns := rfl
@[simp] theorem State.postReq_mailboxes (i : Instr) (r : Request) : (s.postReq i r).mailboxes = s.mailboxes := rfl
@[simp] theorem State.postReq_sEvents (i : Instr) (r : Request) : (s.postReq i r).sEvents = s.sEvents := rfl
@[simp] theorem State.postReq_hostReplies (i : Instr) (r : Request) : (s.postReq i r).hostReplies = s.hostReplies := rfl
@[simp] theorem State.useId_cycle : (s.useId ).cycle = s.cycle := rfl
@[simp] theorem State.useId_time : (s.useId ).time = s.time := rfl
@[simp] theorem State.useId_agenda : (s.useId ).agenda = s.agenda := rfl
@[simp] theorem State.useId_req : (s.useId ).req = s.req := rfl
@[simp] theorem State.useId_focus : (s.useId ).focus = s.focus := rfl
@[simp] theorem State.useId_pkg : (s.useId ).pkg = { s.pkg with nextId := s.pkg.nextId + 1 } := rfl
@[simp] theorem State.useId_mem : (s.useId ).mem = s.mem := rfl
@[simp] theorem State.useId_memTags : (s.useId ).memTags = s.memTags := rfl
@[simp] theorem State.useId_badLines : (s.useId ).badLines = s.badLines := rfl
@[simp] theorem State.useId_macBad : (s.useId ).macBad = s.macBad := rfl
@[simp] theorem State.useId_dir : (s.useId ).dir = s.dir := rfl
@[simp] theorem State.useId_copies : (s.useId ).copies = s.copies := rfl
@[simp] theorem State.useId_ctrls : (s.useId ).ctrls = s.ctrls := rfl
@[simp] theorem State.useId_cores : (s.useId ).cores = s.cores := rfl
@[simp] theorem State.useId_dies : (s.useId ).dies = s.dies := rfl
@[simp] theorem State.useId_queues : (s.useId ).queues = s.queues := rfl
@[simp] theorem State.useId_grids : (s.useId ).grids = s.grids := rfl
@[simp] theorem State.useId_clusters : (s.useId ).clusters = s.clusters := rfl
@[simp] theorem State.useId_images : (s.useId ).images = s.images := rfl
@[simp] theorem State.useId_tenants : (s.useId ).tenants = s.tenants := rfl
@[simp] theorem State.useId_worlds : (s.useId ).worlds = s.worlds := rfl
@[simp] theorem State.useId_packets : (s.useId ).packets = s.packets := rfl
@[simp] theorem State.useId_peers : (s.useId ).peers = s.peers := rfl
@[simp] theorem State.useId_ports : (s.useId ).ports = s.ports := rfl
@[simp] theorem State.useId_portTurns : (s.useId ).portTurns = s.portTurns := rfl
@[simp] theorem State.useId_mailboxes : (s.useId ).mailboxes = s.mailboxes := rfl
@[simp] theorem State.useId_sEvents : (s.useId ).sEvents = s.sEvents := rfl
@[simp] theorem State.useId_hostReplies : (s.useId ).hostReplies = s.hostReplies := rfl
@[simp] theorem State.useFree_cycle : (s.useFree ).cycle = s.cycle := rfl
@[simp] theorem State.useFree_time : (s.useFree ).time = s.time := rfl
@[simp] theorem State.useFree_agenda : (s.useFree ).agenda = s.agenda := rfl
@[simp] theorem State.useFree_req : (s.useFree ).req = s.req := rfl
@[simp] theorem State.useFree_focus : (s.useFree ).focus = s.focus := rfl
@[simp] theorem State.useFree_pkg : (s.useFree ).pkg = { s.pkg with freeCount := s.pkg.freeCount + 1 } := rfl
@[simp] theorem State.useFree_mem : (s.useFree ).mem = s.mem := rfl
@[simp] theorem State.useFree_memTags : (s.useFree ).memTags = s.memTags := rfl
@[simp] theorem State.useFree_badLines : (s.useFree ).badLines = s.badLines := rfl
@[simp] theorem State.useFree_macBad : (s.useFree ).macBad = s.macBad := rfl
@[simp] theorem State.useFree_dir : (s.useFree ).dir = s.dir := rfl
@[simp] theorem State.useFree_copies : (s.useFree ).copies = s.copies := rfl
@[simp] theorem State.useFree_ctrls : (s.useFree ).ctrls = s.ctrls := rfl
@[simp] theorem State.useFree_cores : (s.useFree ).cores = s.cores := rfl
@[simp] theorem State.useFree_dies : (s.useFree ).dies = s.dies := rfl
@[simp] theorem State.useFree_queues : (s.useFree ).queues = s.queues := rfl
@[simp] theorem State.useFree_grids : (s.useFree ).grids = s.grids := rfl
@[simp] theorem State.useFree_clusters : (s.useFree ).clusters = s.clusters := rfl
@[simp] theorem State.useFree_images : (s.useFree ).images = s.images := rfl
@[simp] theorem State.useFree_tenants : (s.useFree ).tenants = s.tenants := rfl
@[simp] theorem State.useFree_worlds : (s.useFree ).worlds = s.worlds := rfl
@[simp] theorem State.useFree_packets : (s.useFree ).packets = s.packets := rfl
@[simp] theorem State.useFree_peers : (s.useFree ).peers = s.peers := rfl
@[simp] theorem State.useFree_ports : (s.useFree ).ports = s.ports := rfl
@[simp] theorem State.useFree_portTurns : (s.useFree ).portTurns = s.portTurns := rfl
@[simp] theorem State.useFree_mailboxes : (s.useFree ).mailboxes = s.mailboxes := rfl
@[simp] theorem State.useFree_sEvents : (s.useFree ).sEvents = s.sEvents := rfl
@[simp] theorem State.useFree_hostReplies : (s.useFree ).hostReplies = s.hostReplies := rfl
@[simp] theorem State.putByte_cycle (a : Nat) (v : Byte) : (s.putByte a v).cycle = s.cycle := rfl
@[simp] theorem State.putByte_time (a : Nat) (v : Byte) : (s.putByte a v).time = s.time := rfl
@[simp] theorem State.putByte_agenda (a : Nat) (v : Byte) : (s.putByte a v).agenda = s.agenda := rfl
@[simp] theorem State.putByte_req (a : Nat) (v : Byte) : (s.putByte a v).req = s.req := rfl
@[simp] theorem State.putByte_focus (a : Nat) (v : Byte) : (s.putByte a v).focus = s.focus := rfl
@[simp] theorem State.putByte_pkg (a : Nat) (v : Byte) : (s.putByte a v).pkg = s.pkg := rfl
@[simp] theorem State.putByte_mem (a : Nat) (v : Byte) : (s.putByte a v).mem = memSet s.mem a v := rfl
@[simp] theorem State.putByte_memTags (a : Nat) (v : Byte) : (s.putByte a v).memTags = s.memTags := rfl
@[simp] theorem State.putByte_badLines (a : Nat) (v : Byte) : (s.putByte a v).badLines = s.badLines := rfl
@[simp] theorem State.putByte_macBad (a : Nat) (v : Byte) : (s.putByte a v).macBad = s.macBad := rfl
@[simp] theorem State.putByte_dir (a : Nat) (v : Byte) : (s.putByte a v).dir = s.dir := rfl
@[simp] theorem State.putByte_copies (a : Nat) (v : Byte) : (s.putByte a v).copies = s.copies := rfl
@[simp] theorem State.putByte_ctrls (a : Nat) (v : Byte) : (s.putByte a v).ctrls = s.ctrls := rfl
@[simp] theorem State.putByte_cores (a : Nat) (v : Byte) : (s.putByte a v).cores = s.cores := rfl
@[simp] theorem State.putByte_dies (a : Nat) (v : Byte) : (s.putByte a v).dies = s.dies := rfl
@[simp] theorem State.putByte_queues (a : Nat) (v : Byte) : (s.putByte a v).queues = s.queues := rfl
@[simp] theorem State.putByte_grids (a : Nat) (v : Byte) : (s.putByte a v).grids = s.grids := rfl
@[simp] theorem State.putByte_clusters (a : Nat) (v : Byte) : (s.putByte a v).clusters = s.clusters := rfl
@[simp] theorem State.putByte_images (a : Nat) (v : Byte) : (s.putByte a v).images = s.images := rfl
@[simp] theorem State.putByte_tenants (a : Nat) (v : Byte) : (s.putByte a v).tenants = s.tenants := rfl
@[simp] theorem State.putByte_worlds (a : Nat) (v : Byte) : (s.putByte a v).worlds = s.worlds := rfl
@[simp] theorem State.putByte_packets (a : Nat) (v : Byte) : (s.putByte a v).packets = s.packets := rfl
@[simp] theorem State.putByte_peers (a : Nat) (v : Byte) : (s.putByte a v).peers = s.peers := rfl
@[simp] theorem State.putByte_ports (a : Nat) (v : Byte) : (s.putByte a v).ports = s.ports := rfl
@[simp] theorem State.putByte_portTurns (a : Nat) (v : Byte) : (s.putByte a v).portTurns = s.portTurns := rfl
@[simp] theorem State.putByte_mailboxes (a : Nat) (v : Byte) : (s.putByte a v).mailboxes = s.mailboxes := rfl
@[simp] theorem State.putByte_sEvents (a : Nat) (v : Byte) : (s.putByte a v).sEvents = s.sEvents := rfl
@[simp] theorem State.putByte_hostReplies (a : Nat) (v : Byte) : (s.putByte a v).hostReplies = s.hostReplies := rfl
@[simp] theorem State.setGranuleTag_cycle (g : Nat) (t : Bool) : (s.setGranuleTag g t).cycle = s.cycle := rfl
@[simp] theorem State.setGranuleTag_time (g : Nat) (t : Bool) : (s.setGranuleTag g t).time = s.time := rfl
@[simp] theorem State.setGranuleTag_agenda (g : Nat) (t : Bool) : (s.setGranuleTag g t).agenda = s.agenda := rfl
@[simp] theorem State.setGranuleTag_req (g : Nat) (t : Bool) : (s.setGranuleTag g t).req = s.req := rfl
@[simp] theorem State.setGranuleTag_focus (g : Nat) (t : Bool) : (s.setGranuleTag g t).focus = s.focus := rfl
@[simp] theorem State.setGranuleTag_pkg (g : Nat) (t : Bool) : (s.setGranuleTag g t).pkg = s.pkg := rfl
@[simp] theorem State.setGranuleTag_mem (g : Nat) (t : Bool) : (s.setGranuleTag g t).mem = s.mem := rfl
@[simp] theorem State.setGranuleTag_badLines (g : Nat) (t : Bool) : (s.setGranuleTag g t).badLines = s.badLines := rfl
@[simp] theorem State.setGranuleTag_macBad (g : Nat) (t : Bool) : (s.setGranuleTag g t).macBad = s.macBad := rfl
@[simp] theorem State.setGranuleTag_dir (g : Nat) (t : Bool) : (s.setGranuleTag g t).dir = s.dir := rfl
@[simp] theorem State.setGranuleTag_copies (g : Nat) (t : Bool) : (s.setGranuleTag g t).copies = s.copies := rfl
@[simp] theorem State.setGranuleTag_ctrls (g : Nat) (t : Bool) : (s.setGranuleTag g t).ctrls = s.ctrls := rfl
@[simp] theorem State.setGranuleTag_cores (g : Nat) (t : Bool) : (s.setGranuleTag g t).cores = s.cores := rfl
@[simp] theorem State.setGranuleTag_dies (g : Nat) (t : Bool) : (s.setGranuleTag g t).dies = s.dies := rfl
@[simp] theorem State.setGranuleTag_queues (g : Nat) (t : Bool) : (s.setGranuleTag g t).queues = s.queues := rfl
@[simp] theorem State.setGranuleTag_grids (g : Nat) (t : Bool) : (s.setGranuleTag g t).grids = s.grids := rfl
@[simp] theorem State.setGranuleTag_clusters (g : Nat) (t : Bool) : (s.setGranuleTag g t).clusters = s.clusters := rfl
@[simp] theorem State.setGranuleTag_images (g : Nat) (t : Bool) : (s.setGranuleTag g t).images = s.images := rfl
@[simp] theorem State.setGranuleTag_tenants (g : Nat) (t : Bool) : (s.setGranuleTag g t).tenants = s.tenants := rfl
@[simp] theorem State.setGranuleTag_worlds (g : Nat) (t : Bool) : (s.setGranuleTag g t).worlds = s.worlds := rfl
@[simp] theorem State.setGranuleTag_packets (g : Nat) (t : Bool) : (s.setGranuleTag g t).packets = s.packets := rfl
@[simp] theorem State.setGranuleTag_peers (g : Nat) (t : Bool) : (s.setGranuleTag g t).peers = s.peers := rfl
@[simp] theorem State.setGranuleTag_ports (g : Nat) (t : Bool) : (s.setGranuleTag g t).ports = s.ports := rfl
@[simp] theorem State.setGranuleTag_portTurns (g : Nat) (t : Bool) : (s.setGranuleTag g t).portTurns = s.portTurns := rfl
@[simp] theorem State.setGranuleTag_mailboxes (g : Nat) (t : Bool) : (s.setGranuleTag g t).mailboxes = s.mailboxes := rfl
@[simp] theorem State.setGranuleTag_sEvents (g : Nat) (t : Bool) : (s.setGranuleTag g t).sEvents = s.sEvents := rfl
@[simp] theorem State.setGranuleTag_hostReplies (g : Nat) (t : Bool) : (s.setGranuleTag g t).hostReplies = s.hostReplies := rfl
@[simp] theorem State.dropPacket_cycle (id : Nat) : (s.dropPacket id).cycle = s.cycle := rfl
@[simp] theorem State.dropPacket_time (id : Nat) : (s.dropPacket id).time = s.time := rfl
@[simp] theorem State.dropPacket_agenda (id : Nat) : (s.dropPacket id).agenda = s.agenda := rfl
@[simp] theorem State.dropPacket_req (id : Nat) : (s.dropPacket id).req = s.req := rfl
@[simp] theorem State.dropPacket_focus (id : Nat) : (s.dropPacket id).focus = s.focus := rfl
@[simp] theorem State.dropPacket_pkg (id : Nat) : (s.dropPacket id).pkg = s.pkg := rfl
@[simp] theorem State.dropPacket_mem (id : Nat) : (s.dropPacket id).mem = s.mem := rfl
@[simp] theorem State.dropPacket_memTags (id : Nat) : (s.dropPacket id).memTags = s.memTags := rfl
@[simp] theorem State.dropPacket_badLines (id : Nat) : (s.dropPacket id).badLines = s.badLines := rfl
@[simp] theorem State.dropPacket_macBad (id : Nat) : (s.dropPacket id).macBad = s.macBad := rfl
@[simp] theorem State.dropPacket_dir (id : Nat) : (s.dropPacket id).dir = s.dir := rfl
@[simp] theorem State.dropPacket_copies (id : Nat) : (s.dropPacket id).copies = s.copies := rfl
@[simp] theorem State.dropPacket_ctrls (id : Nat) : (s.dropPacket id).ctrls = s.ctrls := rfl
@[simp] theorem State.dropPacket_cores (id : Nat) : (s.dropPacket id).cores = s.cores := rfl
@[simp] theorem State.dropPacket_dies (id : Nat) : (s.dropPacket id).dies = s.dies := rfl
@[simp] theorem State.dropPacket_queues (id : Nat) : (s.dropPacket id).queues = s.queues := rfl
@[simp] theorem State.dropPacket_grids (id : Nat) : (s.dropPacket id).grids = s.grids := rfl
@[simp] theorem State.dropPacket_clusters (id : Nat) : (s.dropPacket id).clusters = s.clusters := rfl
@[simp] theorem State.dropPacket_images (id : Nat) : (s.dropPacket id).images = s.images := rfl
@[simp] theorem State.dropPacket_tenants (id : Nat) : (s.dropPacket id).tenants = s.tenants := rfl
@[simp] theorem State.dropPacket_worlds (id : Nat) : (s.dropPacket id).worlds = s.worlds := rfl
@[simp] theorem State.dropPacket_packets (id : Nat) : (s.dropPacket id).packets = NMap.del s.packets id := rfl
@[simp] theorem State.dropPacket_peers (id : Nat) : (s.dropPacket id).peers = s.peers := rfl
@[simp] theorem State.dropPacket_ports (id : Nat) : (s.dropPacket id).ports = s.ports := rfl
@[simp] theorem State.dropPacket_portTurns (id : Nat) : (s.dropPacket id).portTurns = s.portTurns := rfl
@[simp] theorem State.dropPacket_mailboxes (id : Nat) : (s.dropPacket id).mailboxes = s.mailboxes := rfl
@[simp] theorem State.dropPacket_sEvents (id : Nat) : (s.dropPacket id).sEvents = s.sEvents := rfl
@[simp] theorem State.dropPacket_hostReplies (id : Nat) : (s.dropPacket id).hostReplies = s.hostReplies := rfl
@[simp] theorem State.setCtrl_cycle (n : Nat) (k : MemCtrl) : (s.setCtrl n k).cycle = s.cycle := rfl
@[simp] theorem State.setCtrl_time (n : Nat) (k : MemCtrl) : (s.setCtrl n k).time = s.time := rfl
@[simp] theorem State.setCtrl_agenda (n : Nat) (k : MemCtrl) : (s.setCtrl n k).agenda = s.agenda := rfl
@[simp] theorem State.setCtrl_req (n : Nat) (k : MemCtrl) : (s.setCtrl n k).req = s.req := rfl
@[simp] theorem State.setCtrl_focus (n : Nat) (k : MemCtrl) : (s.setCtrl n k).focus = s.focus := rfl
@[simp] theorem State.setCtrl_pkg (n : Nat) (k : MemCtrl) : (s.setCtrl n k).pkg = s.pkg := rfl
@[simp] theorem State.setCtrl_mem (n : Nat) (k : MemCtrl) : (s.setCtrl n k).mem = s.mem := rfl
@[simp] theorem State.setCtrl_memTags (n : Nat) (k : MemCtrl) : (s.setCtrl n k).memTags = s.memTags := rfl
@[simp] theorem State.setCtrl_badLines (n : Nat) (k : MemCtrl) : (s.setCtrl n k).badLines = s.badLines := rfl
@[simp] theorem State.setCtrl_macBad (n : Nat) (k : MemCtrl) : (s.setCtrl n k).macBad = s.macBad := rfl
@[simp] theorem State.setCtrl_dir (n : Nat) (k : MemCtrl) : (s.setCtrl n k).dir = s.dir := rfl
@[simp] theorem State.setCtrl_copies (n : Nat) (k : MemCtrl) : (s.setCtrl n k).copies = s.copies := rfl
@[simp] theorem State.setCtrl_ctrls (n : Nat) (k : MemCtrl) : (s.setCtrl n k).ctrls = NMap.set s.ctrls n k := rfl
@[simp] theorem State.setCtrl_cores (n : Nat) (k : MemCtrl) : (s.setCtrl n k).cores = s.cores := rfl
@[simp] theorem State.setCtrl_dies (n : Nat) (k : MemCtrl) : (s.setCtrl n k).dies = s.dies := rfl
@[simp] theorem State.setCtrl_queues (n : Nat) (k : MemCtrl) : (s.setCtrl n k).queues = s.queues := rfl
@[simp] theorem State.setCtrl_grids (n : Nat) (k : MemCtrl) : (s.setCtrl n k).grids = s.grids := rfl
@[simp] theorem State.setCtrl_clusters (n : Nat) (k : MemCtrl) : (s.setCtrl n k).clusters = s.clusters := rfl
@[simp] theorem State.setCtrl_images (n : Nat) (k : MemCtrl) : (s.setCtrl n k).images = s.images := rfl
@[simp] theorem State.setCtrl_tenants (n : Nat) (k : MemCtrl) : (s.setCtrl n k).tenants = s.tenants := rfl
@[simp] theorem State.setCtrl_worlds (n : Nat) (k : MemCtrl) : (s.setCtrl n k).worlds = s.worlds := rfl
@[simp] theorem State.setCtrl_packets (n : Nat) (k : MemCtrl) : (s.setCtrl n k).packets = s.packets := rfl
@[simp] theorem State.setCtrl_peers (n : Nat) (k : MemCtrl) : (s.setCtrl n k).peers = s.peers := rfl
@[simp] theorem State.setCtrl_ports (n : Nat) (k : MemCtrl) : (s.setCtrl n k).ports = s.ports := rfl
@[simp] theorem State.setCtrl_portTurns (n : Nat) (k : MemCtrl) : (s.setCtrl n k).portTurns = s.portTurns := rfl
@[simp] theorem State.setCtrl_mailboxes (n : Nat) (k : MemCtrl) : (s.setCtrl n k).mailboxes = s.mailboxes := rfl
@[simp] theorem State.setCtrl_sEvents (n : Nat) (k : MemCtrl) : (s.setCtrl n k).sEvents = s.sEvents := rfl
@[simp] theorem State.setCtrl_hostReplies (n : Nat) (k : MemCtrl) : (s.setCtrl n k).hostReplies = s.hostReplies := rfl
@[simp] theorem State.setCluster_cycle (c : Nat) (k : ClusterState) : (s.setCluster c k).cycle = s.cycle := rfl
@[simp] theorem State.setCluster_time (c : Nat) (k : ClusterState) : (s.setCluster c k).time = s.time := rfl
@[simp] theorem State.setCluster_agenda (c : Nat) (k : ClusterState) : (s.setCluster c k).agenda = s.agenda := rfl
@[simp] theorem State.setCluster_req (c : Nat) (k : ClusterState) : (s.setCluster c k).req = s.req := rfl
@[simp] theorem State.setCluster_focus (c : Nat) (k : ClusterState) : (s.setCluster c k).focus = s.focus := rfl
@[simp] theorem State.setCluster_pkg (c : Nat) (k : ClusterState) : (s.setCluster c k).pkg = s.pkg := rfl
@[simp] theorem State.setCluster_mem (c : Nat) (k : ClusterState) : (s.setCluster c k).mem = s.mem := rfl
@[simp] theorem State.setCluster_memTags (c : Nat) (k : ClusterState) : (s.setCluster c k).memTags = s.memTags := rfl
@[simp] theorem State.setCluster_badLines (c : Nat) (k : ClusterState) : (s.setCluster c k).badLines = s.badLines := rfl
@[simp] theorem State.setCluster_macBad (c : Nat) (k : ClusterState) : (s.setCluster c k).macBad = s.macBad := rfl
@[simp] theorem State.setCluster_dir (c : Nat) (k : ClusterState) : (s.setCluster c k).dir = s.dir := rfl
@[simp] theorem State.setCluster_copies (c : Nat) (k : ClusterState) : (s.setCluster c k).copies = s.copies := rfl
@[simp] theorem State.setCluster_ctrls (c : Nat) (k : ClusterState) : (s.setCluster c k).ctrls = s.ctrls := rfl
@[simp] theorem State.setCluster_cores (c : Nat) (k : ClusterState) : (s.setCluster c k).cores = s.cores := rfl
@[simp] theorem State.setCluster_dies (c : Nat) (k : ClusterState) : (s.setCluster c k).dies = s.dies := rfl
@[simp] theorem State.setCluster_queues (c : Nat) (k : ClusterState) : (s.setCluster c k).queues = s.queues := rfl
@[simp] theorem State.setCluster_grids (c : Nat) (k : ClusterState) : (s.setCluster c k).grids = s.grids := rfl
@[simp] theorem State.setCluster_clusters (c : Nat) (k : ClusterState) : (s.setCluster c k).clusters = NMap.set s.clusters c k := rfl
@[simp] theorem State.setCluster_images (c : Nat) (k : ClusterState) : (s.setCluster c k).images = s.images := rfl
@[simp] theorem State.setCluster_tenants (c : Nat) (k : ClusterState) : (s.setCluster c k).tenants = s.tenants := rfl
@[simp] theorem State.setCluster_worlds (c : Nat) (k : ClusterState) : (s.setCluster c k).worlds = s.worlds := rfl
@[simp] theorem State.setCluster_packets (c : Nat) (k : ClusterState) : (s.setCluster c k).packets = s.packets := rfl
@[simp] theorem State.setCluster_peers (c : Nat) (k : ClusterState) : (s.setCluster c k).peers = s.peers := rfl
@[simp] theorem State.setCluster_ports (c : Nat) (k : ClusterState) : (s.setCluster c k).ports = s.ports := rfl
@[simp] theorem State.setCluster_portTurns (c : Nat) (k : ClusterState) : (s.setCluster c k).portTurns = s.portTurns := rfl
@[simp] theorem State.setCluster_mailboxes (c : Nat) (k : ClusterState) : (s.setCluster c k).mailboxes = s.mailboxes := rfl
@[simp] theorem State.setCluster_sEvents (c : Nat) (k : ClusterState) : (s.setCluster c k).sEvents = s.sEvents := rfl
@[simp] theorem State.setCluster_hostReplies (c : Nat) (k : ClusterState) : (s.setCluster c k).hostReplies = s.hostReplies := rfl
@[simp] theorem State.setMailbox_cycle (k : Nat) (m : Mailbox) : (s.setMailbox k m).cycle = s.cycle := rfl
@[simp] theorem State.setMailbox_time (k : Nat) (m : Mailbox) : (s.setMailbox k m).time = s.time := rfl
@[simp] theorem State.setMailbox_agenda (k : Nat) (m : Mailbox) : (s.setMailbox k m).agenda = s.agenda := rfl
@[simp] theorem State.setMailbox_req (k : Nat) (m : Mailbox) : (s.setMailbox k m).req = s.req := rfl
@[simp] theorem State.setMailbox_focus (k : Nat) (m : Mailbox) : (s.setMailbox k m).focus = s.focus := rfl
@[simp] theorem State.setMailbox_pkg (k : Nat) (m : Mailbox) : (s.setMailbox k m).pkg = s.pkg := rfl
@[simp] theorem State.setMailbox_mem (k : Nat) (m : Mailbox) : (s.setMailbox k m).mem = s.mem := rfl
@[simp] theorem State.setMailbox_memTags (k : Nat) (m : Mailbox) : (s.setMailbox k m).memTags = s.memTags := rfl
@[simp] theorem State.setMailbox_badLines (k : Nat) (m : Mailbox) : (s.setMailbox k m).badLines = s.badLines := rfl
@[simp] theorem State.setMailbox_macBad (k : Nat) (m : Mailbox) : (s.setMailbox k m).macBad = s.macBad := rfl
@[simp] theorem State.setMailbox_dir (k : Nat) (m : Mailbox) : (s.setMailbox k m).dir = s.dir := rfl
@[simp] theorem State.setMailbox_copies (k : Nat) (m : Mailbox) : (s.setMailbox k m).copies = s.copies := rfl
@[simp] theorem State.setMailbox_ctrls (k : Nat) (m : Mailbox) : (s.setMailbox k m).ctrls = s.ctrls := rfl
@[simp] theorem State.setMailbox_cores (k : Nat) (m : Mailbox) : (s.setMailbox k m).cores = s.cores := rfl
@[simp] theorem State.setMailbox_dies (k : Nat) (m : Mailbox) : (s.setMailbox k m).dies = s.dies := rfl
@[simp] theorem State.setMailbox_queues (k : Nat) (m : Mailbox) : (s.setMailbox k m).queues = s.queues := rfl
@[simp] theorem State.setMailbox_grids (k : Nat) (m : Mailbox) : (s.setMailbox k m).grids = s.grids := rfl
@[simp] theorem State.setMailbox_clusters (k : Nat) (m : Mailbox) : (s.setMailbox k m).clusters = s.clusters := rfl
@[simp] theorem State.setMailbox_images (k : Nat) (m : Mailbox) : (s.setMailbox k m).images = s.images := rfl
@[simp] theorem State.setMailbox_tenants (k : Nat) (m : Mailbox) : (s.setMailbox k m).tenants = s.tenants := rfl
@[simp] theorem State.setMailbox_worlds (k : Nat) (m : Mailbox) : (s.setMailbox k m).worlds = s.worlds := rfl
@[simp] theorem State.setMailbox_packets (k : Nat) (m : Mailbox) : (s.setMailbox k m).packets = s.packets := rfl
@[simp] theorem State.setMailbox_peers (k : Nat) (m : Mailbox) : (s.setMailbox k m).peers = s.peers := rfl
@[simp] theorem State.setMailbox_ports (k : Nat) (m : Mailbox) : (s.setMailbox k m).ports = s.ports := rfl
@[simp] theorem State.setMailbox_portTurns (k : Nat) (m : Mailbox) : (s.setMailbox k m).portTurns = s.portTurns := rfl
@[simp] theorem State.setMailbox_mailboxes (k : Nat) (m : Mailbox) : (s.setMailbox k m).mailboxes = NMap.set s.mailboxes k m := rfl
@[simp] theorem State.setMailbox_sEvents (k : Nat) (m : Mailbox) : (s.setMailbox k m).sEvents = s.sEvents := rfl
@[simp] theorem State.setMailbox_hostReplies (k : Nat) (m : Mailbox) : (s.setMailbox k m).hostReplies = s.hostReplies := rfl
@[simp] theorem State.setWorld_cycle (w : Nat) (k : World) : (s.setWorld w k).cycle = s.cycle := rfl
@[simp] theorem State.setWorld_time (w : Nat) (k : World) : (s.setWorld w k).time = s.time := rfl
@[simp] theorem State.setWorld_agenda (w : Nat) (k : World) : (s.setWorld w k).agenda = s.agenda := rfl
@[simp] theorem State.setWorld_req (w : Nat) (k : World) : (s.setWorld w k).req = s.req := rfl
@[simp] theorem State.setWorld_focus (w : Nat) (k : World) : (s.setWorld w k).focus = s.focus := rfl
@[simp] theorem State.setWorld_pkg (w : Nat) (k : World) : (s.setWorld w k).pkg = s.pkg := rfl
@[simp] theorem State.setWorld_mem (w : Nat) (k : World) : (s.setWorld w k).mem = s.mem := rfl
@[simp] theorem State.setWorld_memTags (w : Nat) (k : World) : (s.setWorld w k).memTags = s.memTags := rfl
@[simp] theorem State.setWorld_badLines (w : Nat) (k : World) : (s.setWorld w k).badLines = s.badLines := rfl
@[simp] theorem State.setWorld_macBad (w : Nat) (k : World) : (s.setWorld w k).macBad = s.macBad := rfl
@[simp] theorem State.setWorld_dir (w : Nat) (k : World) : (s.setWorld w k).dir = s.dir := rfl
@[simp] theorem State.setWorld_copies (w : Nat) (k : World) : (s.setWorld w k).copies = s.copies := rfl
@[simp] theorem State.setWorld_ctrls (w : Nat) (k : World) : (s.setWorld w k).ctrls = s.ctrls := rfl
@[simp] theorem State.setWorld_cores (w : Nat) (k : World) : (s.setWorld w k).cores = s.cores := rfl
@[simp] theorem State.setWorld_dies (w : Nat) (k : World) : (s.setWorld w k).dies = s.dies := rfl
@[simp] theorem State.setWorld_queues (w : Nat) (k : World) : (s.setWorld w k).queues = s.queues := rfl
@[simp] theorem State.setWorld_grids (w : Nat) (k : World) : (s.setWorld w k).grids = s.grids := rfl
@[simp] theorem State.setWorld_clusters (w : Nat) (k : World) : (s.setWorld w k).clusters = s.clusters := rfl
@[simp] theorem State.setWorld_images (w : Nat) (k : World) : (s.setWorld w k).images = s.images := rfl
@[simp] theorem State.setWorld_tenants (w : Nat) (k : World) : (s.setWorld w k).tenants = s.tenants := rfl
@[simp] theorem State.setWorld_worlds (w : Nat) (k : World) : (s.setWorld w k).worlds = NMap.set s.worlds w k := rfl
@[simp] theorem State.setWorld_packets (w : Nat) (k : World) : (s.setWorld w k).packets = s.packets := rfl
@[simp] theorem State.setWorld_peers (w : Nat) (k : World) : (s.setWorld w k).peers = s.peers := rfl
@[simp] theorem State.setWorld_ports (w : Nat) (k : World) : (s.setWorld w k).ports = s.ports := rfl
@[simp] theorem State.setWorld_portTurns (w : Nat) (k : World) : (s.setWorld w k).portTurns = s.portTurns := rfl
@[simp] theorem State.setWorld_mailboxes (w : Nat) (k : World) : (s.setWorld w k).mailboxes = s.mailboxes := rfl
@[simp] theorem State.setWorld_sEvents (w : Nat) (k : World) : (s.setWorld w k).sEvents = s.sEvents := rfl
@[simp] theorem State.setWorld_hostReplies (w : Nat) (k : World) : (s.setWorld w k).hostReplies = s.hostReplies := rfl
@[simp] theorem State.setTeam_cycle (c sl : Nat) (t : Team) : (s.setTeam c sl t).cycle = s.cycle := rfl
@[simp] theorem State.setTeam_time (c sl : Nat) (t : Team) : (s.setTeam c sl t).time = s.time := rfl
@[simp] theorem State.setTeam_agenda (c sl : Nat) (t : Team) : (s.setTeam c sl t).agenda = s.agenda := rfl
@[simp] theorem State.setTeam_req (c sl : Nat) (t : Team) : (s.setTeam c sl t).req = s.req := rfl
@[simp] theorem State.setTeam_focus (c sl : Nat) (t : Team) : (s.setTeam c sl t).focus = s.focus := rfl
@[simp] theorem State.setTeam_pkg (c sl : Nat) (t : Team) : (s.setTeam c sl t).pkg = s.pkg := rfl
@[simp] theorem State.setTeam_mem (c sl : Nat) (t : Team) : (s.setTeam c sl t).mem = s.mem := rfl
@[simp] theorem State.setTeam_memTags (c sl : Nat) (t : Team) : (s.setTeam c sl t).memTags = s.memTags := rfl
@[simp] theorem State.setTeam_badLines (c sl : Nat) (t : Team) : (s.setTeam c sl t).badLines = s.badLines := rfl
@[simp] theorem State.setTeam_macBad (c sl : Nat) (t : Team) : (s.setTeam c sl t).macBad = s.macBad := rfl
@[simp] theorem State.setTeam_dir (c sl : Nat) (t : Team) : (s.setTeam c sl t).dir = s.dir := rfl
@[simp] theorem State.setTeam_copies (c sl : Nat) (t : Team) : (s.setTeam c sl t).copies = s.copies := rfl
@[simp] theorem State.setTeam_ctrls (c sl : Nat) (t : Team) : (s.setTeam c sl t).ctrls = s.ctrls := rfl
@[simp] theorem State.setTeam_dies (c sl : Nat) (t : Team) : (s.setTeam c sl t).dies = s.dies := rfl
@[simp] theorem State.setTeam_queues (c sl : Nat) (t : Team) : (s.setTeam c sl t).queues = s.queues := rfl
@[simp] theorem State.setTeam_grids (c sl : Nat) (t : Team) : (s.setTeam c sl t).grids = s.grids := rfl
@[simp] theorem State.setTeam_clusters (c sl : Nat) (t : Team) : (s.setTeam c sl t).clusters = s.clusters := rfl
@[simp] theorem State.setTeam_images (c sl : Nat) (t : Team) : (s.setTeam c sl t).images = s.images := rfl
@[simp] theorem State.setTeam_tenants (c sl : Nat) (t : Team) : (s.setTeam c sl t).tenants = s.tenants := rfl
@[simp] theorem State.setTeam_worlds (c sl : Nat) (t : Team) : (s.setTeam c sl t).worlds = s.worlds := rfl
@[simp] theorem State.setTeam_packets (c sl : Nat) (t : Team) : (s.setTeam c sl t).packets = s.packets := rfl
@[simp] theorem State.setTeam_peers (c sl : Nat) (t : Team) : (s.setTeam c sl t).peers = s.peers := rfl
@[simp] theorem State.setTeam_ports (c sl : Nat) (t : Team) : (s.setTeam c sl t).ports = s.ports := rfl
@[simp] theorem State.setTeam_portTurns (c sl : Nat) (t : Team) : (s.setTeam c sl t).portTurns = s.portTurns := rfl
@[simp] theorem State.setTeam_mailboxes (c sl : Nat) (t : Team) : (s.setTeam c sl t).mailboxes = s.mailboxes := rfl
@[simp] theorem State.setTeam_sEvents (c sl : Nat) (t : Team) : (s.setTeam c sl t).sEvents = s.sEvents := rfl
@[simp] theorem State.setTeam_hostReplies (c sl : Nat) (t : Team) : (s.setTeam c sl t).hostReplies = s.hostReplies := rfl
@[simp] theorem State.bumpIncn_cycle (c sl : Nat) : (s.bumpIncn c sl).cycle = s.cycle := rfl
@[simp] theorem State.bumpIncn_time (c sl : Nat) : (s.bumpIncn c sl).time = s.time := rfl
@[simp] theorem State.bumpIncn_agenda (c sl : Nat) : (s.bumpIncn c sl).agenda = s.agenda := rfl
@[simp] theorem State.bumpIncn_req (c sl : Nat) : (s.bumpIncn c sl).req = s.req := rfl
@[simp] theorem State.bumpIncn_focus (c sl : Nat) : (s.bumpIncn c sl).focus = s.focus := rfl
@[simp] theorem State.bumpIncn_pkg (c sl : Nat) : (s.bumpIncn c sl).pkg = s.pkg := rfl
@[simp] theorem State.bumpIncn_mem (c sl : Nat) : (s.bumpIncn c sl).mem = s.mem := rfl
@[simp] theorem State.bumpIncn_memTags (c sl : Nat) : (s.bumpIncn c sl).memTags = s.memTags := rfl
@[simp] theorem State.bumpIncn_badLines (c sl : Nat) : (s.bumpIncn c sl).badLines = s.badLines := rfl
@[simp] theorem State.bumpIncn_macBad (c sl : Nat) : (s.bumpIncn c sl).macBad = s.macBad := rfl
@[simp] theorem State.bumpIncn_dir (c sl : Nat) : (s.bumpIncn c sl).dir = s.dir := rfl
@[simp] theorem State.bumpIncn_copies (c sl : Nat) : (s.bumpIncn c sl).copies = s.copies := rfl
@[simp] theorem State.bumpIncn_ctrls (c sl : Nat) : (s.bumpIncn c sl).ctrls = s.ctrls := rfl
@[simp] theorem State.bumpIncn_dies (c sl : Nat) : (s.bumpIncn c sl).dies = s.dies := rfl
@[simp] theorem State.bumpIncn_queues (c sl : Nat) : (s.bumpIncn c sl).queues = s.queues := rfl
@[simp] theorem State.bumpIncn_grids (c sl : Nat) : (s.bumpIncn c sl).grids = s.grids := rfl
@[simp] theorem State.bumpIncn_clusters (c sl : Nat) : (s.bumpIncn c sl).clusters = s.clusters := rfl
@[simp] theorem State.bumpIncn_images (c sl : Nat) : (s.bumpIncn c sl).images = s.images := rfl
@[simp] theorem State.bumpIncn_tenants (c sl : Nat) : (s.bumpIncn c sl).tenants = s.tenants := rfl
@[simp] theorem State.bumpIncn_worlds (c sl : Nat) : (s.bumpIncn c sl).worlds = s.worlds := rfl
@[simp] theorem State.bumpIncn_packets (c sl : Nat) : (s.bumpIncn c sl).packets = s.packets := rfl
@[simp] theorem State.bumpIncn_peers (c sl : Nat) : (s.bumpIncn c sl).peers = s.peers := rfl
@[simp] theorem State.bumpIncn_ports (c sl : Nat) : (s.bumpIncn c sl).ports = s.ports := rfl
@[simp] theorem State.bumpIncn_portTurns (c sl : Nat) : (s.bumpIncn c sl).portTurns = s.portTurns := rfl
@[simp] theorem State.bumpIncn_mailboxes (c sl : Nat) : (s.bumpIncn c sl).mailboxes = s.mailboxes := rfl
@[simp] theorem State.bumpIncn_sEvents (c sl : Nat) : (s.bumpIncn c sl).sEvents = s.sEvents := rfl
@[simp] theorem State.bumpIncn_hostReplies (c sl : Nat) : (s.bumpIncn c sl).hostReplies = s.hostReplies := rfl
@[simp] theorem State.modTeam_cycle (c sl : Nat) (f : Team → Team) : (s.modTeam c sl f).cycle = s.cycle := by
  unfold State.modTeam; split <;> rfl
@[simp] theorem State.modTeam_time (c sl : Nat) (f : Team → Team) : (s.modTeam c sl f).time = s.time := by
  unfold State.modTeam; split <;> rfl
@[simp] theorem State.modTeam_agenda (c sl : Nat) (f : Team → Team) : (s.modTeam c sl f).agenda = s.agenda := by
  unfold State.modTeam; split <;> rfl
@[simp] theorem State.modTeam_req (c sl : Nat) (f : Team → Team) : (s.modTeam c sl f).req = s.req := by
  unfold State.modTeam; split <;> rfl
@[simp] theorem State.modTeam_focus (c sl : Nat) (f : Team → Team) : (s.modTeam c sl f).focus = s.focus := by
  unfold State.modTeam; split <;> rfl
@[simp] theorem State.modTeam_pkg (c sl : Nat) (f : Team → Team) : (s.modTeam c sl f).pkg = s.pkg := by
  unfold State.modTeam; split <;> rfl
@[simp] theorem State.modTeam_mem (c sl : Nat) (f : Team → Team) : (s.modTeam c sl f).mem = s.mem := by
  unfold State.modTeam; split <;> rfl
@[simp] theorem State.modTeam_memTags (c sl : Nat) (f : Team → Team) : (s.modTeam c sl f).memTags = s.memTags := by
  unfold State.modTeam; split <;> rfl
@[simp] theorem State.modTeam_badLines (c sl : Nat) (f : Team → Team) : (s.modTeam c sl f).badLines = s.badLines := by
  unfold State.modTeam; split <;> rfl
@[simp] theorem State.modTeam_macBad (c sl : Nat) (f : Team → Team) : (s.modTeam c sl f).macBad = s.macBad := by
  unfold State.modTeam; split <;> rfl
@[simp] theorem State.modTeam_dir (c sl : Nat) (f : Team → Team) : (s.modTeam c sl f).dir = s.dir := by
  unfold State.modTeam; split <;> rfl
@[simp] theorem State.modTeam_copies (c sl : Nat) (f : Team → Team) : (s.modTeam c sl f).copies = s.copies := by
  unfold State.modTeam; split <;> rfl
@[simp] theorem State.modTeam_ctrls (c sl : Nat) (f : Team → Team) : (s.modTeam c sl f).ctrls = s.ctrls := by
  unfold State.modTeam; split <;> rfl
@[simp] theorem State.modTeam_dies (c sl : Nat) (f : Team → Team) : (s.modTeam c sl f).dies = s.dies := by
  unfold State.modTeam; split <;> rfl
@[simp] theorem State.modTeam_queues (c sl : Nat) (f : Team → Team) : (s.modTeam c sl f).queues = s.queues := by
  unfold State.modTeam; split <;> rfl
@[simp] theorem State.modTeam_grids (c sl : Nat) (f : Team → Team) : (s.modTeam c sl f).grids = s.grids := by
  unfold State.modTeam; split <;> rfl
@[simp] theorem State.modTeam_clusters (c sl : Nat) (f : Team → Team) : (s.modTeam c sl f).clusters = s.clusters := by
  unfold State.modTeam; split <;> rfl
@[simp] theorem State.modTeam_images (c sl : Nat) (f : Team → Team) : (s.modTeam c sl f).images = s.images := by
  unfold State.modTeam; split <;> rfl
@[simp] theorem State.modTeam_tenants (c sl : Nat) (f : Team → Team) : (s.modTeam c sl f).tenants = s.tenants := by
  unfold State.modTeam; split <;> rfl
@[simp] theorem State.modTeam_worlds (c sl : Nat) (f : Team → Team) : (s.modTeam c sl f).worlds = s.worlds := by
  unfold State.modTeam; split <;> rfl
@[simp] theorem State.modTeam_packets (c sl : Nat) (f : Team → Team) : (s.modTeam c sl f).packets = s.packets := by
  unfold State.modTeam; split <;> rfl
@[simp] theorem State.modTeam_peers (c sl : Nat) (f : Team → Team) : (s.modTeam c sl f).peers = s.peers := by
  unfold State.modTeam; split <;> rfl
@[simp] theorem State.modTeam_ports (c sl : Nat) (f : Team → Team) : (s.modTeam c sl f).ports = s.ports := by
  unfold State.modTeam; split <;> rfl
@[simp] theorem State.modTeam_portTurns (c sl : Nat) (f : Team → Team) : (s.modTeam c sl f).portTurns = s.portTurns := by
  unfold State.modTeam; split <;> rfl
@[simp] theorem State.modTeam_mailboxes (c sl : Nat) (f : Team → Team) : (s.modTeam c sl f).mailboxes = s.mailboxes := by
  unfold State.modTeam; split <;> rfl
@[simp] theorem State.modTeam_sEvents (c sl : Nat) (f : Team → Team) : (s.modTeam c sl f).sEvents = s.sEvents := by
  unfold State.modTeam; split <;> rfl
@[simp] theorem State.modTeam_hostReplies (c sl : Nat) (f : Team → Team) : (s.modTeam c sl f).hostReplies = s.hostReplies := by
  unfold State.modTeam; split <;> rfl
@[simp] theorem State.setGroup_cycle (i : GroupId) (x : Group) : (s.setGroup i x).cycle = s.cycle := State.modTeam_cycle s _ _ _
@[simp] theorem State.setGroup_time (i : GroupId) (x : Group) : (s.setGroup i x).time = s.time := State.modTeam_time s _ _ _
@[simp] theorem State.setGroup_agenda (i : GroupId) (x : Group) : (s.setGroup i x).agenda = s.agenda := State.modTeam_agenda s _ _ _
@[simp] theorem State.setGroup_req (i : GroupId) (x : Group) : (s.setGroup i x).req = s.req := State.modTeam_req s _ _ _
@[simp] theorem State.setGroup_focus (i : GroupId) (x : Group) : (s.setGroup i x).focus = s.focus := State.modTeam_focus s _ _ _
@[simp] theorem State.setGroup_pkg (i : GroupId) (x : Group) : (s.setGroup i x).pkg = s.pkg := State.modTeam_pkg s _ _ _
@[simp] theorem State.setGroup_mem (i : GroupId) (x : Group) : (s.setGroup i x).mem = s.mem := State.modTeam_mem s _ _ _
@[simp] theorem State.setGroup_memTags (i : GroupId) (x : Group) : (s.setGroup i x).memTags = s.memTags := State.modTeam_memTags s _ _ _
@[simp] theorem State.setGroup_badLines (i : GroupId) (x : Group) : (s.setGroup i x).badLines = s.badLines := State.modTeam_badLines s _ _ _
@[simp] theorem State.setGroup_macBad (i : GroupId) (x : Group) : (s.setGroup i x).macBad = s.macBad := State.modTeam_macBad s _ _ _
@[simp] theorem State.setGroup_dir (i : GroupId) (x : Group) : (s.setGroup i x).dir = s.dir := State.modTeam_dir s _ _ _
@[simp] theorem State.setGroup_copies (i : GroupId) (x : Group) : (s.setGroup i x).copies = s.copies := State.modTeam_copies s _ _ _
@[simp] theorem State.setGroup_ctrls (i : GroupId) (x : Group) : (s.setGroup i x).ctrls = s.ctrls := State.modTeam_ctrls s _ _ _
@[simp] theorem State.setGroup_dies (i : GroupId) (x : Group) : (s.setGroup i x).dies = s.dies := State.modTeam_dies s _ _ _
@[simp] theorem State.setGroup_queues (i : GroupId) (x : Group) : (s.setGroup i x).queues = s.queues := State.modTeam_queues s _ _ _
@[simp] theorem State.setGroup_grids (i : GroupId) (x : Group) : (s.setGroup i x).grids = s.grids := State.modTeam_grids s _ _ _
@[simp] theorem State.setGroup_clusters (i : GroupId) (x : Group) : (s.setGroup i x).clusters = s.clusters := State.modTeam_clusters s _ _ _
@[simp] theorem State.setGroup_images (i : GroupId) (x : Group) : (s.setGroup i x).images = s.images := State.modTeam_images s _ _ _
@[simp] theorem State.setGroup_tenants (i : GroupId) (x : Group) : (s.setGroup i x).tenants = s.tenants := State.modTeam_tenants s _ _ _
@[simp] theorem State.setGroup_worlds (i : GroupId) (x : Group) : (s.setGroup i x).worlds = s.worlds := State.modTeam_worlds s _ _ _
@[simp] theorem State.setGroup_packets (i : GroupId) (x : Group) : (s.setGroup i x).packets = s.packets := State.modTeam_packets s _ _ _
@[simp] theorem State.setGroup_peers (i : GroupId) (x : Group) : (s.setGroup i x).peers = s.peers := State.modTeam_peers s _ _ _
@[simp] theorem State.setGroup_ports (i : GroupId) (x : Group) : (s.setGroup i x).ports = s.ports := State.modTeam_ports s _ _ _
@[simp] theorem State.setGroup_portTurns (i : GroupId) (x : Group) : (s.setGroup i x).portTurns = s.portTurns := State.modTeam_portTurns s _ _ _
@[simp] theorem State.setGroup_mailboxes (i : GroupId) (x : Group) : (s.setGroup i x).mailboxes = s.mailboxes := State.modTeam_mailboxes s _ _ _
@[simp] theorem State.setGroup_sEvents (i : GroupId) (x : Group) : (s.setGroup i x).sEvents = s.sEvents := State.modTeam_sEvents s _ _ _
@[simp] theorem State.setGroup_hostReplies (i : GroupId) (x : Group) : (s.setGroup i x).hostReplies = s.hostReplies := State.modTeam_hostReplies s _ _ _
@[simp] theorem State.modGroup_cycle (i : GroupId) (f : Group → Group) : (s.modGroup i f).cycle = s.cycle := by
  unfold State.modGroup; split <;> simp
@[simp] theorem State.modGroup_time (i : GroupId) (f : Group → Group) : (s.modGroup i f).time = s.time := by
  unfold State.modGroup; split <;> simp
@[simp] theorem State.modGroup_agenda (i : GroupId) (f : Group → Group) : (s.modGroup i f).agenda = s.agenda := by
  unfold State.modGroup; split <;> simp
@[simp] theorem State.modGroup_req (i : GroupId) (f : Group → Group) : (s.modGroup i f).req = s.req := by
  unfold State.modGroup; split <;> simp
@[simp] theorem State.modGroup_focus (i : GroupId) (f : Group → Group) : (s.modGroup i f).focus = s.focus := by
  unfold State.modGroup; split <;> simp
@[simp] theorem State.modGroup_pkg (i : GroupId) (f : Group → Group) : (s.modGroup i f).pkg = s.pkg := by
  unfold State.modGroup; split <;> simp
@[simp] theorem State.modGroup_mem (i : GroupId) (f : Group → Group) : (s.modGroup i f).mem = s.mem := by
  unfold State.modGroup; split <;> simp
@[simp] theorem State.modGroup_memTags (i : GroupId) (f : Group → Group) : (s.modGroup i f).memTags = s.memTags := by
  unfold State.modGroup; split <;> simp
@[simp] theorem State.modGroup_badLines (i : GroupId) (f : Group → Group) : (s.modGroup i f).badLines = s.badLines := by
  unfold State.modGroup; split <;> simp
@[simp] theorem State.modGroup_macBad (i : GroupId) (f : Group → Group) : (s.modGroup i f).macBad = s.macBad := by
  unfold State.modGroup; split <;> simp
@[simp] theorem State.modGroup_dir (i : GroupId) (f : Group → Group) : (s.modGroup i f).dir = s.dir := by
  unfold State.modGroup; split <;> simp
@[simp] theorem State.modGroup_copies (i : GroupId) (f : Group → Group) : (s.modGroup i f).copies = s.copies := by
  unfold State.modGroup; split <;> simp
@[simp] theorem State.modGroup_ctrls (i : GroupId) (f : Group → Group) : (s.modGroup i f).ctrls = s.ctrls := by
  unfold State.modGroup; split <;> simp
@[simp] theorem State.modGroup_dies (i : GroupId) (f : Group → Group) : (s.modGroup i f).dies = s.dies := by
  unfold State.modGroup; split <;> simp
@[simp] theorem State.modGroup_queues (i : GroupId) (f : Group → Group) : (s.modGroup i f).queues = s.queues := by
  unfold State.modGroup; split <;> simp
@[simp] theorem State.modGroup_grids (i : GroupId) (f : Group → Group) : (s.modGroup i f).grids = s.grids := by
  unfold State.modGroup; split <;> simp
@[simp] theorem State.modGroup_clusters (i : GroupId) (f : Group → Group) : (s.modGroup i f).clusters = s.clusters := by
  unfold State.modGroup; split <;> simp
@[simp] theorem State.modGroup_images (i : GroupId) (f : Group → Group) : (s.modGroup i f).images = s.images := by
  unfold State.modGroup; split <;> simp
@[simp] theorem State.modGroup_tenants (i : GroupId) (f : Group → Group) : (s.modGroup i f).tenants = s.tenants := by
  unfold State.modGroup; split <;> simp
@[simp] theorem State.modGroup_worlds (i : GroupId) (f : Group → Group) : (s.modGroup i f).worlds = s.worlds := by
  unfold State.modGroup; split <;> simp
@[simp] theorem State.modGroup_packets (i : GroupId) (f : Group → Group) : (s.modGroup i f).packets = s.packets := by
  unfold State.modGroup; split <;> simp
@[simp] theorem State.modGroup_peers (i : GroupId) (f : Group → Group) : (s.modGroup i f).peers = s.peers := by
  unfold State.modGroup; split <;> simp
@[simp] theorem State.modGroup_ports (i : GroupId) (f : Group → Group) : (s.modGroup i f).ports = s.ports := by
  unfold State.modGroup; split <;> simp
@[simp] theorem State.modGroup_portTurns (i : GroupId) (f : Group → Group) : (s.modGroup i f).portTurns = s.portTurns := by
  unfold State.modGroup; split <;> simp
@[simp] theorem State.modGroup_mailboxes (i : GroupId) (f : Group → Group) : (s.modGroup i f).mailboxes = s.mailboxes := by
  unfold State.modGroup; split <;> simp
@[simp] theorem State.modGroup_sEvents (i : GroupId) (f : Group → Group) : (s.modGroup i f).sEvents = s.sEvents := by
  unfold State.modGroup; split <;> simp
@[simp] theorem State.modGroup_hostReplies (i : GroupId) (f : Group → Group) : (s.modGroup i f).hostReplies = s.hostReplies := by
  unfold State.modGroup; split <;> simp
@[simp] theorem State.modSplit_cycle (i : Site) (f : Split → Split) : (s.modSplit i f).cycle = s.cycle := State.modGroup_cycle s _ _
@[simp] theorem State.modSplit_time (i : Site) (f : Split → Split) : (s.modSplit i f).time = s.time := State.modGroup_time s _ _
@[simp] theorem State.modSplit_agenda (i : Site) (f : Split → Split) : (s.modSplit i f).agenda = s.agenda := State.modGroup_agenda s _ _
@[simp] theorem State.modSplit_req (i : Site) (f : Split → Split) : (s.modSplit i f).req = s.req := State.modGroup_req s _ _
@[simp] theorem State.modSplit_focus (i : Site) (f : Split → Split) : (s.modSplit i f).focus = s.focus := State.modGroup_focus s _ _
@[simp] theorem State.modSplit_pkg (i : Site) (f : Split → Split) : (s.modSplit i f).pkg = s.pkg := State.modGroup_pkg s _ _
@[simp] theorem State.modSplit_mem (i : Site) (f : Split → Split) : (s.modSplit i f).mem = s.mem := State.modGroup_mem s _ _
@[simp] theorem State.modSplit_memTags (i : Site) (f : Split → Split) : (s.modSplit i f).memTags = s.memTags := State.modGroup_memTags s _ _
@[simp] theorem State.modSplit_badLines (i : Site) (f : Split → Split) : (s.modSplit i f).badLines = s.badLines := State.modGroup_badLines s _ _
@[simp] theorem State.modSplit_macBad (i : Site) (f : Split → Split) : (s.modSplit i f).macBad = s.macBad := State.modGroup_macBad s _ _
@[simp] theorem State.modSplit_dir (i : Site) (f : Split → Split) : (s.modSplit i f).dir = s.dir := State.modGroup_dir s _ _
@[simp] theorem State.modSplit_copies (i : Site) (f : Split → Split) : (s.modSplit i f).copies = s.copies := State.modGroup_copies s _ _
@[simp] theorem State.modSplit_ctrls (i : Site) (f : Split → Split) : (s.modSplit i f).ctrls = s.ctrls := State.modGroup_ctrls s _ _
@[simp] theorem State.modSplit_dies (i : Site) (f : Split → Split) : (s.modSplit i f).dies = s.dies := State.modGroup_dies s _ _
@[simp] theorem State.modSplit_queues (i : Site) (f : Split → Split) : (s.modSplit i f).queues = s.queues := State.modGroup_queues s _ _
@[simp] theorem State.modSplit_grids (i : Site) (f : Split → Split) : (s.modSplit i f).grids = s.grids := State.modGroup_grids s _ _
@[simp] theorem State.modSplit_clusters (i : Site) (f : Split → Split) : (s.modSplit i f).clusters = s.clusters := State.modGroup_clusters s _ _
@[simp] theorem State.modSplit_images (i : Site) (f : Split → Split) : (s.modSplit i f).images = s.images := State.modGroup_images s _ _
@[simp] theorem State.modSplit_tenants (i : Site) (f : Split → Split) : (s.modSplit i f).tenants = s.tenants := State.modGroup_tenants s _ _
@[simp] theorem State.modSplit_worlds (i : Site) (f : Split → Split) : (s.modSplit i f).worlds = s.worlds := State.modGroup_worlds s _ _
@[simp] theorem State.modSplit_packets (i : Site) (f : Split → Split) : (s.modSplit i f).packets = s.packets := State.modGroup_packets s _ _
@[simp] theorem State.modSplit_peers (i : Site) (f : Split → Split) : (s.modSplit i f).peers = s.peers := State.modGroup_peers s _ _
@[simp] theorem State.modSplit_ports (i : Site) (f : Split → Split) : (s.modSplit i f).ports = s.ports := State.modGroup_ports s _ _
@[simp] theorem State.modSplit_portTurns (i : Site) (f : Split → Split) : (s.modSplit i f).portTurns = s.portTurns := State.modGroup_portTurns s _ _
@[simp] theorem State.modSplit_mailboxes (i : Site) (f : Split → Split) : (s.modSplit i f).mailboxes = s.mailboxes := State.modGroup_mailboxes s _ _
@[simp] theorem State.modSplit_sEvents (i : Site) (f : Split → Split) : (s.modSplit i f).sEvents = s.sEvents := State.modGroup_sEvents s _ _
@[simp] theorem State.modSplit_hostReplies (i : Site) (f : Split → Split) : (s.modSplit i f).hostReplies = s.hostReplies := State.modGroup_hostReplies s _ _
@[simp] theorem State.setSplit_cycle (i : Site) (p : Split) : (s.setSplit i p).cycle = s.cycle := State.modGroup_cycle s _ _
@[simp] theorem State.setSplit_time (i : Site) (p : Split) : (s.setSplit i p).time = s.time := State.modGroup_time s _ _
@[simp] theorem State.setSplit_agenda (i : Site) (p : Split) : (s.setSplit i p).agenda = s.agenda := State.modGroup_agenda s _ _
@[simp] theorem State.setSplit_req (i : Site) (p : Split) : (s.setSplit i p).req = s.req := State.modGroup_req s _ _
@[simp] theorem State.setSplit_focus (i : Site) (p : Split) : (s.setSplit i p).focus = s.focus := State.modGroup_focus s _ _
@[simp] theorem State.setSplit_pkg (i : Site) (p : Split) : (s.setSplit i p).pkg = s.pkg := State.modGroup_pkg s _ _
@[simp] theorem State.setSplit_mem (i : Site) (p : Split) : (s.setSplit i p).mem = s.mem := State.modGroup_mem s _ _
@[simp] theorem State.setSplit_memTags (i : Site) (p : Split) : (s.setSplit i p).memTags = s.memTags := State.modGroup_memTags s _ _
@[simp] theorem State.setSplit_badLines (i : Site) (p : Split) : (s.setSplit i p).badLines = s.badLines := State.modGroup_badLines s _ _
@[simp] theorem State.setSplit_macBad (i : Site) (p : Split) : (s.setSplit i p).macBad = s.macBad := State.modGroup_macBad s _ _
@[simp] theorem State.setSplit_dir (i : Site) (p : Split) : (s.setSplit i p).dir = s.dir := State.modGroup_dir s _ _
@[simp] theorem State.setSplit_copies (i : Site) (p : Split) : (s.setSplit i p).copies = s.copies := State.modGroup_copies s _ _
@[simp] theorem State.setSplit_ctrls (i : Site) (p : Split) : (s.setSplit i p).ctrls = s.ctrls := State.modGroup_ctrls s _ _
@[simp] theorem State.setSplit_dies (i : Site) (p : Split) : (s.setSplit i p).dies = s.dies := State.modGroup_dies s _ _
@[simp] theorem State.setSplit_queues (i : Site) (p : Split) : (s.setSplit i p).queues = s.queues := State.modGroup_queues s _ _
@[simp] theorem State.setSplit_grids (i : Site) (p : Split) : (s.setSplit i p).grids = s.grids := State.modGroup_grids s _ _
@[simp] theorem State.setSplit_clusters (i : Site) (p : Split) : (s.setSplit i p).clusters = s.clusters := State.modGroup_clusters s _ _
@[simp] theorem State.setSplit_images (i : Site) (p : Split) : (s.setSplit i p).images = s.images := State.modGroup_images s _ _
@[simp] theorem State.setSplit_tenants (i : Site) (p : Split) : (s.setSplit i p).tenants = s.tenants := State.modGroup_tenants s _ _
@[simp] theorem State.setSplit_worlds (i : Site) (p : Split) : (s.setSplit i p).worlds = s.worlds := State.modGroup_worlds s _ _
@[simp] theorem State.setSplit_packets (i : Site) (p : Split) : (s.setSplit i p).packets = s.packets := State.modGroup_packets s _ _
@[simp] theorem State.setSplit_peers (i : Site) (p : Split) : (s.setSplit i p).peers = s.peers := State.modGroup_peers s _ _
@[simp] theorem State.setSplit_ports (i : Site) (p : Split) : (s.setSplit i p).ports = s.ports := State.modGroup_ports s _ _
@[simp] theorem State.setSplit_portTurns (i : Site) (p : Split) : (s.setSplit i p).portTurns = s.portTurns := State.modGroup_portTurns s _ _
@[simp] theorem State.setSplit_mailboxes (i : Site) (p : Split) : (s.setSplit i p).mailboxes = s.mailboxes := State.modGroup_mailboxes s _ _
@[simp] theorem State.setSplit_sEvents (i : Site) (p : Split) : (s.setSplit i p).sEvents = s.sEvents := State.modGroup_sEvents s _ _
@[simp] theorem State.setSplit_hostReplies (i : Site) (p : Split) : (s.setSplit i p).hostReplies = s.hostReplies := State.modGroup_hostReplies s _ _
@[simp] theorem State.freeSplit_cycle (i : Site) : (s.freeSplit i).cycle = s.cycle := State.modGroup_cycle s _ _
@[simp] theorem State.freeSplit_time (i : Site) : (s.freeSplit i).time = s.time := State.modGroup_time s _ _
@[simp] theorem State.freeSplit_agenda (i : Site) : (s.freeSplit i).agenda = s.agenda := State.modGroup_agenda s _ _
@[simp] theorem State.freeSplit_req (i : Site) : (s.freeSplit i).req = s.req := State.modGroup_req s _ _
@[simp] theorem State.freeSplit_focus (i : Site) : (s.freeSplit i).focus = s.focus := State.modGroup_focus s _ _
@[simp] theorem State.freeSplit_pkg (i : Site) : (s.freeSplit i).pkg = s.pkg := State.modGroup_pkg s _ _
@[simp] theorem State.freeSplit_mem (i : Site) : (s.freeSplit i).mem = s.mem := State.modGroup_mem s _ _
@[simp] theorem State.freeSplit_memTags (i : Site) : (s.freeSplit i).memTags = s.memTags := State.modGroup_memTags s _ _
@[simp] theorem State.freeSplit_badLines (i : Site) : (s.freeSplit i).badLines = s.badLines := State.modGroup_badLines s _ _
@[simp] theorem State.freeSplit_macBad (i : Site) : (s.freeSplit i).macBad = s.macBad := State.modGroup_macBad s _ _
@[simp] theorem State.freeSplit_dir (i : Site) : (s.freeSplit i).dir = s.dir := State.modGroup_dir s _ _
@[simp] theorem State.freeSplit_copies (i : Site) : (s.freeSplit i).copies = s.copies := State.modGroup_copies s _ _
@[simp] theorem State.freeSplit_ctrls (i : Site) : (s.freeSplit i).ctrls = s.ctrls := State.modGroup_ctrls s _ _
@[simp] theorem State.freeSplit_dies (i : Site) : (s.freeSplit i).dies = s.dies := State.modGroup_dies s _ _
@[simp] theorem State.freeSplit_queues (i : Site) : (s.freeSplit i).queues = s.queues := State.modGroup_queues s _ _
@[simp] theorem State.freeSplit_grids (i : Site) : (s.freeSplit i).grids = s.grids := State.modGroup_grids s _ _
@[simp] theorem State.freeSplit_clusters (i : Site) : (s.freeSplit i).clusters = s.clusters := State.modGroup_clusters s _ _
@[simp] theorem State.freeSplit_images (i : Site) : (s.freeSplit i).images = s.images := State.modGroup_images s _ _
@[simp] theorem State.freeSplit_tenants (i : Site) : (s.freeSplit i).tenants = s.tenants := State.modGroup_tenants s _ _
@[simp] theorem State.freeSplit_worlds (i : Site) : (s.freeSplit i).worlds = s.worlds := State.modGroup_worlds s _ _
@[simp] theorem State.freeSplit_packets (i : Site) : (s.freeSplit i).packets = s.packets := State.modGroup_packets s _ _
@[simp] theorem State.freeSplit_peers (i : Site) : (s.freeSplit i).peers = s.peers := State.modGroup_peers s _ _
@[simp] theorem State.freeSplit_ports (i : Site) : (s.freeSplit i).ports = s.ports := State.modGroup_ports s _ _
@[simp] theorem State.freeSplit_portTurns (i : Site) : (s.freeSplit i).portTurns = s.portTurns := State.modGroup_portTurns s _ _
@[simp] theorem State.freeSplit_mailboxes (i : Site) : (s.freeSplit i).mailboxes = s.mailboxes := State.modGroup_mailboxes s _ _
@[simp] theorem State.freeSplit_sEvents (i : Site) : (s.freeSplit i).sEvents = s.sEvents := State.modGroup_sEvents s _ _
@[simp] theorem State.freeSplit_hostReplies (i : Site) : (s.freeSplit i).hostReplies = s.hostReplies := State.modGroup_hostReplies s _ _
@[simp] theorem State.count_cycle (core t ev n : Nat) : (s.count core t ev n).cycle = s.cycle := by
  unfold State.count; split
  · rfl
  · dsimp only; split <;> rfl
@[simp] theorem State.count_time (core t ev n : Nat) : (s.count core t ev n).time = s.time := by
  unfold State.count; split
  · rfl
  · dsimp only; split <;> rfl
@[simp] theorem State.count_agenda (core t ev n : Nat) : (s.count core t ev n).agenda = s.agenda := by
  unfold State.count; split
  · rfl
  · dsimp only; split <;> rfl
@[simp] theorem State.count_req (core t ev n : Nat) : (s.count core t ev n).req = s.req := by
  unfold State.count; split
  · rfl
  · dsimp only; split <;> rfl
@[simp] theorem State.count_focus (core t ev n : Nat) : (s.count core t ev n).focus = s.focus := by
  unfold State.count; split
  · rfl
  · dsimp only; split <;> rfl
@[simp] theorem State.count_pkg (core t ev n : Nat) : (s.count core t ev n).pkg = s.pkg := by
  unfold State.count; split
  · rfl
  · dsimp only; split <;> rfl
@[simp] theorem State.count_mem (core t ev n : Nat) : (s.count core t ev n).mem = s.mem := by
  unfold State.count; split
  · rfl
  · dsimp only; split <;> rfl
@[simp] theorem State.count_memTags (core t ev n : Nat) : (s.count core t ev n).memTags = s.memTags := by
  unfold State.count; split
  · rfl
  · dsimp only; split <;> rfl
@[simp] theorem State.count_badLines (core t ev n : Nat) : (s.count core t ev n).badLines = s.badLines := by
  unfold State.count; split
  · rfl
  · dsimp only; split <;> rfl
@[simp] theorem State.count_macBad (core t ev n : Nat) : (s.count core t ev n).macBad = s.macBad := by
  unfold State.count; split
  · rfl
  · dsimp only; split <;> rfl
@[simp] theorem State.count_dir (core t ev n : Nat) : (s.count core t ev n).dir = s.dir := by
  unfold State.count; split
  · rfl
  · dsimp only; split <;> rfl
@[simp] theorem State.count_copies (core t ev n : Nat) : (s.count core t ev n).copies = s.copies := by
  unfold State.count; split
  · rfl
  · dsimp only; split <;> rfl
@[simp] theorem State.count_ctrls (core t ev n : Nat) : (s.count core t ev n).ctrls = s.ctrls := by
  unfold State.count; split
  · rfl
  · dsimp only; split <;> rfl
@[simp] theorem State.count_dies (core t ev n : Nat) : (s.count core t ev n).dies = s.dies := by
  unfold State.count; split
  · rfl
  · dsimp only; split <;> rfl
@[simp] theorem State.count_queues (core t ev n : Nat) : (s.count core t ev n).queues = s.queues := by
  unfold State.count; split
  · rfl
  · dsimp only; split <;> rfl
@[simp] theorem State.count_grids (core t ev n : Nat) : (s.count core t ev n).grids = s.grids := by
  unfold State.count; split
  · rfl
  · dsimp only; split <;> rfl
@[simp] theorem State.count_clusters (core t ev n : Nat) : (s.count core t ev n).clusters = s.clusters := by
  unfold State.count; split
  · rfl
  · dsimp only; split <;> rfl
@[simp] theorem State.count_images (core t ev n : Nat) : (s.count core t ev n).images = s.images := by
  unfold State.count; split
  · rfl
  · dsimp only; split <;> rfl
@[simp] theorem State.count_tenants (core t ev n : Nat) : (s.count core t ev n).tenants = s.tenants := by
  unfold State.count; split
  · rfl
  · dsimp only; split <;> rfl
@[simp] theorem State.count_worlds (core t ev n : Nat) : (s.count core t ev n).worlds = s.worlds := by
  unfold State.count; split
  · rfl
  · dsimp only; split <;> rfl
@[simp] theorem State.count_packets (core t ev n : Nat) : (s.count core t ev n).packets = s.packets := by
  unfold State.count; split
  · rfl
  · dsimp only; split <;> rfl
@[simp] theorem State.count_peers (core t ev n : Nat) : (s.count core t ev n).peers = s.peers := by
  unfold State.count; split
  · rfl
  · dsimp only; split <;> rfl
@[simp] theorem State.count_ports (core t ev n : Nat) : (s.count core t ev n).ports = s.ports := by
  unfold State.count; split
  · rfl
  · dsimp only; split <;> rfl
@[simp] theorem State.count_portTurns (core t ev n : Nat) : (s.count core t ev n).portTurns = s.portTurns := by
  unfold State.count; split
  · rfl
  · dsimp only; split <;> rfl
@[simp] theorem State.count_mailboxes (core t ev n : Nat) : (s.count core t ev n).mailboxes = s.mailboxes := by
  unfold State.count; split
  · rfl
  · dsimp only; split <;> rfl
@[simp] theorem State.count_sEvents (core t ev n : Nat) : (s.count core t ev n).sEvents = s.sEvents := by
  unfold State.count; split
  · rfl
  · dsimp only; split <;> rfl
@[simp] theorem State.count_hostReplies (core t ev n : Nat) : (s.count core t ev n).hostReplies = s.hostReplies := by
  unfold State.count; split
  · rfl
  · dsimp only; split <;> rfl
end

end Sys2Proof.Machine
end

