-- ==== Sys2Proof/Laws/Groups.lean ====
section
/-! SUPPORT. Groups: what the accessors read after the updates, and what settling a word leaves (Machine/Issue). -/
namespace Sys2Proof.Machine

theorem NMap.getD_set_same {α : Type} (m : NMap α) (k : Nat) (v d : α) : NMap.getD (NMap.set m k v) k d = v := by
  simp [NMap.getD]

theorem NMap.getD_set_other {α : Type} (m : NMap α) {k j : Nat} (v d : α) (h : k ≠ j) :
    NMap.getD (NMap.set m k v) j d = NMap.getD m j d := by
  simp [NMap.getD, NMap.find_set_other m k j v h]

theorem NMap.find_del_same {α : Type} (m : NMap α) (k : Nat) : NMap.find (NMap.del m k) k = none := by
  induction m with
  | nil => rfl
  | cons p r ih =>
    obtain ⟨j, w⟩ := p
    by_cases h : j = k
    · simp [NMap.del, h, ih]
    · simp [NMap.del, h, NMap.find, ih]

theorem NMap.find_del_other {α : Type} (m : NMap α) {k j : Nat} (h : k ≠ j) : NMap.find (NMap.del m k) j = NMap.find m j := by
  induction m with
  | nil => rfl
  | cons p r ih =>
    obtain ⟨i, w⟩ := p
    by_cases h1 : i = k
    · subst h1; simp [NMap.del, NMap.find, h, ih]
    · simp [NMap.del, h1, NMap.find, ih]

/-! Cores and teams. -/

theorem State.core_setCore (s : State) (c : Nat) (k : Core) : (s.setCore c k).core c = k := NMap.getD_set_same _ _ _ _
theorem State.core_setCore_other (s : State) {c d : Nat} (k : Core) (h : c ≠ d) : (s.setCore c k).core d = s.core d :=
  NMap.getD_set_other _ _ _ h
theorem State.core_modCore (s : State) (c : Nat) (f : Core → Core) : (s.modCore c f).core c = f (s.core c) := State.core_setCore _ _ _
theorem State.core_modCore_other (s : State) {c d : Nat} (f : Core → Core) (h : c ≠ d) : (s.modCore c f).core d = s.core d :=
  State.core_setCore_other _ _ h

theorem State.team_setTeam (s : State) (c sl : Nat) (t : Team) : (s.setTeam c sl t).team c sl = some t := by
  simp [State.team, State.setTeam, State.core_modCore]

theorem State.team_setTeam_other (s : State) {c sl d sm : Nat} (t : Team) (h : ¬(c = d ∧ sl = sm)) :
    (s.setTeam c sl t).team d sm = s.team d sm := by
  unfold State.team State.setTeam
  by_cases h1 : c = d
  · subst h1
    have h2 : sl ≠ sm := fun e => h ⟨rfl, e⟩
    rw [State.core_modCore]
    exact NMap.find_set_other _ _ _ _ h2
  · rw [State.core_modCore_other s _ h1]

/-- The group of a state whose issuing group exists lies in a team. -/
theorem State.team_of_group {s : State} {i : GroupId} {g : Group} (h : s.group i = some g) :
    ∃ t, s.team i.core i.slot = some t ∧ NMap.find t.groups i.group = some g := by
  unfold State.group at h
  split at h
  · exact ⟨_, ‹_›, h⟩
  · cases h

theorem State.setGroup_of_group {s : State} {i : GroupId} {g : Group} (x : Group) (h : s.group i = some g) :
    ∃ t, s.team i.core i.slot = some t ∧
      s.setGroup i x = s.setTeam i.core i.slot { t with groups := NMap.set t.groups i.group x } := by
  obtain ⟨t, ht, _⟩ := State.team_of_group h
  exact ⟨t, ht, by simp [State.setGroup, State.modTeam, ht]⟩

theorem State.group_setGroup {s : State} {i : GroupId} {g : Group} (x : Group) (h : s.group i = some g) :
    (s.setGroup i x).group i = some x := by
  obtain ⟨t, ht, e⟩ := State.setGroup_of_group x h
  rw [e]; simp [State.group, State.team_setTeam]

theorem State.group_setTeam_other (s : State) {c sl : Nat} (t : Team) {j : GroupId} (h : ¬(c = j.core ∧ sl = j.slot)) :
    (s.setTeam c sl t).group j = s.group j := by
  unfold State.group; rw [State.team_setTeam_other s t h]

/-! What stays when one group changes. -/

theorem OnlyGroup.refl (i : GroupId) (s : State) : OnlyGroup i s s := ⟨rfl, fun _ => rfl, fun _ _ => rfl, fun _ _ => rfl⟩

theorem OnlyGroup.trans {i : GroupId} {s t u : State} (h : OnlyGroup i s t) (k : OnlyGroup i t u) : OnlyGroup i s u :=
  ⟨k.1.trans h.1, fun c => (k.2.1 c).trans (h.2.1 c), fun c sl => (k.2.2.1 c sl).trans (h.2.2.1 c sl),
    fun j hj => (k.2.2.2 j hj).trans (h.2.2.2 j hj)⟩

theorem OnlyGroup.setGroup {s : State} {i : GroupId} {g : Group} (x : Group) (h : s.group i = some g) :
    OnlyGroup i s (s.setGroup i x) := by
  obtain ⟨t, ht, e⟩ := State.setGroup_of_group x h
  rw [e]
  refine ⟨rfl, fun c => ?_, fun c sl => ?_, fun j hj => ?_⟩
  · unfold State.setTeam
    by_cases h1 : i.core = c
    · subst h1; rw [State.core_modCore]
    · rw [State.core_modCore_other s _ h1]
  · by_cases h1 : i.core = c ∧ i.slot = sl
    · obtain ⟨rfl, rfl⟩ := h1
      rw [State.team_setTeam, ht]; rfl
    · rw [State.team_setTeam_other s _ h1]
  · by_cases h1 : i.core = j.core ∧ i.slot = j.slot
    · have h2 : i.group ≠ j.group := by
        intro e2; apply hj; cases i; cases j; simp_all
      have hj' : s.team j.core j.slot = some t := by rw [← h1.1, ← h1.2]; exact ht
      unfold State.group
      rw [← h1.1, ← h1.2, State.team_setTeam, ht]
      exact NMap.find_set_other _ _ _ _ h2
    · exact State.group_setTeam_other s _ h1

theorem OnlyGroup.modGroup (s : State) (i : GroupId) (f : Group → Group) : OnlyGroup i s (s.modGroup i f) := by
  unfold State.modGroup
  split
  · exact OnlyGroup.setGroup _ ‹_›
  · exact OnlyGroup.refl i s

theorem State.group_modGroup {s : State} {i : GroupId} {g : Group} (f : Group → Group) (h : s.group i = some g) :
    (s.modGroup i f).group i = some (f g) := by
  unfold State.modGroup
  rw [h]; exact State.group_setGroup _ h

/-- An update of a core that leaves its teams leaves every group. -/
theorem State.group_modCore (s : State) (c : Nat) (f : Core → Core) (h : (f (s.core c)).teams = (s.core c).teams) (j : GroupId) :
    (s.modCore c f).group j = s.group j := by
  have : ∀ d sl, (s.modCore c f).team d sl = s.team d sl := by
    intro d sl
    unfold State.team
    by_cases h1 : c = d
    · subst h1; rw [State.core_modCore, h]
    · rw [State.core_modCore_other s _ h1]
  unfold State.group; rw [this]

theorem State.team_modCore (s : State) (c : Nat) (f : Core → Core) (h : (f (s.core c)).teams = (s.core c).teams) (d sl : Nat) :
    (s.modCore c f).team d sl = s.team d sl := by
  unfold State.team
  by_cases h1 : c = d
  · subst h1; rw [State.core_modCore, h]
  · rw [State.core_modCore_other s _ h1]

theorem OnlyGroup.modCore (i : GroupId) (s : State) (c : Nat) (f : Core → Core) (h : (f (s.core c)).teams = (s.core c).teams)
    (h2 : ({ f (s.core c) with teams := [], perf := [], quads := [] } : Core)
      = { s.core c with teams := [], perf := [], quads := [] }) : OnlyGroup i s (s.modCore c f) := by
  refine ⟨rfl, fun d => ?_, fun d sl => by rw [State.team_modCore s c f h], fun j _ => State.group_modCore s c f h j⟩
  by_cases h1 : c = d
  · subst h1; rw [State.core_modCore]; exact h2
  · rw [State.core_modCore_other s _ h1]

theorem State.group_count (s : State) (core t ev n : Nat) (j : GroupId) : (s.count core t ev n).group j = s.group j := by
  unfold State.count
  split
  · rfl
  · dsimp only
    split
    · rfl
    · exact State.group_modCore s core _ rfl j

theorem OnlyGroup.count (i : GroupId) (s : State) (core t ev n : Nat) : OnlyGroup i s (s.count core t ev n) := by
  unfold State.count
  split
  · exact OnlyGroup.refl i s
  · dsimp only
    split
    · exact OnlyGroup.refl i s
    · exact OnlyGroup.modCore i s core _ rfl rfl

theorem State.group_endClause (s : State) (c : Ctx) (j : GroupId) : (s.endClause c).group j = s.group j :=
  State.group_modCore s _ _ rfl j

theorem OnlyGroup.endClause (i : GroupId) (s : State) (c : Ctx) : OnlyGroup i s (s.endClause c) :=
  OnlyGroup.modCore i s _ _ rfl rfl

/-! Splits and records leave the registers. -/

theorem Group.RegsOf.refl (g : Group) : g.RegsOf g := ⟨rfl, rfl, rfl, rfl, rfl, rfl, rfl, rfl, rfl, rfl⟩
theorem Group.RegsOf.trans {g h k : Group} (a : h.RegsOf g) (b : k.RegsOf h) : k.RegsOf g := by
  obtain ⟨a1, a2, a3, a4, a5, a6, a7, a8, a9, a10⟩ := a
  obtain ⟨b1, b2, b3, b4, b5, b6, b7, b8, b9, b10⟩ := b
  exact ⟨b1.trans a1, b2.trans a2, b3.trans a3, b4.trans a4, b5.trans a5, b6.trans a6, b7.trans a7, b8.trans a8, b9.trans a9, b10.trans a10⟩

/-- A group keeps registers and special registers. -/
def Group.Keeps (g h : Group) : Prop := h.RegsOf g ∧ h.sp = g.sp

theorem Group.Keeps.refl (g : Group) : g.Keeps g := ⟨.refl g, rfl⟩
theorem Group.Keeps.trans {g h k : Group} (a : g.Keeps h) (b : h.Keeps k) : g.Keeps k := ⟨a.1.trans b.1, b.2.trans a.2⟩

theorem Group.keeps_setCur (g : Group) (r : Option Record) : g.Keeps (g.setCur r) := by
  unfold Group.setCur; split <;> exact ⟨⟨rfl, rfl, rfl, rfl, rfl, rfl, rfl, rfl, rfl, rfl⟩, rfl⟩
theorem Group.keeps_setCurPending (g : Group) (r : Option Record) : g.Keeps (g.setCurPending r) := by
  unfold Group.setCurPending; split <;> exact ⟨⟨rfl, rfl, rfl, rfl, rfl, rfl, rfl, rfl, rfl, rfl⟩, rfl⟩
theorem Group.keeps_enterRecord (g : Group) (r : Record) : g.Keeps (g.enterRecord r).1 := by
  unfold Group.enterRecord
  split
  · exact g.keeps_setCur _
  · split
    · exact g.keeps_setCur _
    · split
      · exact g.keeps_setCurPending _
      · exact .refl g
theorem Group.keeps_faultLanes (g : Group) (c : Ctx) (lanes : Lanes) (cause : Cause) (flm : Lanes) (kind : Nat) (info : W64) :
    g.Keeps (g.faultLanes c lanes cause flm kind info) := g.keeps_enterRecord _

theorem Group.keeps_splits (g : Group) (x : NMap Split) : g.Keeps { g with splits := x } :=
  ⟨⟨rfl, rfl, rfl, rfl, rfl, rfl, rfl, rfl, rfl, rfl⟩, rfl⟩

theorem Group.keeps_deferFaults (g : Group) (c : Ctx) (fs : List LaneFault) : g.Keeps (g.deferFaults c fs) := by
  unfold Group.deferFaults
  split
  · exact .refl g
  · exact (g.keeps_splits _).trans (Group.keeps_faultLanes _ _ _ _ _ _ _)

theorem Group.keeps_leaveMarked (g : Group) (lm : LateMark) {h : Group} (e : g.leaveMarked lm = some h) : g.Keeps h := by
  unfold Group.leaveMarked at e
  dsimp only at e
  split at e
  · cases e
    exact Group.Keeps.trans ⟨⟨rfl, rfl, rfl, rfl, rfl, rfl, rfl, rfl, rfl, rfl⟩, rfl⟩ (Group.keeps_enterRecord _ _)
  · cases e
    exact Group.Keeps.trans ⟨⟨rfl, rfl, rfl, rfl, rfl, rfl, rfl, rfl, rfl, rfl⟩, rfl⟩ (Group.keeps_enterRecord _ _)
  · cases e

theorem Group.keeps_enterLateMarks (g : Group) (n : Nat) : g.Keeps (g.enterLateMarks n) := by
  induction n generalizing g with
  | zero => exact .refl g
  | succ n ih =>
    unfold Group.enterLateMarks
    split
    · exact .refl g
    · cases h : g.lateMarks.findSome? fun lm => g.leaveMarked lm with
      | none => exact .refl g
      | some x =>
        obtain ⟨lm, _, e⟩ := List.exists_of_findSome?_eq_some h
        exact (g.keeps_leaveMarked lm e).trans (ih x)

theorem Group.keeps_mergeOnce {g h : Group} (e : g.mergeOnce = some h) : g.Keeps h := by
  unfold Group.mergeOnce at e
  split at e
  · cases e
  · split at e
    · cases e; exact ⟨⟨rfl, rfl, rfl, rfl, rfl, rfl, rfl, rfl, rfl, rfl⟩, rfl⟩
    · cases e

theorem Group.keeps_releaseOnce {g h : Group} {n : Nat} (e : g.releaseOnce n = some h) : g.Keeps h := by
  unfold Group.releaseOnce at e
  split at e
  · cases e; exact ⟨⟨rfl, rfl, rfl, rfl, rfl, rfl, rfl, rfl, rfl, rfl⟩, rfl⟩
  · cases e

theorem Group.keeps_settleSplits (g : Group) (cycle n : Nat) : g.Keeps (g.settleSplits cycle n) := by
  induction n generalizing g with
  | zero => exact .refl g
  | succ n ih =>
    unfold Group.settleSplits
    split
    · exact (Group.keeps_mergeOnce ‹_›).trans (ih _)
    · split
      · exact (Group.keeps_releaseOnce ‹_›).trans (ih _)
      · exact .refl g

theorem Group.keeps_normalise (g : Group) (cycle : Nat) : g.Keeps (g.normalise cycle) := by
  unfold Group.normalise
  exact (g.keeps_enterLateMarks _).trans ((Group.keeps_settleSplits _ _ _).trans (Group.keeps_splits _ _))

theorem Group.keeps_advance (g : Group) (c : Ctx) (cycle : Nat) : g.Keeps (g.advance c cycle).1 := by
  unfold Group.advance
  split
  · exact g.keeps_normalise _
  · dsimp only
    split
    · exact (g.keeps_splits _).trans (Group.keeps_normalise _ _)
    · split
      · exact (g.keeps_splits _).trans (Group.keeps_normalise _ _)
      · exact (g.keeps_splits _).trans (Group.keeps_normalise _ _)

/-! Settling a word. -/

/-- A single step of the debug controller changes only tcause and tinfo (R403). -/
theorem After.endDebugStep {c : Ctx} {s t : State} {g h : Group} (k : OnlyGroup c.gid s t) (ht : t.group c.gid = some h) (hk : g.Keeps h) :
    After c s g (t.endDebugStep c) := by
  unfold State.endDebugStep
  split
  · exact ⟨k, h, ht, hk.1, fun _ => hk.2⟩
  · refine ⟨k.trans (.modGroup _ _ _), _, State.group_modGroup _ ht, ?_, fun e => by simp_all⟩
    exact hk.1

/-- Issuing a word whose causes do not report INTEGRITY counts it, and changes nothing else (R419, R425). -/
theorem State.wordIssued_count {s : State} {c : Ctx} {cs : List Cause} (h : Cause.integrity ∉ cs) :
    s.wordIssued c cs = s.count c.core c.team.tenant 2 1 := by
  simp [State.wordIssued, h]

/-- A word that has run leaves its group's registers as it wrote them, and nothing else but splits, counters and quadrants (R120, R125). -/
theorem settle_done {c : Ctx} {s s' : State} {g : Group} (fs : List LaneFault) (hf : Cause.integrity ∉ faultCauses fs) (k : OnlyGroup c.gid s s')
    (hg : s'.group c.gid = some g) : After c s g (settle c (.done s' fs)) := by
  have h1 := (g.keeps_deferFaults c fs).trans (Group.keeps_advance (g.deferFaults c fs) c s'.cycle)
  unfold settle settleWord
  simp only [hg, State.wordIssued_count hf]
  split
  · exact After.endDebugStep (((k.trans (.setGroup _ hg)).trans (.count _ _ _ _ _ _)).trans (.endClause _ _ _))
      (by rw [State.group_endClause, State.group_count, State.group_setGroup _ hg]) h1
  · exact After.endDebugStep ((k.trans (.setGroup _ hg)).trans (.count _ _ _ _ _ _))
      (by rw [State.group_count, State.group_setGroup _ hg]) h1

/-- The same of a word that gave its split another place. -/
theorem settle_taken {c : Ctx} {s s' : State} {g : Group} (fs : List LaneFault) (hf : Cause.integrity ∉ faultCauses fs) (k : OnlyGroup c.gid s s')
    (hg : s'.group c.gid = some g) : After c s g (settle c (.taken s' fs)) := by
  have h1 := (g.keeps_deferFaults c fs).trans (Group.keeps_normalise (g.deferFaults c fs) s'.cycle)
  unfold settle settleWord
  simp only [hg, State.wordIssued_count hf]
  exact After.endDebugStep (((k.trans (.setGroup _ hg)).trans (.count _ _ _ _ _ _)).trans (.endClause _ _ _))
    (by rw [State.group_endClause, State.group_count, State.group_setGroup _ hg]) h1

/-- The same of a word that holds its split (R123). -/
theorem settle_hold {c : Ctx} {s s' : State} {g : Group} (h : Held) (fs : List LaneFault) (hf : Cause.integrity ∉ faultCauses fs)
    (k : OnlyGroup c.gid s s') (hg : s'.group c.gid = some g) : After c s g (settle c (.hold s' h fs)) := by
  unfold settle settleWord
  simp only [hg, State.wordIssued_count hf]
  exact After.endDebugStep (((k.trans (.setGroup _ hg)).trans (.count _ _ _ _ _ _)).trans (.endClause _ _ _))
    (by rw [State.group_endClause, State.group_count, State.group_setGroup _ hg])
    (((g.keeps_deferFaults c fs).trans (Group.keeps_splits _ _)).trans (Group.keeps_normalise _ _))

/-- A word that raises a cause precisely leaves the registers (R128). -/
theorem settle_trap {c : Ctx} {s s' : State} {g : Group} (cause : Cause) (info : W64) (flm : Lanes) (hf : cause ≠ .integrity)
    (k : OnlyGroup c.gid s s') (hg : s'.group c.gid = some g) : After c s g (settle c (.trap s' cause info flm)) := by
  unfold settle settleWord
  simp only [hg, State.wordIssued_count (c := c) (cs := [cause]) (by simpa using hf.symm)]
  exact After.endDebugStep (((k.trans (.setGroup _ hg)).trans (.count _ _ _ _ _ _)).trans (.endClause _ _ _))
    (by rw [State.group_endClause, State.group_count, State.group_setGroup _ hg])
    (((g.keeps_splits _).trans (Group.keeps_faultLanes _ _ _ _ _ _ _)).trans (Group.keeps_normalise _ _))

/-- A quadrant's issuing split and its group, as the state holds them. -/
theorem issuing_group {s : State} {core q : Nat} {c : Ctx} (h : s.issuing core q = some c) :
    s.team c.core c.site.g.slot = some c.team ∧ s.group c.gid = some c.g ∧ s.split c.site = some c.p ∧ c.p.clause = some c.cl
      ∧ c.p.st = .issue ∧ c.cl.next < c.cl.count := by
  unfold State.issuing at h
  split at h
  · cases h
  · split at h
    · split at h
      · split at h
        · cases h
          rename_i hc
          simp only [Bool.and_eq_true, beq_iff_eq, decide_eq_true_eq] at hc
          exact ⟨‹_›, ‹_›, ‹_›, ‹_›, hc.1, hc.2⟩
        · cases h
      · cases h
    · cases h

/-- The issuing split's group and split, as the state holds them. -/
theorem issuer_group {s : State} {c : Ctx} (h : s.issuer = some c) :
    s.team c.core c.site.g.slot = some c.team ∧ s.group c.gid = some c.g ∧ s.split c.site = some c.p ∧ c.p.clause = some c.cl
      ∧ c.p.st = .issue ∧ c.cl.next < c.cl.count := by
  obtain ⟨_, _, h⟩ := Option.bind_eq_some_iff.mp h
  exact issuing_group h

end Sys2Proof.Machine
end

