-- ==== Sys2Proof/Laws/Memory.lean ====
section
/-! SUPPORT. Memory: what a byte reads as after a write, and that every operation on memory keeps its canonical form. -/
namespace Sys2Proof.Machine

/-! Cells. -/

/-- Every listed address lies above a bound. -/
def cellsAbove (a : Nat) (m : List Host.Cell) : Prop := ∀ c ∈ m, a < c.1

theorem memWf_cons {a : Nat} {v : Byte} {r : List Host.Cell} :
    memWf ((a, v) :: r) = true ↔ v ≠ Config.unwrittenByte ∧ cellsAbove a r ∧ memWf r = true := by
  induction r generalizing a v with
  | nil => simp [memWf, cellsAbove]
  | cons p r ih =>
    obtain ⟨b, w⟩ := p
    have h : memWf ((a, v) :: (b, w) :: r) = (v != Config.unwrittenByte && decide (a < b) && memWf ((b, w) :: r)) := rfl
    rw [h]
    simp only [Bool.and_eq_true, bne_iff_ne, decide_eq_true_eq, and_assoc]
    constructor
    · rintro ⟨hv, hab, hw⟩
      refine ⟨hv, ?_, hw⟩
      intro c hc
      rcases List.mem_cons.mp hc with rfl | hc
      · exact hab
      · exact Nat.lt_trans hab ((ih.mp hw).2.1 c hc)
    · rintro ⟨hv, hab, hw⟩
      exact ⟨hv, hab (b, w) (by simp), hw⟩

theorem cellsAbove_memCons {x a : Nat} {v : Byte} {r : List Host.Cell} (h : x < a) (hr : cellsAbove x r) : cellsAbove x (memCons a v r) := by
  unfold memCons; split
  · exact hr
  · intro c hc
    rcases List.mem_cons.mp hc with rfl | hc
    · exact h
    · exact hr c hc

theorem cellsAbove_memSet {x a : Nat} {v : Byte} {m : List Host.Cell} (h : x < a) (hm : cellsAbove x m) : cellsAbove x (memSet m a v) := by
  induction m with
  | nil => exact cellsAbove_memCons h hm
  | cons p r ih =>
    obtain ⟨b, w⟩ := p
    have hr : cellsAbove x r := fun c hc => hm c (by simp [hc])
    unfold memSet
    split
    · exact cellsAbove_memCons h hm
    · split
      · exact cellsAbove_memCons h hr
      · intro c hc
        rcases List.mem_cons.mp hc with rfl | hc
        · exact hm _ (by simp)
        · exact ih hr c hc

theorem memWf_memCons {a : Nat} {v : Byte} {r : List Host.Cell} (hr : memWf r = true) (h : cellsAbove a r) : memWf (memCons a v r) = true := by
  unfold memCons; split
  · exact hr
  · exact memWf_cons.mpr ⟨‹_›, h, hr⟩

theorem memWf_memSet {m : List Host.Cell} (a : Nat) (v : Byte) (h : memWf m = true) : memWf (memSet m a v) = true := by
  induction m with
  | nil => exact memWf_memCons rfl (by simp [cellsAbove])
  | cons p r ih =>
    obtain ⟨b, w⟩ := p
    obtain ⟨hw, hb, hr⟩ := memWf_cons.mp h
    unfold memSet
    split
    · rename_i hab
      refine memWf_memCons h fun c hc => ?_
      rcases List.mem_cons.mp hc with rfl | hc
      · exact hab
      · exact Nat.lt_trans hab (hb c hc)
    · split
      · rename_i hab; subst hab; exact memWf_memCons hr hb
      · exact memWf_cons.mpr ⟨hw, cellsAbove_memSet (by omega) hb, ih hr⟩

theorem memWf_filter {m : List Host.Cell} (f : Host.Cell → Bool) (h : memWf m = true) : memWf (m.filter f) = true := by
  induction m with
  | nil => rfl
  | cons p r ih =>
    obtain ⟨b, w⟩ := p
    obtain ⟨hw, hb, hr⟩ := memWf_cons.mp h
    by_cases hf : f (b, w) = true
    · rw [List.filter_cons_of_pos hf]
      exact memWf_cons.mpr ⟨hw, fun c hc => hb c (List.mem_filter.mp hc).1, ih hr⟩
    · rw [List.filter_cons_of_neg hf]; exact ih hr

theorem memByte_of_above {a x : Nat} {m : List Host.Cell} (h : cellsAbove a m) (hx : x ≤ a) : memByte m x = Config.unwrittenByte := by
  induction m with
  | nil => rfl
  | cons p r ih =>
    obtain ⟨b, w⟩ := p
    have hb : a < b := h (b, w) (by simp)
    have hr : cellsAbove a r := fun c hc => h c (by simp [hc])
    unfold memByte
    split
    · omega
    · exact ih hr

theorem memByte_memCons_same {a : Nat} {v : Byte} {r : List Host.Cell} (h : cellsAbove a r) : memByte (memCons a v r) a = v := by
  unfold memCons; split
  · rename_i e; rw [memByte_of_above h (Nat.le_refl _), e]
  · simp [memByte]

theorem memByte_memCons_other {a x : Nat} {v : Byte} {r : List Host.Cell} (h : x ≠ a) : memByte (memCons a v r) x = memByte r x := by
  unfold memCons; split
  · rfl
  · simp [memByte, Ne.symm h]

/-- A byte that was written reads as written. -/
theorem memByte_memSet_same {m : List Host.Cell} {a : Nat} {v : Byte} (h : memWf m = true) : memByte (memSet m a v) a = v := by
  induction m with
  | nil => exact memByte_memCons_same (by simp [cellsAbove])
  | cons p r ih =>
    obtain ⟨b, w⟩ := p
    obtain ⟨_, hb, hr⟩ := memWf_cons.mp h
    unfold memSet
    split
    · rename_i hab
      refine memByte_memCons_same fun c hc => ?_
      rcases List.mem_cons.mp hc with rfl | hc
      · exact hab
      · exact Nat.lt_trans hab (hb c hc)
    · split
      · rename_i hab; subst hab; exact memByte_memCons_same hb
      · rename_i hne; simp [memByte, hne, ih hr]

/-- Writing a byte leaves every other byte. -/
theorem memByte_memSet_other {m : List Host.Cell} {a x : Nat} {v : Byte} (h : x ≠ a) : memByte (memSet m a v) x = memByte m x := by
  induction m with
  | nil => exact memByte_memCons_other h
  | cons p r ih =>
    obtain ⟨b, w⟩ := p
    unfold memSet
    split
    · exact memByte_memCons_other h
    · split
      · rename_i hab; subst hab; rw [memByte_memCons_other h]; simp [memByte, Ne.symm h]
      · by_cases hx : b = x
        · simp [memByte, hx]
        · simp [memByte, hx, ih]

/-! States. -/

theorem State.memoryWf_putByte {s : State} (a : Nat) (v : Byte) (h : s.MemoryWf) : (s.putByte a v).MemoryWf := memWf_memSet a v h

theorem State.byteAt_putByte_same {s : State} {a : Nat} {v : Byte} (h : s.MemoryWf) : (s.putByte a v).byteAt a = v := memByte_memSet_same h

theorem State.byteAt_putByte_other {s : State} {a x : Nat} {v : Byte} (h : x ≠ a) : (s.putByte a v).byteAt x = s.byteAt x :=
  memByte_memSet_other h

theorem State.memoryWf_putNat {s : State} (a n v : Nat) (h : s.MemoryWf) : (s.putNat a n v).MemoryWf := by
  induction n generalizing s a v with
  | zero => exact h
  | succ n ih => exact ih _ _ (State.memoryWf_putByte _ _ h)

theorem State.byteAt_putNat_other {s : State} {a n v x : Nat} (h : x < a ∨ a + n ≤ x) : (s.putNat a n v).byteAt x = s.byteAt x := by
  induction n generalizing s a v with
  | zero => rfl
  | succ n ih =>
    unfold State.putNat
    rw [ih (by omega), State.byteAt_putByte_other (by omega)]

/-- A fold over states keeps what each step keeps. -/
theorem foldl_keeps {α : Type} {P : State → Prop} {f : State → α → State} (hf : ∀ s x, P s → P (f s x)) (l : List α) :
    ∀ s, P s → P (l.foldl f s) := by
  induction l with
  | nil => exact fun _ h => h
  | cons a r ih => exact fun s h => ih _ (hf s a h)

theorem State.memoryWf_setGranuleTag {s : State} (g : Nat) (b : Bool) (h : s.MemoryWf) : (s.setGranuleTag g b).MemoryWf := h

theorem State.memoryWf_writeLine {s : State} (ln : Nat) (m : LineMask) (d : LineData) (tags : BitVec 8) (h : s.MemoryWf) :
    (s.writeLine ln m d tags).MemoryWf := by
  unfold State.writeLine
  refine foldl_keeps (P := State.MemoryWf) (fun s i hs => ?_) _ _ (foldl_keeps (P := State.MemoryWf) (fun s i hs => ?_) _ _ h)
  · split
    · exact State.memoryWf_setGranuleTag _ _ hs
    · exact hs
  · split
    · exact State.memoryWf_putByte _ _ hs
    · exact hs

theorem State.memoryWf_setDir {s : State} (ln : Nat) (e : DirEntry) (h : s.MemoryWf) : (s.setDir ln e).MemoryWf := h

theorem State.memoryWf_askHost {s : State} (ln : Nat) (d : Bool) (h : s.MemoryWf) : (s.askHost ln d).MemoryWf := by
  unfold State.askHost; dsimp only; split <;> exact h

theorem State.memoryWf_dropCopies {s : State} (ln : Nat) (h : s.MemoryWf) : (s.dropCopies ln).MemoryWf := by
  unfold State.dropCopies; dsimp only; split
  · exact State.memoryWf_askHost _ _ h
  · exact h

theorem State.memoryWf_deviceWrite {s : State} (pa n v op : Nat) (h : s.MemoryWf) : (s.deviceWrite pa n v op).MemoryWf := by
  unfold State.deviceWrite
  exact (foldl_keeps (P := State.MemoryWf) (fun s g hs => State.memoryWf_setGranuleTag g false hs) _ _
    (State.memoryWf_putNat _ _ _ h) : State.MemoryWf _)

/-- The messages of a home change neither memory nor a core. -/
theorem State.recallHolder_frame (s : State) (ln : Nat) : (s.recallHolder ln).mem = s.mem ∧ (s.recallHolder ln).cores = s.cores := by
  unfold State.recallHolder; dsimp only; split <;> exact ⟨rfl, rfl⟩
theorem State.askHost_frame (s : State) (ln : Nat) (d : Bool) : (s.askHost ln d).mem = s.mem ∧ (s.askHost ln d).cores = s.cores := by
  unfold State.askHost; dsimp only; split <;> exact ⟨rfl, rfl⟩
theorem State.invalSites_frame (s : State) (ln : Nat) : (s.invalSites ln).mem = s.mem ∧ (s.invalSites ln).cores = s.cores := by
  unfold State.invalSites; dsimp only
  exact foldl_keeps (P := fun x => x.mem = s.mem ∧ x.cores = s.cores) (f := fun x i => x.post (.inval ln i)) (fun x i hx => hx) _ _ ⟨rfl, rfl⟩
theorem State.freeLine_frame (s : State) (ln : Nat) : (s.freeLine ln).mem = s.mem ∧ (s.freeLine ln).cores = s.cores := by
  unfold State.freeLine; dsimp only; split
  · exact ⟨rfl, rfl⟩
  · split
    · exact s.askHost_frame _ _
    · exact s.recallHolder_frame _
  · exact s.recallHolder_frame _
  · exact s.invalSites_frame _

theorem State.joinQueue_frame (s : State) (ln : Nat) (r : HomeReq) : (s.joinQueue ln r).mem = s.mem ∧ (s.joinQueue ln r).cores = s.cores := by
  unfold State.joinQueue; dsimp only; split <;> exact ⟨rfl, rfl⟩

theorem State.memoryWf_deviceSteps (o : DevOwner) (turn : Option Nat) (l : List DevStep) {s : State} (h : s.MemoryWf) :
    (deviceSteps o turn l s).MemoryWf := by
  induction l generalizing s with
  | nil => exact h
  | cons x r ih =>
    cases x with
    | post i => exact ih h
    | write pa n v op =>
      unfold deviceSteps; dsimp only; split
      · exact ih (State.memoryWf_deviceWrite _ _ _ _ h)
      · split
        · rw [State.MemoryWf, (State.freeLine_frame _ _).1, (State.joinQueue_frame _ _ _).1]; exact h
        · rw [State.MemoryWf, (State.joinQueue_frame _ _ _).1]; exact h

/-- The writes of an agent of the device, made or queued, keep the form of memory. -/
theorem State.memoryWf_deviceSend {s : State} (o : DevOwner) (l : List DevStep) (h : s.MemoryWf) : (s.deviceSend o l).MemoryWf := by
  unfold State.deviceSend; split
  · exact h
  · exact State.memoryWf_deviceSteps o none l h

theorem State.memoryWf_homeWrite {s : State} (pa n v : Nat) (h : s.MemoryWf) : (s.homeWrite pa n v).MemoryWf :=
  State.memoryWf_deviceSend _ _ h

theorem State.memoryWf_homeOr {s : State} (pa : Nat) (m : Byte) (h : s.MemoryWf) : (s.homeOr pa m).MemoryWf :=
  State.memoryWf_deviceSend _ _ h

theorem State.memoryWf_markDirty {s : State} (pa : Nat) (h : s.MemoryWf) : (s.markDirty pa).MemoryWf := by
  unfold State.markDirty; split
  · exact State.memoryWf_deviceWrite _ _ _ _ h
  · exact h

/-! Writes at home leave the cores as they are. -/

theorem State.cores_askHost (s : State) (ln : Nat) (d : Bool) : (s.askHost ln d).cores = s.cores := by
  unfold State.askHost; dsimp only; split <;> rfl

theorem State.cores_dropCopies (s : State) (ln : Nat) : (s.dropCopies ln).cores = s.cores := by
  unfold State.dropCopies; dsimp only; split
  · rw [State.cores_askHost]; rfl
  · rfl

theorem State.cores_putNat (s : State) (a n v : Nat) : (s.putNat a n v).cores = s.cores := by
  induction n generalizing s a v with
  | zero => rfl
  | succ n ih => unfold State.putNat; rw [ih]; rfl

theorem State.cores_deviceWrite (s : State) (pa n v op : Nat) : (s.deviceWrite pa n v op).cores = s.cores := by
  unfold State.deviceWrite
  exact (foldl_keeps (P := fun x => x.cores = s.cores) (f := fun x g => x.setGranuleTag g false) (fun x g hx => hx) _ _
    (State.cores_putNat _ _ _ _) : _ = s.cores)

theorem State.cores_deviceSteps (o : DevOwner) (turn : Option Nat) (l : List DevStep) (s : State) : (deviceSteps o turn l s).cores = s.cores := by
  induction l generalizing s with
  | nil => rfl
  | cons x r ih =>
    cases x with
    | post i => exact ih _
    | write pa n v op =>
      unfold deviceSteps; dsimp only; split
      · rw [ih, State.cores_deviceWrite]
      · split
        · rw [(State.freeLine_frame _ _).2, (State.joinQueue_frame _ _ _).2]
        · rw [(State.joinQueue_frame _ _ _).2]

theorem State.cores_deviceSend (s : State) (o : DevOwner) (l : List DevStep) : (s.deviceSend o l).cores = s.cores := by
  unfold State.deviceSend; split
  · rfl
  · exact State.cores_deviceSteps o none l s

theorem State.cores_homeWrite (s : State) (pa n v : Nat) : (s.homeWrite pa n v).cores = s.cores := State.cores_deviceSend _ _ _

theorem State.cores_markDirty (s : State) (pa : Nat) : (s.markDirty pa).cores = s.cores := by
  unfold State.markDirty; split
  · exact State.cores_deviceWrite _ _ _ _ _
  · rfl

/-- A health record changes no core: it goes to F's ring and to the host. -/
theorem State.cores_health (s : State) (d e u n : Nat) : (s.health d e u n).cores = s.cores := by
  unfold State.health; dsimp only; split
  · rw [State.cores_homeWrite]
  · rfl

theorem State.memoryWf_count {s : State} (core tenant ev n : Nat) (h : s.MemoryWf) : (s.count core tenant ev n).MemoryWf := by
  unfold State.count; split
  · exact h
  · dsimp only; split
    · exact h
    · exact h

/-- A request at a memory controller is no write. -/
theorem State.memoryWf_charge {s : State} (tenant core ln : Nat) (h : s.MemoryWf) : (s.charge tenant core ln).MemoryWf := by
  unfold State.charge; split <;> exact h

theorem State.memoryWf_chargeAll {s : State} (tenant core : Nat) (lns : List Nat) (h : s.MemoryWf) : (s.chargeAll tenant core lns).MemoryWf :=
  List.foldlRecOn lns _ h fun _ hb _ _ => State.memoryWf_charge _ _ _ hb

theorem State.memoryWf_walkAccess {s : State} (core tenant va : Nat) (k : AccessKind) (h : s.MemoryWf) :
    (walkAccess s core tenant va k).1.MemoryWf := by
  have h0 := State.memoryWf_chargeAll tenant core (walkLines s tenant va) h
  unfold walkAccess; split
  · exact h0
  · split
    · exact h0
    · exact State.memoryWf_homeOr _ _ h0

/-- Translating an access keeps the form of memory, although a walk writes A and D bits. -/
theorem State.memoryWf_translate {s : State} (core tenant : Nat) (va : W64) (k : AccessKind) (h : s.MemoryWf) :
    (translate s core tenant va k).1.MemoryWf := by
  unfold translate; split
  · exact h
  · split
    · split
      · exact State.memoryWf_walkAccess _ _ _ _ h
      · exact h
    · exact State.memoryWf_walkAccess _ _ _ _ (State.memoryWf_count core tenant 9 1 h)

end Sys2Proof.Machine
end

