-- ==== Sys2Proof/Laws/Words.lean ====
section
/-! SUPPORT. Running a word: what `runWord` answers, and the words that write only registers. -/
namespace Sys2Proof.Machine

/-- A word that no split issues stops. -/
theorem runWord_noIssuer {s : State} (h : s.issuer = none) (sOnly : Bool) (m : MField) (body : Ctx → State → WordOut) :
    runWord sOnly m body s = .fault .noIssuer := by simp [runWord, h]

/-- A word of levels K and S runs its text. -/
theorem runWord_issuer {s : State} {c : Ctx} (h : s.issuer = some c) (m : MField) (body : Ctx → State → WordOut) :
    runWord false m body s = .next (settle c (body c s)) := by simp [runWord, h]

/-- A word of level S alone runs its text for a team of level S. -/
theorem runWord_sLevel {s : State} {c : Ctx} (h : s.issuer = some c) (hs : c.team.sLevel = true) (m : MField) (body : Ctx → State → WordOut) :
    runWord true m body s = .next (settle c (body c s)) := by simp [runWord, h, hs]

/-- A word of level S alone raises PRIVILEGE for a team of level K (R112). -/
theorem runWord_privilege {s : State} {c : Ctx} (h : s.issuer = some c) (hs : c.team.sLevel = false) (m : MField)
    (body : Ctx → State → WordOut) :
    runWord true m body s = .next (settle c (.trap s .privilege 0 (c.active m))) := by simp [runWord, h, hs]

@[simp] theorem guardW_ok (c : Ctx) (m : MField) (s : State) (k : WordOut) : guardW (.ok ()) c m s k = k := rfl

/-- Full scalars pass their check (R148). -/
theorem checkScalars_ok {c : Ctx} {rs : List Nat} (h : ∀ r ∈ rs, c.g.sFull r = true) : c.checkScalars rs = .ok () := by
  have : c.sEmpties rs = [] := by
    unfold Ctx.sEmpties
    rw [List.filter_eq_nil_iff.mpr (fun r hr => by simp [h r hr])]; rfl
  simp [Ctx.checkScalars, this]

/-- A word that changes its group by `f` alone. -/
theorem settle_modGroup {s : State} {c : Ctx} (h : s.issuer = some c) (f : Group → Group) (fs : List LaneFault)
    (hf : Cause.integrity ∉ faultCauses fs) : After c s (f c.g) (settle c (.done (s.modGroup c.gid f) fs)) :=
  settle_done fs hf (.modGroup s c.gid f) (State.group_modGroup f (issuer_group h).2.1)

/-- A word that changes nothing. -/
theorem settle_same {s : State} {c : Ctx} (h : s.issuer = some c) (fs : List LaneFault) (hf : Cause.integrity ∉ faultCauses fs) :
    After c s c.g (settle c (.done s fs)) :=
  settle_done fs hf (.refl _ s) (issuer_group h).2.1

end Sys2Proof.Machine
end

