-- ==== Sys2Proof/Laws/Splits.lean ====
section
/-! SUPPORT. Splits: merging, releasing and halting leave lanes where they stand and what they wait for (R123, R126, R127). -/
namespace Sys2Proof.Machine

/-- A split whose place is where its lanes go on: it is not held, or the word it is held at executes again. -/
def Split.Stands (p : Split) : Prop := p.st = .held → ∃ h, p.held = some h ∧ h.again = true

/-- Lanes that stand at an address, so that merging and releasing keep them there. -/
def Group.Standing (g : Group) (lanes : Lanes) (a : W64) (code : Cap) : Prop :=
  (∃ k p, NMap.find g.splits k = some p ∧ lanes &&& ~~~p.lanes = 0 ∧ p.place = a ∧ p.code = code ∧ p.Stands)
    ∨ ∃ o ∈ g.overflow, lanes &&& ~~~o.lanes = 0 ∧ o.place = a ∧ o.code = code

theorem sub_or_left {l a b : Lanes} (h : l &&& ~~~a = 0) : l &&& ~~~(a ||| b) = 0 := by
  rw [BitVec.not_or, ← BitVec.and_assoc, h]; simp
theorem sub_or_right {l a b : Lanes} (h : l &&& ~~~b = 0) : l &&& ~~~(a ||| b) = 0 := by
  rw [BitVec.or_comm]; exact sub_or_left h

/-- What one merge does: two mergeable splits become one in the lower slot (R127). -/
theorem mergeOnce_cases {g h : Group} (e : g.mergeOnce = some h) :
    ∃ i j p q, i ≠ j ∧ NMap.find g.splits i = some p ∧ NMap.find g.splits j = some q ∧ mergeable p q = true
      ∧ h.splits = NMap.del (NMap.set g.splits i (mergeSplits p q)) j ∧ h.overflow = g.overflow ∧ h.lateMarks = g.lateMarks := by
  unfold Group.mergeOnce at e
  split at e
  · cases e
  · rename_i i j hp
    unfold mergePair at hp
    have hm := List.find?_some hp
    have hij : i ≠ j := by
      have := List.mem_of_find?_eq_some hp
      simp at this; omega
    split at e
    · rename_i p q h1 h2
      cases e
      simp only [h1, h2] at hm
      exact ⟨i, j, p, q, hij, h1, h2, hm, rfl, rfl, rfl⟩
    · cases e

theorem releaseOnce_cases {g h : Group} {n : Nat} (e : g.releaseOnce n = some h) :
    ∃ o r i, g.overflow = o :: r ∧ NMap.find g.splits i = none ∧ h.splits = NMap.set g.splits i (o.toSplit n) ∧ h.overflow = r
      ∧ h.lateMarks = g.lateMarks := by
  unfold Group.releaseOnce at e
  split at e
  · rename_i o r i h1 h2
    cases e
    refine ⟨o, r, i, h1, ?_, rfl, rfl, rfl⟩
    unfold Group.freeSlot at h2
    have := List.find?_some h2
    simpa using this
  · cases e

/-- Two splits that merge while one of them stands, stand at one place. -/
theorem place_of_mergeable {p q : Split} (h : mergeable p q = true) (s : p.Stands ∨ q.Stands) : p.place = q.place ∧ p.Stands := by
  unfold mergeable at h
  simp only [Bool.and_eq_true, Bool.or_eq_true, beq_iff_eq, Bool.not_eq_true'] at h
  obtain ⟨-, h | h⟩ := h
  · exact ⟨h.2, fun e => absurd (h.1.1.symm.trans e) (by decide)⟩
  · obtain ⟨⟨⟨⟨⟨⟨hp, hq⟩, cp⟩, cq⟩, hw⟩, -⟩, ha⟩ := h
    obtain ⟨c, hc⟩ := Option.isSome_iff_exists.mp cp
    obtain ⟨d, hd⟩ := Option.isSome_iff_exists.mp cq
    have key : ∃ a b, p.held = some a ∧ q.held = some b ∧ a.again = true ∧ b.again = true := by
      rcases s with s | s
      · obtain ⟨a, ea, ta⟩ := s hp
        rw [ea] at ha
        cases eb : q.held with
        | none => rw [eb] at ha; cases ha
        | some b => rw [eb] at ha; simp at ha; exact ⟨a, b, ea, rfl, ta, ha ▸ ta⟩
      · obtain ⟨b, eb, tb⟩ := s hq
        rw [eb] at ha
        cases ea : p.held with
        | none => rw [ea] at ha; cases ha
        | some a => rw [ea] at ha; simp at ha; exact ⟨a, b, rfl, eb, ha.trans tb, tb⟩
    obtain ⟨a, b, ea, eb, ta, tb⟩ := key
    refine ⟨?_, fun _ => ⟨a, ea, ta⟩⟩
    simpa [Split.heldWord, Split.place, ea, eb, ta, tb, hc, hd] using hw

theorem stands_mergeSplits {p q : Split} (_ : mergeable p q = true) (s : p.Stands) : (mergeSplits p q).Stands := by
  intro e
  obtain ⟨a, ea, ta⟩ := s e
  cases eb : q.held with
  | none => exact ⟨a, by simp [mergeSplits, ea, eb], ta⟩
  | some b =>
    refine ⟨_, by simp only [mergeSplits, ea, eb]; rfl, ?_⟩
    exact ta

theorem code_of_mergeable {p q : Split} (h : mergeable p q = true) : p.code = q.code := by
  unfold mergeable at h
  simp only [Bool.and_eq_true, beq_iff_eq] at h
  exact h.1.1.1

theorem standing_mergeOnce {g h : Group} {l : Lanes} {a : W64} {c : Cap} (e : g.mergeOnce = some h) (s : g.Standing l a c) :
    h.Standing l a c := by
  obtain ⟨i, j, p, q, hij, hp, hq, hm, hs, ho, _⟩ := mergeOnce_cases e
  have hi : NMap.find h.splits i = some (mergeSplits p q) := by
    rw [hs, NMap.find_del_other _ (fun e => hij e.symm), NMap.find_set_same]
  rcases s with ⟨k, x, hk, hl, ha, hc, hst⟩ | ⟨o, hmem, h1, h2, h3⟩
  · left
    by_cases k1 : k = i
    · subst k1
      rw [hp] at hk; cases hk
      exact ⟨k, _, hi, sub_or_left hl, ha, hc, stands_mergeSplits hm hst⟩
    · by_cases k2 : k = j
      · subst k2
        rw [hq] at hk; cases hk
        obtain ⟨e1, e2⟩ := place_of_mergeable hm (.inr hst)
        exact ⟨i, _, hi, sub_or_right hl, e1.trans ha, (code_of_mergeable hm).trans hc, stands_mergeSplits hm e2⟩
      · refine ⟨k, x, ?_, hl, ha, hc, hst⟩
        rw [hs, NMap.find_del_other _ (fun e => k2 e.symm), NMap.find_set_other _ _ _ _ (fun e => k1 e.symm), hk]
  · right
    exact ⟨o, ho ▸ hmem, h1, h2, h3⟩

theorem place_toSplit (o : Overflow) (n : Nat) : (o.toSplit n).place = o.place := by
  unfold Overflow.toSplit Overflow.place
  split <;> simp_all [Split.boundAt, Split.place]
theorem stands_toSplit (o : Overflow) (n : Nat) : (o.toSplit n).Stands := by
  unfold Overflow.toSplit Split.Stands
  split <;> simp [Split.boundAt]
theorem lanes_toSplit (o : Overflow) (n : Nat) : (o.toSplit n).lanes = o.lanes := by
  unfold Overflow.toSplit
  split <;> rfl
theorem code_toSplit (o : Overflow) (n : Nat) : (o.toSplit n).code = o.code := by
  unfold Overflow.toSplit
  split <;> rfl

theorem standing_releaseOnce {g h : Group} {n : Nat} {l : Lanes} {a : W64} {c : Cap} (e : g.releaseOnce n = some h)
    (s : g.Standing l a c) : h.Standing l a c := by
  obtain ⟨o, r, i, ho, hi, hs, hr, _⟩ := releaseOnce_cases e
  rcases s with ⟨k, x, hk, hl, ha, hc, hst⟩ | ⟨o', hmem, h1, h2, h3⟩
  · left
    refine ⟨k, x, ?_, hl, ha, hc, hst⟩
    rw [hs, NMap.find_set_other _ _ _ _ (by rintro rfl; rw [hi] at hk; cases hk), hk]
  · rw [ho] at hmem
    rcases List.mem_cons.mp hmem with rfl | hmem
    · left
      exact ⟨i, _, by rw [hs]; exact NMap.find_set_same _ _ _, by rw [lanes_toSplit]; exact h1, by rw [place_toSplit]; exact h2,
        by rw [code_toSplit]; exact h3, stands_toSplit _ _⟩
    · right; exact ⟨o', hr ▸ hmem, h1, h2, h3⟩

theorem standing_settleSplits {g : Group} {n : Nat} {l : Lanes} {a : W64} {c : Cap} (k : Nat) (s : g.Standing l a c) :
    (g.settleSplits n k).Standing l a c := by
  induction k generalizing g with
  | zero => exact s
  | succ k ih =>
    unfold Group.settleSplits
    split
    · exact ih (standing_mergeOnce ‹_› s)
    · split
      · exact ih (standing_releaseOnce ‹_› s)
      · exact s

/-- A map over the values of a finite map. -/
theorem find_mapVal {α β : Type} (f : α → β) (m : List (Nat × α)) (k : Nat) :
    NMap.find (m.map fun kp => (kp.1, f kp.2)) k = (NMap.find m k).map f := by
  induction m with
  | nil => rfl
  | cons x r ih =>
    obtain ⟨j, p⟩ := x
    by_cases hj : j = k <;> simp [NMap.find, hj, ih]

theorem find_haltScan (g : Group) (k : Nat) : NMap.find g.haltScan.splits k = (NMap.find g.splits k).map fun p =>
    if p.st == .halt then (if g.mustHalt p || g.halted then p else { p with st := p.prior, eligible := false })
    else if p.st == .issue && g.mustHalt p then
      { p with st := .halt, prior := .held, held := some ⟨[], true, false⟩, stall := 0, dbgStep := false }
    else if p.st == .bound && (g.mustHalt p || (g.halted && !p.dbgStep)) then { p with st := .halt, prior := .bound }
    else if p.st == .held && g.halted && !p.dbgStep then { p with st := .halt, prior := .held }
    else p := by
  rw [← find_mapVal]
  unfold Group.haltScan
  dsimp only
  congr 1
  apply List.map_congr_left
  rintro ⟨j, p⟩ -
  dsimp only
  split_ifs <;> rfl

theorem lanesAt_haltScan {g : Group} {l : Lanes} {a : W64} {c : Cap} (s : g.Standing l a c) : g.haltScan.LanesAt l a c := by
  rcases s with ⟨k, x, hk, hl, ha, hc, hst⟩ | h
  · left
    have := find_haltScan g k
    rw [hk] at this
    simp only [Option.map_some] at this
    refine ⟨k, _, this, ?_, ?_, ?_⟩ <;> split_ifs <;> first | exact hl | exact ha | exact hc
  · right; exact h

theorem enterLateMarks_none {g : Group} (h : g.lateMarks = []) (n : Nat) : g.enterLateMarks n = g := by
  cases n with
  | zero => rfl
  | succ n => unfold Group.enterLateMarks; rw [h]; simp

/-- Without late marks, merging, releasing and halting leave lanes where they stand. -/
theorem lanesAt_normalise {g : Group} {l : Lanes} {a : W64} {c : Cap} (n : Nat) (hm : g.lateMarks = []) (s : g.Standing l a c) :
    (g.normalise n).LanesAt l a c := by
  unfold Group.normalise
  dsimp only
  rw [enterLateMarks_none hm]
  exact lanesAt_haltScan (standing_settleSplits _ s)

/-! Held splits. -/

/-- A held split waits for some conditions. -/
def Group.Waiting (g : Group) (lanes : Lanes) (cs : List Cond) : Prop :=
  ∃ k p h, NMap.find g.splits k = some p ∧ lanes &&& ~~~p.lanes = 0 ∧ p.held = some h ∧ (∀ x ∈ cs, x ∈ h.conds) ∧ p.st = .held

theorem waiting_mergeOnce {g h : Group} {l : Lanes} {cs : List Cond} (e : g.mergeOnce = some h) (s : g.Waiting l cs) : h.Waiting l cs := by
  obtain ⟨i, j, p, q, hij, hp, hq, hm, hs, ho, _⟩ := mergeOnce_cases e
  obtain ⟨k, x, w, hk, hl, hw, hcs, hst⟩ := s
  unfold mergeable at hm
  simp only [Bool.and_eq_true, Bool.or_eq_true, beq_iff_eq, Bool.not_eq_true'] at hm
  obtain ⟨-, hm⟩ := hm
  by_cases k1 : k = i
  · subst k1
    rw [hp] at hk; cases hk
    have hi : NMap.find h.splits k = some (mergeSplits p q) := by
      rw [hs, NMap.find_del_other _ (fun e => hij e.symm), NMap.find_set_same]
    cases hqh : q.held with
    | none => exact ⟨k, _, w, hi, sub_or_left hl, by simp [mergeSplits, hw, hqh], hcs, hst⟩
    | some b =>
      refine ⟨k, _, _, hi, sub_or_left hl, by simp only [mergeSplits, hw, hqh]; rfl, ?_, hst⟩
      intro y hy; exact List.mem_append_left _ (hcs y hy)
  · by_cases k2 : k = j
    · subst k2
      rw [hq] at hk; cases hk
      have hi : NMap.find h.splits i = some (mergeSplits p q) := by
        rw [hs, NMap.find_del_other _ (fun e => hij e.symm), NMap.find_set_same]
      have hst' : p.st = .held := by
        rcases hm with h1 | h1
        · rw [hst] at h1; exact absurd h1.1.2 (by decide)
        · exact h1.1.1.1.1.1.1
      cases hph : p.held with
      | none => exact ⟨i, _, w, hi, sub_or_right hl, by simp [mergeSplits, hw, hph], hcs, hst'⟩
      | some b =>
        refine ⟨i, _, _, hi, sub_or_right hl, by simp only [mergeSplits, hw, hph]; rfl, ?_, hst'⟩
        intro y hy
        by_cases hb : y ∈ b.conds
        · exact List.mem_append_left _ hb
        · exact List.mem_append_right _ (List.mem_filter.mpr ⟨hcs y hy, by simpa using hb⟩)
    · refine ⟨k, x, w, ?_, hl, hw, hcs, hst⟩
      rw [hs, NMap.find_del_other _ (fun e => k2 e.symm), NMap.find_set_other _ _ _ _ (fun e => k1 e.symm), hk]

theorem waiting_settleSplits {g : Group} {n : Nat} {l : Lanes} {cs : List Cond} (k : Nat) (s : g.Waiting l cs) :
    (g.settleSplits n k).Waiting l cs := by
  induction k generalizing g with
  | zero => exact s
  | succ k ih =>
    unfold Group.settleSplits
    split
    · exact ih (waiting_mergeOnce ‹_› s)
    · split
      · rename_i h e
        obtain ⟨o, r, i, ho, hi, hs, hr, _⟩ := releaseOnce_cases e
        obtain ⟨k', x, w, hk, hl, hw, hcs, hst⟩ := s
        refine ih ⟨k', x, w, ?_, hl, hw, hcs, hst⟩
        rw [hs, NMap.find_set_other _ _ _ _ (by rintro rfl; rw [hi] at hk; cases hk), hk]
      · exact s

theorem lanesHeld_normalise {g : Group} {l : Lanes} {cs : List Cond} (n : Nat) (hm : g.lateMarks = []) (s : g.Waiting l cs) :
    (g.normalise n).LanesHeld l cs := by
  unfold Group.normalise
  dsimp only
  rw [enterLateMarks_none hm]
  obtain ⟨k, x, w, hk, hl, hw, hcs, hst⟩ := waiting_settleSplits (n := n) (g.splits.length + 2 * g.overflow.length + 1) s
  have := find_haltScan (g.settleSplits n (g.splits.length + 2 * g.overflow.length + 1)) k
  rw [hk] at this
  simp only [Option.map_some] at this
  refine ⟨k, _, w, this, ?_, ?_, hcs⟩ <;> split_ifs <;> first | exact hl | exact hw | simp_all

end Sys2Proof.Machine
end

