-- ==== Sys2Proof/Laws/Vectors.lean ====
section
/-! SUPPORT. Vector registers: what writing lanes changes, and what a vector word leaves (R187). -/
namespace Sys2Proof.Machine

theorem setAt_getD {α : Type} (d : α) (l : List α) (i j : Nat) (v : α) : (setAt d l i v).getD j d = if i = j then v else l.getD j d := by
  induction l generalizing i j with
  | nil =>
    induction i generalizing j with
    | zero => cases j <;> simp [setAt]
    | succ n ih =>
      cases j with
      | zero => simp [setAt]
      | succ j => simpa [setAt] using ih j
  | cons x r ih =>
    cases i with
    | zero => cases j <;> simp [setAt]
    | succ n =>
      cases j with
      | zero => simp [setAt]
      | succ j => simpa [setAt] using ih n j

theorem Group.v_setLane (g : Group) (r l : Nat) (w : W32) (q : Nat) :
    (g.setLane r l w).v q = if r = q then { g.v q with lanes := setAt 0 (g.v q).lanes l w } else g.v q := by
  unfold Group.v Group.setLane
  by_cases h : r = q
  · subst h; simp [NMap.getD_set_same, Group.v]
  · simp only [h, if_false]; exact NMap.getD_set_other _ _ _ h

/-- Writing a lane's word changes that word alone. -/
theorem Group.lane_setLane (g : Group) (r l : Nat) (w : W32) (q k : Nat) :
    (g.setLane r l w).lane q k = if r = q ∧ l = k then w else g.lane q k := by
  unfold Group.lane
  rw [Group.v_setLane]
  by_cases h : r = q
  · simp only [h, if_true, true_and]
    exact setAt_getD _ _ _ _ _
  · simp [h]

theorem Group.lane_writeLanes_other (ws : List (Nat × Nat × W32)) (g : Group) (q k : Nat) (h : ∀ x ∈ ws, ¬(x.1 = q ∧ x.2.1 = k)) :
    (g.writeLanes ws).lane q k = g.lane q k := by
  induction ws generalizing g with
  | nil => rfl
  | cons x r ih =>
    have := ih (g.setLane x.1 x.2.1 x.2.2) (fun y hy => h y (List.mem_cons_of_mem _ hy))
    rw [show g.writeLanes (x :: r) = (g.setLane x.1 x.2.1 x.2.2).writeLanes r from rfl, this, Group.lane_setLane,
      if_neg (h x (List.mem_cons_self ..))]

/-- A list that writes no word twice leaves each of its words. -/
theorem Group.lane_writeLanes (ws : List (Nat × Nat × W32)) (g : Group) {q k : Nat} {w : W32} (hm : (q, k, w) ∈ ws)
    (hd : ws.Pairwise fun x y => ¬(x.1 = y.1 ∧ x.2.1 = y.2.1)) : (g.writeLanes ws).lane q k = w := by
  induction ws generalizing g with
  | nil => cases hm
  | cons x r ih =>
    rw [List.pairwise_cons] at hd
    rw [show g.writeLanes (x :: r) = (g.setLane x.1 x.2.1 x.2.2).writeLanes r from rfl]
    rcases List.mem_cons.mp hm with rfl | hm
    · rw [Group.lane_writeLanes_other]
      · simp [Group.lane_setLane]
      · intro y hy hyq; exact hd.1 y hy ⟨hyq.1.symm, hyq.2.symm⟩
    · exact ih _ hm hd.2

theorem Group.v_writeLanes (ws : List (Nat × Nat × W32)) (g : Group) (q : Nat) :
    ((g.writeLanes ws).v q).tag = (g.v q).tag ∧ ((g.writeLanes ws).v q).full = (g.v q).full := by
  induction ws generalizing g with
  | nil => exact ⟨rfl, rfl⟩
  | cons x r ih =>
    have h := ih (g.setLane x.1 x.2.1 x.2.2)
    rw [show g.writeLanes (x :: r) = (g.setLane x.1 x.2.1 x.2.2).writeLanes r from rfl]
    rw [Group.v_setLane] at h
    split at h <;> exact h

theorem Group.v_writeLanes_other (ws : List (Nat × Nat × W32)) (g : Group) (q : Nat) (h : ∀ x ∈ ws, x.1 ≠ q) :
    (g.writeLanes ws).v q = g.v q := by
  induction ws generalizing g with
  | nil => rfl
  | cons x r ih =>
    rw [show g.writeLanes (x :: r) = (g.setLane x.1 x.2.1 x.2.2).writeLanes r from rfl,
      ih _ (fun y hy => h y (List.mem_cons_of_mem _ hy)), Group.v_setLane, if_neg (h x (List.mem_cons_self ..))]

theorem Group.v_fillV (g : Group) (r : Nat) (t : FTag) (q : Nat) :
    (g.fillV r t).v q = if r = q then { g.v q with tag := t, full := true } else g.v q := by
  unfold Group.fillV Group.setV
  by_cases h : r = q
  · subst h
    show NMap.getD (NMap.set g.vregs r _) r VReg.fresh = _
    simp [NMap.getD_set_same]
  · show NMap.getD (NMap.set g.vregs r _) q VReg.fresh = _
    rw [NMap.getD_set_other _ _ _ h, if_neg h]; rfl

theorem Group.v_fillAll (rs : List Nat) (g : Group) (t : FTag) (q : Nat) :
    (g.fillAll rs t).v q = if q ∈ rs then { g.v q with tag := t, full := true } else g.v q := by
  induction rs generalizing g with
  | nil => simp [Group.fillAll]
  | cons r rs ih =>
    rw [show g.fillAll (r :: rs) t = (g.fillV r t).fillAll rs t from rfl, ih, Group.v_fillV]
    by_cases h : r = q
    · subst h; simp
    · have h' : q ≠ r := fun e => h e.symm
      simp [h, h']

theorem Group.lane_fillAll (rs : List Nat) (g : Group) (t : FTag) (q k : Nat) : (g.fillAll rs t).lane q k = g.lane q k := by
  unfold Group.lane
  rw [Group.v_fillAll]
  split <;> rfl

/-! Writing lanes leaves the other registers. -/

theorem Group.writeLanes_rest (ws : List (Nat × Nat × W32)) (g : Group) :
    (g.writeLanes ws).sregs = g.sregs ∧ (g.writeLanes ws).sEmpty = g.sEmpty ∧ (g.writeLanes ws).sTags = g.sTags
      ∧ (g.writeLanes ws).xregs = g.xregs ∧ (g.writeLanes ws).windows = g.windows ∧ (g.writeLanes ws).ctrs = g.ctrs
      ∧ (g.writeLanes ws).sp = g.sp := by
  induction ws generalizing g with
  | nil => exact ⟨rfl, rfl, rfl, rfl, rfl, rfl, rfl⟩
  | cons x r ih => exact ih (g.setLane x.1 x.2.1 x.2.2)

theorem Group.fillAll_rest (rs : List Nat) (g : Group) (t : FTag) :
    (g.fillAll rs t).sregs = g.sregs ∧ (g.fillAll rs t).sEmpty = g.sEmpty ∧ (g.fillAll rs t).sTags = g.sTags
      ∧ (g.fillAll rs t).xregs = g.xregs ∧ (g.fillAll rs t).windows = g.windows ∧ (g.fillAll rs t).ctrs = g.ctrs
      ∧ (g.fillAll rs t).sp = g.sp := by
  induction rs generalizing g with
  | nil => exact ⟨rfl, rfl, rfl, rfl, rfl, rfl, rfl⟩
  | cons r rs ih => exact ih (g.fillV r t)

/-! The words of a result. -/

theorem splitWords_length (n v : Nat) : (splitWords n v).length = n := by
  induction n generalizing v with
  | zero => rfl
  | succ n ih => simp [splitWords, ih]

theorem splitWords_get (n v j : Nat) (h : j < n) : (splitWords n v)[j]? = some (BitVec.ofNat 32 (v / 2 ^ (32 * j))) := by
  induction n generalizing v j with
  | zero => omega
  | succ n ih =>
    cases j with
    | zero => simp [splitWords]
    | succ j =>
      rw [splitWords, List.getElem?_cons_succ, ih _ _ (by omega), Nat.div_div_eq_div_mul, ← pow_add]
      congr 4; ring

theorem mem_laneWrites {r n l v : Nat} {x : Nat × Nat × W32} :
    x ∈ laneWrites r n l v ↔ ∃ j < n, x = (r + j, l, BitVec.ofNat 32 (v / 2 ^ (32 * j))) := by
  unfold laneWrites
  rw [List.mem_map]
  constructor
  · rintro ⟨⟨w, j⟩, hm, rfl⟩
    have h := List.mk_mem_zipIdx_iff_getElem?.mp hm
    have hj : j < n := by
      have := (List.getElem?_eq_some_iff.mp h).1
      rwa [splitWords_length] at this
    rw [splitWords_get n v j hj] at h
    exact ⟨j, hj, by simp_all⟩
  · rintro ⟨j, hj, rfl⟩
    exact ⟨(_, j), List.mk_mem_zipIdx_iff_getElem?.mpr (splitWords_get n v j hj), rfl⟩

theorem laneWrites_pairwise (r n l v : Nat) : (laneWrites r n l v).Pairwise fun x y => ¬(x.1 = y.1 ∧ x.2.1 = y.2.1) := by
  unfold laneWrites
  rw [List.pairwise_map]
  have h : ((splitWords n v).zipIdx.map Prod.snd).Nodup := by
    rw [List.zipIdx_map_snd]; exact List.nodup_range'
  rw [List.Nodup, List.pairwise_map] at h
  exact h.imp fun {a b} hab hh => hab (by have := hh.1; simp only at this; omega)

/-! A vector word. -/

/-- The results of the lanes that resolve their operands, in lane order (R104). -/
theorem compute_fst (c : Ctx) (ls : List Nat) (ops : List (VField × Nat)) (d : VField) (p : VPlan) :
    (c.compute ls ops d p).1 = (resolved c ls ops d p.rtag.regs).map fun x =>
      ⟨x.1, x.2.2, (p.f x.1 ((x.2.1.zip ops).map fun y => c.read y.1 y.2.2 x.1) (c.read x.2.2 p.rtag.regs x.1)).bits,
        (p.f x.1 ((x.2.1.zip ops).map fun y => c.read y.1 y.2.2 x.1) (c.read x.2.2 p.rtag.regs x.1)).flags⟩ := by
  unfold Ctx.compute resolved
  have : ∀ (acc : List LaneOut × List LaneFault), (ls.foldl (fun acc l =>
      match c.resolve l ops, c.regAt d p.rtag.regs l with
      | some bs, some b =>
        let r := p.f l ((bs.zip ops).map fun x => c.read x.1 x.2.2 l) (c.read b p.rtag.regs l)
        (acc.1 ++ [⟨l, b, r.bits, r.flags⟩], acc.2)
      | _, _ => (acc.1, acc.2 ++ [(l, .indexWindow, 0)])) acc).1 = acc.1 ++ (ls.filterMap fun l => match c.resolve l ops, c.regAt d p.rtag.regs l with
        | some bs, some b => some (l, bs, b)
        | _, _ => none).map fun x => ⟨x.1, x.2.2, (p.f x.1 ((x.2.1.zip ops).map fun y => c.read y.1 y.2.2 x.1) (c.read x.2.2 p.rtag.regs x.1)).bits,
        (p.f x.1 ((x.2.1.zip ops).map fun y => c.read y.1 y.2.2 x.1) (c.read x.2.2 p.rtag.regs x.1)).flags⟩ := by
    induction ls with
    | nil => intro acc; simp
    | cons l r ih =>
      intro acc
      rw [List.foldl_cons, ih]
      cases h1 : c.resolve l ops with
      | none => simp [h1]
      | some bs =>
        cases h2 : c.regAt d p.rtag.regs l with
        | none => simp [h1, h2]
        | some b => simp [h1, h2]
  have h := this ([], [])
  rw [List.nil_append] at h
  exact h

theorem resolved_nodup (c : Ctx) (m : MField) (ops : List (VField × Nat)) (d : VField) (n : Nat) :
    ((resolved c (c.lanes m) ops d n).map Prod.fst).Nodup := by
  have : (resolved c (c.lanes m) ops d n).map Prod.fst = (c.lanes m).filter fun l => (c.resolve l ops).isSome && (c.regAt d n l).isSome := by
    unfold resolved
    induction c.lanes m with
    | nil => rfl
    | cons l r ih =>
      cases h1 : c.resolve l ops with
      | none => simp [h1, ih]
      | some bs =>
        cases h2 : c.regAt d n l with
        | none => simp [h1, h2, ih]
        | some b => simp [h1, h2, ih]
  rw [this]
  exact ((List.nodup_range (n := c.width)).filter _).filter _

theorem touched_of_regAt {c : Ctx} {d : VField} {n l : Nat} {ls : List Nat} {b j : Nat} (hl : l ∈ ls) (h : c.regAt d n l = some b) (hj : j < n) :
    b + j ∈ c.touched d n ls := by
  unfold Ctx.touched
  rw [List.mem_dedup, List.mem_flatMap]
  refine ⟨b, ?_, List.mem_map.mpr ⟨j, List.mem_range.mpr hj, rfl⟩⟩
  split
  · unfold Ctx.regAt at h; simp_all
  · exact List.mem_filterMap.mpr ⟨l, hl, h⟩

theorem destRegs_sub {c : Ctx} {d : VField} {n : Nat} {ls : List Nat} {rs : List LaneOut} (h : ∀ x ∈ rs, x.lane ∈ ls ∧ c.regAt d n x.lane = some x.base)
    {q : Nat} (hq : q ∈ destRegs d n rs) : q ∈ c.touched d n ls := by
  unfold destRegs at hq
  rw [List.mem_dedup, List.mem_flatMap] at hq
  obtain ⟨r, hr, hq⟩ := hq
  obtain ⟨j, hj, rfl⟩ := List.mem_map.mp hq
  rw [List.mem_range] at hj
  split at hr
  · rename_i hd
    unfold Ctx.touched
    rw [List.mem_dedup, List.mem_flatMap]
    exact ⟨r, by rw [if_pos hd]; exact hr, List.mem_map.mpr ⟨j, List.mem_range.mpr hj, rfl⟩⟩
  · obtain ⟨x, hx, rfl⟩ := List.mem_map.mp hr
    exact touched_of_regAt (h x hx).1 (h x hx).2 hj

theorem mem_destRegs {c : Ctx} {d : VField} {n : Nat} {rs : List LaneOut} {x : LaneOut} (hx : x ∈ rs) (h : c.regAt d n x.lane = some x.base)
    {j : Nat} (hj : j < n) : x.base + j ∈ destRegs d n rs := by
  unfold destRegs
  rw [List.mem_dedup, List.mem_flatMap]
  refine ⟨x.base, ?_, List.mem_map.mpr ⟨j, List.mem_range.mpr hj, rfl⟩⟩
  split
  · unfold Ctx.regAt at h; simp_all
  · exact List.mem_map.mpr ⟨x, hx, rfl⟩

theorem fpTrap_none {fpctl : W64} {fl : List (Nat × Nat)} (h : ∀ x ∈ fl, ∀ b < 5, fpctl.getLsbD b = true → x.2.testBit b = false) :
    fpTrap fpctl fl = none := by
  have key : ∀ b < 5, fpctl.getLsbD b = true → (allFlags fl).testBit b = false := by
    intro b hb hf
    unfold allFlags
    have : ∀ (m : Nat), m.testBit b = false → (fl.foldl (fun m x => m ||| x.2) m).testBit b = false := by
      induction fl with
      | nil => intro m hm; exact hm
      | cons x r ih =>
        intro m hm
        rw [List.foldl_cons]
        apply ih (fun y hy => h y (List.mem_cons_of_mem _ hy))
        rw [Nat.testBit_or, hm, h x (List.mem_cons_self ..) b hb hf]; rfl
    exact this 0 (by simp)
  unfold fpTrap
  have : ([0, 1, 2, 3, 4].find? fun b => fpctl.getLsbD b && (allFlags fl).testBit b) = none := by
    rw [List.find?_eq_none]
    intro b hb
    have hb5 : b < 5 := by simp at hb; omega
    simp only [Bool.and_eq_true, not_and, Bool.not_eq_true]
    exact key b hb5
  rw [this]

/-- A lane that resolves no register faults with INDEX_WINDOW, and with nothing else (R104). -/
theorem compute_snd (c : Ctx) (ls : List Nat) (ops : List (VField × Nat)) (d : VField) (p : VPlan) :
    ∀ f ∈ (c.compute ls ops d p).2, f.2.1 = .indexWindow := by
  unfold Ctx.compute
  refine List.foldlRecOn (motive := fun acc : List LaneOut × List LaneFault => ∀ f ∈ acc.2, f.2.1 = Cause.indexWindow) ls _ (by simp) fun acc h l _ => ?_
  split
  · exact h
  · intro f hf
    rcases List.mem_append.mp hf with hf | hf
    · exact h f hf
    · simp only [List.mem_singleton] at hf; subst hf; rfl

theorem integrity_notMem_compute (c : Ctx) (ls : List Nat) (ops : List (VField × Nat)) (d : VField) (p : VPlan) :
    Cause.integrity ∉ faultCauses (c.compute ls ops d p).2 := by
  intro h
  obtain ⟨f, hf, e⟩ := List.mem_map.mp h
  rw [compute_snd c ls ops d p f hf] at e; cases e

theorem vector_core {s : State} {c : Ctx} (hi : s.issuer = some c) (m : MField) (ops : List (VField × Nat)) (d : VField) (p : VPlan) (t : FTag)
    (hfl : ∀ x ∈ resolved c (c.lanes m) ops d p.rtag.regs, ∀ b < 5, c.g.sp.fpctl.getLsbD b = true →
        (p.f x.1 ((x.2.1.zip ops).map fun y => c.read y.1 y.2.2 x.1) (c.read x.2.2 p.rtag.regs x.1)).flags.testBit b = false) :
    VectorResult c s (c.lanes m) ops d p.rtag.regs t p.f
      (settle c (vectorResult c s m d p.rtag.regs t (c.compute (c.lanes m) ops d p).1 (c.compute (c.lanes m) ops d p).2)) := by
  have e := compute_fst c (c.lanes m) ops d p
  unfold vectorResult
  rw [fpTrap_none (by
    rw [e]; intro x hx
    simp only [List.map_map, List.mem_map] at hx
    obtain ⟨y, hy, rfl⟩ := hx
    exact hfl y hy)]
  dsimp only
  refine ⟨_, settle_modGroup hi _ _ (integrity_notMem_compute _ _ _ _ _), ?_⟩
  have hlane : ∀ x ∈ resolved c (c.lanes m) ops d p.rtag.regs, x.1 ∈ c.lanes m ∧ c.regAt d p.rtag.regs x.1 = some x.2.2 := by
    intro x hx
    unfold resolved at hx
    obtain ⟨l, hl, h⟩ := List.mem_filterMap.mp hx
    split at h
    · cases h; exact ⟨hl, ‹_›⟩
    · cases h
  have hpw : ((c.compute (c.lanes m) ops d p).1.flatMap fun r => laneWrites r.base p.rtag.regs r.lane r.bits).Pairwise
      fun x y => ¬(x.1 = y.1 ∧ x.2.1 = y.2.1) := by
    rw [List.pairwise_flatMap]
    refine ⟨fun a _ => laneWrites_pairwise _ _ _ _, ?_⟩
    have := resolved_nodup c m ops d p.rtag.regs
    rw [e, List.pairwise_map]
    rw [List.Nodup, List.pairwise_map] at this
    refine this.imp ?_
    intro a b hab x hx y hy hxy
    obtain ⟨j, _, rfl⟩ := mem_laneWrites.mp hx
    obtain ⟨k, _, rfl⟩ := mem_laneWrites.mp hy
    exact hab hxy.2
  have hraise : ∀ (g : Group) n, (g.raise n).vregs = g.vregs := fun _ _ => rfl
  have hv : ∀ (g : Group) n q, (g.raise n).v q = g.v q := fun _ _ _ => rfl
  have hl : ∀ (g : Group) n q k, (g.raise n).lane q k = g.lane q k := fun _ _ _ _ => rfl
  refine ⟨?_, ?_, ?_, ?_⟩
  · intro x hx j hj
    obtain ⟨y, hy, rfl⟩ := List.mem_map.mp hx
    refine ⟨?_, ?_⟩
    · rw [hl]; unfold Group.writeResult; rw [Group.lane_fillAll]
      apply Group.lane_writeLanes _ _ _ hpw
      rw [List.mem_flatMap, e]
      refine ⟨_, List.mem_map_of_mem hy, ?_⟩
      rw [mem_laneWrites]
      refine ⟨j, hj, ?_⟩
      dsimp only
    · rw [hv]; unfold Group.writeResult; rw [Group.v_fillAll, if_pos]
      · exact ⟨rfl, rfl⟩
      · rw [e]
        have hm := List.mem_map_of_mem (f := fun x : Nat × List Nat × Nat => (⟨x.1, x.2.2, (p.f x.1 ((x.2.1.zip ops).map fun y => c.read y.1 y.2.2 x.1) (c.read x.2.2 p.rtag.regs x.1)).bits,
        (p.f x.1 ((x.2.1.zip ops).map fun y => c.read y.1 y.2.2 x.1) (c.read x.2.2 p.rtag.regs x.1)).flags⟩ : LaneOut)) hy
        have := mem_destRegs (c := c) (d := d) hm (hlane y hy).2 hj
        exact this
  · intro q k h
    rw [hl]; unfold Group.writeResult; rw [Group.lane_fillAll]
    apply Group.lane_writeLanes_other
    intro x hx ⟨h1, h2⟩
    rw [List.mem_flatMap, e] at hx
    obtain ⟨r, hr, hx⟩ := hx
    obtain ⟨y, hy, rfl⟩ := List.mem_map.mp hr
    obtain ⟨j, hj, rfl⟩ := mem_laneWrites.mp hx
    simp only at h1 h2
    have := h _ (List.mem_map_of_mem hy) h2
    simp only at this
    omega
  · intro q hq
    rw [hv]; unfold Group.writeResult; rw [Group.v_fillAll, if_neg]
    · apply Group.v_writeLanes_other
      intro x hx h1
      rw [List.mem_flatMap, e] at hx
      obtain ⟨r, hr, hx⟩ := hx
      obtain ⟨y, hy, rfl⟩ := List.mem_map.mp hr
      obtain ⟨j, hj, rfl⟩ := mem_laneWrites.mp hx
      exact hq (h1 ▸ touched_of_regAt (hlane y hy).1 (hlane y hy).2 hj)
    · intro h
      apply hq
      apply destRegs_sub _ h
      rw [e]; intro x hx
      obtain ⟨y, hy, rfl⟩ := List.mem_map.mp hx
      exact hlane y hy
  · have h1 := Group.fillAll_rest (destRegs d p.rtag.regs (c.compute (c.lanes m) ops d p).1) (c.g.writeLanes
      ((c.compute (c.lanes m) ops d p).1.flatMap fun r => laneWrites r.base p.rtag.regs r.lane r.bits)) t
    have h2 := Group.writeLanes_rest ((c.compute (c.lanes m) ops d p).1.flatMap fun r => laneWrites r.base p.rtag.regs r.lane r.bits) c.g
    refine ⟨h1.1.trans h2.1, h1.2.1.trans h2.2.1, h1.2.2.1.trans h2.2.2.1, h1.2.2.2.1.trans h2.2.2.2.1, h1.2.2.2.2.1.trans h2.2.2.2.2.1,
      h1.2.2.2.2.2.1.trans h2.2.2.2.2.2.1, ?_⟩
    have h3 := h1.2.2.2.2.2.2.trans h2.2.2.2.2.2.2
    show ({ (Group.writeResult _ _ _ _).sp with fpst := _ } : Special) = _
    have e2 : allFlags ((c.compute (c.lanes m) ops d p).1.map fun r => (r.lane, r.flags)) =
        ((resolved c (c.lanes m) ops d p.rtag.regs).map fun x => (x.1, x.2.2,
          p.f x.1 ((x.2.1.zip ops).map fun y => c.read y.1 y.2.2 x.1) (c.read x.2.2 p.rtag.regs x.1))).foldl (fun m x => m ||| x.2.2.flags) 0 := by
      rw [e]; unfold allFlags; simp only [List.map_map, List.foldl_map]; rfl
    unfold Group.writeResult
    rw [h3, e2]

end Sys2Proof.Machine
end

