-- ==== Sys2Proof/Tests/Slice0.lean ====
section
/-! SUPPORT. Tests: ill-formed instructions that WellFormed refuses, words that the manual writes out, single steps, and for every statement
with hypotheses states and operands that meet them (`hyp_…`). -/
namespace Sys2Proof.Tests
set_option Elab.async false
open Sys2Proof Sys2Proof.Machine Sys2Proof.Claims

/-! Small states: one team of one group on core 0, whose split 0 issues the first word of a clause at 0x1000. -/

def cl0 : Clause := fetchClause 128 0
def code0 : Cap := ⟨fetchDesc.extractLsb' 0 128, true⟩
def split0 : Split := { Split.boundAt 0x1000 (widthMask 32) code0 .none_ 0 with clause := some cl0, st := .issue }
def group0 : Group := { Group.fresh with splits := [(0, split0)] }
def teamOf (g : Group) : Team := { fetchTeam cl0 with groups := [(0, g)] }
def site0 : Site := ⟨⟨0, 0, 0⟩, 0⟩
def coreOf (t : Team) : Core := { Core.fresh with pool := some (512, 512, 1536), teams := [(0, t)], quads := [(0, ⟨some site0, none⟩)] }
def worldOf (k : Core) : State := { State.reset with focus := some (0, 0), cores := [(0, k)] }
def issuing (g : Group) : State := worldOf (coreOf (teamOf g))
def ctxOf (t : Team) (g : Group) : Ctx := ⟨site0, t, g, split0, cl0⟩

/-- The split of such a state issues. -/
theorem issuer_of (s : State) (k : Core) (t : Team) (g : Group) (hf : s.focus = some (0, 0)) (hk : s.core 0 = k)
    (hq : NMap.find k.quads 0 = some ⟨some site0, none⟩) (ht : NMap.find k.teams 0 = some t) (hg : NMap.find t.groups 0 = some g)
    (hp : NMap.find g.splits 0 = some split0) : s.issuer = some (ctxOf t g) := by
  have h1 : s.team 0 0 = some t := by simp [State.team, hk, ht]
  have h2 : s.group ⟨0, 0, 0⟩ = some g := by simp [State.group, h1, hg]
  have h3 : s.split site0 = some split0 := by simp [State.split, site0, h2, hp]
  have h4 : split0.clause = some cl0 := rfl
  have h5 : (split0.st == SplitState.issue) = true := rfl
  have h6 : cl0.next < cl0.count := by decide
  simp only [State.issuer, State.issuing, hf, hk, hq, Option.bind]
  simp only [site0] at h2 h3 ⊢
  simp only [h1, h2, h3, h4, h5, h6, ctxOf, decide_true, Bool.and_self, if_true, site0]

theorem issuer_issuing (g : Group) (hp : NMap.find g.splits 0 = some split0) : (issuing g).issuer = some (ctxOf (teamOf g) g) :=
  issuer_of _ _ _ _ rfl rfl rfl rfl rfl hp

theorem full_of {g : Group} (h : g.sEmpty = []) (rs : List SReg) : ScalarsFull g rs := by
  intro r _
  simp [Group.sFull, h]

/-- Registers 0 to 15 full with I32, 16 to 31 with F32. -/
def typed0 : NMap VReg := ((List.range 16).map fun r => (r, ⟨FTag.i32, true, []⟩)) ++ ((List.range 16).map fun r => (16 + r, ⟨FTag.f32, true, []⟩))
def groupV : Group := { group0 with vregs := typed0 }

/-! The same with a data capability over the first 2^40 bytes in sc4, a TLB page over them, and a tenant whose window on die 0 has 2^34 bytes. -/

def cap4 : Cap := capNarrow ⟨BitVec.ofNat 128 (0xFFF * 2 ^ 114), true⟩ 0 (2 ^ 40) 0xFFF 0x10000
def tenant0 : Tenant := { Tenant.fresh with entry := entrySet (entrySet 0 0 8 (2 ^ 63)) 72 8 (2 ^ 34) }
def groupM : Group := { groupV with
  sregs := [(1, 1), (4, cap4.bits.extractLsb' 0 64), (5, cap4.bits.extractLsb' 64 64)]
  sTags := [2] }
def coreM (t : Team) : Core := { coreOf t with tlb := [⟨0, 0, 2 ^ 40, 0, true, true, true, true⟩] }
def memWorld (t : Team) : State := { worldOf (coreM t) with tenants := [(0, tenant0)] }
def loading (g : Group) : State := memWorld (teamOf g)

theorem issuer_loading (g : Group) (hp : NMap.find g.splits 0 = some split0) : (loading g).issuer = some (ctxOf (teamOf g) g) :=
  issuer_of _ _ _ _ rfl rfl rfl rfl rfl hp

/-! Well-formedness: for each check of R112, step 4, an instruction that it accepts beside one that differs in the checked field and is refused. -/

def so : SOp := ⟨1, 2, 0, 0⟩
def vu : VU := ⟨1, 1535, 0, false⟩
def vb : VB := ⟨1, 1535, 3, 0, false, false⟩
def mo : MOp := ⟨2, 9, 10, 12, 16, false, 0, 4, 20⟩
def mu : MOp := ⟨3, 9, 10, 12, 0, true, 0, 4, 0⟩
def ml : MOp := ⟨2, 9, 10, 12, 0, true, 0, 1, 0⟩
def co : CapOp := ⟨true, 127, 127, 0, 0, false, false⟩
def ko : CpyOp := ⟨0, 4, 20, 0, 1, false⟩

/-- A pair: accepted, refused. -/
def splitsHere (x : Instr × Instr) : Bool := x.1.wf && !x.2.wf

theorem test_wf_control : ([(.calltv 1 0 false 1535, .calltv 1 0 false 1536), (.retv 1535 false, .retv 1536 false), (.pwait 5 14, .pwait 6 14), (.pwait 5 14, .pwait 5 15),
    (.sget 1 22, .sget 1 23), (.sset 1 22, .sset 1 23), (.sset 1 17, .sset 1 16), (.sset 1 5, .sset 1 4), (.launch 4 16 9, .launch 5 16 9), (.launch 4 8 9, .launch 4 0 9),
    (.launch 4 16 9, .launch 4 17 9), (.launch 4 120 9, .launch 4 124 9)] : List (Instr × Instr)).all splitsHere = true := by decide

theorem test_wf_scalar : ([(.smov so, .smov { so with b := 1 }), (.smov so, .smov { so with imm := 1 }), (.smovi { so with a := 0 }, .smovi so),
    (.smovhi so, .smovhi { so with b := 1 }), (.sclz so, .sclz { so with imm := 1 }), (.sctz so, .sctz { so with b := 1 }), (.spopc so, .spopc { so with b := 1 }),
    (.sbext { so with imm := 64 * 64 }, .sbext { so with imm := 64 * 65 }), (.sbext { so with imm := 64 }, .sbext { so with imm := 63 }),
    (.sbext { so with imm := 64 }, .sbext { so with imm := 64 + 2 ^ 14 }), (.sbins { so with imm := 64 }, .sbins { so with imm := 64 + 2 ^ 13 }),
    (.sbins { so with imm := 64 * 64 + 63 }, .sbins { so with imm := 64 * 65 }), (.sbins { so with imm := 64 }, .sbins { so with imm := 0 }),
    (.sbext { so with imm := 64 }, .sbext { so with imm := 64, b := 1 }), (.ssel { so with imm := 127 }, .ssel { so with imm := 128 }),
    (.scmp { so with imm := 9 }, .scmp { so with imm := 10 })] : List (Instr × Instr)).all splitsHere = true := by decide

theorem test_wf_vector : ([(.vmovi 1 (2 ^ 16 - 1) 3 0, .vmovi 1 (2 ^ 16) 3 0), (.vmovi 1 (3 * 2 ^ 17) 3 0, .vmovi 1 (4 * 2 ^ 17) 3 0), (.vrint vu 0 5, .vrint vu 0 6),
    (.vrint vu 3 5, .vrint vu 3 4), (.vcvt vu 0 0 0 5, .vcvt vu 0 0 0 7), (.vcvt vu 3 0 0 5, .vcvt vu 3 0 0 0), (.vshfl vb, .vshfl { vb with a := 1536 }),
    (.vshflx vu 1, .vshflx { vu with a := 1536 } 1), (.vshup vu 1 0 false, .vshup { vu with a := 1536 } 1 0 false), (.vshdn vu 1 0 false, .vshdn { vu with a := 1536 } 1 0 false),
    (.vbcast vu 1, .vbcast { vu with a := 1536 } 1), (.vrdl 1 1535 1 false false, .vrdl 1 1536 1 false false), (.vwrl 1535 1 1 false, .vwrl 1536 1 1 false),
    (.vvote 1 1 2 0 false, .vvote 1 1 3 0 false), (.vred 1 1 1 false 0 false, .vred 1 1 2 false 0 false), (.vscan vu 1 false false, .vscan vu 2 false false),
    (.xwin 1 1535 0, .xwin 1 1536 0)] : List (Instr × Instr)).all splitsHere = true := by decide

theorem test_wf_loads : ([(.ld 1 mo, .ld 1 { mo with base := 384 }), (.ld 1 { mo with bsel := true, base := 127 }, .ld 1 { mo with bsel := true, base := 128 }),
    (.ld 1 { mo with size := 4 }, .ld 1 { mo with size := 5 }), (.ld 1 mo, .ld 1 { mo with order := 2 }), (.ld 1 mo, .ld 1 { mo with scope := 5 }),
    (.ld 1 { mo with order := 5, scope := 2 }, .ld 1 { mo with order := 5, scope := 1 }), (.ld 22 { mo with order := 2 }, .ld 22 { mo with order := 6 }),
    (.ldRec 1 { mo with size := 5 }, .ldRec 1 mo), (.ldRec 1 { mo with size := 5 }, .ldRec 1 { mo with size := 5, order := 3 }),
    (.ldu mu, .ldu { mu with bsel := false }), (.ldu mu, .ldu { mu with m := 1 }), (.ldu { mu with t := 127 }, .ldu { mu with t := 128 }),
    (.ldu { mu with base := 127 }, .ldu { mu with base := 128 }), (.ldu { mu with off := 127 }, .ldu { mu with off := 128 }), (.ldu mu, .ldu { mu with size := 4 }),
    (.ldc { mo with size := 4 }, .ldc mo), (.lds 1 ml, .lds 1 { ml with scope := 2 }), (.lds 1 ml, .lds 1 { ml with order := 5 }), (.lds 1 ml, .lds 1 { ml with bsel := false }),
    (.lds 1 { ml with size := 4 }, .lds 1 { ml with size := 5 }), (.ldx 1 { ml with scope := 2 }, .ldx 1 { ml with scope := 3 })] : List (Instr × Instr)).all splitsHere = true := by decide

theorem test_wf_stores : ([(.st mo, .st { mo with order := 1 }), (.st { mo with order := 2 }, .st { mo with order := 5 }), (.stRec { mo with size := 5 }, .stRec mo),
    (.stu mu, .stu { mu with order := 1 }), (.stu mu, .stu { mu with off := 128 }), (.stc { mo with size := 4 }, .stc mo), (.sts ml, .sts { ml with order := 1 }),
    (.stx { ml with scope := 2 }, .stx { ml with scope := 3 }), (.atom 9 mo, .atom 10 mo), (.atom 0 mo, .atom 0 { mo with size := 4 }), (.atom 0 { mo with order := 3 }, .atom 0 { mo with order := 6 }),
    (.atom 0 { mo with order := 5, scope := 2 }, .atom 0 { mo with order := 5, scope := 0 }), (.atomu 1 { mu with off := 255 }, .atomu 1 { mu with off := 256 }),
    (.atomu 0 mu, .atomu 0 { mu with off := 128 }), (.atomu 7 { mu with t := 126 }, .atomu 7 { mu with t := 127 }), (.atoms 7 ml, .atoms 8 ml), (.atoms 0 ml, .atoms 0 { ml with size := 4 }),
    (.atomx 7 ml, .atomx 8 ml), (.atomx 0 ml, .atomx 0 { ml with order := 5 }), (.fence 1 4, .fence 0 4), (.fence 4 4, .fence 5 4), (.fence 1 4, .fence 1 5)] :
    List (Instr × Instr)).all splitsHere = true := by decide

theorem test_wf_caps : (([.cgeta, .cgetb, .cgetl, .cgetp, .cgetk, .cgett, .csealE, .cclr, .cmovc].map fun (f : CapOp → Instr) => (f co, f { co with b := 1 }))
    ++ ([.cseta, .cinc, .cbound, .cboundx, .candp, .cseal, .cunseal, .csub, .ceq].map fun (f : CapOp → Instr) => (f co, f { co with d := 128 }))
    ++ ([.cseta, .ceq].map fun (f : CapOp → Instr) => (f co, f { co with m := 1 })) ++ ([.cseta, .ceq].map fun (f : CapOp → Instr) => (f co, f { co with wa := true }))
    ++ [(.cgeta co, .cgeta { co with wb := true }), (.cinci true 127 1 0 0 false, .cinci true 128 1 0 0 false), (.cinci true 127 1 0 0 false, .cinci true 127 1 0 1 false),
    (.ceq { co with u := false }, .ceq { co with u := false, d := 128 }), (.cmovcX { co with u := false }, .cmovcX { co with u := false, a := 128 }),
    (.cmovcX co, .cmovcX { co with wa := true }), (.cmovcX { co with u := false }, .cmovcX { co with u := false, b := 1 }), (.creg 1 1535 1, .creg 1 1536 1),
    (.cmint 1 1 125, .cmint 1 1 126)] : List (Instr × Instr)).all splitsHere = true := by decide

theorem test_wf_engines : ([(.send 1 1 1535 0 0 false false, .send 1 1 1536 0 0 false false), (.send 1535 1 1 0 0 false false, .send 1536 1 1 0 0 false false),
    (.sendm 1 1535 1 0 0 0 false false, .sendm 1 1536 1 0 0 0 false false), (.empty 1535 0, .empty 1536 0), (.isfull 1 1535 0, .isfull 1 1536 0),
    (.rtchk 1 1 0 false 0 false false, .rtchk 1 1 1 false 0 false false), (.rtchk 1 1 1535 true 0 false false, .rtchk 1 1 1536 true 0 false false),
    (.rtchk 1 1 0 false 0 false false, .rtchk 1 1 0 false 0 false true), (.cpy ko, .cpy { ko with d := 2 }), (.cpy ko, .cpy { ko with ssp := 1 }), (.cpy ko, .cpy { ko with b := 0 }),
    (.cpy { ko with b := 124 }, .cpy { ko with b := 125 }), (.cpyt { ko with b := 121 }, .cpyt { ko with b := 122 }), (.cpyg { ko with b := 123 } 0, .cpyg { ko with b := 124 } 0),
    (.cpys { ko with b := 123 } 0, .cpys { ko with b := 124 } 0), (.karr 1 126, .karr 1 127), (.karr 1 126, .karr 1 0), (.karrC 2 1 125, .karrC 2 1 126),
    (.karrC 2 1 125, .karrC 3 1 125), (.karrC 2 1 125, .karrC 0 1 125), (.ksend 1 1535 126, .ksend 1 1536 126), (.ksend 1535 1 1, .ksend 1536 1 1), (.ksend 1 1 126, .ksend 1 1 127),
    (.kstat 1 31 2, .kstat 1 31 3), (.kstat 1 31 1, .kstat 1 32 1), (.mmap 126 124 0, .mmap 127 124 0), (.mmap 126 124 0, .mmap 126 125 0), (.mmap 126 124 0, .mmap 126 0 0),
    (.mload 126 126 0, .mload 127 126 0), (.mload 126 126 0, .mload 126 127 0), (.mdrain 126 126 124 0 false, .mdrain 127 126 124 0 false),
    (.mdrain 126 126 124 0 false, .mdrain 126 126 125 0 false), (.mdrain 126 126 124 0 false, .mdrain 126 127 124 0 false), (.mprog 1 0 1, .mprog 1 0 2)] :
    List (Instr × Instr)).all splitsHere = true := by decide

/-! Words that the manual writes out (R96 to R112), by class: each decodes to the instruction it stands for. -/

theorem test_words_control : wordsControl.all (fun x => decide ((decodeWord x.1 x.2.1).toOption = some x.2.2)) = true := by decide +kernel
theorem test_words_vector : wordsVector.all (fun x => decide ((decodeWord x.1 x.2.1).toOption = some x.2.2)) = true := by decide +kernel
theorem test_words_memory : wordsMemory.all (fun x => decide ((decodeWord x.1 x.2.1).toOption = some x.2.2)) = true := by decide +kernel

/-! A word of each instruction, its bits laid out by the format maps (R101) and the field tables of its class (R62, R94, R108 to R111, R134, R150, R154,
R192, R203, R319, R348, R378, R391): class by class, each word decodes to its instruction. -/

def wordsControl : List (W64 × Instr) :=
  [(0x0000000000000000, .nop), (0x004000FFFFFFEC00, .bra 0xFFFFFFEC), (0x0085000000000500, .brz 10 5), (0x00C5000000000500, .brnz 10 5),
   (0x010A800000000600, .mskip 21 6), (0x014A800000000600, .brv 21 6), (0x01840C0000000000, .jmpt 8 12), (0x01840C0000000100, .jmptC 8 12),
   (0x01C4000000001800, .jmptv 8 12 false), (0x01C4000000101800, .jmptv 8 12 true), (0x0200000000000900, .call 9), (0x02440C0000000000, .callt 8 12),
   (0x02440C0000000100, .calltC 8 12), (0x0284000002801800, .calltv 8 12 false 20), (0x02FF000000000000, .ret 126), (0x02C0000000000100, .retX),
   (0x0300000000102800, .retv 20 true), (0x0340000000000000, .exit), (0x0380000000000000, .yield), (0x03C0000000004300, .bar 3 4),
   (0x0400000000000000, .barr), (0x0440000000001300, .pwait 3 2), (0x060F000000000100, .splits 30 1), (0x0480000000000750, .trap 7 20),
   (0x04C0000000000000, .eret), (0x04C0000000000100, .eretSkip), (0x04C0000000000200, .eretCont), (0x0500000000000050, .bkpt 20),
   (0x0542000000000002, .sget 4 1), (0x058005000000000C, .sset 5 6), (0x05C2100000000900, .launch 4 16 9)]
theorem test_decode_control : wordsControl.all (fun x => decide ((decodeWord 0 x.1).toOption = some x.2)) = true := by decide +kernel

def wordsScalar : List (W64 × Instr) :=
  [(0x0002050000000000, .smov ⟨4, 5, 0, 0x0⟩), (0x0042000D00000002, .smovi ⟨4, 0, 6, 0x80000001⟩),
   (0x0082050100000002, .smovhi ⟨4, 5, 0, 0x80000001⟩), (0x00C2050D00000002, .sadd ⟨4, 5, 6, 0x80000001⟩),
   (0x0102050D00000002, .ssub ⟨4, 5, 6, 0x80000001⟩), (0x0142050D00000002, .smul ⟨4, 5, 6, 0x80000001⟩),
   (0x0182050D00000002, .smulhs ⟨4, 5, 6, 0x80000001⟩), (0x01C2050D00000002, .smulhn ⟨4, 5, 6, 0x80000001⟩),
   (0x0202050D00000002, .sdivs ⟨4, 5, 6, 0x80000001⟩), (0x0242050D00000002, .sdivn ⟨4, 5, 6, 0x80000001⟩),
   (0x0282050D00000002, .srems ⟨4, 5, 6, 0x80000001⟩), (0x02C2050D00000002, .sremn ⟨4, 5, 6, 0x80000001⟩),
   (0x0302050D00000002, .sand ⟨4, 5, 6, 0x80000001⟩), (0x0342050D00000002, .sor ⟨4, 5, 6, 0x80000001⟩),
   (0x0382050D00000002, .sxor ⟨4, 5, 6, 0x80000001⟩), (0x03C2050D00000002, .sandn ⟨4, 5, 6, 0x80000001⟩),
   (0x0402050D00000002, .sshl ⟨4, 5, 6, 0x80000001⟩), (0x0442050D00000002, .sshrn ⟨4, 5, 6, 0x80000001⟩),
   (0x0482050D00000002, .sshrs ⟨4, 5, 6, 0x80000001⟩), (0x04C2050D00000002, .smins ⟨4, 5, 6, 0x80000001⟩),
   (0x0502050D00000002, .smaxs ⟨4, 5, 6, 0x80000001⟩), (0x0542050D00000002, .sminn ⟨4, 5, 6, 0x80000001⟩),
   (0x0582050D00000002, .smaxn ⟨4, 5, 6, 0x80000001⟩), (0x05C2050000000000, .sclz ⟨4, 5, 0, 0x0⟩), (0x0602050000000000, .sctz ⟨4, 5, 0, 0x0⟩),
   (0x0642050000000000, .spopc ⟨4, 5, 0, 0x0⟩), (0x0682050000000610, .sbext ⟨4, 5, 0, 0x308⟩), (0x06C2050000000610, .sbins ⟨4, 5, 0, 0x308⟩),
   (0x0702050C0000000E, .ssel ⟨4, 5, 6, 0x7⟩), (0x0742050C00000008, .scmp ⟨4, 5, 6, 0x4⟩)]
theorem test_decode_scalar : wordsScalar.all (fun x => decide ((decodeWord 1 x.1).toOption = some x.2)) = true := by decide +kernel

def wordsValu : List (W64 × Instr) :=
  [(0x00004E0400000148, .vmov ⟨9, 1540, 20, true⟩), (0x00402000048D1544, .vmovi 4 0x12345 2 20),
   (0x00804E040100054C, .vadd ⟨9, 1540, 8, 20, true, true⟩ true), (0x00C04E04FFFFFD4A, .vaddi ⟨9, 1540, 20, true⟩ 0x3FFFFF true),
   (0x00C04E0400000548, .vaddi ⟨9, 1540, 20, true⟩ 1 false), (0x01004E040100014C, .vsub ⟨9, 1540, 8, 20, true, true⟩ false),
   (0x01404E040100054C, .vmul ⟨9, 1540, 8, 20, true, true⟩ true), (0x01804E040100154E, .vfma ⟨9, 1540, 8, 5, 20, true, true, true⟩),
   (0x01C04E040100154E, .vfms ⟨9, 1540, 8, 5, 20, true, true, true⟩), (0x02004E040100014C, .vmin ⟨9, 1540, 8, 20, true, true⟩),
   (0x02404E040100014C, .vmax ⟨9, 1540, 8, 20, true, true⟩), (0x02804E0400000548, .vabs ⟨9, 1540, 20, true⟩ true),
   (0x02C04E0400000148, .vneg ⟨9, 1540, 20, true⟩ false), (0x03004E040100154E, .vaddmin ⟨9, 1540, 8, 5, 20, true, true, true⟩),
   (0x03404E040100014C, .vmulh ⟨9, 1540, 8, 20, true, true⟩), (0x0380A80400A00948, .vcmp 21 4 5 2 20 true false),
   (0x03C04E040100594C, .vsel ⟨9, 1540, 8, 20, true, true⟩ 22), (0x04004E040100154E, .vclamp ⟨9, 1540, 8, 5, 20, true, true, true⟩),
   (0x0440200A00001940, .vmovs 4 10 6 20)]
theorem test_decode_valu : wordsValu.all (fun x => decide ((decodeWord 2 x.1).toOption = some x.2)) = true := by decide +kernel

def wordsVbit : List (W64 × Instr) :=
  [(0x00004E040100014C, .vand ⟨9, 1540, 8, 20, true, true⟩), (0x00404E040100014C, .vor ⟨9, 1540, 8, 20, true, true⟩),
   (0x00804E040100014C, .vxor ⟨9, 1540, 8, 20, true, true⟩), (0x00C04E0400000148, .vnot ⟨9, 1540, 20, true⟩),
   (0x01004E040100014C, .vshl ⟨9, 1540, 8, 20, true, true⟩), (0x01404E040100014C, .vshr ⟨9, 1540, 8, 20, true, true⟩),
   (0x01804E040100014C, .vsra ⟨9, 1540, 8, 20, true, true⟩), (0x01C04E0400000148, .vclz ⟨9, 1540, 20, true⟩),
   (0x02004E0400000148, .vpopc ⟨9, 1540, 20, true⟩), (0x02404E0401023148, .vbfe ⟨9, 1540, 20, true⟩ 8 12 true),
   (0x02804E0401003148, .vbfi ⟨9, 1540, 20, true⟩ 8 12), (0x02C04E040100014C, .vdiv ⟨9, 1540, 8, 20, true, true⟩),
   (0x03004E0400000148, .vsqrt ⟨9, 1540, 20, true⟩), (0x03404E0400000148, .vrcp ⟨9, 1540, 20, true⟩),
   (0x03804E0400000148, .vrsq ⟨9, 1540, 20, true⟩), (0x03C04E0400000148, .vexp2 ⟨9, 1540, 20, true⟩),
   (0x04004E0400000148, .vlog2 ⟨9, 1540, 20, true⟩), (0x04404E0403C01548, .vrint ⟨9, 1540, 20, true⟩ 30 5),
   (0x04804E040100014C, .vscale ⟨9, 1540, 8, 20, true, true⟩), (0x04C04E0400000148, .vclass ⟨9, 1540, 20, true⟩),
   (0x05004E0423C2B548, .vcvt ⟨9, 1540, 20, true⟩ 30 2 13 5), (0x05404E0400000D48, .vtag ⟨9, 1540, 20, true⟩ 3)]
theorem test_decode_vbit : wordsVbit.all (fun x => decide ((decodeWord 3 x.1).toOption = some x.2)) = true := by decide +kernel

def wordsLane : List (W64 × Instr) :=
  [(0x0000480500E0014C, .vshfl ⟨9, 5, 7, 20, true, true⟩), (0x0040480500600148, .vshflx ⟨9, 5, 20, true⟩ 3),
   (0x0080480500380D4A, .vshup ⟨9, 5, 20, true⟩ 1 1539 true), (0x00C0480500200D48, .vshdn ⟨9, 5, 20, true⟩ 1 3 false),
   (0x0100480501200148, .vbcast ⟨9, 5, 20, true⟩ 9), (0x0140300401202008, .vrdl 6 4 9 true true), (0x0180200601202000, .vwrl 4 6 9 true),
   (0x01C0380200000948, .vvote 7 2 2 20 true), (0x0200300200002548, .vred 6 2 1 true 20 true),
   (0x02404E0400003548, .vscan ⟨9, 1540, 20, true⟩ 1 true true), (0x0280000000000000, .gfence), (0x02C0180C00001148, .xset 3 12 true 20 true),
   (0x030018C800003C00, .xwin 3 200 15), (0x0340600300000140, .xget 12 3 20)]
theorem test_decode_lane : wordsLane.all (fun x => decide ((decodeWord 4 x.1).toOption = some x.2)) = true := by decide +kernel

def wordsMemory : List (W64 × Instr) :=
  [(0x0680480A01920A94, .ld 3 ⟨2, 9, 10, 12, 0x90, false, 5, 2, 20⟩), (0x0600480A01921214, .ld 3 ⟨0, 9, 10, 12, 0x90, true, 1, 0, 20⟩),
   (0x1B40480A01920014, .ldRec 13 ⟨5, 9, 10, 12, 0x90, false, 0, 0, 20⟩), (0x4080480A01920514, .st ⟨2, 9, 10, 12, 0x90, false, 2, 4, 20⟩),
   (0x4140480A01920814, .stRec ⟨5, 9, 10, 12, 0x90, false, 4, 0, 20⟩), (0x42C0480A01921200, .ldu ⟨3, 9, 10, 12, 0x90, true, 1, 0, 0⟩),
   (0x4440480A01921400, .stu ⟨1, 9, 10, 12, 0x90, true, 2, 0, 0⟩), (0x4700480A01920814, .ldc ⟨4, 9, 10, 12, 0x90, false, 4, 0, 20⟩),
   (0x4900480A019204D4, .stc ⟨4, 9, 10, 12, 0x90, false, 2, 3, 20⟩), (0x4AC0480A01920614, .atom 0 ⟨3, 9, 10, 12, 0x90, false, 3, 0, 20⟩),
   (0x4CC0480A01920654, .atom 1 ⟨3, 9, 10, 12, 0x90, false, 3, 1, 20⟩), (0x4EC0480A01920694, .atom 2 ⟨3, 9, 10, 12, 0x90, false, 3, 2, 20⟩),
   (0x50C0480A019206D4, .atom 3 ⟨3, 9, 10, 12, 0x90, false, 3, 3, 20⟩), (0x52C0480A01920714, .atom 4 ⟨3, 9, 10, 12, 0x90, false, 3, 4, 20⟩),
   (0x54C0480A01920614, .atom 5 ⟨3, 9, 10, 12, 0x90, false, 3, 0, 20⟩), (0x56C0480A01920654, .atom 6 ⟨3, 9, 10, 12, 0x90, false, 3, 1, 20⟩),
   (0x58C0480A01920694, .atom 7 ⟨3, 9, 10, 12, 0x90, false, 3, 2, 20⟩), (0x5AC0480A019206D4, .atom 8 ⟨3, 9, 10, 12, 0x90, false, 3, 3, 20⟩),
   (0x5CC0480A01920714, .atom 9 ⟨3, 9, 10, 12, 0x90, false, 3, 4, 20⟩), (0x6080480A01921800, .atomu 0 ⟨2, 9, 10, 12, 0x90, true, 4, 0, 0⟩),
   (0x6280480A01921800, .atomu 1 ⟨2, 9, 10, 12, 0x90, true, 4, 0, 0⟩), (0x6480480A01921800, .atomu 2 ⟨2, 9, 10, 12, 0x90, true, 4, 0, 0⟩),
   (0x6680480A01921800, .atomu 3 ⟨2, 9, 10, 12, 0x90, true, 4, 0, 0⟩), (0x6880480A01921800, .atomu 4 ⟨2, 9, 10, 12, 0x90, true, 4, 0, 0⟩),
   (0x6A80480A01921800, .atomu 5 ⟨2, 9, 10, 12, 0x90, true, 4, 0, 0⟩), (0x6C80480A01921800, .atomu 6 ⟨2, 9, 10, 12, 0x90, true, 4, 0, 0⟩),
   (0x6E80480A01921800, .atomu 7 ⟨2, 9, 10, 12, 0x90, true, 4, 0, 0⟩), (0x7080480A01921800, .atomu 8 ⟨2, 9, 10, 12, 0x90, true, 4, 0, 0⟩),
   (0x7280480A01921800, .atomu 9 ⟨2, 9, 10, 12, 0x90, true, 4, 0, 0⟩), (0x74000000000004C0, .fence 2 3), (0x7600000000000000, .drain)]
theorem test_decode_memory : wordsMemory.all (fun x => decide ((decodeWord 5 x.1).toOption = some x.2)) = true := by decide +kernel

def wordsLocal : List (W64 × Instr) :=
  [(0x0280480A01921254, .lds 1 ⟨2, 9, 10, 12, 0x90, true, 1, 1, 20⟩), (0x4080480A01921414, .sts ⟨2, 9, 10, 12, 0x90, true, 2, 0, 20⟩),
   (0x42C0480A01921614, .atoms 0 ⟨3, 9, 10, 12, 0x90, true, 3, 0, 20⟩), (0x44C0480A01921654, .atoms 1 ⟨3, 9, 10, 12, 0x90, true, 3, 1, 20⟩),
   (0x46C0480A01921614, .atoms 2 ⟨3, 9, 10, 12, 0x90, true, 3, 0, 20⟩), (0x48C0480A01921654, .atoms 3 ⟨3, 9, 10, 12, 0x90, true, 3, 1, 20⟩),
   (0x4AC0480A01921614, .atoms 4 ⟨3, 9, 10, 12, 0x90, true, 3, 0, 20⟩), (0x4CC0480A01921654, .atoms 5 ⟨3, 9, 10, 12, 0x90, true, 3, 1, 20⟩),
   (0x4EC0480A01921614, .atoms 6 ⟨3, 9, 10, 12, 0x90, true, 3, 0, 20⟩), (0x50C0480A01921654, .atoms 7 ⟨3, 9, 10, 12, 0x90, true, 3, 1, 20⟩),
   (0x8280480A01921094, .ldx 1 ⟨2, 9, 10, 12, 0x90, true, 0, 2, 20⟩), (0xC080480A01921814, .stx ⟨2, 9, 10, 12, 0x90, true, 4, 0, 20⟩),
   (0xC280480A01921214, .atomx 0 ⟨2, 9, 10, 12, 0x90, true, 1, 0, 20⟩), (0xC480480A01921254, .atomx 1 ⟨2, 9, 10, 12, 0x90, true, 1, 1, 20⟩),
   (0xC680480A01921294, .atomx 2 ⟨2, 9, 10, 12, 0x90, true, 1, 2, 20⟩), (0xC880480A01921214, .atomx 3 ⟨2, 9, 10, 12, 0x90, true, 1, 0, 20⟩),
   (0xCA80480A01921254, .atomx 4 ⟨2, 9, 10, 12, 0x90, true, 1, 1, 20⟩), (0xCC80480A01921294, .atomx 5 ⟨2, 9, 10, 12, 0x90, true, 1, 2, 20⟩),
   (0xCE80480A01921214, .atomx 6 ⟨2, 9, 10, 12, 0x90, true, 1, 0, 20⟩), (0xD080480A01921254, .atomx 7 ⟨2, 9, 10, 12, 0x90, true, 1, 1, 20⟩)]
theorem test_decode_local : wordsLocal.all (fun x => decide ((decodeWord 6 x.1).toOption = some x.2)) = true := by decide +kernel

def wordsCaps : List (W64 × Instr) :=
  [(0x0000300800000148, .cgeta ⟨false, 6, 8, 0, 20, true, false⟩), (0x0000300800100000, .cgeta ⟨true, 6, 8, 0, 0, false, false⟩),
   (0x0040300800000148, .cgetb ⟨false, 6, 8, 0, 20, true, false⟩), (0x0040300800100000, .cgetb ⟨true, 6, 8, 0, 0, false, false⟩),
   (0x0080300800000148, .cgetl ⟨false, 6, 8, 0, 20, true, false⟩), (0x0080300800100000, .cgetl ⟨true, 6, 8, 0, 0, false, false⟩),
   (0x00C0300800000148, .cgetp ⟨false, 6, 8, 0, 20, true, false⟩), (0x00C0300800100000, .cgetp ⟨true, 6, 8, 0, 0, false, false⟩),
   (0x0100300800000148, .cgetk ⟨false, 6, 8, 0, 20, true, false⟩), (0x0100300800100000, .cgetk ⟨true, 6, 8, 0, 0, false, false⟩),
   (0x0140300800000148, .cgett ⟨false, 6, 8, 0, 20, true, false⟩), (0x0140300800100000, .cgett ⟨true, 6, 8, 0, 0, false, false⟩),
   (0x018040080180014C, .cseta ⟨false, 8, 8, 12, 20, true, true⟩), (0x01C0500A04900000, .cinc ⟨true, 10, 10, 36, 0, false, false⟩),
   (0x0200200400020002, .cinci true 4 4 128 0 false), (0x02004008FFFFC148, .cinci false 8 8 0x3FFFF0 20 true),
   (0x024040080180014C, .cbound ⟨false, 8, 8, 12, 20, true, true⟩), (0x0240A00401900000, .cbound ⟨true, 20, 4, 12, 0, false, false⟩),
   (0x028040080180014C, .cboundx ⟨false, 8, 8, 12, 20, true, true⟩), (0x0280A00401900000, .cboundx ⟨true, 20, 4, 12, 0, false, false⟩),
   (0x02C040080180014C, .candp ⟨false, 8, 8, 12, 20, true, true⟩), (0x02C0A00401900000, .candp ⟨true, 20, 4, 12, 0, false, false⟩),
   (0x034040080180014C, .cunseal ⟨false, 8, 8, 12, 20, true, true⟩), (0x0340A00401900000, .cunseal ⟨true, 20, 4, 12, 0, false, false⟩),
   (0x038040080180014C, .csub ⟨false, 8, 8, 12, 20, true, true⟩), (0x0380A00401900000, .csub ⟨true, 20, 4, 12, 0, false, false⟩),
   (0x03C040080180014C, .ceq ⟨false, 8, 8, 12, 20, true, true⟩), (0x03C0A00401900000, .ceq ⟨true, 20, 4, 12, 0, false, false⟩),
   (0x0300400802000144, .cseal ⟨false, 8, 8, 16, 20, false, true⟩), (0x0300400800180000, .csealE ⟨true, 8, 8, 0, 0, false, false⟩),
   (0x0400400800000148, .cclr ⟨false, 8, 8, 0, 20, true, false⟩), (0x0440400C00100000, .cmovc ⟨true, 8, 12, 0, 0, false, false⟩),
   (0x0440801000080140, .cmovcX ⟨false, 16, 16, 0, 20, false, false⟩), (0x0440400C01380000, .cmovcX ⟨true, 8, 12, 9, 0, false, false⟩),
   (0x0480A02800700000, .creg 20 40 3), (0x04C0300801500000, .csweep 6 8 10), (0x0500200301500000, .cmint 4 3 10)]
theorem test_decode_caps : wordsCaps.all (fun x => decide ((decodeWord 7 x.1).toOption = some x.2)) = true := by decide +kernel

def wordsRemote : List (W64 × Instr) :=
  [(0x0000A0180120214C, .send 20 24 9 2 20 true true), (0x0040A01801004544, .sendm 20 24 8 4 1 20 false true), (0x0081400000000C00, .empty 40 3),
   (0x00C0382800000C00, .isfull 7 40 3), (0x010030180280054C, .rtchk 6 24 20 true 20 true true)]
theorem test_decode_remote : wordsRemote.all (fun x => decide ((decodeWord 8 x.1).toOption = some x.2)) = true := by decide +kernel

def wordsCopy : List (W64 × Instr) :=
  [(0x0000000402801000, .cpy ⟨0, 4, 20, 0, 1, false⟩), (0x0040300402804000, .cpyt ⟨6, 4, 20, 0, 0, true⟩),
   (0x0080000402819000, .cpyg ⟨0, 4, 20, 0, 1, false⟩ 3), (0x00C0300002818400, .cpys ⟨6, 0, 20, 1, 0, false⟩ 3), (0x0100000200000000, .kinit 2),
   (0x0100400A00000400, .kinitR 10 8), (0x0140600000000400, .kacq 12 0 true), (0x0180000C01A00000, .karr 12 13),
   (0x0180A00C01A00400, .karrC 20 12 13), (0x01C0000C00000000, .kwait 12), (0x0200000C00000000, .krel 12), (0x0240C01C03C00000, .ksend 24 28 30),
   (0x0280700C00000800, .kstat 14 12 2)]
theorem test_decode_copy : wordsCopy.all (fun x => decide ((decodeWord 9 x.1).toOption = some x.2)) = true := by decide +kernel

def wordsMatrix : List (W64 × Instr) :=
  [(0x0000000602800400, .mmap 6 20 1), (0x0040000000000C00, .mzero 3), (0x0080000602800400, .mload 6 20 1), (0x00C0000801800000, .mloop 0 1 12 0),
   (0x00C0000801802000, .mloopResume 0 1 12 0), (0x0100200603002000, .mdrain 4 6 24 0 true), (0x0140480000000800, .mwait 9 2),
   (0x0180480000002000, .mprog 9 0 1)]
theorem test_decode_matrix : wordsMatrix.all (fun x => decide ((decodeWord 10 x.1).toOption = some x.2)) = true := by decide +kernel

/-! SCALAR. -/

theorem hyp_scalar : ∃ i s c d srcs f, i.wf = true ∧ scalarRow i = some (d, srcs, f) ∧ State.issuer s = some c ∧ ScalarsFull c.g (d :: srcs) :=
  ⟨.sadd ⟨1, 2, 3, 4⟩, issuing group0, _, _, _, _, rfl, rfl, issuer_issuing _ rfl, full_of rfl _⟩

theorem hyp_division : ∃ i s c o f, divisionRow i = some (o, f) ∧ State.issuer s = some c ∧ ScalarsFull c.g [o.d, o.a, o.b] ∧ scalarYOf o c.g ≠ 0 :=
  ⟨.sdivs ⟨1, 2, 0, 4⟩, issuing group0, _, _, _, rfl, issuer_issuing _ rfl, full_of rfl _, by decide⟩

theorem hyp_division_zero : ∃ i s c o f, divisionRow i = some (o, f) ∧ State.issuer s = some c ∧ ScalarsFull c.g [o.d, o.a, o.b]
    ∧ scalarYOf o c.g = 0 ∧ c.g.cur = none ∧ c.g.lateMarks = [] :=
  ⟨.sdivs ⟨1, 2, 0, 0⟩, issuing group0, _, _, _, rfl, issuer_issuing _ rfl, full_of rfl _, by decide, rfl, rfl⟩

/-! VALU, VBIT, LANE. -/

theorem hyp_valu : ∃ i s c r ts t f, i.wf = true ∧ valuRow i = some r ∧ State.issuer s = some c ∧ r.Ready c ts t f :=
  ⟨.vadd ⟨1, 2, 3, 0, false, false⟩ false, issuing groupV, _, _, [(.i32, 1), (.i32, 1)], .i32, _, rfl, rfl, issuer_issuing _ rfl,
    full_of rfl _, by unfold VectorRow.SourcesOk; decide +kernel, by decide +kernel, rfl, by decide +kernel, fun _ _ _ _ h => absurd h (by simp [ctxOf, groupV, group0, Group.fresh])⟩

theorem hyp_vbit : ∃ i s c r ts t f, i.wf = true ∧ vbitRow i = some r ∧ State.issuer s = some c ∧ r.Ready c ts t f :=
  ⟨.vshl ⟨1, 2, 3, 0, false, false⟩, issuing groupV, _, _, [(.i32, 1), (.i32, 1)], .i32, _, rfl, rfl, issuer_issuing _ rfl,
    full_of rfl _, by unfold VectorRow.SourcesOk; decide +kernel, by decide +kernel, rfl, by decide +kernel, fun _ _ _ _ h => absurd h (by simp [ctxOf, groupV, group0, Group.fresh])⟩

theorem hyp_moves : ∃ i s c r, moveRow i = some r ∧ State.issuer s = some c ∧ ScalarsFull c.g (r.scalars ++ [r.m.setWidth 7]) ∧ r.inRange c.width
    ∧ BitsOk c (c.lanes r.m) (⟨r.a, r.wa, some 1⟩ :: r.others.map fun x => ⟨x.1, x.2, some 1⟩) ∧ c.checkDst (c.lanes r.m) r.d 1 = .ok () :=
  ⟨.vshup ⟨1, 2, 0, false⟩ 31 3 false, issuing groupV, _, _, rfl, issuer_issuing _ rfl, full_of rfl _, ⟨by decide, by decide +kernel⟩, by unfold BitsOk; decide +kernel,
    by decide +kernel⟩

theorem hyp_vrdl : ∃ (d : SReg) (a : VField) (b : SReg) (sz wa : Bool), ∃ s c, State.issuer s = some c ∧ ScalarsFull c.g [b, d]
    ∧ BitsOk c (c.lanes 0) [⟨a, wa, some (if sz then 2 else 1)⟩] :=
  ⟨1, 2, 3, true, false, issuing groupV, _, issuer_issuing _ rfl, full_of rfl _, by unfold BitsOk; decide +kernel⟩

theorem hyp_vwrl : ∃ (d : VField) (a b : SReg) (sz : Bool), ∃ s c, State.issuer s = some c ∧ ScalarsFull c.g [a, b]
    ∧ c.checkDst (c.lanes 0) d (if sz then 2 else 1) = .ok () ∧ d.direct = true :=
  ⟨62, 1, 3, true, issuing groupV, _, issuer_issuing _ rfl, full_of rfl _, by decide +kernel, rfl⟩

theorem hyp_vvote : ∃ (d : SReg) (a : VField) (m : MField) (wa : Bool), ∃ s c, State.issuer s = some c ∧ ScalarsFull c.g [m.setWidth 7, d]
    ∧ BitsOk c (c.lanes m) [⟨a, wa, some 1⟩] :=
  ⟨1, 63, 2, false, issuing groupV, _, issuer_issuing _ rfl, full_of rfl _, by unfold BitsOk; decide +kernel⟩

theorem hyp_xget : ∃ (d : VField) (m : MField), ∃ s c, State.issuer s = some c ∧ ScalarsFull c.g [m.setWidth 7] ∧ c.checkDst (c.lanes m) d 1 = .ok () :=
  ⟨63, 0, issuing groupV, _, issuer_issuing _ rfl, full_of rfl _, by decide +kernel⟩

theorem hyp_vred : ∃ (d : SReg) (a : VField) (opr : BitVec 2) (sz : Bool) (m : MField) (wa : Bool), ∃ s c t, State.issuer s = some c ∧ opr.toNat ≤ 2
    ∧ ScalarsFull c.g [m.setWidth 7, d] ∧ c.checkSrcs (c.lanes m) [⟨a, wa, some (if sz then 2 else 1)⟩] = .ok [(t, if sz then 2 else 1)]
    ∧ reducible sz t ∧ c.touched a 1 (c.lanes m) ≠ []
    ∧ NoTrap c.g (combineAll t c.ftz opr.toNat (laneBits c (c.lanes m) a (if sz then 2 else 1))).flags :=
  ⟨1, 2, 2, false, 0, false, issuing groupV, _, .i32, issuer_issuing _ rfl, by decide, full_of rfl _, by decide +kernel, .inl rfl, by decide +kernel,
    fun _ _ h => absurd h (by simp [ctxOf, groupV, group0, Group.fresh])⟩

theorem hyp_vscan : ∃ (o : VU) (opr : BitVec 2) (sz : Bool), ∃ s c t, State.issuer s = some c ∧ opr.toNat ≤ 2 ∧ ScalarsFull c.g [o.m.setWidth 7]
    ∧ c.checkDst (c.lanes o.m) o.d (if sz then 2 else 1) = .ok ()
    ∧ c.checkSrcs (c.lanes o.m) [⟨o.a, o.wa, some (if sz then 2 else 1)⟩] = .ok [(t, if sz then 2 else 1)] ∧ reducible sz t
    ∧ c.touched o.a 1 (c.lanes o.m) ≠ []
    ∧ NoTrap c.g (combineAll t c.ftz opr.toNat ((laneBits c (c.lanes o.m) o.a (if sz then 2 else 1)).filter fun y => (c.regAt o.d (if sz then 2 else 1) y.1).isSome)).flags :=
  ⟨⟨1, 2, 0, false⟩, 0, false, issuing groupV, _, .i32, issuer_issuing _ rfl, by decide, full_of rfl _, by decide +kernel, by decide +kernel, .inl rfl,
    by decide +kernel, fun _ _ h => absurd h (by simp [ctxOf, groupV, group0, Group.fresh])⟩

theorem hyp_xset : ∃ (a : VField) (m : MField) (wa : Bool), ∃ s c, State.issuer s = some c ∧ ScalarsFull c.g [m.setWidth 7] ∧ BitsOk c (c.lanes m) [⟨a, wa, some 1⟩] :=
  ⟨63, 0, false, issuing groupV, _, issuer_issuing _ rfl, full_of rfl _, by unfold BitsOk; decide +kernel⟩

theorem hyp_xwin : ∃ (a : VField) (len : BitVec 6), ∃ s c, State.issuer s = some c ∧ a.toNat + len.toNat + 1 ≤ c.regs :=
  ⟨1, 62, issuing groupV, _, issuer_issuing _ rfl, by decide +kernel⟩

theorem hyp_vcmp : ∃ (d : SReg) (a b : VField) (cond : BitVec 3) (m : MField) (wa wb : Bool), ∃ s c t, State.issuer s = some c ∧ ScalarsFull c.g [m.setWidth 7, d]
    ∧ c.checkSrcs (c.lanes m) [⟨a, wa, none⟩, ⟨b, wb, none⟩] = .ok [(t, t.regs), (t, t.regs)]
    ∧ c.touched a 1 (c.lanes m) ≠ [] ∧ c.touched b 1 (c.lanes m) ≠ [] ∧ (t = .i32 ∨ t = .n32 ∨ t = .i64 ∨ t = .n64 ∨ t = .f32 ∨ t = .f64)
    ∧ (t.isInt = true → cond.toNat < 6) ∧ ∀ n, NoTrap c.g n :=
  ⟨1, 2, 3, 5, 0, false, false, issuing groupV, _, .i32, issuer_issuing _ rfl, full_of rfl _, by decide +kernel, by decide +kernel, by decide +kernel,
    .inl rfl, fun _ => by decide, fun _ _ _ h => absurd h (by simp [ctxOf, groupV, group0, Group.fresh])⟩

theorem hyp_vtag : ∃ (o : VU) (tag : BitVec 5) (t : FTag), ∃ s c, State.issuer s = some c ∧ tagOf tag.toNat = some t ∧ ScalarsFull c.g [o.m.setWidth 7]
    ∧ c.placed [(o.a, t.regs)] = .ok () ∧ c.fullCheck [(⟨o.a, o.wa, some t.regs⟩, c.touched o.a t.regs (c.lanes o.m))] = .ok ()
    ∧ c.checkDst (c.lanes o.m) o.d t.regs = .ok () :=
  ⟨⟨60, 16, 0, false⟩, 21, .route, issuing groupV, _, issuer_issuing _ rfl, rfl, full_of rfl _, by decide +kernel, by decide +kernel, by decide +kernel⟩

/-! CTRL. -/

theorem hyp_direct : ∃ i s c rs ok g a code, State.issuer s = some c ∧ transferRow c i = some (rs, ok, g, a, code) ∧ ok = true ∧ ScalarsFull c.g rs
    ∧ c.g.lateMarks = [] :=
  ⟨.bra 0xFFFFFFFF, issuing group0, _, [], true, _, _, _, issuer_issuing _ rfl, rfl, rfl, full_of rfl _, rfl⟩

/-- Lane 0 has an address in v62 that no header has. -/
def group62 : Group := { group0 with vregs := [(62, ⟨FTag.raw, true, [4]⟩)] }

theorem hyp_retv_fault : ∃ i s c r, State.issuer s = some c ∧ vectorTargets c s i = some r ∧ VectorTransferReady c i ∧ r.wait = false
    ∧ r.s.group c.gid = some c.g ∧ c.g.lateMarks = [] ∧ c.g.cur = none ∧ r.faults ≠ [] ∧ r.dests ≠ [] :=
  ⟨.retv 62 false, issuing group62, _, _, issuer_issuing _ rfl, rfl, ⟨[(.raw, 2)], by decide +kernel⟩, by decide +kernel,
    by decide +kernel, rfl, rfl, by decide +kernel, by decide +kernel⟩

theorem hyp_brv : ∃ (a : SReg), ∃ s c, State.issuer s = some c ∧ ScalarsFull c.g [a] ∧ c.g.lateMarks = []
    ∧ c.g.s a.toNat &&& c.p.lanes ≠ 0 ∧ c.p.lanes &&& ~~~(c.g.s a.toNat &&& c.p.lanes) ≠ 0 :=
  ⟨1, issuing { group0 with sregs := [(1, 0x80000000)] }, _, issuer_issuing _ rfl, full_of rfl _, rfl, by decide +kernel, by decide +kernel⟩

theorem hyp_retv : ∃ i s c r, State.issuer s = some c ∧ vectorTargets c s i = some r ∧ VectorTransferReady c i ∧ r.wait = false
    ∧ r.s.group c.gid = some c.g ∧ c.g.lateMarks = [] ∧ r.dests ≠ [] :=
  ⟨.retv 62 false, issuing group0, _, _, issuer_issuing _ rfl, rfl, ⟨[(.raw, 2)], by decide +kernel⟩, by decide +kernel,
    by decide +kernel, rfl, by decide +kernel⟩

/-- The table's line in the L1 of the core. -/
def tableWorld : State := { memWorld (teamOf groupM) with cores := [(0, { coreM (teamOf groupM) with l1 := [(512, ⟨0, 0, 0⟩)] })] }

theorem issuer_table : tableWorld.issuer = some (ctxOf (teamOf groupM) groupM) := issuer_of _ _ _ _ rfl rfl rfl rfl rfl rfl

theorem table_at_hand (l : Nat) : EntryAtHand (ctxOf (teamOf groupM) groupM) tableWorld 4 2 l 0 := by
  have h : (ctxOf (teamOf groupM) groupM).g.lane 2 l = 0 := by
    show ([] : List W32).getD l 0 = 0
    simp
  refine ⟨2, false, rfl, ?_, ?_, rfl⟩ <;> rw [h]
  · unfold TableCovers; decide +kernel
  · decide +kernel

theorem hyp_jmptv : ∃ (a : SReg) (idx : VField) (wi : Bool) (entry : Nat → Nat), ∃ s c, State.issuer s = some c ∧ c.g.lateMarks = []
    ∧ (∀ l ∈ lanesOf c.width c.p.lanes, EntryAtHand c s a idx l (entry l)) ∧ VectorTransferReady c (.jmptv a idx wi) :=
  ⟨4, 2, false, fun _ => 0, tableWorld, _, issuer_table, rfl, fun l _ => table_at_hand l, by decide +kernel, by decide +kernel, by decide +kernel⟩

theorem hyp_calltv : ∃ (a : SReg) (idx : VField) (wi : Bool) (entry : Nat → Nat) (link : VField), ∃ s c, State.issuer s = some c ∧ c.g.lateMarks = []
    ∧ (∀ l ∈ lanesOf c.width c.p.lanes, EntryAtHand c s a idx l (entry l)) ∧ VectorTransferReady c (.calltv a idx wi link) :=
  ⟨4, 2, false, fun _ => 0, 62, tableWorld, _, issuer_table, rfl, fun l _ => table_at_hand l, by decide +kernel, by decide +kernel, rfl, by decide +kernel, by decide +kernel⟩

theorem hyp_retv_aligned : ∃ (l : VField) (wl : Bool), ∃ s c, State.issuer s = some c ∧ c.g.lateMarks = [] ∧ VectorTransferReady c (.retv l wl)
    ∧ ∀ x ∈ lanesOf c.width c.p.lanes, (c.g.lane (l.toNat + 1) x ++ c.g.lane l.toNat x).toNat % 8 = 0 :=
  ⟨62, false, issuing group0, _, issuer_issuing _ rfl, rfl, ⟨[(.raw, 2)], by decide +kernel⟩, by decide +kernel⟩

theorem hyp_trap : ∃ (m : MField), ∃ s c, State.issuer s = some c ∧ ScalarsFull c.g [m.setWidth 7] ∧ c.g.cur = none ∧ c.g.lateMarks = []
    ∧ c.active m ≠ 0 ∧ c.g.halted = false ∧ s.debugReach c.core = false :=
  ⟨0, issuing group0, _, issuer_issuing _ rfl, full_of rfl _, rfl, rfl, by decide +kernel, rfl, by decide +kernel⟩

theorem hyp_bkpt_session : ∃ (m : MField), ∃ s c, State.issuer s = some c ∧ ScalarsFull c.g [m.setWidth 7] ∧ c.g.cur = none ∧ c.g.lateMarks = []
    ∧ c.active m ≠ 0 ∧ (c.g.halted = true ∨ s.debugReach c.core = true) :=
  ⟨0, issuing { group0 with halted := true }, _, issuer_issuing _ rfl, full_of rfl _, rfl, rfl, by decide +kernel, .inl rfl⟩

theorem hyp_trap_no_lane : ∃ (m : MField), ∃ s c, State.issuer s = some c ∧ ScalarsFull c.g [m.setWidth 7] ∧ c.g.cur = none ∧ c.g.lateMarks = []
    ∧ c.active m = 0 :=
  ⟨63, issuing group0, _, issuer_issuing _ rfl, full_of rfl _, rfl, rfl, by decide +kernel⟩

theorem hyp_splits : ∃ (d : SReg), ∃ s c, State.issuer s = some c ∧ ScalarsFull c.g [d] := ⟨127, issuing group0, _, issuer_issuing _ rfl, full_of rfl _⟩

theorem hyp_sset : ∃ (a : SReg) (r : BitVec 8), ∃ s c g, State.issuer s = some c ∧ ScalarsFull c.g [a] ∧ (r.toNat = 17 → c.team.sLevel = true)
    ∧ ssetGroup r.toNat (c.g.s a.toNat) c.g = some g :=
  ⟨0, 18, issuing group0, _, _, issuer_issuing _ rfl, full_of rfl _, by decide, rfl⟩

theorem hyp_sset_value : ∃ (a : SReg) (r : BitVec 8), ∃ s c, State.issuer s = some c ∧ ScalarsFull c.g [a] ∧ (r.toNat = 17 → c.team.sLevel = true)
    ∧ (r.toNat = 5 ∨ r.toNat = 6 ∨ r.toNat = 17 ∨ r.toNat = 18) ∧ ssetGroup r.toNat (c.g.s a.toNat) c.g = none ∧ c.g.cur = none ∧ c.g.lateMarks = [] :=
  ⟨1, 5, issuing { group0 with sregs := [(1, 32)] }, _, issuer_issuing _ rfl, full_of rfl _, by decide, by decide, rfl, rfl, rfl⟩

theorem hyp_sset_level : ∃ (r : BitVec 8), ∃ s c, State.issuer s = some c ∧ (19 ≤ r.toNat ∧ r.toNat ≤ 22 ∨ r.toNat = 17) ∧ c.team.sLevel = false
    ∧ c.g.cur = none ∧ c.g.lateMarks = [] :=
  ⟨19, issuing group0, _, issuer_issuing _ rfl, by decide, rfl, rfl, rfl⟩

theorem hyp_pwait : ∃ s c, State.issuer s = some c ∧ c.g.lateMarks = [] := ⟨issuing group0, _, issuer_issuing _ rfl, rfl⟩

theorem hyp_bar_passes : ∃ (count : BitVec 6), ∃ s c, State.issuer s = some c ∧ c.g.lateMarks = [] ∧ c.g.splits = [(c.site.split, c.p)] ∧ c.g.overflow = []
    ∧ c.g.stopped = none ∧ c.g.pending = none ∧ c.g.mode = .normal ∧ c.g.halted = false ∧ c.p.dbgStep = false ∧ c.team.groups = [(c.gid.group, c.g)]
    ∧ c.team.barriers = [] ∧ (count = 0 ∨ count = 1) ∧ c.g.p 0 = 0 ∧ c.g.p 2 = 0 ∧ c.g.lates = [] :=
  ⟨0, issuing group0, _, issuer_issuing _ rfl, rfl, rfl, rfl, rfl, rfl, rfl, rfl, rfl, rfl, rfl, .inl rfl, rfl, rfl, rfl⟩

theorem hyp_exit : ∃ s c, State.issuer s = some c ∧ c.g.lateMarks = [] ∧ Alone c ∧ ¬LastHandlerSplit c := by
  refine ⟨issuing group0, _, issuer_issuing _ rfl, rfl, ⟨fun k p h => ?_, fun o h => ?_⟩, fun h => ?_⟩
  · simp [ctxOf, group0, site0, NMap.del, NMap.find] at h
  · simp [ctxOf, group0, Group.fresh] at h
  · exact absurd h.1 (by decide)

/-- A group in its handler: one split left, and a stopped record. -/
def record0 : Record := ⟨cl0.wordAddr 0, 0x1000, 0xFF, .trapInsn, 0xFF, 0, code0, 0, false, false, some cl0⟩
def groupH : Group := { group0 with mode := .handler, stopped := some record0 }

theorem last_handler (g : Group) (hm : g.mode = .handler) (hs : g.splits = [(0, split0)]) (ho : g.overflow = []) (hn : g.nested = none)
    (hp : g.nestedPending = none) : LastHandlerSplit (ctxOf (teamOf g) g) := by
  refine ⟨hm, fun k hk => ?_, by simp [ctxOf, hs], ho, hn, hp⟩
  have : (0 : Nat) ≠ k := fun e => hk e.symm
  simp [ctxOf, hs, NMap.find, this]

theorem hyp_exit_handler : ∃ s c, State.issuer s = some c ∧ c.g.lateMarks = [] ∧ LastHandlerSplit c ∧ c.g.stopped ≠ none :=
  ⟨issuing groupH, _, issuer_issuing _ rfl, rfl, last_handler _ rfl rfl rfl rfl rfl, by decide⟩

theorem hyp_eret : ∃ s c r, State.issuer s = some c ∧ LastHandlerSplit c ∧ c.g.stopped = some r ∧ c.p.lanes ≠ 0 ∧ c.g.lateMarks = []
    ∧ c.p.dbgStep = false ∧ ∃ cl, r.clause = some cl ∧ r.atHeader = false ∧ r.word = cl.wordAddr cl.next ∧ cl.next < cl.count :=
  ⟨issuing groupH, _, _, issuer_issuing _ rfl, last_handler _ rfl rfl rfl rfl rfl, rfl, by decide +kernel, rfl, rfl, cl0, rfl, rfl, rfl, by decide +kernel⟩

theorem hyp_eret_header : ∃ s c r, State.issuer s = some c ∧ LastHandlerSplit c ∧ c.g.stopped = some r ∧ c.p.lanes ≠ 0 ∧ c.g.lateMarks = []
    ∧ c.p.dbgStep = false ∧ (r.atHeader = true ∨ r.clause = none) :=
  ⟨issuing { groupH with stopped := some { record0 with atHeader := true } }, _, _, issuer_issuing _ rfl, last_handler _ rfl rfl rfl rfl rfl, rfl,
    by decide +kernel, rfl, rfl, .inl rfl⟩

theorem hyp_eret_outside : (∃ s c, State.issuer s = some c ∧ c.g.lateMarks = [] ∧ c.g.mode = .normal ∧ c.g.cur = none)
    ∧ ∃ s c, State.issuer s = some c ∧ c.g.lateMarks = [] ∧ c.g.mode = .recipe ∧ c.g.cur = none :=
  ⟨⟨issuing group0, _, issuer_issuing _ rfl, rfl, rfl, rfl⟩, ⟨issuing { group0 with mode := .recipe }, _, issuer_issuing _ rfl, rfl, rfl, rfl⟩⟩

/-! MEM. -/

def ldOp : MOp := ⟨2, 16, 4, 62, 0, true, 0, 0, 1⟩

theorem bytes_of (x : State × AccessOut) (h : (match x.2 with | .bytes _ _ => true | _ => false) = true) : ∃ bs t, x = (x.1, .bytes bs t) := by
  obtain ⟨s, o⟩ := x
  cases o with
  | bytes bs t => exact ⟨bs, t, rfl⟩
  | fault c => simp at h
  | wait cs => simp at h

def ldAccess : State × AccessOut :=
  loadAccess (loading groupM).useId (ctxOf (teamOf groupM) groupM) (loading groupM).freshId ⟨4, 1, .f32, .load 2 .f32, false, false⟩ 0 0
    ((ctxOf (teamOf groupM) groupM).memCap ldOp 0) (laneAddress (ctxOf (teamOf groupM) groupM) ldOp 4 0 62)

theorem hyp_ld : ∃ i s s' c o sp rs, State.issuer s = some c ∧ loadRow i = some (o, sp) ∧ c.memReady o (c.lanes o.m) sp.regs = .ok ()
    ∧ c.scLoadWaits o.order.toNat o.scope.toNat = [] ∧ ReadsAll c o sp s.freshId s.useId (c.lanes o.m) s' rs ∧ s'.group c.gid = some c.g ∧ rs ≠ [] := by
  obtain ⟨bs, t, h⟩ := bytes_of ldAccess (by decide +kernel)
  have hl : (ctxOf (teamOf groupM) groupM).lanes ldOp.m = [0] := by decide +kernel
  refine ⟨.ld 3 ldOp, loading groupM, ldAccess.1, _, ldOp, ⟨4, 1, .f32, .load 2 .f32, false, false⟩,
    [⟨0, (List.range 1).map fun j => 16 + j, bs, t, laneAddress (ctxOf (teamOf groupM) groupM) ldOp 4 0 62,
      if ((ctxOf (teamOf groupM) groupM).memCap ldOp 0).grants permLC then 1 else 0⟩], issuer_loading _ rfl, rfl, by decide +kernel,
    by decide +kernel, ?_, by decide +kernel, by simp⟩
  rw [hl]; exact ⟨62, 16, ldAccess.1, bs, t, [], by decide +kernel, by decide +kernel, h, ⟨rfl, rfl⟩, rfl⟩

theorem hyp_ldu : ∃ (o : MOp), ∃ s s1 c pa, State.issuer s = some c ∧ o.base.toNat % 2 = 0 ∧ o.size.toNat ≤ 3 ∧ o.t.toNat < 128
    ∧ (∀ r ∈ pairRegs o.base.toNat ++ [o.off.toNat % 128, o.t.toNat], c.g.sFull r = true) ∧ c.scLoadWaits o.order.toNat o.scope.toNat = []
    ∧ let n := 2 ^ o.size.toNat
      let a := (c.g.sc o.base.toNat).addr + c.g.s (o.off.toNat % 128) + o.imm8.signExtend 64 * BitVec.ofNat 64 n
      capCheck (c.g.sc o.base.toNat) a n permLD = none ∧ a.toNat % n = 0 ∧ s.useId.pageHost c.core c.team.tenant a .load = none ∧ translate s.useId c.core c.team.tenant a .load = (s1, .ok (.mem pa))
      ∧ pa % 128 = a.toNat % 128 ∧ s1.group c.gid = some c.g ∧ s1.ownWaits c.gid (a.toNat / 128) = []
      ∧ s1.loadWaits c.gid s.freshId (a.toNat / 128) (pa / 128) = [] ∧ s1.frozen (pa / 128) = false
      ∧ (∀ ie ∈ (s1.core c.core).hearth, ie.2.va ≠ a.toNat / 128) ∧ NMap.find (s1.core c.core).l1 (pa / 128) = none ∧ isHostLine (pa / 128) = false
      ∧ s1.copiesAt (pa / 128) = 0 ∧ (o.order = 5 → (s1.dirAt (pa / 128)).rp = false) ∧ (s1.dirAt (pa / 128)).answersNow = true
      ∧ s1.lineFault (pa / 128) = none :=
  ⟨⟨3, 127, 4, 0, 0x7F, true, 5, 3, 0⟩, loading groupM, (translate (loading groupM).useId 0 0 0x103F8 .load).1, _, 0x103F8, issuer_loading _ rfl, by decide, by decide, by decide,
    by decide +kernel, by decide +kernel, by decide +kernel, by decide +kernel, by decide +kernel, Prod.ext (by decide +kernel) (by decide +kernel), by decide,
    by decide +kernel, by decide +kernel, by decide +kernel, by decide +kernel, by decide +kernel, by decide +kernel, by decide, by decide +kernel, by decide,
    by decide +kernel, by decide +kernel⟩

/-- A late result of one lane whose four bytes are there. -/
def late0 : Late :=
  { (ctxOf (teamOf groupM) groupM).mkLate 7 (.load 2 .f32) [⟨0, [16], (List.range 4).map fun j => ⟨0x10000 + j, 0x10000 + BitVec.ofNat 64 j, some 1⟩, none, 0x10000, 0⟩] with
    vdests := [16], newTag := some .f32 }
def lateU : Late :=
  { (ctxOf (teamOf groupM) groupM).mkLate 7 (.loadU 3) [⟨0, [], (List.range 8).map fun j => ⟨0x10000 + j, 0x10000 + BitVec.ofNat 64 j, some 1⟩, none, 0x10000, 0⟩] with
    sdests := [127] }

theorem hyp_load_return : ∃ (s : State) (i : GroupId) (g : Group) (l : Late), s.group i = some g ∧ g.late l.id = some l ∧ l.pendingBytes = false
    ∧ l.faults = [] ∧ l.vwrites = [] ∧ l.swrites = [] ∧ (∀ x ∈ g.lates, x.id ≠ l.id → ∀ r ∈ x.vdests, r ∉ l.vdests) ∧ l.dropL1 = false ∧ l.vdests.Nodup
    ∧ ∃ size t, l.kind = .load size t ∧ l.sdests = [] ∧ (l.reqs.map fun r => r.lane).Nodup
      ∧ ∀ r ∈ l.reqs, r.regs.Nodup ∧ r.regs.length = (loadWords size t r.value).length ∧ ∀ x ∈ r.regs, x ∈ l.vdests :=
  ⟨issuing { groupM with lates := [late0] }, ⟨0, 0, 0⟩, _, late0, rfl, rfl, rfl, rfl, rfl, rfl, by decide, rfl, by decide, 2, .f32, rfl, rfl, by decide,
    by decide +kernel⟩

def WaitsToReturn (s : State) (i : GroupId) (tm : Team) (l : Late) : Prop :=
  l.pendingBytes = true ∨ (s.routeWaits i tm.tenant l = none ∧ (∃ items, l.kind = .rtchk items) ∧ s.mapMoving tm.tenant = true)

theorem hyp_return_waits : ∃ (s : State) (i : GroupId) (g : Group) (tm : Team) (l : Late), s.group i = some g ∧ s.team i.core i.slot = some tm
    ∧ g.late l.id = some l ∧ WaitsToReturn s i tm l :=
  let l : Late := { late0 with reqs := [⟨0, [16], [⟨0x10000, 0x10000, none⟩], none, 0x10000, 0⟩] }
  ⟨issuing { groupM with lates := [l] }, ⟨0, 0, 0⟩, _, _, l, rfl, rfl, rfl, .inl rfl⟩

theorem hyp_return_goes : ∃ (s : State) (i : GroupId) (g : Group) (tm : Team) (l : Late), s.group i = some g ∧ s.team i.core i.slot = some tm
    ∧ g.late l.id = some l ∧ ¬WaitsToReturn s i tm l ∧ s.routeWaits i tm.tenant l = none :=
  ⟨issuing { groupM with lates := [late0] }, ⟨0, 0, 0⟩, _, _, late0, rfl, rfl, rfl, fun h => h.elim (fun h => absurd h (by decide)) fun h => by
    obtain ⟨_, ⟨x, h⟩, _⟩ := h; exact absurd h (by simp [late0, Ctx.mkLate]), rfl⟩

/-- A check of one route, while the host owns the line of the map's header, which lies at 0x20000. -/
def lateRt : Late := { late0 with kind := .rtchk [(0, 16, 0, none)], reqs := [] }
def hostMap : State :=
  { loading { groupM with lates := [lateRt] } with
    tenants := [(0, { tenant0 with entry := entrySet tenant0.entry 192 8 0x20000 })]
    dir := [(1024, { DirEntry.fresh with st := .excl, hg := true, sites := 64 })] }
theorem hyp_return_shut : ∃ (s : State) (i : GroupId) (g : Group) (tm : Team) (l : Late), s.group i = some g ∧ s.team i.core i.slot = some tm
    ∧ g.late l.id = some l ∧ ¬WaitsToReturn s i tm l ∧ s.routeWaits i tm.tenant l ≠ none :=
  ⟨hostMap, ⟨0, 0, 0⟩, _, teamOf { groupM with lates := [lateRt] }, lateRt, rfl, rfl, rfl, fun h => h.elim (fun h => absurd h (by decide)) fun h => absurd h.1 (by decide +kernel),
    by decide +kernel⟩

theorem hyp_ldu_return : ∃ (s : State) (i : GroupId) (g : Group) (l : Late), s.group i = some g ∧ g.late l.id = some l ∧ l.pendingBytes = false
    ∧ l.faults = [] ∧ l.vwrites = [] ∧ l.swrites = [] ∧ (∀ x ∈ g.lates, x.id ≠ l.id → ∀ r ∈ x.vdests, r ∉ l.vdests) ∧ l.dropL1 = false ∧ l.vdests.Nodup
    ∧ ∃ size d r, l.kind = .loadU size ∧ l.sdests = [d] ∧ d ≠ 0 ∧ l.reqs = [r] ∧ r.regs = [] ∧ l.vdests = [] :=
  ⟨issuing { groupM with lates := [lateU] }, ⟨0, 0, 0⟩, _, lateU, rfl, rfl, rfl, rfl, rfl, rfl, by decide, rfl, by decide, 3, 127, _, rfl, rfl, by decide,
    rfl, rfl, rfl⟩

theorem passes (s : State) (c : Ctx) (k : Cap) (a : W64) (n need : Nat) (block gl : Bool) (h1 : capCheck k a n need = none)
    (h2 : a.toNat % min n 16 = 0) (h3 : gl = false) (h4 : storeRegion s c a = none) (h5 : a.toNat + n < 2 ^ 64) : StorePasses s c k a n need block gl :=
  ⟨h1, fun _ => h2, fun h => absurd h (by simp [h3]), h4, h5⟩

theorem hyp_st : ∃ i s c r, i.wf = true ∧ State.issuer s = some c ∧ storeRow i = some r ∧ c.memReady r.o (c.lanes r.o.m) r.regs = .ok ()
    ∧ c.lanes r.o.m ≠ [] ∧ c.g.p 2 < 255 ∧ (∃ t, c.tagOf r.o.t (c.lanes r.o.m) = .ok t ∧ r.accepts c (c.lanes r.o.m) t)
    ∧ ∀ l ∈ c.lanes r.o.m, ∃ ro rt, c.regAt r.o.off 1 l = some ro ∧ c.regAt r.o.t r.regs l = some rt
      ∧ StorePasses s c (c.memCap r.o l) (laneAddress c r.o r.unit l ro) r.unit (r.need c s rt l) r.block
          (r.escapes c rt l) := by
  refine ⟨.st ldOp, loading groupM, _, _, rfl, issuer_loading _ rfl, rfl, by decide +kernel, by decide +kernel, by decide +kernel,
    ⟨.f32, by decide +kernel, by decide +kernel, by decide +kernel⟩, fun l hl => ?_⟩
  have h : (ctxOf (teamOf groupM) groupM).lanes ldOp.m = [0] := by decide +kernel
  have e : l = 0 := by
    have := hl; rw [show (ctxOf (teamOf groupM) groupM).lanes _ = [0] from h] at this; simpa using this
  subst e
  exact ⟨62, 16, by decide +kernel, by decide +kernel, passes _ _ _ _ _ _ _ _ (by decide +kernel) (by decide +kernel) rfl (by decide +kernel) (by decide +kernel)⟩

theorem hyp_stu : ∃ (o : MOp), ∃ s c, State.issuer s = some c ∧ o.base.toNat % 2 = 0 ∧ o.size.toNat ≤ 3
    ∧ (∀ r ∈ pairRegs o.base.toNat ++ [o.off.toNat % 128, o.t.toNat], c.g.sFull r = true) ∧ c.g.p 2 < 255
    ∧ StorePasses s c (c.g.sc o.base.toNat) ((c.g.sc o.base.toNat).addr + c.g.s (o.off.toNat % 128) + o.imm8.signExtend 64 * BitVec.ofNat 64 (2 ^ o.size.toNat))
        (2 ^ o.size.toNat) permST false false :=
  ⟨⟨0, 1, 4, 0, 0xFF, true, 0, 0, 0⟩, loading groupM, _, issuer_loading _ rfl, by decide, by decide, by decide +kernel, by decide +kernel,
    passes _ _ _ _ _ _ _ _ (by decide +kernel) (by decide +kernel) rfl (by decide +kernel) (by decide +kernel)⟩

/-- Registers 0 to 7 with E4M3 elements, and their scale. -/
def groupR : Group := { groupM with vregs := ((List.range 8).map fun r => (r, ⟨FTag.e4m3x4, true, []⟩)) ++ [(8, ⟨.e8m0x4, true, []⟩)] }
def recOp : MOp := ⟨5, 0, 4, 62, 0, true, 0, 0, 1⟩

theorem hyp_stRec : ∃ (o : MOp), ∃ s c t n k, State.issuer s = some c ∧ recordShape t = some (n, k) ∧ c.memReady o (c.lanes o.m) (k + 1) = .ok ()
    ∧ c.lanes o.m ≠ [] ∧ c.g.p 2 < 255 ∧ c.tagOf o.t (c.lanes o.m) = .ok t
    ∧ ∀ l ∈ c.lanes o.m, ∃ ro rt, c.regAt o.off 1 l = some ro ∧ c.regAt o.t (k + 1) l = some rt ∧ (∀ j < k, (c.g.v (rt + j)).tag = t) ∧ (c.g.v (rt + k)).tag = .e8m0x4
      ∧ StorePasses s c (c.memCap o l) (laneAddress c o n l ro) n permST true false := by
  refine ⟨recOp, loading groupR, _, .e4m3x4, 33, 8, issuer_loading _ rfl, rfl, by decide +kernel, by decide +kernel, by decide +kernel, by decide +kernel,
    fun l hl => ?_⟩
  have h : (ctxOf (teamOf groupR) groupR).lanes recOp.m = [0] := by decide +kernel
  have e : l = 0 := by rw [h] at hl; simpa using hl
  subst e
  exact ⟨62, 0, by decide +kernel, by decide +kernel, by decide +kernel, by decide +kernel, by decide +kernel, fun h => by simp at h, fun h => by simp at h, by decide +kernel, by decide +kernel⟩

def atOp : MOp := ⟨2, 0, 4, 62, 0, true, 0, 3, 1⟩
def atAccess : State × Except Cause Nat :=
  atomAccess (loading groupM) (ctxOf (teamOf groupM) groupM) 4 ((ctxOf (teamOf groupM) groupM).memCap atOp 0) (laneAddress (ctxOf (teamOf groupM) groupM) atOp 4 0 62)
def atReq : LaneReq :=
  ⟨0, (List.range 1).map fun j => 0 + j, (List.range 4).map fun j => ⟨0x10000 + j, laneAddress (ctxOf (teamOf groupM) groupM) atOp 4 0 62 + BitVec.ofNat 64 j, none⟩, none,
    BitVec.ofNat 64 ((ctxOf (teamOf groupM) groupM).read 0 1 0), 0⟩

theorem hyp_atom : ∃ (op : BitVec 4) (o : MOp) (home : Bool), ∃ s s' c t rs, State.issuer s = some c ∧ c.g.mode ≠ .recipe ∧ (o.size = 2 ∨ o.size = 3)
    ∧ c.memReady { o with t := o.off } (c.lanes o.m) 1 = .ok () ∧ c.atomCheck o.t op.toNat o.size.toNat (c.lanes o.m) = .ok t
    ∧ AtomsAll c o op.toNat s (c.lanes o.m) s' rs ∧ rs ≠ [] ∧ s'.group c.gid = some c.g
    ∧ c.atomWaits s' o.order.toNat o.scope.toNat (rs.filterMap fun q => q.bytes.head?.map ByteReq.va) = []
    ∧ (∀ r ∈ rs, Placed home o r) := by
  have hl : (ctxOf (teamOf groupM) groupM).lanes atOp.m = [0] := by decide +kernel
  refine ⟨0, atOp, true, loading groupM, atAccess.1, _, .i32, [atReq], issuer_loading _ rfl, by decide, .inl rfl, by decide +kernel, by decide +kernel,
    ?_, by simp, by decide +kernel, by decide +kernel, ?_⟩
  · rw [hl]
    exact ⟨62, 0, atAccess.1, 0x10000, [], by decide +kernel, by decide +kernel, by decide +kernel, Prod.ext (by decide +kernel) (by decide +kernel), ⟨rfl, rfl⟩, by decide +kernel⟩
  · intro r hr
    obtain rfl : r = atReq := by simpa using hr
    exact ⟨by decide +kernel, .inl (by decide)⟩

theorem hyp_atomu : ∃ (op : BitVec 4) (o : MOp) (home : Bool), ∃ s s' c pa, State.issuer s = some c ∧ c.g.mode ≠ .recipe ∧ (o.size = 2 ∨ o.size = 3)
    ∧ o.base.toNat % 2 = 0 ∧ o.t.toNat < 128
    ∧ (∀ r ∈ pairRegs o.base.toNat ++ [o.off.toNat % 128, o.t.toNat] ++ (if op = 7 then [o.t.toNat + 1] else []), c.g.sFull r = true)
    ∧ let n := 2 ^ o.size.toNat
      let a := (c.g.sc o.base.toNat).addr + c.g.s (o.off.toNat % 128) + o.imm8.signExtend 64 * BitVec.ofNat 64 n
      atomHost s c n (c.g.sc o.base.toNat) a = none ∧ atomAccess s c n (c.g.sc o.base.toNat) a = (s', .ok pa) ∧ s'.group c.gid = some c.g
      ∧ c.atomWaits s' o.order.toNat o.scope.toNat [a] = []
      ∧ Placed home o ⟨0, [], (List.range n).map fun j => ⟨pa + j, a + BitVec.ofNat 64 j, none⟩, none, c.g.s o.t.toNat,
          if op = 7 then c.g.s (o.t.toNat + 1) else 0⟩ :=
  ⟨7, ⟨3, 1, 4, 0, 0, true, 0, 0, 0⟩, false, loading groupM, (atomAccess (loading groupM) (ctxOf (teamOf groupM) groupM) 8 (groupM.sc 4) 0x10000).1, _, 0x10000,
    issuer_loading _ rfl, by decide, .inr rfl, by decide, by decide, by decide +kernel, by decide +kernel, Prod.ext (by decide +kernel) (by decide +kernel), by decide +kernel,
    by decide +kernel, by decide +kernel, by decide, by decide⟩

/-- An atomic of one lane on its way to its home. -/
def lateA : Late :=
  { (ctxOf (teamOf groupM) groupM).mkLate 7 (.atomHome 0 2 false false) [⟨0, [0], (List.range 4).map fun j => ⟨0x10000 + j, 0x10000 + BitVec.ofNat 64 j, none⟩, none, 5, 0⟩] with
    vdests := [0], item := some 9 }

theorem home_dirty : dirtyByte (loading { groupM with lates := [lateA] }) 0x10000 = some 2 := by decide +kernel

theorem hyp_home_atomic : ∃ (s : State) (i : GroupId) (g : Group) (tm : Team) (l : Late) (r : LaneReq) (op size : Nat) (sg u : Bool) (pa it : Nat),
    s.group i = some g ∧ s.team i.core i.slot = some tm ∧ g.late l.id = some l ∧ l.kind = .atomHome op size sg u ∧ (size = 2 ∨ size = 3) ∧ l.reqs = [r]
    ∧ l.item = some it ∧ (∀ x ∈ g.lates, x.id = l.id ∨ x.item ≠ some it)
    ∧ let n := 2 ^ size
      r.bytes.map ByteReq.pa = (List.range n).map (fun j => pa + j) ∧ (∀ b ∈ r.bytes, b.val = none) ∧ pa % n = 0 ∧ s.atomTurn i g l = .go
      ∧ isHostLine (pa / 128) = false ∧ (s.dirAt (pa / 128)).queue = [] ∧ (s.dirAt (pa / 128)).st = .inv ∧ (s.dirAt (pa / 128)).sites = 0 ∧ s.frozen (pa / 128) = false
      ∧ s.lineFault (pa / 128) = none ∧ (∀ q, dirtyByte s pa = some q → q < pa ∨ pa + n ≤ q) ∧ s.MemoryWf
      ∧ s.markBusy (pa / 128) (lookAgain (pa / 128)) = none :=
  ⟨loading { groupM with lates := [lateA] }, ⟨0, 0, 0⟩, _, _, lateA, _, 0, 2, false, false, 0x10000, 9, rfl, rfl, rfl, rfl, .inl rfl, rfl, rfl, by decide,
    by decide +kernel, by decide, by decide, by rfl, by decide, by decide +kernel, by decide +kernel, by decide, by decide +kernel, by decide,
    fun q h => .inl (by obtain rfl := Option.some.inj (home_dirty.symm.trans h); decide), by decide +kernel, by decide +kernel⟩

theorem hyp_fence : ∃ (order scope : BitVec 3), ∃ s c, State.issuer s = some c ∧ c.g.lateMarks = [] ∧ order.toNat ∈ [2, 3, 4] ∧ c.fenceWaits scope.toNat = [] :=
  ⟨4, 4, issuing group0, _, issuer_issuing _ rfl, rfl, by decide, by decide +kernel⟩

theorem hyp_fence_waits : ∃ (order scope : BitVec 3), ∃ s c, State.issuer s = some c ∧ c.g.lateMarks = [] ∧ order.toNat ∈ [2, 3, 4]
    ∧ c.fenceWaits scope.toNat ≠ [] :=
  ⟨2, 0, issuing { group0 with lates := [late0] }, _, issuer_issuing _ rfl, rfl, by decide, by decide +kernel⟩

/-! LOCAL: the team has a share of 1 KiB. -/

def locOp : MOp := ⟨2, 0, 2, 62, 0, true, 0, 0, 1⟩
def groupL : Group := { groupV with sregs := [(1, 1)] }
def teamL : Team := { teamOf groupL with desc := fetchDesc ||| BitVec.ofNat 2048 (2 ^ 795) }
def sharing : State := worldOf (coreOf teamL)
def ctxL : Ctx := ctxOf teamL groupL

theorem issuer_sharing : sharing.issuer = some ctxL := issuer_of _ _ _ _ rfl rfl rfl rfl rfl rfl

theorem hyp_sts : ∃ (cluster : Bool) (o : MOp), ∃ s c tg x acc t, State.issuer s = some c ∧ o.size.toNat ≤ 4
    ∧ LocalReady s c o (max 1 (2 ^ o.size.toNat / 4)) cluster false (some (if cluster then 1 else 0)) tg x ∧ c.tagOf o.t (c.lanes o.m) = .ok t
    ∧ sizeTagOk o.size.toNat t = true ∧ (∀ r ∈ c.touched o.t (max 1 (2 ^ o.size.toNat / 4)) (c.lanes o.m), (c.g.v r).tag = t)
    ∧ shareAccesses c o x.shareBytes (c.regAt o.t (max 1 (2 ^ o.size.toNat / 4))) (c.lanes o.m) = some acc ∧ acc ≠ [] :=
  ⟨false, locOp, sharing, ctxL, (0, 0), teamL, [(0, 0, 0)], .i32, issuer_sharing, by decide,
    ⟨by decide +kernel, by decide +kernel, by decide +kernel, by decide +kernel, rfl⟩, by decide +kernel, rfl, by decide +kernel, by decide +kernel, by simp⟩

theorem hyp_ldx : ∃ (cluster : Bool) (tag : BitVec 5) (o : MOp), ∃ s c tg x acc t, State.issuer s = some c ∧ o.size.toNat ≤ 4 ∧ tagOf tag.toNat = some t
    ∧ sizeTagOk o.size.toNat t = true ∧ LocalReady s c o (max 1 (2 ^ o.size.toNat / 4)) cluster true (if cluster then some 1 else none) tg x
    ∧ shareAccesses c o x.shareBytes (c.regAt o.t (max 1 (2 ^ o.size.toNat / 4))) (c.lanes o.m) = some acc ∧ acc ≠ [] :=
  ⟨true, 1, locOp, sharing, ctxL, (0, 0), teamL, [(0, 0, 0)], .i32, issuer_sharing, by decide, rfl, rfl,
    ⟨by decide +kernel, by decide +kernel, by decide +kernel, by decide +kernel, rfl⟩, by decide +kernel, by simp⟩

theorem hyp_atoms : ∃ (cluster : Bool) (op : BitVec 4) (o : MOp), ∃ s c tg x acc t, State.issuer s = some c ∧ c.g.mode ≠ .recipe ∧ (o.size = 2 ∨ o.size = 3)
    ∧ op.toNat ≤ 7 ∧ LocalReady s c { o with t := o.off } 1 cluster false (some (if cluster then 1 else 0)) tg x
    ∧ c.atomCheck o.t op.toNat o.size.toNat (c.lanes o.m) = .ok t
    ∧ shareAccesses c o x.shareBytes (c.atomReg o.t (2 ^ o.size.toNat / 4) (op == 7)) (c.lanes o.m) = some acc ∧ acc ≠ [] :=
  ⟨false, 7, locOp, sharing, ctxL, (0, 0), teamL, [(0, 0, 0)], .i32, issuer_sharing, by decide, .inl rfl, by decide,
    ⟨by decide +kernel, by decide +kernel, by decide +kernel, by decide +kernel, rfl⟩, by decide +kernel, by decide +kernel, by simp⟩

/-! Indexed transfers: a form 0 table of zeros at 0x10000, whose entry names the code capability's own address. -/

theorem ok_of (x : State × Small) (v : Nat) (t : Bool) (h : x.2 = .ok v t) : x = (x.1, .ok v t) := Prod.ext rfl h

theorem hyp_table : ∃ i s s1 c a b form1 ds f v tag pc code, State.issuer s = some c ∧ tableRow i = some (a, b, form1, ds, f) ∧ a.toNat % 2 = 0
    ∧ ScalarsFull c.g ([a, a + 1, b] ++ ds) ∧ c.g.lateMarks = [] ∧ TableCovers (c.g.sc a.toNat) form1 (c.g.s b.toNat)
    ∧ s.loadNow c.gid c.team.tenant (entryAddr (c.g.sc a.toNat) form1 (c.g.s b.toNat)) (if form1 then 16 else 8) = (s1, .ok v tag)
    ∧ s1.group c.gid = some c.g ∧ entryTarget c form1 v tag = some (pc, code) :=
  ⟨.jmpt 4 1, loading groupM, ((loading groupM).loadNow ⟨0, 0, 0⟩ 0 0x10008 8).1, ctxOf (teamOf groupM) groupM, 4, 1, false, [], _, 0, false, _, _,
    issuer_loading _ rfl, rfl, by decide, full_of rfl _, rfl, by unfold TableCovers; decide +kernel, Prod.ext (by decide +kernel) (by decide +kernel),
    by decide +kernel, by rfl⟩

/-! CAP. -/

theorem hyp_cap_uniform : ∃ i s c r v, State.issuer s = some c ∧ capRow i = some r ∧ r.o.u = true ∧ r.o.a.toNat % 2 = 0 ∧ (r.b = .cap → r.o.b.toNat % 2 = 0)
    ∧ (r.tag = .cap → r.o.d.toNat % 2 = 0) ∧ (∀ x ∈ r.scalars, c.g.sFull x = true)
    ∧ r.result (c.g.sc r.o.a.toNat) (if r.b = .num then c.g.s r.o.b.toNat else 0) (if r.b = .cap then c.g.sc r.o.b.toNat else Cap.null) = some v :=
  ⟨.cinc ⟨true, 6, 4, 1, 0, false, false⟩, loading groupM, _, _, .cap (cap4.setAddr 0x10001), issuer_loading _ rfl, rfl, rfl, by decide, by decide, by decide, by decide +kernel,
    by decide +kernel⟩

/-- Quad c0 holds a register name in lane 0, c4 an empty route, v8 an I32; a mask in s1. -/
def name0 : BitVec 128 := BitVec.ofNat 128 (2 ^ 126 + (permRS + permGL) * 2 ^ 114 + 24 * 2 ^ 23 + 2 ^ 12)
def quadOf (x : BitVec 128) (t : FTag) (r : Nat) : NMap VReg := (List.range 4).map fun j => (r + j, ⟨t, true, [x.extractLsb' (32 * j) 32]⟩)
def groupQ : Group := { groupM with vregs := quadOf name0 .cap 0 ++ quadOf 0 .route 4 ++ [(8, ⟨.i32, true, []⟩)], qtags := [(0, 1)] }

theorem hyp_cap_vector : ∃ i s c r, State.issuer s = some c ∧ capRow i = some r ∧ r.o.u = false ∧ r.VectorReady c :=
  ⟨.cmovc ⟨false, 60, 0, 0, 1, false, false⟩, loading groupQ, _, _, issuer_loading _ rfl, rfl, rfl, full_of rfl _, by decide, by decide +kernel, by decide,
    [(.cap, 4)], by decide +kernel, by simp⟩

theorem hyp_ceq : ∃ (o : CapOp), ∃ s c ts, State.issuer s = some c ∧ o.u = false ∧ ScalarsFull c.g [o.m.setWidth 7] ∧ c.g.sFull o.d.toNat = true
    ∧ c.checkSrcs (c.lanes o.m) [⟨o.a, o.wa, some 4⟩, ⟨o.b, o.wb, some 4⟩] = .ok ts ∧ ∀ t ∈ ts, t.1 = .cap :=
  ⟨⟨false, 9, 0, 0, 0, false, false⟩, loading groupQ, _, [(.cap, 4), (.cap, 4)], issuer_loading _ rfl, rfl, full_of rfl _, by decide +kernel, by decide +kernel, by simp⟩

theorem hyp_cmovcX : (∃ (o : CapOp), ∃ s c, State.issuer s = some c ∧ o.u = true ∧ o.d.toNat % 2 = 0 ∧ misaligned o.a 4 = false
      ∧ (∀ x ∈ o.b.toNat :: pairRegs o.d.toNat, c.g.sFull x = true) ∧ ∃ ts, c.checkSrcs [] [⟨o.a, false, some 4⟩] = .ok ts ∧ ∀ t ∈ ts, t.1 = .cap)
    ∧ ∃ (o : CapOp), ∃ s c, State.issuer s = some c ∧ o.u = false ∧ o.a.toNat % 2 = 0 ∧ misaligned o.d 4 = false
      ∧ (∀ x ∈ o.m.toNat :: pairRegs o.a.toNat, c.g.sFull x = true) ∧ c.checkDst (c.lanes o.m) o.d 4 = .ok () :=
  ⟨⟨⟨true, 126, 0, 127, 0, false, false⟩, loading groupQ, _, issuer_loading _ rfl, rfl, by decide, by decide, by decide +kernel, [(.cap, 4)], by decide +kernel, by simp⟩,
    ⟨⟨false, 60, 4, 0, 0, false, false⟩, loading groupQ, _, issuer_loading _ rfl, rfl, by decide, by decide, by decide +kernel, by decide +kernel⟩⟩

theorem hyp_creg : ∃ (d : SReg) (a b : VField), ∃ s c, State.issuer s = some c ∧ d.toNat % 2 = 0 ∧ a.toNat + b.toNat + 1 ≤ c.regs
    ∧ ∀ x ∈ pairRegs d.toNat, c.g.sFull x = true := ⟨8, 0, 63, issuing group0, _, issuer_issuing _ rfl, by decide, by decide +kernel, by decide⟩

/-- A team at level S, whose tenant has a root over the first 2^40 bytes. -/
def teamS : Team := { teamOf groupM with sLevel := true }
def sWorld (k : Tenant) : State := { worldOf (coreM teamS) with tenants := [(0, k)] }

theorem issuer_sWorld (k : Tenant) : (sWorld k).issuer = some (ctxOf teamS groupM) := issuer_of _ _ _ _ rfl rfl rfl rfl rfl rfl

theorem hyp_cmint : ∃ (d : SReg) (a : BitVec 4) (b : SReg), ∃ s c bits, State.issuer s = some c ∧ c.team.sLevel = true ∧ d.toNat % 2 = 0
    ∧ (∀ x ∈ [b.toNat, b.toNat + 1, b.toNat + 2] ++ pairRegs d.toNat, c.g.sFull x = true) ∧ NMap.find (s.tenant c.team.tenant).roots a.toNat = some bits
    ∧ let n := capEncode (c.g.s b.toNat).toNat ((c.g.s b.toNat).toNat + (c.g.s (b.toNat + 1)).toNat)
      (capDecode ⟨bits, true⟩).1 ≤ n.rb ∧ n.rt ≤ (capDecode ⟨bits, true⟩).2 :=
  ⟨8, 15, 0, sWorld { tenant0 with roots := [(15, cap4.bits)] }, _, cap4.bits, issuer_sWorld _, rfl, by decide, by decide +kernel, rfl, by decide +kernel, by decide +kernel⟩

theorem hyp_csweep (w : Option Sweep) : ∃ (d a b : SReg), ∃ s c, State.issuer s = some c ∧ c.team.sLevel = true ∧ a.toNat % 2 = 0 ∧ c.g.lateMarks = []
    ∧ (∀ x ∈ [b.toNat, d.toNat] ++ pairRegs a.toNat, c.g.sFull x = true)
    ∧ capCheck (c.g.sc a.toNat) (c.g.sc a.toNat).addr 72 (permLD + permST + permSYS) = none ∧ (c.g.s b.toNat).toNat % 512 = 0
    ∧ (s.tenant c.team.tenant).sweep = w ∧ c.fenceWaits 4 = [] :=
  ⟨9, 4, 0, sWorld { tenant0 with sweep := w }, _, issuer_sWorld _, rfl, by decide, rfl, by decide +kernel, by decide +kernel, by decide, rfl, by decide +kernel⟩

/-! REMOTE. -/

theorem hyp_send : ∃ (d a b : VField) (ofs : BitVec 9) (m : MField) (wa wb : Bool), ∃ s c l0 rest,
    let ls := c.lanes m
    let tag := (c.g.v b.toNat).tag
    State.issuer s = some c ∧ c.g.mode ≠ .recipe ∧ ScalarsFull c.g [m.setWidth 7] ∧ SendReady c ls d a b wa wb 1
    ∧ (∀ j < 1, (c.g.v (b.toNat + j)).tag = tag) ∧ 1 % tag.regs = 0 ∧ (tag.regs = 2 ∨ tag.regs = 4 → b.toNat % tag.regs = 0) ∧ ls = l0 :: rest
    ∧ sendNameCheck (c.g.quad d.toNat l0) ofs.toNat 1 tag.regs = none ∧ routeForm (c.g.quad a.toNat l0).bits = true
    ∧ s.admitted (nameDevice (c.g.quad d.toNat l0).bits) = true ∧ c.g.p 5 < 255 ∧ tag ≠ .cap :=
  ⟨0, 4, 8, 1, 1, false, false, loading groupQ, _, 0, [], issuer_loading _ rfl, by decide, full_of rfl _, by unfold SendReady; decide +kernel, by decide +kernel,
    by decide, by decide +kernel, (by decide +kernel), by decide +kernel, by decide +kernel, (by decide +kernel), by decide, by decide⟩

theorem hyp_empty : ∃ (d : VField) (nm1 : BitVec 6), ∃ s c, State.issuer s = some c ∧ c.outOfRange d (nm1.toNat + 1) = false
    ∧ (∀ l ∈ c.g.lates, ∀ r ∈ l.vdests, r < d.toNat ∨ d.toNat + nm1.toNat < r) ∧ c.g.lates ≠ [] :=
  ⟨17, 46, issuing { groupM with lates := [late0] }, _, issuer_issuing _ rfl, by decide +kernel, by decide, by simp [ctxOf]⟩

theorem hyp_isfull : ∃ (d : SReg) (a : VField) (nm1 : BitVec 6), ∃ s c, State.issuer s = some c ∧ c.outOfRange a (nm1.toNat + 1) = false ∧ ScalarsFull c.g [d] :=
  ⟨9, 0, 63, issuing group0, _, issuer_issuing _ rfl, by decide +kernel, full_of rfl _⟩

theorem hyp_rtchk : ∃ (d a b : VField) (m : MField) (wa wb : Bool), ∃ s c, State.issuer s = some c ∧ a.toNat % 4 = 0
    ∧ (b.toNat % 4 = 0 ∧ c.outOfRange b 4 = false ∧ c.sameTags b 4 (c.lanes m) .cap = true) ∧ c.outOfRange a 4 = false ∧ ScalarsFull c.g [m.setWidth 7]
    ∧ c.checkDst (c.lanes m) d 1 = .ok () ∧ d.direct = true
    ∧ c.fullCheck ((⟨a, wa, none⟩, c.touched a 4 (c.lanes m)) :: [((⟨b, wb, none⟩ : Src), c.touched b 4 (c.lanes m))]) = .ok ()
    ∧ c.sameTags a 4 (c.lanes m) .route = true :=
  ⟨63, 4, 0, 0, false, false, loading groupQ, _, issuer_loading _ rfl, by decide, by decide +kernel, by decide +kernel, full_of rfl _, by decide +kernel,
    by decide, by decide +kernel, by decide +kernel⟩

/-! COPY: a team with a share of 1 KiB and a cord 0 of two slots; the handle of slot 0, generation 1, in s2; sc4 covers the first 2^40 bytes. -/

def groupK : Group := { groupM with sregs := groupM.sregs ++ [(6, 0x10000), (8, 64), (10, 64), (11, 0), (12, 16), (13, 0x10000), (20, 32), (21, 1)] }
def slotIn (x : SlotState) : CordSlot := ⟨x, 0, 1, 0, 0, 0, 0⟩
def cordOf (x : SlotState) (ch : Bool) : Cord := ⟨2, ch, 0, 1, [(0, slotIn x)], []⟩
def teamK (x : SlotState) (ch : Bool) (r : Option Ring) : Team := { teamOf groupK with desc := fetchDesc ||| BitVec.ofNat 2048 (2 ^ 795), cords := [(0, cordOf x ch)], ring := r }
def copying (x : SlotState) (ch : Bool) (r : Option Ring) : State := { worldOf (coreM (teamK x ch r)) with tenants := [(0, tenant0)] }
def ctxK (x : SlotState) (ch : Bool) (r : Option Ring) : Ctx := ctxOf (teamK x ch r) groupK

theorem issuer_copying (x : SlotState) (ch : Bool) (r : Option Ring) : (copying x ch r).issuer = some (ctxK x ch r) := issuer_of _ _ _ _ rfl rfl rfl rfl rfl rfl

theorem hyp_kinit : ∃ (a : BitVec 5), ∃ s c k, State.issuer s = some c ∧ c.g.mode ≠ .recipe ∧ NMap.find c.team.cords a.toNat = some k
    ∧ (∀ i < k.n, (k.slot i).infl = 0) ∧ k.waiters = [] := ⟨0, copying .filled false none, _, _, issuer_copying _ _ _, by decide, rfl, by decide, rfl⟩

theorem hyp_kacq (x : SlotState) : ∃ (d : SReg) (a : BitVec 5), ∃ s c k, State.issuer s = some c ∧ c.g.mode ≠ .recipe ∧ ScalarsFull c.g [d] ∧ c.g.lateMarks = []
    ∧ NMap.find c.team.cords a.toNat = some k ∧ (k.slot k.wp).st = x := ⟨9, 0, copying x false none, _, _, issuer_copying _ _ _, by cases x <;> decide, full_of rfl _, rfl, rfl, rfl⟩

theorem hyp_karr : ∃ (a b : SReg), ∃ s c n i k, State.issuer s = some c ∧ c.g.mode ≠ .recipe ∧ (∀ x ∈ [a.toNat, b.toNat, b.toNat + 1], c.g.sFull x = true)
    ∧ (c.g.s b.toNat).toNat < 2 ^ 41 ∧ (c.g.s (b.toNat + 1)).toNat < 65536 ∧ c.team.slotOf (c.g.s a.toNat) = some (n, i)
    ∧ NMap.find c.team.cords n = some k ∧ k.ch = false ∧ (k.slot i).st = .acq :=
  ⟨6, 20, copying .acq false none, _, 0, 0, _, issuer_copying _ _ _, by decide, by decide +kernel, by decide +kernel, by decide +kernel, by decide +kernel, rfl, rfl, rfl⟩

theorem hyp_karrC : ∃ (d a b : SReg), ∃ s c n i k, State.issuer s = some c ∧ c.g.mode ≠ .recipe ∧ d.toNat % 2 = 0
    ∧ (∀ x ∈ [a.toNat, b.toNat, b.toNat + 1, b.toNat + 2] ++ pairRegs d.toNat, c.g.sFull x = true)
    ∧ (c.g.s b.toNat).toNat < 2 ^ 41 ∧ (c.g.s (b.toNat + 1)).toNat < 65536 ∧ c.team.slotOf (c.g.s a.toNat) = some (n, i)
    ∧ NMap.find c.team.cords n = some k ∧ k.ch = true ∧ (k.slot i).st = .acq ∧ (c.g.s (b.toNat + 2)).toNat + (c.g.s b.toNat).toNat ≤ c.team.shareBytes :=
  ⟨126, 6, 20, copying .acq true none, _, 0, 0, _, issuer_copying _ _ _, by decide, by decide, by decide +kernel, by decide +kernel, by decide +kernel,
    by decide +kernel, rfl, rfl, rfl, by decide +kernel⟩

theorem hyp_krel : ∃ (a : SReg), ∃ s c n i k, State.issuer s = some c ∧ c.g.mode ≠ .recipe ∧ ScalarsFull c.g [a] ∧ c.team.slotOf (c.g.s a.toNat) = some (n, i)
    ∧ NMap.find c.team.cords n = some k ∧ k.waiters = [] ∧ (k.slot i).infl = 0
    ∧ ((k.slot i).st = .filled ∨ (k.slot i).st = .overrun ∨ (k.slot i).st = .fault ∨ ((k.slot i).st = .acq ∧ (k.slot i).pb = 0 ∧ (k.slot i).pa = 0)) :=
  ⟨6, copying .acq false none, _, 0, 0, _, issuer_copying _ _ _, by decide, full_of rfl _, by decide +kernel, rfl, rfl, rfl, by decide⟩

theorem hyp_kinitR : ∃ (a d : SReg), ∃ s c off lg tn, State.issuer s = some c ∧ c.g.mode ≠ .recipe ∧ d.toNat % 2 = 0 ∧ (∀ x ∈ a.toNat :: pairRegs d.toNat, c.g.sFull x = true)
    ∧ c.g.s a.toNat = BitVec.ofNat 64 (off + lg * 2 ^ 32 + tn * 2 ^ 40) ∧ off % 32 = 0 ∧ 1 ≤ lg ∧ lg ≤ 10 ∧ 1 ≤ tn ∧ tn ≤ 64
    ∧ off + 32 + 32 * 2 ^ lg ≤ c.team.shareBytes ∧ c.team.shareBytes < 2 ^ 32
    ∧ capCheck (c.g.sc d.toNat) (c.g.sc d.toNat).addr (16 * tn) (permLD + permLC) = none ∧ (∀ r, c.team.ring = some r → c.team.ringUsed r = 0)
    ∧ c.team.cmds = [] ∧ c.team.residues = [] := by
  let g : Group := { groupK with sregs := [(1, BitVec.ofNat 64 (64 + 2 ^ 32 + 2 ^ 40)), (4, cap4.bits.extractLsb' 0 64), (5, cap4.bits.extractLsb' 64 64)] }
  let t : Team := { teamOf g with desc := fetchDesc ||| BitVec.ofNat 2048 (2 ^ 795) }
  exact ⟨1, 4, worldOf (coreOf t), ctxOf t g, 64, 1, 1, issuer_of _ _ _ _ rfl rfl rfl rfl rfl rfl, by decide, by decide, by decide +kernel, by decide +kernel,
    by decide, by decide, by decide, by decide, by decide, by decide +kernel, by decide +kernel, by decide +kernel, (fun _ h => nomatch (show none = some _ from h)), rfl, rfl⟩

theorem hyp_kwait (x : SlotState) : ∃ (a : SReg), ∃ s c n i y, State.issuer s = some c ∧ ScalarsFull c.g [a] ∧ c.g.lateMarks = []
    ∧ c.team.slotOf (c.g.s a.toNat) = some (n, i) ∧ slotAt c.team n i = some y ∧ y.st = x ∧ c.g.cur = none :=
  ⟨6, copying x false none, _, 0, 0, slotIn x, issuer_copying _ _ _, full_of rfl _, rfl, by cases x <;> decide +kernel, rfl, rfl, rfl⟩

theorem hyp_kstat : ∃ (d a : SReg), ∃ s c n i k, State.issuer s = some c ∧ ScalarsFull c.g [d, a] ∧ c.team.slotOf (c.g.s a.toNat) = some (n, i)
    ∧ NMap.find c.team.cords n = some k := ⟨9, 6, copying .fault false none, _, 0, 0, _, issuer_copying _ _ _, full_of rfl _, by decide +kernel, rfl⟩

theorem hyp_kstat_cord : ∃ (d a : SReg), ∃ s c k, State.issuer s = some c ∧ ScalarsFull c.g [d, a] ∧ NMap.find c.team.cords a.toNat = some k :=
  ⟨9, 0, copying .fault false none, _, _, issuer_copying _ _ _, full_of rfl _, rfl⟩

def ring0 : Ring := ⟨64, 1, cap4, 1, 0, 0, [], [], []⟩

theorem hyp_cpy : ∃ i s c ty esz n regs o cn j k r, State.issuer s = some c ∧ c.g.mode ≠ .recipe ∧ copyRow i = some (ty, esz, n, regs, o)
    ∧ o.d.toNat % 2 = 0 ∧ o.a.toNat % 2 = 0
    ∧ (∀ x ∈ pairRegs o.d.toNat ++ pairRegs o.a.toNat ++ (List.range regs).map fun q => o.b.toNat + q, c.g.sFull x = true)
    ∧ c.team.slotOf (c.g.s (o.b.toNat + 3)) = some (cn, j) ∧ c.team.ring = some r ∧ NMap.find c.team.cords cn = some k ∧ k.ch = false
    ∧ ((k.slot j).st = .acq ∨ (k.slot j).st = .armed)
    ∧ let v := fun q => (c.g.s (o.b.toNat + q)).toNat
      let e := entryBits ty esz o v
      let ext : BitVec 256 := if ty = 1 then BitVec.ofNat 256 (v 5 + v 6 * 2 ^ 64 + 2 * 2 ^ 253) else 0
      v 2 < 2 ^ 32 ∧ entryFormatOk e ext c.team.shareBytes = true ∧ entryTagsOk e = true
      ∧ SideOk (o.dsp == 0) (c.g.sc o.d.toNat) (permST + if o.kt then permSC else 0) ∧ SideOk (o.ssp == 0) (c.g.sc o.a.toNat) (permLD + if o.kt then permLC else 0)
      ∧ c.team.ringUsed r + n ≤ 2 ^ r.logSize ∧ c.g.p 0 = 0 ∧ c.g.p 4 < 255 :=
  ⟨.cpy ⟨0, 4, 10, 0, 1, false⟩, copying .acq false (some ring0), _, _, _, _, _, _, 0, 0, _, _, issuer_copying _ _ _, by decide, rfl, by decide, by decide,
    by decide +kernel, by decide +kernel, rfl, rfl, rfl, .inl rfl, by decide +kernel, by decide +kernel, by decide +kernel, fun h => by simp at h,
    fun _ => by decide +kernel, by decide +kernel, by decide +kernel, by decide +kernel⟩

def groupS : Group := { groupQ with vregs := quadOf (name0 + BitVec.ofNat 128 (1536 * 2 ^ 23 - 24 * 2 ^ 23)) .cap 0 ++ quadOf 0 .route 4, sregs := [(8, 1022), (9, 2)] }
def teamQ : Team := { teamOf groupS with desc := fetchDesc ||| BitVec.ofNat 2048 (2 ^ 795) }

theorem hyp_ksend : ∃ (d a : VField) (b : SReg), ∃ s c, State.issuer s = some c ∧ c.g.mode ≠ .recipe
    ∧ let ls := lanesOf c.width c.p.lanes
      let l0 := lowestLane c.p.lanes
      let k := c.g.quad d.toNat l0
      let off := (c.g.s b.toNat).toNat
      let len := (c.g.s (b.toNat + 1)).toNat
      d.toNat % 4 = 0 ∧ a.toNat % 4 = 0 ∧ c.outOfRange d 4 = false ∧ c.outOfRange a 4 = false ∧ (∀ x ∈ [b.toNat, b.toNat + 1], c.g.sFull x = true)
      ∧ c.fullCheck [(⟨d, false, none⟩, c.touched d 4 ls), (⟨a, false, none⟩, c.touched a 4 ls)] = .ok () ∧ c.sameTags d 4 ls .cap = true
      ∧ c.sameTags a 4 ls .route = true ∧ k.tag = true ∧ k.kind = 1 ∧ 1536 ≤ nameRegbase k.bits ∧ nameRegbase k.bits ≤ 1567
      ∧ k.grants (permRS + permGL) = true ∧ 1 ≤ len ∧ len ≤ 65536 ∧ off + len ≤ c.team.shareBytes ∧ routeForm (c.g.quad a.toNat l0).bits = true
      ∧ s.admitted (nameDevice k.bits) = true ∧ c.g.p 5 < 255 :=
  ⟨0, 4, 8, worldOf (coreOf teamQ), ctxOf teamQ groupS, issuer_of _ _ _ _ rfl rfl rfl rfl rfl rfl, by decide, by decide +kernel⟩

/-! MATRIX: a team with one F32 tile, or one F64 tile, and a share of 64 KiB. -/

def groupX : Group := { groupM with sregs := groupM.sregs ++ [(8, 0), (9, 0), (10, 0), (11, 0), (12, 1)] }
def teamX (accF : Bool) : Team := { teamOf groupX with
  desc := fetchDesc ||| BitVec.ofNat 2048 (64 * 2 ^ 795 + 2 ^ 606 + if accF then 2 ^ 605 else 0)
  maps := [(0, ⟨if accF then 9 else 6, 0, 0, 0, 0, 0, none⟩), (1, ⟨if accF then 9 else 6, 0, 0, 0, 0, 0, none⟩)] }
def matrixWorld (accF : Bool) : State := { worldOf (coreM (teamX accF)) with tenants := [(0, tenant0)] }
theorem issuer_matrix (accF : Bool) : (matrixWorld accF).issuer = some (ctxOf (teamX accF) groupX) := issuer_of _ _ _ _ rfl rfl rfl rfl rfl rfl

theorem block_full (pairs : List SReg) (b : SReg) (n : Nat) : BlockFull groupX pairs b n :=
  ⟨fun _ _ _ _ => by simp [Group.sFull, groupX, groupM, groupV, group0, Group.fresh], fun _ _ => by simp [Group.sFull, groupX, groupM, groupV, group0, Group.fresh]⟩

theorem hyp_mmap (glob : Bool) : ∃ (a b : SReg), ∃ s c, State.issuer s = some c ∧ c.team.accN ≠ 0 ∧ a.toNat % 2 = 0 ∧ BlockFull c.g [a] b 4 ∧ (a ≠ 0) = glob
    ∧ let v := fun j => c.g.s (b.toNat + j)
      let fmt := (v 0).toNat % 16
      let layout := (v 0).toNat / 16
      layout ≤ 1 ∧ fmt ≤ 9 ∧ (layout = 1 → fmt ≤ 5) ∧ (v 3 ≠ 0 → fmt ≤ 5 ∧ layout = 0) ∧ (a = 0 → (v 1).toNat < 2 ^ 32)
      ∧ (a ≠ 0 → (c.g.sc a.toNat).tag = true ∧ (c.g.sc a.toNat).kind = 0 ∧ (c.g.sc a.toNat).otype = 0 ∧ (c.g.sc a.toNat).grants permLD = true) :=
  ⟨if glob then 4 else 0, 8, matrixWorld false, _, issuer_matrix _, by decide +kernel, by cases glob <;> decide, block_full _ _ _, by cases glob <;> simp,
    by decide +kernel, by decide +kernel, by decide +kernel, by decide +kernel, by cases glob <;> decide +kernel, by cases glob <;> decide +kernel⟩

theorem hyp_mzero : ∃ (tile : BitVec 3), ∃ s c, State.issuer s = some c ∧ tile.toNat < c.team.accN ∧ UnitHasRoom c s :=
  ⟨0, matrixWorld false, _, issuer_matrix _, by decide +kernel, by unfold UnitHasRoom; decide +kernel⟩

theorem hyp_mload (glob accF : Bool) : ∃ (a b : SReg) (tile : BitVec 3), ∃ s c, State.issuer s = some c ∧ c.g.mode ≠ .recipe ∧ tile.toNat < c.team.accN
    ∧ a.toNat % 2 = 0 ∧ BlockFull c.g [a] b 2 ∧ UnitHasRoom c s ∧ c.g.p 0 = 0 ∧ (a ≠ 0) = glob
    ∧ let off := c.g.s b.toNat
      let rs := (c.g.s (b.toNat + 1)).toNat
      let dim := if c.team.accF then 64 else 128
      let n := (dim - 1) * rs + dim * (if c.team.accF then 8 else 4)
      rs < 2 ^ 32 ∧ (a = 0 → off.toNat + n ≤ c.team.shareBytes )
      ∧ (a ≠ 0 → capCheck (c.g.sc a.toNat) ((c.g.sc a.toNat).addr + off) n permLD = none) :=
  ⟨if glob then 4 else 0, 8, 0, matrixWorld accF, _, issuer_matrix _, by cases accF <;> decide, by cases accF <;> decide +kernel, by cases glob <;> decide, block_full _ _ _,
    by cases accF <;> (unfold UnitHasRoom; decide +kernel), by cases accF <;> decide +kernel, by cases glob <;> simp, by cases accF <;> decide +kernel,
    by cases glob <;> cases accF <;> decide +kernel, by cases glob <;> cases accF <;> decide +kernel⟩

theorem hyp_mloop (accF : Bool) : ∃ (ma mb : BitVec 3) (b : SReg) (tile : BitVec 3), ∃ s c x y, State.issuer s = some c ∧ c.g.mode ≠ .recipe
    ∧ tile.toNat < c.team.accN ∧ c.g.sFull b.toNat = true ∧ 1 ≤ (c.g.s b.toNat).toNat ∧ (c.g.s b.toNat).toNat ≤ 65535
    ∧ NMap.find c.team.maps ma.toNat = some x ∧ NMap.find c.team.maps mb.toNat = some y ∧ FormatsPair c.team.accF x.fmt y.fmt ∧ UnitHasRoom c s ∧ c.g.p 0 = 0 :=
  ⟨0, 1, 12, 0, matrixWorld accF, _, _, _, issuer_matrix _, by cases accF <;> decide, by cases accF <;> decide +kernel, by cases accF <;> decide +kernel,
    by cases accF <;> decide +kernel, by cases accF <;> decide +kernel, rfl, rfl, by cases accF <;> (unfold FormatsPair; decide +kernel),
    by cases accF <;> (unfold UnitHasRoom; decide +kernel), by cases accF <;> decide +kernel⟩

theorem hyp_mdrain : ∃ (d a b : SReg) (tile : BitVec 3), ∃ s c, State.issuer s = some c ∧ c.g.mode ≠ .recipe ∧ tile.toNat < c.team.accN
    ∧ a.toNat % 2 = 0 ∧ d.toNat % 2 = 0 ∧ BlockFull c.g [d, a] b 4 ∧ UnitHasRoom c s
    ∧ let v := fun j => (c.g.s (b.toNat + j)).toNat
      let df := v 3 % 16
      let mode := v 3 / 16 % 8
      let layout := v 3 / 128 % 2
      let seed := v 3 / 2 ^ 16 % 128
      let m : OpMap := ⟨df, layout, c.g.s b.toNat, v 1 % 2 ^ 32, v 1 / 2 ^ 32, c.g.s (b.toNat + 2), if a = 0 then none else some (c.g.sc a.toNat)⟩
      v 3 < 2 ^ 23 ∧ v 3 / 2 ^ 8 % 2 ^ 8 = 0 ∧ mode ≤ 5 ∧ (mode ≠ 5 → seed = 0) ∧ (mode = 5 → c.g.sFull seed = true)
      ∧ DrainFormat c.team.accF df layout
      ∧ (∀ i < (if c.team.accF then 64 else 128), ∀ x ∈ m.rowRanges i 0 (if c.team.accF then 64 else 128),
          (a = 0 → x.addr.toNat + x.n ≤ c.team.shareBytes) ∧ (a ≠ 0 → capCheck (c.g.sc a.toNat) x.addr x.n permST = none))
      ∧ (d ≠ 0 → capCheck (c.g.sc d.toNat) (c.g.sc d.toNat).addr (if c.team.accF then 8 else 4) (permLD + permST + permAT) = none
        ∧ (c.g.sc d.toNat).addr.toNat % (if c.team.accF then 8 else 4) = 0) :=
  ⟨4, 0, 8, 0, matrixWorld false, _, issuer_matrix _, by decide, by decide +kernel, by decide, by decide, block_full _ _ _, by unfold UnitHasRoom; decide +kernel,
    by decide +kernel, by decide +kernel, by decide +kernel, by decide +kernel, by decide +kernel, by unfold DrainFormat; decide +kernel,
    by decide +kernel, by decide +kernel⟩

theorem hyp_mwait (p : Nat) : ∃ (d : SReg) (tile : BitVec 3), ∃ s c, State.issuer s = some c ∧ tile.toNat < c.team.accN ∧ c.g.sFull d.toNat = true
    ∧ (c.team.tile tile.toNat).pend = p := by
  let t : Team := { teamX false with tiles := [(0, ⟨[], 0, 0, 0, p, false, 0⟩)] }
  exact ⟨127, 0, worldOf (coreOf t), ctxOf t groupX, issuer_of _ _ _ _ rfl rfl rfl rfl rfl rfl,
    show 0 < (teamX false).accN by decide +kernel, show groupX.sFull 127 = true by decide +kernel, rfl⟩

def launching : State := { matrixWorld false with
  queues := [(0, { Queue.fresh with qcb := 0x400, st := .run })]
  tenants := [(0, { tenant0 with entry := tenant0.entry ||| BitVec.ofNat 4096 (256 * 2 ^ 8 * 2 ^ (8 * 32)) })] }

theorem hyp_launch : ∃ (q p d : SReg), ∃ s c key, State.issuer s = some c ∧ c.g.mode ≠ .recipe ∧ q.toNat % 2 = 0 ∧ p.toNat % 8 = 0 ∧ 8 ≤ p.toNat ∧ p.toNat ≤ 120
    ∧ (∀ r ∈ pairRegs q.toNat, c.g.sFull r = true) ∧ c.g.sFull d.toNat = true ∧ (∀ j < 8, c.g.sFull (p.toNat + j) = true)
    ∧ capCheck (c.g.sc q.toNat) (c.g.sc q.toNat).addr 64 (permST + permAT) = none ∧ s.queueWithQcb (c.g.sc q.toNat).addr = some key
    ∧ s.queueTenant (key / 256) (key % 256) = some c.team.tenant ∧ c.fenceWaits 3 = [] :=
  ⟨4, 120, 9, launching, ctxOf (teamX false) groupX, 0, issuer_of _ _ _ _ rfl rfl rfl rfl rfl rfl, by decide, by decide, by decide, by decide, by decide, by decide +kernel,
    (by decide +kernel), by decide +kernel, by decide +kernel, (by decide +kernel), by decide +kernel, by decide +kernel⟩

/-! Steps of issue. -/

theorem chosen_single (x : Site × Split) : Chosen [x] x := by
  refine ⟨by simp, ?_⟩
  by_cases h : 4096 ≤ x.2.age
  · rw [if_pos ⟨x, by simp, h⟩]; exact ⟨h, fun y hy _ => .inl (by simpa using hy)⟩
  · rw [if_neg (by simpa using h)]
    exact ⟨⟨x, by simp, rfl, fun y hy => .inr ⟨by rw [show y = x by simpa using hy], .inl (by rw [show y = x by simpa using hy])⟩⟩,
      fun y hy _ => .inl (by simpa using hy)⟩

/-- A core whose one split is chosen next. -/
def choosing (p : Split) : State :=
  { worldOf { coreM (teamOf { group0 with splits := [(0, p)] }) with quads := [] } with tenants := [(0, tenant0)] }
def heldSplit : Split := { split0 with st := .held, held := some ⟨[], false, false⟩ }
def boundSplit : Split := Split.boundAt 0x1000 (widthMask 32) code0 .none_ 0

theorem hyp_choice_resumes : ∃ (core q : Nat) (s : State) (x : Site × Split), InProgress s core q = none ∧ Chosen ((s.ageSplits core q 0).candidates core q) x
    ∧ ∃ tm g p cl, (s.ageSplits core q 0).team core x.1.g.slot = some tm ∧ (s.ageSplits core q 0).group x.1.g = some g ∧ (s.ageSplits core q 0).split x.1 = some p
      ∧ g.bevents = [] ∧ p.st = .held ∧ p.clause = some cl ∧ cl.next < cl.count := by
  have e : ((choosing heldSplit).ageSplits 0 0 0).candidates 0 0 = [(site0, { heldSplit with eligible := true })] := by decide +kernel
  refine ⟨0, 0, choosing heldSplit, (site0, { heldSplit with eligible := true }), by unfold InProgress; decide +kernel, by rw [e]; exact chosen_single _,
    teamOf { group0 with splits := [(0, { heldSplit with eligible := true })] }, { group0 with splits := [(0, { heldSplit with eligible := true })] },
    { heldSplit with eligible := true }, cl0, by decide +kernel, by decide +kernel, by decide +kernel, rfl, rfl, rfl, by decide +kernel⟩

theorem hyp_choice_begins : ∃ (core q : Nat) (s : State) (x : Site × Split), InProgress s core q = none ∧ Chosen ((s.ageSplits core q 0).candidates core q) x
    ∧ ∃ tm g p cl s2, (s.ageSplits core q 0).team core x.1.g.slot = some tm ∧ (s.ageSplits core q 0).group x.1.g = some g ∧ (s.ageSplits core q 0).split x.1 = some p
      ∧ g.bevents = [] ∧ p.st = .bound ∧ (s.debugReach core = true → (s.core core).breakpointAt p.pc = none) ∧ g.cur = none
      ∧ (s.ageSplits core q 0).headerHost core tm g.code p = none ∧ headerCheck (s.ageSplits core q 0) core tm g.code p = (s2, .ok cl) := by
  have e : ((choosing boundSplit).ageSplits 0 0 0).candidates 0 0 = [(site0, { boundSplit with eligible := true })] := by decide +kernel
  refine ⟨0, 0, choosing boundSplit, (site0, { boundSplit with eligible := true }), by unfold InProgress; decide +kernel, by rw [e]; exact chosen_single _,
    teamOf { group0 with splits := [(0, { boundSplit with eligible := true })] }, { group0 with splits := [(0, { boundSplit with eligible := true })] },
    { boundSplit with eligible := true }, ⟨0x1000, 0, [0], 0⟩, (headerCheck ((choosing boundSplit).ageSplits 0 0 0) 0
      (teamOf { group0 with splits := [(0, { boundSplit with eligible := true })] }) [] { boundSplit with eligible := true }).1,
    by decide +kernel, by decide +kernel, by decide +kernel, rfl, rfl, fun _ => by decide +kernel, rfl, by decide +kernel, Prod.ext (by decide +kernel) (by decide +kernel)⟩

theorem hyp_break : ∃ (i : Site) (s : State) (g : Group) (p : Split) (hd : Held), s.group i.g = some g ∧ NMap.find g.splits i.split = some p ∧ p.st = .issue
    ∧ 64 ≤ p.stall ∧ p.held = some hd ∧ hd.again = true ∧ g.lateMarks = [] :=
  ⟨site0, issuing { group0 with splits := [(0, { split0 with stall := 64, held := some ⟨[.vfull 0], true, false⟩ })] }, _, _, _, rfl, rfl, rfl, by decide, rfl, rfl, rfl⟩

theorem hyp_break_word : ∃ (i : Site) (s : State) (g : Group) (p : Split) (tm : Team) (cl : Clause) (x : Instr), s.group i.g = some g ∧ NMap.find g.splits i.split = some p
    ∧ s.team i.g.core i.g.slot = some tm ∧ p.clause = some cl ∧ decodeWord (decodeHeader cl.header).cls (cl.words.getD cl.next 0) = .ok x :=
  ⟨site0, issuing group0, _, _, _, cl0, .nop, rfl, rfl, rfl, rfl, by decide +kernel⟩

theorem hyp_rotation : ∃ (i : GroupId) (s : State) (g : Group) (o : Overflow) (rest : List Overflow) (k : Nat) (p : Split), s.group i = some g
    ∧ g.overflow = o :: rest ∧ o.since + 4096 ≤ s.cycle ∧ g.lateMarks = [] ∧ (k, p) ∈ g.splits ∧ Candidate o p
    ∧ ∀ kp ∈ g.splits, Candidate o kp.2 → kp = (k, p) ∨ p.reached < kp.2.reached :=
  ⟨⟨0, 0, 0⟩, { issuing { group0 with splits := [(0, { boundSplit with reached := 4096 })], overflow := [⟨0x100000000, 0x2000, code0, .none_, 0, none⟩] } with cycle := 4096 },
    _, _, _, 0, { boundSplit with reached := 4096 }, rfl, rfl, by decide, rfl, .head _, ⟨rfl, rfl, by decide⟩, fun kp h _ => .inl (List.mem_singleton.mp h)⟩

/-- A device whose debug port is unlocked, and a debug command to group 0 of slot 0. -/
def debugging (g : Group) (op : Nat) : State :=
  { issuing g with pkg := { Package.reset with debugUnlocked := true }, req := { Request.zero with value := BitVec.ofNat 64 (op * 2 ^ 12) } }

theorem hyp_debug (op : Nat) : ∃ (i : GroupId) (k : Nat) (s : State) (tm : Team) (g : Group), s.team i.core i.slot = some tm ∧ s.group i = some g
    ∧ g.lateMarks = [] ∧ tm.groups.Pairwise (·.1 ≠ ·.1) ∧ DebugCommand s i k op :=
  ⟨⟨0, 0, 0⟩, 0, debugging group0 op, _, _, rfl, rfl, rfl, by decide, rfl, rfl, rfl, by decide, by decide, by decide,
    by simp [debugging, Request.zero]⟩

theorem hyp_debug_step : ∃ (i : GroupId) (k : Nat) (s : State) (tm : Team) (g : Group) (p : Split), s.team i.core i.slot = some tm ∧ s.group i = some g
    ∧ g.lateMarks = [] ∧ tm.groups.Pairwise (·.1 ≠ ·.1) ∧ DebugCommand s i k 2 ∧ NMap.find g.splits k = some p ∧ g.halted = true ∧ g.mustHalt p = false ∧ p.st = .halt :=
  ⟨⟨0, 0, 0⟩, 0, debugging { group0 with halted := true, splits := [(0, { split0 with st := .halt })] } 2, _, _, _, rfl, rfl, rfl, by decide,
    ⟨rfl, rfl, rfl, by decide, by decide, by decide, rfl⟩, rfl, rfl, by decide, rfl⟩

/-! Traps. -/

def groupT : Group := { group0 with splits := [], stopped := some record0, sp := { group0.sp with tvec := 0x8000000000000000 } }

theorem hyp_trap_at_k : ∃ (i : GroupId) (s : State) (tm : Team) (g : Group) (r : Record), s.team i.core i.slot = some tm ∧ s.group i = some g ∧ TrapsNow g r
    ∧ (∀ kt ∈ s.tenants, kt.2.heldRecords = []) ∧ g.mode ≠ .handler ∧ g.lateMarks = [] ∧ routeOf (s.tenant tm.tenant) g.sp.tvec r.cause = .k :=
  ⟨⟨0, 0, 0⟩, issuing groupT, _, _, record0, rfl, rfl, ⟨rfl, rfl, rfl, by simp [groupT]⟩, by simp [issuing, worldOf, State.reset], by decide, rfl, by decide +kernel⟩

theorem hyp_trap_at_s : ∃ (i : GroupId) (s : State) (tm : Team) (g : Group) (r : Record), s.team i.core i.slot = some tm ∧ s.group i = some g ∧ TrapsNow g r
    ∧ (∀ kt ∈ s.tenants, kt.2.heldRecords = []) ∧ g.mode ≠ .handler ∧ routeOf (s.tenant tm.tenant) g.sp.tvec r.cause ≠ .k :=
  ⟨⟨0, 0, 0⟩, issuing { groupT with sp := group0.sp }, _, _, record0, rfl, rfl, ⟨rfl, rfl, rfl, by simp [groupT]⟩, by simp [issuing, worldOf, State.reset], by decide, by decide +kernel⟩

theorem hyp_trap_in_handler : ∃ (i : GroupId) (s : State) (tm : Team) (g : Group) (r : Record), s.team i.core i.slot = some tm ∧ s.group i = some g ∧ TrapsNow g r
    ∧ (∀ kt ∈ s.tenants, kt.2.heldRecords = []) ∧ g.mode = .handler :=
  ⟨⟨0, 0, 0⟩, issuing { groupT with mode := .handler, nested := some record0 }, _, _, record0, rfl, rfl, ⟨rfl, rfl, rfl, by simp [groupT]⟩, by simp [issuing, worldOf, State.reset], rfl⟩

/-- A grid of the team, without an exit-fault record. -/
def grid0 : Grid := ⟨0, 0, 0, 0, 0, fetchDesc, 0, Cap.null, [], [], none, none, 1, 1, 0, 0, none, true, false, false, Cap.null, 0, []⟩

theorem hyp_late_exited : ∃ (i : GroupId) (lanes : Lanes) (s : State) (tm : Team) (g : Group) (gr : Grid), s.team i.core i.slot = some tm ∧ s.group i = some g
    ∧ g.lateMarks = [] ∧ lanes ≠ 0 ∧ lanes &&& ~~~g.exited = 0 ∧ s.grid tm.grid = some gr ∧ gr.xrec = none ∧ gr.writes = [] :=
  ⟨⟨0, 0, 0⟩, 1, { issuing { group0 with exited := 1 } with grids := [(0, grid0)] }, _, _, grid0, rfl, rfl, rfl, by decide, by decide, rfl, rfl, rfl⟩

theorem hyp_late_record : ∃ (i : GroupId) (lanes : Lanes) (s : State) (tm : Team) (g : Group) (k : Nat) (p : Split), s.team i.core i.slot = some tm ∧ s.group i = some g
    ∧ g.lateMarks = [] ∧ lanes ≠ 0 ∧ lanes &&& g.exited = 0 ∧ g.cur = none ∧ (k, p) ∈ g.splits ∧ lanes &&& ~~~p.lanes = 0
    ∧ ∀ kp ∈ g.splits, kp ≠ (k, p) → kp.2.lanes &&& lanes = 0 :=
  ⟨⟨0, 0, 0⟩, 1, issuing group0, _, _, 0, split0, rfl, rfl, rfl, by decide, by decide, rfl, by simp [group0], by decide +kernel,
    fun kp h hn => absurd (by simpa [group0] using h) hn⟩

/-- A group that awaits GRESUME, and the request that names it. -/
def awaiting (r : Record) (tv : W64) : State := { issuing { groupT with stopped := some r, awaiting := true, sp := { groupT.sp with tvec := tv } } with grids := [(0, grid0)] }

theorem awaits (r : Record) (tv : W64) : Awaits (awaiting r tv) ⟨0, 0, 0⟩ (teamOf { groupT with stopped := some r, awaiting := true, sp := { groupT.sp with tvec := tv } })
    { groupT with stopped := some r, awaiting := true, sp := { groupT.sp with tvec := tv } } r :=
  ⟨⟨rfl, rfl, rfl⟩, rfl, rfl, rfl, rfl, rfl, rfl, rfl⟩

theorem hyp_gresume : ∃ (i : GroupId) (s : State) (tm : Team) (g : Group) (r : Record), Awaits s i tm g r ∧ r.lanes ≠ 0 ∧ r.atHeader = false ∧ (∃ c, r.clause = some c)
    ∧ g.mode ≠ .handler ∧ g.sp.tvec.getLsbD 63 = true ∧ ∃ gr, s.grid tm.grid = some gr ∧ gr.xrec = none ∧ gr.writes = [] :=
  ⟨_, _, _, _, _, awaits record0 0x8000000000000000, by decide, rfl, ⟨_, rfl⟩, by decide, by decide, grid0, rfl, rfl, rfl⟩

theorem hyp_gresume_header : ∃ (i : GroupId) (s : State) (tm : Team) (g : Group) (r : Record), Awaits s i tm g r ∧ r.lanes ≠ 0 ∧ r.atHeader = true ∧ ∃ c, r.clause = some c :=
  ⟨_, _, _, _, _, awaits { record0 with atHeader := true } 0, by decide, rfl, ⟨_, rfl⟩⟩

theorem hyp_bankreq (f : Bool) : ∃ (core slot : Nat) (s : State) (tm : Team), Named s core slot tm ∧ s.req.flag = f :=
  ⟨0, 0, { issuing group0 with req := { Request.zero with flag := f } }, _, ⟨rfl, rfl, rfl⟩, rfl⟩

theorem hyp_grtight : ∃ (core slot : Nat) (s : State) (tm : Team), Named s core slot tm
    ∧ let w := s.req.tight
      let f := fun (lo len : Nat) => descField tm.desc lo len
      w.grIssue ≤ 1 ∧ w.grMatrix ≤ 1 ∧ w.grCopy ≤ 1 ∧ w.grHearth ≤ 1 ∧ w.grace ≠ 0 ∧ w.grace < 256 ∧ f 764 4 ≤ w.grIssue ∧ w.grMatrix ≤ f 760 4
        ∧ w.grCopy ≤ f 756 4 ∧ w.grHearth ≤ f 752 4 ∧ w.grace ≤ f 740 8 :=
  ⟨0, 0, { issuing group0 with req := { Request.zero with tight := ⟨1, 0, 0, 0, 16⟩ } }, _, ⟨rfl, rfl, rfl⟩, by decide +kernel⟩

/-! Hearths and homes. -/

def entry0 : Entry where
  st := .open_
  rel := false
  rscope := 0
  tv := true
  tags := 0
  world := 0
  tenant := 0
  slot := 0
  group := 0
  fcause := 0
  host := false
  stamp := 0
  born := 0
  pa := 5
  va := 5
  mask := 1
  data := 7
  heldFail := none
  sent := false
  acked := false
  committing := false
  registered := false
  near := false

def piece0 : Piece := ⟨5, some 5, 2, 0x700, 0, 0, false⟩
def store0 : WaitingStore := ⟨7, ⟨0, 0, 0⟩, 1, [piece0], none, false⟩
/-- A core with a team, hearth entries, grants and waiting stores. -/
def hearthCore (es : NMap Entry) (ws : List WaitingStore) (gr : List Nat) : Core := { coreM (teamOf groupM) with hearth := es, waiting := ws, grants := gr, seqNext := 1 }
def hearthing (es : NMap Entry) (ws : List WaitingStore) (gr : List Nat) : State := { worldOf (hearthCore es ws gr) with tenants := [(0, tenant0)] }

theorem no_lates (es : NMap Entry) (ws : List WaitingStore) (gr : List Nat) : NoLates ((hearthing es ws gr).core 0) := by
  intro st hs kg hk
  obtain rfl : st = (0, teamOf groupM) := by simpa [hearthing, worldOf, hearthCore, coreM, coreOf, State.core, NMap.getD, NMap.find] using hs
  obtain rfl : kg = (0, groupM) := by simpa [teamOf] using hk
  rfl

theorem hyp_accept_merge : ∃ core s w p idx e, State.storeReady s core = some w ∧ w.g.core = core ∧ w.pieces = [p] ∧ w.rel = none
    ∧ (s.core core).mergeTarget w.g p = some idx ∧ s.entry core idx = some e :=
  ⟨0, hearthing [(0, entry0)] [store0] [], store0, piece0, 0, entry0, by decide +kernel, rfl, rfl, rfl, by decide +kernel, rfl⟩

theorem hyp_accept_opens : ∃ core s w p idx, State.storeReady s core = some w ∧ w.g.core = core ∧ w.pieces = [p] ∧ w.rel = none
    ∧ (s.core core).mergeTarget w.g p = none ∧ ((s.core core).teamEntries w.g.slot).length < s.limitOf core w.g.slot ∧ (s.core core).freeEntry = some idx :=
  ⟨0, hearthing [] [store0] [], store0, piece0, 0, by decide +kernel, rfl, rfl, rfl, by decide +kernel, by decide +kernel, by decide +kernel⟩

def unwalked : Entry := { entry0 with tv := false }

theorem hyp_walk : ∃ (core idx : Nat) (s s1 : State) (e : Entry) (pa : Nat), s.entry core idx = some e ∧ e.tv = false ∧ e.st = .open_ ∧ e.rel = false ∧ s1.entry core idx = some e
    ∧ s.pageHost core e.tenant (BitVec.ofNat 64 (e.va * 128)) .store = none ∧ translate s core e.tenant (BitVec.ofNat 64 (e.va * 128)) .store = (s1, .ok (.mem pa)) :=
  ⟨0, 0, hearthing [(0, unwalked)] [] [], (translate (hearthing [(0, unwalked)] [] []) 0 0 640 .store).1, unwalked, 640, rfl, rfl, rfl, rfl, by decide +kernel, by decide +kernel,
    Prod.ext (by decide +kernel) (by decide +kernel)⟩

theorem hyp_walk_fails : ∃ (core idx : Nat) (s s1 : State) (e : Entry) (f : Cause), s.entry core idx = some e ∧ e.tv = false ∧ e.st = .open_ ∧ e.rel = false
    ∧ s1.entry core idx = some e ∧ s.pageHost core e.tenant (BitVec.ofNat 64 (e.va * 128)) .store = none ∧ translate s core e.tenant (BitVec.ofNat 64 (e.va * 128)) .store = (s1, .error f) :=
  ⟨0, 0, hearthing [(0, { unwalked with va := 2 ^ 42 })] [] [], (translate (hearthing [(0, { unwalked with va := 2 ^ 42 })] [] []) 0 0 (BitVec.ofNat 64 (2 ^ 49)) .store).1,
    { unwalked with va := 2 ^ 42 }, .translation, rfl, rfl, rfl, rfl, by decide +kernel, by decide +kernel, Prod.ext (by decide +kernel) (by decide +kernel)⟩

theorem hyp_walk_fail (x : EntryState) : ∃ (core idx : Nat) (s : State) (e : Entry), s.entry core idx = some e ∧ e.tv = false ∧ e.st = x :=
  ⟨0, 0, hearthing [(0, { unwalked with st := x })] [] [], _, rfl, rfl, rfl⟩

theorem hyp_age (f : Option Cause) : ∃ (core idx : Nat) (s : State) (e : Entry), s.entry core idx = some e ∧ e.st = .open_ ∧ e.born + 4095 ≤ s.cycle ∧ e.rel = false
    ∧ e.heldFail = f := ⟨0, 0, { hearthing [(0, { entry0 with heldFail := f })] [] [] with cycle := 4095 }, { entry0 with heldFail := f }, rfl, rfl, by simp [entry0], rfl, rfl⟩

theorem hyp_leave (host : Bool) (x : EntryState) (hx : x = .draining ∨ x = .provisional) : ∃ (core idx : Nat) (s : State) (e : Entry), s.entry core idx = some e
    ∧ MayLeave (s.core core) idx e ∧ e.host = host ∧ e.st = x :=
  ⟨0, 0, hearthing [(0, { entry0 with st := x, host := host })] [] [5], { entry0 with st := x, host := host }, rfl,
    ⟨hx, rfl, rfl, .inr ⟨by simp [hearthing, worldOf, hearthCore, State.core, NMap.getD, NMap.find, entry0], by cases host <;> cases x <;> decide⟩, fun y hy h => by
      obtain rfl : y = (0, { entry0 with st := x, host := host }) := by
        simpa [hearthing, worldOf, hearthCore, State.core, NMap.getD, NMap.find] using hy
      simp at h⟩, rfl, rfl⟩

theorem hyp_host_write (x : TdiState) : ∃ (core idx : Nat) (s : State) (e : Entry), s.entry core idx = some e ∧ e.host = true ∧ e.sent = true ∧ (e.st = .draining ∨ e.st = .provisional)
    ∧ Quiet (s.dirAt e.pa) ∧ ((s.dirAt e.pa).st = .excl ∨ (s.dirAt e.pa).st = .modified → (s.dirAt e.pa).holder = core)
    ∧ isHostLine e.pa = true ∧ (s.tenant e.tenant).tdi = x ∧ s.MemoryWf :=
  ⟨0, 0, (hearthing [(0, { entry0 with st := .draining, host := true, sent := true, pa := Config.hostBase / 128 })] [] []).setTdi 0 x, _, rfl, rfl, rfl, .inl rfl,
    ⟨rfl, rfl⟩, by cases x <;> decide, by decide, rfl, rfl⟩

theorem hyp_ack : ∃ (core idx : Nat) (s : State) (e : Entry) (g : Group), s.entry core idx = some e ∧ Quiet (s.dirAt e.pa) ∧ NoLates (s.core core)
    ∧ s.group ⟨core, e.slot, e.group⟩ = some g ∧ ∀ x ∈ (s.core core).hearth, x.1 ≠ idx → x.2.pa ≠ e.pa :=
  ⟨0, 0, hearthing [(0, { entry0 with st := .draining })] [] [5], _, groupM, rfl, ⟨rfl, rfl⟩, no_lates _ _ _, rfl, by
    intro x hx h
    obtain rfl : x = (0, { entry0 with st := .draining }) := by simpa [hearthing, worldOf, hearthCore, State.core, NMap.getD, NMap.find] using hx
    simp at h⟩

theorem hyp_counts : ∃ (i : GroupId) (s : State) (g : Group), s.group i = some g := ⟨⟨0, 0, 0⟩, issuing group0, _, rfl⟩

theorem serves : HomeServes (loading groupM) 5 := ⟨⟨rfl, rfl⟩, by decide, by decide +kernel, rfl, .inl rfl⟩

theorem hyp_read : ∃ (line core : Nat) (s : State), HomeServes s line ∧ s.noCache core line = false ∧ (1#7 <<< siteOf core line) ≠ 0 :=
  ⟨5, 0, loading groupM, serves, by decide +kernel, by decide +kernel⟩

theorem hyp_read_new : ∃ (line : Nat) (i : GroupId) (id : Nat) (s : State) (g : Group) (l : Late), HomeServes s line ∧ s.group i = some g ∧ g.late id = some l :=
  ⟨5, ⟨0, 0, 0⟩, 7, issuing { group0 with lates := [late0] }, _, late0, ⟨⟨rfl, rfl⟩, by decide, by decide +kernel, rfl, .inl rfl⟩, rfl, rfl⟩

def dirWorld (d : DirEntry) (es : NMap Entry) : State := { hearthing es [] [5] with dir := [(5, d)] }

/-- The map's byte of a line's page is memory's first. -/
theorem page_free (d : DirEntry) (es : NMap Entry) (h : dirtyByte { worldOf Core.fresh with tenants := [(0, tenant0)] } 640 = some 0) : PageMarkFree (dirWorld d es) 5 := by
  intro q hq
  have e : dirtyByte (dirWorld d es) (5 * 128) = some 0 := h
  obtain rfl := Option.some.inj (e.symm.trans hq)
  exact .inr ⟨rfl, rfl⟩

theorem hyp_grant_request : (∃ (line _core : Nat) (s : State), Quiet (s.dirAt line) ∧ s.frozen line = false ∧ (s.dirAt line).st = .inv ∧ (s.dirAt line).sites = 0)
    ∧ (∃ (line core : Nat) (s : State), Quiet (s.dirAt line) ∧ s.frozen line = false ∧ (s.dirAt line).st = .excl ∧ (s.dirAt line).hg = false ∧ (s.dirAt line).eg = false ∧ (s.dirAt line).holder = core)
    ∧ ∃ (line core : Nat) (s : State), Quiet (s.dirAt line) ∧ s.frozen line = false ∧ (s.dirAt line).st = .modified ∧ (s.dirAt line).holder ≠ core ∧ (s.dirAt line).asked = false :=
  ⟨⟨5, 0, State.reset, ⟨rfl, rfl⟩, by decide +kernel, rfl, rfl⟩, ⟨5, 3, dirWorld { DirEntry.fresh with st := .excl, holder := 3 } [], ⟨rfl, rfl⟩, by decide +kernel, rfl, rfl, rfl, rfl⟩,
    ⟨5, 1, dirWorld { DirEntry.fresh with st := .modified } [], ⟨rfl, rfl⟩, by decide +kernel, rfl, by decide, rfl⟩⟩

theorem hyp_grant : ∃ (line core : Nat) (s : State), isHostLine line = false ∧ NoLates (s.core core) ∧ NMap.find (s.core core).recalls line = none ∧ ∀ x ∈ (s.core core).hearth, x.2.rel = false :=
  ⟨5, 0, hearthing [(0, entry0)] [] [], by decide, no_lates _ _ _, by decide, by decide⟩

theorem hyp_recall : (∃ (line core : Nat) (s : State), line ∈ (s.core core).grants ∧ NoLates (s.core core) ∧ ∀ x ∈ (s.core core).hearth, x.2.tv = true → x.2.pa ≠ line)
    ∧ ∃ (line core : Nat) (s : State) (idx : Nat) (e : Entry), line ∈ (s.core core).grants ∧ NoLates (s.core core) ∧ (s.core core).hearth = [(idx, e)] ∧ e.st = .open_
      ∧ e.tv = true ∧ e.pa = line ∧ e.rel = false ∧ e.heldFail = none ∧ e.host = false ∧ e.sent = false :=
  ⟨⟨6, 0, hearthing [(0, entry0)] [] [6], by decide, no_lates _ _ _, by decide⟩,
    ⟨5, 0, hearthing [(0, entry0)] [] [5], 0, entry0, by decide, no_lates _ _ _, rfl, rfl, rfl, rfl, rfl, rfl, rfl, rfl⟩⟩

def recalled (asked : List Nat) (d : DirEntry) : State :=
  { worldOf { hearthCore [(0, entry0)] [] [5] with grantAsked := asked } with tenants := [(0, tenant0)], dir := [(5, d)] }
theorem hyp_recall_asks : (∃ (line core idx : Nat) (s : State) (e : Entry), line ∈ (s.core core).grants ∧ (s.core core).hearth = [(idx, e)] ∧ e.pa = line
      ∧ (line ∈ (s.core core).grantAsked ∨ s.idleHolder core line = true))
    ∧ ∃ (line core idx : Nat) (s : State) (e : Entry), line ∈ (s.core core).grants ∧ (s.core core).hearth = [(idx, e)] ∧ e.pa = line
      ∧ ¬(line ∈ (s.core core).grantAsked ∨ s.idleHolder core line = true) :=
  ⟨⟨5, 0, 0, recalled [5] { DirEntry.fresh with st := .modified }, entry0, by decide, rfl, rfl, .inl (by decide)⟩,
    ⟨5, 0, 0, recalled [] { DirEntry.fresh with st := .modified }, entry0, by decide, rfl, rfl, by decide +kernel⟩⟩

theorem hyp_grant_back : ∃ (line core : Nat) (s : State), Quiet (s.dirAt line) ∧ ((s.dirAt line).st = .excl ∨ (s.dirAt line).st = .modified) ∧ (s.dirAt line).hg = false
    ∧ (s.dirAt line).holder = core := ⟨5, 0, dirWorld { DirEntry.fresh with st := .modified } [], ⟨rfl, rfl⟩, .inr rfl, rfl, rfl⟩

theorem hyp_promote : ∃ (line core idx : Nat) (s : State) (e : Entry), (s.core core).hearth = [(idx, e)] ∧ e.registered = true ∧ e.tv = true ∧ e.pa = line ∧ e.st = .open_
    ∧ e.rel = true ∧ e.heldFail = none := ⟨5, 0, 0, hearthing [(0, { entry0 with rel := true, registered := true })] [] [], _, rfl, rfl, rfl, rfl, rfl, rfl, rfl⟩

theorem hyp_fwd : ∃ (line : Nat) (s : State), s.lineFault line = none := ⟨5, State.reset, rfl⟩

theorem hyp_fwd_data : ∃ (line reader : Nat) (s : State), (s.dirAt line).st = .owned ∧ reader < 576 ∧ (s.core reader).plainWaits line = true ∧ s.noCache reader line = false ∧ isHostLine line = false := by
  let l : Late := { late0 with reqs := [⟨0, [16], [⟨640, 640, none⟩], none, 640, 0⟩] }
  exact ⟨5, 0, { worldOf (coreM (teamOf { groupM with lates := [l] })) with dir := [(5, { DirEntry.fresh with st := .owned })], tenants := [(0, tenant0)] },
    rfl, by decide, by decide +kernel, by decide +kernel, by decide⟩

theorem hyp_drain (x : EntryState) (a : Bool) : ∃ (line core idx : Nat) (s : State) (e : Entry), s.entry core idx = some e ∧ e.pa = line ∧ Quiet (s.dirAt line) ∧ Writable s line e
    ∧ (s.dirAt line).st = .modified ∧ (s.dirAt line).sites = 0 ∧ PageMarkFree s line ∧ s.MemoryWf ∧ e.st = x ∧ e.acked = a ∧ e.sent = true :=
  ⟨5, 0, 0, dirWorld { DirEntry.fresh with st := .modified } [(0, { entry0 with st := x, acked := a, sent := true })], _, rfl, rfl, ⟨rfl, rfl⟩, .inr rfl, rfl, rfl, page_free _ _ (by decide +kernel), rfl, rfl, rfl, rfl⟩

theorem hyp_drain_prov : ∃ (line core idx : Nat) (s : State) (e : Entry), s.entry core idx = some e ∧ e.pa = line ∧ e.sent = true ∧ e.st = .provisional ∧ Writable s line e
    ∧ (s.core core).hearth = [(idx, e)] ∧ e.committing = false :=
  ⟨5, 0, 0, hearthing [(0, { entry0 with st := .provisional, sent := true })] [] [], _, rfl, rfl, rfl, rfl, .inr rfl, rfl, rfl⟩

theorem hyp_inval_ack : ∃ (line site : Nat) (s : State), site < 6 ∧ Quiet (s.dirAt line) := ⟨5, 5, State.reset, by decide, rfl, rfl⟩

theorem hyp_silent_drop (f : Bool) : ∃ s : State, s.req.index < 7 ∧ s.req.flag = f := ⟨{ State.reset with req := { Request.zero with index := 6, flag := f } }, by simp, rfl⟩

/-! The distributor. -/

/-- In a state without directory entries and frozen buckets, every line is written at once. -/
theorem writes_now {s : State} (h : s.dir = []) (hd : s.dies = [] ∨ ∃ d : Die, s.dies = [(0, d)] ∧ d.buckets = []) (ln : Nat) : WritesNow s ln := by
  have hz : (s.die (homeDie ln)).buckets = [] := by
    rcases hd with hd | ⟨d, hd, hb⟩
    · simp [State.die, hd, NMap.getD, NMap.find, Die.fresh]
    · by_cases h0 : (0 : Nat) = homeDie ln
      · simp [State.die, hd, NMap.getD, NMap.find, ← h0, hb]
      · simp [State.die, hd, NMap.getD, NMap.find, h0, Die.fresh]
  refine ⟨by simp [State.dirAt, NMap.getD, NMap.find, h, DirEntry.fresh], ?_⟩
  simp [State.lineFree, State.frozen, Die.bucket, State.dirAt, NMap.getD, NMap.find, h, hz, DirEntry.fresh]

theorem dirty_at {s : State} {pa q : Nat} (h : dirtyByteAt s pa = some q) (hq : q < pa ∨ pa + 8 ≤ q) : ∀ a, dirtyByteAt s pa = some a → a < pa ∨ pa + 8 ≤ a := by
  intro a ha; obtain rfl := Option.some.inj (h.symm.trans ha); exact hq

def page0 : TlbEntry := ⟨0, 0, 2 ^ 40, 0, true, true, true, true⟩
/-- A tenant with a lease of core 0 and queues 0 to 7 of die 0. -/
def tenantQ : Tenant := { tenant0 with entry := entrySet tenant0.entry 32 8 0x800, lease := [0] }
def running : Queue := { Queue.fresh with st := .run, qcb := 1, bell := true }
/-- A device with one queue, whose control block lies at 64. -/
def queueing (m : List Host.Cell) (q : Queue) : State :=
  { State.reset with mem := m, queues := [(0, q)], tenants := [(0, tenantQ)], dies := [(0, { Die.fresh with tlb := [page0] })] }
/-- A control block for a ring of two slots at 128, and a packet without teams in its first slot. -/
def blockMem (widx ridx : Nat) : List Host.Cell :=
  ((State.reset.putNat 64 64 (2 + 2 ^ 36 + widx * 2 ^ 128 + ridx * 2 ^ 192)).putNat 128 64
    ((2 ^ 48 - 1) * 2 ^ 16 + (2 ^ 24 - 1) * 2 ^ 104 + 2 ^ 128 + 2 ^ 144 + 2 ^ 160)).mem

theorem hyp_take_unreadable : ∃ (die q tn : Nat) (s s1 : State), s.queueTenant die q = some tn ∧ (s.queue (queueKey die q)).st = .run
    ∧ s.headFree (s.queue (queueKey die q)) = true ∧ (s.queue (queueKey die q)).bell = true ∧ s.takeHeld die tn (s.queue (queueKey die q)) = none
    ∧ s.distRead die tn ((s.queue (queueKey die q)).qcb.toNat * 64) 64 = (s1, none) :=
  ⟨0, 7, 0, { queueing [] running with queues := [(7, running)], badLines := [0] },
    { queueing [] running with queues := [(7, running)], badLines := [0] }, by decide +kernel, by decide +kernel, by decide +kernel, by decide +kernel,
    by decide +kernel, Prod.ext (by decide +kernel) (by decide +kernel)⟩

theorem hyp_take_empty : ∃ (die q tn : Nat) (s s1 : State) (b : Nat), s.queueTenant die q = some tn ∧ (s.queue (queueKey die q)).st = .run
    ∧ s.headFree (s.queue (queueKey die q)) = true ∧ (s.queue (queueKey die q)).bell = true ∧ s.takeHeld die tn (s.queue (queueKey die q)) = none
    ∧ s.distRead die tn ((s.queue (queueKey die q)).qcb.toNat * 64) 64 = (s1, some b) ∧ b / 2 ^ 256 = 0 ∧ b / 2 ^ 58 % 2 ^ 6 = 0 ∧ b / 2 ^ 52 % 2 ^ 3 = 0
    ∧ 1 ≤ b / 2 ^ 36 % 2 ^ 4 ∧ b / 2 ^ 128 % 2 ^ 64 = b / 2 ^ 192 % 2 ^ 64 :=
  ⟨0, 0, 0, queueing (blockMem 5 5) running, queueing (blockMem 5 5) running, 2 + 2 ^ 36 + 5 * 2 ^ 128 + 5 * 2 ^ 192, by decide +kernel, by decide +kernel, by decide +kernel, by decide +kernel,
    by decide +kernel, Prod.ext (by decide +kernel) (by decide +kernel), by decide, by decide, by decide, by decide, by decide⟩

theorem hyp_take : ∃ (die q tn : Nat) (s s1 s2 s3 : State) (b p pa : Nat),
    let k := queueKey die q
    let size := b / 2 ^ 36 % 2 ^ 4
    let widx := b / 2 ^ 128 % 2 ^ 64
    let ridx := b / 2 ^ 192 % 2 ^ 64
    (s.queueTenant die q = some tn ∧ (s.queue k).st = .run ∧ s.headFree (s.queue k) = true ∧ (s.queue k).bell = true
      ∧ s.takeHeld die tn (s.queue k) = none ∧ s.distRead die tn ((s.queue k).qcb.toNat * 64) 64 = (s1, some b) ∧ b / 2 ^ 256 = 0)
    ∧ (b / 2 ^ 58 % 2 ^ 6 = 0 ∧ b / 2 ^ 52 % 2 ^ 3 = 0 ∧ 1 ≤ size ∧ ridx < widx ∧ widx ≤ ridx + 2 ^ size
      ∧ s1.distRead die tn (b % 2 ^ 36 * 64 + 64 * (ridx % 2 ^ size)) 64 = (s2, some p)
      ∧ distTranslate s2 die tn ((s.queue k).qcb.toNat * 64 + 24) true = (s3, .ok pa))
    ∧ s3.lineFault (pa / 128) = none ∧ WritesNow s3 (pa / 128) ∧ s3.MemoryWf ∧ pa % 8 = 0 ∧ (∀ a, dirtyByteAt s3 pa = some a → a < pa ∨ pa + 8 ≤ a)
    ∧ packetOk (BitVec.ofNat 512 p) (b / 2 ^ 40 % 2 ^ 12) = true ∧ packType (BitVec.ofNat 512 p) = 0 ∧ packSig (BitVec.ofNat 512 p) = 0xFFF
    ∧ packXrec (BitVec.ofNat 512 p) = 0xFFF ∧ packDep (BitVec.ofNat 512 p) 0 = 0xFFF ∧ packDep (BitVec.ofNat 512 p) 1 = 0xFFF
    ∧ packDesc (BitVec.ofNat 512 p) = 0xFFF ∧ packParam (BitVec.ofNat 512 p) = 0xFFF :=
  ⟨0, 0, 0, queueing (blockMem 2 0) running, queueing (blockMem 2 0) running, queueing (blockMem 2 0) running, queueing (blockMem 2 0) running,
    2 + 2 ^ 36 + 2 * 2 ^ 128, (2 ^ 48 - 1) * 2 ^ 16 + (2 ^ 24 - 1) * 2 ^ 104 + 2 ^ 128 + 2 ^ 144 + 2 ^ 160, 88,
    ⟨by decide +kernel, by decide +kernel, by decide +kernel, by decide +kernel, by decide +kernel, Prod.ext (by decide +kernel) (by decide +kernel), by decide⟩,
    ⟨by decide, by decide, by decide, by decide, by decide, Prod.ext (by decide +kernel) (by decide +kernel), Prod.ext (by decide +kernel) (by decide +kernel)⟩,
    by decide +kernel, writes_now rfl (.inr ⟨_, rfl, rfl⟩) _, by decide +kernel, by decide, dirty_at (q := 0) (by decide +kernel) (by decide), by decide +kernel, by decide +kernel, by decide +kernel,
    (by decide +kernel), by decide +kernel, by decide +kernel, (by decide +kernel), by decide +kernel⟩

/-! Grids. -/

/-- A launch packet, or a packet without teams. -/
def gridAt (ty : Nat) (deps : List (W64 × W64)) : Grid := { grid0 with packet := BitVec.ofNat 512 ty, deps := deps, placed := 0, retired := 0, teams := ty }
def waitingHead (g : Grid) (m : List Host.Cell) : State := { queueing m { running with head := some 3 } with grids := [(3, g)] }

theorem hyp_reeval_waits : ∃ (die q gn : Nat) (s s1 : State) (g : Grid) (va w : W64) (v : Nat), (s.queue (queueKey die q)).head = some gn ∧ s.grid gn = some g
    ∧ (s.queue (queueKey die q)).st = .run ∧ g.complete = false ∧ g.readySince = none ∧ s.hostHeld g.die g.tenant g.depVas = none ∧ g.deps = [(va, w)]
    ∧ s.distRead g.die g.tenant va.toNat 8 = (s1, some v) ∧ s1.earlierDone gn g = true ∧ v % 2 ^ 63 < w.toNat :=
  ⟨0, 0, 3, waitingHead (gridAt 1 [(256, 1)]) [], waitingHead (gridAt 1 [(256, 1)]) [], gridAt 1 [(256, 1)], 256, 1, 0, rfl, rfl, rfl, rfl, rfl, by decide +kernel, rfl,
    Prod.ext (by decide +kernel) (by decide +kernel), by decide +kernel, by decide⟩

theorem hyp_reeval_ready : ∃ (die q gn : Nat) (s s1 : State) (g : Grid) (va w : W64) (v : Nat), (s.queue (queueKey die q)).head = some gn ∧ s.grid gn = some g
    ∧ (s.queue (queueKey die q)).st = .run ∧ g.complete = false ∧ g.readySince = none ∧ s.hostHeld g.die g.tenant g.depVas = none ∧ g.deps = [(va, w)]
    ∧ s.distRead g.die g.tenant va.toNat 8 = (s1, some v) ∧ s1.earlierDone gn g = true ∧ w.toNat ≤ v % 2 ^ 63 ∧ (v < 2 ^ 63 ∨ packWaitErr g.packet = false ∨ 0 ∈ g.depsMet)
    ∧ packType g.packet ≠ 0 ∧ s1.leaseHolds g = true :=
  ⟨0, 0, 3, waitingHead (gridAt 1 [(256, 1)]) [⟨256, 1⟩], waitingHead (gridAt 1 [(256, 1)]) [⟨256, 1⟩], gridAt 1 [(256, 1)], 256, 1, 1, rfl, rfl, rfl, rfl, rfl, by decide +kernel, rfl,
    Prod.ext (by decide +kernel) (by decide +kernel), by decide +kernel, by decide, .inl (by decide), by decide +kernel, by decide +kernel⟩

theorem hyp_reeval_signal : ∃ (die q gn : Nat) (s s1 : State) (g : Grid) (va w : W64) (v : Nat), (s.queue (queueKey die q)).head = some gn ∧ s.grid gn = some g
    ∧ (s.queue (queueKey die q)).st = .run ∧ g.complete = false ∧ g.readySince = none ∧ s.hostHeld g.die g.tenant g.depVas = none ∧ g.deps = [(va, w)]
    ∧ s.distRead g.die g.tenant va.toNat 8 = (s1, some v) ∧ s1.earlierDone gn g = true ∧ w.toNat ≤ v % 2 ^ 63 ∧ (v < 2 ^ 63 ∨ packWaitErr g.packet = false ∨ 0 ∈ g.depsMet)
    ∧ packType g.packet = 0 ∧ s1.grid gn = some g ∧ g.sig = none ∧ g.writes = [] ∧ g.retired = g.placed ∧ s1.gridWrites gn = false :=
  ⟨0, 0, 3, waitingHead (gridAt 0 [(256, 1)]) [⟨256, 1⟩], waitingHead (gridAt 0 [(256, 1)]) [⟨256, 1⟩], gridAt 0 [(256, 1)], 256, 1, 1, rfl, rfl, rfl, rfl, rfl, by decide +kernel, rfl,
    Prod.ext (by decide +kernel) (by decide +kernel), by decide +kernel, by decide, .inl (by decide), by decide +kernel, by decide +kernel, rfl, rfl, rfl, rfl⟩

/-- A ready head, and its queue. -/
def readyGrid (d : BitVec 2048) (n : Nat) : Grid := { gridAt 1 [] with desc := d, readySince := some 0, checked := true, teams := n }
def rickDesc : BitVec 2048 := BitVec.ofNat 2048 (fetchDesc.toNat + 2 ^ 614)
def placingWorld (g : Grid) (cs : NMap Core) (cy : Nat) : State :=
  { waitingHead g [] with cores := cs, cycle := cy, tenants := [(0, { tenantQ with lease := [0, 1] })] }
def otherCore : Core := { coreOf (teamOf group0) with world := 1 }

theorem hyp_place : ∃ (gn c slot : Nat) (s : State) (g : Grid), s.grid gn = some g ∧ g.writes = [] ∧ s.placing gn g = true ∧ descRick g.desc = 1 ∧ s.placeHeld g = none
    ∧ Fewest s gn g c slot :=
  ⟨3, 1, 0, placingWorld (readyGrid fetchDesc 1) [(0, otherCore)] 0, readyGrid fetchDesc 1, rfl, rfl, by decide +kernel, by decide +kernel, by decide +kernel, by decide +kernel, rfl, by
    intro k hk hn h
    by_cases h0 : k = 0
    · subst h0; exact absurd h (by decide +kernel)
    · have e : ([0, 1] : List Nat).contains k = false := by simp [h0, hn]
      have e1 : ((placingWorld (readyGrid fetchDesc 1) [(0, otherCore)] 0).tenant (readyGrid fetchDesc 1).tenant).lease = [0, 1] := rfl
      exact absurd h (by simp [State.fitSlot, State.couldFit, e1, h0, hn])⟩

theorem hyp_rick : ∃ (gn : Nat) (s : State) (g : Grid) (cores : List Nat), s.grid gn = some g ∧ s.placing gn g = true ∧ 1 < descRick g.desc
    ∧ s.placeHeld g = none ∧ s.rickRun gn g = some cores ∧ cores.Nodup ∧ ∀ c ∈ cores, (s.fitSlot g.tenant g.desc c 0 (some gn)).isSome = true :=
  ⟨3, placingWorld (readyGrid rickDesc 2) [] 0, readyGrid rickDesc 2, [0, 1], rfl, by decide +kernel, by decide +kernel, by decide +kernel, by decide +kernel, by decide, by decide +kernel⟩

theorem hyp_rick_reserve : ∃ (gn cluster : Nat) (s : State) (g : Grid) (cores : List Nat), 1 < descRick g.desc ∧ s.directRun gn g = none
    ∧ Reserves s gn cluster (descRick g.desc) g cores :=
  ⟨3, 0, placingWorld (readyGrid rickDesc 2) [(0, otherCore)] 0, readyGrid rickDesc 2, [0, 1], by decide +kernel, by decide +kernel,
    ⟨rfl, by decide +kernel, rfl, by decide +kernel, by decide +kernel, nofun, fun h => (List.not_mem_nil h).elim, by decide, by decide +kernel⟩⟩

theorem hyp_nonrick_reserve : ∃ (gn cluster : Nat) (s : State) (g : Grid) (cores : List Nat), s.starves gn g = true
    ∧ s.chooseCore g.tenant g.desc g.die 0 (some gn) = none ∧ Reserves s gn cluster 1 g cores :=
  ⟨3, 0, placingWorld (readyGrid fetchDesc 1) [(0, otherCore), (1, otherCore)] (2 ^ 20), readyGrid fetchDesc 1, [0], by decide +kernel, by decide +kernel,
    ⟨rfl, by decide +kernel, rfl, by decide +kernel, by decide +kernel, nofun, fun _ => by decide +kernel, by decide, by decide +kernel⟩⟩

/-- A reservation that starts again: in its 2^20 cycles, and past the pause that follows them. -/
theorem hyp_restart : (∃ (gn cluster : Nat) (s : State) (g : Grid) (cores : List Nat) (w : Nat), Reserves s gn cluster (descRick g.desc) g cores
      ∧ (s.cluster cluster).restart = some w ∧ s.cycle < w + 2 ^ 20)
    ∧ ∃ (gn cluster : Nat) (s : State) (g : Grid) (cores : List Nat) (w : Nat), Reserves s gn cluster (descRick g.desc) g cores
      ∧ (s.cluster cluster).restart = some w ∧ w + 2 ^ 21 ≤ s.cycle :=
  ⟨⟨3, 0, { placingWorld (readyGrid rickDesc 2) [(0, otherCore)] 8 with clusters := [(0, ⟨none, 0, [], some 7⟩)] }, readyGrid rickDesc 2, [0, 1], 7,
      ⟨rfl, by decide +kernel, rfl, by decide +kernel, by decide +kernel, fun w h => .inl (by obtain rfl := Option.some.inj h; decide), fun h => (List.not_mem_nil h).elim, by decide, by decide +kernel⟩,
      rfl, by decide⟩,
    ⟨3, 0, { placingWorld (readyGrid rickDesc 2) [(0, otherCore)] (2 ^ 21) with clusters := [(0, ⟨none, 0, [], some 0⟩)] }, readyGrid rickDesc 2, [0, 1], 0,
      ⟨rfl, by decide +kernel, rfl, by decide +kernel, by decide +kernel, fun w h => .inr (by obtain rfl := Option.some.inj h; decide), fun h => (List.not_mem_nil h).elim, by decide, by decide +kernel⟩,
      rfl, by decide⟩⟩

theorem hyp_reserved : ∃ (cluster : Nat) (s : State) (r : Reservation), (s.cluster cluster).reservation = some r ∧ r.since + 2 ^ 20 ≤ s.cycle :=
  ⟨11, { State.reset with cycle := 2 ^ 20, clusters := [(11, ⟨some ⟨3, [528], 0⟩, 0, [], none⟩)] }, ⟨3, [528], 0⟩, rfl, by decide⟩

theorem hyp_pause : ∃ (cluster : Nat) (s : State), (s.cluster cluster).pauseUntil ≤ s.cycle := ⟨0, { State.reset with cycle := 9, clusters := [(0, ⟨none, 9, [], none⟩)] }, by decide⟩

/-- A group whose lanes have exited. -/
def groupE : Group := { group0 with splits := [], exited := widthMask 32 }

theorem hyp_retire : (∃ (core slot : Nat) (s : State) (tm : Team) (g : Grid), s.team core slot = some tm ∧ Finished s core slot tm ∧ s.grid tm.grid = some g
      ∧ g.sig = none ∧ g.retired + 1 < g.teams ∧ g.complete = false)
    ∧ ∃ (core slot : Nat) (s : State) (tm : Team) (g : Grid), s.team core slot = some tm ∧ Finished s core slot tm ∧ s.grid tm.grid = some g ∧ g.sig = none
      ∧ g.retired + 1 = g.teams ∧ g.placed = g.teams ∧ g.writes = [] ∧ s.gridWrites tm.grid = false :=
  ⟨⟨0, 0, { issuing groupE with grids := [(0, { grid0 with teams := 2 })] }, _, { grid0 with teams := 2 }, rfl, by unfold Finished; decide +kernel, rfl, rfl, by decide, rfl⟩,
    ⟨0, 0, { issuing groupE with grids := [(0, grid0)] }, _, grid0, rfl, by unfold Finished; decide +kernel, rfl, rfl, rfl, rfl, rfl, rfl⟩⟩

/-! Banks, the watchdog, sweeps. -/

def bank0 (w : BankReason) : Banking := ⟨w, 0, none, 0, 0, 0, 0, 16, false, none⟩
def banking (w : BankReason) (c : Option (Nat × Nat)) (g : Group) : State :=
  worldOf { coreOf { teamOf g with banking := some { bank0 w with collected := c } } with hearth := [] }

theorem hyp_bank_begins : ∃ (core slot : Nat) (s : State) (tm : Team) (idx : Nat) (e : Entry), s.team core slot = some tm ∧ tm.banking = none
    ∧ tm.rick ≤ 1 ∧ (s.core core).hearth = [(idx, e)] ∧ e.slot = slot ∧ e.st = .open_ ∧ e.rel = false ∧ e.heldFail = none :=
  ⟨0, 0, hearthing [(0, entry0)] [] [], teamOf groupM, 0, entry0, rfl, rfl, by decide +kernel, rfl, rfl, rfl, rfl, rfl⟩

theorem hyp_bank_rick : ∃ (core slot : Nat) (s : State) (tm : Team) (c sl : Nat) (x : Team), s.team core slot = some tm ∧ 1 < tm.rick ∧ (c, sl) ∈ s.rickTeams tm
    ∧ s.team c sl = some x ∧ x.banking = none :=
  ⟨0, 0, worldOf (coreOf { teamOf group0 with desc := rickDesc }), _, 0, 0, _, rfl, by decide +kernel, by decide +kernel, rfl, rfl⟩

theorem hyp_bank_over (w : BankReason) : ∃ (core slot : Nat) (s : State) (tm : Team) (b : Banking) (g : Grid), s.team core slot = some tm ∧ tm.banking = some b
    ∧ b.failed = false ∧ b.collected = none ∧ b.saving = none ∧ b.since + 1024 * b.grace ≤ s.cycle ∧ s.bankInTime core slot tm b = false ∧ tm.rick ≤ 1 ∧ b.why = w
    ∧ s.grid tm.grid = some g :=
  ⟨0, 0, { banking w none group0 with cycle := 16384, grids := [(0, grid0)] }, _, bank0 w, grid0, rfl, rfl, rfl, rfl, rfl, by simp [bank0], by cases w <;> decide +kernel, (by decide +kernel : (teamOf group0).rick ≤ 1), rfl, rfl⟩

def ringMem : List Host.Cell :=
  ((State.reset.putNat 0x40008 8 1).putNat 0x40100 16 cap4.bits.toNat).mem
/-- A team that has nothing left to stop, and a tenant with (or without) an image area. -/
def collecting (area : Bool) : State :=
  { worldOf (coreM { teamOf groupE with banking := some (bank0 .distributor) }) with
    mem := if area then ringMem else []
    memTags := [0x4010]
    tenants := [(0, { tenant0 with entry := entrySet tenant0.entry 208 8 0x40000 })] }

/-- An image whose bytes can be written changes no core but by its translations. -/
theorem cores_saveImage {s s1 : State} {core m ring : Nat} {t : Team} {es : List Entry} {k : Cap} {ps : List (Nat × Nat)} (h : s.nextArea t.tenant = some (k, ring))
    (hk : capCheck k k.addr (imageBytes t es m s.pkg.freeCount s.cycle).length permST = none)
    (hr : s.engineRange core t.tenant .write (rangeLines k.addr (imageBytes t es m s.pkg.freeCount s.cycle).length) = (s1, .ok ps))
    (hf : (ps.any fun p => (p.2 != 128 && (s1.lineFault (lineOf p.1)).isSome) || s1.hostBlocked t.tenant (lineOf p.1)) = false) : (s.saveImage core t es m).1.cores = s1.cores := by
  unfold State.saveImage
  simp only [h, hk, hr, hf]
  exact State.cores_deviceSend _ _ _

theorem pair_eta {α β : Type} {x : α × β} {b : β} (h : x.2 = b) : x = (x.1, b) := by cases x; cases h; rfl

def collector : Team := { teamOf groupE with banking := some (bank0 .distributor) }
def collector1 : Team := collector.saved collector.groups []
def collectedPieces : List (Nat × Nat) := [(0x10000, 128), (0x10080, 128), (0x10100, 128), (0x10180, 128), (0x10200, 16)]

theorem collecting_cores : ((collecting true).saveImage 0 collector1 [] 0).1.cores = (collecting true).cores := by
  rw [cores_saveImage (k := cap4) (ring := 0x40000) (ps := collectedPieces) (by decide +kernel) (by decide +kernel) (pair_eta (by decide +kernel)) (by decide +kernel)]
  decide +kernel

/-- What a bank that is collected meets, with the outcome of its save. -/
def Collects (s : State) (s2 : State) (o : Option (List (Nat × Nat))) : Prop :=
  ∃ core slot tm b, s.team core slot = some tm ∧ tm.banking = some b ∧ b.failed = false ∧ b.collected = none ∧ s.banked core slot tm b = true
    ∧ s.collectHeld core slot tm b = none ∧ (∀ c0, b.saving = some c0 → s.cycle < c0 + 2 ^ 20) ∧ (∀ kg ∈ tm.groups, kg.2.hasExited = true ∨ kg.2.mayRewind b.grIssue = false)
    ∧ s.saveImage core (tm.saved tm.groups []) (((s.core core).entriesOf slot).map Entry.saved)
        ((s.core core).mqueue.countP (fun op => op.g.slot == slot) + (s.core core).mwaiting.countP (fun op => op.g.slot == slot)) = (s2, o)
    ∧ (s2.core core).forwards.length < 64 ∧ s2.team core slot = some tm

theorem hyp_collect_fails : ∃ s s2, Collects s s2 none :=
  ⟨collecting false, ((collecting false).saveImage 0 collector1 [] 0).1, 0, 0, collector, bank0 .distributor, rfl, rfl, rfl, rfl, by decide +kernel, by decide +kernel, nofun,
    by decide +kernel, Prod.ext (by decide +kernel) (by decide +kernel), by decide +kernel, by decide +kernel⟩

theorem hyp_collect : ∃ s s2 ps, Collects s s2 (some ps) := by
  refine ⟨collecting true, ((collecting true).saveImage 0 collector1 [] 0).1, collectedPieces, 0, 0, collector, bank0 .distributor, rfl, rfl, rfl, rfl, by decide +kernel,
    by decide +kernel, nofun, by decide +kernel, ?_, ?_, ?_⟩
  · have e1 : ((collecting true).core 0).entriesOf 0 = [] := by decide +kernel
    have e2 : ((collecting true).core 0).mqueue = [] := rfl
    have e3 : ((collecting true).core 0).mwaiting = [] := rfl
    rw [e1, e2, e3]
    refine pair_eta ?_
    decide +kernel
  · simp only [State.core, collecting_cores]; decide +kernel
  · simp only [State.team, State.core, collecting_cores]; decide +kernel

/-- A save whose writes wait at a line that the host owns, and one whose 2^20 cycles have passed. -/
theorem hyp_saving : (∃ (core slot : Nat) (s : State) (tm : Team) (b : Banking) (ln : Nat), s.team core slot = some tm ∧ tm.banking = some b ∧ b.failed = false ∧ b.collected = none
      ∧ s.banked core slot tm b = true ∧ b.saving = none ∧ s.collectHeld core slot tm b = some ln)
    ∧ ∃ (core slot : Nat) (s : State) (tm : Team) (b : Banking) (c0 : Nat), s.team core slot = some tm ∧ tm.banking = some b ∧ b.failed = false ∧ b.collected = none
      ∧ s.banked core slot tm b = true ∧ b.saving = some c0 ∧ c0 + 2 ^ 20 ≤ s.cycle :=
  ⟨⟨0, 0, { collecting true with dir := [(2048, { DirEntry.fresh with st := .excl, hg := true })] }, collector, bank0 .distributor, 2048, rfl, rfl, rfl, rfl, by decide +kernel, rfl,
      by decide +kernel⟩,
    ⟨0, 0, { worldOf (coreM { collector with banking := some { bank0 .distributor with saving := some 0 } }) with cycle := 2 ^ 20 }, _, { bank0 .distributor with saving := some 0 }, 0,
      rfl, rfl, rfl, rfl, by decide +kernel, rfl, by decide⟩⟩

theorem hyp_rekindle : ∃ (id core slot : Nat) (s : State) (im : Image), NMap.find s.images id = some im ∧ s.rekindleSpot im = some (core, slot) ∧ im.team.rick ≤ 1 ∧ im.entries = []
    ∧ im.mats = [] ∧ im.mwaits = [] ∧ im.writes = [] ∧ (s.tenant im.team.tenant).sweep = none :=
  ⟨5, 0, 0, { State.reset with images := [(5, ⟨teamOf group0, [], 1, 0, [], [], [], 0, 0, []⟩)], tenants := [(0, tenantQ)] }, _, rfl, by decide +kernel, by decide +kernel, rfl, rfl, rfl, rfl, rfl⟩

theorem hyp_watchdog : (∃ (die q tn : Nat) (s : State), s.queueTenant die q = some tn ∧ (s.queue (queueKey die q)).escalation = 0 ∧ (s.queue (queueKey die q)).limit ≠ 0
      ∧ (s.queue (queueKey die q)).limit * 2 ^ 16 ≤ (s.queue (queueKey die q)).elapsed)
    ∧ (∃ (die q tn : Nat) (s : State), s.queueTenant die q = some tn ∧ (s.queue (queueKey die q)).escalation = 1 ∧ (s.queue (queueKey die q)).outcome = 0x58
      ∧ (∀ y ∈ s.queueTeams (queueKey die q), y.2.2.bankOver = true) ∧ ∀ y ∈ s.openGrids (queueKey die q), y.2.readySince = none)
    ∧ (∃ (die q tn : Nat) (s : State), s.queueTenant die q = some tn ∧ (s.queue (queueKey die q)).escalation = 2 ∧ s.leaseBanked tn = true)
    ∧ ∃ (die q tn : Nat) (s : State), s.queueTenant die q = some tn ∧ (s.queue (queueKey die q)).escalation = 3 ∧ s.leaseDrained tn = true :=
  ⟨⟨0, 0, 0, queueing [] { running with limit := 1, elapsed := 65536 }, by decide +kernel, rfl, by decide, by decide⟩,
    ⟨0, 0, 0, { banking .watchdog (some (1, 0)) group0 with
        queues := [(0, { running with escalation := 1, outcome := 0x58 })], tenants := [(0, tenantQ)], grids := [(0, grid0)] }, by decide +kernel, rfl, rfl,
      by decide +kernel, by decide +kernel⟩,
    ⟨0, 0, 0, { banking .watchdog (some (1, 0)) group0 with queues := [(0, { running with escalation := 2 })], tenants := [(0, tenantQ)] }, by decide +kernel, rfl,
      by decide +kernel⟩,
    ⟨0, 0, 0, { issuing group0 with queues := [(0, { running with escalation := 3 })], tenants := [(0, tenantQ)] }, by decide +kernel, rfl, by decide +kernel⟩⟩

theorem hyp_forced : ∃ (core idx : Nat) (s : State) (e : Entry), s.entry core idx = some e ∧ s.forcing core = true ∧ s.MemoryWf
    ∧ LogFree s (Config.dieSpan * (core / 144) + Config.ashBase) ∧ s.natAt (Config.dieSpan * (core / 144) + Config.ashBase) 8 < 5461 :=
  ⟨0, 0, { hearthing [(0, entry0)] [] [] with queues := [(0, { running with escalation := 3 })], tenants := [(0, tenantQ)], cycle := 2 ^ 20 }, entry0, rfl,
    by decide +kernel, rfl, fun _ _ _ => writes_now rfl (.inl rfl) _, by decide +kernel⟩

/-- A page table that maps the first 2^34 bytes, and an epoch word with its bitmap at 0x10000. -/
def tableMem : List Host.Cell := ((State.reset.putNat 0 8 0x1001).putNat 4096 8 0xB5F).mem
def sweeping (w : Sweep) : State := { issuing groupM with mem := tableMem, tenants := [(0, { tenant0 with sweep := some w })] }

/-- A bitmap of one page at 0x10000. -/
def capMap : Cap := capNarrow ⟨BitVec.ofNat 128 (0xFFF * 2 ^ 114), true⟩ 0x10000 4096 0xFFF 0x10000

theorem hyp_sweep_core (b : Bool) : ∃ (tenant core : Nat) (s : State) (w : Sweep), (s.tenant tenant).sweep = some w ∧ core ∈ w.coresLeft ∧ s.sweepStarted w = true
    ∧ s.inClause tenant core = false ∧ w.looked = b ∧ (b = false → s.bitmapHeld tenant w = none) :=
  ⟨0, 0, { worldOf { coreOf (teamOf groupM) with quads := [] } with tenants := [(0, { tenant0 with sweep := some ⟨capMap, b, 0, [0, 1], false, 0, 0⟩ })] }, _, rfl, by simp,
    by cases b <;> decide +kernel, by cases b <;> decide +kernel, rfl, by cases b <;> decide +kernel⟩

theorem hyp_sweep_memory : ∃ (tenant : Nat) (s : State) (w : Sweep), (s.tenant tenant).sweep = some w ∧ w.coresLeft = [] ∧ w.memoryDone = false
    ∧ s.memTags.Pairwise (· < ·) :=
  ⟨0, { sweeping ⟨cap4, true, 0, [], false, 0, 0⟩ with memTags := [3, 7] }, _, rfl, rfl, rfl, by decide⟩

theorem hyp_sweep_end : ∃ (tenant pa : Nat) (s : State) (w : Sweep), (s.tenant tenant).sweep = some w ∧ w.coresLeft = [] ∧ w.memoryDone = true
    ∧ s.peekVa tenant w.bitmap.addr.toNat = some pa ∧ pa % 8 = 0 ∧ s.epochHeld tenant w = none ∧ WritesNow s (pa / 128)
    ∧ s.MemoryWf ∧ ∀ a, dirtyByteAt s pa = some a → a < pa ∨ pa + 8 ≤ a :=
  ⟨0, 0x10000, sweeping ⟨cap4, true, 0, [], true, 0, 0⟩, _, rfl, rfl, rfl, by decide +kernel, by decide, by decide +kernel, writes_now rfl (.inl rfl) _, by decide +kernel,
    dirty_at (q := 2) (by decide +kernel) (by decide)⟩

/-! The copy engine: a ring of two entries at 64, whose first names slot 0 of cord 0. -/

def item0 : GroupId := ⟨0, 0, 0⟩
/-- An entry of `len` bytes from 0 to 512 in the share. -/
def entryOf (len : Nat) : BitVec 256 := BitVec.ofNat 256 (512 * 2 ^ 64 + len * 2 ^ 128 + 0x10000 * 2 ^ 192 + 2 ^ 249 + 2 ^ 251)
def ringOf (n : Nat) (sh : NMap (Cap × Cap)) (it : NMap (GroupId × Nat)) : Ring := ⟨64, 1, Cap.null, 0, 0, BitVec.ofNat 32 n, [(0, item0)], sh, it⟩
def teamR (x : SlotState) (r : Ring) (len : Nat) : Team := { teamK x false (some r) with scratch := scratchPutNat [] 96 32 (entryOf len).toNat }
def ringing (x : SlotState) (r : Ring) (len : Nat) : State := { worldOf (coreM (teamR x r len)) with tenants := [(0, tenant0)] }

theorem hyp_notify : (∃ (g : GroupId) (core slot : Nat) (v : BitVec 32) (s : State) (tm : Team) (r : Ring) (h : Group), s.team core slot = some tm ∧ tm.ring = some r
      ∧ s.group g = some h ∧ (v - r.consumed).toNat ≤ 2 ^ r.logSize)
    ∧ ∃ (g : GroupId) (core slot : Nat) (v : BitVec 32) (s : State) (tm : Team) (r : Ring) (h : Group), s.team core slot = some tm ∧ tm.ring = some r
      ∧ s.group g = some h ∧ 2 ^ r.logSize < (v - r.consumed).toNat ∧ h.bevents.length < 8 :=
  ⟨⟨item0, 0, 0, 2, ringing .acq (ringOf 0 [] []) 16, _, _, groupK, rfl, rfl, rfl, by decide⟩,
    ⟨item0, 0, 0, 3, ringing .acq (ringOf 0 [] []) 16, _, _, groupK, rfl, rfl, rfl, by decide, by decide⟩⟩

theorem due (x : SlotState) (n : Nat) (hn : (0 : BitVec 32) ≠ BitVec.ofNat 32 n) (sh : NMap (Cap × Cap)) (it : NMap (GroupId × Nat)) (len : Nat) :
    EntryDue (ringing x (ringOf n sh it) len) 0 0 (teamR x (ringOf n sh it) len) (ringOf n sh it) := ⟨rfl, rfl, rfl, Nat.zero_lt_succ 7, rfl, hn⟩

theorem hyp_accept (i : Bool) : ∃ (core slot : Nat) (s : State) (tm : Team) (r : Ring) (n j : Nat) (k : Cord) (src dst : Cap), EntryDue s core slot tm r
    ∧ PlainEntry (nextEntry tm r) ∧ FillsSlot tm (nextEntry tm r) n j k ∧ (nextEntry tm r).extractLsb' 128 32 ≠ 0
    ∧ NMap.find r.shadows (r.consumed.toNat % 2 ^ r.logSize) = some (src, dst) ∧ (s.tenant tm.tenant).sweep = none
    ∧ NMap.find r.items (r.consumed.toNat % 2 ^ r.logSize) = (if i then some (item0, 7) else none) ∧ ∃ h, s.group item0 = some h :=
  ⟨0, 0, _, _, _, 0, 0, cordOf .acq false, cap4, cap4, due .acq 2 (by decide) [(0, (cap4, cap4))] (if i then [(0, (item0, 7))] else []) 16,
    by cases i <;> (unfold PlainEntry; decide +kernel), by cases i <;> exact ⟨by decide +kernel, rfl, rfl, .inl rfl⟩, by cases i <;> decide +kernel, rfl, rfl,
    by cases i <;> rfl, groupK, rfl⟩

theorem hyp_refused (b : Bool) : ∃ (core slot : Nat) (s : State) (tm : Team) (r : Ring) (n j : Nat) (k : Cord) (g : GroupId) (h : Group), EntryDue s core slot tm r
    ∧ PlainEntry (nextEntry tm r) ∧ FillsSlot tm (nextEntry tm r) n j k
    ∧ (if b then (nextEntry tm r).extractLsb' 128 32 = (0 : BitVec 32) else NMap.find r.shadows (r.consumed.toNat % 2 ^ r.logSize) = none)
    ∧ NMap.find r.items (r.consumed.toNat % 2 ^ r.logSize) = none ∧ NMap.find r.publisher (r.consumed.toNat % 2 ^ r.logSize) = some g ∧ s.group g = some h
    ∧ h.bevents.length < 8 :=
  ⟨0, 0, _, _, _, 0, 0, cordOf .armed false, item0, groupK, due .armed 1 (by decide) (if b then [(0, (cap4, cap4))] else []) [] (if b then 0 else 16),
    by cases b <;> (unfold PlainEntry; decide +kernel), by cases b <;> exact ⟨by decide +kernel, rfl, rfl, .inr rfl⟩,
    by cases b <;> decide +kernel, by cases b <;> rfl, by cases b <;> rfl, rfl, by decide⟩

theorem hyp_chunk (last : Bool) : ∃ (core slot : Nat) (s : State) (tm : Team) (x : CopyCmd) (n i : Nat) (k : Cord), s.team core slot = some tm ∧ tm.banking = none
    ∧ tm.cmds.find? (fun y => y.id == x.id) = some x ∧ PlainEntry x.entry ∧ x.entry.extractLsb' 251 2 = (1 : BitVec 2)
    ∧ x.entry.extractLsb' 249 2 = (1 : BitVec 2) ∧ FillsSlot tm x.entry n i k ∧ (k.slot i).st = .armed
    ∧ let len := (x.entry.extractLsb' 128 32).toNat
      let m := min 4096 (len - x.done)
      x.done < len ∧ (x.entry.extractLsb' 0 64).toNat + x.done + m ≤ tm.shareBytes ∧ (x.entry.extractLsb' 64 64).toNat + x.done + m ≤ tm.shareBytes
      ∧ (if last then x.done + m = len ∧ m ≤ (k.slot i).pb ∧ 1 ≤ (k.slot i).pa else x.done + m < len) := by
  let len := if last then 4096 else 4097
  let x : CopyCmd := ⟨3, entryOf len, 0, Cap.null, Cap.null, 0, 0, [], 0⟩
  let k : Cord := ⟨2, false, 0, 1, [(0, { slotIn .armed with pb := 8192, pa := 1 })], []⟩
  let t : Team := { teamOf groupK with desc := fetchDesc ||| BitVec.ofNat 2048 (8 * 2 ^ 795), cords := [(0, k)], cmds := [x] }
  refine ⟨0, 0, worldOf (coreOf t), t, x, 0, 0, k, rfl, rfl, rfl, ?_⟩
  cases last <;> exact ⟨by unfold PlainEntry; decide +kernel, by decide +kernel, by decide +kernel, ⟨by decide +kernel, rfl, rfl, .inr rfl⟩, rfl,
    by decide +kernel, by decide +kernel, by decide +kernel, by decide +kernel⟩

/-! The matrix unit. -/

def opOf (k : MatKind) (b : Bool) : MatOp := ⟨item0, 0, 0, 0x1008, 0, k, b, none, none, 0, []⟩
/-- A core whose matrix unit has an operation in progress on tile 0. -/
def unitAt (accF : Bool) (op : MatOp) (x : Tile) : State :=
  { worldOf { coreM { teamX accF with tiles := [(0, x)] } with mqueue := [op] } with tenants := [(0, tenant0)] }
def tile0 : Tile := ⟨[], 2, 0, 0, 1, false, 0⟩
theorem at_head (accF : Bool) (op : MatOp) (x : Tile) (h : op.g.slot = 0) : AtHead (unitAt accF op x) 0 op [] { teamX accF with tiles := [(0, x)] } :=
  ⟨rfl, by rw [h]; rfl⟩

theorem hyp_mat_accept : ∃ (core : Nat) (s : State) (op : MatOp) (r : List MatOp) (tm : Team) (a b : OpMap) (n : Nat) (res : Bool) (h : Group),
    (s.core core).mwaiting = op :: r ∧ (s.core core).mqueue.length < 16 ∧ s.team core op.g.slot = some tm ∧ op.kind = .loop a b n res ∧ s.group op.g = some h :=
  ⟨0, worldOf { coreM (teamX false) with
      mwaiting := [opOf (.loop ⟨6, 0, 0, 0, 0, 0, none⟩ ⟨6, 0, 0, 0, 0, 0, none⟩ 2 false) false]
      mqueue := List.replicate 15 (opOf .zero false) }, _, [], _, _, _, 2, false, groupX, rfl, by decide, rfl, rfl, rfl⟩

theorem hyp_mat_zero : ∃ core s op r tm, AtHead s core op r tm ∧ op.kind = .zero := ⟨0, _, _, _, _, at_head false (opOf .zero false) tile0 rfl, rfl⟩

theorem hyp_mat_load (accF : Bool) : ∃ core s op r tm off rs, AtHead s core op r tm ∧ op.kind = .load none off rs
    ∧ off.toNat + ((if tm.accF then 64 else 128) - 1) * rs + (if tm.accF then 64 else 128) * (if tm.accF then 8 else 4) ≤ tm.shareBytes :=
  ⟨0, _, _, _, _, 0, 512, at_head accF (opOf (.load none 0 512) false) tile0 rfl, rfl, by cases accF <;> decide +kernel⟩

def mapOf (fmt : Nat) : OpMap := ⟨fmt, 0, 0, 512, 0, 0, none⟩

theorem hyp_mat_begin (res : Bool) : ∃ core s op r tm a b count, AtHead s core op r tm ∧ op.kind = .loop a b count res ∧ op.begun = false :=
  ⟨0, _, _, _, _, _, _, _, at_head false (opOf (.loop (mapOf 6) (mapOf 6) 2 res) false) tile0 rfl, rfl, rfl⟩

theorem hyp_mat_over : ∃ core s op r tm a b count res, AtHead s core op r tm ∧ op.kind = .loop a b count res ∧ op.begun = true ∧ count ≤ (tm.tile op.tile).step :=
  ⟨0, _, _, _, _, _, _, _, false, at_head false (opOf (.loop (mapOf 6) (mapOf 6) 2 false) true) { tile0 with step := 2 } rfl, rfl, rfl, by decide⟩

theorem hyp_mat_step (accF last : Bool) : ∃ core s op r tm a b count res fmt ks unit w, AtHead s core op r tm ∧ op.kind = .loop a b count res ∧ op.begun = true
    ∧ (tm.tile op.tile).step < count ∧ stepShape tm.accF fmt = some (ks, unit, w)
    ∧ InShare tm a fmt (if tm.accF then 64 else 128) (((tm.tile op.tile).step + 1) * ks * w) ∧ InShare tm b fmt (if tm.accF then 64 else 128) (((tm.tile op.tile).step + 1) * ks * w)
    ∧ (if last then (tm.tile op.tile).step + 1 = count else (tm.tile op.tile).step + 1 < count) := by
  let f := if accF then 9 else 7
  let x : Tile := { tile0 with step := if last then 1 else 0 }
  refine ⟨0, _, _, _, _, mapOf f, mapOf f, 2, false, f, if accF then 8 else 16, if accF then 1 else 8, if accF then 8 else 2,
    at_head accF (opOf (.loop (mapOf f) (mapOf f) 2 false) true) x rfl, rfl, rfl, ?_⟩
  cases accF <;> cases last <;> exact ⟨by decide, by decide +kernel, ⟨rfl, rfl, rfl, by decide +kernel⟩, ⟨rfl, rfl, rfl, by decide +kernel⟩, by decide⟩

theorem hyp_mat_drain : ∃ core s op r tm m mode reg seed amax sys, AtHead s core op r tm ∧ op.kind = .drain m mode reg seed amax sys ∧ op.begun = false ∧ tm.accF = false
    ∧ InShare tm m 8 128 512 ∧ 512 ≤ m.rs ∧ ∀ k, Tile.at_ (tm.tile op.tile) k < 2 ^ 32 :=
  ⟨0, _, _, _, _, mapOf 8, 0, 0, 0, none, false, at_head false (opOf (.drain (mapOf 8) 0 0 0 none false) false) tile0 rfl, rfl, rfl, by decide +kernel,
    ⟨rfl, rfl, rfl, by decide +kernel⟩, by decide, fun k => by simp [Tile.at_, Team.tile, NMap.getD, NMap.find, opOf, tile0]⟩

theorem hyp_mat_drained : ∃ core s op r tm m mode reg seed sys, AtHead s core op r tm ∧ op.kind = .drain m mode reg seed none sys ∧ op.begun = true
    ∧ RowsDone tm op m ∧ op.fail = none :=
  ⟨0, _, _, _, _, mapOf 8, 0, 0, 0, false, at_head false (opOf (.drain (mapOf 8) 0 0 0 none false) true) tile0 rfl, rfl, rfl, fun h => (h rfl).elim, rfl⟩

theorem hyp_mat_amax (accF : Bool) : ∃ core s op r tm m mode reg seed k sys pa, AtHead s core op r tm ∧ op.kind = .drain m mode reg seed (some k) sys ∧ op.begun = true
    ∧ RowsDone tm op m ∧ op.fail = none ∧ op.amaxPa = some pa
    ∧ let n := if tm.accF then 8 else 4
      pa % n = 0 ∧ s.frozen (pa / 128) = false ∧ (s.dirAt (pa / 128)).queue = [.amax core] ∧ (s.dirAt (pa / 128)).parked = []
      ∧ (s.dirAt (pa / 128)).sites = 0 ∧ (s.dirAt (pa / 128)).st = .inv ∧ s.lineFault (pa / 128) = none ∧ s.MemoryWf ∧ s.markBusy (pa / 128) (.amaxAtomic core) = none
      ∧ ∀ q, dirtyByteAt s pa = some q → q < pa ∨ pa + n ≤ q := by
  let op : MatOp := { opOf (.drain (mapOf 9) 0 0 0 (some cap4) false) true with amaxPa := some 0x10000 }
  let d : DirEntry := { DirEntry.fresh with queue := [.amax 0] }
  let s : State := { unitAt accF op tile0 with dir := [(512, d)] }
  have hd : dirtyByteAt s 0x10000 = some 2 := by cases accF <;> decide +kernel
  refine ⟨0, s, op, [], { teamX accF with tiles := [(0, tile0)] }, mapOf 9, 0, 0, 0, cap4, false, 0x10000, ⟨rfl, rfl⟩, rfl, rfl, fun h => (h rfl).elim, rfl, rfl,
    by cases accF <;> decide +kernel, by cases accF <;> decide +kernel, rfl, rfl, rfl, rfl, by cases accF <;> decide +kernel, rfl, by cases accF <;> decide +kernel, ?_⟩
  intro q hq
  obtain rfl := Option.some.inj (hd.symm.trans hq)
  exact .inl (by decide)

/-! The fabric. -/

def packet0 : Packet where
  typ := 0
  route := 0
  name := name0
  dinc := 1
  fdom := 0
  tenant := 0
  ftag := .i32
  n := 1
  ofs := 1
  lanes := 1
  ctags := 0
  hasTags := false
  values := [(0, 0, 9)]
  bytes := []
  srcDevice := 0
  src := ⟨1, 0, 0⟩
  world := 0
  seq := 3
  hop := 0
  node := 0
  cls := 0
  back := []
  reason := 0
  rhop := 0
/-- A route of one hop through port 5. -/
def hopRoute (raise : Nat) : BitVec 128 := BitVec.ofNat 128 (2 ^ 124 + 5 * 4 + 2 * raise)
theorem alone (p : Packet) (ports : NMap W64) (t : Tenant) (node port : Nat) :
    AloneAt { State.reset with packets := [(4, p)], ports := ports, tenants := [(0, t)] } 4 node port :=
  fun _ hx hn _ => (hn (congrArg Prod.fst (List.mem_singleton.mp hx))).elim
def fabric (p : Packet) (ports : NMap W64) (t : Tenant) : State := { State.reset with packets := [(4, p)], ports := ports, tenants := [(0, t)] }
def openTenant : Tenant := { tenant0 with entry := entrySet tenant0.entry 144 8 (2 ^ 64 - 1) }

/-- The fields of a SEND's header flit and of a refusal, at the places of R438's map. -/
theorem test_flit :
    let p : Packet := { packet0 with n := 3, ofs := 5, ftag := .n32, seq := 7, src := ⟨150, 2, 1⟩ }
    (p.flit.extractLsb' 313 2).toNat = 2 ∧ (p.flit.extractLsb' 304 9).toNat = 5 ∧ (p.flit.extractLsb' 315 5).toNat = 2 ∧ (p.flit.extractLsb' 384 32).toNat = 7
      ∧ (p.flit.extractLsb' 427 8).toNat = 6 ∧ (p.flit.extractLsb' 422 5).toNat = 2 ∧ (p.flit.extractLsb' 417 5).toNat = 1
      ∧ ((p.answer 11 15).flit.extractLsb' 300 4).toNat = 3 ∧ ((p.answer 11 15).flit.extractLsb' 320 8).toNat = 251 := by decide +kernel

theorem hyp_hop_refused : (∃ id s p, NMap.find (State.packets s) id = some p ∧ p.typ < 2 ∧ p.hop < routeHops p.route ∧ AloneAt s id p.node (p.route.toNat / 2 ^ (8 * p.hop) % 256 / 4) ∧ portPresent (s.portWord p.node (p.route.toNat / 2 ^ (8 * p.hop) % 256 / 4)) = false)
    ∧ (∃ id s p, NMap.find (State.packets s) id = some p ∧ p.typ < 2 ∧ p.hop < routeHops p.route ∧ AloneAt s id p.node (p.route.toNat / 2 ^ (8 * p.hop) % 256 / 4) ∧ portPresent (s.portWord p.node (p.route.toNat / 2 ^ (8 * p.hop) % 256 / 4)) = true
      ∧ portUp (s.portWord p.node (p.route.toNat / 2 ^ (8 * p.hop) % 256 / 4)) = false)
    ∧ ∃ id s p, NMap.find (State.packets s) id = some p ∧ p.typ < 2 ∧ p.hop < routeHops p.route ∧ AloneAt s id p.node (p.route.toNat / 2 ^ (8 * p.hop) % 256 / 4) ∧ portPresent (s.portWord p.node (p.route.toNat / 2 ^ (8 * p.hop) % 256 / 4)) = true
      ∧ PortOpen s p p.node (p.route.toNat / 2 ^ (8 * p.hop) % 256 / 4) ∧ 3 < p.cls + p.route.toNat / 2 ^ (8 * p.hop) % 256 / 2 % 2 :=
  ⟨⟨4, fabric { packet0 with route := hopRoute 0 } [(5, 0)] openTenant, _, rfl, by decide, by decide +kernel, alone _ _ _ _ _, by decide +kernel⟩,
    ⟨4, fabric { packet0 with route := hopRoute 0 } [(5, 1)] openTenant, _, rfl, by decide, by decide +kernel, alone _ _ _ _ _, by decide +kernel, by decide +kernel⟩,
    ⟨4, fabric { packet0 with route := hopRoute 1, cls := 3 } [(5, 3)] openTenant, _, rfl, by decide, by decide +kernel, alone _ _ _ _ _, by decide +kernel, by unfold PortOpen FirewallOpen; decide +kernel,
      by decide +kernel⟩⟩

theorem hyp_hop : ∃ id s p, NMap.find (State.packets s) id = some p ∧ p.typ < 2 ∧ p.hop < routeHops p.route ∧ AloneAt s id p.node (p.route.toNat / 2 ^ (8 * p.hop) % 256 / 4)
    ∧ let hopByte := p.route.toNat / 2 ^ (8 * p.hop) % 256
      let port := hopByte / 4
      let raise := hopByte / 2 % 2
      let o := s.portWord p.node port
      portPresent o = true ∧ PortOpen s p p.node port ∧ p.cls + raise ≤ 3 ∧ (portDateline o = true → raise = 1) ∧ PortOpen s p (portPeerNode o) (portPeerPort o) :=
  ⟨4, fabric { packet0 with route := hopRoute 1, cls := 2 } [(5, BitVec.ofNat 64 (7 + 2 * 2 ^ 45 + 3 * 2 ^ 51)), (64 * 3 + 2, 3)] openTenant, _, rfl, by decide, by decide +kernel, alone _ _ _ _ _,
    by decide +kernel, by unfold PortOpen FirewallOpen; decide +kernel, by decide +kernel, by decide +kernel, by unfold PortOpen FirewallOpen; decide +kernel⟩

theorem hyp_hops_end : (∃ id s p, NMap.find (State.packets s) id = some p ∧ p.typ < 2 ∧ routeHops p.route ≤ p.hop ∧ p.node ≠ 4 * routeDevice p.route + routeDie p.route)
    ∧ (∃ id s p, NMap.find (State.packets s) id = some p ∧ p.typ < 2 ∧ routeHops p.route ≤ p.hop ∧ p.node = 4 * routeDevice p.route + routeDie p.route ∧ 144 ≤ routeEndpoint p.route)
    ∧ ∃ id s p, NMap.find (State.packets s) id = some p ∧ p.typ < 2 ∧ routeHops p.route ≤ p.hop ∧ p.node = 4 * routeDevice p.route + routeDie p.route ∧ routeEndpoint p.route < 144
      ∧ routeMeets p.route p.name = true ∧ routeDevice p.route = s.pkg.selfDevice :=
  ⟨⟨4, fabric { packet0 with node := 1 } [] openTenant, _, rfl, by decide, by decide +kernel, by decide +kernel⟩,
    ⟨4, fabric { packet0 with route := BitVec.ofNat 128 (144 * 2 ^ 96) } [] openTenant, _, rfl, by decide, by decide +kernel, by decide +kernel, by decide +kernel⟩,
    ⟨4, fabric packet0 [] openTenant, _, rfl, by decide, by decide +kernel, by decide +kernel, by decide +kernel, by decide +kernel, by decide +kernel⟩⟩

theorem hyp_response_hops : (∃ id s p, NMap.find (State.packets s) id = some p ∧ 4 ≤ p.typ)
    ∧ (∃ id s p, NMap.find (State.packets s) id = some p ∧ 2 ≤ p.typ ∧ p.typ < 4 ∧ p.back = [] ∧ p.node = 4 * s.pkg.selfDevice + dieOf p.src.core
      ∧ p.srcDevice = s.pkg.selfDevice)
    ∧ (∃ id s p n k r, NMap.find (State.packets s) id = some p ∧ 2 ≤ p.typ ∧ p.typ < 4 ∧ p.back = (n, k) :: r ∧ portPresent (s.portWord n k) = true
      ∧ portUp (s.portWord n k) = true)
    ∧ ∃ id s p n k r, NMap.find (State.packets s) id = some p ∧ 2 ≤ p.typ ∧ p.typ < 4 ∧ p.back = (n, k) :: r ∧ portUp (s.portWord n k) = false :=
  ⟨⟨4, fabric { packet0 with typ := 4 } [] openTenant, _, rfl, by decide⟩,
    ⟨4, fabric { packet0 with typ := 3, reason := 11 } [] openTenant, _, rfl, by decide, by decide, rfl, rfl, rfl⟩,
    ⟨4, fabric { packet0 with typ := 2, back := [(0, 5)], node := 3 } [(5, 3)] openTenant, _, 0, 5, [], rfl, by decide, by decide, rfl, by decide +kernel, by decide +kernel⟩,
    ⟨4, fabric { packet0 with typ := 2, back := [(0, 5)], node := 3 } [(5, 1)] openTenant, _, 0, 5, [], rfl, by decide, by decide, rfl, by decide +kernel⟩⟩

/-- What a refused packet's response is: with a link behind it, and with none. -/
theorem hyp_responds : (∃ (s : State) (p : Packet), p.back = [] ∧ p.srcDevice = s.pkg.selfDevice) ∧ (∃ p : Packet, p.back ≠ [])
    ∧ ∃ (s : State) (p : Packet), p.srcDevice ≠ s.pkg.selfDevice :=
  ⟨⟨State.reset, packet0, rfl, rfl⟩, ⟨{ packet0 with back := [(0, 5)] }, by decide⟩, ⟨State.reset, { packet0 with srcDevice := 7 }, by decide⟩⟩

theorem hyp_stale : ∃ (id : Nat) (s : State) (p : Packet), NMap.find s.packets id = some p ∧ p.dinc ≠ s.pkg.dinc := ⟨4, fabric { packet0 with dinc := 2 } [] openTenant, _, rfl, by decide⟩

/-- The packet at its target: group 0 of slot 0 of core 0. -/
def arriving (p : Packet) (g : Group) : State := { worldOf (coreM { teamOf g with incn := 0 }) with packets := [(4, p)] }

theorem hyp_deliver (full : Bool) : ∃ id s p tm g, NMap.find (State.packets s) id = some p ∧ AtTarget s p tm ∧ (s.core (144 * nameDie p.name + nameCore p.name)).world = p.world
    ∧ NMap.find tm.groups (nameGroup p.name) = some g ∧ nameGroup p.name < tm.ngroups ∧ (∀ l < 64, p.lanes.getLsbD l = true → l < tm.width)
    ∧ nameRegbase p.name + p.ofs + p.n ≤ tm.regs
    ∧ (if full then ∃ j, j < p.n ∧ g.fullForSend (nameRegbase p.name + p.ofs + j) = true else (∀ j < p.n, g.fullForSend (nameRegbase p.name + p.ofs + j) = false)
      ∧ (p.values.map fun x => (x.1, x.2.1)).Nodup ∧ (∀ x ∈ p.values, x.1 < p.n ∧ p.lanes.getLsbD x.2.1 = true) ∧ p.hasTags = false) := by
  let g : Group := if full then group0 else { group0 with vregs := [(25, ⟨.i32, false, []⟩)] }
  refine ⟨4, arriving packet0 g, packet0, { teamOf g with incn := 0 }, g, rfl, ?_⟩
  cases full <;> exact ⟨⟨rfl, by decide +kernel, by decide +kernel⟩, by decide +kernel, by decide +kernel, by decide +kernel, by decide +kernel, by decide +kernel, by
    simp only [if_true, Bool.false_eq_true, if_false]; decide +kernel⟩

/-- A packet of KSEND for slot 0 of cord 0, generation 1. -/
def ksend0 : Packet := { packet0 with
  typ := 1
  name := BitVec.ofNat 128 (2 ^ 126 + (permRS + permGL) * 2 ^ 114 + 1536 * 2 ^ 23 + 64 * 2 ^ 12)
  bytes := [7, 8] }
def channelled (ch : Bool) : State :=
  { worldOf (coreM { teamK .armed ch none with incn := 0 }) with packets := [(4, ksend0)] }

theorem hyp_ksend_arrives (ch : Bool) : ∃ id s p tm k, NMap.find (State.packets s) id = some p ∧ AtTarget s p tm ∧ (s.core (144 * nameDie p.name + nameCore p.name)).world = p.world ∧ NMap.find tm.cords (nameRegbase p.name - 1536) = some k
    ∧ k.ch = ch ∧ nameCount p.name % 64 < k.n ∧ (k.slot (nameCount p.name % 64)).st = .armed
    ∧ (k.slot (nameCount p.name % 64)).gen.toNat % 32 = nameCount p.name / 64 % 32 ∧ (k.slot (nameCount p.name % 64)).cur + p.bytes.length ≤ tm.shareBytes := by
  refine ⟨4, channelled ch, ksend0, { teamK .armed ch none with incn := 0 }, cordOf .armed ch, rfl, ?_⟩
  cases ch <;> exact ⟨⟨rfl, by decide +kernel, by decide +kernel⟩, by decide +kernel, by decide +kernel, rfl, by decide +kernel, by decide +kernel, by decide +kernel, by decide +kernel⟩

theorem hyp_other_world : ∃ id s p tm, NMap.find (State.packets s) id = some p ∧ AtTarget s p tm
    ∧ (s.core (144 * nameDie p.name + nameCore p.name)).world ≠ p.world :=
  ⟨4, arriving { packet0 with world := 2 } group0, { packet0 with world := 2 }, { teamOf group0 with incn := 0 }, rfl, ⟨rfl, by decide +kernel, by decide +kernel⟩, by decide +kernel⟩

def send0 : SendItem := ⟨3, 0x1008, 0⟩
theorem hyp_response : ∃ (i : GroupId) (seq : Nat) (s : State) (g : Group) (x : SendItem), s.group i = some g ∧ g.sends.find? (fun y => y.seq == seq) = some x
    ∧ g.hasExited = false ∧ g.bevents.length < 8 ∧ x.since + 2 ^ 26 ≤ s.cycle :=
  ⟨item0, 3, { issuing { group0 with sends := [send0] } with cycle := 2 ^ 26 }, _, send0, rfl, rfl, by decide, by decide, by decide⟩

theorem hyp_no_sender : ∃ (i : GroupId) (seq : Nat) (s : State), ∀ g, s.group i = some g → ∀ x ∈ g.sends, x.seq ≠ seq :=
  ⟨item0, 4, issuing { group0 with sends := [send0] }, fun g h x hx => by
    obtain rfl : { group0 with sends := [send0] } = g := Option.some.inj h
    obtain rfl := List.mem_singleton.mp hx
    decide⟩

theorem hyp_memory_request (f : Bool) : ∃ s : State, s.req.flag = f := ⟨{ State.reset with req := { Request.zero with flag := f } }, rfl⟩

def ctrl0 : MemCtrl := ⟨(0, 1), [], [⟨1, 5, (3, 2), 0, 0⟩, ⟨0, 6, (3, 2), 0, 0⟩], [9], 15⟩
theorem hyp_serve_untagged : (∃ (n : Nat) (s : State) (ln : Nat) (r : List Nat), (s.ctrl n).untagged = ln :: r ∧ (s.ctrl n).sinceUntagged ≥ 15)
    ∧ ∃ (n : Nat) (s : State), (s.ctrl n).sinceUntagged < 15 ∧ (s.ctrl n).queue = [] :=
  ⟨⟨0, { State.reset with ctrls := [(0, ctrl0)] }, 9, [], rfl, by decide⟩, ⟨0, { State.reset with ctrls := [(0, { ctrl0 with queue := [], sinceUntagged := 14 })] }, by decide, rfl⟩⟩

theorem hyp_serve : ∃ (n : Nat) (s : State) (q : MemRequest), ((s.ctrl n).untagged = [] ∨ (s.ctrl n).sinceUntagged < 15) ∧ IsHead (s.ctrl n) q
    ∧ ∀ x, IsHead (s.ctrl n) x → x.tenant ≠ q.tenant → TagLe q.tag x.tag ∧ (TagLe x.tag q.tag → q.tenant < x.tenant) :=
  ⟨0, { State.reset with ctrls := [(0, { ctrl0 with sinceUntagged := 14 })] }, ⟨0, 6, (3, 2), 0, 0⟩, .inr (by decide), rfl, fun x h _ => by
    have hx : x ∈ ctrl0.queue := List.mem_of_find?_eq_some h
    have e : x = ⟨1, 5, (3, 2), 0, 0⟩ ∨ x = ⟨0, 6, (3, 2), 0, 0⟩ := by simpa [ctrl0] using hx
    rcases e with rfl | rfl
    · exact ⟨by unfold TagLe; decide, fun _ => by decide⟩
    · exact absurd rfl ‹_›⟩

/-! Firmware, device interfaces, registers, the host. -/

def asking (r : Request) : State := { State.reset with req := r }

theorem hyp_reset : ∃ s : State, s.req.split = 0 ∧ s.pkg.ready = true := ⟨State.reset, rfl, rfl⟩

theorem hyp_boot_step (k : Fin 5) (b : Bool) : ∃ s : State, 1 ≤ k.val + 1 ∧ k.val + 1 ≤ 5 ∧ s.req.split = k.val + 1
    ∧ (if b then s.pkg.bootstat.toNat % 16 + 1 = k.val + 1 else s.pkg.bootstat.toNat % 16 + 1 ≠ k.val + 1) :=
  ⟨{ asking { Request.zero with split := k.val + 1 } with pkg := { Package.reset with bootstat := if b then BitVec.ofNat 64 k.val else 7 } }, by omega, by omega, rfl, by
    revert k; cases b <;> decide +kernel⟩

theorem hyp_not_ready : ∃ s : State, s.pkg.ready = false ∧ s.req.split = 0 := ⟨{ State.reset with pkg := { Package.reset with bootstat := 15 } }, rfl, rfl⟩

theorem hyp_boots : ∃ (s : State) (i : Nat) (f : FlashSlot), Boots s i f := ⟨State.reset, 0, ⟨0, true, 0, 1⟩, by decide, rfl, rfl, by decide⟩
theorem hyp_boots_none : ∃ s : State, s.req.split = 2 ∧ s.pkg.bootstat.toNat % 16 + 1 = 2 ∧ ∀ i f, ¬Boots s i f :=
  ⟨{ asking { Request.zero with split := 2 } with pkg := { Package.reset with flash := [], bootstat := 1 } }, rfl, rfl, fun i f h => by obtain ⟨_, h, _⟩ := h; simp [NMap.find] at h⟩

theorem hyp_reset_port (w : W64) : ∃ (s : State) (d k : Nat), d < 4 ∧ k < 64 ∧ s.ports = [(portKey (4 * s.pkg.selfDevice + d) k, w)] ∧ s.req.split = 0
    ∧ s.pkg.ready = true :=
  ⟨{ State.reset with ports := [(portKey 3 13, w)] }, 3, 13, by decide, by decide, rfl, rfl, rfl⟩

theorem hyp_image : (∃ s : State, s.pkg.ready = true ∧ s.req.flag = false)
    ∧ (∃ s : State, s.pkg.ready = true ∧ s.req.flag = true ∧ s.req.value.toNat < s.pkg.floor)
    ∧ ∃ s : State, s.pkg.ready = true ∧ s.req.flag = true ∧ s.pkg.floor ≤ s.req.value.toNat :=
  ⟨⟨State.reset, rfl, rfl⟩, ⟨{ asking { Request.zero with flag := true } with pkg := { Package.reset with floor := 1 } }, rfl, rfl, by decide⟩,
    ⟨asking { Request.zero with flag := true }, rfl, rfl, by decide⟩⟩

theorem hyp_powercap : (∃ s : State, s.pkg.ready = true ∧ s.req.value.toNat < 1800) ∧ (∃ s : State, s.pkg.ready = true ∧ 3600 < s.req.value.toNat)
    ∧ ∃ s : State, s.pkg.ready = true ∧ 1800 ≤ s.req.value.toNat ∧ s.req.value.toNat ≤ 3600 :=
  ⟨⟨asking { Request.zero with value := 1799 }, rfl, by decide⟩, ⟨asking { Request.zero with value := 3601 }, rfl, by decide⟩,
    ⟨asking { Request.zero with value := 3600 }, rfl, by decide, by decide⟩⟩

def peer0 : Peer := ⟨1, 0, 0, 5, 7, true⟩
theorem hyp_admit : (∃ s : State, s.pkg.ready = true ∧ NMap.find s.peers (s.req.value.toNat % 1024) = none)
    ∧ (∃ (s : State) (p : Peer), s.pkg.ready = true ∧ NMap.find s.peers (s.req.value.toNat % 1024) = some p ∧ p.verifies = false)
    ∧ (∃ (s : State) (p : Peer), s.pkg.ready = true ∧ NMap.find s.peers (s.req.value.toNat % 1024) = some p ∧ p.verifies = true ∧ p.dinc ≠ 0 ∧ p.measured ≠ p.newMeasured)
    ∧ ∃ (s : State) (p : Peer), s.pkg.ready = true ∧ NMap.find s.peers (s.req.value.toNat % 1024) = some p ∧ p.verifies = true ∧ (p.dinc = 0 ∨ p.measured = p.newMeasured) :=
  ⟨⟨State.reset, rfl, rfl⟩, ⟨{ State.reset with peers := [(0, { peer0 with verifies := false })] }, _, rfl, rfl, rfl⟩,
    ⟨{ State.reset with peers := [(0, { peer0 with dinc := 1 })] }, _, rfl, rfl, rfl, by decide, by decide⟩, ⟨{ State.reset with peers := [(0, peer0)] }, _, rfl, rfl, rfl, .inl rfl⟩⟩

/-- A link of the device's own dies, and one of a die of another device: it is up, and F brings it up or down. -/
theorem hyp_link (f far : Bool) : ∃ s : State, (s.req.off = 0 → s.req.die < 4) ∧ nodePort (if s.req.off = 0 then 4 * s.pkg.selfDevice + s.req.die else s.req.off - 1) s.req.index = true
    ∧ s.pkg.ready = true ∧ s.req.slot ≠ 1 ∧ s.req.flag = f ∧ (far = true → s.req.off ≠ 0)
    ∧ portUp (s.portWord (if s.req.off = 0 then 4 * s.pkg.selfDevice + s.req.die else s.req.off - 1) s.req.index) = true :=
  ⟨{ asking { Request.zero with die := 3, index := if far then 8 else 0, off := if far then 10 else 0, flag := f } with ports := [(portKey 9 8, 3)] },
    by cases f <;> cases far <;> decide, by cases f <;> cases far <;> decide +kernel, rfl, by cases f <;> cases far <;> decide, rfl, by cases f <;> cases far <;> decide, by cases f <;> cases far <;> decide +kernel⟩

/-- A port that there is not, and a far end that has no port of the number. -/
theorem hyp_no_link : (∃ s : State, ¬((s.req.off = 0 → s.req.die < 4) ∧ nodePort (if s.req.off = 0 then 4 * s.pkg.selfDevice + s.req.die else s.req.off - 1) s.req.index = true)
      ∧ s.req.slot ≠ 1)
    ∧ (∃ s : State, s.pkg.ready = false ∧ s.req.slot ≠ 1)
    ∧ ∃ s : State, s.req.index = 8 ∧ nodePort (portPeerNode s.req.value) (portPeerPort s.req.value) = false :=
  ⟨⟨asking { Request.zero with index := 14 }, by decide +kernel, by decide⟩, ⟨{ State.reset with pkg := { Package.reset with bootstat := 4 } }, rfl, by decide⟩,
    ⟨asking { Request.zero with index := 8, value := BitVec.ofNat 64 (5 * 2 ^ 45 + 5 * 2 ^ 51) }, rfl, by decide +kernel⟩⟩

/-- The steps of a change of the maps: one that waits, the second of a change, the first of one that is owed, and none. -/
theorem hyp_link_second : (∃ s : State, s.req.slot = 1 ∧ s.plainIdle = false) ∧ (∃ s : State, s.req.slot = 1 ∧ s.plainIdle = true ∧ s.pkg.topoGen % 2 = 1)
    ∧ ∀ b : Bool, ∃ s : State, s.req.slot = 1 ∧ s.plainIdle = true ∧ s.pkg.topoGen % 2 = 0 ∧ s.pkg.mapOwed = b :=
  ⟨⟨{ asking { Request.zero with slot := 1 } with dir := [(5, { DirEntry.fresh with queue := [.device .plain []] })] }, rfl, by decide +kernel⟩,
    ⟨{ asking { Request.zero with slot := 1 } with pkg := { Package.reset with topoGen := 3 } }, rfl, rfl, rfl⟩,
    fun b => ⟨{ asking { Request.zero with slot := 1 } with pkg := { Package.reset with mapOwed := b } }, rfl, rfl, rfl, rfl⟩⟩

/-- A tenant whose map, at 0x20000, has MAGIC and VERSION. -/
def mapped : State := { State.reset.putNat 0x20008 4 0x5A4D0100 with tenants := [(0, { tenant0 with entry := entrySet tenant0.entry 192 8 0x20000 })] }
theorem hyp_link_map : mapped.liveMaps ≠ [] := by decide +kernel

theorem hyp_port_refuses : ∃ (s : State) (ip : Nat × Packet), Numbered s ∧ ip ∈ s.packets ∧ ip.2.at_ = some (4 * s.pkg.selfDevice + s.req.die, s.req.index) :=
  ⟨{ asking { Request.zero with index := 5 } with packets := [(4, { packet0 with route := hopRoute 0 })], pkg := { Package.reset with nextId := 5 } },
    (4, { packet0 with route := hopRoute 0 }), fun x h => by obtain rfl := List.mem_singleton.mp h; decide +kernel, List.mem_singleton.mpr rfl, by decide +kernel⟩

theorem hyp_flag (f : Bool) : ∃ s : State, s.req.flag = f := ⟨asking { Request.zero with flag := f }, rfl⟩

/-- An entry of a tenant without windows in fabric domain 1, of weight 1, with world 0. -/
def entry1 : BitVec 4096 := BitVec.ofNat 4096 (2 ^ 63 + 2 ^ 48 + 2 ^ 32 + 2 ^ 24)

/-- A tenant of core 0 whose forwarding entries are all in use. -/
def stuckWorld (r : Request) : State := { asking r with
  tenants := [(0, { Tenant.fresh with entry := entry1, lease := [0] })]
  cores := [(0, { Core.fresh with forwards := (List.range 64).map fun i => (i, ⟨false, 0, 0, 1, 0, 0, 0, 0⟩) })] }

theorem hyp_ptable : (∃ s : State, s.pkg.ready = true ∧ 64 ≤ s.req.tenant)
    ∧ (∃ s : State, s.pkg.ready = true ∧ ({ Tenant.fresh with entry := s.req.entry } : Tenant).weight = 0)
    ∧ (∃ s : State, s.pkg.ready = true ∧ ∃ i < 10, entryField s.req.entry (64 + 8 * i) 8 % 2 ^ 21 ≠ 0)
    ∧ (∃ s : State, s.pkg.ready = true ∧ ∃ d < 4, ({ Tenant.fresh with entry := s.req.entry } : Tenant).winLimit d ≠ 0
      ∧ s.inPart ({ Tenant.fresh with entry := s.req.entry } : Tenant).part d = false)
    ∧ (∃ (s : State) (c : Nat), s.pkg.ready = true ∧ ({ Tenant.fresh with entry := s.req.entry } : Tenant).part ≠ (s.tenant s.req.tenant).part
      ∧ c ∈ (s.tenant s.req.tenant).lease ∧ c ∉ s.req.lease ∧ 64 ≤ (s.core c).forwards.length)
    ∧ (∃ s : State, s.pkg.ready = true ∧ s.req.tenant < 64 ∧ s.entryOk s.req.tenant s.req.entry s.req.lease = true ∧ (s.tenant s.req.tenant).valid = false
      ∧ ({ Tenant.fresh with entry := s.req.entry } : Tenant).valid = true ∧ ∀ c, c ∉ (s.tenant s.req.tenant).lease)
    ∧ (∃ s : State, s.pkg.ready = true ∧ s.req.tenant < 64 ∧ s.entryOk s.req.tenant s.req.entry s.req.lease = true ∧ (s.tenant s.req.tenant).valid = true
      ∧ s.changeOk s.req.tenant (s.tenant s.req.tenant).entry s.req.entry = true
      ∧ ({ Tenant.fresh with entry := s.req.entry } : Tenant).part = (s.tenant s.req.tenant).part)
    ∧ ∃ (s : State) (c : Nat), s.pkg.ready = true ∧ s.req.tenant < 64 ∧ s.entryOk s.req.tenant s.req.entry s.req.lease = true ∧ (s.tenant s.req.tenant).valid = true
      ∧ s.changeOk s.req.tenant (s.tenant s.req.tenant).entry s.req.entry = true
      ∧ ({ Tenant.fresh with entry := s.req.entry } : Tenant).part = (s.tenant s.req.tenant).part
      ∧ c ∈ (s.tenant s.req.tenant).lease ∧ c ∉ s.req.lease ∧ 64 ≤ (s.core c).forwards.length :=
  ⟨⟨asking { Request.zero with tenant := 64 }, rfl, by decide⟩, ⟨asking { Request.zero with entry := BitVec.ofNat 4096 (2 ^ 63) }, rfl, by decide +kernel⟩,
    ⟨asking { Request.zero with entry := BitVec.ofNat 4096 (2 ^ 63 + 2 ^ 24 + 2 ^ (8 * 136)) }, rfl, 9, by decide, by decide +kernel⟩,
    ⟨{ asking { Request.zero with entry := entrySet entry1 72 8 (2 ^ 21) } with dies := [(0, { Die.fresh with part := 1 })] }, rfl, 0, by decide,
      by decide +kernel, by decide +kernel⟩,
    ⟨stuckWorld { Request.zero with entry := entry1 + BitVec.ofNat 4096 (2 ^ 60), lease := [] }, 0, rfl, by decide +kernel, by decide +kernel, by decide, by decide +kernel⟩,
    ⟨asking { Request.zero with tenant := 63, entry := entry1, lease := [0] }, rfl, by decide, by decide +kernel, by decide +kernel, by decide +kernel, fun _ => List.not_mem_nil⟩,
    ⟨{ asking { Request.zero with entry := entry1, lease := [0] } with tenants := [(0, { Tenant.fresh with entry := entry1, lease := [0] })] }, rfl, by decide,
      by decide +kernel, by decide +kernel, by decide +kernel, by decide +kernel⟩,
    ⟨stuckWorld { Request.zero with entry := entry1, lease := [1] }, 0, rfl, by decide, by decide +kernel, by decide +kernel, by decide +kernel, by decide +kernel,
      by decide +kernel, by decide, by decide +kernel⟩⟩

theorem hyp_partition : (∃ s : State, s.pkg.ready = true ∧ s.dieInUse (s.req.value.toNat % 4) = true)
    ∧ ∃ s : State, s.pkg.ready = true ∧ s.dieInUse (s.req.value.toNat % 4) = false :=
  ⟨⟨{ State.reset with tenants := [(0, tenantQ)] }, rfl, by decide +kernel⟩, ⟨asking { Request.zero with value := 3 }, rfl, by decide +kernel⟩⟩

def world1 (x : WorldState) (k : Option Nat) : State := { asking { Request.zero with value := 1 } with worlds := [(1, ⟨x, k, false⟩)] }
/-- A dying world without a key, whose window on die 0 holds line 5 with a directory entry. -/
def dying (d : DirEntry) : State := { world1 .dying none with dir := [(5, d)], tenants := [(0, { tenant0 with entry := entrySet tenant0.entry 216 1 1 })] }

theorem hyp_worlds : (∃ s : State, s.pkg.ready = true ∧ s.pkg.debugUnlocked = true) ∧ (∃ s : State, s.pkg.ready = true ∧ s.pkg.debugUnlocked = false ∧ s.req.value.toNat = 0)
    ∧ (∃ s : State, s.pkg.ready = true ∧ s.pkg.debugUnlocked = false ∧ 16 ≤ s.req.value.toNat)
    ∧ (∃ s : State, s.pkg.ready = true ∧ s.pkg.debugUnlocked = false ∧ 1 ≤ s.req.value.toNat ∧ s.req.value.toNat < 16 ∧ (s.world s.req.value.toNat).st = .free)
    ∧ (∃ s : State, s.pkg.ready = true ∧ (s.world s.req.value.toNat).st = .live ∧ s.req.value.toNat = 0)
    ∧ ∃ s : State, s.pkg.ready = true ∧ (s.world s.req.value.toNat).st = .live ∧ s.req.value.toNat ≠ 0 :=
  ⟨⟨{ State.reset with pkg := { Package.reset with debugUnlocked := true } }, rfl, rfl⟩, ⟨State.reset, rfl, rfl, rfl⟩, ⟨asking { Request.zero with value := 16 }, rfl, rfl, by decide⟩,
    ⟨asking { Request.zero with value := 15 }, rfl, rfl, by decide, by decide, by decide +kernel⟩,
    ⟨{ State.reset with worlds := [(0, ⟨.live, none, false⟩)] }, rfl, by decide +kernel, rfl⟩, ⟨world1 .live (some 3), rfl, by decide +kernel, by decide⟩⟩

theorem hyp_world_dying : (∃ s : State, s.pkg.ready = true ∧ (s.world s.req.value.toNat).st = .dying ∧ s.worldEmpty s.req.value.toNat = false)
    ∧ (∃ (s : State) (n : Nat), s.pkg.ready = true ∧ (s.world s.req.value.toNat).st = .dying ∧ s.worldEmpty s.req.value.toNat = true ∧ (s.world s.req.value.toNat).key = some n)
    ∧ (∃ (s : State) (ln i : Nat), s.pkg.ready = true ∧ (s.world s.req.value.toNat).st = .dying ∧ s.worldEmpty s.req.value.toNat = true ∧ (s.world s.req.value.toNat).key = none
      ∧ ln ∈ s.worldLines s.req.value.toNat ∧ (s.dirAt ln).unasked = true ∧ i < 7 ∧ (s.dirAt ln).sites.getLsbD i = true ∧ (s.dirAt ln).invSent.getLsbD i = false)
    ∧ ∃ (s : State) (ln a : Nat) (km : Nat × Mailbox), s.pkg.ready = true ∧ (s.world s.req.value.toNat).st = .dying ∧ s.worldEmpty s.req.value.toNat = true
      ∧ (s.world s.req.value.toNat).key = none ∧ ln ∈ s.worldLines s.req.value.toNat ∧ (∀ ln ∈ s.worldLines s.req.value.toNat, (s.dirAt ln).atRest = true)
      ∧ s.inWorld s.req.value.toNat a = true ∧ km ∈ s.mailboxes ∧ km.1 < 4 ∧ km.2.busy = true ∧ km.2.cmd.toNat % 2 ^ 8 = 0x13
      ∧ km.2.cmd.toNat / 2 ^ 8 % 2 ^ 56 = s.req.value.toNat := by
  let t : Team := { teamOf group0 with desc := fetchDesc ||| BitVec.ofNat 2048 (2 ^ 610) }
  exact ⟨⟨{ worldOf (coreOf t) with req := { Request.zero with value := 1 }, worlds := [(1, ⟨.dying, none, false⟩)] }, rfl, by decide +kernel, by decide +kernel⟩,
    ⟨world1 .dying (some 3), 3, rfl, by decide +kernel, by decide +kernel, by decide +kernel⟩,
    ⟨dying { DirEntry.fresh with st := .shared, sites := 1 }, 5, 0, rfl, by decide +kernel, by decide +kernel, by decide +kernel, by decide +kernel, by decide +kernel, by decide,
      by decide +kernel, by decide +kernel⟩,
    ⟨{ dying DirEntry.fresh with mailboxes := [(0, ⟨0x113, 0, 0, false, true⟩)] }, 5, 640, (0, ⟨0x113, 0, 0, false, true⟩), rfl, by decide +kernel, by decide +kernel, by decide +kernel,
      by decide +kernel, by decide +kernel, by decide +kernel, List.mem_singleton.mpr rfl, by decide, rfl, by decide +kernel, by decide +kernel⟩⟩

theorem hyp_world_team : ∃ (s : State) (kc : Nat × Core) (st : Nat × Team), (s.world s.req.value.toNat).st = .live ∧ s.req.value.toNat ≠ 0 ∧ kc ∈ s.cores ∧ st ∈ kc.2.teams
    ∧ descWorld st.2.desc = s.req.value.toNat ∧ s.team kc.1 st.1 = some st.2 ∧ st.2.killed = false := by
  let t : Team := { teamOf group0 with desc := fetchDesc ||| BitVec.ofNat 2048 (2 ^ 610) }
  exact ⟨{ worldOf (coreOf t) with req := { Request.zero with value := 1 }, worlds := [(1, ⟨.live, some 3, false⟩)] }, (0, coreOf t), (0, t), by decide +kernel, by decide,
    by simp [worldOf], by simp [coreOf], by decide +kernel, rfl, rfl⟩

theorem hyp_checkpoint : (∃ (s : State) (c sl : Nat) (tm : Team), (s.tenant (checkpointTenant s.req.index s.req.value.toNat)).checkpointing = false
      ∧ s.cores = [(c, s.core c)] ∧ (s.core c).teams = [(sl, tm)] ∧ tm.tenant = checkpointTenant s.req.index s.req.value.toNat ∧ tm.killed = false ∧ tm.banking = none)
    ∧ (∃ s : State, (s.tenant (checkpointTenant s.req.index s.req.value.toNat)).checkpointing = true ∧ s.quiet (checkpointTenant s.req.index s.req.value.toNat) = true
      ∧ (s.tenant (checkpointTenant s.req.index s.req.value.toNat)).copied = false ∧ s.checkpointCap (checkpointTenant s.req.index s.req.value.toNat) = none)
    ∧ (∃ s : State, (s.tenant (checkpointTenant s.req.index s.req.value.toNat)).checkpointing = true ∧ s.quiet (checkpointTenant s.req.index s.req.value.toNat) = true
      ∧ (s.tenant (checkpointTenant s.req.index s.req.value.toNat)).copied = true ∧ (s.tenant (checkpointTenant s.req.index s.req.value.toNat)).dirtyReport = none)
    ∧ (∃ (s : State) (r : List (Nat × Nat)), (s.tenant (checkpointTenant s.req.index s.req.value.toNat)).checkpointing = true
      ∧ s.quiet (checkpointTenant s.req.index s.req.value.toNat) = true ∧ (s.tenant (checkpointTenant s.req.index s.req.value.toNat)).copied = true
      ∧ (s.tenant (checkpointTenant s.req.index s.req.value.toNat)).dirtyReport = some r)
    ∧ ∃ s : State, (s.tenant (checkpointTenant s.req.index s.req.value.toNat)).checkpointing = true ∧ s.quiet (checkpointTenant s.req.index s.req.value.toNat) = false :=
  ⟨⟨issuing group0, 0, 0, teamOf group0, rfl, rfl, rfl, rfl, rfl, rfl⟩, ⟨{ State.reset with tenants := [(0, { Tenant.fresh with checkpointing := true })] }, rfl, by decide +kernel, rfl, rfl⟩,
    ⟨{ State.reset with tenants := [(0, { Tenant.fresh with checkpointing := true, copied := true })] }, rfl, by decide +kernel, rfl, rfl⟩,
    ⟨{ State.reset with tenants := [(0, { Tenant.fresh with checkpointing := true, copied := true, dirtyReport := some [] })] }, [], rfl, by decide +kernel, rfl, rfl⟩,
    ⟨{ issuing group0 with tenants := [(0, { Tenant.fresh with checkpointing := true })] }, rfl, by decide +kernel⟩⟩

/-- A checkpoint that mailbox 1 asks for, to memory in the fabric. -/
theorem hyp_checkpoint_fabric : ∃ (s : State) (cap : BitVec 128) (inc : Bool), (s.tenant (checkpointTenant s.req.index s.req.value.toNat)).checkpointing = true
    ∧ s.quiet (checkpointTenant s.req.index s.req.value.toNat) = true ∧ (s.tenant (checkpointTenant s.req.index s.req.value.toNat)).copied = false
    ∧ s.checkpointCap (checkpointTenant s.req.index s.req.value.toNat) = some (cap, inc, true) :=
  ⟨{ State.reset with tenants := [(0, { Tenant.fresh with checkpointing := true })], mailboxes := [(1, ⟨BitVec.ofNat 512 (3 + 2 ^ 17), 0, 0, false, true⟩)] }, 0, false, rfl,
    by decide +kernel, rfl, by decide +kernel⟩

theorem hyp_health : (∃ s : State, s.pkg.ready = true ∧ (s.tenant (if s.req.index < 4 then s.req.tenant else (s.req.index - 4) / 4)).paOf s.req.ia = none)
    ∧ ∃ s : State, s.pkg.ready = true ∧ ((s.tenant (if s.req.index < 4 then s.req.tenant else (s.req.index - 4) / 4)).paOf s.req.ia).isSome = true
      ∧ ((s.tenant (if s.req.index < 4 then s.req.tenant else (s.req.index - 4) / 4)).paOf (s.req.ia + 5119)).isSome = true :=
  ⟨⟨asking { Request.zero with ia := 2 ^ 50 }, rfl, by decide +kernel⟩, ⟨{ asking { Request.zero with ia := 128 } with tenants := [(0, tenant0)] }, rfl, by decide +kernel, by decide +kernel⟩⟩

theorem hyp_ide (f : Bool) : (∃ s : State, s.pkg.ideStreams.Pairwise (· < ·) ∧ s.pkg.cxlIde.Pairwise (· < ·) ∧ s.req.flag2 = f)
    ∧ (∃ s : State, s.req.index < 2 ∧ s.req.flag2 = f) ∧ (∃ s : State, s.req.index = 127 ∧ s.req.flag2 = f) ∧ ∃ s : State, 128 ≤ s.req.index ∧ s.req.flag2 = f :=
  ⟨⟨{ asking { Request.zero with flag2 := f } with pkg := { Package.reset with ideStreams := [3, 7], cxlIde := [0, 1] } }, by cases f <;> decide, by cases f <;> decide, rfl⟩,
    ⟨asking { Request.zero with index := 1, flag2 := f }, by cases f <;> decide, rfl⟩, ⟨asking { Request.zero with index := 127, flag2 := f }, rfl, rfl⟩,
    ⟨asking { Request.zero with index := 128, flag2 := f }, by cases f <;> decide, rfl⟩⟩

/-- An interface in each state: with no stream, with one whose keys are set, or with one that has failed. -/
theorem hyp_tdi (x : TdiState) (b : Option Nat) (keyed : Bool) : ∃ s : State, s.pkg.ready = true ∧ (s.tenant s.req.tenant).tdi = x ∧ (s.tenant s.req.tenant).boundStream = b
    ∧ (∀ k, b = some k → if keyed then k ∈ s.pkg.ideStreams else k ∉ s.pkg.ideStreams) :=
  ⟨{ State.reset with
      tenants := [(0, { Tenant.fresh with tdi := x, boundStream := b })]
      pkg := { Package.reset with ideStreams := if keyed then b.toList else [] } }, rfl, rfl, rfl, fun k h => by subst h; cases keyed <;> simp⟩

theorem hyp_hdm (f : Bool) (i : Nat) : ∃ s : State, s.pkg.ready = true ∧ (s.tenant s.req.tenant).tdi = .unlocked ∧ s.req.flag = f ∧ s.req.index = i :=
  ⟨asking { Request.zero with flag := f, index := i }, rfl, rfl, rfl, rfl⟩

/-- A function is reset under a team with a grid, and under a banked team. -/
theorem hyp_flr : (∃ (s : State) (kc : Nat × Core) (kt : Nat × Team) (g : Grid), s.pkg.ready = true ∧ kc ∈ s.cores ∧ kt ∈ kc.2.teams ∧ kt.2.tenant = s.req.tenant
      ∧ s.team kc.1 kt.1 = some kt.2 ∧ kt.2.killed = false ∧ s.grid kt.2.grid = some g ∧ ∀ x ∈ s.grids, x.2.xrec = none ∧ x.2.writes = [])
    ∧ ∃ (s : State) (x : Nat × Image), s.pkg.ready = true ∧ x ∈ s.images ∧ x.2.team.tenant = s.req.tenant :=
  ⟨⟨{ issuing group0 with grids := [(0, grid0)] }, (0, coreOf (teamOf group0)), (0, teamOf group0), grid0, rfl, by simp [issuing, worldOf], by simp [coreOf], rfl, rfl, rfl, rfl,
      fun x h => by obtain rfl := List.mem_singleton.mp h; exact ⟨rfl, rfl⟩⟩,
    ⟨{ State.reset with images := [(5, ⟨teamOf group0, [], 1, 0, [], [], [], 0, 0, []⟩)] }, (5, ⟨teamOf group0, [], 1, 0, [], [], [], 0, 0, []⟩), rfl, List.mem_singleton.mpr rfl, rfl⟩⟩

theorem hyp_spdm (n : Nat) : ∃ (i : Instr) (k : Nat) (s : State), s.pkg.ready = true ∧ spdmNumber i = some k ∧ k ≠ 1 ∧ s.req.off = n :=
  ⟨.challenge, 6, asking { Request.zero with off := n }, rfl, rfl, by decide, rfl⟩

theorem hyp_queue_resumes : ∃ (s : State) (gn : Nat) (g : Grid) (c : Nat), (s.queue (queueKey s.req.die s.req.index)).st ≠ .run
    ∧ (s.queue (queueKey s.req.die s.req.index)).head = some gn ∧ s.grid gn = some g ∧ g.readySince = some c :=
  ⟨{ queueing [] { running with st := .error, head := some 3 } with grids := [(3, { grid0 with readySince := some 7 })] }, 3, { grid0 with readySince := some 7 }, 7,
    by decide, rfl, rfl, rfl⟩

theorem hyp_register (l off : Nat) : ∃ s : State, s.pkg.ready = true ∧ s.req.line = l ∧ s.req.off = off := ⟨asking { Request.zero with line := l, off := off }, rfl, rfl, rfl⟩

/-- A vector table entry through the interface's own port and function, and through another port; a ring in host memory; a die's protected ways. -/
theorem hyp_register_lines : (∃ s : State, s.pkg.ready = true ∧ s.req.line = 4 ∧ ViaInterface s ∧ s.req.off = 0x3FF8 ∧ (s.tenant s.req.tenant).tdi ≠ .error)
    ∧ (∃ s : State, s.pkg.ready = true ∧ s.req.line = 4 ∧ ¬ViaInterface s) ∧ (∃ s : State, s.pkg.ready = true ∧ s.req.line = 4 ∧ (s.tenant s.req.tenant).tdi = .error)
    ∧ (∃ s : State, s.pkg.ready = true ∧ s.req.line = 5 ∧ isHostLine (s.req.value.toNat / 128) = true ∧ s.req.index ≠ 0)
    ∧ (∃ s : State, s.pkg.ready = true ∧ s.req.line = 6 ∧ s.req.value.toNat = 14) ∧ ∃ s : State, s.pkg.ready = true ∧ s.req.line = 6 ∧ 14 < s.req.value.toNat :=
  ⟨⟨asking { Request.zero with line := 4, off := 0x3FF8, tenant := 1, port := 1 }, rfl, rfl, ⟨rfl, rfl⟩, rfl, by decide⟩,
    ⟨asking { Request.zero with line := 4, port := 1 }, rfl, rfl, fun h => by cases h.1⟩, ⟨(asking { Request.zero with line := 4 }).setTdi 0 .error, rfl, rfl, rfl⟩,
    ⟨asking { Request.zero with line := 5, value := BitVec.ofNat 64 Config.hostBase, index := 8 }, rfl, rfl, by decide, by decide⟩,
    ⟨asking { Request.zero with line := 6, value := 14 }, rfl, rfl, rfl⟩, ⟨asking { Request.zero with line := 6, value := 15 }, rfl, rfl, by decide⟩⟩

theorem hyp_mailbox (off : Nat) (b : Bool) (v : W64) : ∃ s : State, s.pkg.ready = true ∧ s.req.line = 3 ∧ s.req.off = 0x100 + 0x100 * 0 + off ∧ (s.mailbox 0).busy = b ∧ s.req.value = v :=
  ⟨{ asking { Request.zero with line := 3, off := 0x100 + 0x100 * 0 + off, value := v } with mailboxes := [(0, ⟨0, 0, 0, false, b⟩)] }, rfl, rfl, rfl, rfl, rfl⟩

theorem hyp_mailbox_code : (∃ s : State, (s.mailbox 3).busy = false ∧ (s.mailbox 3).cmd.extractLsb' 0 8 = (0x15 : BitVec 8))
    ∧ ∃ s : State, (s.mailbox 3).busy = false ∧ (0x18 : BitVec 8) ≤ (s.mailbox 3).cmd.extractLsb' 0 8 :=
  ⟨⟨{ State.reset with mailboxes := [(3, ⟨0x15, 0, 0, false, false⟩)] }, rfl, by decide +kernel⟩, ⟨{ State.reset with mailboxes := [(3, ⟨0x18, 0, 0, false, false⟩)] }, rfl, by decide +kernel⟩⟩

theorem hyp_hrearm : (∃ (s : State) (e : Entry) (g : Group), s.entry s.req.core s.req.index = some e ∧ e.st = .faulted ∧ e.tenant = s.req.tenant
      ∧ s.group ⟨s.req.core, e.slot, e.group⟩ = some g ∧ g.bevents.length < 8 ∧ NoLates (s.core s.req.core))
    ∧ ∃ s : State, ∀ e, s.entry s.req.core s.req.index = some e → e.st ≠ .faulted ∨ e.tenant ≠ s.req.tenant :=
  ⟨⟨hearthing [(0, { entry0 with st := .faulted })] [] [], _, groupM, rfl, rfl, rfl, rfl, by decide, no_lates _ _ _⟩,
    ⟨State.reset, fun e h => by simp [State.entry, State.core, NMap.getD, NMap.find, State.reset, Core.fresh] at h⟩⟩

theorem hyp_psel : (∃ s : State, s.req.value.toNat < 64) ∧ ∃ s : State, 64 ≤ s.req.value.toNat :=
  ⟨⟨asking { Request.zero with value := 63 }, by decide⟩, ⟨asking { Request.zero with value := 64 }, by decide⟩⟩

/-- A tenant whose interface maps the window of die 0 at 2^45 of the host's addresses. -/
def tenantH : Tenant := { tenant0 with hdm := [(0, 2 ^ 45)] }
/-- A host request to the first lines of that window. -/
def hosting (r : Request) (d : NMap DirEntry) : State := { asking r with tenants := [(0, tenantH)], dir := d }
def at5 : Request := { Request.zero with ia := 2 ^ 45 + 640 }

theorem via0 : Request.zero.port = Request.zero.tenant % 2 ∧ Request.zero.func = Request.zero.tenant / 2 + 1 := by decide

theorem from_host (f : Bool) (n : Nat) (h : n < 2 ^ 38) (d : NMap DirEntry) (b m : List Nat) (x : TdiState) :
    FromHost { hosting { Request.zero with ia := 2 ^ 45 + n, flag2 := f } d with tenants := [(0, { tenantH with tdi := x })], badLines := b, macBad := m } n :=
  ⟨via0, rfl, 0, 2 ^ 45, by decide, rfl, Nat.le_add_right _ _, Nat.add_lt_add_left h _, by show n = 0 * 2 ^ 40 + (2 ^ 45 + n - 2 ^ 45); omega,
    fun e he => (Nat.not_lt_zero e he).elim⟩

theorem hyp_host_read (bad : Bool) (x : DirState) (hx : x = .inv ∨ x = .shared) : ∃ (s : State) (ia pa : Nat), FromHost s ia ∧ s.req.flag2 = false ∧ s.hostTarget s.req.tenant ia = some pa
    ∧ s.frozen (pa / 128) = false ∧ Quiet (s.dirAt (pa / 128)) ∧ (s.dirAt (pa / 128)).st = x ∧ (filterSet s (pa / 128)).length < 16
    ∧ (if bad then s.lineFault (pa / 128) ≠ none else s.lineFault (pa / 128) = none) :=
  ⟨{ hosting at5 [(5, { DirEntry.fresh with st := x })] with tenants := [(0, { tenantH with tdi := .unlocked })], badLines := if bad then [5] else [], macBad := [] }, 640, 640,
    from_host false 640 (by decide) _ _ _ _, rfl, by cases bad <;> rcases hx with rfl | rfl <;> decide +kernel, by cases bad <;> rcases hx with rfl | rfl <;> decide +kernel, ⟨rfl, rfl⟩, rfl,
    by cases bad <;> rcases hx with rfl | rfl <;> decide +kernel, by cases bad <;> rcases hx with rfl | rfl <;> decide +kernel⟩

theorem hyp_host_takes (f : Option Cause) (hf : f = none ∨ f = some .integrity ∨ f = some .uncorrectable) : ∃ (s : State) (ia pa : Nat), FromHost s ia
    ∧ s.hostTarget s.req.tenant ia = some pa ∧ s.lineFault (pa / 128) = f ∧ s.frozen (pa / 128) = false ∧ Quiet (s.dirAt (pa / 128)) ∧ (s.dirAt (pa / 128)).st = .inv
    ∧ (s.dirAt (pa / 128)).sites = 0 ∧ (filterSet s (pa / 128)).length < 16 ∧ s.markBusy (pa / 128) (lookAgain (pa / 128)) = none ∧ s.MemoryWf :=
  ⟨{ hosting at5 [] with tenants := [(0, { tenantH with tdi := .unlocked })], badLines := if f = some .uncorrectable then [5] else [], macBad := if f = some .integrity then [5] else [] },
    640, 640, from_host false 640 (by decide) _ _ _ _, by rcases hf with rfl | rfl | rfl <;> decide +kernel, by rcases hf with rfl | rfl | rfl <;> decide +kernel,
    by rcases hf with rfl | rfl | rfl <;> decide +kernel, ⟨rfl, rfl⟩, rfl, rfl, by rcases hf with rfl | rfl | rfl <;> decide +kernel,
    by rcases hf with rfl | rfl | rfl <;> decide +kernel, rfl⟩

theorem hyp_host_no_target (x : TdiState) : ∃ (s : State) (ia : Nat), FromHost s ia ∧ s.hostTarget s.req.tenant ia = none ∧ s.req.flag2 = false ∧ (s.tenant s.req.tenant).tdi = x :=
  ⟨{ hosting { Request.zero with ia := 2 ^ 45 + 2 ^ 34 } [] with tenants := [(0, { tenantH with tdi := x })], badLines := [], macBad := [] }, 2 ^ 34, from_host false (2 ^ 34) (by decide) _ _ _ _,
    by cases x <;> decide +kernel, rfl, rfl⟩

theorem hyp_host_not_mapped : (∃ s : State, s.req.flag2 = false ∧ ¬ViaInterface s)
    ∧ (∃ s : State, s.req.flag2 = false ∧ ¬∃ d hb, d < 4 ∧ NMap.find (s.tenant s.req.tenant).hdm d = some hb ∧ hb ≤ s.req.ia ∧ s.req.ia < hb + 2 ^ 38)
    ∧ ∃ s : State, s.req.flag2 = false ∧ s.pkg.ready = false ∧ ViaInterface s
      ∧ ∃ d hb, d < 4 ∧ NMap.find (s.tenant s.req.tenant).hdm d = some hb ∧ hb ≤ s.req.ia ∧ s.req.ia < hb + 2 ^ 38 :=
  ⟨⟨asking { Request.zero with func := 2 }, rfl, fun h => by cases h.2⟩, ⟨State.reset, rfl, fun ⟨d, hb, _, h, _⟩ => by simp [State.tenant, State.reset, NMap.getD, NMap.find, Tenant.fresh] at h⟩,
    ⟨{ hosting at5 [] with pkg := { Package.reset with bootstat := 4 } }, rfl, rfl, via0, 0, 2 ^ 45, by decide, rfl, by decide +kernel, by decide +kernel⟩⟩

theorem hyp_bar_read (x : TdiState) : (∃ s : State, s.req.flag2 = true ∧ ViaInterface s ∧ s.req.size = 8 ∧ s.pkg.ready = true ∧ (s.tenant s.req.tenant).tdi = x ∧ s.req.off = 0x8000)
    ∧ (∃ s : State, s.req.flag2 = true ∧ ViaInterface s ∧ s.req.size ≠ 8) ∧ (∃ s : State, s.req.flag2 = true ∧ ViaInterface s ∧ s.pkg.ready = false)
    ∧ ∃ s : State, s.req.flag2 = true ∧ ¬ViaInterface s :=
  ⟨⟨(asking { Request.zero with flag2 := true, off := 0x8000 }).setTdi 0 x, rfl, via0, rfl, rfl, rfl, rfl⟩, ⟨asking { Request.zero with flag2 := true, size := 4 }, rfl, via0, by decide⟩,
    ⟨{ asking { Request.zero with flag2 := true } with pkg := { Package.reset with bootstat := 15 } }, rfl, via0, rfl⟩,
    ⟨asking { Request.zero with flag2 := true, port := 1 }, rfl, fun h => by cases h.1⟩⟩

def answering (d : Bool) (x : DirState) (hg : Bool) (f : Bool) : State :=
  hosting { Request.zero with line := 2 ^ 26, flag := f } [(2 ^ 26, { DirEntry.fresh with st := x, sites := 64, hg := hg, bisnp := true, bisnpData := d })]

theorem dirty_ne {s : State} {pa ln q : Nat} (h : dirtyByte s pa = some q) (hq : q / 128 ≠ ln) : ∀ a, dirtyByte s pa = some a → a / 128 ≠ ln := by
  intro a ha; obtain rfl := Option.some.inj (h.symm.trans ha); exact hq

theorem answers (d : Bool) (x : DirState) (hg f : Bool) :
    NoneWaits (answering d x hg f) ∧ Quiet ((answering d x hg f).dirAt (answering d x hg f).req.line)
      ∧ (∀ a, dirtyByte (answering d x hg f) ((answering d x hg f).req.line * 128) = some a → a / 128 ≠ (answering d x hg f).req.line)
      ∧ ((answering d x hg f).dirAt (answering d x hg f).req.line).bisnp = true :=
  ⟨fun y h => by obtain rfl := List.mem_singleton.mp h; rfl, ⟨rfl, rfl⟩, dirty_ne (q := 262144) (show dirtyByte (hosting Request.zero []) (2 ^ 26 * 128) = some 262144 by decide +kernel) (by show 262144 / 128 ≠ 2 ^ 26; decide), rfl⟩

theorem hyp_birsp : (∃ s : State, (s.dirAt s.req.line).bisnp = true ∧ NoneWaits s ∧ Quiet (s.dirAt s.req.line)
      ∧ (∀ a, dirtyByte s (s.req.line * 128) = some a → a / 128 ≠ s.req.line) ∧ (s.dirAt s.req.line).bisnpData = false ∧ (s.dirAt s.req.line).st = .shared)
    ∧ (∃ s : State, (s.dirAt s.req.line).bisnp = true ∧ NoneWaits s ∧ Quiet (s.dirAt s.req.line)
      ∧ (∀ a, dirtyByte s (s.req.line * 128) = some a → a / 128 ≠ s.req.line) ∧ (s.dirAt s.req.line).bisnpData = false ∧ (s.dirAt s.req.line).st = .excl
      ∧ (s.dirAt s.req.line).hg = true ∧ s.req.flag = true ∧ s.MemoryWf ∧ s.lineFault s.req.line = none)
    ∧ ∃ s : State, (s.dirAt s.req.line).bisnp = true ∧ NoneWaits s ∧ Quiet (s.dirAt s.req.line)
      ∧ (∀ a, dirtyByte s (s.req.line * 128) = some a → a / 128 ≠ s.req.line) ∧ (s.dirAt s.req.line).bisnpData = true ∧ (s.dirAt s.req.line).st = .excl
      ∧ (s.dirAt s.req.line).hg = true ∧ s.req.flag = false := by
  have a := answers false .shared false false
  have b := answers false .excl true true
  have c := answers true .excl true false
  exact ⟨⟨_, a.2.2.2, a.1, a.2.1, a.2.2.1, rfl, rfl⟩, ⟨_, b.2.2.2, b.1, b.2.1, b.2.2.1, rfl, rfl, rfl, rfl, rfl, by decide +kernel⟩, ⟨_, c.2.2.2, c.1, c.2.1, c.2.2.1, rfl, rfl, rfl, rfl⟩⟩

/-- A write-back of some bytes of a line that cannot be read. -/
theorem hyp_birsp_bad : ∃ s : State, (s.dirAt s.req.line).bisnp = true ∧ NoneWaits s ∧ Quiet (s.dirAt s.req.line)
    ∧ (∀ a, dirtyByte s (s.req.line * 128) = some a → a / 128 ≠ s.req.line) ∧ (s.dirAt s.req.line).bisnpData = false ∧ (s.dirAt s.req.line).st = .excl
    ∧ (s.dirAt s.req.line).hg = true ∧ s.req.flag = true ∧ s.MemoryWf ∧ s.pkg.healthBase = none ∧ s.lineFault s.req.line ≠ none ∧ s.req.mask ≠ BitVec.allOnes 128 := by
  have b := answers false .excl true true
  exact ⟨{ answering false .excl true true with badLines := [2 ^ 26] }, b.2.2.2, b.1, b.2.1, b.2.2.1, rfl, rfl, rfl, rfl, rfl, rfl, by decide +kernel, by decide⟩

theorem hyp_bi_timeout : ∃ (s : State) (i : GroupId) (id : Nat) (g : Group) (l : Late), (s.dirAt s.req.line).bisnp = true
    ∧ (s.dirAt s.req.line).bisnpSince + 2 ^ 24 ≤ s.cycle ∧ (s.dirAt s.req.line).queue = [.readNew i id] ∧ (s.dirAt s.req.line).parked = []
    ∧ (∀ x ∈ s.dir, x.1 ≠ s.req.line → x.2.queue = []) ∧ NoFetchWaits s s.req.line ∧ s.pkg.healthBase = none ∧ s.group i = some g ∧ g.late id = some l :=
  ⟨{ issuing { group0 with lates := [late0] } with
      req := { Request.zero with line := 5 }, cycle := 2 ^ 24, dir := [(5, { DirEntry.fresh with bisnp := true, queue := [.readNew item0 7] })] },
    item0, 7, _, late0, rfl, by decide, rfl, rfl, fun x h hn => by
      obtain rfl := List.mem_singleton.mp h
      exact absurd rfl hn, fun kc hc kt ht kg hg kp hp => by
      obtain rfl := List.mem_singleton.mp hc
      obtain rfl := List.mem_singleton.mp ht
      obtain rfl := List.mem_singleton.mp hg
      obtain rfl := List.mem_singleton.mp hp
      exact ⟨by decide, fun h e => by cases e⟩, rfl, rfl, rfl⟩

theorem hyp_doorbell (dev : Bool) : (∃ s : State, (ViaInterface s ∧ s.req.size = 8 ∧ s.pkg.ready = true ∧ (s.tenant s.req.tenant).ownsQueue s.req.die s.req.index = true
      ∧ (s.queue (queueKey s.req.die s.req.index)).st ≠ .off ∧ (s.tenant s.req.tenant).tdi ≠ .error)
      ∧ s.qcbShut s.req.die s.req.tenant (s.queue (queueKey s.req.die s.req.index)) = none
      ∧ s.deviceFed s.req.die s.req.tenant (s.queue (queueKey s.req.die s.req.index)) = dev)
    ∧ ∃ s : State, (ViaInterface s ∧ s.req.size = 8 ∧ s.pkg.ready = true ∧ (s.tenant s.req.tenant).ownsQueue s.req.die s.req.index = true
      ∧ (s.queue (queueKey s.req.die s.req.index)).st ≠ .off ∧ (s.tenant s.req.tenant).tdi ≠ .error)
      ∧ s.qcbShut s.req.die s.req.tenant (s.queue (queueKey s.req.die s.req.index)) ≠ none :=
  ⟨⟨queueing (if dev then [⟨70, 128⟩] else []) running, ⟨via0, rfl, rfl, by cases dev <;> decide +kernel, by cases dev <;> decide +kernel, by cases dev <;> decide +kernel⟩,
      by cases dev <;> decide +kernel, by cases dev <;> decide +kernel⟩,
    ⟨{ queueing [] running with dir := [(0, { DirEntry.fresh with st := .excl, hg := true })] }, ⟨via0, rfl, rfl, by decide +kernel, by decide +kernel, by decide +kernel⟩,
      by decide +kernel⟩⟩

theorem hyp_doorbell_ignored : ∃ s : State, ¬(ViaInterface s ∧ s.req.size = 8 ∧ s.pkg.ready = true ∧ (s.tenant s.req.tenant).ownsQueue s.req.die s.req.index = true
    ∧ (s.queue (queueKey s.req.die s.req.index)).st ≠ .off ∧ (s.tenant s.req.tenant).tdi ≠ .error) :=
  ⟨asking { Request.zero with size := 4 }, fun h => by cases h.2.1⟩

theorem hyp_replay (n : Nat) (f : Bool) : ∃ s : State, s.req.flag = f
    ∧ NMap.getD s.replays (portKey (if s.req.off = 0 then 4 * s.pkg.selfDevice + s.req.die else s.req.off - 1) s.req.index) 0 = n :=
  ⟨{ asking { Request.zero with flag := f } with replays := [(portKey 0 0, n)] }, rfl, rfl⟩

theorem hyp_throttle : ∃ (s : State) (b : Nat), s.pkg.healthBase = some b ∧ s.MemoryWf ∧ (b + 32 * (s.pkg.healthCount % s.pkg.healthSize)) % 32 = 0
    ∧ s.dirAt ((b + 32 * (s.pkg.healthCount % s.pkg.healthSize)) / 128) = DirEntry.fresh ∧ s.frozen ((b + 32 * (s.pkg.healthCount % s.pkg.healthSize)) / 128) = false :=
  ⟨{ State.reset with pkg := { Package.reset with healthBase := some Config.hostBase, healthCount := 1025 } }, Config.hostBase, rfl, rfl, by decide +kernel, rfl, by decide +kernel⟩

theorem hyp_snoop : (∃ s : State, isHostLine s.req.line = true ∧ (s.dirAt s.req.line).queue = [] ∧ (s.dirAt s.req.line).st = .inv
      ∧ ∀ kc ∈ s.cores, ∀ x ∈ kc.2.hearth, x.2.pa = s.req.line → x.2.sent = false)
    ∧ (∃ s : State, isHostLine s.req.line = true ∧ (s.dirAt s.req.line).queue = [] ∧ (s.dirAt s.req.line).st = .modified ∧ (s.dirAt s.req.line).asked = false)
    ∧ ∃ s : State, isHostLine s.req.line = false :=
  ⟨⟨asking { Request.zero with line := Config.hostBase / 128 }, by decide, rfl, rfl, fun _ h => (List.not_mem_nil h).elim⟩,
    ⟨hosting { Request.zero with line := Config.hostBase / 128 } [(Config.hostBase / 128, { DirEntry.fresh with st := .modified })], by decide, by decide +kernel,
      by decide +kernel, by decide +kernel⟩, ⟨State.reset, by decide⟩⟩

theorem hyp_coppice : (∃ s : State, (∃ x, x / 192 = s.req.index / 192 ∧ x ≠ s.req.index ∧ x ∉ (s.die s.req.die).retired) ∧ s.sliceLines s.req.die s.req.index = [])
    ∧ ∃ (s : State) (ln : Nat), ln ∈ s.sliceLines s.req.die s.req.index ∧ (s.dirAt ln).unasked = true :=
  ⟨⟨asking { Request.zero with index := 575 }, ⟨384, by decide, by decide, by decide⟩, rfl⟩,
    let s := hosting Request.zero [(5, { DirEntry.fresh with st := .shared, sites := 1 })]
    ⟨{ s with req := { Request.zero with index := s.homeSlice 5 } }, 5, by decide +kernel, by decide +kernel⟩⟩

/-- A detected error somewhere, in a core with a team and a hearth entry. -/
def failing (p : ErrorPlace) : State :=
  { hearthing [(0, entry0)] [] [] with req := { Request.zero with place := p }, dir := [(5, { DirEntry.fresh with st := .shared, sites := 65 })] }

theorem hyp_errors : (∃ (s : State) (core line : Nat), s.req.place = .l1Line core line) ∧ (∃ (s : State) (line site : Nat), s.req.place = .l2Copy line site ∧ site < 7)
    ∧ (∃ (s : State) (core i : Nat), s.req.place = .tlbEntry core i)
    ∧ (∃ (s : State) (line i : Nat), s.req.place = .directoryEntry line ∧ i < 7 ∧ (s.dirAt line).sites.getLsbD i = true ∧ (s.dirAt line).invSent.getLsbD i = false)
    ∧ (∃ (s : State) (core slot : Nat) (tm : Team), s.req.place = .teamStore core slot ∧ s.team core slot = some tm)
    ∧ (∃ (s : State) (core i : Nat) (e : Entry) (tm : Team), s.req.place = .hearthEntry core i ∧ s.entry core i = some e ∧ s.team core e.slot = some tm ∧ NoLates (s.core core))
    ∧ (∃ (s : State) (line : Nat), s.req.place = .hbmLine line) ∧ (∃ (s : State) (line w : Nat), s.req.place = .macLine line ∧ 1 ≤ w ∧ w < 16 ∧ s.inWorld w (128 * line) = true)
    ∧ ∃ (s : State) (line : Nat), s.req.place = .macLine line ∧ ∀ w, 1 ≤ w → w < 16 → s.inWorld w (128 * line) = false :=
  ⟨⟨failing (.l1Line 0 5), 0, 5, rfl⟩, ⟨failing (.l2Copy 5 6), 5, 6, rfl, by decide⟩, ⟨failing (.tlbEntry 0 0), 0, 0, rfl⟩,
    ⟨failing (.directoryEntry 5), 5, 6, rfl, by decide, by decide +kernel, by decide +kernel⟩, ⟨failing (.teamStore 0 0), 0, 0, teamOf groupM, rfl, rfl⟩,
    ⟨failing (.hearthEntry 0 0), 0, 0, entry0, teamOf groupM, rfl, rfl, rfl, no_lates _ _ _⟩, ⟨failing (.hbmLine 5), 5, rfl⟩,
    ⟨{ failing (.macLine 5) with tenants := [(0, { tenant0 with entry := entrySet tenant0.entry 216 1 3 })] }, 5, 3, rfl, by decide, by decide, by decide +kernel⟩,
    ⟨{ State.reset with req := { Request.zero with place := .macLine 5 } }, 5, rfl, fun _ _ _ => rfl⟩⟩

/-! The machine. -/

/-- A split about to issue a word of a class, under a header of one word, as `withFetchWord` places it. -/
def fetched (cls w : Nat) : State := State.reset.withFetchWord 128 (cls * 2 ^ 60 + w * 2 ^ 64)
def clauseAt (cls w : Nat) : Clause := fetchClause 128 (cls * 2 ^ 60 + w * 2 ^ 64)
def splitAt (cl : Clause) : Split := { Split.boundAt cl.addr (widthMask 32) ⟨fetchDesc.extractLsb' 0 128, true⟩ .none_ 0 with clause := some cl, st := .issue }
def ctxAt (cl : Clause) : Ctx := ⟨site0, fetchTeam cl, { Group.fresh with splits := [(0, splitAt cl)] }, splitAt cl, cl⟩

theorem hyp_at_word : ∃ (s : State) (c : Ctx) (i : Instr), AtWord s c ∧ issuedWord c = .ok i :=
  ⟨fetched 1 (3 * 2 ^ 54 + 4 * 2 ^ 47 + 2), ctxAt (clauseAt 1 (3 * 2 ^ 54 + 4 * 2 ^ 47 + 2)), .sadd ⟨4, 0, 0, 1⟩, ⟨rfl, by decide +kernel, by decide +kernel⟩, by decide +kernel⟩

theorem hyp_posted : ∃ (s : State) (h : Happening) (r : List Happening), s.agenda = h :: r := ⟨State.reset.post .reset, _, _, rfl⟩
theorem hyp_no_barrier : ∃ s : State, (s.teamsWhere fun _ t => t.groups.any fun kg => kg.2.barred) = [] := ⟨issuing group0, by decide +kernel⟩

theorem hyp_illegal : ∃ (s : State) (c : Ctx), s.issuer = some c ∧ c.g.cur = none ∧ c.g.lateMarks = [] := ⟨issuing group0, _, issuer_issuing _ rfl, by decide, rfl⟩

theorem hyp_malformed (sOnly : Bool) : ∃ (s : State) (c : Ctx), AtWord s c ∧ issuedWord c = .error (.reservedField sOnly) ∧ c.g.cur = none ∧ c.g.lateMarks = [] := by
  let w := if sOnly then 22 * 2 ^ 54 + 17 * 2 + 1 else 1
  refine ⟨fetched 0 w, ctxAt (clauseAt 0 w), ?_⟩
  cases sOnly <;> exact ⟨⟨rfl, by decide +kernel, by decide +kernel⟩, by decide +kernel, by decide +kernel, rfl⟩

theorem hyp_encodes : ∃ (cls : BitVec 4) (w : W64) (i : Instr), decodeWord cls w = .ok i ∧ i.wf = true := ⟨8, 0x0000801403200210, _, rfl, by decide⟩
theorem hyp_round_trip : ∃ (i : Instr) (x : BitVec 4 × W64), i.wf = true ∧ encode i = some x := ⟨.bar 3 4, _, rfl, rfl⟩
theorem hyp_memory_form : ∃ s t : State, s.MemoryWf ∧ step s = .next t := ⟨State.reset, _, rfl, rfl⟩

/-! Single steps. -/

/-- The group after one step. -/
def groupAfter (s : State) : Option Group := match step s with | .next t => t.group ⟨0, 0, 0⟩ | _ => none

/-- R150: an addition of an immediate, from reset; the sum wraps (R11). -/
theorem test_sadd : (groupAfter (fetched 1 (3 * 2 ^ 54 + 4 * 2 ^ 47 + 0xFFFFFFFF * 2))).map (fun g => g.s 4) = some 0xFFFFFFFFFFFFFFFF := by decide +kernel

/-- R112: a nonzero reserved field raises RESERVED_FIELD (cause 0x03, R385) at the word, whose address is kept in the record. -/
theorem test_reserved_field : (groupAfter (fetched 0 1)).bind (fun g => g.pending.map fun r => (r.cause, r.word)) = some (.reservedField, 0x1008)
    ∨ (groupAfter (fetched 0 1)).bind (fun g => g.stopped.map fun r => (r.cause, r.word)) = some (.reservedField, 0x1008) := by decide +kernel

/-- R135: BRA ends the clause; the split is BOUND at h + 8 OFF. -/
theorem test_bra : (groupAfter (fetched 0 (2 ^ 54 + 0xFFFFFFFE * 2 ^ 8))).map (fun g => g.splits.map fun kp => (kp.1, kp.2.st, kp.2.pc)) = some [(0, .bound, 0xFF0)] := by
  decide +kernel

end Sys2Proof.Tests
end

section
/-! PROOF. Where a control word leaves the lanes of its split (R126, R135 to R142), and the words that write one scalar from their group's state
(R146, R392). -/
namespace Sys2Proof.Machine

/-! Tables, groups and splits. -/

theorem NMap.find_adjust_same {α : Type} {m : NMap α} {k : Nat} {v : α} (f : α → α) (h : NMap.find m k = some v) :
    NMap.find (NMap.adjust m k f) k = some (f v) := by
  simp [NMap.adjust, h]

theorem sext_toNat (v : BitVec 32) : sext 32 v.toNat = v.signExtend 64 := by
  apply BitVec.eq_of_toNat_eq
  have hv : v.toNat % 2 ^ 32 = v.toNat := Nat.mod_eq_of_lt v.isLt
  have hlt := v.isLt
  rw [BitVec.toNat_signExtend, BitVec.msb_eq_decide, BitVec.toNat_setWidth]
  unfold sext
  dsimp only
  rw [hv]
  by_cases h : v.toNat < 2 ^ (32 - 1)
  · rw [if_pos h, BitVec.toNat_ofNat, decide_eq_false (by omega)]
    simp
  · rw [if_neg h, BitVec.toNat_ofNat, decide_eq_true (by omega)]
    simp only [if_true]
    omega

@[simp] theorem Group.setS_splits (g : Group) (r : Nat) (v : W64) : (g.setS r v).splits = g.splits := by unfold Group.setS; split <;> rfl
@[simp] theorem Group.setS_lateMarks (g : Group) (r : Nat) (v : W64) : (g.setS r v).lateMarks = g.lateMarks := by
  unfold Group.setS; split <;> rfl

/-- The issuing split stands in its slot of its group. -/
theorem issuer_find {s : State} {c : Ctx} (h : s.issuer = some c) : NMap.find c.g.splits c.site.split = some c.p := by
  obtain ⟨-, hg, hp, -⟩ := issuer_group h
  have hg' : s.group c.site.g = some c.g := hg
  simpa [State.split, hg'] using hp

/-- The split that replaces another in its slot stands there. -/
theorem standing_set (g : Group) (k : Nat) {q : Split} (hq : q.Stands) : ({ g with splits := NMap.set g.splits k q } : Group).Standing q.lanes q.place q.code :=
  .inl ⟨k, q, NMap.find_set_same _ _ _, BitVec.and_not_self _, rfl, rfl, hq⟩

/-- A word that has run leaves its split at the word after it, or at the header behind the clause, whether or not it then halts (R120, R125). -/
theorem Group.advance_cases {g : Group} {c : Ctx} {p : Split} (cycle : Nat) (hp : NMap.find g.splits c.site.split = some p) (hn : c.cl.next < c.cl.count) :
    ∃ q, (g.advance c cycle).1 = ({ g with splits := NMap.set g.splits c.site.split q } : Group).normalise cycle
      ∧ q.lanes = p.lanes ∧ q.place = Claims.after c ∧ q.code = p.code ∧ q.Stands := by
  unfold Group.advance
  rw [hp]
  dsimp only
  split
  · next hend =>
    have hcount : c.cl.count = c.cl.next + 1 := Nat.le_antisymm hend hn
    refine ⟨_, rfl, rfl, ?_, rfl, fun e => by cases e⟩
    show c.cl.addr + BitVec.ofNat 64 (8 * (c.cl.count + 1)) = _
    rw [hcount]; rfl
  · split
    · exact ⟨_, rfl, rfl, rfl, rfl, fun e => by cases e⟩
    · exact ⟨_, rfl, rfl, rfl, rfl, fun e => by cases e⟩

/-! Settling a word: where its lanes stand. -/

@[simp] theorem Group.deferFaults_nil (g : Group) (c : Ctx) : g.deferFaults c [] = g := rfl

theorem lanesAt_endDebugStep {t : State} {c : Ctx} {h : Group} {l : Lanes} {a : W64} {code : Cap} (ht : t.group c.gid = some h)
    (hl : h.LanesAt l a code) : ∃ h', (t.endDebugStep c).group c.gid = some h' ∧ h'.LanesAt l a code := by
  unfold State.endDebugStep
  split
  · exact ⟨h, ht, hl⟩
  · exact ⟨_, State.group_modGroup _ ht, hl⟩

/-- A word without faults that gave its split another place. -/
theorem lanesAt_settle_taken {c : Ctx} {s : State} {g : Group} {l : Lanes} {a : W64} {code : Cap} (hg : s.group c.gid = some g)
    (hm : g.lateMarks = []) (hl : g.Standing l a code) : ∃ h, (settle c (.taken s [])).group c.gid = some h ∧ h.LanesAt l a code := by
  unfold settle settleWord
  simp only [hg, Group.deferFaults_nil, State.wordIssued_count (c := c) (cs := faultCauses []) (by decide)]
  exact lanesAt_endDebugStep (by rw [State.group_endClause, State.group_count, State.group_setGroup _ hg]) (lanesAt_normalise _ hm hl)

/-- A word without faults whose split goes on in its clause. -/
theorem lanesAt_settle_done {c : Ctx} {s : State} {g : Group} {l : Lanes} {a : W64} {code : Cap} (hg : s.group c.gid = some g)
    (hl : (g.advance c s.cycle).1.LanesAt l a code) : ∃ h, (settle c (.done s [])).group c.gid = some h ∧ h.LanesAt l a code := by
  unfold settle settleWord
  simp only [hg, Group.deferFaults_nil, State.wordIssued_count (c := c) (cs := faultCauses []) (by decide)]
  split
  · exact lanesAt_endDebugStep (by rw [State.group_endClause, State.group_count, State.group_setGroup _ hg]) hl
  · exact lanesAt_endDebugStep (by rw [State.group_count, State.group_setGroup _ hg]) hl

theorem After.of_keeps {c : Ctx} {s u : State} {g h : Group} (hk : g.Keeps h) (ha : After c s h u) : After c s g u := by
  obtain ⟨ho, x, hx, hregs, hsp⟩ := ha
  exact ⟨ho, x, hx, hk.1.trans hregs, fun e => (hsp e).trans hk.2⟩

/-! One target of a transfer: a FREE slot takes it, or the overflow set (R126). -/

theorem Group.placeDests_one (g : Group) (cycle : Nat) (halted : Bool) (d : Dest) :
    (∃ i, NMap.find g.splits i = none ∧ g.placeDests cycle halted [d]
        = { g with splits := NMap.set g.splits i (Split.boundAt d.pc d.lanes d.code d.landing cycle) })
      ∨ g.placeDests cycle halted [d] = { g with overflow := g.overflow ++ [⟨d.lanes, d.pc, d.code, d.landing, cycle, none⟩] } := by
  unfold Group.placeDests
  cases hf : g.freeSlot with
  | none => exact .inr rfl
  | some i =>
    have hfree := List.find?_some hf
    exact .inl ⟨i, by simpa using hfree, rfl⟩

theorem Group.keeps_placeDests_one (g : Group) (cycle : Nat) (halted : Bool) (d : Dest) : g.Keeps (g.placeDests cycle halted [d]) := by
  rcases g.placeDests_one cycle halted d with ⟨i, -, e⟩ | e <;> rw [e]
  · exact g.keeps_splits _
  · exact ⟨⟨rfl, rfl, rfl, rfl, rfl, rfl, rfl, rfl, rfl, rfl⟩, rfl⟩

theorem Group.lateMarks_placeDests_one (g : Group) (cycle : Nat) (halted : Bool) (d : Dest) :
    (g.placeDests cycle halted [d]).lateMarks = g.lateMarks := by
  rcases g.placeDests_one cycle halted d with ⟨i, -, e⟩ | e <;> rw [e]

theorem Group.find_placeDests_one {g : Group} {k : Nat} {p : Split} (cycle : Nat) (halted : Bool) (d : Dest) (h : NMap.find g.splits k = some p) :
    NMap.find (g.placeDests cycle halted [d]).splits k = some p := by
  rcases g.placeDests_one cycle halted d with ⟨i, hi, e⟩ | e <;> rw [e]
  · have hne : i ≠ k := by rintro rfl; rw [hi] at h; cases h
    exact (NMap.find_set_other _ _ _ _ hne).trans h
  · exact h

/-- The placed lanes stay at their target when the split of another, taken slot is replaced. -/
theorem Group.standing_placeDests_one {g : Group} {k : Nat} {p : Split} (cycle : Nat) (halted : Bool) (d : Dest) (q : Split)
    (h : NMap.find g.splits k = some p) : ({ g.placeDests cycle halted [d] with
      splits := NMap.set (g.placeDests cycle halted [d]).splits k q } : Group).Standing d.lanes d.pc d.code := by
  rcases g.placeDests_one cycle halted d with ⟨i, hi, e⟩ | e <;> rw [e]
  · have hne : k ≠ i := by rintro rfl; rw [hi] at h; cases h
    exact .inl ⟨i, _, (NMap.find_set_other _ _ _ _ hne).trans (NMap.find_set_same _ _ _), BitVec.and_not_self _, rfl, rfl, fun e => by cases e⟩
  · exact .inr ⟨_, List.mem_append_right _ (List.mem_singleton_self _), BitVec.and_not_self _, rfl, rfl⟩

/-- BRV's division of its split, as the group sees it (R137): the lanes `t` leave for the target, the others stay. -/
def Ctx.branchLanes (c : Ctx) (cycle : Nat) (t : Lanes) (target : W64) (g : Group) : Group :=
  ({ g with splits := NMap.adjust g.splits c.site.split fun p => { p with lanes := p.lanes &&& ~~~t } } : Group).placeDests cycle g.halted
    [⟨t, target, c.p.code, .none_⟩]

section
variable {c : Ctx} {g : Group} (cycle : Nat) (t : Lanes) (target : W64)

theorem Ctx.keeps_branchLanes : g.Keeps (c.branchLanes cycle t target g) :=
  (g.keeps_splits _).trans (Group.keeps_placeDests_one _ _ _ _)

theorem Ctx.lateMarks_branchLanes : (c.branchLanes cycle t target g).lateMarks = g.lateMarks := Group.lateMarks_placeDests_one _ _ _ _

theorem Ctx.find_branchLanes (h : NMap.find g.splits c.site.split = some c.p) :
    NMap.find (c.branchLanes cycle t target g).splits c.site.split = some { c.p with lanes := c.p.lanes &&& ~~~t } :=
  Group.find_placeDests_one _ _ _ (NMap.find_adjust_same _ h)

theorem Ctx.standing_branchLanes (h : NMap.find g.splits c.site.split = some c.p) (q : Split) :
    ({ c.branchLanes cycle t target g with splits := NMap.set (c.branchLanes cycle t target g).splits c.site.split q } : Group).Standing
      t target c.p.code :=
  Group.standing_placeDests_one _ _ ⟨t, target, c.p.code, .none_⟩ q (NMap.find_adjust_same _ h)

end

/-! The values that SPLITS and SGET read. -/

/-- The summary of the splits, with each flag by the emptiness that clears it (R146). -/
theorem splitsValue_summary (c : Ctx) : splitsValue c 1 = BitVec.ofNat 64 (c.g.splits.length + 8 * c.site.split
    + (if c.g.overflow = [] then 0 else 32) + (if c.g.stopped = none then 0 else 64) + (if c.g.pending = none then 0 else 128)) := by
  unfold splitsValue Group.nsplits
  rw [Nat.mul_comm]
  cases c.g.overflow <;> cases c.g.stopped <;> cases c.g.pending <;> rfl

theorem splitsValue_stopped (c : Ctx) (n : Nat) : splitsValue c (n + 3) = (c.g.stopped.map Record.lanes).getD 0 := rfl

end Sys2Proof.Machine

namespace Sys2Proof.Claims
open Sys2Proof.Machine

/-- A word of levels K and S completes as its text settles. -/
theorem runs_of_settle {i : Instr} {s : State} {c : Ctx} {m : MField} {body : Ctx → State → WordOut} {P : State → Prop} (hi : s.issuer = some c)
    (he : exec i s = runWord false m body s) (h : P (settle c (body c s))) : Runs i s P :=
  ⟨_, he.trans (runWord_issuer hi m body), h⟩

/-- The registers that a statement lists pass the check of the word that reads them. -/
theorem checkScalars_of_full {c : Ctx} {rs : List SReg} (h : ScalarsFull c.g rs) : c.checkScalars (rs.map BitVec.toNat) = .ok () :=
  checkScalars_ok fun r hr => by
    obtain ⟨x, hx, rfl⟩ := List.mem_map.mp hr
    exact h x hx

theorem target_eq_directTarget (c : Ctx) (off : BitVec 32) : c.target off = directTarget c off := by
  rw [Ctx.target, directTarget, sext_toNat]

section
variable {s : State} {c : Ctx} (hi : s.issuer = some c)
include hi

/-- A word that changes nothing leaves its split behind the word. -/
theorem goes_goOn (hm : c.g.lateMarks = []) : Goes c s c.g c.p.lanes (after c) c.p.code (settle c (goOn s)) := by
  obtain ⟨-, hg, -, -, -, hn⟩ := issuer_group hi
  obtain ⟨q, hadv, hl, hpl, hc, hst⟩ := Group.advance_cases s.cycle (issuer_find hi) hn
  refine ⟨settle_same hi [] (by decide), lanesAt_settle_done hg ?_⟩
  rw [hadv, ← hl, ← hpl, ← hc]
  exact lanesAt_normalise _ hm (standing_set _ _ hst)

/-- A transfer takes the whole split to its target (R126), from a state in which the word has written its group alone. -/
theorem goes_transfer {s1 : State} {g : Group} (k : OnlyGroup c.gid s s1) (hg : s1.group c.gid = some g)
    (hs : g.splits = c.g.splits) (hm : g.lateMarks = []) (pc : W64) (code : Cap) (ld : Landing) :
    Goes c s g c.p.lanes pc code (settle c (.taken (c.transfer s1 pc code ld) [])) := by
  have hp : NMap.find g.splits c.site.split = some c.p := hs ▸ issuer_find hi
  have hg' := State.group_modGroup (fun g => { g with splits := NMap.adjust g.splits c.site.split fun p =>
    { (p.toHeader pc ld s1.cycle) with code := code, dbgStep := false } }) hg
  refine ⟨.of_keeps (g.keeps_splits _) (settle_taken [] (by decide) (k.trans (.modGroup _ _ _)) hg'), lanesAt_settle_taken hg' hm ?_⟩
  exact .inl ⟨_, _, NMap.find_adjust_same _ hp, BitVec.and_not_self _, rfl, rfl, fun e => by cases e⟩

/-- A direct transfer keeps the code capability (R98). -/
theorem goes_goTo (hm : c.g.lateMarks = []) (pc : W64) : Goes c s c.g c.p.lanes pc c.p.code (settle c (c.goTo s pc)) :=
  goes_transfer hi (.refl _ s) (issuer_group hi).2.1 rfl hm pc c.p.code .none_

/-- A branch goes to its target where its test holds, and on behind the word where it does not (R136). -/
theorem goes_branchIf {a : SReg} (off : BitVec 32) (test : Ctx → W64 → Bool) (hf : ScalarsFull c.g [a]) (hm : c.g.lateMarks = []) :
    Goes c s c.g c.p.lanes (if test c (c.g.s a.toNat) then directTarget c off else after c) c.p.code (settle c (branchIf a off test c s)) := by
  have hok : c.checkScalars [a.toNat] = .ok () := checkScalars_of_full hf
  rw [branchIf, hok, guardW_ok]
  split
  · rw [target_eq_directTarget]; exact goes_goTo hi hm _
  · exact goes_goOn hi hm

/-- YIELD takes its split to the next header as an eligible one (R142). -/
theorem goes_yield (hm : c.g.lateMarks = []) : Goes c s c.g c.p.lanes (linkOf c) c.p.code
    (settle c (.taken ((c.transfer s c.cl.nextHeader c.p.code .none_).modSplit c.site fun p => { p with eligible := true }) [])) := by
  have hg := State.group_modGroup (fun g => { g with splits := NMap.adjust g.splits c.site.split fun p =>
    { (p.toHeader c.cl.nextHeader .none_ s.cycle) with code := c.p.code, dbgStep := false } }) (issuer_group hi).2.1
  have hg' := State.group_modGroup (fun g => { g with splits := NMap.adjust g.splits c.site.split fun p => { p with eligible := true } }) hg
  refine ⟨.of_keeps ((c.g.keeps_splits _).trans (Group.keeps_splits _ _))
    (settle_taken [] (by decide) ((OnlyGroup.modGroup s _ _).trans (.modGroup _ _ _)) hg'), lanesAt_settle_taken hg' hm ?_⟩
  exact .inl ⟨_, _, NMap.find_adjust_same _ (NMap.find_adjust_same _ (issuer_find hi)), BitVec.and_not_self _, rfl, rfl, fun e => by cases e⟩

/-- CALL writes the link before it goes to its target (R139). -/
theorem goes_call (off : BitVec 32) (hm : c.g.lateMarks = []) : Goes c s (c.g.setS 126 (linkOf c)) c.p.lanes (directTarget c off) c.p.code
    (settle c (c.goTo (s.modGroup c.gid fun g => g.setS 126 c.link) (c.target off))) := by
  rw [target_eq_directTarget]
  exact goes_transfer hi (.modGroup s _ _) (State.group_modGroup _ (issuer_group hi).2.1) (Group.setS_splits _ _ _)
    ((Group.setS_lateMarks _ _ _).trans hm) _ _ .none_

/-- BRV with lanes on both sides: each side goes its way (R137). -/
theorem goes_branchLanes (t : Lanes) (target : W64) (hm : c.g.lateMarks = []) :
    let u := settle c (.done ((s.modGroup c.gid (c.branchLanes s.cycle t target)).count c.core c.team.tenant 4 1) [])
    Goes c s c.g t target c.p.code u ∧ Goes c s c.g (c.p.lanes &&& ~~~t) (after c) c.p.code u := by
  intro u
  obtain ⟨-, hg, -, -, -, hn⟩ := issuer_group hi
  have hg' : ((s.modGroup c.gid (c.branchLanes s.cycle t target)).count c.core c.team.tenant 4 1).group c.gid
      = some (c.branchLanes s.cycle t target c.g) := by rw [State.group_count, State.group_modGroup _ hg]
  have hm' : (c.branchLanes s.cycle t target c.g).lateMarks = [] := (c.lateMarks_branchLanes _ _ _).trans hm
  have hframe : After c s c.g u := .of_keeps (c.keeps_branchLanes _ _ _)
    (settle_done [] (by decide) ((OnlyGroup.modGroup s _ _).trans (.count _ _ _ _ _ _)) hg')
  obtain ⟨q, hadv, hl, hpl, hc, hst⟩ := Group.advance_cases (State.cycle _) (c.find_branchLanes s.cycle t target (issuer_find hi)) hn
  have hlanes : q.lanes = c.p.lanes &&& ~~~t := hl
  have hcode : q.code = c.p.code := hc
  refine ⟨⟨hframe, lanesAt_settle_done hg' ?_⟩, hframe, lanesAt_settle_done hg' ?_⟩
  · rw [hadv]
    exact lanesAt_normalise _ hm' (c.standing_branchLanes s.cycle t target (issuer_find hi) q)
  · rw [hadv, ← hpl, ← hlanes, ← hcode]
    exact lanesAt_normalise _ hm' (standing_set _ _ hst)

/-- A word that writes one scalar, once its register is full. -/
theorem after_writeScalar {d : SReg} (v : W64) (hf : ScalarsFull c.g [d]) : After c s (c.g.setS d.toNat v)
    (settle c (guardW (c.checkScalars [d.toNat]) c 0 s (.done (s.modGroup c.gid fun g => g.setS d.toNat v) []))) := by
  have hok : c.checkScalars [d.toNat] = .ok () := checkScalars_of_full hf
  rw [hok, guardW_ok]
  exact settle_modGroup hi (fun g => g.setS d.toNat v) [] (by decide)

end

/-- Settles O11: the words transfer the whole split (`goes_transfer`) or leave it behind the word (`goes_goOn`). -/
theorem directTransfersMoveTheirSplit : Obligations.DirectTransfersMoveTheirSplit := by
  unfold Obligations.DirectTransfersMoveTheirSplit
  intro i s c rs ok g a code hi hrow hok hf hm
  cases i with
  | nop =>
    cases hrow
    refine runs_of_settle hi (by rfl) ?_
    exact goes_goOn hi hm
  | bra off =>
    cases hrow
    refine runs_of_settle hi (by rfl) ?_
    rw [target_eq_directTarget]
    exact goes_goTo hi hm _
  | brz a off =>
    cases hrow
    refine runs_of_settle hi (by rfl) ?_
    simpa using goes_branchIf hi off (fun _ v => v == 0) hf hm
  | brnz a off =>
    cases hrow
    refine runs_of_settle hi (by rfl) ?_
    simpa using goes_branchIf hi off (fun _ v => v != 0) hf hm
  | mskip a off =>
    cases hrow
    refine runs_of_settle hi (by rfl) ?_
    simpa using goes_branchIf hi off (fun c v => v &&& c.p.lanes == 0) hf hm
  | call off =>
    cases hrow
    have hchk : c.checkScalars [126] = .ok () := checkScalars_of_full hf
    refine runs_of_settle hi (by rfl) ?_
    rw [hchk, guardW_ok]
    exact goes_call hi off hm
  | ret a =>
    cases hrow
    have hchk : c.checkScalars [a.toNat] = .ok () := checkScalars_of_full hf
    have halign := of_decide_eq_true hok
    refine runs_of_settle hi (by rfl) ?_
    rw [retWord, hchk, guardW_ok, if_neg (not_not.mpr halign)]
    exact goes_goTo hi hm _
  | retX =>
    cases hrow
    have hchk : c.checkScalars [124, 125] = .ok () := checkScalars_of_full hf
    obtain ⟨htag, hkind⟩ : (c.g.sc 124).tag = true ∧ (c.g.sc 124).kind = 2 := by simpa using hok
    refine runs_of_settle hi (by rfl) ?_
    simp only [retXWord, hchk, guardW_ok, htag, hkind, Bool.not_true, Bool.false_eq_true, if_false, ne_eq, not_true_eq_false]
    exact goes_transfer hi (.refl _ s) (issuer_group hi).2.1 rfl hm _ _ .none_
  | yield =>
    cases hrow
    refine runs_of_settle hi (by rfl) ?_
    exact goes_yield hi hm
  | _ => cases hrow

/-- Settles O12: no lane, every lane or some lanes of the split branch. -/
theorem brvDividesItsSplit : Obligations.BrvDividesItsSplit := by
  unfold Obligations.BrvDividesItsSplit
  intro a off s c hi hf hm t
  have hchk : c.checkScalars [a.toNat] = .ok () := checkScalars_of_full hf
  refine runs_of_settle hi (by rfl) ?_
  rw [brvWord, hchk, guardW_ok]
  dsimp only
  by_cases hnone : t = 0
  · rw [if_pos (beq_iff_eq.mpr hnone)]
    refine ⟨fun h => absurd hnone h, fun _ => ?_⟩
    have hstay : c.p.lanes &&& ~~~t = c.p.lanes := by rw [hnone]; exact BitVec.and_allOnes
    rw [hstay]
    exact goes_goOn hi hm
  rw [if_neg (fun h => hnone (beq_iff_eq.mp h))]
  by_cases hall : t = c.p.lanes
  · rw [if_pos (beq_iff_eq.mpr hall)]
    refine ⟨fun _ => ?_, fun h => absurd (by rw [hall]; exact BitVec.and_not_self _) h⟩
    rw [hall, target_eq_directTarget]
    exact goes_goTo hi hm _
  · rw [if_neg (fun h => hall (beq_iff_eq.mp h))]
    obtain ⟨hbranch, hstay⟩ := goes_branchLanes hi t (c.target off) hm
    exact ⟨fun _ => target_eq_directTarget c off ▸ hbranch, fun _ => hstay⟩

/-- Settles O16: both words write one full scalar (`after_writeScalar`). -/
theorem splitsAndSgetReadState : Obligations.SplitsAndSgetReadState := by
  unfold Obligations.SplitsAndSgetReadState
  intro d s c hi hf
  refine ⟨fun var => ?_, fun r v hv => ?_⟩
  · have hrun : ∀ v, splitsValue c var.toNat = v → Runs (.splits d var) s (After c s (c.g.setS d.toNat v)) := by
      rintro _ rfl
      refine runs_of_settle hi (by rfl) ?_
      exact after_writeScalar hi _ hf
    apply hrun
    generalize var.toNat = n
    match n with
    | 0 => rfl
    | 1 => exact splitsValue_summary c
    | 2 => rfl
    | n + 3 => rw [splitsValue_stopped]; cases c.g.stopped <;> rfl
  · have hval : specialValue s c r.toNat = v := by
      unfold specialValue State.specialOf
      generalize r.toNat = n at hv ⊢
      split at hv
      rotate_right
      · exact hv.elim
      all_goals exact hv.symm
    subst hval
    refine runs_of_settle hi (by rfl) ?_
    exact after_writeScalar hi _ hf

end Sys2Proof.Claims
end

section
/-! PROOF. The words that move lanes, votes and index registers (R153 to R161): the checks that they share, the words of an operand, the lanes
that resolve one, and what each leaves. -/
namespace Sys2Proof.Machine

/-! Checks: a direct operand that passes the checks of a source or a destination is placed (R105, R112). -/

/-- A direct operand is aligned and lies below REGS (R105). -/
def Ctx.Fits (c : Ctx) (x : VField × Nat) : Prop := misaligned x.1 x.2 = false ∧ c.outOfRange x.1 x.2 = false

theorem Ctx.placed_ok {c : Ctx} {ops : List (VField × Nat)} (h : ∀ x ∈ ops, c.Fits x) : c.placed ops = .ok () := by
  have haligned : (ops.any fun x => misaligned x.1 x.2) = false := List.any_eq_false.mpr fun x hx => by simp [(h x hx).1]
  have hrange : (ops.any fun x => c.outOfRange x.1 x.2) = false := List.any_eq_false.mpr fun x hx => by simp [(h x hx).2]
  simp [Ctx.placed, haligned, hrange]

theorem Ctx.fits_of_checkDst {c : Ctx} {ls : List Nat} {d : VField} {n : Nat} (h : c.checkDst ls d n = .ok ()) : c.Fits (d, n) := by
  unfold Ctx.checkDst at h
  split at h
  · cases h
  · next haligned =>
    split at h
    · cases h
    · next hrange => exact ⟨eq_false_of_ne_true haligned, eq_false_of_ne_true hrange⟩

theorem Ctx.fits_of_checkBits {c : Ctx} {ls : List Nat} {srcs : List Src} (h : c.checkBits ls srcs = .ok ()) {x : Src} (hx : x ∈ srcs) :
    c.Fits (x.f, x.n.getD 1) := by
  unfold Ctx.checkBits at h
  split at h
  · cases h
  · next haligned =>
    split at h
    · cases h
    · next hrange =>
      exact ⟨eq_false_of_ne_true fun e => haligned (List.any_eq_true.mpr ⟨x, hx, e⟩),
        eq_false_of_ne_true fun e => hrange (List.any_eq_true.mpr ⟨x, hx, e⟩)⟩

theorem Ctx.placed_singleton {c : Ctx} {x : VField × Nat} (h : c.Fits x) : c.placed [x] = .ok () :=
  placed_ok fun _ hy => List.mem_singleton.mp hy ▸ h

/-! The words of an operand. -/

theorem Ctx.read_one (c : Ctx) (r l : Nat) : c.read r 1 l = (c.g.lane r l).toNat := by
  simp [Ctx.read, joinWords]

theorem Ctx.read_two (c : Ctx) (r l : Nat) : c.read r 2 l = (c.g.lane r l).toNat + 2 ^ 32 * (c.g.lane (r + 1) l).toNat := by
  simp [Ctx.read, joinWords, List.range_succ]

theorem ofNat_pair (lo hi : W32) : BitVec.ofNat 64 (lo.toNat + 2 ^ 32 * hi.toNat) = hi ++ lo := by
  apply BitVec.eq_of_toNat_eq
  have hsum : lo.toNat + 2 ^ 32 * hi.toNat < 2 ^ 64 := by have := lo.isLt; have := hi.isLt; omega
  rw [BitVec.toNat_ofNat, Nat.mod_eq_of_lt hsum, BitVec.toNat_append, ← Nat.shiftLeft_add_eq_or_of_lt lo.isLt, Nat.shiftLeft_eq]
  omega

/-- One lane's operand of one word or a pair, as a scalar receives it (R156). -/
theorem ofNat_read_lane (c : Ctx) (r l : Nat) (sz : Bool) : BitVec.ofNat 64 (c.read r (if sz then 2 else 1) l)
    = if sz then c.g.lane (r + 1) l ++ c.g.lane r l else (c.g.lane r l).setWidth 64 := by
  cases sz with
  | false => exact (congrArg _ (c.read_one r l)).trans (BitVec.ofNat_toNat ..)
  | true => exact (congrArg _ (c.read_two r l)).trans (ofNat_pair ..)

/-- The lower word of a scalar. -/
theorem ofNat_lowWord (v : W64) : BitVec.ofNat 32 (v.toNat / 2 ^ (32 * 0)) = v.setWidth 32 := by
  rw [Nat.mul_zero, Nat.pow_zero, Nat.div_one, BitVec.ofNat_toNat]

/-- The upper word of a scalar. -/
theorem ofNat_highWord (v : W64) : BitVec.ofNat 32 (v.toNat / 2 ^ (32 * 1)) = v.extractLsb' 32 32 := by
  apply BitVec.eq_of_toNat_eq
  rw [BitVec.toNat_ofNat, BitVec.extractLsb'_toNat, Nat.shiftRight_eq_div_pow]

section
variable (g : Group) (r n l v : Nat)

/-- Writing a lane's result leaves word j of it in the result's register j. -/
theorem Group.lane_writeLanes_laneWrites {j : Nat} (hj : j < n) :
    (g.writeLanes (laneWrites r n l v)).lane (r + j) l = BitVec.ofNat 32 (v / 2 ^ (32 * j)) :=
  Group.lane_writeLanes _ g (mem_laneWrites.mpr ⟨j, hj, rfl⟩) (laneWrites_pairwise r n l v)

theorem Group.lane_writeLanes_laneWrites_other {q k : Nat} (h : ∀ j < n, ¬(r + j = q ∧ l = k)) :
    (g.writeLanes (laneWrites r n l v)).lane q k = g.lane q k :=
  Group.lane_writeLanes_other _ g q k fun x hx => by
    obtain ⟨j, hj, rfl⟩ := mem_laneWrites.mp hx
    exact h j hj

end

/-! The lanes that resolve an operand, and the lanes of a set. -/

theorem Ctx.laneValues_fst (c : Ctx) (ls : List Nat) (a : VField) (n : Nat) : (c.laneValues ls a n).1 = Claims.laneBits c ls a n := by
  suffices h : ∀ acc : List (Nat × Nat) × List LaneFault, (ls.foldl (fun acc l => match c.regAt a n l with
      | some r => (acc.1 ++ [(l, c.read r n l)], acc.2)
      | none => (acc.1, acc.2 ++ [(l, .indexWindow, 0)])) acc).1 = acc.1 ++ Claims.laneBits c ls a n from h ([], [])
  unfold Claims.laneBits
  induction ls with
  | nil => simp
  | cons l ls ih =>
    intro acc
    rw [List.foldl_cons, ih]
    cases h : c.regAt a n l with
    | none => simp [h]
    | some r => simp [h]

/-- A lane that resolves no register faults with INDEX_WINDOW, and with nothing else (R104). -/
theorem Ctx.integrity_notMem_laneValues (c : Ctx) (ls : List Nat) (a : VField) (n : Nat) :
    Cause.integrity ∉ faultCauses (c.laneValues ls a n).2 := by
  unfold Ctx.laneValues
  refine List.foldlRecOn (motive := fun acc : List (Nat × Nat) × List LaneFault => Cause.integrity ∉ faultCauses acc.2) ls _ (by simp [faultCauses])
    fun acc h l _ => ?_
  cases c.regAt a n l with
  | some r => exact h
  | none => simpa [faultCauses] using h

theorem getLsbD_lanesMask (ls : List Nat) {k : Nat} (hk : k < 64) : (lanesMask ls).getLsbD k = decide (k ∈ ls) := by
  suffices h : ∀ m : Lanes, (ls.foldl (fun m l => m ||| (1#64 <<< l)) m).getLsbD k = (m.getLsbD k || decide (k ∈ ls)) by
    exact (h 0).trans (by simp)
  induction ls with
  | nil => simp
  | cons l ls ih =>
    intro m
    have hbit : (1#64 <<< l).getLsbD k = decide (k = l) := by
      rw [BitVec.getLsbD_shiftLeft, BitVec.getLsbD_one]
      by_cases h : k = l
      · simp [h, h ▸ hk]
      · simp [hk, h]; omega
    rw [List.foldl_cons, ih, BitVec.getLsbD_or, hbit]
    simp [Bool.or_assoc]

/-! Votes (R157). -/

/-- The vote of lanes with their bits: any lane, every lane, or the lanes themselves. -/
def voteOf (opr : BitVec 2) (vs : List (Nat × Nat)) : W64 :=
  match opr.toNat with
  | 0 => if vs.any fun x => x.2 != 0 then 1 else 0
  | 1 => if vs.all fun x => x.2 != 0 then 1 else 0
  | _ => lanesMask ((vs.filter fun x => x.2 != 0).map Prod.fst)

section
variable (vs : List (Nat × Nat))

theorem voteOf_any : voteOf 0 vs = if ∃ x ∈ vs, x.2 ≠ 0 then 1 else 0 := by
  show (if vs.any (fun x => x.2 != 0) then (1 : W64) else 0) = _
  simp only [List.any_eq_true, bne_iff_ne]

theorem voteOf_all : voteOf 1 vs = if ∀ x ∈ vs, x.2 ≠ 0 then 1 else 0 := by
  show (if vs.all (fun x => x.2 != 0) then (1 : W64) else 0) = _
  simp only [List.all_eq_true, bne_iff_ne]

theorem getLsbD_voteOf_ballot {l : Nat} (hl : l < 64) : (voteOf 2 vs).getLsbD l = decide (∃ x ∈ vs, x.1 = l ∧ x.2 ≠ 0) := by
  show (lanesMask ((vs.filter fun x => x.2 != 0).map Prod.fst)).getLsbD l = _
  rw [getLsbD_lanesMask _ hl, decide_eq_decide, List.mem_map]
  simp only [List.mem_filter, bne_iff_ne, and_assoc, and_comm (a := _ ≠ 0)]

end

/-! Vector results. -/

/-- A vector result rests on the words and the flags of its rule alone. -/
theorem VectorResult.of_words {c : Ctx} {s u : State} {ls : List Nat} {ops : List (VField × Nat)} {d : VField} {n : Nat} {t : FTag}
    {f f' : LaneRule} (h : VectorResult c s ls ops d n t f u) (hflags : ∀ l xs o, (f l xs o).flags = (f' l xs o).flags)
    (hwords : ∀ l xs o, ∀ j < n, BitVec.ofNat 32 ((f l xs o).bits / 2 ^ (32 * j)) = BitVec.ofNat 32 ((f' l xs o).bits / 2 ^ (32 * j))) :
    VectorResult c s ls ops d n t f' u := by
  unfold VectorResult at h ⊢
  simp only [List.forall_mem_map, List.foldl_map, hflags] at h ⊢
  obtain ⟨g, hafter, hres, hrest⟩ := h
  refine ⟨g, hafter, fun x hx j hj => ?_, hrest⟩
  rw [← hwords _ _ _ j hj]
  exact hres x hx j hj

/-- A vector word without sources writes what its plan gives, once its mask and destination pass their checks. -/
theorem vectorWord_noSources {c : Ctx} {m : MField} {d : VField} {plan : Ctx → List FTag → Except Cause VPlan} {p : VPlan} (s : State)
    (hplan : plan c [] = .ok p) (hm : c.checkScalars [m.toNat] = .ok ()) (hd : c.checkDst (c.lanes m) d p.rtag.regs = .ok ()) :
    vectorWord m [] d [] plan c s = vectorResult c s m d p.rtag.regs p.rtag (c.compute (c.lanes m) [] d p).1 (c.compute (c.lanes m) [] d p).2 := by
  have hregs : planRegs plan c [] = p.rtag.regs := by simp [planRegs, hplan]
  have hplaced : c.placedBy (c.lanes m) [] (some d) (planRegs plan c) = .ok () := by
    show c.placed [(d, planRegs plan c [])] = .ok ()
    rw [hregs]
    exact Ctx.placed_singleton (Ctx.fits_of_checkDst hd)
  have hsrcs : c.checkSrcs (c.lanes m) [] = .ok [] := rfl
  have hresolved : c.unresolved (c.lanes m) [] = false := rfl
  simp only [vectorWord, hplaced, List.map_nil, hm, guardW_ok, hsrcs, hresolved, Bool.false_eq_true, if_false, hplan, hd, List.zip_nil_left]

end Sys2Proof.Machine

namespace Sys2Proof.Claims
open Sys2Proof.Machine

/-- A mask field names the scalar of its number. -/
theorem mask_toNat (m : MField) : (m.setWidth 7 : SReg).toNat = m.toNat := by
  have := m.isLt
  simp only [BitVec.toNat_setWidth]; omega

/-- A move between lanes whose registers pass their checks (R153, R155); `f` gives the words of the row. -/
theorem vectorResult_move {s : State} {c : Ctx} (r : MoveRow) (f : Ctx → Nat → List Nat → Nat) (hi : s.issuer = some c)
    (hs : ScalarsFull c.g (r.scalars ++ [r.m.setWidth 7]))
    (hb : BitsOk c (c.lanes r.m) (⟨r.a, r.wa, some 1⟩ :: r.others.map fun x => ⟨x.1, x.2, some 1⟩))
    (hd : c.checkDst (c.lanes r.m) r.d 1 = .ok ()) (hf : ∀ l xs, BitVec.ofNat 32 (f c l xs) = r.word c l xs) :
    VectorResult c s (c.lanes r.m) (r.others.map fun x => (x.1, 1)) r.d 1 (c.g.v r.a.toNat).tag (r.rule c)
      (settle c (moveWord r.m r.scalars r.d r.a r.wa r.others f c s)) := by
  have hplaced : c.placed ((r.a, 1) :: (r.others.map fun x => (x.1, 1)) ++ [(r.d, 1)]) = .ok () := by
    refine Ctx.placed_ok fun x hx => ?_
    rcases List.mem_append.mp hx with hx | hx
    · rcases List.mem_cons.mp hx with rfl | hx
      · exact Ctx.fits_of_checkBits hb (List.mem_cons_self ..)
      · obtain ⟨y, hy, rfl⟩ := List.mem_map.mp hx
        exact Ctx.fits_of_checkBits hb (List.mem_cons_of_mem _ (List.mem_map_of_mem hy))
    · exact List.mem_singleton.mp hx ▸ Ctx.fits_of_checkDst hd
  have hscalars : c.checkScalars (r.m.toNat :: r.scalars.map BitVec.toNat) = .ok () := by
    rw [← mask_toNat]
    exact checkScalars_of_full (rs := r.m.setWidth 7 :: r.scalars) fun x hx => hs x (by simpa [or_comm] using hx)
  have hbits : c.checkBits (c.lanes r.m) (⟨r.a, r.wa, some 1⟩ :: r.others.map fun x => ⟨x.1, x.2, some 1⟩) = .ok () := hb
  have hops : (r.others.map fun x => (⟨x.1, x.2, some 1⟩ : Src)).map (fun x => (x.f, 1)) = r.others.map fun x => (x.1, 1) := by
    rw [List.map_map]; rfl
  simp only [moveWord, hplaced, hscalars, hbits, hd, guardW_ok, hops]
  refine VectorResult.of_words (vector_core hi r.m _ r.d ⟨.raw, fun l xs _ => ⟨f c l xs, 0⟩⟩ _ fun _ _ b _ _ => Nat.zero_testBit b)
    (fun _ _ _ => rfl) fun l xs _ j hj => ?_
  obtain rfl : j = 0 := Nat.lt_one_iff.mp hj
  simp only [MoveRow.rule, ← hf, Nat.mul_zero, Nat.pow_zero, Nat.div_one, BitVec.ofNat_toNat, BitVec.setWidth_eq]

/-- A count in range passes the test of VSHUP and VSHDN (R154). -/
theorem shiftCount_inRange {n : BitVec 6} {w : Nat} (h : 0 < n.toNat ∧ n.toNat < w) : ¬(n = 0 || decide (w ≤ n.toNat)) = true := by
  obtain ⟨hpos, hlt⟩ := h
  have hn : ¬n = 0#6 := by rintro rfl; exact absurd hpos (by decide)
  simp [hn, hlt]

/-- Settles O5: each of the five words is a move (`vectorResult_move`) once its count is in range. -/
theorem laneMovesCopyWords : Obligations.LaneMovesCopyWords := by
  unfold Obligations.LaneMovesCopyWords
  intro i s c r hrow hi hs hrange hb hd
  cases i with
  | vshfl o =>
    cases hrow
    refine runs_of_settle hi (by rfl) ?_
    exact vectorResult_move _ _ hi hs hb hd fun l xs => by simp
  | vshflx o k =>
    cases hrow
    refine runs_of_settle hi (by rfl) ?_
    rw [if_neg (Nat.not_le.mpr hrange)]
    exact vectorResult_move _ _ hi hs hb hd fun l xs => by simp
  | vshup o n fill wf =>
    cases hrow
    refine runs_of_settle hi (by rfl) ?_
    rw [if_neg (shiftCount_inRange hrange)]
    exact vectorResult_move _ _ hi hs hb hd fun l xs => by simp only [apply_ite (BitVec.ofNat 32), BitVec.ofNat_toNat, BitVec.setWidth_eq]
  | vshdn o n fill wf =>
    cases hrow
    refine runs_of_settle hi (by rfl) ?_
    rw [if_neg (shiftCount_inRange hrange)]
    exact vectorResult_move _ _ hi hs hb hd fun l xs => by simp only [apply_ite (BitVec.ofNat 32), BitVec.ofNat_toNat, BitVec.setWidth_eq]
  | vbcast o b =>
    cases hrow
    refine runs_of_settle hi (by rfl) ?_
    exact vectorResult_move _ _ hi hs hb hd fun l xs => by simp
  | _ => cases hrow

section
variable {s : State} {c : Ctx} (hi : s.issuer = some c)
include hi

/-- VRDL writes the words of its lane (R156). -/
theorem runs_vrdl (d : SReg) (a : VField) (b : SReg) (sz wa : Bool) (hs : ScalarsFull c.g [b, d])
    (hb : BitsOk c (c.lanes 0) [⟨a, wa, some (if sz then 2 else 1)⟩]) : Runs (.vrdl d a b sz wa) s (After c s (c.g.setS d.toNat
      (BitVec.ofNat 64 (c.read a.toNat (if sz then 2 else 1) ((c.g.s b.toNat).toNat % c.width))))) := by
  have hplaced : c.placed [(a, if sz then 2 else 1)] = .ok () := Ctx.placed_singleton (Ctx.fits_of_checkBits hb (List.mem_singleton_self _))
  have hscalars : c.checkScalars [b.toNat, d.toNat] = .ok () := checkScalars_of_full hs
  have hbits : c.checkBits (c.lanes 0) [⟨a, wa, some (if sz then 2 else 1)⟩] = .ok () := hb
  refine runs_of_settle hi (by rfl) ?_
  simp only [hplaced, hscalars, hbits, guardW_ok]
  exact settle_modGroup hi (fun g => g.setS d.toNat _) [] (by decide)

/-- VWRL writes the words of its lane alone (R156). -/
theorem runs_vwrl (d : VField) (a b : SReg) (sz : Bool) (hs : ScalarsFull c.g [a, b])
    (hd : c.checkDst (c.lanes 0) d (if sz then 2 else 1) = .ok ()) : Runs (.vwrl d a b sz) s (After c s (c.g.writeLanes
      (laneWrites d.toNat (if sz then 2 else 1) ((c.g.s b.toNat).toNat % c.width) (c.g.s a.toNat).toNat))) := by
  have hplaced : c.placed [(d, if sz then 2 else 1)] = .ok () := Ctx.placed_singleton (Ctx.fits_of_checkDst hd)
  have hscalars : c.checkScalars [a.toNat, b.toNat] = .ok () := checkScalars_of_full hs
  refine runs_of_settle hi (by rfl) ?_
  simp only [hplaced, hscalars, hd, guardW_ok]
  exact settle_modGroup hi (fun g => g.writeLanes _) [] (by decide)

/-- VVOTE writes the vote of the lanes that resolve its source (R157). -/
theorem runs_vvote (d : SReg) (a : VField) (opr : BitVec 2) (m : MField) (wa : Bool) (hs : ScalarsFull c.g [m.setWidth 7, d])
    (hb : BitsOk c (c.lanes m) [⟨a, wa, some 1⟩]) :
    Runs (.vvote d a opr m wa) s (After c s (c.g.setS d.toNat (voteOf opr (laneBits c (c.lanes m) a 1)))) := by
  have hplaced : c.placed [(a, 1)] = .ok () := Ctx.placed_singleton (Ctx.fits_of_checkBits hb (List.mem_singleton_self _))
  have hscalars : c.checkScalars [m.toNat, d.toNat] = .ok () := by rw [← mask_toNat]; exact checkScalars_of_full hs
  have hbits : c.checkBits (c.lanes m) [⟨a, wa, some 1⟩] = .ok () := hb
  refine runs_of_settle hi (by rfl) ?_
  simp only [hplaced, hscalars, hbits, guardW_ok, Ctx.laneValues_fst]
  exact settle_modGroup hi (fun g => g.setS d.toNat _) _ (c.integrity_notMem_laneValues (c.lanes m) a 1)

/-- XGET writes the index register of each lane (R161). -/
theorem runs_xget (d : VField) (x : BitVec 3) (m : MField) (hs : ScalarsFull c.g [m.setWidth 7]) (hd : c.checkDst (c.lanes m) d 1 = .ok ()) :
    Runs (.xget d x m) s (VectorResult c s (c.lanes m) [] d 1 .n32 fun l _ _ => ⟨(c.g.x x.toNat l).toNat, 0⟩) := by
  have hm : c.checkScalars [m.toNat] = .ok () := by rw [← mask_toNat]; exact checkScalars_of_full hs
  refine runs_of_settle hi (by rfl) ?_
  rw [vectorWord_noSources s rfl hm hd]
  exact vector_core hi m [] d ⟨.n32, fun l _ _ => ⟨(c.g.x x.toNat l).toNat, 0⟩⟩ .n32 fun _ _ b _ _ => Nat.zero_testBit b

end

/-- Settles O6: what each word writes (`runs_vrdl`, `runs_vwrl`, `runs_vvote`, `runs_xget`), read word by word and lane by lane. -/
theorem laneReadsWritesAndVotes : Obligations.LaneReadsWritesAndVotes := by
  unfold Obligations.LaneReadsWritesAndVotes
  refine ⟨fun d a b sz wa s c hi hs hb => ?_, fun d a b sz s c hi hs hd _ => ?_, fun d a opr m wa s c hi hs hb => ?_,
    fun d x m s c hi hs hd => runs_xget hi d x m hs hd⟩
  · intro k
    rw [← ofNat_read_lane]
    exact runs_vrdl hi d a b sz wa hs hb
  · intro k
    obtain ⟨u, hrun, hafter⟩ := runs_vwrl hi d a b sz hs hd
    obtain ⟨hsregs, -, -, -, -, hctrs, hsp⟩ := Group.writeLanes_rest (laneWrites d.toNat (if sz then 2 else 1) k (c.g.s a.toNat).toNat) c.g
    have hword : ∀ j < if sz then 2 else 1, _ := fun j => Group.lane_writeLanes_laneWrites c.g d.toNat _ k (c.g.s a.toNat).toNat (j := j)
    refine ⟨u, hrun, _, hafter, ?_, ?_, fun r l h => ?_, Group.v_writeLanes _ _, hsregs, hctrs, hsp⟩
    · exact (hword 0 (by split <;> decide)).trans (ofNat_lowWord _)
    · rintro rfl
      exact (hword 1 (by decide)).trans (ofNat_highWord _)
    · refine Group.lane_writeLanes_laneWrites_other _ _ _ _ _ fun j hj ⟨hr, hl⟩ => h ⟨hl.symm, ?_⟩
      cases sz with
      | false =>
        obtain rfl : j = 0 := Nat.lt_one_iff.mp hj
        exact .inl hr.symm
      | true =>
        have hj' : j < 2 := hj
        have hr' : r = d.toNat ∨ r = d.toNat + 1 := by omega
        exact hr'.imp_right fun e => ⟨rfl, e⟩
  · obtain ⟨u, hrun, hafter⟩ := runs_vvote hi d a opr m wa hs hb
    refine ⟨u, hrun, _, hafter, ?_, ?_, ?_⟩
    · rintro rfl; exact voteOf_any _
    · rintro rfl; exact voteOf_all _
    · rintro rfl l hl; exact getLsbD_voteOf_ballot _ hl

end Sys2Proof.Claims
end
